-- ==== Sys2Proof/Word.lean ====
section
/-! DEFINITION. Word and byte types, and the sparse map that holds every addressed array (00 R4, 02 R41). -/

namespace Sys2Proof

/-- One byte of memory (R4: values in memory are little-endian bytes). -/
abbrev Byte := BitVec 8

/-- One 32-bit register, parcel or scalar word (R41). -/
abbrev Word := BitVec 32

/-- A 64-bit value: an even and odd pair of scalar registers (R42), or an 8-byte record field. -/
abbrev DWord := BitVec 64

/-- A set of lanes, bit L for lane L; no crew is wider than 64 (R10). -/
abbrev Mask := BitVec 64

/-- A scalar register number as a scalar word's 6-bit field holds it (R123). -/
abbrev Reg := BitVec 6

/-- Finitely many keys with a value, in ONE form: keys strictly rising, no entry holding the value an
unlisted key reads as. The operations stand in Machine/Cells.lean. -/
abbrev SMap (α : Type) := List (Nat × α)

/-- A sparse array of w-bit values; an unlisted key reads as zero. -/
abbrev Cells (w : Nat) := SMap (BitVec w)

end Sys2Proof
end

