-- ==== Sys2Proof/Syntax.lean ====
section
/-! DEFINITION. The instructions: one constructor for each row of spec/opcode_table.json (06 R122 to R135; 95 for
the steps that have no encoding). -/

namespace Sys2Proof

/-- The conditions of B.cond (R128). -/
inductive Cond where
  | eq | ne | lt | ge | ltu | geu
  deriving DecidableEq, Repr

/-- The special registers, in code order 0 to 16 (R54). -/
inductive Special where
  | tid | lane | crew | ncrews | width | role | wgx | wgy | wgz | nwgx | nwgy | nwgz | core | die | depth | cycles | jcur
  deriving DecidableEq, Repr

/-- Scopes, in code order 0 to 6 (R104). -/
inductive Scope where
  | crew | wg | core | die | dev | dom | sys
  deriving DecidableEq, Repr

/-- Memory classes, in code order 0 to 2 (R105). -/
inductive MemClass where
  | weak | strong | nt
  deriving DecidableEq, Repr

/-- FENCE kinds, in code order 0 to 2 (R111, R126). -/
inductive FenceKind where
  | rel | acq | ar
  deriving DecidableEq, Repr

/-- Atomic operations, in code order 0 to 10 (R127). -/
inductive AtomOp where
  | add | fadd | min | max | minu | maxu | and | or | xor | xchg | cas
  deriving DecidableEq, Repr

/-- Access paths with an in-flight counter, in WAITC code order 0 to 4 (R50). -/
inductive Path where
  | ld | st | cp | tl | ft
  deriving DecidableEq, Repr

/-- The fields of a lane instruction but its opcode, as R129 lays out parcels 0 and 1; parcel 2 is kept whole and read
through the accessors of Machine/Bits.lean by the form R132 gives. -/
structure LaneFields where
  /-- parcel 0 bits 31:24 -/
  dest : BitVec 8
  /-- parcel 0 bits 23:20; NC and two reserved bits in forms M and C (R134) -/
  type : BitVec 4
  /-- parcel 0 bit 19 -/
  sat : Bool
  /-- parcel 0 bits 18:16: policy of c, b, a (R47) -/
  pol : BitVec 3
  /-- parcel 0 bit 15 (R49) -/
  reuse : Bool
  /-- parcel 0 bit 14: end of run (R137) -/
  eor : Bool
  /-- parcel 0 bit 13 -/
  gneg : Bool
  /-- parcel 0 bits 12:10 -/
  guard : BitVec 3
  /-- parcel 1 bits 31:28 -/
  subop : BitVec 4
  /-- parcel 1 bits 27:26 -/
  ixreg : BitVec 2
  /-- parcel 1 bits 25:24 -/
  isel : BitVec 2
  /-- parcel 1 bits 23:16, 15:8, 7:0 -/
  srcc : BitVec 8
  srcb : BitVec 8
  srca : BitVec 8
  /-- parcel 2 -/
  p2 : Word
  deriving DecidableEq, Repr

/-- Which crew: the model's name of its workgroup and its crew slot there. -/
structure CrewKey where
  wid : Nat
  slot : Nat
  deriving DecidableEq, Repr

/-- A privileged or doorbell register that a write may name and that has no row of its own (row REGISTER_WRITE). -/
inductive SysReg where
  /-- offset in a queue's doorbell page, other than an aligned 8-byte write at 0x000 (R300) -/
  | doorbell (queue offset size : Nat)
  /-- Roldy aperture entry (R296) -/
  | aperture (index : Nat)
  /-- entry of a tenant's fabric table (R309) -/
  | fabric (tenant index : Nat)
  /-- protection window of a plug-in (R297) -/
  | window (tenant index : Nat)
  /-- the priority that the tenant's plug-in gives a queue (R297) -/
  | priority (queue : Nat)
  /-- length of the error window in ms (R359) -/
  | windowMs
  /-- errors in a window that mark a fault lasting (R359) -/
  | thresh
  deriving DecidableEq, Repr

/-- What a request from the host or a peer does to memory (R293, R296). -/
inductive BusOp where
  | read (size : Nat)
  | write (data : List Byte)
  | atomic (op : AtomOp) (wide : Bool) (operand compare : DWord)
  deriving DecidableEq, Repr

/-- What an access of the host names. -/
inductive HostTarget where
  /-- a physical address (R293); `ctx` is the context it acts for where the line has no owner yet -/
  | memory (pa : Nat) (ctx : Option Nat)
  /-- an offset in a queue's doorbell page, read (R300) -/
  | doorbell (queue offset : Nat)
  /-- a mailbox of Sett, in BAR 0 (R364) -/
  | mailbox (offset : Nat)
  /-- configuration space of function 0, read (R362) -/
  | config (offset : Nat)
  deriving DecidableEq, Repr

/-- A firmware image: its bytes, which begin with its security version, the public key that comes with it, and its signature
(R362). -/
structure FlashImage where
  bytes : List Byte
  key : List Byte
  signature : BitVec 3072
  deriving DecidableEq, Repr

/-- The SRAM arrays, in the code order of an error record's ARRAY field (R360); the last two are the translation caches
and the firmware's lines (R357). -/
inductive SramArray where
  | laneRegs | scalarQueues | tiles | acc | scratch | codebooks | fetchCache | datapath | dieCache | burrow | other
  | translation | firmware
  deriving DecidableEq, Repr

/-- One instruction or one event of the machine. Scalar constructors carry the operands of R122 to R128; lane constructors
carry the fields of R129; event constructors carry which of the allowed choices comes about. -/
inductive Instr where
  | add (d a b : Reg)
  | sub (d a b : Reg)
  | mul (d a b : Reg)
  | mulh (d a b : Reg)
  | mulhu (d a b : Reg)
  | div (d a b : Reg)
  | divu (d a b : Reg)
  | rem (d a b : Reg)
  | remu (d a b : Reg)
  | andR (d a b : Reg)
  | orR (d a b : Reg)
  | xorR (d a b : Reg)
  | shl (d a b : Reg)
  | shr (d a b : Reg)
  | sra (d a b : Reg)
  | min (d a b : Reg)
  | max (d a b : Reg)
  | minu (d a b : Reg)
  | maxu (d a b : Reg)
  | slt (d a b : Reg)
  | sltu (d a b : Reg)
  | seq (d a b : Reg)
  | clz (d a : Reg)
  | popc (d a : Reg)
  | mov (d a : Reg)
  | add64 (d a b : Reg)
  | addi (d a : Reg) (i : BitVec 14)
  | andi (d a : Reg) (i : BitVec 14)
  | ori (d a : Reg) (i : BitVec 14)
  | xori (d a : Reg) (i : BitVec 14)
  | shli (d a : Reg) (sh : BitVec 5)
  | shri (d a : Reg) (sh : BitVec 5)
  | srai (d a : Reg) (sh : BitVec 5)
  | lui (d : Reg) (i : BitVec 20)
  | li (d : Reg) (i : Word)
  | sel (d a b c : Reg)
  | lea (d a b : Reg) (sh : BitVec 5)
  | bcond (c : Cond) (a b : Reg) (off : BitVec 10)
  | jmp (off : BitVec 26)
  | jal (off : BitVec 26)
  | jr (d a : Reg)
  | loop (a : Reg) (off : BitVec 10)
  | lrun (a : Reg) (off : Word)
  | gets (d : Reg) (sp : Special)
  | fence (k : FenceKind) (sc : Scope)
  | drain (sc : Scope)
  | sld (d a : Reg) (off : BitVec 7) (cls : MemClass) (sc : Scope) (sz : BitVec 2)
  | sst (d a : Reg) (off : BitVec 7) (cls : MemClass) (sc : Scope) (sz : BitVec 2)
  | ldk (d a : Reg) (i : BitVec 14)
  | satom (d a b : Reg) (op : AtomOp) (sc : Scope) (wide : Bool)
  | binit (o : BitVec 4) (a : Reg)
  | bexp (o : BitVec 4) (a b : Reg)
  | barr (o : BitVec 4)
  | bwait (o : BitVec 4) (par : Bool)
  | btry (d : Reg) (o : BitVec 4) (par : Bool)
  | tload (t : BitVec 4) (a b z : Reg) (m : BitVec 5) (bar : Option (BitVec 4)) (off : BitVec 16)
  | tstore (t : BitVec 4) (a b z : Reg) (m : BitVec 5) (off : BitVec 16)
  | cpseal (d : Reg) (bar : Option (BitVec 4))
  | cpwait (a : Reg) (n : BitVec 8)
  | cbload (cb : BitVec 3) (a : Reg) (e : BitVec 2)
  | waitc (p : Path) (a : Reg)
  | tlook (d a : Reg)
  | tfill (d a b : Reg)
  | tdrop (a : Reg)
  | aalloc (h : BitVec 5)
  | agrow (d : Reg) (h : BitVec 5)
  | agrowDenial (k : CrewKey)
  | afree (h : BitVec 5)
  | group (a : Reg) (pack : Bool)
  | join (k : BitVec 5) (left : Bool) (a : Reg)
  | joinc (k : BitVec 5) (left : Bool) (a : Reg)
  | ssopen (d a b : Reg)
  | ssld (d a b : Reg) (t : BitVec 4)
  | ssst (d a b : Reg) (t : BitVec 4)
  | sssnap (d a b : Reg)
  | ssroll (d a b : Reg)
  | ssfork (d a b : Reg)
  | sscommit (d a b : Reg)
  | ssclose (d a : Reg)
  | kvld (d a b c : Reg) (t : BitVec 4) (m : BitVec 5)
  | kvapp (d a b c : Reg) (t : BitVec 4) (m : BitVec 5)
  | kvtrunc (a b : Reg) (m : BitVec 5)
  | kvstep (d a : Reg) (m : BitVec 5)
  | launch (d a : Reg)
  | trap (code : BitVec 14)
  | nop
  | lsync
  | exit
  | cwait
  | bkpt
  | illop (w0 w1 w2 : Word)
  | iadd (f : LaneFields)
  | iaddI (f : LaneFields)
  | isub (f : LaneFields)
  | isubI (f : LaneFields)
  | imul (f : LaneFields)
  | imulI (f : LaneFields)
  | imulh (f : LaneFields)
  | imulhI (f : LaneFields)
  | imad (f : LaneFields)
  | imin (f : LaneFields)
  | iminI (f : LaneFields)
  | imax (f : LaneFields)
  | imaxI (f : LaneFields)
  | iabs (f : LaneFields)
  | ineg (f : LaneFields)
  | iset (f : LaneFields)
  | isetI (f : LaneFields)
  | land (f : LaneFields)
  | landI (f : LaneFields)
  | lor (f : LaneFields)
  | lorI (f : LaneFields)
  | lxor (f : LaneFields)
  | lxorI (f : LaneFields)
  | andn (f : LaneFields)
  | andnI (f : LaneFields)
  | lnot (f : LaneFields)
  | lop (f : LaneFields)
  | lshl (f : LaneFields)
  | lshlI (f : LaneFields)
  | lshr (f : LaneFields)
  | lshrI (f : LaneFields)
  | lsra (f : LaneFields)
  | lsraI (f : LaneFields)
  | rotl (f : LaneFields)
  | rotlI (f : LaneFields)
  | lpopc (f : LaneFields)
  | lclz (f : LaneFields)
  | brev (f : LaneFields)
  | bfe (f : LaneFields)
  | bfi (f : LaneFields)
  | llea (f : LaneFields)
  | lleaI (f : LaneFields)
  | lsel (f : LaneFields)
  | lmov (f : LaneFields)
  | movi (f : LaneFields)
  | fadd (f : LaneFields)
  | faddI (f : LaneFields)
  | fsub (f : LaneFields)
  | fsubI (f : LaneFields)
  | fmul (f : LaneFields)
  | fmulI (f : LaneFields)
  | ffma (f : LaneFields)
  | fmin (f : LaneFields)
  | fminI (f : LaneFields)
  | fmax (f : LaneFields)
  | fmaxI (f : LaneFields)
  | fset (f : LaneFields)
  | fsetI (f : LaneFields)
  | frcp (f : LaneFields)
  | frsq (f : LaneFields)
  | fsqrt (f : LaneFields)
  | fexp2 (f : LaneFields)
  | flog2 (f : LaneFields)
  | fclass (f : LaneFields)
  | hadd2 (f : LaneFields)
  | hadd2I (f : LaneFields)
  | hmul2 (f : LaneFields)
  | hmul2I (f : LaneFields)
  | hfma2 (f : LaneFields)
  | cvt (f : LaneFields)
  | qnt (f : LaneFields)
  | dqt (f : LaneFields)
  | route (f : LaneFields)
  | routeI (f : LaneFields)
  | vote (f : LaneFields)
  | redux (f : LaneFields)
  | scan (f : LaneFields)
  | matchL (f : LaneFields)
  | plop (f : LaneFields)
  | xset (f : LaneFields)
  | xsetI (f : LaneFields)
  | xadd (f : LaneFields)
  | xaddI (f : LaneFields)
  | xget (f : LaneFields)
  | getl (f : LaneFields)
  | ld (f : LaneFields)
  | st (f : LaneFields)
  | atom (f : LaneFields)
  | cpy (f : LaneFields)
  | fetch (f : LaneFields)
  | ifL (f : LaneFields)
  | elseL (f : LaneFields)
  | fi (f : LaneFields)
  | doL (f : LaneFields)
  | whileL (f : LaneFields)
  | brk (f : LaneFields)
  | mma (f : LaneFields)
  | accz (f : LaneFields)
  | accrd (f : LaneFields)
  | accwr (f : LaneFields)
  | acccvt (f : LaneFields)
  | isect (f : LaneFields)
  | rand (f : LaneFields)
  | sample (f : LaneFields)
  | topk (f : LaneFields)
  | accept (f : LaneFields)
  | lnop (f : LaneFields)
  | runComplete (k : CrewKey)
  | loadLands (k : CrewKey) (id : Nat) (units : List Nat)
  | storePerformed (k : CrewKey) (id : Nat) (units : List Nat)
  | copyLands (k : CrewKey) (id : Nat) (lanes : List Nat)
  | tloadPieceLands (k : CrewKey) (id : Nat) (units : List Nat)
  | tstorePerformed (k : CrewKey) (id : Nat) (units : List Nat)
  | fetchLands (k : CrewKey) (id : Nat) (lanes : List Nat)
  | kvldLands (k : CrewKey) (id : Nat)
  | cbloadCompletes (k : CrewKey) (id : Nat)
  | mmaCommit (k : CrewKey)
  | notifyWrite (func queue : Nat) (value : DWord)
  | registerWrite (func : Nat) (r : SysReg) (value : BitVec 256)
  | launchAcceptance (queue : Nat)
  | barrierPacketStart (queue : Nat)
  | dependenceRecheck (queue : Nat)
  | deviceQueueTake (ctx : Nat)
  | fabricLaunchPacket (srcPkg srcCtx queue : Nat) (approved : Bool) (packet : List Byte)
  | peerAccess (srcPkg srcCtx addr : Nat) (op : BusOp)
  | hostAccess (target : HostTarget) (op : BusOp)
  | dispatcherDraw (die seq : Nat)
  | workgroupAdmission (die seq : Nat)
  | coresidentAdmission (seq : Nat) (order : List Nat)
  | workgroupRetirement (wid : Nat)
  | walkComplete (k : CrewKey) (id : Nat)
  | replay (k : CrewKey) (id : Nat)
  | decline (k : CrewKey) (id : Nat)
  | shootdown (io : Nat) (cmd : BitVec 128)
  | shootdownAcknowledge (io : Nat)
  | moveCommand (io : Nat) (cmd : BitVec 256)
  | ladderCommand (io : Nat) (cmd : BitVec 256)
  | saveRungStart (io pool : Nat)
  | quiesceLimitExpiry (io pool : Nat)
  | saveDeadlineExpiry (io pool : Nat)
  | resumeCommand (io : Nat) (cmd : BitVec 128)
  | workgroupResumption (pool area die : Nat)
  | debugCrewResume (k : CrewKey)
  | kill (ctx : Nat)
  | contextActivate (ctx part tenant : Nat) (desc : BitVec 512)
  | contextChange (ctx : Nat) (debug : Bool) (devq : DWord)
  | contextRelease (ctx : Nat)
  | releaseSweepDone (ctx : Nat)
  | regionTableWrite (index : Nat) (entry : BitVec 128)
  | keySlotWrite (index : Nat) (key : BitVec 512)
  | queueActivate (queue : Nat) (desc : BitVec 320)
  | functionLevelReset (func : Nat)
  | packageReset (flash : Option (List FlashImage))
  | getVersion
  | getCapabilities
  | negotiateAlgorithms (hash sign : Nat)
  | getDigests
  | getCertificate (slot : Nat)
  | challenge (nonce : BitVec 256)
  | getMeasurements
  | pluginTimeLimit (tenant : Nat)
  | pluginRestart (tenant : Nat)
  | hedgehogScrub (array : SramArray) (die core region : Nat) (line : Nat) (bad : Nat)
  | errorWindowExpiry (io : Nat)
  | partitionResize (part : Nat) (cores : List (Nat × Nat))
  | thermalLimit (die : Nat)
  | thermalCooled (die : Nat)
  | linkTrainingFailure (link : Nat)
  | queueDisable (queue : Nat)
  | coreWorldChange (die core : Nat) (secure : Bool)
  | pluginWindowViolation (tenant addr : Nat)
  | pin (pteAddr : Nat) (take : Bool)
  | dieCacheWriteBack (line : Nat)
  | burrowWriteBack (ctx leaf : Nat)
  deriving DecidableEq, Repr

/-- Whose move comes next: a crew's scalar stream, its lane stream, or an event; or a line of a core's fetch cache, which a workgroup
there fills with its code (R290). -/
inductive Turn where
  | scalar (k : CrewKey)
  | lane (k : CrewKey)
  | event (i : Instr)
  | line (wid line : Nat)
  deriving DecidableEq, Repr

end Sys2Proof
end

