-- ==== Sys2Proof/Machine/Bits.lean ====
section
/-! DEFINITION. Bit-field, sign-extension and byte-order helpers (00 R4, R7), and the parcel 2 fields of a lane
instruction by form (06 R132). -/

namespace Sys2Proof

/-- Bits lo + len - 1 to lo of x (R7 `bits`). -/
def fld {n : Nat} (x : BitVec n) (lo len : Nat) : BitVec len := x.extractLsb' lo len

/-- The same field as a number. -/
def nfld {n : Nat} (x : BitVec n) (lo len : Nat) : Nat := (x.extractLsb' lo len).toNat

/-- x with the number v in bits lo + len - 1 to lo. -/
def setFld {n : Nat} (x : BitVec n) (lo len v : Nat) : BitVec n :=
  (x &&& ~~~(BitVec.ofNat n (2 ^ len - 1) <<< lo)) ||| (BitVec.ofNat n (v % 2 ^ len) <<< lo)

/-- One bit of x. -/
def flag {n : Nat} (x : BitVec n) (i : Nat) : Bool := x.getLsbD i

/-- A Bool as one bit. -/
def bit (b : Bool) : BitVec 1 := if b then 1#1 else 0#1

/-- The value of little-endian bytes (R4). -/
def leNat : List Byte → Nat
  | [] => 0
  | b :: bs => b.toNat + 256 * leNat bs

/-- The low n bytes of x, least significant first (R4). -/
def leBytes : Nat → Nat → List Byte
  | 0, _ => []
  | n + 1, x => BitVec.ofNat 8 x :: leBytes n (x / 256)

/-- Clamp (R7 `sat`). -/
def satInt (x lo hi : Int) : Int := if x < lo then lo else if hi < x then hi else x

/-- Number of one bits among bits n-1 to 0 (POPC). -/
def popNat {w : Nat} (x : BitVec w) : Nat := ((List.range w).filter (fun i => x.getLsbD i)).length

/-- Count of leading zero bits, the width for zero (CLZ). -/
def clzNat {w : Nat} (x : BitVec w) : Nat := if x = 0 then w else w - 1 - Nat.log2 x.toNat

/-- The register after an even one: the odd half of its pair (R42). -/
def Reg.odd (r : Reg) : Reg := r ||| 1#6

/-- An even register number (R42). -/
def Reg.isEven (r : Reg) : Bool := !r.getLsbD 0

/-- Code of a memory class (R105). -/
def MemClass.code : MemClass → BitVec 2
  | .weak => 0 | .strong => 1 | .nt => 2

/-- Class of a code; 3 is no class (R105). -/
def MemClass.ofCode (c : BitVec 2) : Option MemClass :=
  match c.toNat with | 0 => some .weak | 1 => some .strong | 2 => some .nt | _ => none

/-- Code of a scope (R104). -/
def Scope.code : Scope → BitVec 3
  | .crew => 0 | .wg => 1 | .core => 2 | .die => 3 | .dev => 4 | .dom => 5 | .sys => 6

/-- Scope of a code; 7 is no scope (R104). -/
def Scope.ofCode (c : BitVec 3) : Option Scope :=
  match c.toNat with
  | 0 => some .crew | 1 => some .wg | 2 => some .core | 3 => some .die | 4 => some .dev | 5 => some .dom
  | 6 => some .sys | _ => none

/-- Code of an atomic operation (R127). -/
def AtomOp.code : AtomOp → BitVec 4
  | .add => 0 | .fadd => 1 | .min => 2 | .max => 3 | .minu => 4 | .maxu => 5 | .and => 6 | .or => 7 | .xor => 8
  | .xchg => 9 | .cas => 10

/-- Atomic operation of a code; 11 to 15 are none (R127). -/
def AtomOp.ofCode (c : BitVec 4) : Option AtomOp :=
  match c.toNat with
  | 0 => some .add | 1 => some .fadd | 2 => some .min | 3 => some .max | 4 => some .minu | 5 => some .maxu
  | 6 => some .and | 7 => some .or | 8 => some .xor | 9 => some .xchg | 10 => some .cas | _ => none

/-- Code of a FENCE kind (R126). -/
def FenceKind.code : FenceKind → BitVec 2
  | .rel => 0 | .acq => 1 | .ar => 2

/-- FENCE kind of a code; 3 is none (R126). -/
def FenceKind.ofCode (c : BitVec 2) : Option FenceKind :=
  match c.toNat with | 0 => some .rel | 1 => some .acq | 2 => some .ar | _ => none

/-- WAITC code of a path (R50). -/
def Path.code : Path → BitVec 3
  | .ld => 0 | .st => 1 | .cp => 2 | .tl => 3 | .ft => 4

/-- Path of a WAITC code; 5 to 7 are none (R50). -/
def Path.ofCode (c : BitVec 3) : Option Path :=
  match c.toNat with | 0 => some .ld | 1 => some .st | 2 => some .cp | 3 => some .tl | 4 => some .ft | _ => none

/-- Code of a B.cond condition (R128). -/
def Cond.code : Cond → BitVec 4
  | .eq => 0 | .ne => 1 | .lt => 2 | .ge => 3 | .ltu => 4 | .geu => 5

/-- Condition of a code; 6 to 15 are none (R128). -/
def Cond.ofCode (c : BitVec 4) : Option Cond :=
  match c.toNat with
  | 0 => some .eq | 1 => some .ne | 2 => some .lt | 3 => some .ge | 4 => some .ltu | 5 => some .geu | _ => none

/-- Code of a special (R54). -/
def Special.code : Special → BitVec 6
  | .tid => 0 | .lane => 1 | .crew => 2 | .ncrews => 3 | .width => 4 | .role => 5 | .wgx => 6 | .wgy => 7 | .wgz => 8
  | .nwgx => 9 | .nwgy => 10 | .nwgz => 11 | .core => 12 | .die => 13 | .depth => 14 | .cycles => 15 | .jcur => 16

/-- Special of a code; 17 to 63 are none (R54). -/
def Special.ofCode (c : BitVec 6) : Option Special :=
  match c.toNat with
  | 0 => some .tid | 1 => some .lane | 2 => some .crew | 3 => some .ncrews | 4 => some .width | 5 => some .role
  | 6 => some .wgx | 7 => some .wgy | 8 => some .wgz | 9 => some .nwgx | 10 => some .nwgy | 11 => some .nwgz
  | 12 => some .core | 13 => some .die | 14 => some .depth | 15 => some .cycles | 16 => some .jcur | _ => none

/-! Parcel 2 fields (R132). -/

/-- Forms G, M, X: an operand is indexed. -/
def LaneFields.ixe (f : LaneFields) : Bool := flag f.p2 31
def LaneFields.ixoff (f : LaneFields) : BitVec 4 := fld f.p2 27 4
/-- Form G: run constant number and the source it replaces (R135). -/
def LaneFields.knum (f : LaneFields) : BitVec 3 := fld f.p2 24 3
def LaneFields.ksrc (f : LaneFields) : BitVec 2 := fld f.p2 22 2
def LaneFields.lut (f : LaneFields) : BitVec 8 := fld f.p2 0 8
/-- Form M. -/
def LaneFields.scope (f : LaneFields) : BitVec 3 := fld f.p2 24 3
def LaneFields.off16 (f : LaneFields) : BitVec 16 := fld f.p2 8 16
def LaneFields.mslot (f : LaneFields) : BitVec 5 := fld f.p2 3 5
def LaneFields.cls (f : LaneFields) : BitVec 2 := fld f.p2 1 2
def LaneFields.sp (f : LaneFields) : Bool := flag f.p2 0
/-- Form C. -/
def LaneFields.ben (f : LaneFields) : Bool := flag f.p2 31
def LaneFields.bnum (f : LaneFields) : BitVec 4 := fld f.p2 27 4
def LaneFields.cbnum (f : LaneFields) : BitVec 3 := fld f.p2 24 3
/-- Form X. -/
def LaneFields.fb (f : LaneFields) : BitVec 3 := fld f.p2 8 3
def LaneFields.use (f : LaneFields) : Bool := flag f.p2 3
def LaneFields.fa (f : LaneFields) : BitVec 3 := fld f.p2 0 3
/-- Form S. -/
def LaneFields.xreg (f : LaneFields) : BitVec 6 := fld f.p2 16 6
def LaneFields.simm (f : LaneFields) : BitVec 16 := fld f.p2 0 16
/-- TYPE 1 is S32 (R131). -/
def LaneFields.signed (f : LaneFields) : Bool := f.type == 1
/-- Number of coordinates in forms M and C (R134). -/
def LaneFields.nc (f : LaneFields) : Nat := nfld f.type 0 2
/-- The special that SRCA names in GETL (R185). -/
def LaneFields.special (f : LaneFields) : Special := (Special.ofCode (fld f.srca 0 6)).getD .lane

end Sys2Proof
end

