-- ==== Sys2Proof/Machine/Table.lean ====
section
/-! DEFINITION. The lane opcode map of R133 as a table, and what makes a lane instruction's fields legal (06 R129 to R136);
the operand limits of a scalar word (06 R42, R123 to R128; 07). -/

namespace Sys2Proof

/-- Parcel 2 forms (R132). -/
inductive Form where
  | G | I | M | C | X | S | N
  deriving DecidableEq, Repr

/-- Operand kinds (R130). -/
inductive Kind where
  | V | P | S | X | A | T | none
  deriving DecidableEq, Repr

/-- One row of R133. -/
structure LaneRow where
  opc : BitVec 10
  form : Form
  dest : Kind
  a : Kind
  b : Kind
  c : Kind
  /-- accepted TYPE codes; not used in forms M and C, where TYPE holds NC -/
  types : List Nat
  sat : Bool
  /-- greatest SUBOP code -/
  subMax : Nat
  deriving DecidableEq, Repr

/-- The row of R133 for a lane instruction (OPC + 0x200 for form I); none for a scalar word or an event. -/
def laneRow : Instr → Option LaneRow
  | .iadd _ => some ⟨0x001#10, .G, .V, .V, .V, .none, [0, 1], true, 0⟩
  | .iaddI _ => some ⟨0x201#10, .I, .V, .V, .none, .none, [0, 1], true, 0⟩
  | .isub _ => some ⟨0x002#10, .G, .V, .V, .V, .none, [0, 1], true, 0⟩
  | .isubI _ => some ⟨0x202#10, .I, .V, .V, .none, .none, [0, 1], true, 0⟩
  | .imul _ => some ⟨0x003#10, .G, .V, .V, .V, .none, [0, 1], true, 0⟩
  | .imulI _ => some ⟨0x203#10, .I, .V, .V, .none, .none, [0, 1], true, 0⟩
  | .imulh _ => some ⟨0x004#10, .G, .V, .V, .V, .none, [0, 1], false, 0⟩
  | .imulhI _ => some ⟨0x204#10, .I, .V, .V, .none, .none, [0, 1], false, 0⟩
  | .imad _ => some ⟨0x005#10, .G, .V, .V, .V, .V, [0, 1], true, 0⟩
  | .imin _ => some ⟨0x006#10, .G, .V, .V, .V, .none, [0, 1], false, 0⟩
  | .iminI _ => some ⟨0x206#10, .I, .V, .V, .none, .none, [0, 1], false, 0⟩
  | .imax _ => some ⟨0x007#10, .G, .V, .V, .V, .none, [0, 1], false, 0⟩
  | .imaxI _ => some ⟨0x207#10, .I, .V, .V, .none, .none, [0, 1], false, 0⟩
  | .iabs _ => some ⟨0x008#10, .G, .V, .V, .none, .none, [1], true, 0⟩
  | .ineg _ => some ⟨0x009#10, .G, .V, .V, .none, .none, [1], true, 0⟩
  | .iset _ => some ⟨0x00A#10, .G, .P, .V, .V, .none, [0, 1], false, 5⟩
  | .isetI _ => some ⟨0x20A#10, .I, .P, .V, .none, .none, [0, 1], false, 5⟩
  | .land _ => some ⟨0x010#10, .G, .V, .V, .V, .none, [0], false, 0⟩
  | .landI _ => some ⟨0x210#10, .I, .V, .V, .none, .none, [0], false, 0⟩
  | .lor _ => some ⟨0x011#10, .G, .V, .V, .V, .none, [0], false, 0⟩
  | .lorI _ => some ⟨0x211#10, .I, .V, .V, .none, .none, [0], false, 0⟩
  | .lxor _ => some ⟨0x012#10, .G, .V, .V, .V, .none, [0], false, 0⟩
  | .lxorI _ => some ⟨0x212#10, .I, .V, .V, .none, .none, [0], false, 0⟩
  | .andn _ => some ⟨0x014#10, .G, .V, .V, .V, .none, [0], false, 0⟩
  | .andnI _ => some ⟨0x214#10, .I, .V, .V, .none, .none, [0], false, 0⟩
  | .lnot _ => some ⟨0x013#10, .G, .V, .V, .none, .none, [0], false, 0⟩
  | .lop _ => some ⟨0x015#10, .G, .V, .V, .V, .V, [0], false, 0⟩
  | .lshl _ => some ⟨0x016#10, .G, .V, .V, .V, .none, [0], false, 0⟩
  | .lshlI _ => some ⟨0x216#10, .I, .V, .V, .none, .none, [0], false, 0⟩
  | .lshr _ => some ⟨0x017#10, .G, .V, .V, .V, .none, [0], false, 0⟩
  | .lshrI _ => some ⟨0x217#10, .I, .V, .V, .none, .none, [0], false, 0⟩
  | .lsra _ => some ⟨0x018#10, .G, .V, .V, .V, .none, [0], false, 0⟩
  | .lsraI _ => some ⟨0x218#10, .I, .V, .V, .none, .none, [0], false, 0⟩
  | .rotl _ => some ⟨0x019#10, .G, .V, .V, .V, .none, [0], false, 0⟩
  | .rotlI _ => some ⟨0x219#10, .I, .V, .V, .none, .none, [0], false, 0⟩
  | .lpopc _ => some ⟨0x01A#10, .G, .V, .V, .none, .none, [0], false, 0⟩
  | .lclz _ => some ⟨0x01B#10, .G, .V, .V, .none, .none, [0], false, 0⟩
  | .brev _ => some ⟨0x01C#10, .G, .V, .V, .none, .none, [0], false, 0⟩
  | .bfe _ => some ⟨0x01D#10, .G, .V, .V, .V, .V, [0, 1], false, 0⟩
  | .bfi _ => some ⟨0x01E#10, .G, .V, .V, .V, .V, [0], false, 0⟩
  | .llea _ => some ⟨0x01F#10, .G, .V, .V, .V, .none, [0], false, 15⟩
  | .lleaI _ => some ⟨0x21F#10, .I, .V, .V, .none, .none, [0], false, 15⟩
  | .lsel _ => some ⟨0x020#10, .G, .V, .V, .V, .P, [0], false, 0⟩
  | .lmov _ => some ⟨0x021#10, .G, .V, .V, .none, .none, [0], false, 0⟩
  | .movi _ => some ⟨0x222#10, .I, .V, .none, .none, .none, [0], false, 0⟩
  | .fadd _ => some ⟨0x030#10, .G, .V, .V, .V, .none, [2], false, 0⟩
  | .faddI _ => some ⟨0x230#10, .I, .V, .V, .none, .none, [2], false, 0⟩
  | .fsub _ => some ⟨0x031#10, .G, .V, .V, .V, .none, [2], false, 0⟩
  | .fsubI _ => some ⟨0x231#10, .I, .V, .V, .none, .none, [2], false, 0⟩
  | .fmul _ => some ⟨0x032#10, .G, .V, .V, .V, .none, [2], false, 0⟩
  | .fmulI _ => some ⟨0x232#10, .I, .V, .V, .none, .none, [2], false, 0⟩
  | .fmin _ => some ⟨0x034#10, .G, .V, .V, .V, .none, [2], false, 0⟩
  | .fminI _ => some ⟨0x234#10, .I, .V, .V, .none, .none, [2], false, 0⟩
  | .fmax _ => some ⟨0x035#10, .G, .V, .V, .V, .none, [2], false, 0⟩
  | .fmaxI _ => some ⟨0x235#10, .I, .V, .V, .none, .none, [2], false, 0⟩
  | .ffma _ => some ⟨0x033#10, .G, .V, .V, .V, .V, [2], false, 0⟩
  | .fset _ => some ⟨0x036#10, .G, .P, .V, .V, .none, [2], false, 7⟩
  | .fsetI _ => some ⟨0x236#10, .I, .P, .V, .none, .none, [2], false, 7⟩
  | .frcp _ => some ⟨0x037#10, .G, .V, .V, .none, .none, [2], false, 0⟩
  | .frsq _ => some ⟨0x038#10, .G, .V, .V, .none, .none, [2], false, 0⟩
  | .fsqrt _ => some ⟨0x039#10, .G, .V, .V, .none, .none, [2], false, 0⟩
  | .fexp2 _ => some ⟨0x03A#10, .G, .V, .V, .none, .none, [2], false, 0⟩
  | .flog2 _ => some ⟨0x03B#10, .G, .V, .V, .none, .none, [2], false, 0⟩
  | .fclass _ => some ⟨0x03C#10, .G, .V, .V, .none, .none, [2], false, 0⟩
  | .hadd2 _ => some ⟨0x040#10, .G, .V, .V, .V, .none, [3, 4], false, 0⟩
  | .hadd2I _ => some ⟨0x240#10, .I, .V, .V, .none, .none, [3, 4], false, 0⟩
  | .hmul2 _ => some ⟨0x041#10, .G, .V, .V, .V, .none, [3, 4], false, 0⟩
  | .hmul2I _ => some ⟨0x241#10, .I, .V, .V, .none, .none, [3, 4], false, 0⟩
  | .hfma2 _ => some ⟨0x042#10, .G, .V, .V, .V, .V, [3, 4], false, 0⟩
  | .cvt _ => some ⟨0x048#10, .X, .V, .V, .none, .none, [0, 1, 2, 3, 4, 5, 6, 7, 8, 9, 10, 11, 12], true, 12⟩
  | .qnt _ => some ⟨0x049#10, .X, .V, .V, .none, .none, [0], false, 1⟩
  | .dqt _ => some ⟨0x04A#10, .X, .V, .V, .none, .none, [0], false, 1⟩
  | .route _ => some ⟨0x050#10, .G, .V, .V, .V, .V, [0], false, 3⟩
  | .routeI _ => some ⟨0x250#10, .I, .V, .V, .none, .V, [0], false, 3⟩
  | .vote _ => some ⟨0x051#10, .G, .S, .P, .none, .none, [0], false, 5⟩
  | .redux _ => some ⟨0x052#10, .G, .S, .V, .none, .none, [0, 1, 2], false, 7⟩
  | .scan _ => some ⟨0x053#10, .G, .V, .V, .none, .none, [0, 1, 2], false, 15⟩
  | .matchL _ => some ⟨0x054#10, .G, .V, .V, .none, .none, [0], false, 0⟩
  | .plop _ => some ⟨0x058#10, .G, .P, .P, .P, .P, [0], false, 0⟩
  | .xset _ => some ⟨0x059#10, .G, .X, .V, .none, .none, [0], false, 0⟩
  | .xsetI _ => some ⟨0x259#10, .I, .X, .none, .none, .none, [0], false, 0⟩
  | .xadd _ => some ⟨0x05A#10, .G, .X, .V, .none, .none, [0], false, 0⟩
  | .xaddI _ => some ⟨0x25A#10, .I, .X, .none, .none, .none, [0], false, 0⟩
  | .xget _ => some ⟨0x05B#10, .G, .V, .X, .none, .none, [0], false, 0⟩
  | .getl _ => some ⟨0x05C#10, .N, .V, .S, .none, .none, [0], false, 0⟩
  | .ld _ => some ⟨0x060#10, .M, .V, .V, .V, .V, [], false, 6⟩
  | .st _ => some ⟨0x061#10, .M, .V, .V, .V, .V, [], false, 6⟩
  | .atom _ => some ⟨0x062#10, .M, .V, .V, .V, .V, [], false, 10⟩
  | .cpy _ => some ⟨0x063#10, .C, .V, .V, .V, .V, [], false, 7⟩
  | .fetch _ => some ⟨0x064#10, .M, .V, .V, .V, .V, [], false, 0⟩
  | .ifL _ => some ⟨0x068#10, .N, .none, .P, .none, .none, [0], false, 1⟩
  | .elseL _ => some ⟨0x069#10, .N, .none, .none, .none, .none, [0], false, 0⟩
  | .fi _ => some ⟨0x06A#10, .N, .none, .none, .none, .none, [0], false, 0⟩
  | .doL _ => some ⟨0x06B#10, .N, .none, .none, .none, .none, [0], false, 0⟩
  | .whileL _ => some ⟨0x06C#10, .N, .none, .P, .none, .none, [0], false, 1⟩
  | .brk _ => some ⟨0x06D#10, .N, .none, .P, .none, .none, [0], false, 1⟩
  | .mma _ => some ⟨0x070#10, .X, .A, .T, .T, .none, [0], true, 3⟩
  | .accz _ => some ⟨0x071#10, .N, .A, .none, .none, .none, [0], false, 0⟩
  | .accrd _ => some ⟨0x072#10, .N, .V, .A, .none, .none, [0], false, 15⟩
  | .accwr _ => some ⟨0x073#10, .N, .A, .V, .none, .none, [0], false, 15⟩
  | .acccvt _ => some ⟨0x074#10, .X, .T, .A, .none, .none, [0], false, 15⟩
  | .isect _ => some ⟨0x078#10, .S, .V, .V, .V, .none, [0], false, 0⟩
  | .rand _ => some ⟨0x079#10, .S, .V, .none, .none, .none, [0], false, 0⟩
  | .sample _ => some ⟨0x07A#10, .S, .S, .V, .V, .V, [2], false, 0⟩
  | .topk _ => some ⟨0x07B#10, .S, .V, .V, .none, .none, [2], false, 0⟩
  | .accept _ => some ⟨0x07C#10, .G, .S, .V, .V, .none, [0], false, 0⟩
  | .lnop _ => some ⟨0x07F#10, .N, .none, .none, .none, .none, [0], false, 0⟩
  | _ => none

/-- The fields of a lane instruction; none for a scalar word or an event. -/
def laneFieldsOf : Instr → Option LaneFields
  | .iadd f | .iaddI f | .isub f | .isubI f | .imul f | .imulI f => some f
  | .imulh f | .imulhI f | .imad f | .imin f | .iminI f | .imax f => some f
  | .imaxI f | .iabs f | .ineg f | .iset f | .isetI f | .land f => some f
  | .landI f | .lor f | .lorI f | .lxor f | .lxorI f | .andn f => some f
  | .andnI f | .lnot f | .lop f | .lshl f | .lshlI f | .lshr f => some f
  | .lshrI f | .lsra f | .lsraI f | .rotl f | .rotlI f | .lpopc f => some f
  | .lclz f | .brev f | .bfe f | .bfi f | .llea f | .lleaI f => some f
  | .lsel f | .lmov f | .movi f | .fadd f | .faddI f | .fsub f => some f
  | .fsubI f | .fmul f | .fmulI f | .ffma f | .fmin f | .fminI f => some f
  | .fmax f | .fmaxI f | .fset f | .fsetI f | .frcp f | .frsq f => some f
  | .fsqrt f | .fexp2 f | .flog2 f | .fclass f | .hadd2 f | .hadd2I f => some f
  | .hmul2 f | .hmul2I f | .hfma2 f | .cvt f | .qnt f | .dqt f => some f
  | .route f | .routeI f | .vote f | .redux f | .scan f | .matchL f => some f
  | .plop f | .xset f | .xsetI f | .xadd f | .xaddI f | .xget f => some f
  | .getl f | .ld f | .st f | .atom f | .cpy f | .fetch f => some f
  | .ifL f | .elseL f | .fi f | .doL f | .whileL f | .brk f => some f
  | .mma f | .accz f | .accrd f | .accwr f | .acccvt f | .isect f => some f
  | .rand f | .sample f | .topk f | .accept f | .lnop f => some f
  | _ => none

/-- The lane instruction an opcode names (R133); every opcode not listed is none. -/
def laneOfOpcode (opc : BitVec 10) (f : LaneFields) : Option Instr :=
  match opc.toNat with
  | 0x001 => some (.iadd f)
  | 0x002 => some (.isub f)
  | 0x003 => some (.imul f)
  | 0x004 => some (.imulh f)
  | 0x005 => some (.imad f)
  | 0x006 => some (.imin f)
  | 0x007 => some (.imax f)
  | 0x008 => some (.iabs f)
  | 0x009 => some (.ineg f)
  | 0x00A => some (.iset f)
  | 0x010 => some (.land f)
  | 0x011 => some (.lor f)
  | 0x012 => some (.lxor f)
  | 0x013 => some (.lnot f)
  | 0x014 => some (.andn f)
  | 0x015 => some (.lop f)
  | 0x016 => some (.lshl f)
  | 0x017 => some (.lshr f)
  | 0x018 => some (.lsra f)
  | 0x019 => some (.rotl f)
  | 0x01A => some (.lpopc f)
  | 0x01B => some (.lclz f)
  | 0x01C => some (.brev f)
  | 0x01D => some (.bfe f)
  | 0x01E => some (.bfi f)
  | 0x01F => some (.llea f)
  | 0x020 => some (.lsel f)
  | 0x021 => some (.lmov f)
  | 0x030 => some (.fadd f)
  | 0x031 => some (.fsub f)
  | 0x032 => some (.fmul f)
  | 0x033 => some (.ffma f)
  | 0x034 => some (.fmin f)
  | 0x035 => some (.fmax f)
  | 0x036 => some (.fset f)
  | 0x037 => some (.frcp f)
  | 0x038 => some (.frsq f)
  | 0x039 => some (.fsqrt f)
  | 0x03A => some (.fexp2 f)
  | 0x03B => some (.flog2 f)
  | 0x03C => some (.fclass f)
  | 0x040 => some (.hadd2 f)
  | 0x041 => some (.hmul2 f)
  | 0x042 => some (.hfma2 f)
  | 0x048 => some (.cvt f)
  | 0x049 => some (.qnt f)
  | 0x04A => some (.dqt f)
  | 0x050 => some (.route f)
  | 0x051 => some (.vote f)
  | 0x052 => some (.redux f)
  | 0x053 => some (.scan f)
  | 0x054 => some (.matchL f)
  | 0x058 => some (.plop f)
  | 0x059 => some (.xset f)
  | 0x05A => some (.xadd f)
  | 0x05B => some (.xget f)
  | 0x05C => some (.getl f)
  | 0x060 => some (.ld f)
  | 0x061 => some (.st f)
  | 0x062 => some (.atom f)
  | 0x063 => some (.cpy f)
  | 0x064 => some (.fetch f)
  | 0x068 => some (.ifL f)
  | 0x069 => some (.elseL f)
  | 0x06A => some (.fi f)
  | 0x06B => some (.doL f)
  | 0x06C => some (.whileL f)
  | 0x06D => some (.brk f)
  | 0x070 => some (.mma f)
  | 0x071 => some (.accz f)
  | 0x072 => some (.accrd f)
  | 0x073 => some (.accwr f)
  | 0x074 => some (.acccvt f)
  | 0x078 => some (.isect f)
  | 0x079 => some (.rand f)
  | 0x07A => some (.sample f)
  | 0x07B => some (.topk f)
  | 0x07C => some (.accept f)
  | 0x07F => some (.lnop f)
  | 0x201 => some (.iaddI f)
  | 0x202 => some (.isubI f)
  | 0x203 => some (.imulI f)
  | 0x204 => some (.imulhI f)
  | 0x206 => some (.iminI f)
  | 0x207 => some (.imaxI f)
  | 0x20A => some (.isetI f)
  | 0x210 => some (.landI f)
  | 0x211 => some (.lorI f)
  | 0x212 => some (.lxorI f)
  | 0x214 => some (.andnI f)
  | 0x216 => some (.lshlI f)
  | 0x217 => some (.lshrI f)
  | 0x218 => some (.lsraI f)
  | 0x219 => some (.rotlI f)
  | 0x21F => some (.lleaI f)
  | 0x222 => some (.movi f)
  | 0x230 => some (.faddI f)
  | 0x231 => some (.fsubI f)
  | 0x232 => some (.fmulI f)
  | 0x234 => some (.fminI f)
  | 0x235 => some (.fmaxI f)
  | 0x236 => some (.fsetI f)
  | 0x240 => some (.hadd2I f)
  | 0x241 => some (.hmul2I f)
  | 0x250 => some (.routeI f)
  | 0x259 => some (.xsetI f)
  | 0x25A => some (.xaddI f)
  | _ => none

/-- The bits of an operand field that its kind leaves unused are zero (R130). -/
def kindFieldOk (k : Kind) (x : BitVec 8) : Bool :=
  match k with
  | .V => true
  | .P => x.toNat < 8
  | .S => x.toNat < 64
  | .X => x.toNat < 4
  | .A => x.toNat < 32
  | .T => x.toNat < 16
  | .none => x.toNat == 0

/-- What a source position must satisfy: a position that is replaced by an index or a run constant has a zero field; a POL
bit may be set only for a register of kind V that is read (R130, R135). `ix` and `kc` say that the position is indexed or
replaced by a run constant. -/
def sourceOk (k : Kind) (x : BitVec 8) (pol ix kc : Bool) : Bool :=
  if ix then decide (k = .V) && x.toNat == 0 && !kc
  else if kc then decide (k = .V) && x.toNat == 0 && !pol
  else kindFieldOk k x && (!pol || decide (k = .V))

/-- The destination position: indexed only when of kind V (R135). -/
def destOk (k : Kind) (x : BitVec 8) (ix : Bool) : Bool :=
  if ix then decide (k = .V) && x.toNat == 0 else kindFieldOk k x

/-- The kinds of a, b and c for this instruction once NC (R134), ROUTE's mode (R186) and ATOM's operand are taken into
account: a position not used is none. -/
def laneKinds (i : Instr) (r : LaneRow) (f : LaneFields) : Kind × Kind × Kind :=
  match i with
  | .ld _ | .st _ | .cpy _ => (r.a, if f.nc < 2 then .none else r.b, if f.nc < 3 then .none else r.c)
  | .atom _ => (r.a, if f.nc < 2 then .none else r.b, r.c)
  | .fetch _ => (r.a, if f.nc < 2 then .none else r.b, .none)
  | .route _ | .routeI _ => (r.a, r.b, if f.subop.toNat == 2 then r.c else .none)
  | _ => (r.a, r.b, r.c)

/-- The reserved bits of parcel 2, of the index fields and of TYPE's upper half, by form (R132, R134, R135). -/
def laneFormOk (i : Instr) (r : LaneRow) (f : LaneFields) : Bool :=
  let noIndex := f.ixreg.toNat == 0 && f.isel.toNat == 0
  let ixOff := f.ixe || (noIndex && f.ixoff.toNat == 0)
  match r.form with
  | .G =>
    ixOff && nfld f.p2 8 14 == 0 && (f.ksrc.toNat != 0 || f.knum.toNat == 0)
      && (f.lut.toNat == 0 || match i with | .lop _ | .plop _ => true | _ => false)
  | .I => noIndex
  | .M =>
    ixOff && nfld f.type 2 2 == 0 && f.nc != 0 && f.scope.toNat != 7 && f.cls.toNat != 3
      && (!f.sp || (f.nc == 1 && f.mslot.toNat == 0))
      && (match i with
          | .atom _ => f.nc ≤ 2 && f.cls.toNat != 2
          | .fetch _ => f.nc ≤ 2 && !f.sp && f.scope.toNat == 0 && f.cls.toNat == 0
          | _ => true)
  | .C =>
    noIndex && nfld f.type 2 2 == 0 && f.nc != 0 && !flag f.p2 0
      && (f.ben || f.bnum.toNat == 0)
      && (nfld f.subop 0 2 == 3 || f.cbnum.toNat == 0)
      && !(nfld f.subop 0 2 == 3 && flag f.subop 2)
      && (f.cls.toNat == 0 || (f.cls.toNat == 2 && flag f.subop 2))
  | .X =>
    ixOff && nfld f.p2 11 16 == 0 && nfld f.p2 4 4 == 0
      && (f.fb.toNat == 0 || match i with | .mma _ => true | _ => false)
      && (!f.use || match i with | .cvt _ => true | _ => false)
  | .S =>
    noIndex && nfld f.p2 22 10 == 0
      && (f.xreg.toNat == 0 || match i with | .isect _ => true | _ => false)
      && (f.simm.toNat == 0 || match i with | .rand _ | .topk _ | .sample _ => true | _ => false)
  | .N => noIndex && f.p2.toNat == 0

/-- What the instruction's own chapter adds: pairs, TYPE by operation, TOPK's k, guards of structured control
(R54, R136, R182, R185, R188, R189, R195, R242). -/
def laneExtraOk (i : Instr) (f : LaneFields) : Bool :=
  let sub := f.subop.toNat
  let ty := f.type.toNat
  match i with
  | .cvt _ =>
    let pair := fun n => n == 3 || n == 4
    if pair ty || pair sub then pair ty && pair sub && ty != sub else true
  | .redux _ =>
    (if 3 ≤ sub && sub ≤ 5 then ty == 0 else true)
      && (if 6 ≤ sub then f.dest.toNat % 2 == 0 && f.dest.toNat != 0 else true)
  | .scan _ =>
    let op := sub % 8
    op ≤ 5 && (if 3 ≤ op then ty == 0 else true)
  | .getl _ => f.srca.toNat ≤ 15 && (f.srca.toNat != 15 || f.dest.toNat % 2 == 0)
  | .topk _ => 1 ≤ f.simm.toNat && f.simm.toNat ≤ 32
  | .ifL _ | .elseL _ | .fi _ | .doL _ | .whileL _ | .brk _ => f.guard.toNat == 7 && !f.gneg
  | _ => true

/-- Every decode-time condition of R136 on a lane instruction. -/
def laneLegal (i : Instr) (r : LaneRow) (f : LaneFields) : Bool :=
  let ks := laneKinds i r f
  let indexing := match r.form with | .G | .M | .X => f.ixe | _ => false
  let ix := fun n => indexing && f.isel.toNat == n
  let kc := fun n => decide (r.form = .G) && f.ksrc.toNat == n
  laneFormOk i r f
    && (match r.form with | .M | .C => true | _ => r.types.contains f.type.toNat)
    && (!f.sat || r.sat) && (!f.reuse || match i with | .mma _ => true | _ => false)
    && f.subop.toNat ≤ r.subMax
    && destOk r.dest f.dest (ix 0)
    && sourceOk ks.1 f.srca (flag f.pol 0) (ix 1) (kc 1)
    && sourceOk ks.2.1 f.srcb (flag f.pol 1) (ix 2) (kc 2)
    && sourceOk ks.2.2 f.srcc (flag f.pol 2) (ix 3) (kc 3)
    && laneExtraOk i f

/-- An even register that may stand as a destination pair: not s0 (R42). -/
def Reg.pairDest (r : Reg) : Bool := r.isEven && r.toNat != 0

/-- The operand limits of a scalar word beyond its reserved bits (R42, R54, R127, R145, R146, R149, R151, R163, R237). -/
def scalarLegal : Instr → Bool
  | .add64 d a b => d.pairDest && a.isEven && b.isEven
  | .sld d a _ _ _ sz => a.isEven && (sz.toNat != 3 || d.pairDest)
  | .sst d a _ _ _ sz => a.isEven && (sz.toNat != 3 || d.isEven)
  | .satom d a b op _ wide => a.isEven && (!wide || (d.pairDest && b.isEven && decide (op ≠ .fadd)))
  | .gets d sp =>
    match sp with
    | .tid | .lane => false
    | .cycles | .jcur => d.pairDest
    | _ => true
  | .loop a _ => a.toNat != 0
  | .lrun a _ => a.toNat ≤ 56
  | .tlook d a => d.pairDest && a.isEven
  | .tfill d a _ => d.pairDest && a.isEven
  | .tdrop a | .cbload _ a _ | .group a _ | .join _ _ a | .joinc _ _ a | .launch _ a => a.isEven
  | .kvld d _ _ _ _ _ => d.pairDest
  | _ => true

end Sys2Proof
end

