-- ==== Sys2Proof/WellFormed.lean ====
section
/-! DEFINITION. Which instructions are well formed: those that some word or parcel triple stands for (06 R136). -/

namespace Sys2Proof

/-- The row stands for a scalar word (R124). -/
def Instr.isScalar : Instr → Bool
  | .add .. | .sub .. | .mul .. | .mulh .. | .mulhu .. | .div .. => true
  | .divu .. | .rem .. | .remu .. | .andR .. | .orR .. | .xorR .. => true
  | .shl .. | .shr .. | .sra .. | .min .. | .max .. | .minu .. => true
  | .maxu .. | .slt .. | .sltu .. | .seq .. | .clz .. | .popc .. => true
  | .mov .. | .add64 .. | .addi .. | .andi .. | .ori .. | .xori .. => true
  | .shli .. | .shri .. | .srai .. | .lui .. | .li .. | .sel .. => true
  | .lea .. | .bcond .. | .jmp .. | .jal .. | .jr .. | .loop .. => true
  | .lrun .. | .gets .. | .fence .. | .drain .. | .sld .. | .sst .. => true
  | .ldk .. | .satom .. | .binit .. | .bexp .. | .barr .. | .bwait .. => true
  | .btry .. | .tload .. | .tstore .. | .cpseal .. | .cpwait .. | .cbload .. => true
  | .waitc .. | .tlook .. | .tfill .. | .tdrop .. | .aalloc .. | .agrow .. => true
  | .afree .. | .group .. | .join .. | .joinc .. | .ssopen .. | .ssld .. => true
  | .ssst .. | .sssnap .. | .ssroll .. | .ssfork .. | .sscommit .. | .ssclose .. => true
  | .kvld .. | .kvapp .. | .kvtrunc .. | .kvstep .. | .launch .. | .trap .. => true
  | .nop .. | .lsync .. | .exit .. | .cwait .. | .bkpt .. => true
  | _ => false

/-- The row stands for a lane instruction (R133). -/
def Instr.isLane (i : Instr) : Bool := (laneRow i).isSome

/-- The row stands for an event, which has no encoding (95). -/
def Instr.isEvent (i : Instr) : Bool := !i.isScalar && !i.isLane

/-- A scalar word within its operand limits, or a lane instruction with legal fields; an event is not an encoding. -/
def Instr.wf (i : Instr) : Bool :=
  match laneRow i, laneFieldsOf i with
  | some r, some f => laneLegal i r f
  | _, _ => i.isScalar && scalarLegal i

end Sys2Proof
end

