-- ==== Sys2Proof/Decode.lean ====
section
/-! DEFINITION. Decoding scalar words and lane parcels, total on any bits, and the encoder (06 R122 to R136). -/

namespace Sys2Proof

/-- Why a word or a parcel triple is not an instruction; each of them traps ILLOP (R136). -/
inductive Reject where
  /-- a major opcode, minor, operation code or lane opcode that R124 to R126 or R133 does not assign -/
  | unassigned
  /-- a reserved field is not zero (R123, R126, R128) -/
  | reserved
  /-- a field holds a code its list does not define (R104, R105, R111, R127, R128) -/
  | badCode
  /-- an operand limit of the instruction is broken (R42 and the instruction rules), or a lane field is illegal (R136) -/
  | operand
  deriving DecidableEq, Repr

/-- What decoding answers. -/
inductive Decoded where
  | ok (i : Instr)
  | reject (r : Reject)
  deriving DecidableEq, Repr

/-- The fields of a scalar word, by class (R122). -/
def wMajor (w : Word) : BitVec 6 := fld w 26 6
def wSd (w : Word) : Reg := fld w 20 6
def wSa (w : Word) : Reg := fld w 14 6
def wSb (w : Word) : Reg := fld w 8 6
def wMinor (w : Word) : BitVec 8 := fld w 0 8
def wImm14 (w : Word) : BitVec 14 := fld w 0 14

/-- The long class takes a second word (R122). -/
def isLongMajor (major : Nat) : Bool :=
  match major with
  | 0x0A | 0x18 | 0x29 | 0x2A | 0x36 => true
  | _ => false

/-- Bytes of the instruction that starts with this word: 8 for the long class, 4 otherwise (R128). -/
def scalarLength (w : Word) : Nat := if isLongMajor (wMajor w).toNat then 8 else 4

/-- `i` if the fields it does not use are zero. -/
def ifZero (zero : Bool) (i : Instr) : Decoded := if zero then .ok i else .reject .reserved

/-- Major 0x01: the minor byte names the operation (R125). -/
def decodeAlu (w : Word) : Decoded :=
  let d := wSd w
  let a := wSa w
  let b := wSb w
  let oneSource := fun i => ifZero (b == 0) i
  match (wMinor w).toNat with
  | 0x00 => .ok (.add d a b) | 0x01 => .ok (.sub d a b) | 0x02 => .ok (.mul d a b) | 0x03 => .ok (.mulh d a b)
  | 0x04 => .ok (.mulhu d a b) | 0x05 => .ok (.div d a b) | 0x06 => .ok (.divu d a b) | 0x07 => .ok (.rem d a b)
  | 0x08 => .ok (.remu d a b) | 0x09 => .ok (.andR d a b) | 0x0A => .ok (.orR d a b) | 0x0B => .ok (.xorR d a b)
  | 0x0C => .ok (.shl d a b) | 0x0D => .ok (.shr d a b) | 0x0E => .ok (.sra d a b) | 0x0F => .ok (.min d a b)
  | 0x10 => .ok (.max d a b) | 0x11 => .ok (.minu d a b) | 0x12 => .ok (.maxu d a b) | 0x13 => .ok (.slt d a b)
  | 0x14 => .ok (.sltu d a b) | 0x15 => .ok (.seq d a b)
  | 0x16 => oneSource (.clz d a) | 0x17 => oneSource (.popc d a) | 0x18 => oneSource (.mov d a)
  | 0x19 => .ok (.add64 d a b)
  | _ => .reject .unassigned

/-- Majors 0x20 and 0x21 (R127, R149). -/
def decodeMemory (store : Bool) (w : Word) : Decoded :=
  match MemClass.ofCode (fld w 5 2), Scope.ofCode (fld w 2 3) with
  | some cls, some sc =>
    if store then .ok (.sst (wSd w) (wSa w) (fld w 7 7) cls sc (fld w 0 2))
    else .ok (.sld (wSd w) (wSa w) (fld w 7 7) cls sc (fld w 0 2))
  | _, _ => .reject .badCode

/-- Major 0x1A: FENCE and DRAIN (R126). -/
def decodeOrdering (w : Word) : Decoded :=
  match Scope.ofCode (fld w 0 3) with
  | none => .reject .badCode
  | some sc =>
    let zero := nfld w 8 18 == 0 && !flag w 3
    match nfld w 6 2 with
    | 0 => match FenceKind.ofCode (fld w 4 2) with
      | some k => ifZero zero (.fence k sc)
      | none => .reject .badCode
    | 1 => ifZero (zero && nfld w 4 2 == 0) (.drain sc)
    | _ => .reject .unassigned

/-- Major 0x28: barrier objects (R126). -/
def decodeBarrier (w : Word) : Decoded :=
  let o : BitVec 4 := fld w 0 4
  let par := flag w 4
  match nfld w 5 3 with
  | 0 => ifZero (wSd w == 0 && wSb w == 0 && !par) (.binit o (wSa w))
  | 1 => ifZero (wSd w == 0 && !par) (.bexp o (wSa w) (wSb w))
  | 2 => ifZero (wSd w == 0 && wSa w == 0 && wSb w == 0 && !par) (.barr o)
  | 3 => ifZero (wSd w == 0 && wSa w == 0 && wSb w == 0) (.bwait o par)
  | 4 => ifZero (wSa w == 0 && wSb w == 0) (.btry (wSd w) o par)
  | _ => .reject .unassigned

/-- Majors 0x30 and 0x31: the tag table and the accumulators (R126). -/
def decodeTag (w : Word) : Decoded :=
  if nfld w 2 6 != 0 then .reject .reserved else
  match nfld w 0 2 with
  | 0 => ifZero (wSb w == 0) (.tlook (wSd w) (wSa w))
  | 1 => .ok (.tfill (wSd w) (wSa w) (wSb w))
  | 2 => ifZero (wSd w == 0 && wSb w == 0) (.tdrop (wSa w))
  | _ => .reject .unassigned

def decodeAcc (w : Word) : Decoded :=
  let h : BitVec 5 := fld w 0 5
  let zero := wSa w == 0 && wSb w == 0 && !flag w 5
  match nfld w 6 2 with
  | 0 => ifZero (zero && wSd w == 0) (.aalloc h)
  | 1 => ifZero zero (.agrow (wSd w) h)
  | 2 => ifZero (zero && wSd w == 0) (.afree h)
  | _ => .reject .unassigned

/-- Major 0x35: Burrow (R126, R229). -/
def decodeBurrow (w : Word) : Decoded :=
  let d := wSd w
  let a := wSa w
  let b := wSb w
  let t : BitVec 4 := fld w 0 4
  if flag w 4 then .reject .reserved else
  match nfld w 5 3 with
  | 0 => ifZero (t == 0) (.ssopen d a b)
  | 1 => .ok (.ssld d a b t)
  | 2 => .ok (.ssst d a b t)
  | 3 => ifZero (t == 0) (.sssnap d a b)
  | 4 => ifZero (t == 0) (.ssroll d a b)
  | 5 => ifZero (t == 0) (.ssfork d a b)
  | 6 => ifZero (t == 0) (.sscommit d a b)
  | _ => ifZero (t == 0 && b == 0) (.ssclose d a)

/-- Major 0x36: key-value group, with its second word (R128, R237). -/
def decodeKv (w w1 : Word) : Decoded :=
  let d := wSd w
  let a := wSa w
  let b := wSb w
  let m : BitVec 5 := fld w 1 5
  let t : BitVec 4 := fld w1 28 4
  let c : Reg := fld w1 22 6
  if flag w 0 || nfld w1 0 22 != 0 then .reject .reserved else
  match nfld w 6 2 with
  | 0 => .ok (.kvld d a b c t m)
  | 1 => .ok (.kvapp d a b c t m)
  | 2 => ifZero (d == 0 && c == 0 && t == 0) (.kvtrunc a b m)
  | _ => ifZero (b == 0 && c == 0 && t == 0) (.kvstep d a m)

/-- Majors 0x29 and 0x2A: tile transfers, with their second word (R128). The object field of a TLOAD whose enable bit is 0 is
not reserved: nothing reads it. -/
def decodeTile (store : Bool) (w w1 : Word) : Decoded :=
  let t : BitVec 4 := fld w 20 4
  let m : BitVec 5 := fld w 3 5
  let z : Reg := fld w1 21 6
  let off : BitVec 16 := fld w1 0 16
  if nfld w 24 2 != 0 || nfld w 0 3 != 0 || nfld w1 16 5 != 0 then .reject .reserved else
  if store then ifZero (nfld w1 27 5 == 0) (.tstore t (wSa w) (wSb w) z m off)
  else if flag w1 31 then .ok (.tload t (wSa w) (wSb w) z m (some (fld w1 27 4)) off)
  else ifZero (nfld w1 27 4 == 0) (.tload t (wSa w) (wSb w) z m none off)

/-- Major 0x3F (R126). -/
def decodeSystem (w : Word) : Decoded :=
  let zero := nfld w 8 18 == 0
  match (wMinor w).toNat with
  | 0 => ifZero zero .nop | 1 => ifZero zero .lsync | 2 => ifZero zero .exit | 3 => ifZero zero .cwait
  | 4 => ifZero zero .bkpt
  | _ => .reject .unassigned

/-- The fields of a scalar word and, for the long class, its second word, before operand limits (R124). -/
def parseScalar (w w1 : Word) : Decoded :=
  let d := wSd w
  let a := wSa w
  let b := wSb w
  let mn := wMinor w
  match (wMajor w).toNat with
  | 0x01 => decodeAlu w
  | 0x02 => .ok (.addi d a (wImm14 w)) | 0x03 => .ok (.andi d a (wImm14 w)) | 0x04 => .ok (.ori d a (wImm14 w))
  | 0x05 => .ok (.xori d a (wImm14 w))
  | 0x06 => ifZero (nfld w 5 9 == 0) (.shli d a (fld w 0 5))
  | 0x07 => ifZero (nfld w 5 9 == 0) (.shri d a (fld w 0 5))
  | 0x08 => ifZero (nfld w 5 9 == 0) (.srai d a (fld w 0 5))
  | 0x09 => .ok (.lui d (fld w 0 20))
  | 0x0A => ifZero (nfld w 0 20 == 0) (.li d w1)
  | 0x0B => ifZero (nfld w 0 2 == 0) (.sel d a b (fld w 2 6))
  | 0x0C => ifZero (nfld w 5 3 == 0) (.lea d a b (fld w 0 5))
  | 0x10 => match Cond.ofCode (fld w 10 4) with
    | some c => .ok (.bcond c (fld w 20 6) (fld w 14 6) (fld w 0 10))
    | none => .reject .badCode
  | 0x11 => .ok (.jmp (fld w 0 26))
  | 0x12 => .ok (.jal (fld w 0 26))
  | 0x13 => ifZero (nfld w 0 14 == 0) (.jr d a)
  | 0x14 => ifZero (nfld w 10 10 == 0) (.loop (fld w 20 6) (fld w 0 10))
  | 0x18 => ifZero (d == 0 && b == 0 && mn == 0) (.lrun a w1)
  | 0x19 => match Special.ofCode (fld w 0 6) with
    | some sp => ifZero (a == 0 && b == 0 && nfld w 6 2 == 0) (.gets d sp)
    | none => .reject .badCode
  | 0x1A => decodeOrdering w
  | 0x20 => decodeMemory false w
  | 0x21 => decodeMemory true w
  | 0x22 => .ok (.ldk d a (wImm14 w))
  | 0x23 => match AtomOp.ofCode (fld w 4 4), Scope.ofCode (fld w 1 3) with
    | some op, some sc => .ok (.satom d a b op sc (flag w 0))
    | _, _ => .reject .badCode
  | 0x28 => decodeBarrier w
  | 0x29 => decodeTile false w w1
  | 0x2A => decodeTile true w w1
  | 0x2B =>
    let zero := a == 0 && b == 0 && nfld w 5 3 == 0
    if flag w 4 then ifZero zero (.cpseal d (some (fld w 0 4)))
    else ifZero (zero && nfld w 0 4 == 0) (.cpseal d none)
  | 0x2C => ifZero (d == 0 && b == 0) (.cpwait a mn)
  | 0x2D => ifZero (d == 0 && b == 0 && nfld w 5 3 == 0) (.cbload (fld w 0 3) a (fld w 3 2))
  | 0x2E => match Path.ofCode (fld w 0 3) with
    | some p => ifZero (d == 0 && b == 0 && nfld w 3 5 == 0) (.waitc p a)
    | none => .reject .badCode
  | 0x30 => decodeTag w
  | 0x31 => decodeAcc w
  | 0x32 => ifZero (d == 0 && b == 0 && nfld w 1 7 == 0) (.group a (flag w 0))
  | 0x33 => ifZero (d == 0 && b == 0 && nfld w 6 2 == 0) (.join (fld w 0 5) (flag w 5) a)
  | 0x34 => ifZero (d == 0 && b == 0 && nfld w 6 2 == 0) (.joinc (fld w 0 5) (flag w 5) a)
  | 0x35 => decodeBurrow w
  | 0x36 => decodeKv w w1
  | 0x37 => ifZero (b == 0 && mn == 0) (.launch d a)
  | 0x3E => ifZero (nfld w 14 12 == 0) (.trap (fld w 0 14))
  | 0x3F => decodeSystem w
  | _ => .reject .unassigned

/-- An instruction within its operand limits, or the rejection. -/
def checked (r : Decoded) : Decoded :=
  match r with
  | .ok i => if i.wf then .ok i else .reject .operand
  | .reject e => .reject e

/-- The scalar instruction that a word, with the word after it, is (R122 to R128). -/
def decodeScalar (w w1 : Word) : Decoded := checked (parseScalar w w1)

/-- The fields of parcels 0 and 1 and the whole of parcel 2 (R129). -/
def laneFields (p0 p1 p2 : Word) : LaneFields where
  dest := fld p0 24 8
  type := fld p0 20 4
  sat := flag p0 19
  pol := fld p0 16 3
  reuse := flag p0 15
  eor := flag p0 14
  gneg := flag p0 13
  guard := fld p0 10 3
  subop := fld p1 28 4
  ixreg := fld p1 26 2
  isel := fld p1 24 2
  srcc := fld p1 16 8
  srcb := fld p1 8 8
  srca := fld p1 0 8
  p2 := p2

/-- The end-of-run bit of a triple, whether or not the triple decodes (R137). -/
def parcelEor (p0 : Word) : Bool := flag p0 14

/-- The lane instruction that three parcels are (R129 to R136). -/
def decodeLane (p0 p1 p2 : Word) : Decoded :=
  match laneOfOpcode (fld p0 0 10) (laneFields p0 p1 p2) with
  | some i => checked (.ok i)
  | none => .reject .unassigned

/-! The encoder, from the same tables. -/

/-- A word of the register class (R122). -/
def encReg (major : BitVec 6) (d a b : Reg) (minor : BitVec 8) : Word := major ++ d ++ a ++ b ++ minor

/-- A word of the immediate class (R122). -/
def encImm (major : BitVec 6) (d a : Reg) (i : BitVec 14) : Word := major ++ d ++ a ++ i

/-- The words of a scalar instruction, first word first; nothing for a lane instruction or an event (R124 to R128). -/
def encodeScalar : Instr → List Word
  | .add d a b => [encReg 0x01 d a b 0x00] | .sub d a b => [encReg 0x01 d a b 0x01]
  | .mul d a b => [encReg 0x01 d a b 0x02] | .mulh d a b => [encReg 0x01 d a b 0x03]
  | .mulhu d a b => [encReg 0x01 d a b 0x04] | .div d a b => [encReg 0x01 d a b 0x05]
  | .divu d a b => [encReg 0x01 d a b 0x06] | .rem d a b => [encReg 0x01 d a b 0x07]
  | .remu d a b => [encReg 0x01 d a b 0x08] | .andR d a b => [encReg 0x01 d a b 0x09]
  | .orR d a b => [encReg 0x01 d a b 0x0A] | .xorR d a b => [encReg 0x01 d a b 0x0B]
  | .shl d a b => [encReg 0x01 d a b 0x0C] | .shr d a b => [encReg 0x01 d a b 0x0D]
  | .sra d a b => [encReg 0x01 d a b 0x0E] | .min d a b => [encReg 0x01 d a b 0x0F]
  | .max d a b => [encReg 0x01 d a b 0x10] | .minu d a b => [encReg 0x01 d a b 0x11]
  | .maxu d a b => [encReg 0x01 d a b 0x12] | .slt d a b => [encReg 0x01 d a b 0x13]
  | .sltu d a b => [encReg 0x01 d a b 0x14] | .seq d a b => [encReg 0x01 d a b 0x15]
  | .clz d a => [encReg 0x01 d a 0 0x16] | .popc d a => [encReg 0x01 d a 0 0x17]
  | .mov d a => [encReg 0x01 d a 0 0x18] | .add64 d a b => [encReg 0x01 d a b 0x19]
  | .addi d a i => [encImm 0x02 d a i] | .andi d a i => [encImm 0x03 d a i]
  | .ori d a i => [encImm 0x04 d a i] | .xori d a i => [encImm 0x05 d a i]
  | .shli d a sh => [(0x06#6 ++ d ++ a ++ 0#9 ++ sh : BitVec 32)] | .shri d a sh => [(0x07#6 ++ d ++ a ++ 0#9 ++ sh : BitVec 32)]
  | .srai d a sh => [(0x08#6 ++ d ++ a ++ 0#9 ++ sh : BitVec 32)]
  | .lui d i => [(0x09#6 ++ d ++ i : BitVec 32)]
  | .li d i => [(0x0A#6 ++ d ++ 0#20 : BitVec 32), i]
  | .sel d a b c => [encReg 0x0B d a b (c ++ 0#2)]
  | .lea d a b sh => [encReg 0x0C d a b (0#3 ++ sh)]
  | .bcond c a b off => [(0x10#6 ++ a ++ b ++ c.code ++ off : BitVec 32)]
  | .jmp off => [(0x11#6 ++ off : BitVec 32)]
  | .jal off => [(0x12#6 ++ off : BitVec 32)]
  | .jr d a => [(0x13#6 ++ d ++ a ++ 0#14 : BitVec 32)]
  | .loop a off => [(0x14#6 ++ a ++ 0#10 ++ off : BitVec 32)]
  | .lrun a off => [encReg 0x18 0 a 0 0, off]
  | .gets d sp => [encReg 0x19 d 0 0 (0#2 ++ sp.code)]
  | .fence k sc => [encReg 0x1A 0 0 0 (0#2 ++ k.code ++ 0#1 ++ sc.code)]
  | .drain sc => [encReg 0x1A 0 0 0 (1#2 ++ 0#2 ++ 0#1 ++ sc.code)]
  | .sld d a off cls sc sz => [(0x20#6 ++ d ++ a ++ off ++ cls.code ++ sc.code ++ sz : BitVec 32)]
  | .sst d a off cls sc sz => [(0x21#6 ++ d ++ a ++ off ++ cls.code ++ sc.code ++ sz : BitVec 32)]
  | .ldk d a i => [encImm 0x22 d a i]
  | .satom d a b op sc wide => [encReg 0x23 d a b (op.code ++ sc.code ++ bit wide)]
  | .binit o a => [encReg 0x28 0 a 0 (0#3 ++ 0#1 ++ o)]
  | .bexp o a b => [encReg 0x28 0 a b (1#3 ++ 0#1 ++ o)]
  | .barr o => [encReg 0x28 0 0 0 (2#3 ++ 0#1 ++ o)]
  | .bwait o par => [encReg 0x28 0 0 0 (3#3 ++ bit par ++ o)]
  | .btry d o par => [encReg 0x28 d 0 0 (4#3 ++ bit par ++ o)]
  | .tload t a b z m bar off =>
    [(0x29#6 ++ 0#2 ++ t ++ a ++ b ++ m ++ 0#3 : BitVec 32),
     match bar with
     | some o => (1#1 ++ o ++ z ++ 0#5 ++ off : BitVec 32)
     | none => (0#1 ++ 0#4 ++ z ++ 0#5 ++ off : BitVec 32)]
  | .tstore t a b z m off =>
    [(0x2A#6 ++ 0#2 ++ t ++ a ++ b ++ m ++ 0#3 : BitVec 32), (0#5 ++ z ++ 0#5 ++ off : BitVec 32)]
  | .cpseal d bar =>
    [encReg 0x2B d 0 0 (match bar with | some o => (0#3 ++ 1#1 ++ o : BitVec 8) | none => 0#8)]
  | .cpwait a n => [encReg 0x2C 0 a 0 n]
  | .cbload cb a e => [encReg 0x2D 0 a 0 (0#3 ++ e ++ cb)]
  | .waitc p a => [encReg 0x2E 0 a 0 (0#5 ++ p.code)]
  | .tlook d a => [encReg 0x30 d a 0 0] | .tfill d a b => [encReg 0x30 d a b 1] | .tdrop a => [encReg 0x30 0 a 0 2]
  | .aalloc h => [encReg 0x31 0 0 0 (0#2 ++ 0#1 ++ h)]
  | .agrow d h => [encReg 0x31 d 0 0 (1#2 ++ 0#1 ++ h)]
  | .afree h => [encReg 0x31 0 0 0 (2#2 ++ 0#1 ++ h)]
  | .group a pack => [encReg 0x32 0 a 0 (0#7 ++ bit pack)]
  | .join k left a => [encReg 0x33 0 a 0 (0#2 ++ bit left ++ k)]
  | .joinc k left a => [encReg 0x34 0 a 0 (0#2 ++ bit left ++ k)]
  | .ssopen d a b => [encReg 0x35 d a b (0#3 ++ 0#5)]
  | .ssld d a b t => [encReg 0x35 d a b (1#3 ++ 0#1 ++ t)]
  | .ssst d a b t => [encReg 0x35 d a b (2#3 ++ 0#1 ++ t)]
  | .sssnap d a b => [encReg 0x35 d a b (3#3 ++ 0#5)]
  | .ssroll d a b => [encReg 0x35 d a b (4#3 ++ 0#5)]
  | .ssfork d a b => [encReg 0x35 d a b (5#3 ++ 0#5)]
  | .sscommit d a b => [encReg 0x35 d a b (6#3 ++ 0#5)]
  | .ssclose d a => [encReg 0x35 d a 0 (7#3 ++ 0#5)]
  | .kvld d a b c t m => [encReg 0x36 d a b (0#2 ++ m ++ 0#1), (t ++ c ++ 0#22 : BitVec 32)]
  | .kvapp d a b c t m => [encReg 0x36 d a b (1#2 ++ m ++ 0#1), (t ++ c ++ 0#22 : BitVec 32)]
  | .kvtrunc a b m => [encReg 0x36 0 a b (2#2 ++ m ++ 0#1), 0]
  | .kvstep d a m => [encReg 0x36 d a 0 (3#2 ++ m ++ 0#1), 0]
  | .launch d a => [encReg 0x37 d a 0 0]
  | .trap code => [(0x3E#6 ++ 0#12 ++ code : BitVec 32)]
  | .nop => [encReg 0x3F 0 0 0 0] | .lsync => [encReg 0x3F 0 0 0 1] | .exit => [encReg 0x3F 0 0 0 2]
  | .cwait => [encReg 0x3F 0 0 0 3] | .bkpt => [encReg 0x3F 0 0 0 4]
  | _ => []

/-- Parcels 0, 1 and 2 of a lane instruction with this opcode and these fields (R129). -/
def encodeFields (opc : BitVec 10) (f : LaneFields) : List Word :=
  [(f.dest ++ f.type ++ bit f.sat ++ f.pol ++ bit f.reuse ++ bit f.eor ++ bit f.gneg ++ f.guard ++ opc : BitVec 32),
   (f.subop ++ f.ixreg ++ f.isel ++ f.srcc ++ f.srcb ++ f.srca : BitVec 32), f.p2]

/-- The words of an instruction: one or two scalar words, or three parcels; nothing for an event. -/
def encode (i : Instr) : List Word :=
  match laneRow i, laneFieldsOf i with
  | some r, some f => encodeFields r.opc f
  | _, _ => encodeScalar i

/-- Decoding the words of one instruction: three words are parcels, otherwise a scalar word with the word after it (0 when
there is none). -/
def decodeWords : List Word → Decoded
  | [p0, p1, p2] => decodeLane p0 p1 p2
  | [w] => decodeScalar w 0
  | [w, w1] => decodeScalar w w1
  | _ => .reject .unassigned

/-- The instruction the decoder reads from nbits bits numbered as the opcode table numbers them: up to 64 bits are scalar
words, 96 bits the parcels of a lane instruction. -/
def decodeTableWord (nbits w : Nat) : Option Instr :=
  let part := fun k => BitVec.ofNat 32 (w / 2 ^ (32 * k))
  let r := if nbits ≤ 64 then decodeScalar (part 0) (part 1) else decodeLane (part 0) (part 1) (part 2)
  match r with
  | .ok i => some i
  | .reject _ => none

end Sys2Proof
end

