-- ==== Sys2Proof/Config.lean ====
section
/-! DEFINITION. What the spec fixes for the part, and the free values: constants without a body, so that nothing can be
proved of which value they are. -/

namespace Sys2Proof

/-- Compute dies of the package (R1). -/
def Config.dies : Nat := 8

/-- Cores of a compute die (R1, R40). -/
def Config.cores : Nat := 56

/-- Crew slots of a core (R11). -/
def Config.crewSlots : Nat := 512

/-- Lane register file of a core in bytes (R11). -/
def Config.laneBytes : Nat := 4194304

/-- Tile registers of a core (R16). -/
def Config.coreTiles : Nat := 128

/-- Accumulator blocks of a core (R16). -/
def Config.accBlocks : Nat := 64

/-- Scratchpad of a core in bytes (R16). -/
def Config.scratchBytes : Nat := 6291456

/-- Codebooks of a core (R92). -/
def Config.codebooks : Nat := 8

/-- Slots of a device queue (R308). -/
def Config.devSlots : Nat := 256

/-- What a byte of memory that nothing has written reads as (DESIGN CHOICE, log entry 2). -/
def Config.unwritten : BitVec 8 := 0

/-- FREE VALUE: whose turn comes when the agenda is empty, by the number of the step. Every order of turns that the spec
allows is one such function (log entry 1). -/
opaque Config.choice (tick : Nat) : Option Turn

/-- FREE VALUE: the clocks of a core between two reads of `cycles` (R55, log entry 5). -/
opaque Config.elapsed (tick : Nat) : BitVec 64

/-- FREE VALUE: what a lane register, predicate or index register holds in a lane that a population instruction moved its thread away
from (R24 states none, log entry 16): by the number of the step, the crew slot and the key of the register and lane. -/
opaque Config.vacated (tick slot key : Nat) : BitVec 32

/-- FREE VALUE: whether the save rung flushes a replayable workgroup instead of saving it (R341 allows either): by the number
of the step and the workgroup's name (log entry 23). -/
opaque Config.flushed (tick wid : Nat) : Bool

/-- FREE VALUE: whether a store, atomic or key-value write that has issued and is not performed when its workgroup is discarded
is performed whole, or dropped (R342 allows either, for each by itself): by the number of the step, the workgroup, the crew slot,
the access and its lane (log entry 29). -/
opaque Config.survives (tick wid slot id lane : Nat) : Bool

/-- FREE VALUE: the share of its core's arrays at which the core begins to look for one that is free when a workgroup is admitted or
resumed: which lines it carves the spec leaves to the core (R290, R316, log entry 20); by the number of the step and the workgroup's
name. -/
opaque Config.share (tick wid : Nat) : Fin 512

/-- FREE VALUES: the region of the die cache that a line stands in, as 64 * die + region, and the region of Burrow that a leaf of a
context stands in, as 32 * die + region (R359 states neither, log entry 69). -/
opaque Config.lineRegion (line : Nat) : Fin 512
opaque Config.leafRegion (ctx leaf : Nat) : Fin 256

/-- FREE VALUES: the region of a die's other SRAM, as 12 * die + region, in which the state of a queue and a line of the firmware stand
first, and the region of its die's for an entry of a translation cache (R359 states none, log entry 69). -/
opaque Config.otherRegion (line : Nat) : Fin 96
opaque Config.firmwareRegion (line : Nat) : Fin 96
opaque Config.entryRegion (die ctx va : Nat) : Fin 12

/-- FREE VALUE: the key slot of a line that a page move brings from host memory, which no key sealed there (R331 states none, log
entry 60): by the number of the step. -/
opaque Config.movedSlot (tick : Nat) : Nat

/-- FREE VALUES: the bytes of configuration space and of the mailboxes (R362 and R364 state none, log entry 77): by the number of the
step and the offset. -/
opaque Config.configByte (tick offset : Nat) : BitVec 8
opaque Config.mailboxByte (tick offset : Nat) : BitVec 8

/-- FREE VALUES of SPDM answers (R363 fixes none of them, log entry 70): capabilities; the bytes of a certificate chain, by slot; a
3,072-bit signature, by the number of the step. -/
opaque Config.capabilities : BitVec 256
opaque Config.chain (slot : Nat) : List (BitVec 8)
opaque Config.signature (tick : Nat) : BitVec 3072

/-- FREE VALUE: the RSA-3072 signature of a digest under the private key of a public one (R362 fixes neither the form of a key nor the
padding, log entry 105). -/
opaque Config.sealOf (key : List (BitVec 8)) (digest : BitVec 256) : BitVec 3072

/-- FREE VALUE: a byte that a `.cb` copy in flight writes where its codebook supplies none any more, because it has been replaced
by one of shorter entries or has none since a declined load (R92 states none, log entry 90): by the number of the step, the lane and
the byte's place. -/
opaque Config.unbooked (tick lane byte : Nat) : BitVec 8

/-- FREE VALUE: which register, tile, handle, object, slot or codebook a number of a fused consumer names that its mark did
not count and that lies beyond its field once raised (R249 states none, log entry 17): by the kind and the number. -/
opaque Config.misnamed (kind n : Nat) : Nat

end Sys2Proof
end

