-- ==== Sys2Proof/Machine/Cells.lean ====
section
/-! DEFINITION. Sparse maps with natural-number keys, held in one canonical form: keys strictly rising. The same maps, read
with a default, hold memory, scratchpads, tiles and registers; there no entry equals the default. -/

namespace Sys2Proof

/-- The value listed at a key. -/
def SMap.find? {α : Type} : SMap α → Nat → Option α
  | [], _ => none
  | (a, x) :: m, k => if a = k then some x else SMap.find? m k

/-- The map with a key listed at a value. -/
def SMap.insert {α : Type} : SMap α → Nat → α → SMap α
  | [], k, v => [(k, v)]
  | (a, x) :: m, k, v =>
    if k < a then (k, v) :: (a, x) :: m
    else if a = k then (k, v) :: m
    else (a, x) :: SMap.insert m k v

/-- The map with a key not listed. -/
def SMap.erase {α : Type} : SMap α → Nat → SMap α
  | [], _ => []
  | (a, x) :: m, k => if a = k then SMap.erase m k else (a, x) :: SMap.erase m k

/-- The value at a key, the default where it is not listed. -/
def SMap.get {α : Type} [Inhabited α] (m : SMap α) (k : Nat) : α := (m.find? k).getD default

/-- Writing a value: writing the default removes the entry. -/
def SMap.put {α : Type} [Inhabited α] [DecidableEq α] (m : SMap α) (k : Nat) (v : α) : SMap α :=
  if v = default then m.erase k else m.insert k v

/-- Changing the listed value at a key, if it is listed. -/
def SMap.modify {α : Type} (m : SMap α) (k : Nat) (f : α → α) : SMap α :=
  match m.find? k with
  | some x => m.insert k (f x)
  | none => m

/-- The listed keys, rising. -/
def SMap.keys {α : Type} (m : SMap α) : List Nat := m.map (·.1)

/-- The listed values, by rising key. -/
def SMap.values {α : Type} (m : SMap α) : List α := m.map (·.2)

/-- Every listed value changed. -/
def SMap.mapVals {α : Type} (m : SMap α) (f : α → α) : SMap α := m.map (fun p => (p.1, f p.2))

/-- Only the entries whose value meets a condition. -/
def SMap.keep {α : Type} (m : SMap α) (p : α → Bool) : SMap α := m.filter (fun e => p e.2)

/-- Keys strictly rising. -/
abbrev SMap.Sorted {α : Type} (m : SMap α) : Prop := m.Pairwise (fun p q => p.1 < q.1)

/-- The canonical form of a map that is read with a default. -/
abbrev SMap.wf {α : Type} [Inhabited α] (m : SMap α) : Prop := SMap.Sorted m ∧ ∀ p ∈ m, p.2 ≠ default

/-- The n values from key k on. -/
def SMap.slice {α : Type} [Inhabited α] (m : SMap α) (k n : Nat) : List α := (List.range n).map (fun i => m.get (k + i))

/-- Writing a list of values from key k on. -/
def SMap.putList {α : Type} [Inhabited α] [DecidableEq α] (m : SMap α) (k : Nat) : List α → SMap α
  | [] => m
  | v :: vs => SMap.putList (m.put k v) (k + 1) vs

end Sys2Proof
end

