-- ==== Sys2Proof/Machine/State.lean ====
section
/-! DEFINITION. The state of the package: everything the spec gives it (INVENTORY.md lists each item with its rule), as plain
data, the reasons a step can stop, and the state after reset. -/

namespace Sys2Proof.Machine

/-- A program or virtual address: bits 51:0 (R28, R81). -/
abbrev Addr := BitVec 52

/-- Physical memory by byte address, in the canonical form of Memory.wf (R328). -/
abbrev Memory := List Host.Cell

/-- Addresses strictly rising, and no entry equal to what an unlisted address reads as. -/
abbrev Memory.wf (m : Memory) : Prop := SMap.wf (α := Byte) m

/-- Why the machine stops. -/
inductive Fault where
  /-- An instruction was run in the name of a crew that does not exist: raised by every meaning of an instruction that
  acts for a crew. Safe: no step reaches it, because a turn names an existing crew. -/
  | noIssuer
  deriving DecidableEq, Repr

/-- Why an instruction has no meaning. -/
inductive Refusal where
  /-- The instruction's meaning is not written yet: answered by the arms of exec alone. Safe. -/
  | notModelled (mnemonic : String)
  deriving DecidableEq, Repr

/-- The fault and event codes (R332). -/
inductive FaultCode where
  | illop | illconv | role | range | empty | bounds | align | xlat | perm | accnone | fmtslot | nestdepth
  | poison | stpoison | overrun | trap | breakpoint | deadline | resetfn | badsave | kill
  deriving DecidableEq, Repr

/-- The two streams of a crew (R17, R18). -/
inductive Stream where
  | scalar | lane
  deriving DecidableEq, Repr

/-- CSTATE of a crew slot (R347). -/
inductive CrewStatus where
  | reserved | live | retired | halted
  deriving DecidableEq, Repr, Inhabited

/-- An open structure of a run (R194). -/
inductive Frame where
  /-- IF: the mask on entry, the lanes of the other path, ELSE seen; `mark` is the model's own: the access number at the
  opening (R108). -/
  | ifs (entry rest : Mask) (elsed : Bool) (mark : Nat)
  /-- DO: the mask on entry, the address of the body, the access number at the opening. -/
  | loop (entry : Mask) (body : Addr) (mark : Nat)
  deriving DecidableEq, Repr

/-- Whose code an instruction of a fused kernel is (R250); a kernel that is not fused is all producer. -/
inductive Side where
  | producer | consumer
  deriving DecidableEq, Repr, Inhabited

/-- Where in the fused code a scalar stream stands (R250): the producer's prologue (or its whole code) first; `loop` is the
producer's LOOP in its fused place. -/
inductive Place where
  | proPrologue | conPrologue | proBody | conBody | loop | proEpilogue | conEpilogue
  deriving DecidableEq, Repr, Inhabited

/-- A queued lane run (R18, R146). -/
structure Run where
  /-- offset from LANEBASE in 16-byte units -/
  offset : Word
  /-- k0 to k7 -/
  k : List Word
  /-- the write tag of the LRUN -/
  tag : Nat
  /-- the scalar registers it marked empty -/
  dests : List Nat
  side : Side
  /-- the first instruction of the run that could not be read yet: its destinations from there on are still to be marked -/
  rest : Option Nat := none
  /-- until then, what the scalar registers held at the LRUN that were empty then (R147) -/
  kept : SMap Word := []
  deriving DecidableEq, Repr

/-- The run in progress (R20, R21, R147). -/
structure Progress where
  /-- address of the next lane instruction -/
  pc : Addr
  /-- that address has passed 2^52, of which `pc` holds the low bits (R137) -/
  past : Bool := false
  active : Mask
  /-- innermost first -/
  frames : List Frame
  /-- the last lane-to-scalar value for each register written so far -/
  results : Cells 33
  /-- every instruction has issued -/
  ended : Bool
  deriving DecidableEq, Repr

/-- A fetch cursor (R226). -/
structure Cursor where
  valid : Bool
  slot : BitVec 5
  row : Word
  st : Word
  en : Word
  deriving DecidableEq, Repr, Inhabited

/-- Why and at which address an access is held (R335). -/
structure Held where
  code : FaultCode
  addr : Nat
  deriving DecidableEq, Repr

/-- One part of an access that is not yet performed: a lane's part, or a 16-byte unit of a tile. -/
structure Part where
  /-- lane number, or unit number -/
  unit : Nat
  /-- 1: the upper half of a 16-byte access (R103) -/
  half : Nat
  /-- global byte address, or scratchpad offset of a scratchpad access -/
  addr : Nat
  /-- bytes -/
  size : Nat
  /-- which of these bytes are accessed: the others are zero-filled or dropped (R84) -/
  bytes : BitVec 16
  /-- data to store, or the operand of an atomic; x and y of a FETCH; of a piece of a codebook entry, its bytes -/
  data : BitVec 128
  /-- comparand of a CAS; of an engine transfer, in bits 31:0 the bytes that its unit receives (R52) and, of a copy, in bits
  47:32 which bytes of its lane are accessed -/
  cmp : DWord
  /-- destination lane register -/
  dst : Nat
  /-- scratchpad offset of a copy -/
  sp : Nat
  /-- the physical address, where it was translated at issue -/
  pa : Option Nat
  held : Option Held
  /-- it was held, so that it is re-issued in program order (R336) -/
  logged : Bool := false
  /-- of a FETCH, what its addresses depend on once it has been read: the row pointers, or the metadata byte (R225) -/
  key : Option DWord := none
  deriving DecidableEq, Repr

/-- A tile register: 4,096 bytes (R41). -/
abbrev Tile := Cells 8

/-- What an access does when it is performed. -/
inductive AccessKind where
  /-- LD by its size code (R191) -/
  | load (code : BitVec 4)
  | store
  /-- ATOM (R192), with or without a destination -/
  | atom (op : AtomOp) (result : Bool)
  | sload (d : Reg) (size : BitVec 2)
  | ldk (d : Reg)
  | satom (d : Reg) (op : AtomOp) (wide : Bool)
  /-- CPY global to scratchpad, with the barrier to tell (R193) -/
  | copyIn (bar : Option (BitVec 4))
  | copyOut (bar : Option (BitVec 4))
  /-- CPY .cb: the codebook, its entry size. A lane's part reads the index byte and with it the entry, which then stands in
  parts of 8 bytes at most, of which a nonzero `half` is the mark (R92, R103) -/
  | copyBook (book : Nat) (size : Nat) (bar : Option (BitVec 4))
  /-- the address of each row, and which of its 128 bytes are accessed (R157) -/
  | tload (tile : Nat) (bar : Option (BitVec 4)) (rows : List (Nat × BitVec 128))
  /-- with the image of the tile as it was read at issue (R94) -/
  | tstore (tile : Nat) (image : Tile) (rows : List (Nat × BitVec 128))
  | fetch (slot : BitVec 5)
  /-- KVLD: it has read LEN, the map entry, tags and rows; the tile and the pair are yet to be written (R238) -/
  | kvld (d : Reg) (tile : Nat) (rows : Cells 8) (status : DWord)
  /-- KVAPP of a number of rows: unit i writes row i and its tag, the last unit raises LEN; the address of its sequence entry
  says which sequence KVAPP, KVTRUNC and KVSTEP are about (R119) -/
  | kvapp (seqAt rows : Nat)
  | kvtrunc (seqAt : Nat)
  | kvstep (seqAt : Nat) (d : Reg)
  /-- CBLOAD with the bytes of it that have been read (R161) -/
  | cbload (book : Nat) (code : BitVec 2) (got : Cells 8)
  deriving DecidableEq, Repr

/-- An access between its issue and its last performance (R48, R103). -/
structure Access where
  /-- its place in the crew's program order, and the write tag of what it writes -/
  id : Nat
  stream : Stream
  kind : AccessKind
  /-- address of its instruction -/
  pc : Addr
  cls : MemClass
  scope : Scope
  /-- it is a scratchpad access -/
  scratch : Bool
  /-- parts not yet performed; none left: it has returned -/
  parts : List Part
  /-- it may put lines into the die cache (R86, R95) -/
  alloc : Bool := true
  /-- accesses that must be performed first (R108, R109, R111) -/
  order : List Nat
  /-- accesses of either stream that come first where they touch a common byte (R109) -/
  cross : List Nat
  /-- the sides of the open IFs it was made on, by the mark of each (R108) -/
  sides : List (Nat × Bool)
  /-- a copy: the serial number of its batch (R93); none while unsealed -/
  batch : Option Nat
  /-- the fields of a lane instruction, which the operand log keeps (R348) -/
  fields : Option LaneFields
  side : Side
  /-- it has an entry in the operand log (R336) -/
  entry : Bool
  /-- it is replayed from the copy log of a save area (R348, R349) -/
  replay : Bool := false
  deriving DecidableEq, Repr

/-- A sealed batch that has not landed (R93). -/
structure Batch where
  serial : Nat
  number : BitVec 8
  bar : Option (BitVec 4)
  deriving DecidableEq, Repr

/-- An MMA between issue and commit with its operand image (R338). -/
structure MmaImage where
  f : LaneFields
  pc : Addr
  a0 : Tile
  s0 : Tile
  a1 : Tile
  s1 : Tile
  b : Tile
  sb : Tile
  /-- its handle was unbound after its issue (R166, R203) -/
  unbound : Bool := false
  /-- it has raised ACCNONE: its halted crew re-executes it when it is resumed (R203, R334) -/
  trapped : Bool := false
  /-- it is replayed from the record of a save area (R338, R349) -/
  replay : Bool := false
  deriving DecidableEq, Repr

/-- A result that an instruction has computed and that has not landed: scalar registers, and lanes of lane registers by their
keys, each with its value (R46). -/
structure Pending where
  tag : Nat
  regs : List (Reg × Word)
  lanes : List (Nat × Word)
  deriving DecidableEq, Repr

/-- A crew that waits at BWAIT: the object and the parity, and what has been observed of the object since (R53, R156): nothing,
the completion it waits for, or an overflow. -/
structure BarWait where
  bar : BitVec 4
  par : Bool
  passed : Bool
  failed : Bool
  deriving DecidableEq, Repr

/-- A stream that is held at its instruction: an instruction fetch, or an access that has not issued, whose walk failed
(R326, R335, R336); `id` is the number that REPLAY and DECLINE name it by. -/
structure FetchHeld where
  id : Nat
  stream : Stream
  /-- it is the spec read of a population instruction, for all its participants (R210) -/
  joint : Bool
  held : Held
  deriving DecidableEq, Repr

/-- What an access needs of its page (R325). -/
inductive Need where
  | rd | wr | rw | ex
  deriving DecidableEq, Repr

/-- A stream that stands at its instruction, a fetch or an access that has not issued, while a walk for it is under way (R326). -/
structure Walking where
  stream : Stream
  /-- as of FetchHeld -/
  joint : Bool
  need : Need
  va : Nat
  deriving DecidableEq, Repr

/-- A crew (R17 to R22, R41 to R50, R347). -/
structure Crew where
  role : BitVec 2
  number : Nat
  status : CrewStatus
  live : Mask
  /-- scalar program counter -/
  pc : Addr
  /-- s1 to s63 -/
  sreg : Cells 32
  /-- the write tag that a scalar register waits for; a register not listed is full -/
  sTag : SMap Nat
  /-- v registers: key 64 * register + lane -/
  vreg : Cells 32
  /-- the write tag that a lane of a lane register waits for -/
  vTag : SMap Nat
  /-- p0 to p6 -/
  preds : Cells 64
  /-- x registers: key 64 * register + lane -/
  xreg : Cells 32
  /-- fetch cursor of each lane -/
  cursors : SMap Cursor
  /-- lane queue; the head is the run in progress once `prog` is there -/
  queue : List Run
  prog : Option Progress
  /-- accesses between issue and return, in issue order -/
  flying : List Access
  /-- by the code of a path, what its wait counter stands at beyond the accesses in flight: a save area that privileged software has
  changed may say so (R349) -/
  bias : SMap Int
  /-- number of the next access or write tag -/
  nextId : Nat
  /-- accesses that every later scalar access, lane access, access that writes, must follow (R108, R109, R111) -/
  orderS : List Nat
  orderL : List Nat
  orderW : List Nat
  /-- accesses that every later access touching a common byte must follow, whatever its stream (R109) -/
  orderX : List Nat
  nextBatch : BitVec 8
  batches : List Batch
  mma : Option MmaImage
  /-- results on their way to registers (R46) -/
  pending : List Pending
  /-- a waiting BWAIT -/
  waitBar : Option BarWait
  /-- a waiting AGROW: its destination and handle -/
  waitGrow : Option (Reg × BitVec 5)
  /-- an AFREE that waits for the crew's operations (R165, R166) -/
  freeing : Option (BitVec 5)
  /-- a waiting CWAIT: it waits for the children before this one -/
  waitKids : Option Nat
  fetchHeld : List FetchHeld
  /-- walks that its streams stand for -/
  walking : List Walking
  /-- halted by a fault of a population instruction: its participants are resumed together (R23) -/
  joint : Bool
  place : Place
  deriving DecidableEq, Repr, Inhabited

/-- A barrier object (R51). -/
structure Barrier where
  expBytes : BitVec 24
  recv : BitVec 24
  valid : Bool
  ovf : Bool
  phase : Bool
  expArr : BitVec 12
  arr : BitVec 12
  deriving DecidableEq, Repr, Inhabited

/-- A bound accumulator: drawn from the pool or the floor, and its committed 64 x 64 words (R164, R198). -/
structure Accum where
  pool : Bool
  words : Cells 32
  deriving DecidableEq, Repr, Inhabited

/-- A codebook the workgroup holds (R92). -/
structure Codebook where
  code : BitVec 2
  bytes : Cells 8
  deriving DecidableEq, Repr, Inhabited

/-- Set of a tag table (R88): slot of each way (valid bit 44, line number 43:0), tree bits. -/
structure TagSet where
  ways : Cells 45
  tree : BitVec 7
  deriving DecidableEq, Repr, Inhabited

/-- A workgroup resident on a core, or parked (R36, R56). -/
structure Workgroup where
  ctx : Nat
  /-- acceptance number of its grid -/
  seq : Nat
  /-- 96-bit index (R312) -/
  index : Nat
  die : Nat
  core : Nat
  /-- MODEL: the share of its core's arrays in which its state stands (R290, log entry 20) -/
  share : Nat
  /-- order of admission (R320) -/
  admitted : Nat
  parked : Bool
  /-- child grids outstanding, by their place in the workgroup's order of LAUNCH (R35) -/
  children : List Nat
  /-- child grids launched so far -/
  launched : Nat
  /-- replayable (R344) -/
  idem : Bool
  crews : SMap Crew
  tiles : SMap Tile
  accs : SMap Accum
  bars : SMap Barrier
  scratch : Cells 8
  tags : SMap TagSet
  books : SMap Codebook
  /-- join cursor of each role (R218) -/
  jcur : SMap DWord
  /-- handles its crews opened or changed (R346) -/
  handles : List Nat
  deriving DecidableEq, Repr, Inhabited

/-- Whose child a grid is: the workgroup and the place among its children (R34). -/
structure Parent where
  wid : Nat
  child : Nat
  deriving DecidableEq, Repr

/-- The copies that acceptance takes (R33). -/
structure LaunchCopy where
  /-- the 512-byte launch record -/
  record : BitVec 4096
  /-- the 32 buffer records; none where they or the argument block could not be read (R32 cause XLAT) -/
  bufs : List (BitVec 256)
  /-- the argument block -/
  args : List Byte
  /-- the 176-byte splice image, where it can be read (R245) -/
  splice : Option (BitVec 1408)
  deriving DecidableEq, Repr, Inhabited

/-- A fused pair: the consumer's side (R249 to R254). -/
structure Fused where
  copy : LaunchCopy
  seq : Nat
  pktIndex : Nat
  /-- its launch's nesting depth -/
  depth : Nat
  /-- the parent workgroup of a child grid -/
  parent : Option Parent
  /-- where the consumer's predicates and index registers stand: keys 8 * role + p and 4 * role + x (R249) -/
  preds : SMap Nat
  xregs : SMap Nat
  /-- the consumer's tile in its marked TLOAD, and the producer's in its marked TSTORE, which it becomes (R249) -/
  tileFrom : Nat
  tileTo : Nat
  /-- the code of both kernels as it was fused, by word address (R250) -/
  proCode : SMap Word
  conCode : SMap Word
  deriving DecidableEq, Repr, Inhabited

/-- A grid from acceptance to retirement (R33 to R39, R312 to R317). -/
structure Grid where
  ctx : Nat
  /-- user queue, or none for the device queue (R307) -/
  queue : Option Nat
  pktIndex : Nat
  pri : BitVec 2
  copy : LaunchCopy
  depth : Nat
  /-- the parent workgroup of a child grid -/
  parent : Option Parent
  /-- the 96-bit counter -/
  counter : Nat
  home : Nat
  /-- indices drawn and not admitted: die and index -/
  drawn : List (Nat × Nat)
  /-- workgroups retired -/
  done : Nat
  /-- a co-resident grid that waits at its queue's head, holding nothing (R39, R305, R317) -/
  atHead : Bool
  /-- MODEL: its queue has been activated anew since, at another packet: it waits to be admitted, but no longer at the head (R299, R305) -/
  left : Bool := false
  /-- SPLICEINFO of the launch (R254) -/
  spliceInfo : BitVec 16
  fused : Option Fused
  deriving DecidableEq, Repr, Inhabited

/-- A sequence of Burrow (R227). A handle not listed is closed. -/
structure Seq where
  nlayer : Nat
  leaves : Nat
  /-- leaf of (256 * layer + leaf) -/
  head : SMap Nat
  hpos : Nat
  /-- snapshots by position -/
  ring : SMap (SMap Nat)
  cpos : Option Nat
  deriving DecidableEq, Repr, Inhabited

/-- A leaf of a context's state arena (R101, R358). -/
structure Leaf where
  bytes : Cells 8
  poisoned : Bool
  dirty : Bool
  deriving DecidableEq, Repr, Inhabited

/-- A launch accepted into a device queue (R308). -/
structure DevSlot where
  /-- none: the launch record could not be read (R32) -/
  copy : Option LaunchCopy
  depth : Nat
  parent : Option Parent
  /-- address of the launch record -/
  lrec : Addr
  /-- SPLICEINFO of an examination as consumer (R254) -/
  note : BitVec 16
  deriving DecidableEq, Repr, Inhabited

/-- A context (R288): its descriptor and what the package keeps for it. -/
structure Context where
  valid : Bool
  secure : Bool
  debug : Bool
  arenaSz : BitVec 8
  keySlot : BitVec 9
  ptroot : BitVec 64
  arena : BitVec 64
  devq : DWord
  /-- a failure at the head of the device queue has been reported (R305) -/
  devReported : Bool
  hbase : BitVec 16
  hcount : BitVec 16
  /-- release sweep in progress (R291) -/
  sweeping : Bool
  /-- the device queue is DISABLED (R342) -/
  devOff : Bool
  /-- MODEL: an error has rewritten the state of its device queue with a cleared tag, and nothing has written it since (R290, R357) -/
  devBare : Bool
  /-- slots taken by the front end, slots written (R308) -/
  devTake : Nat
  devPut : Nat
  devSlots : SMap DevSlot
  /-- MODEL: the step at which the slot at its head came there (R306) -/
  devSince : Nat
  /-- Burrow (R227) -/
  seqs : SMap Seq
  leaves : SMap Leaf
  /-- its partition (R361) -/
  part : Nat
  /-- the tenant whose plug-in sets its policy (R297) -/
  tenant : Nat
  deriving DecidableEq, Repr, Inhabited

/-- STATE of a user queue (R299). -/
inductive QueueState where
  | disabled | active | overrun | badpkt
  deriving DecidableEq, Repr, Inhabited

/-- A user queue (R299). -/
structure Queue where
  state : QueueState
  pri : BitVec 2
  /-- the priority that the tenant's plug-in has given it (R297) -/
  policy : Option (BitVec 2)
  func : BitVec 8
  log2size : BitVec 5
  ctx : BitVec 8
  ring : DWord
  mirror : DWord
  read : DWord
  tail : DWord
  /-- a failure at this head has been reported (R305) -/
  reported : Bool
  /-- MODEL: the step at which the packet at its head came there (R306) -/
  since : Nat
  /-- index of a packet that was examined as consumer, and its SPLICEINFO (R254) -/
  note : Option (Nat × BitVec 16)
  deriving DecidableEq, Repr, Inhabited

/-- A cached leaf translation: physical page and permissions (R324, R327). -/
structure Leafmap where
  /-- base virtual and physical address and size of the page -/
  va : Nat
  pa : Nat
  size : Nat
  rd : Bool
  wr : Bool
  ex : Bool
  deriving DecidableEq, Repr

/-- A cached translation of a die and context. -/
structure Cached where
  die : Nat
  ctx : Nat
  leaf : Leafmap
  deriving DecidableEq, Repr

/-- Whose key and tag an access to local memory takes: a context's, or the firmware's (R290, R294). -/
inductive Owner where
  | ctx (n : Nat)
  | firmware
  deriving DecidableEq, Repr, Inhabited

/-- A 256-byte line of HBM or CXL memory in the die cache, with its owner tag; a cleared tag has no owner (R86, R290). -/
structure Line where
  owner : Option Owner
  secure : Bool
  dirty : Bool
  bytes : Cells 8
  deriving DecidableEq, Repr, Inhabited

/-- The owner tag of a line of a core's arrays (R290). -/
structure Tag where
  ctx : Nat
  secure : Bool
  deriving DecidableEq, Repr, Inhabited

/-- A cached table entry of a die and context: the table that the walk goes on at for the addresses of a level's range
(R327). -/
structure Table where
  die : Nat
  ctx : Nat
  level : Nat
  va : Nat
  size : Nat
  next : Nat
  deriving DecidableEq, Repr

/-- A write of the Kazlet that waits while a page it needs is being moved (R331). -/
inductive Owed where
  /-- bytes of context ctx at a virtual address: a completion record, MIRROR or a device-queue slot; a failure is reported with
  KID where `kid` gives it (R305, R307) -/
  | bytes (ctx va : Nat) (kid : Option Nat) (bs : List Byte)
  /-- the decrement of a signal object with the interrupt's function (R302) -/
  | signal (ctx func va kid : Nat)
  deriving DecidableEq, Repr

/-- How far bring-up has come: not begun, or failed and in recovery, or ended with its step 5 (R362). -/
inductive Boot where
  | pending | recovery | done
  deriving DecidableEq, Repr

/-- A partition: whole cores, as die and core, and those of them that are being removed (R361). -/
structure Partition where
  cores : List (Nat × Nat)
  leaving : List (Nat × Nat)
  deriving DecidableEq, Repr, Inhabited

/-- Phase of a ladder: draining, saving, and saving after the quiesce limit (R340, R341). -/
inductive Rung where
  | drain | save | quiesced
  deriving DecidableEq, Repr

/-- A save area of a pool: where it is, and whether it has been restored (R366). -/
structure Area where
  base : Nat
  /-- MODEL: name of the saved workgroup, and the workgroup as it was saved, for what the layout of R345 to R348 has no field
  for (log entry 22); its children are those still outstanding -/
  wid : Nat
  wg : Workgroup
  /-- the number of children that was written -/
  kids : Nat
  restored : Bool
  deriving DecidableEq, Repr

/-- A ladder in progress (R339). -/
structure Ladder where
  io : Nat
  scope : Nat
  ctx : Nat
  quiesceUs : BitVec 16
  drainUs : BitVec 32
  saveUs : BitVec 32
  poolSz : BitVec 32
  target : DWord
  /-- of SCOPE 2: the core mask, as the command found it -/
  mask : BitVec 512
  pool : Nat
  rung : Rung
  /-- the workgroups that the save rung found in its scope, by their order of admission -/
  members : List Nat
  /-- save areas written so far, and the pool's next free byte -/
  areas : List Area
  next : Nat
  deriving DecidableEq, Repr

/-- A pool whose ladder ended with SAVED (R366). -/
structure Pool where
  io : Nat
  base : Nat
  ctx : Nat
  resumed : Bool
  areas : List Area
  deriving DecidableEq, Repr

/-- A shootdown in progress (R327). -/
structure Shootdown where
  io : Nat
  ctx : Nat
  va : Nat
  size : Nat
  deriving DecidableEq, Repr

/-- A move in progress in the eviction engine of an I/O die (R330, R331). -/
structure Move where
  io : Nat
  cmd : BitVec 256
  /-- the leaf as the engine loaded it -/
  e0 : BitVec 64
  /-- E1 stands in the leaf -/
  marked : Bool
  deriving DecidableEq, Repr

/-- A region table entry (R292). -/
structure Region where
  valid : Bool
  secure : Bool
  base : BitVec 52
  limit : BitVec 52
  deriving DecidableEq, Repr, Inhabited

/-- What the package sends out. -/
inductive Message where
  /-- fault report to the scheduler of an I/O die (R333) -/
  | report (io : Nat) (r : BitVec 384)
  /-- error record to the scheduler of an I/O die (R360) -/
  | error (io : Nat) (r : BitVec 128)
  /-- MSI-X interrupt of a function (R302) -/
  | interrupt (func vector : Nat)
  /-- completion of a host access: its bytes, or Unsupported Request (R293) -/
  | host (data : Option (List Byte))
  /-- completion of a peer access: its bytes, or an error flit (R296) -/
  | peer (pkg : Nat) (data : Option (List Byte))
  /-- a fabric launch packet: published, or refused with a cause (R309) -/
  | fabric (pkg : Nat) (cause : Option Nat)
  /-- the monitor's answer to an activation (R289) -/
  | activation (ctx cause : Nat)
  /-- a pin was refused or its compare-and-swap lost (R329) -/
  | pinRefused (addr : Nat)
  /-- an SPDM answer: the request's place in R363's list, and what the spec fixes of the answer -/
  | spdm (request : Nat) (words : List (BitVec 256))
  deriving DecidableEq, Repr

/-- Who issues: the crew and the stream. -/
structure Issuer where
  key : CrewKey
  stream : Stream
  deriving DecidableEq, Repr

/-- The machine. -/
structure State where
  /-- MODEL: whose turn comes next, before Config.choice is asked (log entry 1) -/
  agenda : List Turn
  /-- MODEL: the crew and stream the running instruction acts for -/
  cur : Issuer
  /-- MODEL: the running instruction, a fused consumer's, names a lane register or a tile that lies beyond its field once it is raised
  (R249); false between steps -/
  beyondV : Bool
  beyondT : Bool
  /-- MODEL: number of the step, which the free values are applied to -/
  tick : Nat
  /-- MODEL: name of the next workgroup -/
  nextWid : Nat
  /-- physical memory -/
  mem : Memory
  /-- the die cache, by PA / 256 (R86, R290) -/
  lines : SMap Line
  /-- MODEL: the key slot under which a line off chip was last written, by PA / 256; unlisted ones are the firmware's
  (log entry 19) -/
  sealed : SMap Nat
  /-- MODEL: cores, by die and number, on which a discard has freed room that is still to be offered (R318, R350): the step that discards offers
  it at its end (log entry 119) -/
  freed : List (Nat × Nat)
  /-- owner tags of the lines of the cores' arrays, the fetch caches among them (R290): each as it was last filled or written; the tag of
  an unlisted line is cleared -/
  tags : SMap Tag
  /-- populated bytes of CXL memory (R328) -/
  cxlBytes : Nat
  /-- workgroups by the model's name -/
  wgs : SMap Workgroup
  /-- grids by acceptance number -/
  grids : SMap Grid
  ctxs : SMap Context
  queues : SMap Queue
  /-- next acceptance number (R306) -/
  seq : Nat
  tlb : List Cached
  tables : List Table
  /-- writes that wait for a move, oldest first (R331) -/
  owed : List Owed
  shootdowns : List Shootdown
  moves : List Move
  ladders : List Ladder
  pools : List Pool
  /-- value the resume command register of each I/O die reads as (R366), less 1 -/
  resumeReg : SMap Nat
  /-- region table (R292) -/
  regions : SMap Region
  /-- the region entry for whose write the monitor holds admission (R293) -/
  regionHold : Option (Nat × BitVec 128)
  /-- cores whose world is secure: 56 * die + core (R292) -/
  secureCores : List Nat
  /-- key slots that hold a key (R294) -/
  keys : SMap (BitVec 512)
  /-- Roldy aperture table (R296) -/
  apertures : SMap (BitVec 256)
  /-- fabric tables, by 64 * tenant + index (R309) -/
  fabric : SMap (BitVec 64)
  /-- error count of each region, by the key of R359's regions -/
  errors : SMap Nat
  windowMs : Nat
  thresh : Nat
  /-- regions whose fault is lasting -/
  lasting : List Nat
  /-- retired cores: 56 * die + core (R361) -/
  retired : List Nat
  /-- partitions by number (R361) -/
  partitions : SMap Partition
  /-- tenants whose plug-in is stopped (R297) -/
  stopped : List Nat
  /-- protection windows of plug-ins, base and bytes, by 4 * tenant + index (R297) -/
  windows : SMap (Nat × Nat)
  /-- links that are down (R364) -/
  downLinks : List Nat
  /-- dies at their thermal limit (R365) -/
  hot : List Nat
  /-- bring-up: no context runs before it has ended (R362) -/
  boot : Boot
  /-- the images held since boot: monitor, scheduler and plug-ins in order (R362, R363) -/
  images : List FlashImage
  /-- fused in the package: the hash of the signing key and the rollback counter (R362) -/
  keyHash : BitVec 256
  rollback : Word
  /-- digest of the boot ROM (R363) -/
  bootRom : BitVec 256
  /-- clock count of each core (R55): 56 * die + core -/
  cycles : Cells 64
  /-- what has been sent out, oldest first -/
  out : List Message
  deriving DecidableEq, Repr

/-- The package after reset (R362, and the reset columns of R288, R292, R296, R299, R306, R309, R327, R359). What the spec
gives no value for is named in log entries 2, 4 and 6. -/
def State.reset : State where
  agenda := []
  cur := ⟨⟨0, 0⟩, .scalar⟩
  beyondV := false
  beyondT := false
  tick := 0
  nextWid := 0
  mem := []
  lines := []
  sealed := []
  freed := []
  tags := []
  cxlBytes := 0x100000000000
  wgs := []
  grids := []
  ctxs := []
  queues := []
  seq := 0
  tlb := []
  tables := []
  owed := []
  shootdowns := []
  moves := []
  ladders := []
  pools := []
  resumeReg := []
  regions := []
  regionHold := none
  secureCores := []
  keys := []
  apertures := []
  fabric := []
  errors := []
  windowMs := 100
  thresh := 16
  lasting := []
  retired := []
  partitions := []
  stopped := []
  windows := []
  downLinks := []
  hot := []
  boot := .pending
  images := []
  keyHash := 0
  rollback := 0
  bootRom := 0
  cycles := []
  out := []

end Sys2Proof.Machine
end

