-- ==== Sys2Proof/Machine/Leaves.lean ====
section
/-! DEFINITION. Leaves and references of Burrow: reference counts, the free pool, and the return of a context's sequences to
their committed state (04 R101, R102; 11 R227, R235; 24 R358). -/

namespace Sys2Proof.Machine

/-- The references a sequence holds: its head's and every snapshot's, with repetitions. -/
def Seq.refs (q : Seq) : List Nat := q.head.values ++ (q.ring.values.map SMap.values).flatten

/-- References of all sequences of the context. -/
def Context.refs (c : Context) : List Nat := (c.seqs.values.map Seq.refs).flatten

/-- Reference count of a leaf (R102). -/
def Context.count (c : Context) (leaf : Nat) : Nat := c.refs.count leaf

/-- Leaves whose count is 0 return to the free pool, their poison cleared (R102, R358). -/
def Context.collect (c : Context) : Context :=
  let live := c.refs
  { c with leaves := c.leaves.filter (fun p => live.contains p.1) }

/-- Leaves of the state arena: ARENASZ units of 64 MiB (R288). -/
def Context.arenaLeaves (c : Context) : Nat := c.arenaSz.toNat * 16384

/-- The lowest leaf number that is free. -/
def Context.freshLeaf (c : Context) : Nat := ((List.range (c.leaves.length + 1)).find? (fun n => !c.leaves.keys.contains n)).getD 0

/-- The arena has a free leaf. -/
def Context.hasFree (c : Context) : Bool := decide (c.leaves.length < c.arenaLeaves)

/-- A sequence in its committed state (R235). -/
def Seq.committed (q : Seq) : Seq :=
  match q.cpos with
  | some p => { q with head := q.ring.get p, hpos := p, ring := [(p, q.ring.get p)] }
  | none => { q with head := [], hpos := 0, ring := [] }

/-- Every open sequence of the context in its committed state (R235, R342). -/
def Context.rollback (c : Context) : Context :=
  { c with seqs := c.seqs.mapVals Seq.committed }.collect

/-- Every sequence closed (R230, R291). -/
def Context.closeAll (c : Context) : Context := { c with seqs := [], leaves := [] }

/-- The sequence refers to a poisoned leaf: its POISONED flag (R358). -/
def Context.flagged (c : Context) (q : Seq) : Bool := q.refs.any (fun l => (c.leaves.get l).poisoned)

end Sys2Proof.Machine
end

