-- ==== Sys2Proof/Machine/Aes.lean ====
section
/-! DEFINITION. The cipher of off-chip lines: AES-256 in XTS mode (18 R294). The spec names the cipher, its data unit and its
tweak; the cipher itself, the order of the two keys in a slot and the byte order of the tweak are PRESUMED from FIPS 197 and
IEEE 1619 (log entry 7). -/

namespace Sys2Proof.Aes

/-- A column of the state: four bytes. -/
structure Col where
  a : Byte
  b : Byte
  c : Byte
  d : Byte
  deriving DecidableEq, Repr, Inhabited

/-- A block: sixteen bytes in four columns. -/
structure Block where
  p : Col
  q : Col
  r : Col
  s : Col
  deriving DecidableEq, Repr, Inhabited

def Col.add (x y : Col) : Col := ⟨x.a ^^^ y.a, x.b ^^^ y.b, x.c ^^^ y.c, x.d ^^^ y.d⟩
def Col.map (f : Byte → Byte) (x : Col) : Col := ⟨f x.a, f x.b, f x.c, f x.d⟩
def Block.add (x y : Block) : Block := ⟨x.p.add y.p, x.q.add y.q, x.r.add y.r, x.s.add y.s⟩
def Block.mapCols (f : Col → Col) (x : Block) : Block := ⟨f x.p, f x.q, f x.r, f x.s⟩

/-- The block whose byte i is f i. -/
def Block.of (f : Nat → Byte) : Block :=
  ⟨⟨f 0, f 1, f 2, f 3⟩, ⟨f 4, f 5, f 6, f 7⟩, ⟨f 8, f 9, f 10, f 11⟩, ⟨f 12, f 13, f 14, f 15⟩⟩

/-- The sixteen bytes of a block. -/
def Block.bytes (x : Block) : List Byte :=
  [x.p.a, x.p.b, x.p.c, x.p.d, x.q.a, x.q.b, x.q.c, x.q.d, x.r.a, x.r.b, x.r.c, x.r.d, x.s.a, x.s.b, x.s.c, x.s.d]

/-- The substitution table, byte i in bits 8 i + 7 to 8 i, and its inverse. -/
def sboxTable : BitVec 2048 :=
    0x16bb54b00f2d99416842e6bf0d89a18cdf2855cee9871e9b948ed9691198f8e1#256
    ++ 0x9e1dc186b95735610ef6034866b53e708a8bbd4b1f74dde8c6b4a61c2e2578ba#256
    ++ 0x08ae7a65eaf4566ca94ed58d6d37c8e779e4959162acd3c25c2406490a3a32e0#256
    ++ 0xdb0b5ede14b8ee4688902a22dc4f816073195d643d7ea7c41744975fec130ccd#256
    ++ 0xd2f3ff1021dab6bcf5389d928f40a351a89f3c507f02f94585334d43fbaaefd0#256
    ++ 0xcf584c4a39becb6a5bb1fc20ed00d153842fe329b3d63b52a05a6e1b1a2c8309#256
    ++ 0x75b227ebe28012079a059618c323c7041531d871f1e5a534ccf73f362693fdb7#256
    ++ 0xc072a49cafa2d4adf04759fa7dc982ca76abd7fe2b670130c56f6bf27b777c63#256

def unsboxTable : BitVec 2048 :=
    0x7d0c2155631469e126d677ba7e042b17619953833cbbebc8b0f52aae4d3be0a0#256
    ++ 0xef9cc9939f7ae52d0d4ab519a97f51605fec8027591012b131c7078833a8dd1f#256
    ++ 0xf45acd78fec0db9a2079d2c64b3e56fc1bbe18aa0e62b76f89c5291d711af147#256
    ++ 0x6edf751ce837f9e28535ade72274ac9673e6b4f0cecff297eadc674f4111913a#256
    ++ 0x6b8a130103bdafc1020f3fca8f1e2cd00645b3b80558e4f70ad3bc8c00abd890#256
    ++ 0x849d8da75746155edab9edfd5048706c92b6655dcc5ca4d41698688664f6f872#256
    ++ 0x25d18b6d49a25b76b224d92866a12e084ec3fa420b954cee3d23c2a632947b54#256
    ++ 0xcbe9dec444438e3487ff2f9b8239e37cfbd7f3819ea340bf38a53630d56a0952#256

def sbox (x : Byte) : Byte := fld sboxTable (8 * x.toNat) 8
def unsbox (x : Byte) : Byte := fld unsboxTable (8 * x.toNat) 8

/-- Multiplication by x in the field of 256 elements. -/
def xtime (x : Byte) : Byte := (x <<< 1) ^^^ (if x.getLsbD 7 then 0x1B else 0)

def mixCol (x : Col) : Col :=
  let t := fun (u v : Byte) => xtime u ^^^ (xtime v ^^^ v)
  ⟨t x.a x.b ^^^ x.c ^^^ x.d, x.a ^^^ t x.b x.c ^^^ x.d, x.a ^^^ x.b ^^^ t x.c x.d, t x.d x.a ^^^ x.b ^^^ x.c⟩

/-- The factors 14, 11, 13 and 9 of the inverse. -/
def unmixByte (u v w z : Byte) : Byte :=
  let x2 := fun (y : Byte) => xtime (xtime y)
  let x3 := fun (y : Byte) => xtime (xtime (xtime y))
  (x3 u ^^^ x2 u ^^^ xtime u) ^^^ (x3 v ^^^ xtime v ^^^ v) ^^^ (x3 w ^^^ x2 w ^^^ w) ^^^ (x3 z ^^^ z)

def unmixCol (x : Col) : Col :=
  ⟨unmixByte x.a x.b x.c x.d, unmixByte x.b x.c x.d x.a, unmixByte x.c x.d x.a x.b, unmixByte x.d x.a x.b x.c⟩

def shiftRows (x : Block) : Block :=
  ⟨⟨x.p.a, x.q.b, x.r.c, x.s.d⟩, ⟨x.q.a, x.r.b, x.s.c, x.p.d⟩, ⟨x.r.a, x.s.b, x.p.c, x.q.d⟩, ⟨x.s.a, x.p.b, x.q.c, x.r.d⟩⟩

def unshiftRows (x : Block) : Block :=
  ⟨⟨x.p.a, x.s.b, x.r.c, x.q.d⟩, ⟨x.q.a, x.p.b, x.s.c, x.r.d⟩, ⟨x.r.a, x.q.b, x.p.c, x.s.d⟩, ⟨x.s.a, x.r.b, x.q.c, x.p.d⟩⟩

/-! Rounds: a list of round keys, the last of them without the mixing of columns. -/

def rounds : List Block → Block → Block
  | [], x => x
  | [k], x => (shiftRows (x.mapCols (Col.map sbox))).add k
  | k :: ks, x => rounds ks (((shiftRows (x.mapCols (Col.map sbox))).mapCols mixCol).add k)

def unrounds : List Block → Block → Block
  | [], y => y
  | [k], y => (unshiftRows (y.add k)).mapCols (Col.map unsbox)
  | k :: ks, y => (unshiftRows (((unrounds ks y).add k).mapCols unmixCol)).mapCols (Col.map unsbox)

/-! Key schedule of a 256-bit key: eight columns at a time. -/

/-- Two round keys. -/
structure Keys where
  x : Block
  y : Block

/-- The next eight columns; `rc` is the round constant. -/
def Keys.next (k : Keys) (rc : Byte) : Keys :=
  let t := k.y.s
  let p := k.x.p.add ⟨sbox t.b ^^^ rc, sbox t.c, sbox t.d, sbox t.a⟩
  let q := k.x.q.add p
  let r := k.x.r.add q
  let s := k.x.s.add r
  let p' := k.y.p.add (s.map sbox)
  let q' := k.y.q.add p'
  let r' := k.y.r.add q'
  ⟨⟨p, q, r, s⟩, ⟨p', q', r', k.y.s.add r'⟩⟩

def Keys.list : Keys → List Byte → List Block
  | k, [] => [k.x]
  | k, rc :: rest => k.x :: k.y :: Keys.list (k.next rc) rest

/-- The fifteen round keys. -/
def schedule (key : BitVec 256) : List Block :=
  Keys.list ⟨Block.of (fun i => fld key (8 * i) 8), Block.of (fun i => fld key (128 + 8 * i) 8)⟩ [1, 2, 4, 8, 0x10, 0x20, 0x40]

/-- One block under a key. -/
def encrypt (key : BitVec 256) (x : Block) : Block :=
  match schedule key with
  | [] => x
  | k :: ks => rounds ks (x.add k)

def decrypt (key : BitVec 256) (y : Block) : Block :=
  match schedule key with
  | [] => y
  | k :: ks => (unrounds ks y).add k

/-! XTS (R294): the data unit is a 256-byte line and its tweak the line's physical address. -/

/-- The tweak of the next block of a data unit. -/
def nextTweak (t : BitVec 128) : BitVec 128 := (t <<< 1) ^^^ (if t.getLsbD 127 then 0x87 else 0)

def nthTweak : Nat → BitVec 128 → BitVec 128
  | 0, t => t
  | n + 1, t => nthTweak n (nextTweak t)

def Block.bits (x : Block) : BitVec 128 := BitVec.ofNat 128 (leNat x.bytes)
def Block.ofBits (t : BitVec 128) : Block := Block.of (fun i => fld t (8 * i) 8)

/-- What is added before and after the cipher in block j of a line. -/
def mask (key : BitVec 512) (line j : Nat) : Block :=
  Block.ofBits (nthTweak j (encrypt (fld key 256 256) (Block.ofBits (BitVec.ofNat 128 line))).bits)

/-- Block j of the line at physical address `line`, enciphered under the two keys of a slot. -/
def encipher (key : BitVec 512) (line j : Nat) (x : Block) : Block :=
  let t := mask key line j
  (encrypt (fld key 0 256) (x.add t)).add t

def decipher (key : BitVec 512) (line j : Nat) (y : Block) : Block :=
  let t := mask key line j
  (decrypt (fld key 0 256) (y.add t)).add t

end Sys2Proof.Aes
end

