-- ==== Sys2Proof/Machine/Mem.lean ====
section
/-! DEFINITION. Physical memory with owner tags and keys (18 R290 to R295), page tables and translation caches
(21 R323 to R328), and reads and writes by virtual address. -/

namespace Sys2Proof.Machine

/-- A byte of memory as memory holds it. -/
def Memory.read (m : Memory) (a : Nat) : Byte := (SMap.find? (α := Byte) m a).getD Config.unwritten

/-- Writing one byte of memory. -/
def Memory.write (m : Memory) (a : Nat) (b : Byte) : Memory := SMap.put (α := Byte) m a b

/-- Bytes a, a + 1, ... of memory. -/
def Memory.readList (m : Memory) (a n : Nat) : List Byte := (List.range n).map (fun i => m.read (a + i))

/-- Writing bytes a, a + 1, ... -/
def Memory.writeList (m : Memory) (a : Nat) : List Byte → Memory
  | [] => m
  | b :: bs => Memory.writeList (m.write a b) (a + 1) bs

/-- The little-endian value of n bytes (R4). -/
def Memory.readNat (m : Memory) (a n : Nat) : Nat := leNat (m.readList a n)

/-! Physical ranges (R328). -/

def hbmBytes : Nat := 0xC000000000
def cxlBase : Nat := 0x1000000000000
def hostBase : Nat := 0x4000000000000
def roldyBase : Nat := 0x8000000000000
def paEnd : Nat := 0x10000000000000

def State.isHbm (_ : State) (a : Nat) : Bool := decide (a < hbmBytes)
def State.isCxl (s : State) (a : Nat) : Bool := decide (cxlBase ≤ a ∧ a < cxlBase + s.cxlBytes)
def isHost (a : Nat) : Bool := decide (hostBase ≤ a ∧ a < roldyBase)
/-- Packages of the Roldy domain are 0 to 2,303 (R328, R364). -/
def isRoldy (a : Nat) : Bool := decide (roldyBase ≤ a ∧ a < paEnd ∧ (a - roldyBase) / 2 ^ 39 < 2304)

/-- Local memory: what the die cache may hold and what is encrypted off chip (R86, R294). -/
def State.isLocal (s : State) (a : Nat) : Bool := s.isHbm a || s.isCxl a

/-- The link an address is routed to: 0 PCIe, 1 to 4 the CXL ports, 5 Roldy (R364; the share of each CXL port is
DESIGN CHOICE, log entry 9). -/
def State.linkOf (s : State) (a : Nat) : Option Nat :=
  if s.isCxl a then some (1 + (a - cxlBase) * 4 / s.cxlBytes)
  else if isHost a then some 0
  else if isRoldy a then some 5
  else none

/-- The address lies in a populated range whose link is up (R328, R364). -/
def State.reachable (s : State) (a : Nat) : Bool :=
  (s.isLocal a || isHost a || isRoldy a) &&
    match s.linkOf a with
    | some l => !s.downLinks.contains l
    | none => true

/-- First byte of the line of an address (R290). -/
def lineBase (a : Nat) : Nat := a / 256 * 256

/-- The world of an address, which is that of its line: the valid region entry of lowest index decides, no entry is
non-secure. Regions end at multiples of 64 KiB (R292), so that a line lies in one. -/
def State.secureAt (s : State) (a : Nat) : Bool :=
  match s.regions.values.find? (fun r => r.valid && decide (r.base.toNat ≤ lineBase a ∧ lineBase a ≤ r.limit.toNat)) with
  | some r => r.secure
  | none => false

/-! Owner tags and keys. -/

/-- Context n; an unlisted one is the invalid descriptor. -/
def State.ctx (s : State) (n : Nat) : Context := s.ctxs.get n

/-- The key slot of an owner; slot 511 is the firmware's (R294). -/
def State.slotOf (s : State) : Owner → Nat
  | .ctx c => (s.ctx c).keySlot.toNat
  | .firmware => 511

/-- The two keys of an owner's slot (R294). -/
def State.keyOf (s : State) (o : Owner) : BitVec 512 := s.keys.get (s.slotOf o)

/-- The sixteen bytes of memory from a on. -/
def Memory.block (m : Memory) (a : Nat) : Aes.Block := Aes.Block.of (fun i => m.read (a + i))

/-- A byte of memory deciphered under a key: its line is the data unit (R294). -/
def Memory.clear (m : Memory) (key : BitVec 512) (a : Nat) : Byte :=
  (Aes.decipher key (lineBase a) (a % 256 / 16) (m.block (a / 16 * 16))).bytes.getD (a % 16) 0

/-- The world that an access of an owner carries (R290, R292). -/
def State.worldOf (s : State) : Owner → Bool
  | .ctx c => (s.ctx c).secure
  | .firmware => true

/-- The tag of a line is that of an access of an owner: its CTXID, and a world that the access reaches. A line has the world bit of its
region, whichever world wrote it; a secure access reaches both worlds (R290, R292, R293; DEDUCED, log entry 106). -/
def State.tagged (s : State) (o : Owner) (l : Line) : Bool := l.owner == some o && (s.worldOf o || !l.secure)

/-- What an owner reads of one byte: zero while another owner's tag holds its line on chip, else the line's byte; of a line off
chip, what its own key deciphers (R290, R294, R295). -/
def State.readAs (s : State) (o : Owner) (a : Nat) : Byte :=
  if s.isLocal a then
    match s.lines.find? (a / 256) with
    | some l => if s.tagged o l then l.bytes.get (a % 256) else 0
    | none => s.mem.clear (s.keyOf o) a
  else s.mem.read a

/-- What context c reads of one byte. -/
def State.readByte (s : State) (c a : Nat) : Byte := s.readAs (.ctx c) a

/-- Bytes a, a + 1, ... as context c reads them. -/
def State.readBytes (s : State) (c a n : Nat) : List Byte := (List.range n).map (fun i => s.readByte c (a + i))

/-- Block j of a line enciphered into memory. -/
def Memory.sealBlock (m : Memory) (key : BitVec 512) (base : Nat) (bytes : Cells 8) (j : Nat) : Memory :=
  m.writeList (base + 16 * j) (Aes.encipher key base j (Aes.Block.of (fun i => bytes.get (16 * j + i)))).bytes

/-- A line's bytes enciphered into memory (R294). -/
def Memory.sealLine (m : Memory) (key : BitVec 512) (base : Nat) (bytes : Cells 8) : Memory :=
  (List.range 16).foldl (fun (m : Memory) j => m.sealBlock key base bytes j) m

/-- A line leaves the die cache: a dirty one is written back under its owner's key; one with a cleared tag belongs to nobody and
is discarded, as a clean one is (R290, R294). A write-back to a port that is down fails (R364; DESIGN CHOICE, log entry 107). -/
def State.evict (s : State) (n : Nat) : State :=
  match s.lines.find? n with
  | none => s
  | some l =>
    let t := { s with lines := s.lines.erase n }
    match l.owner, l.dirty && s.reachable (256 * n) with
    | some o, true => { t with mem := s.mem.sealLine (s.keyOf o) (256 * n) l.bytes, sealed := s.sealed.insert n (s.slotOf o) }
    | _, _ => t

/-- The bytes of a line off chip as an owner's key deciphers them. -/
def State.fill (s : State) (o : Owner) (n : Nat) : Cells 8 :=
  SMap.putList [] 0 ((List.range 256).map (fun i => s.mem.clear (s.keyOf o) (256 * n + i)))

/-- The line of address a is in the die cache with an owner's tag: as it stands there, filled from memory, or retagged with zero
contents once another owner's line has been written back (R290). -/
def State.bring (s : State) (o : Owner) (a : Nat) : State :=
  let n := a / 256
  let new := fun (bytes : Cells 8) => ({ owner := some o, secure := s.secureAt a, dirty := false, bytes := bytes } : Line)
  match s.lines.find? n with
  | some l =>
    if s.tagged o l then s
    else
      let t := s.evict n
      { t with lines := t.lines.insert n (new []) }
  | none => { s with lines := s.lines.insert n (new (s.fill o n)) }

/-- Key of a region of an array of R359 by its code in an error record: its die, its core (56 for a side chiplet) and its number. -/
def regionNumber (array die core region : Nat) : Nat := ((die * 64 + core) * 16 + array) * 64 + region

/-- The region of the die cache that a line stands in takes lines: its fault is not a lasting one (R359). -/
def State.takesLine (s : State) (n : Nat) : Bool :=
  let r := (Config.lineRegion n).val
  !s.lasting.contains (regionNumber 8 (r / 64) 56 (r % 64))

/-- The region of Burrow that a leaf stands in takes leaves: its fault is not a lasting one (R359). -/
def State.takesLeaf (s : State) (ctx leaf : Nat) : Bool :=
  let r := (Config.leafRegion ctx leaf).val
  !s.lasting.contains (regionNumber 9 (r / 32) 56 (r % 32))

/-- A read that may allocate leaves its line in the die cache (R86, R359); a line that is there keeps its tag. -/
def State.touch (s : State) (o : Owner) (alloc : Bool) (a : Nat) : State :=
  if alloc && s.isLocal a && (s.lines.find? (a / 256)).isNone && s.takesLine (a / 256) then s.bring o a else s

/-- Reads of n bytes from a on. -/
def State.touchRange (s : State) (o : Owner) (alloc : Bool) (a n : Nat) : State :=
  (List.range n).foldl (fun (s : State) i => s.touch o alloc (a + i)) s

/-- One byte of a line that is not in the die cache is written in memory (R86 NOALLOC, R95). -/
def State.writeOff (s : State) (o : Owner) (a : Nat) (b : Byte) : State :=
  let key := s.keyOf o
  let base := a / 16 * 16
  let plain := Aes.Block.of (fun i => if base + i = a then b else s.mem.clear key (base + i))
  { s with
    mem := s.mem.writeList base (Aes.encipher key (lineBase a) (a % 256 / 16) plain).bytes
    sealed := s.sealed.insert (a / 256) (s.slotOf o) }

/-- One byte of a line in the die cache is written by its owner, and the line takes the world bit of its region (R290, R292). -/
def State.writeOn (s : State) (a : Nat) (b : Byte) : State :=
  { s with lines := s.lines.modify (a / 256) (fun l =>
      { l with secure := s.secureAt a, dirty := true, bytes := l.bytes.put (a % 256) b }) }

/-- An owner writes one byte; `alloc`: it may put the line into the die cache (R86, R95, R359). -/
def State.writeAs (s : State) (o : Owner) (alloc : Bool) (a : Nat) (b : Byte) : State :=
  if s.isLocal a then
    if (s.lines.find? (a / 256)).isNone && !(alloc && s.takesLine (a / 256)) then s.writeOff o a b else (s.bring o a).writeOn a b
  else { s with mem := s.mem.write a b }

/-- Context c writes one byte. -/
def State.writeByte (s : State) (c a : Nat) (b : Byte) : State := s.writeAs (.ctx c) true a b

/-- Context c writes bytes a, a + 1, ... -/
def State.writeBytes (s : State) (c a : Nat) : List Byte → State
  | [] => s
  | b :: bs => State.writeBytes (s.writeByte c a b) c (a + 1) bs

/-- Context c writes those bytes whose mask bit is set, from bit i on (R84 mode 01). -/
def State.writeMasked (s : State) (c : Nat) (alloc : Bool) (a : Nat) (mask : BitVec 16) : Nat → List Byte → State
  | _, [] => s
  | i, b :: bs =>
    State.writeMasked (if flag mask i then s.writeAs (.ctx c) alloc (a + i) b else s) c alloc a mask (i + 1) bs

/-! Accesses that no context issues: the firmware, walkers, engines of the I/O dies, and the host. They take the owner of the
line they touch where it has one (DEDUCED, log entry 19). What stands behind a link that is down they neither read nor write (R364;
DESIGN CHOICE, log entry 107). -/

/-- The owner of the line of an address: its tag on chip; off chip, whose key it was last written with. `other` where it has
none. -/
def State.ownerAt (s : State) (other : Owner) (a : Nat) : Owner :=
  match s.lines.find? (a / 256) with
  | some l => l.owner.getD other
  | none =>
    match s.sealed.find? (a / 256) with
    | none => other
    | some 511 => .firmware
    | some slot => match List.find? (fun (e : Nat × Context) => e.2.valid && e.2.keySlot.toNat == slot) s.ctxs with
      | some e => .ctx e.1
      | none => other

/-- The line of an address stands in the die cache and has an owner. -/
def State.owned (s : State) (a : Nat) : Bool :=
  match s.lines.find? (a / 256) with
  | some l => l.owner.isSome
  | none => false

/-- A byte as its owner has it: a line that stands in the die cache is its owner's, whatever its world bit. -/
def State.ownByte (s : State) (other : Owner) (a : Nat) : Byte :=
  if s.owned a then (s.lines.get (a / 256)).bytes.get (a % 256) else s.readAs (s.ownerAt other a) a

/-- A byte written as its owner would. -/
def State.ownPut (s : State) (other : Owner) (a : Nat) (b : Byte) : State :=
  if s.owned a then s.writeOn a b else s.writeAs (s.ownerAt other a) true a b

/-- Bytes a, a + 1, ... as their owners have them. -/
def State.ownBytes (s : State) (other : Owner) (a n : Nat) : List Byte :=
  (List.range n).map (fun i => if s.reachable (a + i) then s.ownByte other (a + i) else 0)

/-- Writing bytes a, a + 1, ... as their owners. -/
def State.ownWrite (s : State) (other : Owner) (a : Nat) : List Byte → State
  | [] => s
  | b :: bs => State.ownWrite (if s.reachable a then s.ownPut other a b else s) other (a + 1) bs

/-- The little-endian value of n bytes as the firmware reads them. -/
def State.fwNat (s : State) (a n : Nat) : Nat := leNat (s.ownBytes .firmware a n)

/-- The firmware writes bytes. -/
def State.fwWrite (s : State) (a : Nat) (bs : List Byte) : State := s.ownWrite .firmware a bs

/-! Page tables. -/

/-- Outcome of a walk or of a translation. -/
inductive Xlate where
  /-- no cached translation -/
  | miss
  /-- the page is being moved (R331) -/
  | moving
  | fail (code : FaultCode)
  | ok (pa : Nat)
  deriving DecidableEq, Repr

/-- Outcome of reading the tables (R325). -/
inductive Walk where
  | leaf (l : Leafmap)
  /-- its page is being moved (R331) -/
  | moving (l : Leafmap)
  | invalid
  deriving DecidableEq, Repr

/-- Entry e as a leaf for a page of 2^shift bytes at level lv: its frame, if it is well formed (R324, R325). -/
def leafFrame (e : BitVec 64) (lv shift : Nat) : Option Nat :=
  let frame := nfld e 16 36 * 65536
  if flag e 0 && flag e 1 && nfld e 52 3 == 0 && nfld e 7 9 == 0 && nfld e 2 2 + lv == 3 && lv != 0
      && frame % 2 ^ shift == 0 then some frame else none

/-- The levels below the root: level, lowest VA bit, index bits (R323). -/
def walkLevels : List (Nat × Nat × Nat) := [(0, 41, 11), (1, 30, 11), (2, 21, 9), (3, 16, 5)]

/-- The table that a die's cached table entry of a level leads to, for an address of context c (R327). -/
def State.tableFor (s : State) (die c level va : Nat) : Option Nat :=
  (s.tables.find? (fun t => decide (t.die = die ∧ t.ctx = c ∧ t.level = level ∧ t.va ≤ va ∧ va < t.va + t.size))).map (·.next)

/-- The entry of a table at an address, one strong 8-byte load; none where its memory cannot be reached (R325, R364). -/
def State.entryAt (s : State) (a : Nat) : Option (BitVec 64) :=
  if s.reachable a then some (BitVec.ofNat 64 (s.fwNat a 8)) else none

/-- The walk of one address through the remaining levels, with the table entries it read (R325). A walk of a die goes through
the table entries the die has cached. A table stands wherever its address says, aligned to its size or not (DESIGN CHOICE, log entry
130). -/
def State.walkFrom (s : State) (die : Option Nat) (c va : Nat) : List (Nat × Nat × Nat) → Nat → Walk × List Table
  | [], _ => (.invalid, [])
  | (lv, shift, bits) :: rest, table =>
    match die.bind (fun d => s.tableFor d c lv va) with
    | some next => State.walkFrom s die c va rest next
    | none =>
      match s.entryAt (table + va / 2 ^ shift % 2 ^ bits * 8) with
      | none => (.invalid, [])
      | some e =>
        if !flag e 0 then (.invalid, [])
        else if flag e 1 then
          match leafFrame e lv shift with
          | some frame =>
            let l : Leafmap := { va := va / 2 ^ shift * 2 ^ shift, pa := frame, size := 2 ^ shift,
                                 rd := flag e 4, wr := flag e 5, ex := flag e 6 }
            (if flag e 55 then .moving l else .leaf l, [])
          | none => (.invalid, [])
        else if nfld e 52 12 != 0 || nfld e 1 7 != 0 then (.invalid, [])
        else
          let next := nfld e 8 44 * 256
          let r := State.walkFrom s die c va rest next
          (r.1, { die := die.getD 0, ctx := c, level := lv, va := va / 2 ^ shift * 2 ^ shift, size := 2 ^ shift, next := next } :: r.2)

/-- The walk of context c's tables; an address with a bit above 51 set has no translation (R81). -/
def State.walkOn (s : State) (die : Option Nat) (c va : Nat) : Walk × List Table :=
  if 2 ^ 52 ≤ va then (.invalid, []) else s.walkFrom die c va walkLevels (s.ctx c).ptroot.toNat

/-- A walk that goes through no cached entry: of the front ends and engines of the I/O dies. -/
def State.walk (s : State) (c va : Nat) : Walk := (s.walkOn none c va).1

/-- The check of a leaf against an access of context c (R293, R325, R328). -/
def State.checkLeaf (s : State) (c : Nat) (need : Need) (l : Leafmap) (va : Nat) : Xlate :=
  let allowed := match need with
    | .rd => l.rd | .wr => l.wr | .rw => l.rd && l.wr | .ex => l.ex
  let pa := l.pa + (va - l.va)
  if !s.reachable pa then .fail .xlat
  else if !allowed || (s.secureAt pa && !(s.ctx c).secure) then .fail .perm
  else .ok pa

/-- The cached translation of an address on a die (R327). -/
def State.cached (s : State) (die c va : Nat) : Option Leafmap :=
  (s.tlb.find? (fun e => decide (e.die = die ∧ e.ctx = c ∧ e.leaf.va ≤ va ∧ va < e.leaf.va + e.leaf.size))).map (·.leaf)

/-- Translation through the caches of a die. -/
def State.xlate (s : State) (die c : Nat) (need : Need) (va : Nat) : Xlate :=
  match s.cached die c va with
  | none => .miss
  | some l => s.checkLeaf c need l va

/-- A walk for an access: the table entries it read and the leaf it finds are cached (R325 to R327). -/
def State.walkFor (s : State) (die c : Nat) (need : Need) (va : Nat) : State × Xlate :=
  let r := s.walkOn (some die) c va
  let t := { s with tables := r.2 ++ s.tables }
  match r.1 with
  | .invalid => (t, .fail .xlat)
  | .moving _ => (t, .moving)
  | .leaf l => ({ t with tlb := ⟨die, c, l⟩ :: s.tlb }, s.checkLeaf c need l va)

/-- Translation by a walk that caches nothing: the front ends and engines of the I/O dies. -/
def State.vtrans (s : State) (c : Nat) (need : Need) (va : Nat) : Xlate :=
  match s.walk c va with
  | .invalid => .fail .xlat
  | .moving _ => .moving
  | .leaf l => s.checkLeaf c need l va

/-- What reading by virtual address gives. -/
inductive VRead where
  | bytes (bs : List Byte)
  | moving
  | fail (code : FaultCode) (va : Nat)
  deriving DecidableEq, Repr

/-- Reading n bytes by virtual address, a front end acting for context c. -/
def State.vread (s : State) (c va : Nat) : Nat → VRead
  | 0 => .bytes []
  | n + 1 =>
    match s.vtrans c .rd va with
    | .ok pa =>
      match State.vread s c (va + 1) n with
      | .bytes bs => .bytes (s.readByte c pa :: bs)
      | r => r
    | .fail code => .fail code va
    | _ => .moving

/-- Whether n bytes by virtual address can be accessed: the first failure, else whether a page of them is being moved. -/
inductive VCheck where
  | ok
  | moving
  | fail (code : FaultCode) (va : Nat)
  deriving DecidableEq, Repr

def State.vcheck (s : State) (c : Nat) (need : Need) (va : Nat) : Nat → VCheck
  | 0 => .ok
  | n + 1 =>
    match s.vtrans c need va with
    | .fail code => .fail code va
    | .ok _ => State.vcheck s c need (va + 1) n
    | _ => match State.vcheck s c need (va + 1) n with
      | .fail code x => .fail code x
      | _ => .moving

/-- Writing bytes by virtual address, once vcheck has passed. -/
def State.vwrite (s : State) (c va : Nat) : List Byte → State
  | [] => s
  | b :: bs =>
    match s.vtrans c .wr va with
    | .ok pa => State.vwrite (s.writeByte c pa b) c (va + 1) bs
    | _ => State.vwrite s c (va + 1) bs

end Sys2Proof.Machine
end

