-- ==== Sys2Proof/Machine/Real.lean ====
section
/-! DEFINITION. Exact arithmetic and rounding: dyadic numbers, the floating-point formats of R58, the rounding modes and
overflow rules of R65 and R66, and the correctly rounded functions of R76 (03). -/

namespace Sys2Proof

/-- The exact value (-1)^neg * m * 2^e. -/
structure Dy where
  neg : Bool
  m : Nat
  e : Int
  deriving DecidableEq, Repr, Inhabited

/-- A value with the special ones. -/
inductive Num where
  | nan
  | inf (neg : Bool)
  | fin (x : Dy)
  deriving DecidableEq, Repr, Inhabited

def Dy.zero : Dy := ⟨false, 0, 0⟩
def Dy.one : Dy := ⟨false, 1, 0⟩
def Dy.ofInt (i : Int) : Dy := ⟨decide (i < 0), i.natAbs, 0⟩
def Dy.isZero (x : Dy) : Bool := x.m == 0
def Dy.abs (x : Dy) : Dy := { x with neg := false }
def Dy.flip (x : Dy) : Dy := { x with neg := !x.neg }
def Dy.mul (x y : Dy) : Dy := ⟨x.neg != y.neg, x.m * y.m, x.e + y.e⟩
/-- x * 2^k. -/
def Dy.shift (x : Dy) (k : Int) : Dy := { x with e := x.e + k }

/-- The signed number of steps of 2^e in x, for e at most x's exponent. -/
def Dy.steps (x : Dy) (e : Int) : Int :=
  let n : Int := (x.m : Int) * 2 ^ (x.e - e).toNat
  if x.neg then -n else n

/-- The least exponent of a list. -/
def Dy.leastExp : List Dy → Int
  | [] => 0
  | [x] => x.e
  | x :: xs => min x.e (Dy.leastExp xs)

/-- The exact sum. -/
def Dy.sum (l : List Dy) : Dy :=
  let e := Dy.leastExp l
  let t : Int := (l.map (fun x => x.steps e)).sum
  ⟨decide (t < 0), t.natAbs, e⟩

def Dy.sub (x y : Dy) : Dy := Dy.sum [x, y.flip]

/-- x < y. -/
def Dy.lt (x y : Dy) : Bool :=
  let e := min x.e y.e
  decide (x.steps e < y.steps e)

/-- x <= y. -/
def Dy.le (x y : Dy) : Bool := !y.lt x

/-- floor(log2 |x|), for x not zero. -/
def Dy.log2 (x : Dy) : Int := (Nat.log2 x.m : Int) + x.e

/-- floor(|x| / 2^e). -/
def Dy.floorAt (x : Dy) (e : Int) : Nat :=
  if e ≤ x.e then x.m * 2 ^ (x.e - e).toNat else x.m / 2 ^ (e - x.e).toNat

/-! Rounding (R65). -/

/-- Rounding modes, in code order (R65). -/
inductive Round where
  | rne | rtz | dn | up | sr
  deriving DecidableEq, Repr

/-- Mode of a code; 5 to 7 are invalid. -/
def Round.ofCode (n : Nat) : Round := match n with | 0 => .rne | 1 => .rtz | 2 => .dn | 3 => .up | _ => .sr

/-- Steps of 2^q that x rounds to. `u24` is the draw of stochastic rounding; with `sticky` the exact magnitude lies
strictly between x's and the next one with its exponent. -/
def Dy.round (mode : Round) (u24 : Nat) (sticky : Bool) (x : Dy) (q : Int) : Nat :=
  let g := x.floorAt q
  if q ≤ x.e then g
  else
    let w := 2 ^ (q - x.e).toNat
    let rest := x.m % w
    let away := match mode with
      | .rne => decide (w < 2 * rest) || (2 * rest == w && (sticky || g % 2 == 1))
      | .rtz => false
      | .dn => x.neg && (rest != 0 || sticky)
      | .up => !x.neg && (rest != 0 || sticky)
      | .sr => decide (u24 < rest * 2 ^ 24 / w)
    if away then g + 1 else g

/-- The mode moves an overflowing value toward zero. -/
def Round.towardZero (mode : Round) (neg : Bool) : Bool :=
  match mode with
  | .rtz => true
  | .dn => !neg
  | .up => neg
  | _ => false

/-! Floating-point formats (R58). -/

/-- A floating-point format: fraction bits, exponent of the smallest subnormal, greatest finite magnitude code, magnitude
code of infinity and code of the canonical NaN if it has them, place of the sign bit. -/
structure FFmt where
  fb : Nat
  qmin : Int
  top : Nat
  inf : Option Nat
  nan : Option Nat
  sign : Nat
  deriving DecidableEq, Repr

def fp32 : FFmt := ⟨23, -149, 0x7F7FFFFF, some 0x7F800000, some 0x7FC00000, 31⟩
def fp16 : FFmt := ⟨10, -24, 0x7BFF, some 0x7C00, some 0x7E00, 15⟩
def bf16 : FFmt := ⟨7, -133, 0x7F7F, some 0x7F80, some 0x7FC0, 15⟩
def e4m3 : FFmt := ⟨3, -9, 0x7E, none, some 0x7F, 7⟩
def e5m2 : FFmt := ⟨2, -16, 0x7B, some 0x7C, some 0x7E, 7⟩
def e2m1 : FFmt := ⟨1, -1, 7, none, none, 3⟩
/-- Magnitudes of DX8 (R63); bit 6 is the sign. -/
def e3m3 : FFmt := ⟨3, -5, 0x3F, none, none, 6⟩

/-- The value of a magnitude code (R58). -/
def FFmt.magnitude (f : FFmt) (neg : Bool) (c : Nat) : Dy :=
  let ex := c / 2 ^ f.fb
  let fr := c % 2 ^ f.fb
  if ex = 0 then ⟨neg, fr, f.qmin⟩ else ⟨neg, 2 ^ f.fb + fr, f.qmin + ex - 1⟩

/-- The value of a code (R58). -/
def FFmt.decode (f : FFmt) (code : Nat) : Num :=
  let neg := code / 2 ^ f.sign % 2 == 1
  let c := code % 2 ^ f.sign
  if c ≤ f.top then .fin (f.magnitude neg c)
  else match f.inf with
    | some i => if c = i then .inf neg else .nan
    | none => .nan

/-- A magnitude code with a sign. -/
def FFmt.code (f : FFmt) (neg : Bool) (c : Nat) : Nat := if neg then 2 ^ f.sign + c else c

/-- Exponent of the grid step at a value (R65). -/
def FFmt.quantum (f : FFmt) (x : Dy) : Int := if x.isZero then f.qmin else max f.qmin (x.log2 - f.fb)

/-- The magnitude code that x rounds to on the grid continued above the largest finite value. -/
def FFmt.roundMag (f : FFmt) (mode : Round) (u24 : Nat) (sticky : Bool) (x : Dy) : Nat :=
  let q := f.quantum x
  (q - f.qmin).toNat * 2 ^ f.fb + x.round mode u24 sticky q

/-- The code of an overflow or an infinity: infinity, else NaN, else the greatest magnitude (R66). -/
def FFmt.overflow (f : FFmt) (sat : Bool) (neg : Bool) : Nat :=
  if sat then f.code neg f.top
  else match f.inf with
    | some i => f.code neg i
    | none => match f.nan with
      | some n => n
      | none => f.code neg f.top

/-- Rounding into a floating-point format with its overflow rule (R65, R66); a NaN without a code becomes 0. -/
def FFmt.encode (f : FFmt) (mode : Round) (sat : Bool) (u24 : Nat) (sticky : Bool) (x : Num) : Nat :=
  match x with
  | .nan => f.nan.getD 0
  | .inf neg => f.overflow sat neg
  | .fin d =>
    let c := f.roundMag mode u24 sticky d
    if c ≤ f.top then f.code d.neg c
    else if mode.towardZero d.neg then f.code d.neg f.top
    else f.overflow sat d.neg

/-- round_rne into a format, without saturation. -/
def FFmt.rne (f : FFmt) (x : Num) : Nat := f.encode .rne false 0 false x

/-! Sums and products with their special cases (R72). -/

def Num.isNan (x : Num) : Bool := match x with | .nan => true | _ => false
def Num.isInf (x : Num) (neg : Bool) : Bool := match x with | .inf n => n == neg | _ => false
def Num.isNegZero (x : Num) : Bool := match x with | .fin d => d.neg && d.isZero | _ => false
def Num.isZero (x : Num) : Bool := match x with | .fin d => d.isZero | _ => false
def Num.dy (x : Num) : Dy := match x with | .fin d => d | _ => Dy.zero
def Num.flip (x : Num) : Num := match x with | .nan => .nan | .inf n => .inf (!n) | .fin d => .fin d.flip

/-- A product: infinity times zero is NaN. -/
def Num.mul (x y : Num) : Num :=
  match x, y with
  | .nan, _ | _, .nan => .nan
  | .inf a, .inf b => .inf (a != b)
  | .inf a, .fin d | .fin d, .inf a => if d.isZero then .nan else .inf (a != d.neg)
  | .fin a, .fin b => .fin (a.mul b)

/-- The exact sum of terms with the special cases of R72. -/
def Num.sum (terms : List Num) : Num :=
  if terms.any Num.isNan then .nan
  else
    let pos := terms.any (fun x => x.isInf false)
    let neg := terms.any (fun x => x.isInf true)
    if pos && neg then .nan
    else if pos then .inf false
    else if neg then .inf true
    else
      let t := Dy.sum (terms.map Num.dy)
      if t.isZero then .fin { t with neg := terms.all Num.isNegZero } else .fin t

/-! Division, roots, exponential and logarithm (R76, R79). -/

/-- floor(sqrt n) for n below 4^k. -/
def isqrt : Nat → Nat → Nat
  | 0, _ => 0
  | k + 1, n =>
    let r := 2 * isqrt k (n / 4)
    if (r + 1) * (r + 1) ≤ n then r + 1 else r

/-- A code of FP32 as a value, and a value rounded to FP32. -/
def ofF32 (w : Word) : Num := fp32.decode w.toNat
def toF32 (x : Num) : Word := BitVec.ofNat 32 (fp32.rne x)
/-- A finite value known to all its bits but those below its last one. -/
def toF32Sticky (x : Dy) (sticky : Bool) : Word := BitVec.ofNat 32 (fp32.encode .rne false 0 sticky (.fin x))

/-- a / b correctly rounded to FP32; a zero divided by a zero and an infinity by an infinity are NaN. -/
def divF32 (a b : Num) : Word :=
  match a, b with
  | .nan, _ | _, .nan => toF32 .nan
  | .inf _, .inf _ => toF32 .nan
  | .inf n, .fin d => toF32 (.inf (n != d.neg))
  | .fin d, .inf n => toF32 (.fin ⟨d.neg != n, 0, 0⟩)
  | .fin x, .fin y =>
    if y.isZero then (if x.isZero then toF32 .nan else toF32 (.inf (x.neg != y.neg)))
    else
      let n := x.m * 2 ^ 100
      toF32Sticky ⟨x.neg != y.neg, n / y.m, x.e - y.e - 100⟩ (n % y.m != 0)

/-- FRCP (R76). -/
def frcp (w : Word) : Word := divF32 (.fin Dy.one) (ofF32 w)

/-- m * 2^e with an even exponent at most e. -/
def evenExp (x : Dy) : Dy := if x.e % 2 = 0 then x else { x with m := 2 * x.m, e := x.e - 1 }

/-- FSQRT (R76). -/
def fsqrt (w : Word) : Word :=
  match ofF32 w with
  | .nan => toF32 .nan
  | .inf neg => if neg then toF32 .nan else toF32 (.inf false)
  | .fin x =>
    if x.isZero then toF32 (.fin x)
    else if x.neg then toF32 .nan
    else
      let y := evenExp x
      let n := y.m * 2 ^ 128
      let r := isqrt 96 n
      toF32Sticky ⟨false, r, y.e / 2 - 64⟩ (r * r != n)

/-- FRSQ (R76). -/
def frsq (w : Word) : Word :=
  match ofF32 w with
  | .nan => toF32 .nan
  | .inf neg => if neg then toF32 .nan else toF32 (.fin Dy.zero)
  | .fin x =>
    if x.isZero then toF32 (.inf x.neg)
    else if x.neg then toF32 .nan
    else
      let y := evenExp x
      let n := 2 ^ 192
      let r := isqrt 100 (n / y.m)
      toF32Sticky ⟨false, r, -96 - y.e / 2⟩ (r * r * y.m != n)

/-- Bits after the point in the fixed-point numbers of FEXP2 and FLOG2 (log entry 11). -/
def fixBits : Nat := 192

/-- Sum of 1 / (k 2^k) for k from 1 on, n terms: ln 2 (fixed point). -/
def ln2Sum : Nat → Nat
  | 0 => 0
  | k + 1 => ln2Sum k + 2 ^ fixBits / ((k + 1) * 2 ^ (k + 1))

/-- ln 2 (fixed point). -/
def ln2Fix : Nat := ln2Sum 200

/-- The terms y^k / k! for k up to n, given the last one (fixed point). -/
def expSum (y : Nat) : Nat → Nat → Nat → Nat
  | 0, _, _ => 0
  | n + 1, k, t => t + expSum y n (k + 1) (t * y / (2 ^ fixBits * (k + 1)))

/-- exp y for y in [0, 1) (fixed point). -/
def expFix (y : Nat) : Nat := expSum y 60 0 (2 ^ fixBits)

/-- The terms t^(2k+1) / (2k+1), given t^(2k+1) (fixed point). -/
def artanhSum (sq : Nat) : Nat → Nat → Nat → Nat
  | 0, _, _ => 0
  | n + 1, k, p => p / (2 * k + 1) + artanhSum sq n (k + 1) (p * sq / 2 ^ fixBits)

/-- ln z for z = m / 2^k in [1, 2) (fixed point). -/
def lnFix (m k : Nat) : Nat :=
  let t := (m - 2 ^ k) * 2 ^ fixBits / (m + 2 ^ k)
  2 * artanhSum (t * t / 2 ^ fixBits) 70 0 t

/-- 2^x for finite x, rounded to FP32 (R76). -/
def exp2F32 (x : Dy) : Word :=
  if x.isZero then toF32 (.fin Dy.one)
  else if 8 ≤ x.log2 then (if x.neg then toF32 (.fin Dy.zero) else toF32 (.inf false))
  else
    let whole := x.steps (min x.e 0) / 2 ^ (-(min x.e 0)).toNat
    let part := x.sub (Dy.ofInt whole)
    if part.isZero then toF32 (.fin ⟨false, 1, whole⟩)
    else
      let f := part.floorAt (-(fixBits : Int))
      toF32Sticky ⟨false, expFix (f * ln2Fix / 2 ^ fixBits), whole - fixBits⟩ true

/-- FEXP2 (R76). -/
def fexp2 (w : Word) : Word :=
  match ofF32 w with
  | .nan => toF32 .nan
  | .inf neg => if neg then toF32 (.fin Dy.zero) else toF32 (.inf false)
  | .fin x => exp2F32 x

/-- FLOG2 (R76). -/
def flog2 (w : Word) : Word :=
  match ofF32 w with
  | .nan => toF32 .nan
  | .inf neg => if neg then toF32 .nan else toF32 (.inf false)
  | .fin x =>
    if x.isZero then toF32 (.inf true)
    else if x.neg then toF32 .nan
    else
      let k := Nat.log2 x.m
      let whole := x.log2
      if x.m = 2 ^ k then toF32 (.fin (Dy.ofInt whole))
      else
        let f := lnFix x.m k * 2 ^ fixBits / ln2Fix
        let t := Dy.sum [Dy.ofInt whole, ⟨false, f, -(fixBits : Int)⟩]
        toF32Sticky t true

/-- Exact terms summed and rounded once (R72, R178). -/
def fsum (terms : List Num) : Word := toF32 (Num.sum terms)

end Sys2Proof
end

