-- ==== Sys2Proof/Machine/Perform.lean ====
section
/-! DEFINITION. What a part of an access in flight reads and writes in memory (05 R103; 08 R191, R192; 11 R239), and the last
writes of work that is discarded (22 R342). -/

namespace Sys2Proof.Machine

/-- A store, an atomic or a write of the key-value group. -/
def AccessKind.strongWrite : AccessKind → Bool
  | .store | .atom .. | .satom .. | .kvapp .. | .kvtrunc _ | .kvstep .. => true
  | _ => false

/-- Bytes of an LD or ST by size code (R134, R191). -/
def memBytes (code : BitVec 4) : Nat :=
  match code.toNat with
  | 0 | 1 => 1
  | 2 | 3 => 2
  | 4 => 4
  | 5 => 8
  | _ => 16

/-- What the access needs of a page (R325). -/
def AccessKind.need : AccessKind → Need
  | .store | .copyOut _ | .tstore .. | .kvtrunc _ => .wr
  | .atom .. | .satom .. | .kvstep .. | .kvapp .. => .rw
  | _ => .rd

/-- A part that accesses memory beyond its workgroup: neither scratchpad, the argument block's copy, a piece of a codebook entry
that has been read, nor a part with no byte accessed (R84). -/
def Access.global (a : Access) (p : Part) : Bool :=
  !a.scratch && p.bytes != 0 && match a.kind with
    | .ldk _ => false
    | .copyBook .. => p.half == 0
    | _ => true

/-- The bytes a part reads: zero where a byte is not accessed (R84). -/
def State.partBytes (s : State) (w : Workgroup) (a : Access) (p : Part) (pa : Nat) : List Byte :=
  (List.range p.size).map (fun i =>
    if !flag p.bytes i then 0 else if a.scratch then w.scratch.get (p.addr + i) else s.readByte w.ctx (pa + i))

/-- The bytes a part stores. -/
def Part.store (p : Part) : List Byte := leBytes p.size p.data.toNat

/-- The new value of an atomic operation, in its low 32 bits where it is not wide (R127, R151, R192). -/
def atomNew (op : AtomOp) (wide : Bool) (old b cmp : DWord) : DWord :=
  let sx := fun (x : DWord) => if wide then x.toInt else (fld x 0 32).toInt
  match op with
  | .add => old + b
  | .fadd => (fsum [ofF32 (fld old 0 32), ofF32 (fld b 0 32)]).zeroExtend 64
  | .min => if sx b < sx old then b else old
  | .max => if sx old < sx b then b else old
  | .minu => if b.toNat < old.toNat then b else old
  | .maxu => if old.toNat < b.toNat then b else old
  | .and => old &&& b
  | .or => old ||| b
  | .xor => old ^^^ b
  | .xchg => b
  | .cas => if old = cmp then b else old

/-- What performing a part of a store, atomic or key-value write puts into its bytes, `x` being their value before. -/
def Access.written (a : Access) (p : Part) (x : Nat) : List Byte :=
  let old : DWord := BitVec.ofNat 64 x
  let arg : DWord := fld p.data 0 64
  match a.kind with
  | .atom op _ => leBytes 4 (atomNew op false old arg p.cmp).toNat
  | .satom _ op wide => leBytes p.size (atomNew op wide old arg p.cmp).toNat
  | .kvstep .. => leBytes 4 (x + 1)
  | .kvapp _ rows => if p.unit = rows then leBytes 4 (max x arg.toNat) else p.store
  | _ => p.store

/-! Work that is discarded. -/

/-- A part in flight with whose it is. -/
structure LastPart where
  wid : Nat
  wg : Workgroup
  slot : Nat
  access : Access
  part : Part

/-- The parts in flight of the workgroups that meet a condition, crew by crew in program order. -/
def State.partsOf (s : State) (p : Workgroup → Bool) : List LastPart :=
  (s.wgs.filter (fun e => p e.2)).flatMap (fun e =>
    e.2.crews.flatMap (fun k => k.2.flying.flatMap (fun a => a.parts.map (fun q => ⟨e.1, e.2, k.1, a, q⟩))))

/-- Where a part in flight can still be performed: as it was translated at issue, unless its link is down since (R364), or by a walk. -/
def State.lastSpot (s : State) (x : LastPart) : Xlate :=
  match x.part.pa with
  | some pa => if s.reachable pa then .ok pa else .fail .xlat
  | none => s.vtrans x.wg.ctx x.access.kind.need x.part.addr

/-- The lane whose access the part is; a KVAPP is one write (R103, R239). -/
def LastPart.lane (x : LastPart) : Nat := match x.access.kind with | .kvapp .. => 0 | _ => x.part.unit

/-- A part of the same write has been performed already: the other half of 16 bytes, or a row or tag of a KVAPP. The write is then
performed whole (R342). -/
def LastPart.begun (x : LastPart) : Bool :=
  match x.access.kind, x.access.fields with
  | .kvapp _ rows, _ => (List.range (rows + 1)).any (fun n => !x.access.parts.any (fun p => p.unit == n))
  | .store, some f =>
    memBytes f.subop == 16 && !x.access.parts.any (fun p => p.unit == x.part.unit && p.half != x.part.half)
  | _, _ => false

/-- A part of a store, atomic or key-value write that is discarded before it is performed: performed whole, or dropped; a held
one is dropped (R342). One that meets a page being moved is performed after the move (R331). -/
def State.lastWrite (s : State) (x : LastPart) : State :=
  let lost := x.access.scratch || x.part.held.isSome || !x.access.kind.strongWrite
  if lost || !(x.begun || Config.survives s.tick x.wid x.slot x.access.id x.lane) then s
  else match s.lastSpot x with
    | .ok pa =>
      let old := s.partBytes x.wg x.access x.part pa
      s.writeMasked x.wg.ctx x.access.alloc pa x.part.bytes 0 (x.access.written x.part (leNat old))
    | .moving =>
      let bytes := (List.range x.part.size).filter (flag x.part.bytes)
      if x.begun then
        { s with owed := s.owed ++ bytes.map (fun i => .bytes x.wg.ctx (x.part.addr + i) none [x.part.store.getD i 0]) }
      else s
    | _ => s

end Sys2Proof.Machine
end

