-- ==== Sys2Proof/Machine/Record.lean ====
section
/-! DEFINITION. Fields of the launch record (01 R28 to R31), of buffer records (04 R82, R83), of splice images (12 R245 to
R247), and the demands of a workgroup (01 R16, 12 R249, 20 R315). -/

namespace Sys2Proof.Machine

/-- The size bytes at a byte offset of a launch record. -/
def LaunchCopy.field (r : LaunchCopy) (off size : Nat) : Nat := nfld r.record (8 * off) (8 * size)

/-- A bit field of the header word at a byte offset. -/
def LaunchCopy.bits (r : LaunchCopy) (off lo len : Nat) : Nat := nfld r.record (8 * off + lo) len

def LaunchCopy.kid (r : LaunchCopy) : Nat := r.field 0x008 4
def LaunchCopy.laneBase (r : LaunchCopy) : Nat := r.field 0x010 8
def LaunchCopy.nwgx (r : LaunchCopy) : Nat := r.field 0x018 4
def LaunchCopy.nwgy (r : LaunchCopy) : Nat := r.field 0x01C 4
def LaunchCopy.nwgz (r : LaunchCopy) : Nat := r.field 0x020 4
def LaunchCopy.spBytes (r : LaunchCopy) : Nat := r.field 0x024 4
def LaunchCopy.tagLine (r : LaunchCopy) : Nat := r.bits 0x028 12 3
def LaunchCopy.tagSets (r : LaunchCopy) : Nat := r.bits 0x028 0 10
def LaunchCopy.occFloor (r : LaunchCopy) : Nat := r.bits 0x02C 0 8
def LaunchCopy.bufTab (r : LaunchCopy) : Nat := r.field 0x030 8
def LaunchCopy.argsAt (r : LaunchCopy) : Nat := r.field 0x038 8
def LaunchCopy.argLen (r : LaunchCopy) : Nat := r.field 0x040 4
def LaunchCopy.spliceAt (r : LaunchCopy) : Nat := r.field 0x048 8
def LaunchCopy.compl (r : LaunchCopy) : Nat := r.field 0x050 8
def LaunchCopy.signal (r : LaunchCopy) : Nat := r.field 0x058 8

/-- HDR (R29). -/
def LaunchCopy.magic (r : LaunchCopy) : Nat := r.bits 0 48 16
def LaunchCopy.version (r : LaunchCopy) : Nat := r.bits 0 40 8
def LaunchCopy.coresident (r : LaunchCopy) : Bool := flag r.record 33
def LaunchCopy.split (r : LaunchCopy) : Bool := flag r.record 32
def LaunchCopy.batchField (r : LaunchCopy) : Nat := r.bits 0 16 7
/-- Workgroups of a draw: 0 means 8 (R29). -/
def LaunchCopy.batch (r : LaunchCopy) : Nat := if r.batchField = 0 then 8 else r.batchField
/-- Crew width (R29). -/
def LaunchCopy.width (r : LaunchCopy) : Nat := 8 * 2 ^ r.bits 0 8 2
/-- Workgroups of the grid (R312). -/
def LaunchCopy.total (r : LaunchCopy) : Nat := r.nwgx * r.nwgy * r.nwgz

/-- Role descriptors (R30), by role code. -/
def LaunchCopy.roleBits (r : LaunchCopy) (role lo len : Nat) : Nat := nfld r.record (8 * (0x080 + 16 * role) + lo) len
def LaunchCopy.entry (r : LaunchCopy) (role : Nat) : Nat := r.roleBits role 0 64
def LaunchCopy.present (r : LaunchCopy) (role : Nat) : Bool := r.roleBits role 95 1 == 1
def LaunchCopy.crewsMax (r : LaunchCopy) (role : Nat) : Nat := r.roleBits role 88 7
def LaunchCopy.crews (r : LaunchCopy) (role : Nat) : Nat := r.roleBits role 81 7
def LaunchCopy.regs (r : LaunchCopy) (role : Nat) : Nat := r.roleBits role 72 9
def LaunchCopy.threadsField (r : LaunchCopy) (role : Nat) : Nat := r.roleBits role 112 13
def LaunchCopy.accFloor (r : LaunchCopy) (role : Nat) : Nat := r.roleBits role 104 6
def LaunchCopy.tiles (r : LaunchCopy) (role : Nat) : Nat := r.roleBits role 96 5
/-- Live threads at the start: 0 means CREWS * width (R30). -/
def LaunchCopy.threads (r : LaunchCopy) (role : Nat) : Nat :=
  if r.threadsField role = 0 then r.crews role * r.width else r.threadsField role

/-- The roles a launch declares. -/
def LaunchCopy.roles (r : LaunchCopy) : List Nat := [0, 1, 2, 3].filter r.present

/-- Sum of a demand over the roles present. -/
def LaunchCopy.sum (r : LaunchCopy) (f : Nat → Nat) : Nat := (r.roles.map f).sum

/-- Format slot f0 to f7 (R28). -/
def LaunchCopy.fmtSlot (r : LaunchCopy) (n : Nat) : BitVec 256 := fld r.record (8 * (0x100 + 32 * n)) 256

/-! Buffer records (R82). -/

abbrev BufRec := BitVec 256

def BufRec.base (m : BufRec) : Nat := nfld m 0 52
def BufRec.policy (m : BufRec) : Nat := nfld m 52 4
def BufRec.fmt (m : BufRec) : Nat := nfld m 56 6
def BufRec.mode (m : BufRec) : Nat := nfld m 62 2
def BufRec.extX (m : BufRec) : Nat := nfld m 64 32
def BufRec.extY (m : BufRec) : Nat := nfld m 96 32
def BufRec.strideY (m : BufRec) : Nat := nfld m 128 48
def BufRec.extZ (m : BufRec) : Nat := nfld m 176 16
def BufRec.strideZ (m : BufRec) : Nat := nfld m 192 48

/-! Splice images (R245 to R247). -/

abbrev Image := BitVec 1408

def Image.field (m : Image) (off size : Nat) : Nat := nfld m (8 * off) (8 * size)
def Image.kind (m : Image) : Nat := m.field 3 1
def Image.tripOff (m : Image) : Nat := m.field 4 4
def Image.transient (m : Image) : Bool := flag m 64
/-- Role marks: BODY, LOOPAT and the fields of USE (R246). -/
def Image.markAt (role : Nat) : Nat := 0x10 + 16 * role
def Image.body (m : Image) (role : Nat) : Nat := m.field (Image.markAt role) 4
def Image.loopAt (m : Image) (role : Nat) : Nat := m.field (Image.markAt role + 4) 4
def Image.use (m : Image) (role lo len : Nat) : Nat := nfld m (8 * (Image.markAt role + 8) + lo) len
def Image.looped (m : Image) (role : Nat) : Bool := m.use role 31 1 == 1
def Image.cbUsed (m : Image) (role : Nat) : Nat := m.use role 24 4
def Image.mUsed (m : Image) (role : Nat) : Nat := m.use role 18 6
def Image.aUsed (m : Image) (role : Nat) : Nat := m.use role 12 6
def Image.bUsed (m : Image) (role : Nat) : Nat := m.use role 7 5
def Image.sUsed (m : Image) (role : Nat) : Nat := m.use role 0 6
/-- Tile marks (R247): the producer's stands at 0x50, the consumer's at 0x80. -/
def Image.tileMark (m : Image) (consumer : Bool) (off size : Nat) : Nat :=
  m.field ((if consumer then 0x80 else 0x50) + off) size
def Image.mark (m : Image) (consumer : Bool) : Nat := m.tileMark consumer 0 4
def Image.markRole (m : Image) (consumer : Bool) : Nat := m.tileMark consumer 4 1
def Image.markPresent (m : Image) (consumer : Bool) : Nat := m.tileMark consumer 5 1

/-! What a grid asks of a core, its consumer included when it is fused (R16, R249). -/

/-- Sum of a launch's demand and, for a fused grid, its consumer's. -/
def Grid.both (g : Grid) (f : LaunchCopy → Nat) : Nat :=
  f g.copy + match g.fused with | some c => f c.copy | none => 0

/-- Tiles of a fused pair: the consumer's stand above the producer's count rounded up to even (R249). -/
def Grid.tileCount (g : Grid) : Nat :=
  let t := fun (r : LaunchCopy) => r.sum r.tiles
  match g.fused with
  | some c => (t g.copy + 1) / 2 * 2 + t c.copy
  | none => t g.copy

def Grid.regs (g : Grid) (role : Nat) : Nat := g.both (·.regs role)
def Grid.floor (g : Grid) : Nat := g.both (fun r => r.sum r.accFloor)
def Grid.spBytes (g : Grid) : Nat := g.both (·.spBytes)

/-- The launch that has the tag table (R249). -/
def Grid.tagOwner (g : Grid) : LaunchCopy :=
  match g.fused with
  | some c => if g.copy.tagSets = 0 then c.copy else g.copy
  | none => g.copy

def Grid.tagSets (g : Grid) : Nat := g.tagOwner.tagSets
def Grid.tagLine (g : Grid) : Nat := g.tagOwner.tagLine

/-- Demands of one workgroup. -/
structure Demand where
  crews : Nat
  regBytes : Nat
  tiles : Nat
  accBlocks : Nat
  scratch : Nat
  deriving DecidableEq, Repr

def Grid.demand (g : Grid) : Demand where
  crews := g.copy.sum g.copy.crewsMax
  regBytes := g.copy.sum (fun ro => g.copy.crewsMax ro * g.copy.width * g.regs ro * 4)
  tiles := g.tileCount
  accBlocks := 2 * g.floor
  scratch := g.spBytes

/-- Occupancy (R16). -/
def Demand.occupancy (d : Demand) : Nat :=
  let q := fun (have_ need none_ : Nat) => if need = 0 then none_ else have_ / need
  min (q Config.crewSlots d.crews 0) (min (q Config.laneBytes d.regBytes 0)
    (min (q Config.coreTiles d.tiles 512) (min (q Config.accBlocks d.accBlocks 512) (q Config.scratchBytes d.scratch 512))))

/-- Argument block of a grid: the consumer's stands after the producer's (R249). -/
def Grid.args (g : Grid) : List Byte :=
  g.copy.args ++ match g.fused with | some c => c.copy.args | none => []

/-- The largest of a count over the roles of a launch (R249). -/
def LaunchCopy.most (r : LaunchCopy) (f : Nat → Nat) : Nat := (r.roles.map f).foldl max 0

/-- The splice image of a launch, all zero if it has none. -/
def LaunchCopy.image (r : LaunchCopy) : Image := r.splice.getD 0

/-- Buffer record n of a grid: of a fused grid the producer's, then the consumer's, then zero records (R249). -/
def Grid.buf (g : Grid) (n : Nat) : BufRec :=
  match g.fused with
  | none => g.copy.bufs.getD n 0
  | some c =>
    let m := g.copy.most g.copy.image.mUsed
    if n < m then g.copy.bufs.getD n 0
    else if n - m < c.copy.most c.copy.image.mUsed then c.copy.bufs.getD (n - m) 0
    else 0

end Sys2Proof.Machine
end

