-- ==== Sys2Proof/Machine/Retire.lean ====
section
/-! DEFINITION. Fault reports (22 R333), completion records and signals (19 R302, R307), the end of a grid (01 R36, 12 R254)
and the reset rung (22 R342). -/

namespace Sys2Proof.Machine

/-- A message to the outside. -/
def State.send (s : State) (m : Message) : State := { s with out := s.out ++ [m] }

/-- The I/O die that serves a context's device queue (R298). -/
def ioOf (c : Nat) : Nat := c % 2

/-- The 8-bit code of a fault or event (R332). -/
def FaultCode.code : FaultCode → BitVec 8
  | .illop => 0x01 | .illconv => 0x02 | .role => 0x03 | .range => 0x04 | .empty => 0x05 | .bounds => 0x06
  | .align => 0x07 | .xlat => 0x08 | .perm => 0x09 | .accnone => 0x0A | .fmtslot => 0x0B | .nestdepth => 0x0C
  | .poison => 0x10 | .stpoison => 0x11 | .overrun => 0x18 | .trap => 0x20 | .breakpoint => 0x21 | .deadline => 0x30
  | .resetfn => 0x31 | .badsave => 0x32 | .kill => 0x33

/-- The fields of a fault report (R333). -/
structure Report where
  code : FaultCode
  origin : Bool
  lane : Bool
  inflight : Bool
  fused : Bool
  ctx : Nat
  crew : Nat
  role : BitVec 2
  kid : Nat
  pc : Addr
  detail : DWord
  index : Nat
  core : Nat
  die : Nat
  deriving DecidableEq, Repr

/-- A report that no crew raised: CREW, PC, WHERE, CORE and DIE zero (R333). -/
def Report.plain (code : FaultCode) (ctx : Nat) (detail : DWord) : Report where
  code := code
  origin := false
  lane := false
  inflight := false
  fused := false
  ctx := ctx
  crew := 0
  role := 0
  kid := 0
  pc := 0
  detail := detail
  index := 0
  core := 0
  die := 0

/-- The 48 bytes of a report, byte 0 in bits 7:0 (R333). -/
def Report.pack (r : Report) : BitVec 384 :=
  0#80 ++ BitVec.ofNat 8 r.die ++ BitVec.ofNat 8 r.core ++ BitVec.ofNat 96 r.index ++ r.detail ++ 0#12 ++ r.pc
    ++ BitVec.ofNat 32 r.kid ++ r.role ++ BitVec.ofNat 6 r.crew ++ BitVec.ofNat 8 r.ctx
    ++ 0#4 ++ bit r.fused ++ bit r.inflight ++ bit r.lane ++ bit r.origin ++ r.code.code

/-- The report as a packed record sent to the scheduler (R333). -/
def State.report (s : State) (r : Report) : State := s.send (.report (ioOf r.ctx) r.pack)

/-- The function whose interrupt vectors a context's signals use: that of the queue, else of the first queue bound to the
context (DESIGN CHOICE, log entry 10). -/
def State.funcOf (s : State) (c : Nat) (queue : Option Nat) : Nat :=
  match queue with
  | some q => (s.queues.get q).func.toNat
  | none =>
    match s.queues.values.find? (fun q => q.ctx.toNat == c) with
    | some q => q.func.toNat
    | none => 0

/-- The Kazlet's decrement of a signal object: a strong atomic subtract of 1, and the interrupt when VALUE falls from above
0 to 0 or below (R302). -/
def State.subtract (s : State) (c func addr : Nat) : State :=
  match s.vread c addr 16 with
  | .bytes bs =>
    let old : BitVec 64 := BitVec.ofNat 64 (leNat (bs.take 8))
    let u : Word := BitVec.ofNat 32 (leNat (bs.drop 8 |>.take 4))
    let new := old - 1
    let s := s.vwrite c addr (leBytes 8 new.toNat)
    if flag u 31 && decide (0 < old.toInt) && decide (new.toInt ≤ 0) then s.send (.interrupt func (nfld u 0 11)) else s
  | _ => s

/-! Writes of the Kazlet: completion records, signals, MIRROR and device-queue slots. One that meets a page being moved waits
until the move has ended, and those after it with it (R331). -/

/-- The context, address and size of a write, and what it needs of its page. -/
def Owed.span : Owed → Nat × Nat × Nat × Need
  | .bytes c va _ bs => (c, va, bs.length, .wr)
  | .signal c _ va _ => (c, va, 16, .rw)

/-- A write of the Kazlet whose pages are there, or its report where it cannot be translated or written (R305, R307). -/
def State.settle (s : State) (o : Owed) : State :=
  let x := o.span
  match s.vcheck x.1 x.2.2.2 x.2.1 x.2.2.1 with
  | .fail code _ =>
    match o with
    | .bytes c va (some kid) _ | .signal c _ va kid => s.report { Report.plain code c (BitVec.ofNat 64 va) with kid := kid }
    | .bytes _ _ none _ => s
  | _ => match o with
    | .bytes c va _ bs => s.vwrite c va bs
    | .signal c func va _ => s.subtract c func va

/-- Its pages are being moved. -/
def State.delayed (s : State) (o : Owed) : Bool :=
  let x := o.span
  match s.vcheck x.1 x.2.2.2 x.2.1 x.2.2.1 with
  | .moving => true
  | _ => false

/-- A write of the Kazlet: now, or after those that wait. -/
def State.post (s : State) (o : Owed) : State :=
  if !s.owed.isEmpty || s.delayed o then { s with owed := s.owed ++ [o] } else s.settle o

/-- The writes that wait, in order, as far as no page of them is being moved. -/
def State.settleAll : List Owed → State → State
  | [], s => { s with owed := [] }
  | o :: rest, s => if s.delayed o then { s with owed := o :: rest } else State.settleAll rest (s.settle o)

/-- The decrement of a signal object, if there is one (R302, R307). -/
def State.decrement (s : State) (c func : Nat) (addr : Nat) (kid : Nat) : State :=
  if addr = 0 then s else s.post (.signal c func addr kid)

/-- What a completion record says of how a launch ended (R307). -/
structure Completion where
  result : Nat
  cause : Nat
  queue : Option Nat
  spliceInfo : BitVec 16
  seq : Nat
  done : Nat
  fault : BitVec 384
  deriving DecidableEq, Repr

/-- The 128 bytes of a completion record (R307). -/
def Completion.bytes (x : Completion) (kid : Nat) : List Byte :=
  leBytes 1 x.result ++ leBytes 1 x.cause ++ leBytes 2 0 ++ leBytes 4 kid
    ++ leBytes 2 (match x.queue with | some q => q | none => 0xFFFF) ++ leBytes 2 0
    ++ leBytes 2 x.spliceInfo.toNat ++ leBytes 2 0 ++ leBytes 8 x.seq ++ leBytes 8 x.done
    ++ leBytes 48 x.fault.toNat ++ leBytes 4 (x.done / 2 ^ 64) ++ leBytes 44 0

/-- The completion record is written, or skipped and reported; then the signal is decremented (R307, R36). Both at their addresses as
they stand: no rule names what a COMPL or SIGNAL that is not aligned does (DESIGN CHOICE, log entry 98). -/
def State.complete (s : State) (c : Nat) (copy : LaunchCopy) (x : Completion) : State :=
  let s := if copy.compl = 0 then s else s.post (.bytes c copy.compl (some copy.kid) (x.bytes copy.kid))
  s.decrement c (s.funcOf c x.queue) copy.signal copy.kid

/-- READ of a user queue becomes `read` and is written to MIRROR, where that can be written (R305). -/
def State.advance (s : State) (q read : Nat) : State :=
  let x := s.queues.get q
  { s with queues := s.queues.insert q { x with read := BitVec.ofNat 64 read, reported := false, since := s.tick } }.post
    (.bytes x.ctx.toNat x.mirror.toNat none (leBytes 8 read))

/-- Index of the packet after those of a grid: a fused grid's consumer included (R311). -/
def Grid.nextIndex (g : Grid) : Nat :=
  match g.fused with
  | some f => f.pktIndex + 1
  | none => g.pktIndex + 1

/-- A co-resident grid leaves the head of its queue, which moves past it (R305, R39): the packet after it is at the head from now on,
in a device queue too (R306). One that a new activation of its queue has left behind moves nothing. -/
def State.leaveHead (s : State) (g : Grid) : State :=
  match g.atHead && !g.left, g.queue with
  | true, some q => s.advance q g.nextIndex
  | true, none => { s with ctxs := s.ctxs.modify g.ctx (fun x => { x with devSince := s.tick }) }
  | false, _ => s

/-- A saved workgroup's child is no longer outstanding. -/
def Area.childDone (p : Parent) (a : Area) : Area :=
  if a.wid = p.wid then { a with wg := { a.wg with children := a.wg.children.erase p.child } } else a

/-- A child is no longer outstanding (R35), whether its workgroup is resident, parked or saved. -/
def State.childDone (s : State) (parent : Option Parent) : State :=
  match parent with
  | some p =>
    { s with
      wgs := s.wgs.modify p.wid (fun g => { g with children := g.children.erase p.child }),
      ladders := s.ladders.map (fun (x : Ladder) => { x with areas := x.areas.map (Area.childDone p) }),
      pools := s.pools.map (fun (x : Pool) => { x with areas := x.areas.map (Area.childDone p) }) }
  | none => s

/-- A grid retires: the record and signal of its launch and, for a fused grid, then the consumer's (R36, R115, R254). Its
workgroups are gone already. -/
def State.retireGrid (s : State) (seq : Nat) (result : Nat) (fault : BitVec 384) : State :=
  match s.grids.find? seq with
  | none => s
  | some g =>
    let s := { s with grids := s.grids.erase seq }
    let x : Completion := { result := result, cause := 0, queue := g.queue, spliceInfo := g.spliceInfo, seq := seq,
                            done := g.done, fault := fault }
    let s := (s.complete g.ctx g.copy x).childDone g.parent
    match g.fused with
    | none => s
    | some f =>
      (s.complete g.ctx f.copy { x with seq := f.seq, spliceInfo := 0xC000 }).childDone f.parent

/-- The cores on which workgroups that are not parked hold room, each once, in the order of the workgroups. -/
def State.roomOf (s : State) (p : Workgroup → Bool) : List (Nat × Nat) :=
  ((s.wgs.values.filter (fun w => p w && !w.parked)).map (fun w => (w.die, w.core))).eraseDups

/-- Discarding workgroups without a save, after their last writes (R334, R342). What they held is free for others (R318, R350). -/
def State.discard (s : State) (p : Workgroup → Bool) : State :=
  let t := (s.partsOf p).foldl State.lastWrite s
  { t with wgs := s.wgs.keep (fun w => !p w), freed := s.freed ++ s.roomOf p }

/-- Writing a pool's status code, keeping the count (R339, R366). -/
def State.poolStatus (s : State) (pool code : Nat) : State :=
  s.fwWrite pool (leBytes 4 code)

/-- The status word when a ladder ends: code and number of save areas (R339). -/
def State.ladderEnd (s : State) (pool code areas : Nat) : State :=
  s.fwWrite pool (leBytes 4 code ++ leBytes 4 areas)

/-- The part of the reset rung that stops the context's work: its workgroups are discarded, its queues become DISABLED, its
sequences return to their committed state (R342). -/
def State.stopContext (s : State) (c : Nat) : State :=
  let s : State := s.discard (fun w => w.ctx == c)
  { s with
    queues := s.queues.mapVals (fun q => if q.ctx.toNat == c then { q with state := .disabled } else q),
    ctxs := s.ctxs.modify c (fun x => { x.rollback with devOff := true }) }

/-- Acceptance numbers of the grids of a context, rising. -/
def State.gridsOf (s : State) (c : Nat) : List Nat := (s.grids.keep (fun g => g.ctx == c)).keys

/-- Ladders of the context end with RESET, and so do its pools that are not wholly restored (R342, R366). -/
def State.resetLadders (s : State) (c : Nat) : State :=
  let lost : Pool → Bool := fun p => p.ctx == c && p.areas.any (fun a => !a.restored)
  let s : State := (s.ladders.filter (fun l => l.ctx == c)).foldl (fun (s : State) (l : Ladder) => s.ladderEnd l.pool 2 l.areas.length) s
  let s : State := (s.pools.filter lost).foldl (fun (s : State) (p : Pool) => s.poolStatus p.base 2) s
  { s with ladders := s.ladders.filter (fun l => !(l.ctx == c)), pools := s.pools.filter (fun p => !lost p) }

/-- The reset rung (R342): the context's work stops, every grid of it retires with RESULT 2 and the report, ORIGIN set only
in the grid that raised it, and its ladders and pools end with RESET. -/
def State.resetRung (s : State) (c : Nat) (r : Report) (origin : Option Nat) : State :=
  let fin := (s.gridsOf c).foldl
    (fun (s : State) q => s.retireGrid q 2 { r with origin := origin == some q }.pack) (s.stopContext c)
  fin.resetLadders c

/-- Pools whose areas have all been restored end with RESUMED (R366). -/
def State.poolsDone (s : State) : State :=
  let ends : Pool → Bool := fun p => p.resumed && p.areas.all (·.restored)
  let t : State := (s.pools.filter ends).foldl (fun (s : State) (p : Pool) => s.poolStatus p.base 4) s
  { t with pools := t.pools.filter (fun p => !ends p) }

/-- Saved workgroups of a grid that has ended are not restored any more. -/
def State.dropAreas (s : State) (seq : Nat) : State :=
  let gone := fun (a : Area) => if a.wg.seq = seq then { a with restored := true } else a
  { s with
    ladders := s.ladders.map (fun (l : Ladder) => { l with areas := l.areas.map gone }),
    pools := s.pools.map (fun (p : Pool) => { p with areas := p.areas.map gone }) }.poolsDone

/-- The workgroup is one of those that a ladder's command names (R339, R340). -/
def Ladder.names (l : Ladder) (w : Workgroup) : Bool :=
  decide (w.ctx = l.ctx) &&
    match l.scope with
    | 0 => true
    | 1 => w.seq == l.target.toNat
    | _ => flag l.mask (64 * w.die + w.core)

/-- Drain rungs of whose scope no workgroup is resident end with DRAINED (R340). -/
def State.drained (s : State) : State :=
  let ends : Ladder → Bool := fun l => decide (l.rung = .drain) && s.wgs.values.all (fun w => w.parked || !l.names w)
  let t : State := (s.ladders.filter ends).foldl (fun (s : State) (l : Ladder) => s.ladderEnd l.pool 0 l.areas.length) s
  { t with ladders := t.ladders.filter (fun l => !ends l) }

/-- The report for a grid that ends alone (R334, STPOISON): its workgroups are discarded and it retires with RESULT 3; a drain rung that
waited for them alone ends (R340). -/
def State.endGrid (s : State) (seq : Nat) (r : Report) : State :=
  (((s.discard (fun w => w.seq == seq)).retireGrid seq 3 { r with origin := true }.pack).dropAreas seq).drained

end Sys2Proof.Machine
end

