-- ==== Sys2Proof/Machine/Ops.lean ====
section
/-! DEFINITION. The named operations on crews and workgroups that meanings share: registers with their full bits and write
tags (02 R41 to R48), accesses in flight (02 R50, 05 R106 to R109), barrier objects (02 R51, R52), taking an exception and
returning from one (22 R332 to R335). -/

namespace Sys2Proof.Machine

/-- What a meaning answers. -/
abbrev Result := Host.Outcome State Fault Refusal

/-! Crews and workgroups. -/

/-- The workgroup and the crew of a key. -/
def State.find (s : State) (k : CrewKey) : Option (Workgroup × Crew) :=
  match s.wgs.find? k.wid with
  | none => none
  | some w =>
    match w.crews.find? k.slot with
    | none => none
    | some c => some (w, c)

/-- The workgroup and the crew that the running instruction acts for. -/
def State.issuer (s : State) : Option (Workgroup × Crew) := s.find s.cur.key

/-- Replacing a workgroup. -/
def State.putWg (s : State) (wid : Nat) (w : Workgroup) : State := { s with wgs := s.wgs.insert wid w }

/-- Replacing a crew of a workgroup. -/
def Workgroup.putCrew (w : Workgroup) (slot : Nat) (c : Crew) : Workgroup := { w with crews := w.crews.insert slot c }

/-- Replacing the crew of a key, in the workgroup as `w` gives it. -/
def State.put (s : State) (k : CrewKey) (w : Workgroup) (c : Crew) : State := s.putWg k.wid (w.putCrew k.slot c)

/-- An instruction acts for its issuer. -/
def acting (s : State) (f : Workgroup → Crew → Result) : Result :=
  match s.issuer with
  | none => .fault .noIssuer
  | some (w, c) => f w c

/-- The grid of a workgroup; a default one for a workgroup whose grid is gone, which no run reaches. -/
def State.gridOf (s : State) (w : Workgroup) : Grid := s.grids.get w.seq

/-- Crew width (R10). -/
def State.width (s : State) (w : Workgroup) : Nat := (s.gridOf w).copy.width

/-- The tile registers of the crew's grid (R41, R249). A tile beyond its field is none of them. -/
def State.tileLimit (s : State) (w : Workgroup) : Nat := if s.beyondT then 0 else (s.gridOf w).tileCount

/-- The lanes of a width. -/
def laneMask (width : Nat) : Mask := BitVec.ofNat 64 (2 ^ width - 1)

/-- The lanes of a mask, ascending. -/
def lanesOf (m : Mask) : List Nat := (List.range 64).filter (fun i => m.getLsbD i)

/-! Scalar registers (R41, R42, R46 to R48). -/

/-- The value of a scalar register: s0 reads as zero (R17). -/
def Crew.s (c : Crew) (r : Reg) : Word := if r = 0 then 0 else c.sreg.get r.toNat

/-- The full bit: s0 is always full. -/
def Crew.full (c : Crew) (r : Reg) : Bool := r == 0 || (c.sTag.find? r.toNat).isNone

def Crew.allFull (c : Crew) (rs : List Reg) : Bool := rs.all c.full

/-- The value of a pair: s0:s1 reads as zero in both halves (R42). -/
def Crew.s2 (c : Crew) (r : Reg) : DWord := if r = 0 then 0 else c.sreg.get r.odd.toNat ++ c.sreg.get r.toNat

/-- The registers a pair operand waits for: both halves, of s0:s1 too, though it reads as zero (R42). -/
def pairOf (r : Reg) : List Reg := [r, r.odd]

/-- Writing a scalar register by an instruction that completes before the next one reads it: s0 ignores it; any write still
in flight is superseded (R17, R46, R48). -/
def Crew.setS (c : Crew) (r : Reg) (v : Word) : Crew :=
  if r = 0 then c else { c with sreg := c.sreg.put r.toNat v, sTag := c.sTag.erase r.toNat }

/-- Writing a pair. -/
def Crew.setS2 (c : Crew) (r : Reg) (v : DWord) : Crew :=
  (c.setS r (fld v 0 32)).setS r.odd (fld v 32 32)

/-- Marking a scalar register empty until the write with this tag lands (R46, R48). -/
def Crew.awaitS (c : Crew) (r : Reg) (tag : Nat) : Crew :=
  if r = 0 then c else { c with sTag := c.sTag.insert r.toNat tag }

/-- A write with this tag lands in a scalar register: it is discarded unless it is the youngest (R48). -/
def Crew.landS (c : Crew) (r : Reg) (tag : Nat) (v : Word) : Crew :=
  if c.sTag.find? r.toNat = some tag then c.setS r v else c

/-- The program counter moves past n bytes of code, modulo 2^52 (DESIGN CHOICE, log entry 83). -/
def Crew.advance (c : Crew) (n : Nat) : Crew := { c with pc := c.pc + BitVec.ofNat 52 n }

/-! Lane registers. -/

/-- Key of register r in lane L. -/
def laneKey (r lane : Nat) : Nat := 64 * r + lane

def Crew.v (c : Crew) (r lane : Nat) : Word := c.vreg.get (laneKey r lane)

/-- The youngest write to this lane of the register has landed. -/
def Crew.vFull (c : Crew) (r lane : Nat) : Bool := (c.vTag.find? (laneKey r lane)).isNone

/-- Writing one lane of a lane register (R46, R48). -/
def Crew.setV (c : Crew) (r lane : Nat) (x : Word) : Crew :=
  { c with vreg := c.vreg.put (laneKey r lane) x, vTag := c.vTag.erase (laneKey r lane) }

def Crew.awaitV (c : Crew) (r lane tag : Nat) : Crew := { c with vTag := c.vTag.insert (laneKey r lane) tag }

def Crew.landV (c : Crew) (r lane tag : Nat) (x : Word) : Crew :=
  if c.vTag.find? (laneKey r lane) = some tag then c.setV r lane x else c

/-- The mask of a predicate: p7 reads true in every lane (R20). -/
def Crew.pred (c : Crew) (p : Nat) : Mask := if p % 8 = 7 then BitVec.allOnes 64 else c.preds.get (p % 8)

/-- Writing a predicate in the lanes of a mask; p7 ignores it. -/
def Crew.setPred (c : Crew) (p : Nat) (lanes value : Mask) : Crew :=
  if p % 8 = 7 then c else { c with preds := c.preds.put (p % 8) ((c.pred p &&& ~~~lanes) ||| (value &&& lanes)) }

def Crew.x (c : Crew) (n lane : Nat) : Word := c.xreg.get (laneKey n lane)
def Crew.setX (c : Crew) (n lane : Nat) (w : Word) : Crew := { c with xreg := c.xreg.put (laneKey n lane) w }

/-! Results on their way (R46). -/

/-- Scalar registers and lanes get values that land later: they are empty until then. -/
def Crew.promise (c : Crew) (regs : List (Reg × Word)) (lanes : List (Nat × Word)) : Crew :=
  let c1 := regs.foldl (fun (x : Crew) r => x.awaitS r.1 c.nextId) c
  let c2 : Crew := { c1 with vTag := lanes.foldl (fun (m : SMap Nat) l => m.insert l.1 c.nextId) c1.vTag }
  { c2 with nextId := c.nextId + 1, pending := c.pending ++ [⟨c.nextId, regs, lanes⟩] }

/-- The two halves of a pair. -/
def pairWrites (r : Reg) (v : DWord) : List (Reg × Word) := [(r, fld v 0 32), (r.odd, fld v 32 32)]

/-- A promised result lands (R48). -/
def Crew.keep (c : Crew) (q : Pending) : Crew :=
  let c1 := q.regs.foldl (fun (x : Crew) r => x.landS r.1 q.tag r.2) c
  let c2 := q.lanes.foldl (fun (x : Crew) l => x.landV (l.1 / 64) (l.1 % 64) q.tag l.2) c1
  { c2 with pending := c2.pending.filter (fun x => x.tag != q.tag) }

/-- Every promised result lands. -/
def Crew.keepAll (c : Crew) : Crew := c.pending.foldl Crew.keep c

/-- Every write outstanding to the crew's registers is cancelled (R350). -/
def Crew.cancel (c : Crew) : Crew := { c with sTag := [], vTag := [], pending := [] }

/-! Accesses in flight. -/

/-- The path that counts an access (R50). -/
def AccessKind.path : AccessKind → Option Path
  | .load _ | .sload .. | .ldk _ => some .ld
  | .atom _ result => some (if result then .ld else .st)
  | .satom d _ _ => some (if d = 0 then .st else .ld)
  | .store | .kvapp .. | .kvtrunc _ => some .st
  | .copyIn _ | .copyOut _ | .copyBook .. => some .cp
  | .tload .. | .tstore .. | .kvld .. => some .tl
  | .fetch _ => some .ft
  | .kvstep .. | .cbload .. => none

/-- An engine transfer: later accesses follow its writes only through a wait (R106 case 1, R154). -/
def AccessKind.transfer : AccessKind → Bool
  | .copyIn _ | .copyOut _ | .copyBook .. | .tload .. | .tstore .. | .fetch _ | .cbload .. => true
  | _ => false

/-- A part of it that a later access does not follow: of KVAPP, the rows and tags (R106 case 1). -/
def AccessKind.loose (k : AccessKind) (q : Part) : Bool :=
  k.transfer || match k with
    | .kvapp _ rows => q.unit != rows
    | .kvld .. => true
    | _ => false

/-- The sequence that a KVAPP, KVTRUNC or KVSTEP changes; those of one crew keep program order (R119). -/
def AccessKind.seqAt : AccessKind → Option Nat
  | .kvapp a _ | .kvtrunc a | .kvstep a _ => some a
  | _ => none

/-- The access writes memory beyond its workgroup (R105, R106, R344). -/
def AccessKind.writes : AccessKind → Bool
  | .store | .atom .. | .satom .. | .copyOut _ | .tstore .. | .kvapp .. | .kvtrunc _ | .kvstep .. => true
  | _ => false

/-- The access reads and does nothing else in memory, so that an earlier store need not come before it across a FENCE.rel or .acq (R111). -/
def AccessKind.onlyLoads : AccessKind → Bool
  | .load _ | .sload .. | .ldk _ | .fetch _ | .kvld .. | .cbload .. => true
  | _ => false

/-- The access stores and reads nothing. -/
def AccessKind.onlyStores : AccessKind → Bool
  | .store | .kvapp .. | .kvtrunc _ => true
  | _ => false

/-- A transfer that the quiesce limit squashes (R341). -/
def AccessKind.squashes : AccessKind → Bool
  | .copyIn _ | .copyOut _ | .copyBook .. | .tload .. | .tstore .. => true
  | _ => false

/-- A transfer that may tell a barrier object what its unit receives (R52). -/
def AccessKind.receives : AccessKind → Bool
  | .copyIn _ | .copyOut _ | .copyBook .. | .tload .. => true
  | _ => false

/-- A lane memory instruction that takes an operand-log entry when a lane is held (R336). -/
def AccessKind.logged : AccessKind → Bool
  | .load _ | .store | .atom .. | .fetch _ => true
  | _ => false

/-- The access has returned. -/
def Access.done (a : Access) : Bool := a.parts.isEmpty

/-- Some part of the access is held (R335). -/
def Access.isHeld (a : Access) : Bool := a.parts.any (fun p => p.held.isSome)

/-- What the wait counter of a path counts: accesses from the oldest that has not returned on (R50). Accesses that have returned stay
listed only behind such a one (see dropDone). -/
def Crew.onPath (c : Crew) (p : Path) : Nat := (c.flying.filter (fun a => decide (a.kind.path = some p))).length

/-- The code of a path (R50). -/
def pathCode : Path → Nat
  | .ld => 0 | .st => 1 | .cp => 2 | .tl => 3 | .ft => 4

/-- The wait counter of a path (R50). -/
def Crew.counter (c : Crew) (p : Path) : Nat := (c.onPath p + c.bias.get (pathCode p)).toNat

/-- The counter can take one more access (R50). -/
def Crew.roomOn (c : Crew) (p : Option Path) : Bool :=
  match p with
  | some p => decide (c.counter p < 63)
  | none => true

/-- Dropping the accesses that have returned, but for those behind an older one of their path that has not (R50). -/
def dropDone : List (Option Path) → List Access → List Access
  | _, [] => []
  | open_, a :: as =>
    if a.done && !(a.kind.path.isSome && open_.contains a.kind.path) then dropDone open_ as
    else a :: dropDone (if a.done then open_ else a.kind.path :: open_) as

/-- An access with the next number, which is its write tag (R48), and the orders made for it so far. -/
def Crew.stamp (c : Crew) (a : Access) : Access :=
  { a with
    id := c.nextId
    order := (if a.stream = .scalar then c.orderS else c.orderL) ++ if a.kind.onlyLoads then [] else c.orderW
    cross := c.orderX }

/-- An access issues. -/
def Crew.issue (c : Crew) (a : Access) : Crew :=
  { c with flying := c.flying ++ [c.stamp a], nextId := c.nextId + 1 }

/-- The access of a number. -/
def Crew.access (c : Crew) (id : Nat) : Option Access := c.flying.find? (fun a => a.id == id)

/-- Replacing an access, and dropping what has returned. -/
def Crew.putAccess (c : Crew) (a : Access) : Crew :=
  { c with flying := dropDone [] (c.flying.map (fun b => if b.id == a.id then a else b)) }

/-- The operand log holds an entry (R336). -/
def Crew.logging (c : Crew) : Bool := c.flying.any (fun a => a.entry && !a.done)

/-- Lane memory instructions between issue and the last of their accesses (R336). -/
def Crew.logCount (c : Crew) : Nat := (c.flying.filter (fun a => decide (a.stream = .lane) && a.kind.logged && !a.done)).length

/-- The lane queue is empty and the last run has completed, and no operand-log entry stands (R19, R140, R336). -/
def Crew.drained (c : Crew) : Bool := c.queue.isEmpty && c.prog.isNone && !c.logging

/-- The scalar stream is kept at an instruction whose access is held (R336, R337). -/
def Crew.scalarHeld (c : Crew) : Bool :=
  c.flying.any (fun a => decide (a.stream = .scalar) && !(match a.kind with | .tload .. | .tstore .. => true | _ => false) && a.isHeld)

/-- Numbers of the accesses not yet performed that meet a condition. -/
def Crew.open_ (c : Crew) (p : Access → Bool) : List Nat := (c.flying.filter (fun a => !a.done && p a)).map (·.id)

/-- What a scalar access must follow is performed: the order the crew holds for its stream, and for one that writes (R108, R109, R111). -/
def Crew.caughtUp (c : Crew) (writes : Bool) : Bool :=
  (c.open_ (fun a => (c.orderS ++ if writes then c.orderW else []).contains a.id)).isEmpty

/-- An access that fences and releases take in: not an engine transfer, nor a non-temporal store (R109, R152, R154, R95). -/
def Access.fenced (a : Access) : Bool := !a.kind.transfer && !(decide (a.cls = .nt) && a.kind.writes)

/-- Every access that a release waits for is performed. -/
def Crew.fenced (c : Crew) : Bool := (c.open_ Access.fenced).isEmpty

/-- An access on the other path of an IF from another's (R108). -/
def Access.opposite (a b : Access) : Bool := a.sides.any (fun x => b.sides.any (fun y => x.1 == y.1 && x.2 != y.2))

/-- Bytes that a part reads or writes: in scratchpad or in global memory, the first address, the number, and which of them. -/
structure Foot where
  scratch : Bool
  addr : Nat
  size : Nat
  bytes : BitVec 16
  writes : Bool
  deriving DecidableEq, Repr

/-- The bytes a part of an access touches (R106, R116). -/
def Access.feet (a : Access) (p : Part) : List Foot :=
  let all : BitVec 16 := BitVec.allOnes 16
  match a.kind with
  | .copyIn _ => [⟨false, p.addr, p.size, p.bytes, false⟩, ⟨true, p.sp, p.size, all, true⟩]
  | .copyOut _ => [⟨true, p.sp, p.size, p.bytes, false⟩, ⟨false, p.addr, p.size, p.bytes, true⟩]
  | .copyBook _ n _ =>
    if p.half = 0 then
      [⟨false, p.addr, p.size, p.bytes, false⟩, ⟨true, p.sp, min n 16, all, true⟩, ⟨true, p.sp + 16, n - 16, all, true⟩]
    else [⟨true, p.sp, p.size, all, true⟩]
  | .ldk _ => []
  | k => [⟨a.scratch, p.addr, p.size, p.bytes, k.writes⟩]

/-- Bytes read at an address. -/
def readFoot (va n : Nat) : Foot := ⟨false, va, n, BitVec.ofNat 16 (2 ^ n - 1), false⟩

/-- Bytes read at addresses, in pieces of 16. -/
def readFeet (reads : List (Nat × Nat)) : List Foot :=
  reads.flatMap (fun r => (List.range ((r.2 + 15) / 16)).map (fun i => readFoot (r.1 + 16 * i) (min 16 (r.2 - 16 * i))))

/-- Two of these share a byte. -/
def Foot.clash (f g : Foot) : Bool :=
  f.scratch == g.scratch
    && (List.range f.size).any (fun i => flag f.bytes i && decide (g.addr ≤ f.addr + i ∧ f.addr + i < g.addr + g.size)
      && flag g.bytes (f.addr + i - g.addr))

/-- What access `a` touches at `feet` stays after access `b` of the same crew: `b` is earlier in its stream, or a fence stands
between them, and a byte is common (R106 case 1, R108, R109); or both change one key-value sequence (R119). -/
def Access.follows (a b : Access) (feet : List Foot) : Bool :=
  let near := (decide (b.stream = a.stream) && !a.opposite b) || a.cross.contains b.id
  (near && b.parts.any (fun q => !b.kind.loose q && feet.any (fun f => (b.feet q).any f.clash)))
    || (a.kind.seqAt.isSome && a.kind.seqAt == b.kind.seqAt)

/-- Bytes at `feet` of access `a` may be performed: every access it must follow has been (R106, R108, R109, R111). `before`
are the accesses listed before `a`. -/
def Access.mayTouch (a : Access) (before : List Access) (feet : List Foot) : Bool :=
  before.all (fun b => b.done || !(a.follows b feet || a.order.contains b.id))

/-- Accesses listed before that the part follows for other reasons than a common byte or an order made between them: where it was held, the
held ones of the operand log, which are re-issued in program order (R336); of what a save area replays, what stands before it
there (R348). -/
def Access.waitsFor (a b : Access) (p : Part) : Bool :=
  (p.logged && b.entry && b.parts.any (·.logged))
    || (a.replay && b.replay && b.parts.all (fun q => q.held.isNone))

/-- A part of access `a` may be performed. -/
def Access.mayPerform (a : Access) (before : List Access) (p : Part) : Bool :=
  a.mayTouch before (a.feet p) && before.all (fun b => b.done || !a.waitsFor b p)

/-- The accesses listed before the one of a number. -/
def Crew.before (c : Crew) (id : Nat) : List Access := c.flying.takeWhile (fun a => a.id != id)

/-! Barrier objects (R51, R52). -/

/-- The completion check after every transition (R52). -/
def Barrier.settle (b : Barrier) : Barrier :=
  if b.valid && decide (b.expArr ≤ b.arr) && decide (b.expBytes ≤ b.recv) && !b.ovf then
    { b with recv := b.recv - b.expBytes, expBytes := 0, arr := 0, phase := !b.phase }
  else b

/-- INIT(n). -/
def Barrier.init (n : Nat) : Barrier :=
  Barrier.settle { expBytes := 0, recv := 0, valid := true, ovf := false, phase := false, expArr := BitVec.ofNat 12 n, arr := 0 }

/-- A 24-bit count with k more: at most 0xFFFFFF, and whether it overflowed. -/
def addBytes24 (x : BitVec 24) (k : Nat) : BitVec 24 × Bool :=
  if x.toNat + k > 0xFFFFFF then (0xFFFFFF, true) else (BitVec.ofNat 24 (x.toNat + k), false)

/-- ADDBYTES(k), without the completion check. -/
def Barrier.addBytes (b : Barrier) (k : Nat) : Barrier :=
  let r := addBytes24 b.expBytes k
  { b with expBytes := r.1, ovf := b.ovf || r.2 }

/-- SETARR(n), without the completion check. -/
def Barrier.setArr (b : Barrier) (n : Nat) : Barrier := { b with expArr := BitVec.ofNat 12 n }

/-- ARRIVE. In a phase that bytes hold open the 12-bit count wraps from 4,095 to 0 (DESIGN CHOICE, log entry 84). -/
def Barrier.arrive (b : Barrier) : Barrier := Barrier.settle { b with arr := b.arr + 1 }

/-- RECEIVE(k). -/
def Barrier.receive (b : Barrier) (k : Nat) : Barrier :=
  let r := addBytes24 b.recv k
  Barrier.settle { b with recv := r.1, ovf := b.ovf || r.2 }

/-- What a waiting BWAIT observes of its object after a transition: first an overflow or first the completion it waits for
(R53, R156). -/
def BarWait.observe (x : BarWait) (b : Barrier) : BarWait :=
  { x with failed := x.failed || (b.ovf && !x.passed), passed := x.passed || (b.phase != x.par && !b.ovf && !x.failed) }

def Crew.observe (n : Nat) (b : Barrier) (c : Crew) : Crew :=
  { c with waitBar := c.waitBar.map (fun x => if x.bar.toNat = n then x.observe b else x) }

def Workgroup.bar (w : Workgroup) (n : Nat) : Barrier := w.bars.get n

/-- An object after a transition, which the crews that wait on it observe. -/
def Workgroup.putBar (w : Workgroup) (n : Nat) (b : Barrier) : Workgroup :=
  { w with bars := w.bars.put n b, crews := SMap.mapVals w.crews (Crew.observe n b) }

/-- RECEIVE on the object an engine transfer names, if any. -/
def Workgroup.deliver (w : Workgroup) (bar : Option (BitVec 4)) (k : Nat) : Workgroup :=
  match bar with
  | some o => w.putBar o.toNat ((w.bar o.toNat).receive k)
  | none => w

/-- ARRIVE on the object a batch names, if any (R93). -/
def Workgroup.arriveAt (w : Workgroup) (bar : Option (BitVec 4)) : Workgroup :=
  match bar with
  | some o => w.putBar o.toNat (w.bar o.toNat).arrive
  | none => w

/-- No further replay from the start: IDEM falls (R344). -/
def Workgroup.spoil (w : Workgroup) : Workgroup := { w with idem := false }

/-! Taking an exception. -/

/-- Whose code a scalar stream runs (R250). -/
def Crew.side (c : Crew) : Side :=
  match c.place with
  | .conPrologue | .conBody | .conEpilogue => .consumer
  | _ => .producer

/-- Whose code a stream runs: the lane stream's is that of the run in progress. -/
def Crew.sideOf (c : Crew) (stream : Stream) : Side :=
  match stream, c.queue with
  | .lane, r :: _ => r.side
  | _, _ => c.side

/-- The report of a fault that a crew raises (R333): KID is the originating kernel, the consumer's in a fused grid's
consumer code (R255). -/
def State.reportOf (s : State) (w : Workgroup) (c : Crew) (side : Side) (code : FaultCode) (detail : DWord) (stream : Stream)
    (inflight : Bool) (pc : Addr) : Report :=
  let g := s.gridOf w
  { code := code, origin := true, lane := stream = .lane, inflight := inflight, fused := g.fused.isSome, ctx := w.ctx,
    crew := c.number, role := c.role,
    kid := match g.fused, side with | some f, .consumer => f.copy.kid | _, _ => g.copy.kid,
    pc := pc, detail := detail, index := w.index, core := w.core, die := w.die }

/-- Crews of a list of keys halt: they stop issuing in both streams (R334). -/
def State.halt (s : State) : List CrewKey → State
  | [] => s
  | k :: ks =>
    match s.find k with
    | some (w, c) => State.halt (s.put k w { c with status := .halted }) ks
    | none => State.halt s ks

/-- What follows a report of a fault that the crews of `keys` of workgroup `w` raise (R334): STPOISON ends the grid; with
DEBUG the crews halt; else the reset rung runs for the context. -/
def State.afterFault (s : State) (w : Workgroup) (keys : List CrewKey) (r : Report) : State :=
  if r.code = .stpoison then s.endGrid w.seq r
  else if (s.ctx w.ctx).debug then s.halt keys
  else s.resetRung w.ctx r (some w.seq)

/-- TAKING AN EXCEPTION: the fault is reported and the crew stops, its program counters at the instruction (R333, R334). -/
def State.raise (s : State) (k : CrewKey) (side : Side) (code : FaultCode) (detail : DWord) (stream : Stream) (inflight : Bool)
    (pc : Addr) : State :=
  match s.find k with
  | none => s
  | some (w, c) =>
    let r := s.reportOf w c side code detail stream inflight pc
    (s.report r).afterFault w [k] r

/-- The address of the instruction at which a stream of the crew stands. -/
def Crew.at (c : Crew) (stream : Stream) : Addr :=
  match stream, c.prog with
  | .lane, some p => p.pc
  | _, _ => c.pc

/-- The running instruction raises a fault at issue: the crew's program counter stays at it (R138). -/
def trap (s : State) (code : FaultCode) (detail : DWord) : Result :=
  match s.issuer with
  | none => .fault .noIssuer
  | some (_, c) => .next (s.raise s.cur.key (c.sideOf s.cur.stream) code detail s.cur.stream false (c.at s.cur.stream))

/-- The first of the listed traps whose condition holds, in the trap order of the instruction; else `run`. A trap's detail is
the virtual address for XLAT and PERM and 0 for the others (R333). -/
def trapsThen (s : State) (run : Result) : List (Bool × FaultCode × DWord) → Result
  | [] => run
  | (cond, code, detail) :: rest => if cond then trap s code detail else trapsThen s run rest

/-- A crew that waited at BWAIT when its object overflowed traps RANGE at that moment (R156). -/
def State.raiseWait (s : State) (k : CrewKey) : State :=
  match s.find k with
  | some (w, c) =>
    match c.waitBar with
    | some x =>
      if x.failed && decide (c.status = .live) then
        (s.put k w { c with waitBar := none }).raise k c.side .range 0 .scalar false c.pc
      else s
    | none => s
  | none => s

/-- Every crew of a workgroup that has observed an overflow of the object it waits on traps (R156). -/
def State.raiseWaits (s : State) (wid : Nat) : State :=
  match s.wgs.find? wid with
  | some w => w.crews.keys.foldl (fun (s : State) slot => s.raiseWait ⟨wid, slot⟩) s
  | none => s

/-- RETURNING FROM AN EXCEPTION: a halted crew runs again, from the instruction at which its program counters stand, and its
held accesses walk again (R334, R335). -/
def Crew.resume (c : Crew) : Crew :=
  { c with
    status := .live,
    joint := false,
    fetchHeld := [],
    walking := [],
    mma := c.mma.map (fun m => { m with trapped := false }),
    flying := c.flying.map (fun a => { a with parts := a.parts.map (fun p => { p with held := none }) }) }

end Sys2Proof.Machine
end

