-- ==== Sys2Proof/Machine/Fuse.lean ====
section
/-! DEFINITION. The fused kernel: where its parts join, the renumbering of the consumer, and the marked tile instructions
(12 R249 to R252). -/

namespace Sys2Proof.Machine

/-! Parts. -/

/-- Address of an offset from a role's ENTRY. -/
def LaunchCopy.codeAt (r : LaunchCopy) (role off : Nat) : Addr := BitVec.ofNat 52 (r.entry role + off)

/-- Where a part of a looped role leads on: the place and address that stand for this place and address (R250). -/
def hop (p n : LaunchCopy) (role : Nat) (at_ : Place × Addr) : Place × Addr :=
  let body := fun (r : LaunchCopy) => r.codeAt role (r.image.body role)
  let loopAt := fun (r : LaunchCopy) => r.codeAt role (r.image.loopAt role)
  match at_.1 with
  | .proPrologue => if at_.2 = body p then (.conPrologue, n.codeAt role 0) else at_
  | .conPrologue => if at_.2 = body n then (.proBody, body p) else at_
  | .proBody => if at_.2 = loopAt p then (.conBody, body n) else at_
  | .conBody => if at_.2 = loopAt n + 4 then (.loop, loopAt p) else at_
  | .loop =>
    if at_.2 = body p then (.proBody, body p)
    else if at_.2 = loopAt p + 4 then (.proEpilogue, at_.2)
    else at_
  | .proEpilogue | .conEpilogue => at_

/-- The crew with its scalar program counter moved on to the part it leads to. -/
def Grid.relocate (g : Grid) (c : Crew) : Crew :=
  match g.fused with
  | none => c
  | some f =>
    let role := c.role.toNat
    if g.copy.image.looped role then
      let x := hop g.copy f.copy role (hop g.copy f.copy role (c.place, c.pc))
      { c with place := x.1, pc := x.2 }
    else c

/-- Where an EXIT of the producer's code in fused code continues (R250); none: the crew retires. -/
def Grid.afterExit (g : Grid) (c : Crew) : Option (Place × Addr) :=
  match g.fused, c.side with
  | some f, .producer =>
    let role := c.role.toNat
    if g.copy.image.looped role then some (.conEpilogue, f.copy.codeAt role (f.copy.image.loopAt role + 4))
    else some (.conPrologue, f.copy.codeAt role 0)
  | _, _ => none

/-- The scalar instruction is the consumer's LOOP, in whose place an ADDI stands (R250). -/
def Grid.atConLoop (g : Grid) (c : Crew) : Bool :=
  match g.fused with
  | some f => decide (c.place = .conBody ∧ c.pc = f.copy.codeAt c.role.toNat (f.copy.image.loopAt c.role.toNat))
  | none => false

/-- The scalar instruction is the consumer's marked TLOAD, which is forwarded (R251). -/
def Grid.forwards (g : Grid) (c : Crew) : Bool :=
  match g.fused with
  | some f =>
    decide (c.place = .conBody ∧ c.role.toNat = f.copy.image.markRole true
      ∧ c.pc = f.copy.codeAt c.role.toNat (f.copy.image.mark true))
  | none => false

/-- The scalar instruction is the producer's marked TSTORE of a transient buffer, which performs nothing (R252). -/
def Grid.elides (g : Grid) (c : Crew) : Bool :=
  match g.fused with
  | some _ =>
    g.copy.image.transient && decide (c.place = .proBody ∧ c.role.toNat = g.copy.image.markRole false
      ∧ c.pc = g.copy.codeAt c.role.toNat (g.copy.image.mark false))
  | none => false

/-- The code of a side that the firmware holds for a fused grid (R250). -/
def Grid.heldCode (g : Grid) (side : Side) : SMap Word :=
  match g.fused, side with
  | some f, .producer => f.proCode
  | some f, .consumer => f.conCode
  | none, _ => []

/-- The nesting depth that the code of a side reads, and from which its children count: that of its own launch, also where the two of a
fused pair differ (R34; DESIGN CHOICE, log entry 96). -/
def Grid.depthOf (g : Grid) (side : Side) : Nat :=
  match g.fused, side with
  | some f, .consumer => f.depth
  | _, _ => g.depth

/-- Bytes by which an LDK offset of a side is raised (R249). -/
def Grid.argBias (g : Grid) (side : Side) : Nat :=
  match g.fused, side with
  | some _, .consumer => g.copy.args.length
  | _, _ => 0

/-! Renumbering (R249). -/

/-- A number of `len` bits raised. Of a lane register or tile, kinds 1 and 2, one that lies beyond the field then is at or above its
count and traps RANGE (see Grid.overV); another that its mark did not count is a free value (log entry 17). -/
def raised (kind len n by_ : Nat) : Nat := if n + by_ < 2 ^ len then n + by_ else Config.misnamed kind (n + by_) % 2 ^ len

/-- What the numbers of a consumer's role become. -/
structure Renumber where
  s : Nat
  v : Nat
  t : Nat
  a : Nat
  b : Nat
  m : Nat
  cb : Nat
  preds : SMap Nat
  xregs : SMap Nat
  tileFrom : Nat
  tileTo : Nat
  role : Nat
  deriving DecidableEq, Repr

/-- By how much the numbers of a fused grid's consumer tiles are raised (R249). -/
def Grid.tileRaise (g : Grid) : Nat := (g.copy.sum g.copy.tiles + 1) / 2 * 2

/-- The renumbering of a fused grid's consumer in a role. -/
def Grid.renumber (g : Grid) (f : Fused) (role : Nat) : Renumber :=
  let r := g.copy
  let i := r.image
  { s := (i.sUsed role + 2) / 2 * 2, v := r.regs role, t := g.tileRaise,
    a := r.most i.aUsed, b := r.most i.bUsed, m := r.most i.mUsed, cb := r.most i.cbUsed,
    preds := f.preds, xregs := f.xregs, tileFrom := f.tileFrom, tileTo := f.tileTo, role := role }

/-- s0 stays. -/
def Renumber.sreg (q : Renumber) (r : Reg) : Reg := if r = 0 then 0 else BitVec.ofNat 6 (raised 0 6 r.toNat q.s)
def Renumber.tile (q : Renumber) (t : Nat) : Nat := if t = q.tileFrom then q.tileTo else raised 2 4 t q.t
/-- p7 stays. -/
def Renumber.pred (q : Renumber) (p : Nat) : Nat := if p = 7 then 7 else (q.preds.find? (8 * q.role + p)).getD p
def Renumber.xr (q : Renumber) (x : Nat) : Nat := (q.xregs.find? (4 * q.role + x)).getD x
def Renumber.handle (q : Renumber) (h : Nat) : Nat := raised 3 5 h q.a
def Renumber.object (q : Renumber) (o : Nat) : Nat := raised 4 4 o q.b
def Renumber.slot (q : Renumber) (m : Nat) : Nat := raised 5 5 m q.m
def Renumber.book (q : Renumber) (c : Nat) : Nat := raised 6 3 c q.cb

/-- An operand field of a lane instruction, by the kind of its position; `own` where the position holds no operand. -/
def Renumber.field (q : Renumber) (k : Kind) (own : Bool) (x : BitVec 8) : BitVec 8 :=
  if own then x
  else match k with
    | .V => BitVec.ofNat 8 (raised 1 8 x.toNat q.v)
    | .P => BitVec.ofNat 8 (q.pred x.toNat)
    | .S => (q.sreg (x.setWidth 6)).setWidth 8
    | .X => BitVec.ofNat 8 (q.xr x.toNat)
    | .A => BitVec.ofNat 8 (q.handle x.toNat)
    | .T => BitVec.ofNat 8 (q.tile x.toNat)
    | .none => x

/-- Parcel 2 renumbered. -/
def Renumber.parcel2 (q : Renumber) (i : Instr) (form : Form) (f : LaneFields) : Word :=
  let slot := fun (x : Word) => setFld x 3 5 (q.slot f.mslot.toNat)
  match form, i with
  | .M, _ => if f.sp then f.p2 else slot f.p2
  | .C, _ =>
    let x := slot f.p2
    let x := if f.ben then setFld x 27 4 (q.object f.bnum.toNat) else x
    if nfld f.subop 0 2 = 3 then setFld x 24 3 (q.book f.cbnum.toNat) else x
  | .S, .isect _ => setFld f.p2 16 6 (q.sreg f.xreg).toNat
  | _, _ => f.p2

/-- A position of a lane instruction that holds no operand of its kind: an indexed one, a k word, the number of a special. -/
def ownPosition (i : Instr) (r : LaneRow) (f : LaneFields) (n : Nat) : Bool :=
  let indexing := match r.form with | .G | .M | .X => f.ixe | _ => false
  (indexing && f.isel.toNat == n) || (n != 0 && decide (r.form = .G) && f.ksrc.toNat == n)
    || (n == 1 && match i with | .getl _ => true | _ => false)

/-- The fields of a lane instruction renumbered. -/
def Renumber.laneFields (q : Renumber) (i : Instr) (r : LaneRow) (f : LaneFields) : LaneFields :=
  let ks := laneKinds i r f
  let indexing := match r.form with | .G | .M | .X => f.ixe | _ => false
  let own := ownPosition i r f
  { f with
    dest := q.field r.dest (own 0) f.dest
    srca := q.field ks.1 (own 1) f.srca
    srcb := q.field ks.2.1 (own 2) f.srcb
    srcc := q.field ks.2.2 (own 3) f.srcc
    guard := BitVec.ofNat 3 (q.pred f.guard.toNat)
    ixreg := if indexing then BitVec.ofNat 2 (q.xr f.ixreg.toNat) else f.ixreg
    p2 := q.parcel2 i r.form f }

/-- A lane instruction renumbered. -/
def Renumber.lane (q : Renumber) (i : Instr) : Instr :=
  match laneRow i, laneFieldsOf i with
  | some r, some f => (laneOfOpcode r.opc (q.laneFields i r f)).getD i
  | _, _ => i

/-- A scalar instruction renumbered. -/
def Renumber.scalar (q : Renumber) (i : Instr) : Instr :=
  let r := q.sreg
  let o := fun (b : BitVec 4) => BitVec.ofNat 4 (q.object b.toNat)
  let t := fun (b : BitVec 4) => BitVec.ofNat 4 (q.tile b.toNat)
  let h := fun (b : BitVec 5) => BitVec.ofNat 5 (q.handle b.toNat)
  let m := fun (b : BitVec 5) => BitVec.ofNat 5 (q.slot b.toNat)
  match i with
  | .add d a b => .add (r d) (r a) (r b)
  | .sub d a b => .sub (r d) (r a) (r b)
  | .mul d a b => .mul (r d) (r a) (r b)
  | .mulh d a b => .mulh (r d) (r a) (r b)
  | .mulhu d a b => .mulhu (r d) (r a) (r b)
  | .div d a b => .div (r d) (r a) (r b)
  | .divu d a b => .divu (r d) (r a) (r b)
  | .rem d a b => .rem (r d) (r a) (r b)
  | .remu d a b => .remu (r d) (r a) (r b)
  | .andR d a b => .andR (r d) (r a) (r b)
  | .orR d a b => .orR (r d) (r a) (r b)
  | .xorR d a b => .xorR (r d) (r a) (r b)
  | .shl d a b => .shl (r d) (r a) (r b)
  | .shr d a b => .shr (r d) (r a) (r b)
  | .sra d a b => .sra (r d) (r a) (r b)
  | .min d a b => .min (r d) (r a) (r b)
  | .max d a b => .max (r d) (r a) (r b)
  | .minu d a b => .minu (r d) (r a) (r b)
  | .maxu d a b => .maxu (r d) (r a) (r b)
  | .slt d a b => .slt (r d) (r a) (r b)
  | .sltu d a b => .sltu (r d) (r a) (r b)
  | .seq d a b => .seq (r d) (r a) (r b)
  | .clz d a => .clz (r d) (r a)
  | .popc d a => .popc (r d) (r a)
  | .mov d a => .mov (r d) (r a)
  | .add64 d a b => .add64 (r d) (r a) (r b)
  | .addi d a i => .addi (r d) (r a) i
  | .andi d a i => .andi (r d) (r a) i
  | .ori d a i => .ori (r d) (r a) i
  | .xori d a i => .xori (r d) (r a) i
  | .shli d a sh => .shli (r d) (r a) sh
  | .shri d a sh => .shri (r d) (r a) sh
  | .srai d a sh => .srai (r d) (r a) sh
  | .lui d i => .lui (r d) i
  | .li d i => .li (r d) i
  | .sel d a b c => .sel (r d) (r a) (r b) (r c)
  | .lea d a b sh => .lea (r d) (r a) (r b) sh
  | .bcond c a b off => .bcond c (r a) (r b) off
  | .jal off => .jal off
  | .jr d a => .jr (r d) (r a)
  | .loop a off => .loop (r a) off
  | .lrun a off => .lrun (if a = 0 then BitVec.ofNat 6 q.s else r a) off
  | .gets d sp => .gets (r d) sp
  | .sld d a off cls sc sz => .sld (r d) (r a) off cls sc sz
  | .sst d a off cls sc sz => .sst (r d) (r a) off cls sc sz
  | .ldk d a i => .ldk (r d) (r a) i
  | .satom d a b op sc wide => .satom (r d) (r a) (r b) op sc wide
  | .binit n a => .binit (o n) (r a)
  | .bexp n a b => .bexp (o n) (r a) (r b)
  | .barr n => .barr (o n)
  | .bwait n par => .bwait (o n) par
  | .btry d n par => .btry (r d) (o n) par
  | .tload x a b z n bar off => .tload (t x) (r a) (r b) (r z) (m n) (bar.map o) off
  | .tstore x a b z n off => .tstore (t x) (r a) (r b) (r z) (m n) off
  | .cpseal d bar => .cpseal (r d) (bar.map o)
  | .cpwait a n => .cpwait (r a) n
  | .cbload cb a e => .cbload (BitVec.ofNat 3 (q.book cb.toNat)) (r a) e
  | .waitc p a => .waitc p (r a)
  | .tlook d a => .tlook (r d) (r a)
  | .tfill d a b => .tfill (r d) (r a) (r b)
  | .tdrop a => .tdrop (r a)
  | .aalloc n => .aalloc (h n)
  | .agrow d n => .agrow (r d) (h n)
  | .afree n => .afree (h n)
  | .group a pack => .group (r a) pack
  | .join k left a => .join (m k) left (r a)
  | .joinc k left a => .joinc (m k) left (r a)
  | .ssopen d a b => .ssopen (r d) (r a) (r b)
  | .ssld d a b x => .ssld (r d) (r a) (r b) (t x)
  | .ssst d a b x => .ssst (r d) (r a) (r b) (t x)
  | .sssnap d a b => .sssnap (r d) (r a) (r b)
  | .ssroll d a b => .ssroll (r d) (r a) (r b)
  | .ssfork d a b => .ssfork (r d) (r a) (r b)
  | .sscommit d a b => .sscommit (r d) (r a) (r b)
  | .ssclose d a => .ssclose (r d) (r a)
  | .kvld d a b c x n => .kvld (r d) (r a) (r b) (r c) (t x) (m n)
  | .kvapp d a b c x n => .kvapp (r d) (r a) (r b) (r c) (t x) (m n)
  | .kvtrunc a b n => .kvtrunc (r a) (r b) (m n)
  | .kvstep d a n => .kvstep (r d) (r a) (m n)
  | .launch d a => .launch (r d) (r a)
  | i => i

/-- The operands of a lane instruction, each by its kind. -/
def operandFields (i : Instr) (r : LaneRow) (f : LaneFields) : List (Kind × BitVec 8) :=
  let ks := laneKinds i r f
  let all : List (Nat × Kind × BitVec 8) := [(0, r.dest, f.dest), (1, ks.1, f.srca), (2, ks.2.1, f.srcb), (3, ks.2.2, f.srcc)]
  (all.filter (fun x => !ownPosition i r f x.1)).map (·.2)

/-- An instruction of the consumer names a lane register that lies beyond its field once it is raised. Its number is at or above the
consumer's REGS, so that it traps RANGE (R41, R249). -/
def Renumber.overV (q : Renumber) (i : Instr) : Bool :=
  match laneRow i, laneFieldsOf i with
  | some r, some f => (operandFields i r f).any (fun x => decide (x.1 = .V ∧ 256 ≤ x.2.toNat + q.v))
  | _, _ => false

/-- The same of a tile, whose number is at or above the consumer's T (R15, R249). -/
def Renumber.overT (q : Renumber) (i : Instr) : Bool :=
  let tooHigh := fun (t : Nat) => t != q.tileFrom && decide (16 ≤ t + q.t)
  match i with
  | .tload x .. | .tstore x .. | .ssld _ _ _ x | .ssst _ _ _ x | .kvld _ _ _ _ x _ | .kvapp _ _ _ _ x _ => tooHigh x.toNat
  | _ => match laneRow i, laneFieldsOf i with
    | some r, some f => (operandFields i r f).any (fun x => decide (x.1 = .T) && tooHigh x.2.toNat)
    | _, _ => false

/-- The raised number of a tile that a lane instruction of a crew names: of the consumer's marked tile too, which stands in the
producer's (R249). The tiles beside it that the instruction takes as well follow it by this number. -/
def State.tileNumber (s : State) (w : Workgroup) (c : Crew) (x : Nat) : Nat :=
  let g := s.gridOf w
  match g.fused, c.sideOf .lane with
  | some f, .consumer => if x = f.tileTo then f.tileFrom + g.tileRaise else x
  | _, _ => x

/-- The tile in which the tile of a raised number stands (R249). -/
def State.tileHome (s : State) (w : Workgroup) (c : Crew) (n : Nat) : Nat :=
  let g := s.gridOf w
  match g.fused, c.sideOf .lane with
  | some f, .consumer => if n = f.tileFrom + g.tileRaise then f.tileTo else n
  | _, _ => n

/-- A lane instruction of a run that the scalar stream dispatches, as the fused code holds it. -/
def Grid.laneForm (g : Grid) (c : Crew) (i : Instr) : Instr :=
  match g.fused, c.side with
  | some f, .consumer => (g.renumber f c.role.toNat).lane i
  | _, _ => i

/-- An instruction as the fused code holds it: a consumer's renumbered, and in place of its LOOP the ADDI. -/
def Grid.fusedForm (g : Grid) (c : Crew) (stream : Stream) (i : Instr) : Instr :=
  match g.fused, c.sideOf stream, stream with
  | some f, .consumer, .lane => (g.renumber f c.role.toNat).lane i
  | some f, .consumer, .scalar =>
    match g.atConLoop c, (g.renumber f c.role.toNat).scalar i with
    | true, .loop a _ => .addi a a (-1)
    | _, i => i
  | _, _, _ => i

/-- The instruction, as the original kernel has it, names a lane register, or a tile, that lies beyond its field in fused code. -/
def Grid.beyond (g : Grid) (c : Crew) (stream : Stream) (i : Instr) : Bool × Bool :=
  match g.fused, c.sideOf stream with
  | some f, .consumer => ((g.renumber f c.role.toNat).overV i, (g.renumber f c.role.toNat).overT i)
  | _, _ => (false, false)

end Sys2Proof.Machine
end

