-- ==== Sys2Proof/Machine/Fetch.lean ====
section
/-! DEFINITION. Fetching and decoding the next instruction of a stream (01 R17 to R20, 06 R128, R137; 21 R325, R326), and
when a stream may issue at all. -/

namespace Sys2Proof.Machine

/-- The workgroup belongs to a ladder's scope: a co-resident grid partly in scope is taken whole (R340, R343). -/
def State.inScope (s : State) (l : Ladder) (w : Workgroup) : Bool :=
  l.names w || ((s.gridOf w).copy.coresident && s.wgs.values.any (fun x => x.seq == w.seq && l.names x))

/-- A save rung holds the workgroup: its crews have stopped issuing (R341). -/
def State.frozen (s : State) (w : Workgroup) : Bool :=
  s.ladders.any (fun l => !(decide (l.rung = .drain)) && l.members.contains w.admitted)

/-- The quiesce limit has passed for the workgroup: its transfers do not land any more (R341). -/
def State.quiesced (s : State) (w : Workgroup) : Bool :=
  s.ladders.any (fun l => decide (l.rung = .quiesced) && l.members.contains w.admitted)

/-- A resumed workgroup still replays an MMA or a transfer of its save area: its crews do not run yet (R338, R349). -/
def Workgroup.replaying (w : Workgroup) : Bool :=
  w.crews.values.any (fun c => (match c.mma with | some m => m.replay | none => false)
    || c.flying.any (fun a => a.replay && !a.done && !a.isHeld))

/-- The stream of the crew may issue: the crew is live, its workgroup is resident, not being saved and through with its replays,
and no fetch of this stream is held (R38, R334, R341, R349). -/
def State.mayIssue (s : State) (w : Workgroup) (c : Crew) (stream : Stream) : Bool :=
  decide (c.status = .live) && !w.parked && !s.frozen w && !w.replaying
    && !c.fetchHeld.any (fun h => decide (h.stream = stream))

/-- What keeps the scalar stream where it stands: an instruction of it until it has been performed (R161, R240, R336, R337), or an LRUN
whose destinations are not all marked yet (R146). -/
def Crew.scalarBusy (c : Crew) : Bool :=
  c.scalarHeld || c.queue.any (fun r => r.rest.isSome) || c.flying.any (fun a => !a.done && match a.kind with | .cbload .. | .kvstep .. => true | _ => false)

/-- The 32-bit word of code at a virtual address, if its translation is cached and allows it (R325, R327). -/
inductive CodeWord where
  | word (w : Word)
  | miss (va : Nat)
  | wait
  | held (code : FaultCode) (va : Nat)
  deriving DecidableEq, Repr

/-- A word of code of a side: of a fused grid as the firmware holds it (R250), else through the caches. -/
def State.codeWord (s : State) (w : Workgroup) (side : Side) (va : Nat) : CodeWord :=
  match ((s.gridOf w).heldCode side).find? (va / 4) with
  | some x => .word x
  | none =>
  match s.xlate w.die w.ctx .ex va with
  | .ok pa => .word (BitVec.ofNat 32 (leNat (s.readBytes w.ctx pa 4)))
  | .miss => .miss va
  | .moving => .wait
  | .fail code => .held code va

/-- What a fetch gives: an instruction, with the words it was read from. -/
inductive Fetched where
  | instr (i : Instr)
  | miss (va : Nat)
  | wait
  | held (code : FaultCode) (va : Nat)
  deriving DecidableEq, Repr

/-- An instruction that decodes, or the row ILLOP with the words that do not (R136). -/
def decodedOr (d : Decoded) (w0 w1 w2 : Word) : Instr :=
  match d with
  | .ok i => i
  | .reject _ => .illop w0 w1 w2

/-- The scalar instruction at an address: the long class reads a second word (R128), which for a long instruction in the last word of
the address space is that at address 0 (DESIGN CHOICE, log entry 83). -/
def State.fetchScalar (s : State) (w : Workgroup) (side : Side) (pc : Addr) : Fetched :=
  match s.codeWord w side pc.toNat with
  | .word w0 =>
    if isLongMajor (wMajor w0).toNat then
      match s.codeWord w side (pc + 4).toNat with
      | .word w1 => .instr (decodedOr (decodeScalar w0 w1) w0 w1 0)
      | .miss va => .miss va
      | .wait => .wait
      | .held code va => .held code va
    else .instr (decodedOr (decodeScalar w0 0) w0 0 0)
  | .miss va => .miss va
  | .wait => .wait
  | .held code va => .held code va

/-- The lane instruction whose three parcels start at an address, the words read by `g` (R129, R137). -/
def laneAt (g : Nat → CodeWord) (pc : Nat) : Fetched :=
  match g pc, g (pc + 4), g (pc + 8) with
  | .word p0, .word p1, .word p2 => .instr (decodedOr (decodeLane p0 p1 p2) p0 p1 p2)
  | .held code va, _, _ | _, .held code va, _ | _, _, .held code va => .held code va
  | .miss va, _, _ | _, .miss va, _ | _, _, .miss va => .miss va
  | _, _, _ => .wait

def State.fetchLane (s : State) (w : Workgroup) (side : Side) (pc : Addr) : Fetched :=
  laneAt (s.codeWord w side) pc.toNat

/-- An address of the three parcels at which a run stands that lies beyond 2^52, and so cannot be translated (R81, R137). -/
def Progress.beyond (p : Progress) : Option Nat :=
  if p.past then some (2 ^ 52 + p.pc.toNat) else if 2 ^ 52 < p.pc.toNat + 12 then some (2 ^ 52) else none

/-- A stream is held at its instruction and the scheduler is told (R326, R335); `joint` where it stands there for all participants
of a population instruction. -/
def State.holdAt (s : State) (k : CrewKey) (stream : Stream) (joint : Bool) (code : FaultCode) (va : Nat) : State :=
  match s.find k with
  | none => s
  | some (w, c) =>
    let r := s.reportOf w c (c.sideOf stream) code (BitVec.ofNat 64 va) stream true (c.at stream)
    (s.put k w { c with fetchHeld := ⟨c.nextId, stream, joint, ⟨code, va⟩⟩ :: c.fetchHeld, nextId := c.nextId + 1 }).report r

def State.holdFetch (s : State) (k : CrewKey) (stream : Stream) (code : FaultCode) (va : Nat) : State :=
  s.holdAt k stream false code va

/-- A part that waits for a walk: it has no translation yet, on a page that its die has not cached. -/
def State.walks (s : State) (w : Workgroup) (a : Access) (p : Part) : Bool :=
  p.held.isNone && p.size != 0 && a.global p && p.pa.isNone
    && decide (s.xlate w.die w.ctx a.kind.need p.addr = .miss)

/-- What a walk of address va of context c that has found `r` makes of what waits for an address of the same page: the code it fails
with. -/
def State.sharedFail (s : State) (c va : Nat) (r : Walk) (need : Need) (at_ : Nat) : Option FaultCode :=
  match r with
  | .invalid => if at_ / 65536 = va / 65536 then some .xlat else none
  | .leaf l =>
    if l.va ≤ at_ ∧ at_ < l.va + l.size then
      match s.checkLeaf c need l at_ with
      | .fail code => some code
      | _ => none
    else none
  | .moving _ => none

/-- An access whose parts that wait for a failed walk are held; those of the operand log take an entry (R336). -/
def Access.holdWhere (a : Access) (fails : Part → Option FaultCode) : Access :=
  let held := fun (p : Part) => match fails p with
    | some code => { p with held := some ⟨code, p.addr⟩, logged := a.kind.logged }
    | none => p
  { a with
    entry := a.entry || (a.parts.any (fun p => (fails p).isSome) && decide (a.stream = .lane) && a.kind.logged)
    parts := a.parts.map held }

/-- The crew with its streams that stand for a failed walk held at their instructions. -/
def Crew.holdStanding (fails : Walking → Option FaultCode) (c : Crew) : Crew :=
  c.walking.foldl (fun (c : Crew) m => match fails m with
    | some code => { c with fetchHeld := ⟨c.nextId, m.stream, m.joint, ⟨code, m.va⟩⟩ :: c.fetchHeld, nextId := c.nextId + 1
                            walking := c.walking.erase m }
    | none => c) c

/-- Changing the crews of a die and context, each by its key and workgroup. -/
def crewsOn (die c : Nat) (f : CrewKey → Workgroup → Crew → Crew) (wgs : SMap Workgroup) : SMap Workgroup :=
  wgs.map (fun e =>
    if e.2.die = die ∧ e.2.ctx = c then
      (e.1, { e.2 with crews := e.2.crews.map (fun x => (x.1, f ⟨e.1, x.1⟩ e.2 x.2)) })
    else e)

/-- The workgroups once a walk of a die for context c has failed: every access of the die and context that waits for that page, and every
stream that stands for it, shares the walk and is held with it, without a report of its own (R326). `but` is the access whose walk it is. -/
def State.shareWalk (s : State) (but : Option (CrewKey × Nat)) (die c va : Nat) : SMap Workgroup :=
  let r := (s.walkOn (some die) c va).1
  crewsOn die c (fun k w x =>
    ({ x with flying := x.flying.map (fun a =>
        if but = some (k, a.id) then a
        else a.holdWhere (fun p => if s.walks w a p then s.sharedFail c va r a.kind.need p.addr else none)) } : Crew).holdStanding
      (fun m => s.sharedFail c va r m.need m.va)) s.wgs

/-- The streams of a die and context that stood for a page stand for it no more once its leaf is cached. -/
def State.served (s : State) (die c : Nat) : State :=
  { s with wgs := crewsOn die c (fun _ _ x => { x with walking := x.walking.filter (fun m => (s.cached die c m.va).isNone) }) s.wgs }

/-- A walk ends, for all that share it (R326); `but` is the access whose walk it is. -/
def State.walkShared (s : State) (but : Option (CrewKey × Nat)) (die c : Nat) (need : Need) (va : Nat) : State × Xlate :=
  match s.walkFor die c need va with
  | (t, .fail code) => (State.served { t with wgs := s.shareWalk but die c va } die c, .fail code)
  | (t, .ok pa) => (t.served die c, .ok pa)
  | r => r

/-- A stream that stands at its instruction for a walk (R326): the walk begins, and at the stream's next turn it ends, unless another that
shares it has ended it; one that meets a page being moved goes on (R331). -/
def State.standAt (s : State) (k : CrewKey) (stream : Stream) (joint : Bool) (need : Need) (va : Nat) : State :=
  match s.find k with
  | none => s
  | some (w, c) =>
    let m : Walking := ⟨stream, joint, need, va⟩
    let others := c.walking.filter (fun x => decide (x.stream ≠ stream))
    if !c.walking.contains m then s.put k w { c with walking := m :: others }
    else match State.walkShared (s.put k w { c with walking := others }) none w.die w.ctx need va with
      | (t, .fail code) => t.holdAt k stream joint code va
      | (t, .ok _) => t
      | (t, _) => { s with tables := t.tables }

/-- A walk for a stream that stands at its instruction alone. -/
def State.issueMiss (s : State) (k : CrewKey) (stream : Stream) (need : Need) (va : Nat) : State := s.standAt k stream false need va

/-- Address of a run: LANEBASE + 16 * offset (R19, R137). -/
def runAddr (base : Nat) (offset : Word) : Nat := base + 16 * offset.toNat

/-- RUN_START: the oldest queued run begins, its active mask the live mask (R20). -/
def Crew.startRun (c : Crew) (base : Nat) : Crew :=
  match c.prog, c.queue with
  | none, r :: _ =>
    let a := runAddr base r.offset
    { c with prog := some { pc := BitVec.ofNat 52 a, past := decide (2 ^ 52 ≤ a), active := c.live, frames := [], results := [],
                            ended := false } }
  | _, _ => c

/-- Address of the lane section for the code the crew runs (R28, R249). -/
def Grid.laneBaseFor (g : Grid) (side : Side) : Nat :=
  match g.fused, side with
  | some f, .consumer => f.copy.laneBase
  | _, _ => g.copy.laneBase

end Sys2Proof.Machine
end

