-- ==== Sys2Proof/Machine/Flags.lean ====
section
/-! DEFINITION. Conditions and one-bit results: B.cond (06 R128), the scalar compares (07 R141), the integer lane compares of
ISET (08 R175) and the truth tables of LOP and PLOP (08 R176, R183). -/

namespace Sys2Proof.Machine

/-- A condition as a word: 1 or 0. -/
def boolWord (b : Bool) : Word := if b then 1 else 0

/-- B.cond (R128). -/
def condHolds (c : Cond) (a b : Word) : Bool :=
  match c with
  | .eq => a == b
  | .ne => a != b
  | .lt => a.slt b
  | .ge => !a.slt b
  | .ltu => a.ult b
  | .geu => !a.ult b

/-- ISET's comparison codes 0 to 5: EQ, NE, LT, LE, GT, GE, signed for S32 and unsigned for U32 (R175). -/
def intCompare (signed : Bool) (code : Nat) (a b : Word) : Bool :=
  let lt := fun (x y : Word) => if signed then x.slt y else x.ult y
  match code with
  | 0 => a == b
  | 1 => a != b
  | 2 => lt a b
  | 3 => !lt b a
  | 4 => lt b a
  | _ => !lt a b

/-- The bit of a truth table that three bits name, a the high one of the index (R176, R183). -/
def tableBit (lut : BitVec 8) (a b c : Bool) : Bool :=
  lut.getLsbD ((if a then 4 else 0) + (if b then 2 else 0) + (if c then 1 else 0))

end Sys2Proof.Machine
end

