-- ==== Sys2Proof/Machine/Operands.lean ====
section
/-! DEFINITION. Operands: addresses through buffer records (04 R81 to R87), and the executing set, operand positions, indexing,
full bits and trap order of a lane instruction (02 R44 to R47, 06 R130 to R135, 08 R171 to R173). -/

namespace Sys2Proof.Machine

/-! Buffer records. -/

/-- Bytes of a unit of an ordinary format; none for a record format or an invalid code (R57, R83). -/
def unitBytes (fmt : Nat) : Option Nat :=
  match fmt with
  | 0x00 | 0x04 | 0x05 | 0x07 | 0x08 => some 1
  | 0x02 | 0x03 => some 2
  | 0x01 | 0x06 => some 4
  | 0x10 | 0x11 | 0x13 => some 33
  | 0x12 => some 17
  | 0x18 => some 34
  | 0x19 => some 18
  | _ => none

/-- A well-formed record of an ordinary format (R85). -/
def BufRec.ordinary (m : BufRec) : Bool :=
  nfld m 240 16 == 0 && (unitBytes m.fmt).isSome && decide (m.policy < 4)

/-- An access through the record may put lines into the die cache: every policy but NOALLOC (R86). -/
def BufRec.allocates (m : BufRec) : Bool := m.policy != 2

/-- The bytes that one access of n bytes covers (R84): the bounds trap, the 64-bit address and which bytes are accessed. -/
structure Formed where
  bounds : Bool
  addr : DWord
  accessed : Nat → Bool

/-- The access of n bytes at coordinates x, y, z with an offset in units (R84). Under MODE 10 with an extent of less than n bytes
the address on which ALIGN is tested, ahead of BOUNDS, is that of bx saturated as written: to 0 below, else to EXTX * U - n, which
is negative (DESIGN CHOICE, log entry 87). -/
def BufRec.form (m : BufRec) (x y z off : Int) (n : Nat) : Formed :=
  let u := (unitBytes m.fmt).getD 1
  let bx := (x + off) * u
  let ey := if m.extY = 0 then 1 else m.extY
  let ez := if m.extZ = 0 then 1 else m.extZ
  let len := m.extX * u
  let inb := fun (b : Nat) => decide (0 ≤ bx + b ∧ bx + b < len ∧ 0 ≤ y ∧ y < ey ∧ 0 ≤ z ∧ z < ez)
  let addr := fun (bx y z : Int) => BitVec.ofInt 64 (m.base + bx + y * m.strideY + z * m.strideZ)
  match m.mode with
  | 0 => { bounds := !(List.range n).all inb, addr := addr bx y z, accessed := fun _ => true }
  | 1 => { bounds := false, addr := addr bx y z, accessed := inb }
  | 2 => { bounds := decide (len < n),
           addr := addr (satInt bx 0 (len - n)) (satInt y 0 (ey - 1)) (satInt z 0 (ez - 1)), accessed := fun _ => true }
  | _ => { bounds := false, addr := addr bx y z, accessed := fun _ => true }

/-- Bits 63:52 of a formed address are set (R81). -/
def farAddr (a : DWord) : Bool := nfld a 52 12 != 0

/-- Not aligned to n (R81). -/
def misaligned (a : DWord) (n : Nat) : Bool := a.toNat % n != 0

/-- The mask of the accessed ones of 16 bytes, from byte `first` on. -/
def maskOf (accessed : Nat → Bool) (first n : Nat) : BitVec 16 :=
  BitVec.ofNat 16 (((List.range n).map (fun i => if accessed (first + i) then 2 ^ i else 0)).sum)

/-- The first n of 16 bytes. -/
def firstBytes (n : Nat) : BitVec 16 := BitVec.ofNat 16 (2 ^ n - 1)

/-! The executing set. -/

/-- The run in progress of a lane instruction that is issuing. -/
def Crew.run (c : Crew) : Progress := c.prog.getD { pc := 0, active := 0, frames := [], results := [], ended := false }

/-- The run goes on n bytes further (R137). -/
def Progress.skip (p : Progress) (n : Nat) : Progress :=
  { p with pc := p.pc + BitVec.ofNat 52 n, past := p.past || decide (2 ^ 52 ≤ p.pc.toNat + n) }

/-- The executing set E (R171). -/
def Crew.executing (c : Crew) (f : LaneFields) : Mask :=
  let g := c.pred f.guard.toNat
  c.run.active &&& (if f.gneg then ~~~g else g)

/-- Run constants of the run in progress (R18). -/
def Crew.runConst (c : Crew) (n : Nat) : Word :=
  match c.queue with
  | r :: _ => r.k.getD n 0
  | [] => 0

/-! Operand positions. -/

/-- How a position of a lane instruction is read or written. -/
inductive Operand where
  /-- a lane register, the same in every lane -/
  | reg (r : Nat)
  /-- a lane register named through an x register: BASE + IDX + off (R45) -/
  | indexed (x off : Nat)
  /-- a run constant (R135) -/
  | konst (n : Nat)
  /-- the immediate of form I (R132) -/
  | imm (w : Word)
  /-- not a lane register: a predicate, tile, accumulator, index register or nothing -/
  | other
  deriving DecidableEq, Repr

/-- The row of a lane instruction (R133). -/
def rowOf (i : Instr) : LaneRow := (laneRow i).getD ⟨0, .N, .none, .none, .none, .none, [], false, 0⟩

/-- The operand at position p: 0 the destination, 1 to 3 the sources a, b, c. -/
def operandAt (i : Instr) (f : LaneFields) (p : Nat) : Operand :=
  let r := rowOf i
  let ks := laneKinds i r f
  let kind := match p with | 0 => r.dest | 1 => ks.1 | 2 => ks.2.1 | _ => ks.2.2
  let field := match p with | 0 => f.dest | 1 => f.srca | 2 => f.srcb | _ => f.srcc
  let indexed := match r.form with | .G | .M | .X => f.ixe && f.isel.toNat == p | _ => false
  if indexed then .indexed f.ixreg.toNat f.ixoff.toNat
  else if p != 0 && decide (r.form = .G) && f.ksrc.toNat == p then .konst f.knum.toNat
  else match kind with
    | .V => .reg field.toNat
    | _ => .other

/-- Fields of an x word (R44). -/
def xBase (w : Word) : Nat := nfld w 0 8
def xLen (w : Word) : Nat := nfld w 8 9
def xIdx (w : Word) : Nat := nfld w 17 9

/-- The first lane register an operand names in a lane (R45). -/
def Operand.regIn (o : Operand) (c : Crew) (lane : Nat) : Nat :=
  match o with
  | .reg r => r
  | .indexed x off => xBase (c.x x lane) + xIdx (c.x x lane) + off
  | _ => 0

/-- The value of a source in a lane (R45, R135). -/
def Operand.value (o : Operand) (c : Crew) (lane : Nat) : Word :=
  match o with
  | .konst n => c.runConst n
  | .imm w => w
  | .other => 0
  | o => c.v (o.regIn c lane) lane

/-- The n registers from the operand's first lie in its limits: REGS for a direct one (R41, R133). -/
def Operand.outOfRegs (o : Operand) (regs n : Nat) : Bool :=
  match o with
  | .reg r => decide (regs < r + n)
  | _ => false

/-- The window check of an indexed operand in the lanes of E (R45, R173 order 4). -/
def Operand.outOfWindow (o : Operand) (c : Crew) (e : Mask) (n : Nat) : Bool :=
  match o with
  | .indexed x off => (lanesOf e).any (fun l => decide (xLen (c.x x l) < xIdx (c.x x l) + off + n))
  | _ => false

/-- A lane register is empty: the youngest write to some lane of it has not landed (R46). -/
def Crew.vEmpty (c : Crew) (r : Nat) : Bool := c.vTag.any (fun e => e.1 / 64 == r)

/-- A source of n registers is empty: for an indexed one, a register named in a lane of E is (R47). -/
def Operand.empty (o : Operand) (c : Crew) (e : Mask) (n : Nat) : Bool :=
  match o with
  | .reg r => (List.range n).any (fun j => c.vEmpty (r + j))
  | .indexed .. => (lanesOf e).any (fun l => (List.range n).any (fun j => c.vEmpty (o.regIn c l + j)))
  | _ => false

/-! The frame of a lane instruction: its issue checks, in the order of R173, before its own. -/

/-- What an instruction tells the frame: its operands, the group size of each position, and its class. -/
structure LaneSpec where
  instr : Instr
  /-- engine instruction outside its role (R13) -/
  badRole : Bool
  /-- a T operand at or above T, or another direct operand out of range (R173 order 2) -/
  badDirect : Bool
  collective : Bool
  groups : Nat × Nat × Nat × Nat
  /-- the destination field is read as a source (ST, CPY, ATOM CAS: R47) -/
  readsDest : Bool

/-- An ordinary instruction of single registers. -/
def LaneSpec.plain (i : Instr) : LaneSpec := ⟨i, false, false, false, (1, 1, 1, 1), false⟩

/-- The group size of a position. -/
def LaneSpec.group (p : LaneSpec) (pos : Nat) : Nat :=
  match pos with | 0 => p.groups.1 | 1 => p.groups.2.1 | 2 => p.groups.2.2.1 | _ => p.groups.2.2.2

/-- The lane registers of the crew's role in its grid (R30, R249). A register beyond its field is none of them. -/
def State.regsOf (s : State) (w : Workgroup) (c : Crew) : Nat := if s.beyondV then 0 else (s.gridOf w).regs c.role.toNat

/-- The instruction passes on after its own effect: the run ends if the end-of-run bit is set, which traps ILLOP after that
effect while a structure is open (R21). `c` is the crew with the effect. -/
def passOn (s : State) (w : Workgroup) (c : Crew) (f : LaneFields) : Result :=
  let p := c.run
  let k := s.cur.key
  if f.eor && !p.frames.isEmpty then .next ((s.put k w c).raise k (c.sideOf .lane) .illop 0 .lane false p.pc)
  else .next (s.put k w { c with prog := some { p.skip 12 with ended := f.eor } })

/-- The generic part of a lane instruction (R171, R173 orders 1 to 5): `run` is given the workgroup, the crew and E. -/
def laneIssue (s : State) (p : LaneSpec) (f : LaneFields) (run : Workgroup → Crew → Mask → Result) : Result :=
  acting s fun w c =>
    let e := c.executing f
    let full := laneMask (s.width w)
    let regs := s.regsOf w c
    let ops := fun n => operandAt p.instr f n
    let positions := [0, 1, 2, 3]
    let sources := if p.readsDest then [0, 1, 2, 3] else [1, 2, 3]
    let policy := fun n => n != 0 && flag f.pol (n - 1)
    let empty := fun n => (ops n).empty c e (p.group n)
    if p.badRole then trap s .role 0
    else if p.badDirect || positions.any (fun n => (ops n).outOfRegs regs (p.group n)) then trap s .range 0
    else if p.collective && e != full then trap s .illconv 0
    else if e = 0 then passOn s w c f
    else if positions.any (fun n => (ops n).outOfWindow c e (p.group n)) then trap s .range 0
    else if sources.any (fun n => policy n && empty n) then trap s .empty 0
    else if sources.any empty then .next s
    else run w c e

/-- Writing a value in every lane of E: `val` reads the crew as it was (R172). -/
def Crew.writeLanes (c : Crew) (e : Mask) (dst : Nat → Nat) (val : Nat → Word) : Crew :=
  (lanesOf e).foldl (fun x l => x.setV (dst l) l (val l)) c

/-- A lane-to-scalar result of the run in progress (R147). -/
def Crew.result (c : Crew) (r : Nat) (v : Word) : Crew :=
  if r = 0 then c
  else { c with prog := some { c.run with results := c.run.results.put r (1#1 ++ v) } }

/-- Source b of a two-source operation: the register, run constant or, in form I, parcel 2 (R132). -/
def sourceB (i : Instr) (f : LaneFields) : Operand :=
  if (rowOf i).form = .I then .imm f.p2 else operandAt i f 2

/-- An ordinary operation of sources a, b, c with a lane destination: `g` of the workgroup, the crew, the lane and the three
values in each lane of E. -/
def laneMapL (s : State) (i : Instr) (f : LaneFields) (g : Workgroup → Crew → Nat → Word → Word → Word → Word) : Result :=
  laneIssue s (.plain i) f fun w c e =>
    let a := operandAt i f 1
    let b := sourceB i f
    let cc := operandAt i f 3
    let d := operandAt i f 0
    passOn s w (c.writeLanes e (fun l => d.regIn c l) (fun l => g w c l (a.value c l) (b.value c l) (cc.value c l))) f

/-- The same, where only the values matter. -/
def laneMap (s : State) (i : Instr) (f : LaneFields) (g : Word → Word → Word → Word) : Result :=
  laneMapL s i f (fun _ _ _ => g)

/-- A comparison with a predicate destination. -/
def laneTest (s : State) (i : Instr) (f : LaneFields) (g : Word → Word → Bool) : Result :=
  laneIssue s (.plain i) f fun w c e =>
    let a := operandAt i f 1
    let b := sourceB i f
    let bits := (List.range 64).map (fun l => if g (a.value c l) (b.value c l) then 2 ^ l else 0)
    passOn s w (c.setPred f.dest.toNat e (BitVec.ofNat 64 bits.sum)) f

end Sys2Proof.Machine
end

