-- ==== Sys2Proof/Machine/Scalar.lean ====
section
/-! DEFINITION. Integer, logic and control-flow instructions of the scalar stream (07 R138 to R145). -/

namespace Sys2Proof.Machine

/-- A scalar instruction that completes before the next one: once its sources are full the crew becomes `f` of it, and its
program counter moves past n bytes (R138). -/
def simple (s : State) (srcs : List Reg) (n : Nat) (f : Crew → Crew) : Result :=
  acting s fun w c => if c.allFull srcs then .next (s.put s.cur.key w ((f c).advance n)) else .next s

/-- sd := f of the sources (R141 to R143). -/
def alu (s : State) (d : Reg) (srcs : List Reg) (f : Crew → Word) : Result :=
  simple s srcs 4 (fun c => c.setS d (f c))

/-- The shift count of SHL, SHR and SRA: bits 4:0 (R141). -/
def shiftOf (b : Word) : Nat := nfld b 0 5

/-- The immediate of the immediate class, sign-extended (R143). -/
def imm32 (i : BitVec 14) : Word := i.signExtend 32

/-- Bits 63:32 of the product (R141). -/
def mulHigh (signed : Bool) (a b : Word) : Word :=
  if signed then fld (a.signExtend 64 * b.signExtend 64) 32 32 else fld (a.zeroExtend 64 * b.zeroExtend 64) 32 32

/-- DIV, REM (R142): the quotient is rounded toward zero. -/
def divS (a b : Word) : Word := if b = 0 then BitVec.allOnes 32 else a.sdiv b
def remS (a b : Word) : Word := if b = 0 then a else a.srem b

/-- DIVU, REMU (R142). -/
def divU (a b : Word) : Word := if b = 0 then BitVec.allOnes 32 else a / b
def remU (a b : Word) : Word := if b = 0 then a else a % b

def minS (a b : Word) : Word := if a.slt b then a else b
def maxS (a b : Word) : Word := if a.slt b then b else a
def minU (a b : Word) : Word := if a.ult b then a else b
def maxU (a b : Word) : Word := if a.ult b then b else a

def clz32 (a : Word) : Word := BitVec.ofNat 32 (clzNat a)
def popc32 (a : Word) : Word := BitVec.ofNat 32 (popNat a)

def execAdd (d a b : Reg) (s : State) : Result := alu s d [a, b] (fun c => c.s a + c.s b)
def execSub (d a b : Reg) (s : State) : Result := alu s d [a, b] (fun c => c.s a - c.s b)
def execMul (d a b : Reg) (s : State) : Result := alu s d [a, b] (fun c => c.s a * c.s b)
def execMulh (d a b : Reg) (s : State) : Result := alu s d [a, b] (fun c => mulHigh true (c.s a) (c.s b))
def execMulhu (d a b : Reg) (s : State) : Result := alu s d [a, b] (fun c => mulHigh false (c.s a) (c.s b))
def execDiv (d a b : Reg) (s : State) : Result := alu s d [a, b] (fun c => divS (c.s a) (c.s b))
def execDivu (d a b : Reg) (s : State) : Result := alu s d [a, b] (fun c => divU (c.s a) (c.s b))
def execRem (d a b : Reg) (s : State) : Result := alu s d [a, b] (fun c => remS (c.s a) (c.s b))
def execRemu (d a b : Reg) (s : State) : Result := alu s d [a, b] (fun c => remU (c.s a) (c.s b))
def execAndR (d a b : Reg) (s : State) : Result := alu s d [a, b] (fun c => c.s a &&& c.s b)
def execOrR (d a b : Reg) (s : State) : Result := alu s d [a, b] (fun c => c.s a ||| c.s b)
def execXorR (d a b : Reg) (s : State) : Result := alu s d [a, b] (fun c => c.s a ^^^ c.s b)
def execShl (d a b : Reg) (s : State) : Result := alu s d [a, b] (fun c => c.s a <<< shiftOf (c.s b))
def execShr (d a b : Reg) (s : State) : Result := alu s d [a, b] (fun c => c.s a >>> shiftOf (c.s b))
def execSra (d a b : Reg) (s : State) : Result := alu s d [a, b] (fun c => (c.s a).sshiftRight (shiftOf (c.s b)))
def execMin (d a b : Reg) (s : State) : Result := alu s d [a, b] (fun c => minS (c.s a) (c.s b))
def execMax (d a b : Reg) (s : State) : Result := alu s d [a, b] (fun c => maxS (c.s a) (c.s b))
def execMinu (d a b : Reg) (s : State) : Result := alu s d [a, b] (fun c => minU (c.s a) (c.s b))
def execMaxu (d a b : Reg) (s : State) : Result := alu s d [a, b] (fun c => maxU (c.s a) (c.s b))
def execSlt (d a b : Reg) (s : State) : Result := alu s d [a, b] (fun c => boolWord ((c.s a).slt (c.s b)))
def execSltu (d a b : Reg) (s : State) : Result := alu s d [a, b] (fun c => boolWord ((c.s a).ult (c.s b)))
def execSeq (d a b : Reg) (s : State) : Result := alu s d [a, b] (fun c => boolWord (c.s a == c.s b))
def execClz (d a : Reg) (s : State) : Result := alu s d [a] (fun c => clz32 (c.s a))
def execPopc (d a : Reg) (s : State) : Result := alu s d [a] (fun c => popc32 (c.s a))
def execMov (d a : Reg) (s : State) : Result := alu s d [a] (fun c => c.s a)

/-- ADD64 on three pairs (R141). -/
def execAdd64 (d a b : Reg) (s : State) : Result :=
  simple s (pairOf a ++ pairOf b) 4 (fun c => c.setS2 d (c.s2 a + c.s2 b))

/-- ADDI (R141), which wraps; so the counts of R276 from 0xFFFF_FFE1 on, which that rule has trap BOUNDS, pass the program's test instead
(DESIGN CHOICE, log entry 126). -/
def execAddi (d a : Reg) (i : BitVec 14) (s : State) : Result := alu s d [a] (fun c => c.s a + imm32 i)
def execAndi (d a : Reg) (i : BitVec 14) (s : State) : Result := alu s d [a] (fun c => c.s a &&& imm32 i)
def execOri (d a : Reg) (i : BitVec 14) (s : State) : Result := alu s d [a] (fun c => c.s a ||| imm32 i)
def execXori (d a : Reg) (i : BitVec 14) (s : State) : Result := alu s d [a] (fun c => c.s a ^^^ imm32 i)
def execShli (d a : Reg) (sh : BitVec 5) (s : State) : Result := alu s d [a] (fun c => c.s a <<< sh.toNat)
def execShri (d a : Reg) (sh : BitVec 5) (s : State) : Result := alu s d [a] (fun c => c.s a >>> sh.toNat)
def execSrai (d a : Reg) (sh : BitVec 5) (s : State) : Result := alu s d [a] (fun c => (c.s a).sshiftRight sh.toNat)
def execLui (d : Reg) (i : BitVec 20) (s : State) : Result := alu s d [] (fun _ => i.zeroExtend 32 <<< 12)

/-- LI is a long instruction of 8 bytes (R143). -/
def execLi (d : Reg) (i : Word) (s : State) : Result := simple s [] 8 (fun c => c.setS d i)

def execSel (d a b c : Reg) (s : State) : Result := alu s d [a, b, c] (fun x => if x.s c = 0 then x.s b else x.s a)
def execLea (d a b : Reg) (sh : BitVec 5) (s : State) : Result := alu s d [a, b] (fun c => c.s a + c.s b <<< sh.toNat)

/-! Control flow (R128, R144, R145). Targets are counted in words from the instruction itself. -/

/-- The target of a branch or jump of n offset bits at pc (R128). -/
def target {n : Nat} (pc : Addr) (off : BitVec n) : Addr := pc + off.signExtend 52 * 4

/-- The crew at another address. -/
def Crew.goto (c : Crew) (pc : Addr) : Crew := { c with pc := pc }

/-- A control instruction: once its sources are full the crew becomes `f` of it, its program counter included. -/
def control (s : State) (srcs : List Reg) (f : Crew → Crew) : Result :=
  acting s fun w c => if c.allFull srcs then .next (s.put s.cur.key w (f c)) else .next s

def execBcond (cond : Cond) (a b : Reg) (off : BitVec 10) (s : State) : Result :=
  control s [a, b] (fun c => if condHolds cond (c.s a) (c.s b) then c.goto (target c.pc off) else c.advance 4)

def execJmp (off : BitVec 26) (s : State) : Result := control s [] (fun c => c.goto (target c.pc off))

/-- Bits 31:0 of the fall-through address (R144). -/
def Crew.link (c : Crew) : Word := fld (c.pc + 4) 0 32

def execJal (off : BitVec 26) (s : State) : Result :=
  control s [] (fun c => (c.setS 1 c.link).goto (target c.pc off))

/-- t within the current 4 GiB (R144). -/
def within4G (pc : Addr) (t : Word) : Addr := fld pc 32 20 ++ t

/-- JR: a target not a multiple of 4 traps ALIGN; sa is read before sd is written (R144). -/
def execJr (d a : Reg) (s : State) : Result :=
  acting s fun w c =>
    if !c.allFull [a] then .next s
    else if nfld (c.s a) 0 2 != 0 then trap s .align 0
    else .next (s.put s.cur.key w ((c.setS d c.link).goto (within4G c.pc (c.s a))))

def execLoop (a : Reg) (off : BitVec 10) (s : State) : Result :=
  control s [a] (fun c =>
    let n := c.s a - 1
    let c := c.setS a n
    if n = 0 then c.advance 4 else c.goto (target c.pc off))

end Sys2Proof.Machine
end

