-- ==== Sys2Proof/Machine/ScalarMem.lean ====
section
/-! DEFINITION. Scalar memory instructions, fences and waits (07 R149 to R154, R159, R160, R162; 05 R109, R111). An access
issues here; the events of Machine/Landing.lean perform it. -/

namespace Sys2Proof.Machine

/-- A scalar access about to issue. -/
def scalarAccess (c : Crew) (kind : AccessKind) (cls : MemClass) (scope : Scope) (parts : List Part) : Access where
  id := 0
  stream := .scalar
  kind := kind
  pc := c.pc
  cls := cls
  scope := scope
  scratch := false
  parts := parts
  alloc := cls != .nt
  order := []
  cross := []
  sides := []
  batch := none
  fields := none
  side := c.side
  entry := false

/-- One part of n bytes at an address, all of them accessed. -/
def onePart (addr n : Nat) (data : BitVec 128) (cmp : DWord) : Part where
  unit := 0
  half := 0
  addr := addr
  size := n
  bytes := firstBytes n
  data := data
  cmp := cmp
  dst := 0
  sp := 0
  pa := none
  held := none

/-- A 16-byte access is two single-copy-atomic halves (R103). -/
def Part.halves (p : Part) : List Part :=
  if p.size = 16 then
    [{ p with size := 8, bytes := p.bytes &&& 0xFF },
     { p with size := 8, bytes := p.bytes >>> 8, data := p.data >>> 64, half := 1, addr := p.addr + 8, sp := p.sp + 8,
              dst := p.dst + 2 }]
  else [p]

/-- Issuing a scalar access whose instruction has n bytes, once its counter has room (R50): `mark` marks destinations empty
with the access's number as their tag. -/
def issueScalar (s : State) (w : Workgroup) (c : Crew) (a : Access) (n : Nat) (mark : Crew → Nat → Crew) : Result :=
  if c.roomOn a.kind.path then .next (s.put s.cur.key w ((mark (c.issue a) c.nextId).advance n)) else .next s

/-- Issuing a scalar access to one part of global memory, which is translated before the scalar stream goes on: a walk that
fails holds the stream at its instruction (R326, R335, R336). -/
def issueGated (s : State) (w : Workgroup) (c : Crew) (a : Access) (p : Part) (mark : Crew → Nat → Crew) : Result :=
  match s.xlate w.die w.ctx a.kind.need p.addr with
  | .miss => .next (s.issueMiss s.cur.key .scalar a.kind.need p.addr)
  | .moving => .next s
  | .fail code => .next (s.holdFetch s.cur.key .scalar code p.addr)
  | .ok pa => issueScalar s w c { a with parts := [{ p with pa := some pa }] } 4 mark

/-- Bytes of a memory-class access (R149). -/
def sizeBytes (sz : BitVec 2) : Nat := 2 ^ sz.toNat

/-- The address of a memory-class access (R149). -/
def scalarAddr (c : Crew) (a : Reg) (off : BitVec 7) (sz : BitVec 2) : DWord :=
  c.s2 a + off.signExtend 64 * BitVec.ofNat 64 (sizeBytes sz)

/-- SLD (R149). -/
def execSld (d a : Reg) (off : BitVec 7) (cls : MemClass) (sc : Scope) (sz : BitVec 2) (s : State) : Result :=
  acting s fun w c =>
    let addr := scalarAddr c a off sz
    if !c.allFull (pairOf a) then .next s
    else trapsThen s
      (issueGated s w c (scalarAccess c (.sload d sz) cls sc []) (onePart addr.toNat (sizeBytes sz) 0 0)
        (fun c tag => if sz = 3 then (c.awaitS d tag).awaitS d.odd tag else c.awaitS d tag))
      [(misaligned addr (sizeBytes sz), .align, 0), (farAddr addr, .xlat, addr)]

/-- The registers SST reads for its data (R149). -/
def sstData (c : Crew) (d : Reg) (sz : BitVec 2) : DWord := if sz = 3 then c.s2 d else (c.s d).zeroExtend 64

/-- SST (R149); it ends replayability (R344). -/
def execSst (d a : Reg) (off : BitVec 7) (cls : MemClass) (sc : Scope) (sz : BitVec 2) (s : State) : Result :=
  acting s fun w c =>
    let addr := scalarAddr c a off sz
    if !c.allFull (pairOf a ++ if sz = 3 then pairOf d else [d]) then .next s
    else trapsThen s
      (issueGated s w.spoil c (scalarAccess c .store cls sc [])
        (onePart addr.toNat (sizeBytes sz) ((sstData c d sz).zeroExtend 128) 0) (fun c _ => c))
      [(misaligned addr (sizeBytes sz), .align, 0), (farAddr addr, .xlat, addr)]

/-- LDK: byte offset sa + imm14, formed exactly (R150); a fused consumer's stands above the producer's block (R249). -/
def execLdk (d a : Reg) (i : BitVec 14) (s : State) : Result :=
  acting s fun w c =>
    let o := (c.s a).toNat + i.toNat + (s.gridOf w).argBias c.side
    if !c.allFull [a] then .next s
    else trapsThen s
      (issueScalar s w c (scalarAccess c (.ldk d) .weak .dev [onePart o 4 0 0]) 4 (fun c tag => c.awaitS d tag))
      [(o % 4 != 0, .align, 0), (decide ((s.gridOf w).args.length < o + 4), .bounds, 0)]

/-- SATOM (R151); it ends replayability (R344). -/
def execSatom (d a b : Reg) (op : AtomOp) (sc : Scope) (wide : Bool) (s : State) : Result :=
  acting s fun w c =>
    let n := if wide then 8 else 4
    let addr := c.s2 a
    let get := fun r => if wide then c.s2 r else (c.s r).zeroExtend 64
    let regs := fun r => if wide then pairOf r else [r]
    if !c.allFull (pairOf a ++ regs b ++ if op = .cas then regs d else []) then .next s
    else trapsThen s
      (issueGated s w.spoil c (scalarAccess c (.satom d op wide) .strong sc [])
        (onePart addr.toNat n ((get b).zeroExtend 128) (get d))
        (fun c tag => if wide then (c.awaitS d tag).awaitS d.odd tag else c.awaitS d tag))
      [(misaligned addr n, .align, 0), (farAddr addr, .xlat, addr)]

/-! The lines of a core's arrays (R290). The spec gives neither how long a line is nor which ones a core carves for a workgroup. The model
numbers the lines of each array by shares, of 2,048 lines each, gives every resident a share of its own, and takes as one line of it the
lane registers of a crew slot (array 0), its scalar registers and queue (1), a tile (2), the blocks of a handle (3), 4,096 bytes of
scratchpad (4), or a codebook (5) (DESIGN CHOICE, log entry 20). -/

/-- Key of a line of a core's array. -/
def tagKey (array die core line : Nat) : Nat := ((array * 8 + die) * 64 + core) * 2 ^ 20 + line

/-- A line of a workgroup's share of an array. -/
structure ArrayLine where
  array : Nat
  line : Nat
  deriving DecidableEq, Repr

/-- The key of a line of a workgroup's share on its core. -/
def Workgroup.lineKey (w : Workgroup) (l : ArrayLine) : Nat := tagKey l.array w.die w.core (2048 * w.share + l.line)

/-- Lines of a workgroup's share are filled or written: each takes the tag of its context (R290). -/
def State.mark (s : State) (w : Workgroup) (ls : List ArrayLine) : State :=
  { s with tags := ls.foldl (fun (m : SMap Tag) l => m.insert (w.lineKey l) ⟨w.ctx, (s.ctx w.ctx).secure⟩) s.tags }

/-- The lines of the registers of a workgroup's crews that have started. -/
def Workgroup.crewLines (w : Workgroup) : List ArrayLine :=
  (w.crews.filter (fun e => decide (e.2.status ≠ .reserved))).flatMap (fun e => [⟨0, e.1 % 64⟩, ⟨1, e.1 % 64⟩])

/-! Fences and waits. -/

/-- An instruction that waits until a condition on the crew holds and then only passes on. -/
def waitFor (s : State) (srcs : List Reg) (ready : Crew → Bool) : Result :=
  acting s fun w c => if c.allFull srcs && ready c then .next (s.put s.cur.key w (c.advance 4)) else .next s

/-- The accesses of both streams that are not performed stay before later ones that touch a common byte (R109). -/
def Crew.crossing (c : Crew) : Crew := { c with orderX := c.open_ (fun a => !a.kind.transfer) }

/-- Accesses not performed that meet a condition, or that an order made before names. -/
def Crew.keepOrder (c : Crew) (old : List Nat) (p : Access → Bool) : List Nat := c.open_ (fun a => p a || old.contains a.id)

/-- What a fence of each kind waits for (R111, R152): `.rel` nothing, for it orders later accesses instead;
`.acq` the earlier strong loads and atomics; `.ar` every earlier access. Engine transfers and non-temporal stores are left out
(R95, R154). One memory serves every scope. -/
def fenceWaits (k : FenceKind) (a : Access) : Bool :=
  match k with
  | .rel => false
  | .acq => a.fenced && decide (a.cls = .strong) && !(match a.kind with | .store | .kvapp .. | .kvtrunc _ => true | _ => false)
  | .ar => a.fenced

/-- What a fence leaves behind it: what is not performed yet precedes every later access of both streams (R109), but for a store before a
later load, which `.rel` and `.acq` leave unordered (R111 and the store-buffering table after it; DEDUCED, log entry 25). -/
def Crew.fencedOrder (c : Crew) : Crew :=
  let reads := fun (a : Access) => a.fenced && !a.kind.onlyStores
  { c.crossing with
    orderS := c.keepOrder c.orderS reads
    orderL := c.keepOrder c.orderL reads
    orderW := c.keepOrder c.orderW Access.fenced }

/-- FENCE (R152): the queue-drained wait, the wait of its kind, then it completes. -/
def execFence (k : FenceKind) (_sc : Scope) (s : State) : Result :=
  acting s fun w c =>
    if c.drained && (c.open_ (fenceWaits k)).isEmpty then .next (s.put s.cur.key w (c.fencedOrder.advance 4)) else .next s

/-- Every non-temporal store and copy-out of the crew is performed (R95, R153). -/
def Crew.ntDone (c : Crew) : Bool :=
  c.flying.all (fun a => a.done || !(decide (a.cls = .nt) && a.kind.writes))

/-- DRAIN (R153). -/
def execDrain (_sc : Scope) (s : State) : Result := waitFor s [] (fun c => c.drained && c.ntDone)

/-- LSYNC puts the accesses of the lane stream that are not performed before everything later (R109, R148). -/
def Crew.afterRuns (c : Crew) : Crew :=
  let lane := fun (a : Access) => decide (a.stream = .lane) && !a.kind.transfer
  { c with orderS := c.keepOrder c.orderS lane, orderL := c.keepOrder c.orderL lane }

/-- LSYNC: the queue-drained wait; the accesses of the runs before it stay before every later access (R109, R148). -/
def execLsync (s : State) : Result :=
  acting s fun w c => if c.drained then .next (s.put s.cur.key w (c.afterRuns.advance 4)) else .next s

/-- Every instruction of every queued run has issued (R140). -/
def Crew.runsIssued (c : Crew) : Bool :=
  match c.queue, c.prog with
  | [], _ => true
  | [_], some p => p.ended
  | _, _ => false

/-- WAITC (R162). -/
def execWaitc (p : Path) (a : Reg) (s : State) : Result :=
  waitFor s [a] (fun c => c.runsIssued && (decide (63 ≤ (c.s a).toNat) || decide (c.counter p ≤ (c.s a).toNat)))

/-! Copy batches (R93, R159, R160). -/

def AccessKind.isCopy : AccessKind → Bool
  | .copyIn _ | .copyOut _ | .copyBook .. => true
  | _ => false

/-- The role may issue to the copy unit (R13). -/
def Crew.mayCopy (c : Crew) : Bool := c.role == 0 || c.role == 3

/-- The role may issue to the matrix unit (R13). -/
def Crew.mayMatrix (c : Crew) : Bool := c.role == 1 || c.role == 3

/-- The copies issued since the last seal take the batch's serial number. -/
def Crew.seal (c : Crew) (serial : Nat) : Crew :=
  { c with flying := c.flying.map (fun a => if a.kind.isCopy && a.batch.isNone then { a with batch := some serial } else a) }

/-- A copy of the batch has not landed. -/
def Crew.batchOpen (c : Crew) (serial : Nat) : Bool := c.flying.any (fun a => a.batch == some serial && !a.done)

/-- CPSEAL (R159): the batch takes the crew's next number; an empty batch lands at once. -/
def execCpseal (d : Reg) (bar : Option (BitVec 4)) (s : State) : Result :=
  acting s fun w c =>
    let valid := match bar with | some o => (w.bar o.toNat).valid | none => true
    let q := c.nextBatch
    let serial := c.nextId
    if !c.mayCopy then trap s .role 0
    else if !c.drained then .next s
    else if !valid then trap s .range 0
    else if c.batches.any (fun b => b.number == q) then .next s
    else
      let c := { (c.seal serial).setS d (q.zeroExtend 32) with nextBatch := q + 1, nextId := serial + 1 }
      if c.batchOpen serial then
        .next (s.put s.cur.key w ({ c with batches := c.batches ++ [({ serial := serial, number := q, bar := bar } : Batch)] }.advance 4))
      else .next (s.put s.cur.key (w.arriveAt bar) (c.advance 4))

/-- CPWAIT (R160). -/
def execCpwait (a : Reg) (n : BitVec 8) (s : State) : Result :=
  acting s fun w c =>
    if !c.allFull [a] then .next s
    else if !c.mayCopy then trap s .role 0
    else if c.batches.any (fun b => b.number == (c.s a).setWidth 8 + n) then .next s
    else .next (s.put s.cur.key w (c.advance 4))

/-! Barrier objects (R155, R156). -/

/-- An object that an instruction other than BINIT may not name (R155). -/
def Barrier.bad (b : Barrier) : Bool := !b.valid || b.ovf

def execBinit (o : BitVec 4) (a : Reg) (s : State) : Result :=
  acting s fun w c =>
    let n := (c.s a).toNat
    if !c.allFull [a] then .next s
    else trapsThen s (.next (s.put s.cur.key (w.putBar o.toNat (Barrier.init n)) (c.advance 4)))
      [(decide (n = 0 ∨ 4095 < n), .range, 0)]

/-- BEXP: both changes in one step, with one completion check (R155); a crew that waits traps when OVF is set (R156). -/
def Barrier.expect (b : Barrier) (arr bytes : Nat) : Barrier :=
  let b := if bytes = 0 then b else b.addBytes bytes
  (if arr = 0 then b else b.setArr arr).settle

def execBexp (o : BitVec 4) (a b : Reg) (s : State) : Result :=
  acting s fun w c =>
    let arr := (c.s a).toNat
    if !c.allFull [a, b] then .next s
    else trapsThen s
      (.next ((s.put s.cur.key (w.putBar o.toNat ((w.bar o.toNat).expect arr (c.s b).toNat)) (c.advance 4)).raiseWaits s.cur.key.wid))
      [((w.bar o.toNat).bad || decide (4095 < arr), .range, 0)]

/-- BARR: the queue-drained wait, a release at .wg, then ARRIVE (R113, R155). -/
def execBarr (o : BitVec 4) (s : State) : Result :=
  acting s fun w c =>
    if !(c.drained && c.fenced) then .next s
    else trapsThen s (.next (s.put s.cur.key (w.putBar o.toNat (w.bar o.toNat).arrive) (c.advance 4)))
      [((w.bar o.toNat).bad, .range, 0)]

/-- BWAIT: it waits until it has observed a PHASE other than its parity, or traps RANGE when OVF is set first (R155, R156). -/
def execBwait (o : BitVec 4) (par : Bool) (s : State) : Result :=
  acting s fun w c =>
    let idle := { c with waitBar := none }
    match c.waitBar with
    | some x =>
      if x.failed then trap (s.put s.cur.key w idle) .range 0
      else if x.passed then .next (s.put s.cur.key w (idle.advance 4))
      else .next s
    | none =>
      trapsThen s
        (if (w.bar o.toNat).phase != par then .next (s.put s.cur.key w (c.advance 4))
         else .next (s.put s.cur.key w { c with waitBar := some ⟨o, par, false, false⟩ }))
        [((w.bar o.toNat).bad, .range, 0)]

def execBtry (d : Reg) (o : BitVec 4) (par : Bool) (s : State) : Result :=
  acting s fun w c =>
    trapsThen s
      (.next (s.put s.cur.key w ((c.setS d (boolWord ((w.bar o.toNat).phase != par))).advance 4)))
      [((w.bar o.toNat).bad, .range, 0)]

end Sys2Proof.Machine
end

