-- ==== Sys2Proof/Machine/Burrow.lean ====
section
/-! DEFINITION. Burrow instructions (11 R227 to R236; 04 R101, R102; 24 R358). -/

namespace Sys2Proof.Machine

/-- How a Burrow instruction ends. -/
inductive BurrowEnd where
  | trap (code : FaultCode) (detail : DWord)
  /-- a status other than OK: no sequence changes (R228) -/
  | status (n : Nat)
  /-- status OK, with the sequences, the handle it opened or changed and the tile it wrote -/
  | ok (x : Context) (handle : Option Nat) (tile : Option (Nat × Tile))

/-- Status codes (R228). -/
def ssNotOpen : Nat := 1
def ssIsOpen : Nat := 2
def ssNoSnap : Nat := 3
def ssFull : Nat := 4
def ssPos : Nat := 5

/-- A handle lies in the context's grant (R227, R288). -/
def Context.grants (x : Context) (h : Nat) : Bool :=
  decide (x.hbase.toNat ≤ h ∧ h < x.hbase.toNat + x.hcount.toNat)

/-- The frame of a Burrow instruction: sources, PERM, RANGE of reserved fields, the accesses it must follow as an access of its crew
(R103, R109, R120), then its own tests in `run` (R228). `spoils`: it ends replayability (R344), and writes Burrow. The report of a PERM that has no virtual address carries DETAIL 0 (R333). -/
def burrow (s : State) (d : Reg) (srcs : List Reg) (perm reserved : Workgroup → Crew → Context → Bool) (spoils : Bool)
    (run : Workgroup → Crew → Context → BurrowEnd) : Result :=
  acting s fun w c =>
    let x := s.ctx w.ctx
    let w := if spoils then w.spoil else w
    if !c.allFull srcs then .next s
    else if perm w c x then trap s .perm 0
    else if reserved w c x then trap s .range 0
    else if !c.caughtUp spoils then .next s
    else match run w c x with
      | .trap code detail => trap s code detail
      | .status n => .next (s.put s.cur.key w ((c.setS d (BitVec.ofNat 32 n)).advance 4))
      | .ok x h t =>
        let w := match h with | some h => { w with handles := (h :: w.handles.erase h) } | none => w
        let w := match t with | some (n, img) => { w with tiles := w.tiles.put n img } | none => w
        .next (State.put { s with ctxs := s.ctxs.insert w.ctx x } s.cur.key w ((c.setS d 0).advance 4))

/-- The handle of sa, and its reserved half. -/
def handleOf (c : Crew) (a : Reg) : Nat := nfld (c.s a) 0 16
def highHalf (c : Crew) (a : Reg) : Nat := nfld (c.s a) 16 16

/-- A position and its reserved bits from bit `lo` on. -/
def posOf (c : Crew) (b : Reg) : Nat := nfld (c.s b) 0 24
def posReserved (c : Crew) (b : Reg) (lo : Nat) : Bool := (c.s b).toNat / 2 ^ lo != 0

/-- A Burrow instruction on one open sequence. -/
def onSeq (x : Context) (h : Nat) (f : Seq → BurrowEnd) : BurrowEnd :=
  match x.seqs.find? h with
  | some q => f q
  | none => .status ssNotOpen

/-- The context with a sequence replaced, leaves without references freed (R102). -/
def Context.putSeq (x : Context) (h : Nat) (q : Seq) : Context := { x with seqs := x.seqs.insert h q }.collect

/-- SSOPEN (R230). -/
def execSsopen (d a b : Reg) (s : State) : Result :=
  burrow s d [a, b] (fun _ c x => !x.grants (handleOf c a) || x.arenaSz == 0)
    (fun _ c _ => highHalf c a != 0 || highHalf c b != 0) true fun _ c x =>
      let h := handleOf c a
      match x.seqs.find? h with
      | some _ => .status ssIsOpen
      | none =>
        .ok { x with seqs := x.seqs.insert h ⟨nfld (c.s b) 0 8 + 1, nfld (c.s b) 8 8 + 1, [], 0, [], none⟩ } (some h) none

/-- SSCLOSE (R230). -/
def execSsclose (d a : Reg) (s : State) : Result :=
  burrow s d [a] (fun _ c x => !x.grants (handleOf c a)) (fun _ c _ => highHalf c a != 0) true fun _ c x =>
    let h := handleOf c a
    onSeq x h fun _ => .ok { x with seqs := x.seqs.erase h }.collect (some h) none

/-- Key of a piece in a head: 256 * layer + leaf. -/
def pieceKey (c : Crew) (b : Reg) : Nat := 256 * nfld (c.s b) 0 8 + nfld (c.s b) 8 8

/-- The layer and leaf of sb lie in the sequence's record (R231). -/
def pieceIn (c : Crew) (b : Reg) (q : Seq) : Bool := decide (nfld (c.s b) 0 8 < q.nlayer ∧ nfld (c.s b) 8 8 < q.leaves)

/-- SSLD (R231): the leaf is read and the tile written in one step, at its issue, also where another crew races it (R120, R209; DESIGN
CHOICE, log entry 100). -/
def execSsld (d a b : Reg) (t : BitVec 4) (s : State) : Result :=
  burrow s d [a, b] (fun _ c x => !x.grants (handleOf c a)) (fun _ c _ => highHalf c a != 0 || highHalf c b != 0) false
    fun w c x =>
      let h := handleOf c a
      if s.tileLimit w ≤ t.toNat then .trap .range 0
      else onSeq x h fun q =>
        if !pieceIn c b q then .trap .range 0
        else match q.head.find? (pieceKey c b) with
          | none => .ok x none (some (t.toNat, []))
          | some l =>
            if (x.leaves.get l).poisoned then .trap .stpoison (BitVec.ofNat 64 h)
            else .ok x none (some (t.toNat, (x.leaves.get l).bytes))

/-- SSST's write of a tile to the head leaf of a piece: in place, or to a fresh leaf for the head (R102, R231). A
poisoned leaf that only the head holds is freed and taken again as the fresh one (R358), so that such an SSST is never FULL (DESIGN
CHOICE, log entry 102). `takes`: Burrow holds the leaf, which one in a region whose fault is lasting does not, so that it stands in the
arena alone (R359). -/
def Context.storeLeaf (x : Context) (takes : Nat → Bool) (h : Nat) (q : Seq) (key : Nat) (tile : Tile) : BurrowEnd :=
  let leaf := fun (l : Nat) => ({ bytes := tile, poisoned := false, dirty := takes l } : Leaf)
  let fresh : BurrowEnd :=
    if !x.hasFree then .status ssFull
    else .ok ({ x with leaves := x.leaves.insert x.freshLeaf (leaf x.freshLeaf) }.putSeq h { q with head := q.head.insert key x.freshLeaf })
      (some h) none
  match q.head.find? key with
  | none => fresh
  | some l => if x.count l > 1 then fresh else .ok { x with leaves := x.leaves.insert l (leaf l) } (some h) none

/-- SSST (R231), whole in one step (R120; DESIGN CHOICE, log entry 100). -/
def execSsst (d a b : Reg) (t : BitVec 4) (s : State) : Result :=
  burrow s d [a, b] (fun _ c x => !x.grants (handleOf c a)) (fun _ c _ => highHalf c a != 0 || highHalf c b != 0) true
    fun w c x =>
      let h := handleOf c a
      if s.tileLimit w ≤ t.toNat then .trap .range 0
      else onSeq x h fun q =>
        if !pieceIn c b q then .trap .range 0 else x.storeLeaf (s.takesLeaf w.ctx) h q (pieceKey c b) (w.tiles.get t.toNat)

/-- The lowest-position snapshot other than the committed one (R232). -/
def Seq.evictable (q : Seq) : Option Nat := q.ring.keys.find? (fun p => q.cpos != some p)

/-- The ring with a snapshot of the head at pos (R232). -/
def Seq.snap (q : Seq) (pos : Nat) : SMap (SMap Nat) :=
  let ring := match q.ring.find? pos with
    | some _ => q.ring
    | none => if 16 ≤ q.ring.length then (match q.evictable with | some p => q.ring.erase p | none => q.ring) else q.ring
  ring.insert pos q.head

/-- SSSNAP (R232). -/
def execSssnap (d a b : Reg) (s : State) : Result :=
  burrow s d [a, b] (fun _ c x => !x.grants (handleOf c a)) (fun _ c _ => highHalf c a != 0 || posReserved c b 25) true
    fun _ c x =>
      let h := handleOf c a
      let pos := posOf c b
      onSeq x h fun q =>
        if pos < q.hpos then .status ssPos
        else .ok (x.putSeq h { q with hpos := pos, ring := if flag (c.s b) 24 then q.ring else q.snap pos }) (some h) none

/-- SSROLL (R233). -/
def execSsroll (d a b : Reg) (s : State) : Result :=
  burrow s d [a, b] (fun _ c x => !x.grants (handleOf c a)) (fun _ c _ => highHalf c a != 0 || posReserved c b 24) true
    fun _ c x =>
      let h := handleOf c a
      let pos := posOf c b
      onSeq x h fun q =>
        match q.ring.find? pos with
        | none => .status ssNoSnap
        | some refs =>
          .ok (x.putSeq h { q with head := refs, hpos := pos, ring := q.ring.filter (fun e => decide (e.1 ≤ pos)) }) (some h) none

/-- SSFORK (R234). -/
def execSsfork (d a b : Reg) (s : State) : Result :=
  burrow s d [a, b] (fun _ c x => !x.grants (handleOf c a) || !x.grants (highHalf c a))
    (fun _ c _ => posReserved c b 24) true fun _ c x =>
      let new := highHalf c a
      let pos := posOf c b
      onSeq x (handleOf c a) fun q =>
        if (x.seqs.find? new).isSome then .status ssIsOpen
        else match q.ring.find? pos with
          | none => .status ssNoSnap
          | some refs => .ok (x.putSeq new ⟨q.nlayer, q.leaves, refs, pos, [(pos, refs)], none⟩) (some new) none

/-- SSCOMMIT (R235). -/
def execSscommit (d a b : Reg) (s : State) : Result :=
  burrow s d [a, b] (fun _ c x => !x.grants (handleOf c a)) (fun _ c _ => highHalf c a != 0 || posReserved c b 24) true
    fun _ c x =>
      let h := handleOf c a
      let pos := posOf c b
      onSeq x h fun q =>
        match q.ring.find? pos with
        | none => .status ssNoSnap
        | some _ =>
          if (match q.cpos with | some p => decide (pos < p) | none => false) then .status ssPos
          else .ok (x.putSeq h { q with cpos := some pos, ring := q.ring.filter (fun e => decide (pos ≤ e.1)) }) (some h) none

end Sys2Proof.Machine
end

