-- ==== Sys2Proof/Machine/Engine.lean ====
section
/-! DEFINITION. Tile transfers, codebook loads, the tag table and the accumulators (07 R157, R158, R161, R163 to R166;
04 R88 to R94; 20 R318). -/

namespace Sys2Proof.Machine

/-! Tile transfers. -/

/-- The 32 rows of a tile transfer (R94, R157). -/
def tileRows (m : BufRec) (x y z : Word) (off : BitVec 16) : List Formed :=
  (List.range 32).map (fun (i : Nat) => m.form x.toInt (y.toInt + (i : Int)) z.toInt off.toInt 128)

/-- What the save area keeps of the rows of a transfer: the address of each, and which of its bytes are accessed (R348). -/
def rowsKept (rows : List Formed) : List (Nat × BitVec 128) :=
  rows.map (fun r => (r.addr.toNat, BitVec.ofNat 128 (((List.range 128).map (fun i => if r.accessed i then 2 ^ i else 0)).sum)))

/-- The eight 16-byte units of row i, with the data to store and the bytes that each receives. -/
def rowParts (row : Nat × BitVec 128) (i : Nat) (tile : Tile) (recv : Nat → Nat) : List Part :=
  (List.range 8).map (fun j =>
    { unit := 8 * i + j, half := 0, addr := row.1 + 16 * j, size := 16, bytes := fld row.2 (16 * j) 16,
      data := BitVec.ofNat 128 (leNat (SMap.slice tile (128 * i + 16 * j) 16)), cmp := BitVec.ofNat 64 (recv (8 * i + j)),
      dst := 0, sp := 0, pa := none, held := none })

def tileParts (rows : List (Nat × BitVec 128)) (tile : Tile) (recv : Nat → Nat) : List Part :=
  ((rows.zip (List.range 32)).map (fun p => rowParts p.1 p.2 tile recv)).flatten.flatMap Part.halves

/-- A row of a transfer lies beyond 2^52: its own address does (R84), or that of a byte of it that is accessed. A byte there that is not
accessed is zero or dropped as any other (R84). What an accessed one does no rule states: it traps XLAT with the row's address (DESIGN
CHOICE, log entry 109). -/
def Formed.farRow (r : Formed) : Bool :=
  farAddr r.addr || (List.range 128).any (fun i => r.accessed i && decide (2 ^ 52 ≤ r.addr.toNat + i))

/-- The checks that TLOAD and TSTORE share, in the order of R139 (R157, R158); then `run`. A transfer that performs no access
(`idle`: R251, R252) is not translated. -/
def tileIssue (s : State) (t : BitVec 4) (a b z : Reg) (m : BitVec 5) (bar : Option (BitVec 4)) (off : BitVec 16)
    (idle : Grid → Crew → Bool) (run : Workgroup → Crew → List Formed → Result) : Result :=
  acting s fun w c =>
    let g := s.gridOf w
    let rec_ := g.buf m.toNat
    let rows := tileRows rec_ (c.s a) (c.s b) (c.s z) off
    let far := if idle g c then none else (rows.find? Formed.farRow).map (·.addr)
    if !c.allFull [a, b, z] then .next s
    else trapsThen s (run w c rows)
      [(!c.mayCopy, .role, 0),
       (decide (s.tileLimit w ≤ t.toNat), .range, 0),
       (match bar with | some o => !(w.bar o.toNat).valid | none => false, .range, 0),
       (!rec_.ordinary, .bounds, 0),
       (rows.any (fun r => misaligned r.addr 16), .align, 0),
       (rows.any (·.bounds), .bounds, 0),
       (far.isSome, .xlat, far.getD 0)]

/-- TLOAD (R157); forwarded in a fused grid, it only receives its 4,096 bytes at its object (R251). -/
def execTload (t : BitVec 4) (a b z : Reg) (m : BitVec 5) (bar : Option (BitVec 4)) (off : BitVec 16) (s : State) : Result :=
  tileIssue s t a b z m bar off Grid.forwards fun w c rows =>
    if (s.gridOf w).forwards c then .next ((s.put s.cur.key (w.deliver bar 4096) (c.advance 8)).raiseWaits s.cur.key.wid)
    else
      let a := scalarAccess c (.tload t.toNat bar (rowsKept rows)) .weak .dev (tileParts (rowsKept rows) [] (fun _ => 16))
      issueScalar s w c { a with alloc := ((s.gridOf w).buf m.toNat).allocates } 8 (fun c _ => c)

/-- TSTORE reads the whole tile at issue (R94, R158); it ends replayability (R344). Of a transient buffer of a fused grid it
performs nothing (R252). -/
def execTstore (t : BitVec 4) (a b z : Reg) (m : BitVec 5) (off : BitVec 16) (s : State) : Result :=
  tileIssue s t a b z m none off Grid.elides fun w c rows =>
    if (s.gridOf w).elides c then .next (s.put s.cur.key w (c.advance 8))
    else
      let a := scalarAccess c (.tstore t.toNat (w.tiles.get t.toNat) (rowsKept rows)) .weak .dev
        (tileParts (rowsKept rows) (w.tiles.get t.toNat) (fun _ => 16))
      issueScalar s w.spoil c { a with alloc := ((s.gridOf w).buf m.toNat).allocates } 8 (fun c _ => c)

/-! Codebooks. -/

/-- Bytes of a codebook entry (R92, R161). -/
def entryBytes (code : BitVec 2) : Nat := 4 * 2 ^ code.toNat

/-- Residents of a core: workgroups that are not parked (R316). -/
def State.residents (s : State) (die core : Nat) : List Workgroup :=
  s.wgs.values.filter (fun w => decide (w.die = die ∧ w.core = core) && !w.parked)

/-- Codebooks a workgroup holds or is loading (R92). -/
def Workgroup.bookCount (w : Workgroup) : Nat :=
  let loading := (w.crews.values.map (fun c =>
    c.flying.filterMap (fun a => match a.kind with | .cbload b .. => if a.done then none else some b | _ => none))).flatten
  (w.books.keys ++ loading).eraseDups.length

/-- The codebook store of a core has a free codebook (R92). -/
def State.bookFree (s : State) (die core : Nat) : Bool :=
  decide (((s.residents die core).map Workgroup.bookCount).sum < Config.codebooks)

/-- The pieces of 256 entries of n bytes from an address on (R103, R161). -/
def bookParts (addr n : Nat) : List Part :=
  (List.range (256 * n / min n 8)).map (fun i =>
    { onePart (addr + min n 8 * i) (min n 8) 0 0 with unit := i, bytes := BitVec.allOnes 16 })

/-- CBLOAD (R92, R161): 256 entries, in parts of 8 bytes at most (R103); the scalar stream stays at it until they are in the
store, and then passes on. One whose entries run past 2^52 traps XLAT at its issue with its start address, and the codebook keeps its
entries (DESIGN CHOICE, log entry 109). -/
def execCbload (cb : BitVec 3) (a : Reg) (e : BitVec 2) (s : State) : Result :=
  acting s fun w c =>
    let n := entryBytes e
    let addr := c.s2 a
    if !c.allFull (pairOf a) then .next s
    else trapsThen s
      (if (w.books.find? cb.toNat).isSome || s.bookFree w.die w.core then
        issueScalar s w c (scalarAccess c (.cbload cb.toNat e []) .weak .dev (bookParts addr.toNat n)) 0 (fun c _ => c)
       else .next s)
      [(!c.mayCopy, .role, 0), (misaligned addr n, .align, 0),
       (farAddr (addr + BitVec.ofNat 64 (256 * n - 1)) || farAddr addr, .xlat, addr)]

/-! The tag table (R88 to R90, R163). -/

/-- Line number of an address (R88). -/
def lineOf (g : Grid) (a : DWord) : BitVec 44 := BitVec.ofNat 44 (nfld a 0 52 / 2 ^ (8 + g.tagLine))

def slotValid (x : BitVec 45) : Bool := flag x 44
def slotLine (x : BitVec 45) : BitVec 44 := fld x 0 44

/-- The way of a set that holds a line. -/
def TagSet.find (t : TagSet) (line : BitVec 44) : Option Nat :=
  (List.range 8).find? (fun way => slotValid (t.ways.get way) && slotLine (t.ways.get way) == line)

/-- The tree bits on the path to a way: bit 0, bit 1 or 2, bit 3 to 6, and the side each leads to (R88). -/
def treePath (way : Nat) : List (Nat × Bool) :=
  [(0, decide (4 ≤ way)), (1 + way / 4, decide (2 ≤ way % 4)), (3 + way / 2, decide (way % 2 = 1))]

/-- A touch of a way: the bits on its path point away from it (R88). -/
def touchTree (tree : BitVec 7) (way : Nat) : BitVec 7 :=
  (treePath way).foldl (fun t p => if p.2 then t &&& ~~~(BitVec.twoPow 7 p.1) else t ||| BitVec.twoPow 7 p.1) tree

/-- The victim of a set: its lowest invalid way, else the way the tree bits lead to (R88). -/
def TagSet.victim (t : TagSet) : Nat :=
  match (List.range 8).find? (fun way => !slotValid (t.ways.get way)) with
  | some way => way
  | none =>
    let half := if flag t.tree 0 then 1 else 0
    let pair := 2 * half + if flag t.tree (1 + half) then 1 else 0
    2 * pair + if flag t.tree (3 + pair) then 1 else 0

/-- The pair that TLOOK and TFILL write (R89). -/
def tagPair (g : Grid) (slot : Nat) (old : Option (BitVec 44)) (out : Nat) : DWord :=
  let line := match old with | some l => BitVec.ofNat 44 (l.toNat * 2 ^ g.tagLine) | none => 0
  (BitVec.ofNat 12 slot ++ line ++ 0#6 ++ BitVec.ofNat 2 out : BitVec 64)

/-- A tag operation on the set of an address: RANGE without a table, XLAT for bits 63:52 (R90, R163); `bad` is the
operation's own RANGE condition. -/
def tagIssue (s : State) (srcs : List Reg) (a : Reg) (bad : Grid → Crew → Nat → Bool)
    (run : Grid → Workgroup → Crew → Nat → TagSet → Result) : Result :=
  acting s fun w c =>
    let g := s.gridOf w
    let set := (lineOf g (c.s2 a)).toNat % g.tagSets
    if !c.allFull srcs then .next s
    else trapsThen s (run g w c set (w.tags.get set))
      [(g.tagSets == 0 || bad g c set, .range, 0), (farAddr (c.s2 a), .xlat, c.s2 a)]

def execTlook (d a : Reg) (s : State) : Result :=
  tagIssue s (pairOf a) a (fun _ _ _ => false) fun g w c set t =>
    match t.find (lineOf g (c.s2 a)) with
    | some way =>
      let w := { w with tags := w.tags.put set { t with tree := touchTree t.tree way } }
      .next (s.put s.cur.key w ((c.promise (pairWrites d (tagPair g (8 * set + way) none 2)) []).advance 4))
    | none =>
      let v := t.victim
      let x := t.ways.get v
      let pair := if slotValid x then tagPair g (8 * set + v) (some (slotLine x)) 1 else tagPair g (8 * set + v) none 0
      .next (s.put s.cur.key w ((c.promise (pairWrites d pair) []).advance 4))

def execTfill (d a b : Reg) (s : State) : Result :=
  tagIssue s (pairOf a ++ [b]) a (fun _ c set => (c.s b).toNat / 8 != set) fun g w c set t =>
    let line := lineOf g (c.s2 a)
    match t.find line with
    | some way =>
      let w := { w with tags := w.tags.put set { t with tree := touchTree t.tree way } }
      .next (s.put s.cur.key w ((c.promise (pairWrites d (tagPair g (8 * set + way) none 2)) []).advance 4))
    | none =>
      let way := (c.s b).toNat % 8
      let x := t.ways.get way
      let pair := if slotValid x then tagPair g (c.s b).toNat (some (slotLine x)) 1 else tagPair g (c.s b).toNat none 0
      let t := { ways := t.ways.put way (1#1 ++ line), tree := touchTree t.tree way }
      .next (s.put s.cur.key { w with tags := w.tags.put set t } ((c.promise (pairWrites d pair) []).advance 4))

def execTdrop (a : Reg) (s : State) : Result :=
  tagIssue s (pairOf a) a (fun _ _ _ => false) fun g w c set t =>
    let w := match t.find (lineOf g (c.s2 a)) with
      | some way => { w with tags := w.tags.put set { t with ways := t.ways.put way (t.ways.get way &&& ~~~(BitVec.twoPow 45 44)) } }
      | none => w
    .next (s.put s.cur.key w (c.advance 4))

/-! Accumulators (R164 to R166). -/

/-- Accumulators of the workgroup bound from its floor. -/
def Workgroup.floorBound (w : Workgroup) : Nat := (w.accs.values.filter (fun a => !a.pool)).length

/-- Accumulators bound from the pool. -/
def Workgroup.poolBound (w : Workgroup) : Nat := (w.accs.values.filter (fun a => a.pool)).length

/-- Free blocks of a core's pool: 64 less twice the floors of the residents, less the blocks of pool accumulators (R165). -/
def State.poolFree (s : State) (die core : Nat) : Nat :=
  Config.accBlocks - ((s.residents die core).map (fun w => 2 * (s.gridOf w).floor + 2 * w.poolBound)).sum

/-- A handle is bound, from the pool or from the floor: every element of both buffers is then +0, which writes their lines (R164, R165,
R290). -/
def State.bindAcc (s : State) (k : CrewKey) (w : Workgroup) (h : Nat) (pool : Bool) (c : Crew) : State :=
  (s.mark w [⟨3, h⟩]).put k { w with accs := w.accs.insert h ⟨pool, []⟩ } c

/-- AALLOC (R164). -/
def execAalloc (h : BitVec 5) (s : State) : Result :=
  acting s fun w c =>
    trapsThen s (.next (s.bindAcc s.cur.key w h.toNat false (c.advance 4)))
      [(!c.mayMatrix, .role, 0),
       ((w.accs.find? h.toNat).isSome || decide ((s.gridOf w).floor ≤ w.floorBound), .range, 0)]

/-- A waiting AGROW of a crew: its acceptance number, index and crew number, which order youth (R165). -/
structure Grower where
  key : CrewKey
  seq : Nat
  index : Nat
  number : Nat
  deriving DecidableEq, Repr

/-- One AGROW is younger than another: by acceptance number, then index, then crew number (R165). -/
def Grower.younger (a b : Grower) : Bool :=
  decide (b.seq < a.seq) || (a.seq == b.seq && (decide (b.index < a.index) || (a.index == b.index && decide (b.number < a.number))))

/-- The crew waits at an AGROW whose handle is unbound yet. One whose handle another crew has bound meanwhile takes no blocks and
is not denied: it traps RANGE at its next turn (DESIGN CHOICE, log entry 85). -/
def Workgroup.grows (w : Workgroup) (c : Crew) : Bool :=
  decide (c.status = .live) && match c.waitGrow with
    | some (_, h) => (w.accs.find? h.toNat).isNone
    | none => false

/-- The waiting AGROWs of a core. -/
def State.growers (s : State) (die core : Nat) : List Grower :=
  (s.wgs.filter (fun e => decide (e.2.die = die ∧ e.2.core = core) && !e.2.parked)).flatMap (fun e =>
    (e.2.crews.filter (fun x => e.2.grows x.2)).map (fun x =>
      ⟨⟨e.1, x.1⟩, e.2.seq, e.2.index, x.2.number⟩))

/-- The youngest of a list (R165); the oldest is found with the order reversed. -/
def extreme (before : Grower → Grower → Bool) : List Grower → Option Grower
  | [] => none
  | g :: gs =>
    match extreme before gs with
    | none => some g
    | some b => if before g b then some g else some b

/-- A waiting AGROW completes: bound (1) or denied (0) (R165). -/
def State.endGrow (s : State) (k : CrewKey) (bound : Bool) : State :=
  match s.find k with
  | some (w, c) =>
    match c.waitGrow with
    | some (d, h) =>
      let c := { (c.setS d (boolWord bound)) with waitGrow := none }.advance 4
      if bound then s.bindAcc k w h.toNat true c else s.put k w c
    | none => s
  | none => s

/-- Waiting AGROWs of the core, oldest first, take two blocks each while there are two (R165, R318). -/
def State.offerBlocks : Nat → State → Nat → Nat → State
  | 0, s, _, _ => s
  | n + 1, s, die, core =>
    if s.poolFree die core < 2 then s
    else
      match extreme (fun a b => b.younger a) (s.growers die core) with
      | some g => State.offerBlocks n (s.endGrow g.key true) die core
      | none => s

/-- No AGROW of another crew has waited longer on the core. -/
def State.growsFirst (s : State) (die core : Nat) (k : CrewKey) : Bool :=
  match extreme (fun a b => b.younger a) (s.growers die core) with
  | some g => g.key == k
  | none => true

/-- AGROW (R165): it binds when two blocks are free and no older one waits, else it waits for an offer or a denial. -/
def execAgrow (d : Reg) (h : BitVec 5) (s : State) : Result :=
  acting s fun w c =>
    trapsThen s
      (if decide (2 ≤ s.poolFree w.die w.core) && s.growsFirst w.die w.core s.cur.key then
        .next (s.bindAcc s.cur.key w h.toNat true ({ (c.setS d 1) with waitGrow := none }.advance 4))
       else .next (s.put s.cur.key w { c with waitGrow := some (d, h) }))
      [(!c.mayMatrix, .role, 0), ((w.accs.find? h.toNat).isSome, .range, 0)]

/-- An AFREE of a pool accumulator is in progress on a core (R165). -/
def State.freeing (s : State) (die core : Nat) : Bool :=
  (s.residents die core).any (fun w => w.crews.values.any (fun c =>
    match c.freeing with
    | some h => match w.accs.find? h.toNat with | some a => a.pool | none => false
    | none => false))

/-- The denial test of R165 on a core: fewer than two blocks are free, every workgroup with a waiting AGROW holds a pool
accumulator, and no AFREE of one is in progress. -/
def State.deadlocked (s : State) (die core : Nat) : Bool :=
  let gs := s.growers die core
  !gs.isEmpty && decide (s.poolFree die core < 2) && !s.freeing die core
    && gs.all (fun g => match s.wgs.find? g.key.wid with | some w => decide (0 < w.poolBound) | none => false)

/-- AGROW_DENIAL: the youngest waiting AGROW of the crew's core is denied, if that is this crew and the test holds. -/
def execAgrowDenial (k : CrewKey) (s : State) : Result :=
  match s.find k with
  | none => .next s
  | some (w, _) =>
    if s.deadlocked w.die w.core && (extreme Grower.younger (s.growers w.die w.core)).map (·.key) == some k then
      .next (s.endGrow k false)
    else .next s

/-- A handle is unbound; the operations on it that have not committed find it so (R166, R203), but for one that has raised ACCNONE
already: the resumed crew executes it anew (R334), and an unbinding before that is none after its issue. -/
def Workgroup.unbind (w : Workgroup) (h : Nat) : Workgroup :=
  { w with
    accs := w.accs.erase h
    crews := SMap.mapVals w.crews (fun c =>
      { c with mma := c.mma.map (fun m => if m.f.dest.toNat = h ∧ ¬m.trapped then { m with unbound := true } else m) }) }

end Sys2Proof.Machine
end

