-- ==== Sys2Proof/Machine/Formats.lean ====
section
/-! DEFINITION. Element formats and their codes (03 R57 to R64), format slots (R67 to R69), companding (R70, R71), block
quantisation (R62, R64), and the Philox generator (R77, R78). -/

namespace Sys2Proof

/-- A format slot f0 to f7 (R67). -/
abbrev Slot := BitVec 256

def Slot.fmt (f : Slot) : Nat := nfld f 0 6
def Slot.scale (f : Slot) : Nat := nfld f 6 2
def Slot.rnd (f : Slot) : Nat := nfld f 8 3
def Slot.mode (f : Slot) : Round := Round.ofCode f.rnd
def Slot.sat (f : Slot) : Bool := flag f 11
def Slot.ce (f : Slot) : Bool := flag f 12
/-- Breakpoint c_0 to c_16, in units of 1 / 65,536 (R70). -/
def Slot.brk (f : Slot) (i : Nat) : Nat := if i = 0 then 0 else if 16 ≤ i then 65536 else nfld f (16 * i) 16

/-- An element format code of a slot: listed in R57, below 0x30, not NONE. -/
def slotFormat (fmt : Nat) : Bool :=
  decide (1 ≤ fmt ∧ fmt ≤ 8) || decide (0x10 ≤ fmt ∧ fmt ≤ 0x13) || fmt == 0x18 || fmt == 0x19

/-- The SCALE that a format goes with (R68). -/
def formatScale (fmt : Nat) : Nat :=
  if 0x10 ≤ fmt ∧ fmt ≤ 0x13 then 1 else if fmt = 0x18 ∨ fmt = 0x19 then 2 else 0

/-- A format with a block scale (R197). -/
def blockFormat (fmt : Nat) : Bool := formatScale fmt != 0

/-- A format that may be companded (R68). -/
def compandable (fmt : Nat) : Bool := [0x04, 0x05, 0x07, 0x08, 0x10, 0x11, 0x12, 0x13].contains fmt

/-- A valid slot (R68). -/
def Slot.valid (f : Slot) : Bool :=
  if f.fmt = 0 then f == 0
  else slotFormat f.fmt && f.scale == formatScale f.fmt && decide (f.rnd ≤ 4) && nfld f 13 3 == 0
    && (!f.ce || (compandable f.fmt && (List.range 15).all (fun i => decide (f.brk i < f.brk (i + 1)))))

/-- Bits of an element (R57). -/
def elemBits (fmt : Nat) : Nat :=
  match fmt with
  | 0x01 | 0x06 => 32
  | 0x02 | 0x03 => 16
  | 0x08 | 0x12 | 0x19 => 4
  | _ => 8

/-- How an element's code is read and rounded: floating point; two's complement of a width, in steps of a power of two and
clamped; a DX element by its magnitude format (none: the integers 0 to 3 of DX4). -/
inductive Elem where
  | float (f : FFmt)
  | int (width : Nat) (step lo hi : Int)
  | dx (mag : Option FFmt)
  deriving DecidableEq, Repr

/-- The element of a format code (R58, R60, R61, R63). -/
def elemOf (fmt : Nat) : Elem :=
  match fmt with
  | 0x01 => .float fp32
  | 0x02 => .float fp16
  | 0x03 => .float bf16
  | 0x04 | 0x10 => .float e4m3
  | 0x05 | 0x11 => .float e5m2
  | 0x12 => .float e2m1
  | 0x07 => .int 8 0 (-128) 127
  | 0x08 => .int 4 0 (-8) 7
  | 0x13 => .int 8 (-6) (-127) 127
  | 0x18 => .dx (some e3m3)
  | 0x19 => .dx none
  | _ => .int 32 0 (-2147483648) 2147483647

/-- EMAX of a block format (R62). -/
def emax (fmt : Nat) : Int :=
  match fmt with | 0x10 => 8 | 0x11 => 15 | 0x12 => 2 | 0x13 => 0 | 0x19 => 1 | _ => 4

/-- Two's complement: the value of the low w bits. -/
def signedOf (w x : Nat) : Int := (BitVec.ofNat w x).toInt

/-- A magnitude of DX: the integers 0 to 3, or E3M3 (R63). -/
def dxMagnitude (mag : Option FFmt) (c : Nat) : Dy :=
  match mag with
  | some f => f.magnitude false c
  | none => ⟨false, c, 0⟩

/-- The magnitude code of DX that x rounds to, clamped (R64). -/
def dxRound (mag : Option FFmt) (mode : Round) (u24 : Nat) (x : Dy) : Nat :=
  match mag with
  | some f => min f.top (f.roundMag mode u24 false x)
  | none => min 3 (x.round mode u24 false 0)

/-- Bits of a DX magnitude code. -/
def dxBits (mag : Option FFmt) : Nat := match mag with | some _ => 6 | none => 2

/-- The value of an element without its block scale (R58, R60, R61, R63). -/
def Elem.decode (k : Elem) (code : Nat) : Num :=
  match k with
  | .float f => f.decode code
  | .int w step _ _ => .fin ((Dy.ofInt (signedOf w code)).shift step)
  | .dx mag =>
    let b := dxBits mag
    .fin { dxMagnitude mag (code % 2 ^ b) with neg := code / 2 ^ b % 2 == 1 }

/-- Largest finite magnitude M (R62, R70). -/
def Elem.largest (k : Elem) : Dy :=
  match k with
  | .float f => f.magnitude false f.top
  | .int _ step _ hi => (Dy.ofInt hi).shift step
  | .dx (some f) => f.magnitude false f.top
  | .dx none => ⟨false, 3, 0⟩

/-- Rounding into an integer element, then clamping: NaN gives 0, an infinity the limit (R60). -/
def intElem (w : Nat) (step lo hi : Int) (mode : Round) (u24 : Nat) (x : Num) : Nat :=
  let v : Int := match x with
    | .nan => 0
    | .inf neg => if neg then lo else hi
    | .fin d => satInt (let n : Int := d.round mode u24 false step; if d.neg then -n else n) lo hi
  (BitVec.ofInt w v).toNat

/-- Rounding into an element by mode and overflow rule (R65, R66); DX is rounded by blockDx. -/
def Elem.encode (k : Elem) (mode : Round) (sat : Bool) (u24 : Nat) (x : Num) : Nat :=
  match k with
  | .float f => f.encode mode sat u24 false x
  | .int w step lo hi => intElem w step lo hi mode u24 x
  | .dx mag => match x with
    | .fin d => (if d.neg then 2 ^ dxBits mag else 0) + dxRound mag mode u24 d
    | _ => 0

/-! Companding (R70, R71). -/

/-- M * C(|x| / M) with the sign of x, for x already divided by the block scale. -/
def Slot.curve (f : Slot) (big x : Dy) : Dy :=
  let a := x.abs
  if big.le a then x
  else
    let t := a.shift 4
    let e := min t.e big.e
    let i := ((t.steps e) / (big.steps e)).toNat
    let c := f.brk i
    let rise := f.brk (i + 1) - c
    let u := Dy.sum [big.mul ⟨false, c, 0⟩, t.mul ⟨false, rise, 0⟩, (big.mul ⟨false, i * rise, 0⟩).flip]
    { u.shift (-16) with neg := x.neg }

/-- The inverse of the curve, rounded to 11 significant bits; beyond the largest magnitude the curve is the identity
(DEDUCED, log entry 12). -/
def Slot.uncurve (f : Slot) (big v : Dy) : Dy :=
  let a := v.abs
  if big.lt a then v
  else
    let y := a.shift 16
    match (List.range 16).find? (fun i => y.le (big.mul ⟨false, f.brk (i + 1), 0⟩)) with
    | none => v
    | some i =>
      let c := f.brk i
      let rise := f.brk (i + 1) - c
      let n := Dy.sum [big.mul ⟨false, i * rise, 0⟩, y, (big.mul ⟨false, c, 0⟩).flip]
      if n.isZero then { Dy.zero with neg := v.neg }
      else
        let top := n.m * 2 ^ 64
        let q : Dy := ⟨v.neg, top / (16 * rise), n.e - 64⟩
        let step := q.log2 - 10
        ⟨v.neg, q.round .rne 0 (top % (16 * rise) != 0) step, step⟩

/-- dec_slot: the value of an element of slot f with its two exponents, 127 and 127 without a block scale (R71). -/
def decSlot (f : Slot) (code lo hi : Nat) : Num :=
  let k := elemOf f.fmt
  let second := match k with | .dx mag => code / 2 ^ (dxBits mag + 1) % 2 == 1 | _ => false
  if blockFormat f.fmt && (lo == 255 || (f.scale == 2 && hi == 255)) then .nan
  else
    let sh : Int := if blockFormat f.fmt then ((if second then hi else lo : Nat) : Int) - 127 else 0
    match k.decode code with
    | .fin v => .fin ((if f.ce then f.uncurve k.largest v else v).shift sh)
    | n => n

/-- round_slot with companding, for x already divided by the block scale (R66, R70). MX elements clamp whatever SAT says
(R62). -/
def roundSlot (f : Slot) (u24 : Nat) (x : Num) : Nat :=
  let k := elemOf f.fmt
  let y : Num := match x with
    | .fin d => .fin (if f.ce then f.curve k.largest d else d)
    | n => n
  k.encode f.mode (f.sat || blockFormat f.fmt) u24 y

/-! Block quantisation (R62, R64). -/

/-- A quantised block: its scale or e_lo, e_hi (0 for MX), and the element codes. -/
structure Block where
  lo : Nat
  hi : Nat
  codes : List Nat
  deriving DecidableEq, Repr

/-- The greatest magnitude of a list, +0 for none. -/
def greatest (xs : List Dy) : Dy := xs.foldl (fun m x => if m.lt x.abs then x.abs else m) Dy.zero

/-- sat(floor(log2 amax) - EMAX + 127, 0, top). -/
def scaleFor (fmt : Nat) (amax : Dy) (top : Nat) : Nat := (satInt (amax.log2 - emax fmt + 127) 0 top).toNat

/-- |x - q_rne(x, e)| (R64). -/
def dxError (mag : Option FFmt) (x : Dy) (e : Nat) : Dy :=
  let sh : Int := (e : Int) - 127
  ((dxMagnitude mag (dxRound mag .rne 0 (x.abs.shift (-sh)))).shift sh |>.sub x.abs).abs

/-- An MX block of finite values, not all zero. -/
def blockMx (f : Slot) (xs : List Dy) (u24 : List Nat) : Block :=
  let s := scaleFor f.fmt (greatest xs) 254
  ⟨s, 0, (xs.zip u24).map (fun p => roundSlot f p.2 (.fin (p.1.shift (127 - (s : Int)))))⟩

/-- A DX block of finite values, not all zero. -/
def blockDx (f : Slot) (mag : Option FFmt) (xs : List Dy) (u24 : List Nat) : Block :=
  let hi := scaleFor f.fmt (greatest xs) 254
  let low : Dy := match mag with | some _ => ⟨false, 1, -2⟩ | none => Dy.one
  let small := xs.filter (fun x => x.abs.lt (low.shift ((hi : Int) - 127)))
  let amaxLo := greatest small
  let lo := if amaxLo.isZero then hi else scaleFor f.fmt amaxLo hi
  ⟨lo, hi, (xs.zip u24).map (fun p =>
    let second := (dxError mag p.1 hi).lt (dxError mag p.1 lo)
    let e := if second then hi else lo
    (if second then 2 ^ (dxBits mag + 1) else 0) + (elemOf f.fmt).encode f.mode f.sat p.2 (.fin (p.1.shift (127 - (e : Int)))))⟩

/-- Quantising a block of 32 values with their draws (R62, R64). -/
def quantBlock (f : Slot) (xs : List Num) (u24 : List Nat) : Block :=
  let dx := f.scale == 2
  let ys := xs.map Num.dy
  if xs.any (fun x => match x with | .fin _ => false | _ => true) then ⟨255, if dx then 255 else 0, xs.map (fun _ => 0)⟩
  else if ys.all Dy.isZero then
    ⟨0, 0, ys.map (fun y => match elemOf f.fmt with
      | .float g => g.code y.neg 0
      | .int .. => 0
      | .dx mag => if y.neg then 2 ^ dxBits mag else 0)⟩
  else match elemOf f.fmt with
    | .dx mag => blockDx f mag ys u24
    | _ => blockMx f ys u24

/-! Philox4x32-10 (R77, R78). -/

/-- A counter or result of four words. -/
structure Four where
  w0 : Word
  w1 : Word
  w2 : Word
  w3 : Word
  deriving DecidableEq, Repr

/-- Halves of a 64-bit product. -/
def mulHi (a b : Word) : Word := BitVec.ofNat 32 (a.toNat * b.toNat / 2 ^ 32)
def mulLo (a b : Word) : Word := a * b

/-- n rounds. -/
def philoxRounds : Nat → Four → Word → Word → Four
  | 0, c, _, _ => c
  | n + 1, c, k0, k1 =>
    philoxRounds n
      ⟨mulHi 0xCD9E8D57 c.w2 ^^^ c.w1 ^^^ k0, mulLo 0xCD9E8D57 c.w2, mulHi 0xD2511F53 c.w0 ^^^ c.w3 ^^^ k1, mulLo 0xD2511F53 c.w0⟩
      (k0 + 0x9E3779B9) (k1 + 0xBB67AE85)

/-- philox(c, k) (R77). -/
def philox (c : Four) (k0 k1 : Word) : Four := philoxRounds 10 c k0 k1

end Sys2Proof
end

