-- ==== Sys2Proof/Machine/Launch.lean ====
section
/-! DEFINITION. Reading a launch record and its tables at acceptance (01 R33), and the admission checks (01 R32). -/

namespace Sys2Proof.Machine

/-- What reading a launch gives. -/
inductive LaunchRead where
  /-- a page is being moved: read again later -/
  | moving
  /-- the record itself cannot be read -/
  | fail (code : FaultCode) (va : Nat)
  | copy (r : LaunchCopy)
  deriving DecidableEq, Repr

/-- Bytes in 32-byte pieces as buffer records. -/
def bufRecords (bs : List Byte) : List (BitVec 256) :=
  (List.range 32).map (fun i => BitVec.ofNat 256 (leNat ((bs.drop (32 * i)).take 32)))

/-- ARGLEN as far as it is within its limit. -/
def LaunchCopy.argBytes (r : LaunchCopy) : Nat := if r.argLen ≤ 4096 then r.argLen else 0

/-- The copies of R33, with the splice image where it can be read (R245). Where the buffer records or the argument block cannot be
read, the copy has no buffer records. -/
def State.readLaunch (s : State) (c va : Nat) : LaunchRead :=
  match s.vread c va 512 with
  | .moving => .moving
  | .fail code va => .fail code va
  | .bytes bs =>
    let r : LaunchCopy := { record := BitVec.ofNat 4096 (leNat bs), bufs := [], args := [], splice := none }
    let image := s.vread c r.spliceAt (if r.spliceAt = 0 then 0 else 176)
    let r := match image with
      | .bytes is => if r.spliceAt = 0 then r else { r with splice := some (BitVec.ofNat 1408 (leNat is)) }
      | _ => r
    match s.vread c r.bufTab 1024, s.vread c r.argsAt r.argBytes, image with
    | .moving, _, _ | _, .moving, _ | _, _, .moving => .moving
    | .bytes ms, .bytes as, _ => .copy { r with bufs := bufRecords ms, args := as }
    | _, _, _ => .copy r

/-! Admission checks (R32). -/

/-- The cores of a context's partition (R361). -/
def State.coresOf (s : State) (c : Nat) : List (Nat × Nat) := (s.partitions.get (s.ctx c).part).cores

/-- The reserved bits of a launch record outside its roles and format slots: first bit and length (R28, R29, R31). -/
def reservedFields : List (Nat × Nat) :=
  [(0, 8), (10, 6), (23, 9), (34, 6), (8 * 0x00C, 32), (8 * 0x010 + 52, 12), (8 * 0x028 + 10, 2), (8 * 0x028 + 15, 17),
   (8 * 0x02C + 8, 24), (8 * 0x030 + 52, 12), (8 * 0x038 + 52, 12), (8 * 0x044, 32), (8 * 0x048 + 52, 12),
   (8 * 0x050 + 52, 12), (8 * 0x058 + 52, 12), (8 * 0x060, 256), (8 * 0x0C0, 512)]

/-- The reserved bits of a role descriptor (R30). -/
def roleReserved : List (Nat × Nat) := [(52, 12), (64, 8), (101, 3), (110, 2), (125, 3)]

/-- A role descriptor breaks RSVD: a reserved bit is set, or the role is absent and something is (R30, R32). -/
def LaunchCopy.roleRsvd (r : LaunchCopy) (role : Nat) : Bool :=
  roleReserved.any (fun p => r.roleBits role p.1 p.2 != 0) || (!r.present role && r.roleBits role 0 128 != 0)

/-- The one grid of a launch before anything is drawn, for its demands. -/
def LaunchCopy.alone (r : LaunchCopy) : Grid := { (default : Grid) with copy := r }

/-- Greatest occupancy of one core (R16). -/
def LaunchCopy.occupancy (r : LaunchCopy) : Nat := r.alone.demand.occupancy

/-- Bytes of a tag line (R31). -/
def LaunchCopy.lineBytes (r : LaunchCopy) : Nat := 256 * 2 ^ r.tagLine

/-- The conditions of R32 with their codes, in order; `cores` is the size of the context's partition. -/
def LaunchCopy.conditions (r : LaunchCopy) (cores : Nat) : List (Bool × Nat) :=
  let anyRole := fun (p : Nat → Bool) => r.roles.any p
  [ (r.magic != 0x4B5A || r.version != 1, 0x01),
    (reservedFields.any (fun p => nfld r.record p.1 p.2 != 0) || [0, 1, 2, 3].any r.roleRsvd, 0x02),
    (if r.split then r.present 3 || !(r.present 0 || r.present 1 || r.present 2)
     else r.present 0 || r.present 1 || r.present 2 || !r.present 3, 0x03),
    (decide (r.width < 32) && (r.present 1 || r.present 3), 0x04),
    (anyRole (fun ro => r.crewsMax ro == 0 || decide (64 < r.crewsMax ro) || r.crews ro == 0
        || decide (r.crewsMax ro < r.crews ro) || decide (r.crews ro * r.width < r.threads ro))
      || decide (64 < r.sum r.crewsMax), 0x05),
    (anyRole (fun ro => decide (r.regs ro < 8) || decide (256 < r.regs ro) || r.regs ro % 8 != 0), 0x06),
    (anyRole (fun ro => decide (16 < r.tiles ro)) || decide (16 < r.sum r.tiles), 0x07),
    (anyRole (fun ro => decide (32 < r.accFloor ro)) || decide (32 < r.sum r.accFloor), 0x08),
    (r.spBytes % 256 != 0 || decide (Config.scratchBytes < r.spBytes) || decide (5 ≤ r.tagLine) || decide (512 < r.tagSets)
      || decide (r.spBytes < r.tagSets * 8 * r.lineBytes), 0x09),
    (r.nwgx == 0 || r.nwgy == 0 || r.nwgz == 0 || decide (64 < r.batchField) || decide (4096 < r.argLen)
      || r.argLen % 4 != 0, 0x0A),
    (r.laneBase % 16 != 0 || anyRole (fun ro => r.entry ro % 4 != 0) || r.bufTab % 32 != 0 || r.argsAt % 4 != 0, 0x0B),
    ((List.range 8).any (fun n => !Slot.valid (r.fmtSlot n)), 0x0C),
    (r.occupancy == 0, 0x0D),
    (r.coresident && decide (r.occupancy * cores < r.total), 0x0E),
    (r.bufs.isEmpty, 0x0F) ]

/-- The first refusal cause that applies (R32). -/
def LaunchCopy.cause (r : LaunchCopy) (cores : Nat) : Option Nat := ((r.conditions cores).find? (·.1)).map (·.2)

/-- A refused launch: its completion record with RESULT 1 and the cause, and its signal (R32, R307); a refused child is no
longer outstanding (R35). -/
def State.refuseLaunch (s : State) (c : Nat) (copy : LaunchCopy) (cause : Nat) (queue : Option Nat) (seq : Nat)
    (info : BitVec 16) (parent : Option Parent) : State :=
  (s.complete c copy { result := 1, cause := cause, queue := queue, spliceInfo := info, seq := seq, done := 0, fault := 0 }).childDone
    parent

end Sys2Proof.Machine
end

