-- ==== Sys2Proof/Machine/Control.lean ====
section
/-! DEFINITION. Lane dispatch, specials, child launches, retirement and the system instructions (07 R146, R148, R167 to R169;
01 R18, R19, R34 to R37, R40; 06 R136). -/

namespace Sys2Proof.Machine

/-! LRUN. -/

/-- The scalar registers a lane instruction writes: lane-to-scalar destinations, pairs included (R146, R188). -/
def laneToScalar : Instr → List Nat
  | .vote f | .sample f | .accept f => [f.dest.toNat]
  | .redux f => if 6 ≤ f.subop.toNat then [f.dest.toNat, f.dest.toNat + 1] else [f.dest.toNat]
  | .isect f => [f.xreg.toNat]
  | _ => []

/-- The instruction ends its run (R137). -/
def endsRun (i : Instr) : Bool := match laneFieldsOf i with | some f => f.eor | none => true

/-- What reading a run gives: lane-to-scalar destinations, and the first instruction that is not to be had. -/
structure RunScan where
  dests : List Nat
  rest : Option Nat
  deriving DecidableEq, Repr

/-- Reading a run up to its first end-of-run bit, the instructions taken in the form `form` gives them, or to one that cannot be translated
now. A triple that does not decode and the end of the address space end the list too, for the run stops there (R136, R137). -/
def scanRun (g : Nat → CodeWord) (form : Instr → Instr) : Nat → Nat → RunScan
  | 0, _ => ⟨[], none⟩
  | n + 1, pc =>
    if 2 ^ 52 < pc + 12 then ⟨[], none⟩
    else match laneAt g pc with
    | .instr i =>
      if endsRun i then ⟨laneToScalar (form i), none⟩
      else
        let r := scanRun g form n (pc + 12)
        ⟨laneToScalar (form i) ++ r.dests, r.rest⟩
    | _ => ⟨[], some pc⟩

/-- Greatest number of instructions that a run can hold: its address space, 2^52 bytes. -/
def runFuel : Nat := 2 ^ 49

/-- The registers an LRUN names. -/
def lrunRegs (a : Reg) : List Reg := (List.range 8).map (fun i => a + BitVec.ofNat 6 i)

/-- Marking registers empty by number. -/
def Crew.awaitAll (c : Crew) (rs : List Nat) (tag : Nat) : Crew :=
  rs.foldl (fun (c : Crew) r => c.awaitS (BitVec.ofNat 6 r) tag) c

/-- The destinations that are new in a list, s0 left out. -/
def newDests (old ds : List Nat) : List Nat := (ds.filter (fun d => d != 0 && !old.contains d)).eraseDups

/-- LRUN (R146). It marks the destinations of the whole run. Where a word of the run cannot be translated at the LRUN the run is queued all the
same, so that the lane stream meets that word (R137), and the scalar stream stands behind the LRUN until the destinations from there on
are marked too (Run.rest; DEDUCED, log entry 27). -/
def execLrun (a : Reg) (off : Word) (s : State) : Result :=
  acting s fun w c =>
    if decide (8 ≤ c.queue.length) || !c.allFull (lrunRegs a) then .next s
    else
      let scan := scanRun (s.codeWord w c.side) ((s.gridOf w).laneForm c) runFuel (runAddr ((s.gridOf w).laneBaseFor c.side) off)
      let r : Run := { offset := off, k := (lrunRegs a).map c.s, tag := c.nextId, dests := newDests [] scan.dests, side := c.side,
                       rest := scan.rest, kept := if scan.rest.isSome then c.sTag.map (fun e => (e.1, c.sreg.get e.1)) else [] }
      .next (s.put s.cur.key w
        ({ (c.awaitAll r.dests c.nextId) with queue := c.queue ++ [r], nextId := c.nextId + 1 }.advance 8))

/-- A destination of a run is marked after its LRUN: it holds what it held then, for what an older write has put there since is superseded
(R147, R48). -/
def Crew.awaitLate (c : Crew) (r : Run) (d : Nat) : Crew :=
  { c with sreg := match r.kept.find? d with | some v => c.sreg.put d v | none => c.sreg }.awaitS (BitVec.ofNat 6 d) r.tag

/-- A run that has been read further. -/
def Run.readTo (r : Run) (scan : RunScan) : Run :=
  { r with dests := r.dests ++ newDests r.dests scan.dests, rest := scan.rest, kept := if scan.rest.isSome then r.kept else [] }

/-- A run that could not be read to its end at its LRUN is read on, as far as its code can be translated now. -/
def Crew.readRun (g : Side → Nat → CodeWord) (form : Instr → Instr) (c : Crew) : Crew :=
  match c.queue.find? (fun r => r.rest.isSome) with
  | none => c
  | some r =>
    let scan := scanRun (g r.side) form runFuel (r.rest.getD 0)
    let queue := c.queue.map (fun x => if x.tag = r.tag then r.readTo scan else x)
    { ((newDests r.dests scan.dests).foldl (fun (c : Crew) d => c.awaitLate r d) c) with queue := queue }

/-! Specials (R40, R54). -/

/-- The crew is live: it is neither reserved nor retired. A halted crew counts (R334). -/
def Crew.isLive (c : Crew) : Bool := decide (c.status = .live) || decide (c.status = .halted)

/-- Live crews of a role (R40). -/
def Workgroup.ncrews (w : Workgroup) (role : BitVec 2) : Nat :=
  (w.crews.values.filter (fun c => decide (c.role = role) && c.isLive)).length

/-- Coordinates of a workgroup in its grid (R312). -/
def Grid.wgx (g : Grid) (index : Nat) : Nat := index % g.copy.nwgx
def Grid.wgy (g : Grid) (index : Nat) : Nat := index / g.copy.nwgx % g.copy.nwgy
def Grid.wgz (g : Grid) (index : Nat) : Nat := index / (g.copy.nwgx * g.copy.nwgy)

/-- The `tid` of lane 0 of a crew: the threads of the role's crews of lower number. A crew that ended by EXIT keeps its
threads' places (R22, R347; DEDUCED, log entry 13). -/
def Workgroup.tidBase (w : Workgroup) (c : Crew) : Nat :=
  ((w.crews.values.filter (fun x => decide (x.role = c.role) && decide (x.number < c.number) && decide (x.status ≠ .reserved))).map
    (fun x => popNat x.live)).sum

/-- The `tid` of a lane (R22, R24). -/
def Workgroup.tid (w : Workgroup) (c : Crew) (lane : Nat) : Nat :=
  w.tidBase c + ((lanesOf c.live).filter (fun l => decide (l < lane))).length

/-- A special of 32 bits that is the same in every lane. A crew keeps its number when a lower one of its role ends by EXIT, so that `crew` may
then reach `ncrews`, which counts live crews (R25, R40; DEDUCED, log entry 13). -/
def State.special (s : State) (w : Workgroup) (c : Crew) (side : Side) (sp : Special) : Nat :=
  let g := s.gridOf w
  match sp with
  | .crew => c.number
  | .ncrews => w.ncrews c.role
  | .width => g.copy.width
  | .role => c.role.toNat
  | .wgx => g.wgx w.index
  | .wgy => g.wgy w.index
  | .wgz => g.wgz w.index
  | .nwgx => g.copy.nwgx
  | .nwgy => g.copy.nwgy
  | .nwgz => g.copy.nwgz
  | .core => w.core
  | .die => w.die
  | .depth => g.depthOf side
  | _ => 0

/-- Number of a core over the package. -/
def coreKey (die core : Nat) : Nat := Config.cores * die + core

/-- A core's clock count now: the count last read and what has elapsed since (R55, free value of log entry 5). -/
def State.clock (s : State) (w : Workgroup) : DWord := s.cycles.get (coreKey w.die w.core) + Config.elapsed s.tick

/-- The count a core's clock stands at. -/
def State.setClock (s : State) (w : Workgroup) (v : DWord) : State :=
  { s with cycles := s.cycles.put (coreKey w.die w.core) v }

/-- GETS (R148). -/
def execGets (d : Reg) (sp : Special) (s : State) : Result :=
  acting s fun w c =>
    match sp with
    | .cycles =>
      let v := s.clock w
      .next ((s.setClock w v).put s.cur.key w ((c.setS2 d v).advance 4))
    | .jcur => .next (s.put s.cur.key w ((c.setS2 d (w.jcur.get c.role.toNat)).advance 4))
    | sp => .next (s.put s.cur.key w ((c.setS d (BitVec.ofNat 32 (s.special w c c.side sp))).advance 4))

/-! Child grids. -/

/-- The bytes of the TYPE 1 packet with ORDER 0 and no DEP that LAUNCH writes into slot i (R301, R308). -/
def devPacket (i : Nat) (lrec : DWord) : List Byte :=
  leBytes 4 0x01000000 ++ leBytes 4 ((i + 1) % 2 ^ 32) ++ leBytes 8 lrec.toNat ++ leBytes 112 0

/-- Virtual address of slot i of a device queue (R308). -/
def devAddr (ring : DWord) (i : Nat) : Nat := ring.toNat + 128 * (i % Config.devSlots)

/-- LAUNCH puts a packet into the context's device queue, in the ring from which the front end will fetch it: a change of DEVQ is in
force for the next packet fetched (R289, R308; DEDUCED, log entry 111). The slot keeps the copies. Where the ring cannot be written nothing is,
and the front end meets that at the slot (DEDUCED, log entry 14). -/
def State.devPublish (s : State) (ctx : Nat) (slot : DevSlot) : State :=
  let x := s.ctx ctx
  let since := if x.devTake = x.devPut then s.tick else x.devSince
  { s with ctxs := s.ctxs.insert ctx { x with devSlots := x.devSlots.insert x.devPut slot, devPut := x.devPut + 1, devSince := since, devBare := false } }.post
    (.bytes ctx (devAddr x.devq x.devPut) none (devPacket x.devPut (slot.lrec.zeroExtend 64)))

/-- The device queue has a free slot (R308). -/
def Context.devFree (x : Context) : Bool := !x.devOff && decide (x.devPut - x.devTake < Config.devSlots)

/-- LAUNCH (R167, R34). -/
def execLaunch (d a : Reg) (s : State) : Result :=
  acting s fun w c =>
    let addr := c.s2 a
    let g := s.gridOf w
    let x := s.ctx w.ctx
    let depth := g.depthOf c.side
    let done := fun (s : State) (w : Workgroup) (v : Word) => Host.Outcome.next (s.put s.cur.key w ((c.promise [(d, v)] []).advance 4))
    if !c.allFull (pairOf a) then .next s
    else trapsThen s
      (if !(c.drained && c.fenced) then .next s
       else if !x.devFree then done s w.spoil 1
       else
         let child : Parent := ⟨s.cur.key.wid, w.launched⟩
         let w' := { w.spoil with children := w.children ++ [w.launched], launched := w.launched + 1 }
         let slot := fun r => ({ copy := r, depth := depth + 1, parent := some child, lrec := addr.setWidth 52, note := 0 } : DevSlot)
         match s.readLaunch w.ctx addr.toNat with
         | .moving => .next s
         | .fail _ _ => done (s.devPublish w.ctx (slot none)) w' 0
         | .copy r => done (s.devPublish w.ctx (slot (some r))) w' 0)
      [(depth == 12, .nestdepth, 0), (misaligned addr 64, .align, 0), (farAddr addr, .xlat, addr)]

/-- EXIT: the queue-drained wait, then the crew retires and its outstanding writes are cancelled (R37, R168, R350); in the producer's code of a fused grid it goes on in the
consumer's (R250). -/
def execExit (s : State) : Result :=
  acting s fun w c =>
    if !c.drained then .next s
    else match (s.gridOf w).afterExit c with
      | some (place, pc) => .next (s.put s.cur.key w { c with place := place, pc := pc })
      | none => .next (s.put s.cur.key w { c.cancel with status := .retired })

/-- CWAIT: it waits for the children launched before it (R35, R168). -/
def execCwait (s : State) : Result :=
  acting s fun w c =>
    let limit := c.waitKids.getD w.launched
    if w.children.any (fun k => decide (k < limit)) then .next (s.put s.cur.key w { c with waitKids := some limit })
    else .next (s.put s.cur.key w ({ c with waitKids := none }.advance 4))

/-! System instructions (R169, R136). -/

def execNop (s : State) : Result := acting s fun w c => .next (s.put s.cur.key w (c.advance 4))

/-- TRAP carries its code in the report (R169, R333). -/
def execTrap (code : BitVec 14) (s : State) : Result := trap s .trap (code.zeroExtend 64)

/-- BKPT: with DEBUG the crew halts after it and the event is reported; without, it is a NOP (R169, R334). -/
def execBkpt (s : State) : Result :=
  acting s fun w c =>
    if (s.ctx w.ctx).debug then
      .next ((s.report (s.reportOf w c c.side .breakpoint 0 .scalar false c.pc)).put s.cur.key w { c.advance 4 with status := .halted })
    else .next (s.put s.cur.key w (c.advance 4))

/-- A word or a triple of parcels that fails decode (R136). -/
def execIllop (_w0 _w1 _w2 : Word) (s : State) : Result := trap s .illop 0

end Sys2Proof.Machine
end

