-- ==== Sys2Proof/Machine/LaneInt.lean ====
section
/-! DEFINITION. Lane integer, logic, bit and move instructions (08 R174 to R177). -/

namespace Sys2Proof.Machine

/-- An exact result reduced modulo 2^32, or clamped to the range of the type (R174). -/
def intResult (signed sat : Bool) (r : Int) : Word :=
  if !sat then BitVec.ofInt 32 r
  else if signed then BitVec.ofInt 32 (satInt r (-2147483648) 2147483647)
  else BitVec.ofInt 32 (satInt r 0 4294967295)

/-- An operand read by type (R174). -/
def intVal (signed : Bool) (x : Word) : Int := if signed then x.toInt else x.toNat

/-- An integer operation of a and b, formed exactly (R174). -/
def laneInt (s : State) (i : Instr) (f : LaneFields) (g : Int → Int → Int → Int) : Result :=
  laneMap s i f fun a b c =>
    intResult f.signed f.sat (g (intVal f.signed a) (intVal f.signed b) (intVal f.signed c))

/-- The shift count of R176. -/
def shiftCount (b : Word) : Nat := b.toNat % 32

/-- BFE (R176). -/
def bitExtract (signed : Bool) (a b c : Word) : Word :=
  let pos := b.toNat % 32
  let len := min (c.toNat % 64) (32 - pos)
  let field := a.toNat / 2 ^ pos % 2 ^ len
  if signed && decide (0 < len) && flag a (pos + len - 1) then BitVec.ofInt 32 ((field : Int) - 2 ^ len) else BitVec.ofNat 32 field

/-- BFI (R176). -/
def bitInsert (a b c : Word) : Word :=
  let pos := c.toNat % 32
  let len := min (nfld c 8 6) (32 - pos)
  let mask : Word := BitVec.ofNat 32 ((2 ^ len - 1) * 2 ^ pos)
  (a &&& ~~~mask) ||| (BitVec.ofNat 32 (b.toNat % 2 ^ len * 2 ^ pos) &&& mask)

/-- BREV (R176). -/
def bitReverse (a : Word) : Word := BitVec.ofNat 32 ((List.range 32).map (fun i => if flag a i then 2 ^ (31 - i) else 0)).sum

/-- LOP (R176): the truth table applied bit by bit. -/
def tableWord (lut : BitVec 8) (a b c : Word) : Word :=
  BitVec.ofNat 32 ((List.range 32).map (fun i => if tableBit lut (flag a i) (flag b i) (flag c i) then 2 ^ i else 0)).sum

/-- IADD (R174). -/
def execIadd (f : LaneFields) (s : State) : Result := laneInt s (.iadd f) f fun a b _ => a + b

def execIaddI (f : LaneFields) (s : State) : Result := laneInt s (.iaddI f) f fun a b _ => a + b

/-- ISUB (R174). -/
def execIsub (f : LaneFields) (s : State) : Result := laneInt s (.isub f) f fun a b _ => a - b

def execIsubI (f : LaneFields) (s : State) : Result := laneInt s (.isubI f) f fun a b _ => a - b

/-- IMUL (R174). -/
def execImul (f : LaneFields) (s : State) : Result := laneInt s (.imul f) f fun a b _ => a * b

def execImulI (f : LaneFields) (s : State) : Result := laneInt s (.imulI f) f fun a b _ => a * b

/-- IMULH (R174): bits 63:32 of the product. -/
def execImulh (f : LaneFields) (s : State) : Result := laneInt s (.imulh f) f fun a b _ => a * b / 4294967296

def execImulhI (f : LaneFields) (s : State) : Result := laneInt s (.imulhI f) f fun a b _ => a * b / 4294967296

/-- IMAD (R174). -/
def execImad (f : LaneFields) (s : State) : Result := laneInt s (.imad f) f fun a b c => a * b + c

/-- IMIN (R174). -/
def execImin (f : LaneFields) (s : State) : Result := laneInt s (.imin f) f fun a b _ => min a b

def execIminI (f : LaneFields) (s : State) : Result := laneInt s (.iminI f) f fun a b _ => min a b

/-- IMAX (R174). -/
def execImax (f : LaneFields) (s : State) : Result := laneInt s (.imax f) f fun a b _ => max a b

def execImaxI (f : LaneFields) (s : State) : Result := laneInt s (.imaxI f) f fun a b _ => max a b

/-- IABS (R174). -/
def execIabs (f : LaneFields) (s : State) : Result := laneInt s (.iabs f) f fun a _ _ => (a.natAbs : Int)

/-- INEG (R174). -/
def execIneg (f : LaneFields) (s : State) : Result := laneInt s (.ineg f) f fun a _ _ => -a

/-- ISET (R175). -/
def execIset (f : LaneFields) (s : State) : Result := laneTest s (.iset f) f (intCompare f.signed f.subop.toNat)

def execIsetI (f : LaneFields) (s : State) : Result := laneTest s (.isetI f) f (intCompare f.signed f.subop.toNat)

/-- AND (R176). -/
def execLand (f : LaneFields) (s : State) : Result := laneMap s (.land f) f fun a b _ => a &&& b

def execLandI (f : LaneFields) (s : State) : Result := laneMap s (.landI f) f fun a b _ => a &&& b

/-- OR (R176). -/
def execLor (f : LaneFields) (s : State) : Result := laneMap s (.lor f) f fun a b _ => a ||| b

def execLorI (f : LaneFields) (s : State) : Result := laneMap s (.lorI f) f fun a b _ => a ||| b

/-- XOR (R176). -/
def execLxor (f : LaneFields) (s : State) : Result := laneMap s (.lxor f) f fun a b _ => a ^^^ b

def execLxorI (f : LaneFields) (s : State) : Result := laneMap s (.lxorI f) f fun a b _ => a ^^^ b

/-- ANDN (R176). -/
def execAndn (f : LaneFields) (s : State) : Result := laneMap s (.andn f) f fun a b _ => a &&& ~~~b

def execAndnI (f : LaneFields) (s : State) : Result := laneMap s (.andnI f) f fun a b _ => a &&& ~~~b

/-- NOT (R176). -/
def execLnot (f : LaneFields) (s : State) : Result := laneMap s (.lnot f) f fun a _ _ => ~~~a

/-- LOP (R176). -/
def execLop (f : LaneFields) (s : State) : Result := laneMap s (.lop f) f (tableWord f.lut)

/-- SHL (R176). -/
def execLshl (f : LaneFields) (s : State) : Result := laneMap s (.lshl f) f fun a b _ => a <<< shiftCount b

def execLshlI (f : LaneFields) (s : State) : Result := laneMap s (.lshlI f) f fun a b _ => a <<< shiftCount b

/-- SHR (R176). -/
def execLshr (f : LaneFields) (s : State) : Result := laneMap s (.lshr f) f fun a b _ => a >>> shiftCount b

def execLshrI (f : LaneFields) (s : State) : Result := laneMap s (.lshrI f) f fun a b _ => a >>> shiftCount b

/-- SRA (R176). -/
def execLsra (f : LaneFields) (s : State) : Result := laneMap s (.lsra f) f fun a b _ => a.sshiftRight (shiftCount b)

def execLsraI (f : LaneFields) (s : State) : Result := laneMap s (.lsraI f) f fun a b _ => a.sshiftRight (shiftCount b)

/-- ROTL (R176). -/
def execRotl (f : LaneFields) (s : State) : Result := laneMap s (.rotl f) f fun a b _ => a.rotateLeft (shiftCount b)

def execRotlI (f : LaneFields) (s : State) : Result := laneMap s (.rotlI f) f fun a b _ => a.rotateLeft (shiftCount b)

/-- POPC (R176). -/
def execLpopc (f : LaneFields) (s : State) : Result := laneMap s (.lpopc f) f fun a _ _ => BitVec.ofNat 32 (popNat a)

/-- CLZ (R176). -/
def execLclz (f : LaneFields) (s : State) : Result := laneMap s (.lclz f) f fun a _ _ => BitVec.ofNat 32 (clzNat a)

/-- BREV (R176). -/
def execBrev (f : LaneFields) (s : State) : Result := laneMap s (.brev f) f fun a _ _ => bitReverse a

/-- BFE (R176). -/
def execBfe (f : LaneFields) (s : State) : Result := laneMap s (.bfe f) f (bitExtract f.signed)

/-- BFI (R176). -/
def execBfi (f : LaneFields) (s : State) : Result := laneMap s (.bfi f) f bitInsert

/-- LEA (R176). -/
def execLlea (f : LaneFields) (s : State) : Result := laneMap s (.llea f) f fun a b _ => a + (b <<< f.subop.toNat)

def execLleaI (f : LaneFields) (s : State) : Result := laneMap s (.lleaI f) f fun a b _ => a + (b <<< f.subop.toNat)

/-- SEL by the predicate in SRCC (R177). -/
def execLsel (f : LaneFields) (s : State) : Result := laneMapL s (.lsel f) f fun _ c l a b _ => if flag (c.pred f.srcc.toNat) l then a else b

/-- MOV (R177). -/
def execLmov (f : LaneFields) (s : State) : Result := laneMap s (.lmov f) f fun a _ _ => a

/-- MOVI (R177). -/
def execMovi (f : LaneFields) (s : State) : Result := laneMap s (.movi f) f fun _ b _ => b

end Sys2Proof.Machine
end

