-- ==== Sys2Proof/Machine/LaneFloat.lean ====
section
/-! DEFINITION. Lane FP32, packed, conversion and quantisation instructions (08 R178 to R182; 09 R207, R208). -/

namespace Sys2Proof.Machine

/-- Place of an FP32 pattern that is not NaN in the order -inf < ... < -0 < +0 < ... < +inf (R178). -/
def fkey (w : Word) : Int := if flag w 31 then -(nfld w 0 31 : Int) - 1 else nfld w 0 31

def isNanWord (w : Word) : Bool := (ofF32 w).isNan

/-- FMIN and FMAX (R178): a NaN is ignored when the other operand is none. -/
def fpick (greater : Bool) (a b : Word) : Word :=
  if isNanWord a then (if isNanWord b then toF32 .nan else b)
  else if isNanWord b then a
  else if (if greater then decide (fkey a < fkey b) else decide (fkey b < fkey a)) then b else a

/-- FSET's conditions (R179): +0 and -0 compare equal. -/
def floatCompare (code : Nat) (a b : Word) : Bool :=
  let x := ofF32 a
  let y := ofF32 b
  let none_ := !x.isNan && !y.isNan
  let key := fun (w : Word) => if nfld w 0 31 = 0 then 0 else fkey w
  match code with
  | 0 => none_ && key a == key b
  | 1 => !none_ || key a != key b
  | 2 => none_ && decide (key a < key b)
  | 3 => none_ && decide (key a ≤ key b)
  | 4 => none_ && decide (key b < key a)
  | 5 => none_ && decide (key b ≤ key a)
  | 6 => none_
  | _ => !none_

/-- FCLASS (R180). -/
def floatClass (a : Word) : Word :=
  let ex := nfld a 23 8
  let fr := nfld a 0 23
  let neg := flag a 31
  let n := if ex = 255 then (if fr = 0 then (if neg then 0 else 7) else if flag a 22 then 9 else 8)
    else if ex = 0 then (if fr = 0 then (if neg then 3 else 4) else if neg then 2 else 5)
    else if neg then 1 else 6
  BitVec.ofNat 32 (2 ^ n)

/-- Format of a packed pair: TYPE 3 is BF16, TYPE 4 is FP16 (R181). -/
def pairFmt (type : Nat) : FFmt := if type = 3 then bf16 else fp16

/-- A packed operation, half by half (R181). -/
def packed (type : Nat) (g : Num → Num → Num → Num) (a b c : Word) : Word :=
  let m := pairFmt type
  let half := fun (lo : Nat) =>
    BitVec.ofNat 16 (m.rne (g (m.decode (nfld a lo 16)) (m.decode (nfld b lo 16)) (m.decode (nfld c lo 16))))
  half 16 ++ half 0

/-! Stochastic draws (R78). -/

/-- Position of the lane instruction in its run, modulo 65,536. -/
def State.position (s : State) (w : Workgroup) (c : Crew) : Nat :=
  match c.queue with
  | r :: _ => (c.run.pc - runAddr ((s.gridOf w).laneBaseFor r.side) r.offset).toNat / 12 % 65536
  | [] => 0

/-- The Philox words of a consumer: stream number, offset and element (R78). -/
def drawWords (c : Crew) (tid sid off j : Nat) : Four :=
  philox ⟨c.runConst 4, c.runConst 5, BitVec.ofNat 32 tid, BitVec.ofNat 32 (sid * 2 ^ 24 + off * 2 ^ 8 + j)⟩
    (c.runConst 6) (c.runConst 7)

/-- The 24-bit draw of stochastic rounding for element j of a lane (R65, R78). -/
def State.draw (s : State) (w : Workgroup) (c : Crew) (lane j : Nat) : Nat :=
  nfld (drawWords c (w.tid c lane) 1 (s.position w c) j).w0 8 24

/-- Format slot n of the workgroup's grid (R41). -/
def State.slot (s : State) (w : Workgroup) (n : Nat) : Slot := (s.gridOf w).copy.fmtSlot n

/-! Conversion (R182). -/

/-- A scalar type of CVT: a floating-point format, or an integer of a width and signedness (R131). -/
inductive CvtType where
  | float (f : FFmt)
  | int (width : Nat) (signed : Bool)
  deriving DecidableEq, Repr

def cvtType (code : Nat) : CvtType :=
  match code with
  | 0 => .int 32 false
  | 1 => .int 32 true
  | 2 => .float fp32
  | 3 | 6 => .float bf16
  | 4 | 5 => .float fp16
  | 7 => .float e4m3
  | 8 => .float e5m2
  | 9 => .int 8 true
  | 10 => .int 8 false
  | 11 => .int 16 true
  | _ => .int 16 false

/-- Bits of a type's field. -/
def CvtType.width (t : CvtType) : Nat := match t with | .float f => f.sign + 1 | .int w _ => w

/-- The exact value of a source field. -/
def CvtType.read (t : CvtType) (x : Nat) : Num :=
  match t with
  | .float f => f.decode x
  | .int w signed => .fin (Dy.ofInt (if signed then signedOf w x else ((x % 2 ^ w : Nat) : Int)))

/-- Range of an integer type. -/
def intRange (w : Nat) (signed : Bool) : Int × Int :=
  if signed then (-(2 ^ (w - 1) : Int), 2 ^ (w - 1) - 1) else (0, 2 ^ w - 1)

/-- A value as the destination type's bits, extended to 32 (R182). `clamp` is the instruction's SAT, which alone counts between
integers; `sat` takes in that of the slot. -/
def convert (src dst : CvtType) (mode : Round) (clamp sat : Bool) (u24 : Nat) (x : Nat) : Word :=
  let v := src.read x
  match dst with
  | .float f => BitVec.ofNat 32 (f.encode mode sat u24 false v)
  | .int w signed =>
    let r : Int := match src, v with
      | .int _ _, .fin d =>
        let n := d.steps d.e
        if clamp then satInt n (intRange w signed).1 (intRange w signed).2 else n
      | _, _ => match v with
        | .nan => 0
        | .inf neg => if neg then (intRange w signed).1 else (intRange w signed).2
        | .fin d =>
          let n : Int := d.round mode u24 false 0
          satInt (if d.neg then -n else n) (intRange w signed).1 (intRange w signed).2
    if signed then BitVec.ofInt 32 ((BitVec.ofInt w r).toInt) else BitVec.ofNat 32 (BitVec.ofInt w r).toNat

/-- CVT (R182). With a slot, R69 says that CVT uses every field of the slot and R182 that FMT, SCALE and CE are not used; the model
follows R182 (DESIGN CHOICE, log entry 115). -/
def execCvt (f : LaneFields) (s : State) : Result :=
  let src := cvtType f.type.toNat
  let dst := cvtType f.subop.toNat
  laneIssue s (.plain (.cvt f)) f fun w c e =>
    let sl := s.slot w f.fa.toNat
    let mode := if f.use then sl.mode else .rne
    let sat := f.sat || (f.use && sl.sat)
    let a := operandAt (.cvt f) f 1
    let d := operandAt (.cvt f) f 0
    let one := fun (l j x : Nat) => convert src dst mode f.sat sat (if decide (mode = .sr) then s.draw w c l j else 0) (x % 2 ^ src.width)
    let val := fun (l : Nat) =>
      let x := (a.value c l).toNat
      if f.type.toNat = 3 || f.type.toNat = 4 then
        BitVec.ofNat 32 ((one l 1 (x / 65536)).toNat * 65536 + (one l 0 (x % 65536)).toNat)
      else one l 0 x
    trapsThen s (passOn s w (c.writeLanes e (fun l => d.regIn c l) val) f) [(f.use && sl.fmt == 0, .fmtslot, 0)]

/-! Quantisation (R207, R208). -/

/-- Formats of QNT and DQT in element mode. -/
def elementFormat (fmt : Nat) : Bool := [0x02, 0x03, 0x04, 0x05, 0x07, 0x08].contains fmt

/-- What QNT and DQT share: the slot's format, block mode as a crew-collective of width 32 or 64; `val` is given the values of
a and each lane. -/
def quantise (s : State) (i : Instr) (f : LaneFields) (val : Workgroup → Crew → Slot → (Nat → Word) → Nat → Word) : Result :=
  let block := f.subop.toNat == 1
  laneIssue s { LaneSpec.plain i with collective := block } f fun w c e =>
    let sl := s.slot w f.fa.toNat
    let a := operandAt i f 1
    let d := operandAt i f 0
    trapsThen s (passOn s w (c.writeLanes e (fun l => d.regIn c l) (val w c sl (fun l => a.value c l))) f)
      [(!(if block then blockFormat sl.fmt else elementFormat sl.fmt), .fmtslot, 0),
       (block && decide (s.width w < 32), .range, 0)]

/-- The block of lane l: its first lane is 32 * (l / 32). -/
def blockLanes (l : Nat) : List Nat := (List.range 32).map (fun j => 32 * (l / 32) + j)

/-- A draw if the slot rounds stochastically. -/
def State.drawIf (s : State) (w : Workgroup) (c : Crew) (sl : Slot) (lane j : Nat) : Nat :=
  if decide (sl.mode = .sr) then s.draw w c lane j else 0

/-- QNT (R207). -/
def execQnt (f : LaneFields) (s : State) : Result :=
  quantise s (.qnt f) f fun w c sl a l =>
    if f.subop.toNat = 0 then BitVec.ofNat 32 (roundSlot sl (s.drawIf w c sl l 0) (ofF32 (a l)))
    else
      let ls := blockLanes l
      let b := quantBlock sl (ls.map (fun x => ofF32 (a x))) (ls.map (fun x => s.drawIf w c sl x 0))
      BitVec.ofNat 32 (b.codes.getD (l % 32) 0 + b.lo * 2 ^ 16 + b.hi * 2 ^ 24)

/-- DQT (R208): the value that the slot gives is rounded to FP32 by RNE and without saturation, whatever RND and SAT of the slot, which
R69 counts among the fields used (DESIGN CHOICE, log entry 115). -/
def execDqt (f : LaneFields) (s : State) : Result :=
  quantise s (.dqt f) f fun _ _ sl a l =>
    let eb := elemBits sl.fmt
    if f.subop.toNat = 0 then toF32 (decSlot sl ((a l).toNat % 2 ^ eb) 127 127)
    else
      let sc := a (32 * (l / 32))
      toF32 (decSlot sl ((a l).toNat % 2 ^ eb) (nfld sc 16 8) (nfld sc 24 8))

/-- FADD (R178). -/
def execFadd (f : LaneFields) (s : State) : Result := laneMap s (.fadd f) f fun a b _ => fsum [ofF32 a, ofF32 b]

def execFaddI (f : LaneFields) (s : State) : Result := laneMap s (.faddI f) f fun a b _ => fsum [ofF32 a, ofF32 b]

/-- FSUB (R178). -/
def execFsub (f : LaneFields) (s : State) : Result := laneMap s (.fsub f) f fun a b _ => fsum [ofF32 a, (ofF32 b).flip]

def execFsubI (f : LaneFields) (s : State) : Result := laneMap s (.fsubI f) f fun a b _ => fsum [ofF32 a, (ofF32 b).flip]

/-- FMUL (R178). -/
def execFmul (f : LaneFields) (s : State) : Result := laneMap s (.fmul f) f fun a b _ => toF32 ((ofF32 a).mul (ofF32 b))

def execFmulI (f : LaneFields) (s : State) : Result := laneMap s (.fmulI f) f fun a b _ => toF32 ((ofF32 a).mul (ofF32 b))

/-- FFMA (R178). -/
def execFfma (f : LaneFields) (s : State) : Result := laneMap s (.ffma f) f fun a b c => fsum [(ofF32 a).mul (ofF32 b), ofF32 c]

/-- FMIN (R178). -/
def execFmin (f : LaneFields) (s : State) : Result := laneMap s (.fmin f) f fun a b _ => fpick false a b

def execFminI (f : LaneFields) (s : State) : Result := laneMap s (.fminI f) f fun a b _ => fpick false a b

/-- FMAX (R178). -/
def execFmax (f : LaneFields) (s : State) : Result := laneMap s (.fmax f) f fun a b _ => fpick true a b

def execFmaxI (f : LaneFields) (s : State) : Result := laneMap s (.fmaxI f) f fun a b _ => fpick true a b

/-- FSET (R179). -/
def execFset (f : LaneFields) (s : State) : Result := laneTest s (.fset f) f (floatCompare f.subop.toNat)

def execFsetI (f : LaneFields) (s : State) : Result := laneTest s (.fsetI f) f (floatCompare f.subop.toNat)

/-- FRCP (R76). -/
def execFrcp (f : LaneFields) (s : State) : Result := laneMap s (.frcp f) f fun a _ _ => frcp a

/-- FRSQ (R76). -/
def execFrsq (f : LaneFields) (s : State) : Result := laneMap s (.frsq f) f fun a _ _ => frsq a

/-- FSQRT (R76). -/
def execFsqrt (f : LaneFields) (s : State) : Result := laneMap s (.fsqrt f) f fun a _ _ => fsqrt a

/-- FEXP2 (R76). -/
def execFexp2 (f : LaneFields) (s : State) : Result := laneMap s (.fexp2 f) f fun a _ _ => fexp2 a

/-- FLOG2 (R76). -/
def execFlog2 (f : LaneFields) (s : State) : Result := laneMap s (.flog2 f) f fun a _ _ => flog2 a

/-- FCLASS (R180). -/
def execFclass (f : LaneFields) (s : State) : Result := laneMap s (.fclass f) f fun a _ _ => floatClass a

/-- HADD2 (R181). -/
def execHadd2 (f : LaneFields) (s : State) : Result := laneMap s (.hadd2 f) f (packed f.type.toNat fun a b _ => Num.sum [a, b])

def execHadd2I (f : LaneFields) (s : State) : Result := laneMap s (.hadd2I f) f (packed f.type.toNat fun a b _ => Num.sum [a, b])

/-- HMUL2 (R181). -/
def execHmul2 (f : LaneFields) (s : State) : Result := laneMap s (.hmul2 f) f (packed f.type.toNat fun a b _ => a.mul b)

def execHmul2I (f : LaneFields) (s : State) : Result := laneMap s (.hmul2I f) f (packed f.type.toNat fun a b _ => a.mul b)

/-- HFMA2 (R181). -/
def execHfma2 (f : LaneFields) (s : State) : Result := laneMap s (.hfma2 f) f (packed f.type.toNat fun a b c => Num.sum [a.mul b, c])

end Sys2Proof.Machine
end

