-- ==== Sys2Proof/Machine/LaneCross.lean ====
section
/-! DEFINITION. Lane predicates, index registers, specials and cross-lane instructions (08 R183 to R189), MATCH and ISECT
(10 R222, R223), RAND, TOPK, SAMPLE and ACCEPT (11 R241 to R244; 03 R79). -/

namespace Sys2Proof.Machine

/-! Predicates (R183). -/

/-- A mask from the lanes where a condition holds. -/
def maskWhere (p : Nat → Bool) : Mask := BitVec.ofNat 64 ((List.range 64).map (fun l => if p l then 2 ^ l else 0)).sum

/-- PLOP (R183). -/
def execPlop (f : LaneFields) (s : State) : Result :=
  laneIssue s (.plain (.plop f)) f fun w c e =>
    let p := fun (x : BitVec 8) (l : Nat) => flag (c.pred x.toNat) l
    passOn s w (c.setPred f.dest.toNat e (maskWhere fun l => tableBit f.lut (p f.srca l) (p f.srcb l) (p f.srcc l))) f

/-! Index registers (R44, R184). -/

/-- How far a fused consumer's windows are moved (R249): BASE keeps its 8 bits, so that XGET gives the consumer's word back. -/
def State.xBias (s : State) (w : Workgroup) (c : Crew) : Nat :=
  match (s.gridOf w).fused, c.sideOf .lane with
  | some _, .consumer => (s.gridOf w).copy.regs c.role.toNat
  | _, _ => 0

/-- An x word. -/
def xWord (base len idx : Nat) : Word := BitVec.ofNat 32 (base + len * 2 ^ 8 + idx * 2 ^ 17)

/-- Writing x register n in every lane of E. -/
def Crew.writeX (c : Crew) (e : Mask) (n : Nat) (val : Nat → Word) : Crew :=
  (lanesOf e).foldl (fun (x : Crew) l => x.setX n l (val l)) c

/-- XSET and XADD: every lane of E is checked before any changes. `word` gives each lane's new word from the operand. -/
def setIndex (s : State) (i : Instr) (f : LaneFields) (imm : Bool) (bad : Workgroup → Crew → Nat → Word → Bool)
    (word : Workgroup → Crew → Nat → Word → Word) : Result :=
  laneIssue s (.plain i) f fun w c e =>
    let a := if imm then Operand.imm f.p2 else operandAt i f 1
    trapsThen s (passOn s w (c.writeX e f.dest.toNat (fun l => word w c l (a.value c l))) f)
      [((lanesOf e).any (fun l => bad w c l (a.value c l)), .range, 0)]

/-- XSET's checks (R184). -/
def State.badWindow (s : State) (w : Workgroup) (c : Crew) (_l : Nat) (x : Word) : Bool :=
  nfld x 26 6 != 0 || decide (256 < xLen x) || decide (s.regsOf w c < xBase x + s.xBias w c + xLen x)

def State.newWindow (s : State) (w : Workgroup) (c : Crew) (_l : Nat) (x : Word) : Word :=
  xWord ((xBase x + s.xBias w c) % 256) (xLen x) (xIdx x)

def execXset (f : LaneFields) (s : State) : Result := setIndex s (.xset f) f false s.badWindow s.newWindow
def execXsetI (f : LaneFields) (s : State) : Result := setIndex s (.xsetI f) f true s.badWindow s.newWindow

/-- The index that XADD makes (R184). -/
def movedIndex (c : Crew) (n l : Nat) (x : Word) : Int := (xIdx (c.x n l) : Int) + x.toInt

def badIndex (n : Nat) (_w : Workgroup) (c : Crew) (l : Nat) (x : Word) : Bool :=
  decide (movedIndex c n l x < 0 ∨ 511 < movedIndex c n l x)

def newIndex (n : Nat) (_w : Workgroup) (c : Crew) (l : Nat) (x : Word) : Word :=
  xWord (xBase (c.x n l)) (xLen (c.x n l)) (movedIndex c n l x).toNat

def execXadd (f : LaneFields) (s : State) : Result :=
  setIndex s (.xadd f) f false (badIndex f.dest.toNat) (newIndex f.dest.toNat)
def execXaddI (f : LaneFields) (s : State) : Result :=
  setIndex s (.xaddI f) f true (badIndex f.dest.toNat) (newIndex f.dest.toNat)

/-- XGET (R184): in a fused consumer BASE is given without the bias that XSETI and the others add (R249), also where the word was never
set (DESIGN CHOICE, log entry 104). -/
def execXget (f : LaneFields) (s : State) : Result :=
  laneMapL s (.xget f) f fun w c l _ _ _ =>
    let x := c.x f.srca.toNat l
    xWord ((xBase x + 256 - s.xBias w c) % 256) (xLen x) (xIdx x)

/-! Specials (R185). -/

/-- GETL (R185): a count of `cycles`, which every lane's write takes as it issues, lands later (R46). -/
def execGetl (f : LaneFields) (s : State) : Result :=
  let i := Instr.getl f
  match f.special with
  | .cycles =>
    laneIssue s { LaneSpec.plain i with groups := (2, 1, 1, 1) } f fun w c e =>
      let v := s.clock w
      let d := f.dest.toNat
      passOn (s.setClock w v) w
        (c.promise [] ((lanesOf e).flatMap (fun l => [(laneKey d l, fld v 0 32), (laneKey (d + 1) l, fld v 32 32)]))) f
  | sp =>
    laneMapL s i f fun w c l _ _ _ =>
      match sp with
      | .tid => BitVec.ofNat 32 (w.tid c l)
      | .lane => BitVec.ofNat 32 l
      | sp => BitVec.ofNat 32 (s.special w c (c.sideOf .lane) sp)

/-! Cross-lane (R186 to R189). -/

/-- The source lane that a route word names in lane l; none: outside the crew (R186). -/
def routeLane (mode width l : Nat) (r : Word) : Option Nat :=
  match mode with
  | 0 => some (r.toNat % width)
  | 1 => some (((l : Int) + r.toInt) % width).toNat
  | 2 => let j := (l : Int) + r.toInt; if 0 ≤ j ∧ j < width then some j.toNat else none
  | _ => some (l ^^^ (r.toNat % width))

/-- A source's value as held in lane j, under lane l's index (R186). -/
def Operand.heldIn (o : Operand) (c : Crew) (l j : Nat) : Word :=
  match o with
  | .reg _ | .indexed .. => c.v (o.regIn c l) j
  | o => o.value c l

/-- ROUTE (R186). -/
def route (s : State) (i : Instr) (f : LaneFields) : Result :=
  laneMapL s i f fun w c l _ r fill =>
    match routeLane f.subop.toNat (s.width w) l r with
    | some j => (operandAt i f 1).heldIn c l j
    | none => fill

def execRoute (f : LaneFields) (s : State) : Result := route s (.route f) f
def execRouteI (f : LaneFields) (s : State) : Result := route s (.routeI f) f

/-- VOTE over the lanes of E where pa is true (R187). -/
def voteWord (mode width : Nat) (e p : Mask) : Word :=
  let t := e &&& p
  match mode with
  | 0 => fld t 0 32
  | 1 => fld t 32 32
  | 2 => BitVec.ofNat 32 (popNat t)
  | 3 => BitVec.ofNat 32 ((lanesOf t).head?.getD width)
  | 4 => BitVec.ofNat 32 ((lanesOf t).getLast?.getD width)
  | _ => boolWord (t != 0) ||| (boolWord (e &&& ~~~p != 0) <<< 1)

/-- VOTE (R187). -/
def execVote (f : LaneFields) (s : State) : Result :=
  laneIssue s (.plain (.vote f)) f fun w c e =>
    passOn s w (c.result f.dest.toNat (voteWord f.subop.toNat (s.width w) e (c.pred f.srca.toNat))) f

/-- The lesser or greater of two values by TYPE (R174, R178). -/
def pick (type : Nat) (greater : Bool) (a b : Word) : Word :=
  if type = 2 then fpick greater a b
  else
    let signed := type == 1
    if (if greater then decide (intVal signed a < intVal signed b) else decide (intVal signed b < intVal signed a)) then b else a

/-- The combination of the values of a nonempty list of lanes (R188): SUBOP 0 to 5. -/
def combine (op type : Nat) (x : Word) (xs : List Word) : Word :=
  match op with
  | 0 => if type = 2 then fsum ((x :: xs).map ofF32) else (x :: xs).foldl (· + ·) 0
  | 1 => let r := xs.foldl (pick type false) x; if type = 2 && isNanWord r then toF32 .nan else r
  | 2 => let r := xs.foldl (pick type true) x; if type = 2 && isNanWord r then toF32 .nan else r
  | 3 => xs.foldl (· &&& ·) x
  | 4 => xs.foldl (· ||| ·) x
  | _ => xs.foldl (· ^^^ ·) x

/-- The identity of an operation (R188, R189). -/
def identity (op type : Nat) : Word :=
  match op with
  | 1 => if type = 2 then toF32 .nan else if type = 1 then 0x7FFFFFFF else 0xFFFFFFFF
  | 2 => if type = 2 then toF32 .nan else if type = 1 then 0x80000000 else 0
  | 3 => 0xFFFFFFFF
  | _ => 0

/-- The combination over a list of lanes. -/
def combineAll (op type : Nat) (xs : List Word) : Word :=
  match xs with
  | [] => identity op type
  | x :: xs => combine op type x xs

/-- Lanes tie at a value: equal integers; FP32 patterns equal, all NaNs alike (R188). -/
def sameValue (type : Nat) (a b : Word) : Bool := a == b || (type == 2 && isNanWord a && isNanWord b)

/-- REDUX (R188). -/
def execRedux (f : LaneFields) (s : State) : Result :=
  laneIssue s (.plain (.redux f)) f fun w c e =>
    let a := operandAt (.redux f) f 1
    let ls := lanesOf e
    let op := f.subop.toNat
    let type := f.type.toNat
    let d := f.dest.toNat
    if op < 6 then passOn s w (c.result d (combineAll op type (ls.map (a.value c)))) f
    else
      let best := combineAll (op - 5) type (ls.map (a.value c))
      let lane := (ls.find? (fun l => sameValue type (a.value c l) best)).getD 0
      passOn s w ((c.result d best).result (d + 1) (BitVec.ofNat 32 lane)) f

/-- SCAN (R189). -/
def execScan (f : LaneFields) (s : State) : Result :=
  laneIssue s (.plain (.scan f)) f fun w c e =>
    let a := operandAt (.scan f) f 1
    let d := operandAt (.scan f) f 0
    let op := f.subop.toNat % 8
    let prefix_ := fun (l : Nat) => (lanesOf e).filter (fun j => if f.subop.toNat < 8 then decide (j ≤ l) else decide (j < l))
    passOn s w (c.writeLanes e (fun l => d.regIn c l)
      (fun l => combineAll op f.type.toNat ((prefix_ l).map (a.value c)))) f

/-! MATCH and ISECT (R222, R223). -/

/-- The lanes of a width whose value equals x. -/
def matchMask (width : Nat) (val : Nat → Word) (x : Word) : Mask := maskWhere fun j => decide (j < width) && val j == x

/-- MATCH (R222). -/
def execMatchL (f : LaneFields) (s : State) : Result :=
  let i := Instr.matchL f
  match s.issuer with
  | none => .fault .noIssuer
  | some (w0, _) =>
    let n := if s.width w0 = 64 then 2 else 1
    laneIssue s { LaneSpec.plain i with collective := true, groups := (n, 1, 1, 1) } f fun w c e =>
      let a := operandAt i f 1
      let d := operandAt i f 0
      let m := fun (l : Nat) => matchMask (s.width w) (a.value c) (a.value c l)
      let c1 := c.writeLanes e (fun l => d.regIn c l) (fun l => fld (m l) 0 32)
      passOn s w (if n = 2 then c1.writeLanes e (fun l => d.regIn c l + 1) (fun l => fld (m l) 32 32) else c1) f

/-- The matches of two lists, as pairs of places, found in at most `fuel` comparisons (R223). -/
def intersect (a b : Nat → Word) (width : Nat) : Nat → Nat → Nat → List (Nat × Nat)
  | 0, _, _ => []
  | fuel + 1, i, j =>
    if width ≤ i ∨ width ≤ j then []
    else if a i = b j then (i, j) :: intersect a b width fuel (i + 1) (j + 1)
    else if (a i).toNat < (b j).toNat then intersect a b width fuel (i + 1) j
    else intersect a b width fuel i (j + 1)

/-- Entries of a list that are at most m. -/
def advance (a : Nat → Word) (width m : Nat) : Nat := ((List.range width).filter (fun i => decide ((a i).toNat ≤ m))).length

/-- ISECT (R223). -/
def execIsect (f : LaneFields) (s : State) : Result :=
  let i := Instr.isect f
  laneIssue s { LaneSpec.plain i with collective := true } f fun w c e =>
    let a := (operandAt i f 1).value c
    let b := (operandAt i f 2).value c
    let width := s.width w
    let pos := intersect a b width (2 * width) 0 0
    let m := min (a (width - 1)).toNat (b (width - 1)).toNat
    let val := fun (l : Nat) => match pos[l]? with
      | some p => BitVec.ofNat 32 (p.1 + p.2 * 65536)
      | none => 0xFFFFFFFF#32
    let count := BitVec.ofNat 32 (pos.length + advance a width m * 256 + advance b width m * 65536)
    passOn s w ((c.writeLanes e (fun _ => f.dest.toNat) val).result f.xreg.toNat count) f

/-! Random words and sampling (R241 to R244, R79). -/

/-- RAND (R241). -/
def execRand (f : LaneFields) (s : State) : Result :=
  laneIssue s { LaneSpec.plain (.rand f) with groups := (4, 1, 1, 1) } f fun w c e =>
    let d := f.dest.toNat
    let words := fun (l : Nat) => drawWords c (w.tid c l) 0 f.simm.toNat 0
    let put := fun (x : Crew) (n : Nat) (g : Four → Word) => x.writeLanes e (fun _ => d + n) (fun l => g (words l))
    passOn s w (put (put (put (put c 0 (·.w0)) 1 (·.w1)) 2 (·.w2)) 3 (·.w3)) f

/-- TOPK's place of a value: NaN below -inf (R242). -/
def rankKey (w : Word) : Int := if isNanWord w then -(2 ^ 33) else fkey w

/-- Lanes ranked before lane l: greater values, and equal ones in lower lanes (R242). -/
def rankOf (a : Nat → Word) (width l : Nat) : Nat :=
  ((List.range width).filter (fun j =>
    decide (rankKey (a l) < rankKey (a j)) || (rankKey (a l) == rankKey (a j) && decide (j < l)))).length

/-- TOPK (R242). -/
def execTopk (f : LaneFields) (s : State) : Result :=
  let i := Instr.topk f
  laneIssue s { LaneSpec.plain i with collective := true, groups := (2, 1, 1, 1) } f fun w c e =>
    let a := (operandAt i f 1).value c
    let width := s.width w
    let d := f.dest.toNat
    let at_ := fun (r : Nat) => if r < f.simm.toNat then (List.range width).find? (fun l => rankOf a width l == r) else none
    let val := fun (r : Nat) => match at_ r with
      | some l => if isNanWord (a l) then toF32 .nan else a l
      | none => 0xFF800000#32
    let lane := fun (r : Nat) => match at_ r with | some l => BitVec.ofNat 32 l | none => 0xFFFFFFFF#32
    passOn s w ((c.writeLanes e (fun _ => d) val).writeLanes e (fun _ => d + 1) lane) f

/-- The order of logits by value: -0 and +0 equal, a NaN as -inf (R79). -/
def logitKey (w : Word) : Int :=
  if isNanWord w then -(2 ^ 31) else if nfld w 0 31 = 0 then 0 else fkey w

/-- Weight of a logit at a positive temperature, given the largest (R79 step 3): 1 at an infinite temperature wherever d_i is finite,
and NaN there where d_i overflows to an infinity (DEDUCED, log entry 15). -/
def weight (x top temp : Word) : Num :=
  if isNanWord x || x == 0xFF800000#32 then .fin Dy.zero
  else
    let d := fsum [ofF32 x, (ofF32 top).flip]
    let e := toF32 ((ofF32 d).mul (ofF32 0x3FB8AA3B#32))
    if temp == 0x7F800000#32 && nfld d 23 8 != 255 then ofF32 0x3F800000#32
    else ofF32 (fexp2 (divF32 (ofF32 e) (ofF32 temp)))

/-- The first place whose running sum is above t, among positive weights (R79 step 6). -/
def firstAbove (t : Dy) : Dy → Nat → List Dy → Option Nat
  | _, _, [] => none
  | p, j, w :: ws =>
    let p := Dy.sum [p, w]
    if !w.isZero && t.lt p then some j else firstAbove t p (j + 1) ws

/-- The last place with a positive weight. -/
def lastWeight (ws : List Dy) : Nat :=
  (((List.range ws.length).zip ws).filter (fun p => !p.2.isZero)).getLast?.map (·.1) |>.getD 0

/-- SAMPLE's index and DEGEN flag (R79). A NaN weight makes S and t NaN, so that no running sum is above t (DEDUCED, log entry
15). -/
def sampleIndex (xs : List Word) (temp u : Word) : Nat × Bool :=
  let top := xs.foldl (fun m x => if logitKey m < logitKey x then x else m) 0xFF800000#32
  let first := (xs.findIdx? (fun x => logitKey x == logitKey top)).getD 0
  if top == 0xFF800000#32 then (0, true)
  else if top == 0x7F800000#32 then (first, true)
  else if nfld temp 0 31 = 0 then (first, false)
  else if isNanWord temp || flag temp 31 then (first, true)
  else
    let nums := xs.map (fun x => weight x top temp)
    let ws := nums.map Num.dy
    if nums.any (fun w => w == .nan) then (lastWeight ws, false)
    else
    let total := Dy.sum ws
    let t := (ofF32 (toF32 (.fin (total.mul ⟨false, nfld u 8 24, -24⟩)))).dy
    ((firstAbove t Dy.zero 0 ws).getD (lastWeight ws), false)

/-- SAMPLE (R243). -/
def execSample (f : LaneFields) (s : State) : Result :=
  let i := Instr.sample f
  let n := f.simm.toNat
  laneIssue s { LaneSpec.plain i with collective := true, groups := (1, max n 1, 1, 1) } f fun w c _ =>
    let logits := ((List.range n).map (fun j => (List.range 32).map (fun l => c.v (f.srca.toNat + j) l))).flatten
    let r := sampleIndex logits ((operandAt i f 2).value c 0) ((operandAt i f 3).value c 0)
    trapsThen s (passOn s w (c.result f.dest.toNat (BitVec.ofNat 32 (r.1 + if r.2 then 2 ^ 31 else 0))) f)
      [(s.width w != 32 || n == 0, .range, 0)]

/-- ACCEPT (R244): the width where no lane differs, as R244 defines it, though R244 adds that the result is then at most the draft count and
R284 counts 4 for four drafts that all stand (DESIGN CHOICE, log entry 113). -/
def execAccept (f : LaneFields) (s : State) : Result :=
  let i := Instr.accept f
  laneIssue s { LaneSpec.plain i with collective := true } f fun w c _ =>
    let a := (operandAt i f 1).value c
    let b := (operandAt i f 2).value c
    let width := s.width w
    passOn s w (c.result f.dest.toNat (BitVec.ofNat 32 (((List.range width).find? (fun l => a l != b l)).getD width))) f

end Sys2Proof.Machine
end

