-- ==== Sys2Proof/Machine/Population.lean ====
section
/-! DEFINITION. The population instructions GROUP, JOIN and JOINC (01 R22 to R27; 05 R114; 10 R210 to R221, R226). -/

namespace Sys2Proof.Machine

/-! Participants (R23). -/

/-- A population instruction. -/
def isPopulation : Instr → Bool
  | .group .. | .join .. | .joinc .. => true
  | _ => false

/-- Inserting a crew by its number. -/
def insertByNumber (x : Nat × Crew) : List (Nat × Crew) → List (Nat × Crew)
  | [] => [x]
  | y :: ys => if y.2.number < x.2.number then y :: insertByNumber x ys else x :: y :: ys

/-- The live crews of a role with their slots, by rising number. -/
def Workgroup.participants (w : Workgroup) (role : BitVec 2) : List (Nat × Crew) :=
  (w.crews.filter (fun e => decide (e.2.role = role) && e.2.isLive)).foldr insertByNumber []

/-- The crew stands at a population instruction and is not held there, its lane queue empty, its scalar registers full (R23), and every
access it has made performed, those of engines and non-temporal stores too (R114, R210). -/
def State.arrived (s : State) (w : Workgroup) (c : Crew) : Bool :=
  decide (c.status = .live) && c.fetchHeld.isEmpty && c.drained && c.sTag.isEmpty && !c.scalarBusy && c.flying.all (·.done)
    && match s.fetchScalar w c.side c.pc with
      | .instr i => isPopulation i
      | _ => false

/-- Crews that a fault of their population instruction has halted are resumed together (R23). -/
def State.bind (s : State) (wid : Nat) (slots : List Nat) : State :=
  { s with wgs := s.wgs.modify wid (fun w => { w with
      crews := slots.foldl (fun (m : SMap Crew) n =>
        m.modify n (fun c => if c.status = .halted then { c with joint := true } else c)) w.crews }) }

/-- One fault of the collective: reported once, for the participant of lowest number (R23). -/
def State.raiseAll (s : State) (wid : Nat) (w : Workgroup) (parts : List (Nat × Crew)) (code : FaultCode) (detail : DWord)
    (inflight : Bool) : State :=
  match parts with
  | [] => s
  | (_, c) :: _ =>
    let r := s.reportOf w c c.side code detail .scalar inflight c.pc
    ((s.report r).afterFault w (parts.map (fun p => ⟨wid, p.1⟩)) r).bind wid (parts.map (·.1))

/-- A trap of a population instruction at its issue. -/
def collectiveTrap (s : State) (w : Workgroup) (parts : List (Nat × Crew)) (code : FaultCode) (detail : DWord) : Result :=
  .next (s.raiseAll s.cur.key.wid w parts code detail false)

/-- The issue of a population instruction up to its spec, 32 bytes at the pair of the lowest participant (R23, R210): it
waits for its participants. A walk of the spec that fails is held (R335). The instruction reads its spec, its relation and its stash,
and writes its stash, at one moment, in one step, also where it races with a crew of another role (DESIGN CHOICE, log entry 101). -/
def popIssue (s : State) (a : Reg) (run : State → Workgroup → List (Nat × Crew) → Crew → BitVec 256 → Result) : Result :=
  acting s fun w c =>
    let parts := w.participants c.role
    let (slot, low) := parts.headD (s.cur.key.slot, c)
    let addr := low.s2 a
    let held := fun (s : State) (code : FaultCode) => Host.Outcome.next (s.holdAt ⟨s.cur.key.wid, slot⟩ .scalar true code addr.toNat)
    if !(parts.all (fun p => s.arrived w p.2)) then .next s
    else if parts.any (fun p => p.2.pc != low.pc) then collectiveTrap s w parts .illconv 0
    else if misaligned addr 32 then collectiveTrap s w parts .align 0
    else if farAddr addr then collectiveTrap s w parts .xlat addr
    else match s.xlate w.die w.ctx .rd addr.toNat with
      | .ok pa =>
        run (s.touchRange (.ctx w.ctx) true pa 32) w parts low (BitVec.ofNat 256 (leNat (s.readBytes w.ctx pa 32)))
      | .fail code => held s code
      | .moving => .next s
      | .miss => .next (s.standAt ⟨s.cur.key.wid, slot⟩ .scalar true .rd addr.toNat)

/-! Threads and their columns (R24). -/

/-- The columns of a thread: v registers, p0 to p6, x0 to x3. -/
structure Thread where
  v : List Word
  p : BitVec 7
  x : List Word
  deriving DecidableEq, Repr, Inhabited

/-- The thread of a lane. -/
def Crew.thread (c : Crew) (regs lane : Nat) : Thread where
  v := (List.range regs).map (fun r => c.v r lane)
  p := BitVec.ofNat 7 (((List.range 7).map (fun n => if flag (c.pred n) lane then 2 ^ n else 0)).sum)
  x := (List.range 4).map (fun n => c.x n lane)

/-- A crew with a thread in a lane. -/
def Crew.putThread (c : Crew) (lane : Nat) (t : Thread) : Crew :=
  let c := (t.v.zip (List.range t.v.length)).foldl (fun (c : Crew) e => c.setV e.2 lane e.1) c
  let c := (List.range 7).foldl
    (fun (c : Crew) n => c.setPred n (BitVec.twoPow 64 lane) (if flag t.p n then BitVec.allOnes 64 else 0)) c
  (t.x.zip (List.range 4)).foldl (fun (c : Crew) e => c.setX e.2 lane e.1) c

/-- The population with the place of each thread, in ascending tid. -/
def popThreads (parts : List (Nat × Crew)) : List (Nat × Nat) :=
  parts.flatMap (fun p => (lanesOf p.2.live).map (fun l => (p.1, l)))

/-! Installing the result (R24). -/

/-- What a population instruction orders: as LSYNC, and across both streams (R109, R114). -/
def Crew.parted (c : Crew) : Crew := c.crossing.afterRuns

/-- A crew that continues after the collective. -/
def Crew.goOn (c low : Crew) (number : Nat) (live : Mask) : Crew :=
  { c.parted.cancel with
      status := .live, number := number, live := live, pc := low.pc + 4, sreg := low.sreg, cursors := [], queue := [],
      prog := none }

/-- A crew that the collective leaves without a thread, or that had ended before: it has no place in the population. -/
def Crew.goneAs (c : Crew) (number : Nat) : Crew :=
  { c.cancel with status := .retired, number := number, live := 0, cursors := [] }

/-- Renumbering: `keep` are the slots that continue, in order of lowest tid, with their crews and live masks; every other
crew of the role that has started is retired and numbered after them. -/
def Workgroup.install (w : Workgroup) (low : Crew) (keep : List (Nat × Crew × Mask)) : Workgroup :=
  let w1 := (keep.zip (List.range keep.length)).foldl
    (fun (w : Workgroup) e => w.putCrew e.1.1 (e.1.2.1.goOn low e.2 e.1.2.2)) w
  let rest := w.crews.filter (fun e => decide (e.2.role = low.role) && decide (e.2.status ≠ .reserved)
    && !(keep.map (·.1)).contains e.1)
  (rest.zip (List.range rest.length)).foldl
    (fun (w : Workgroup) e => w.putCrew e.1.1 (e.1.2.goneAs (keep.length + e.2))) w1

/-- An x word within the limits of R44, from any word; one that is within them stays as it is. -/
def legalX (regs : Nat) (v : Word) : Word :=
  let base := nfld v 0 8 % (regs + 1)
  xWord base (nfld v 8 9 % (min 256 (regs - base) + 1)) (nfld v 17 9)

/-- The free columns of a lane: those of lane registers, of x registers from key 16,384 on and of predicates from 16,640 on. -/
def vacatedThread (tick slot regs lane : Nat) : Thread where
  v := (List.range regs).map (fun r => Config.vacated tick slot (laneKey r lane))
  p := BitVec.ofNat 7 ((List.range 7).map (fun n => if flag (Config.vacated tick slot (laneKey (260 + n) lane)) 0 then 2 ^ n else 0)).sum
  x := (List.range 4).map (fun n => legalX regs (Config.vacated tick slot (laneKey (256 + n) lane)))

/-- What a lane holds that a thread was moved away from: lane registers, p0 to p6 and x0 to x3 alike (R24 states none of them: free
values of log entry 16). -/
def Crew.vacate (c : Crew) (tick slot regs : Nat) (lanes : Mask) : Crew :=
  (lanesOf lanes).foldl (fun (c : Crew) l => c.putThread l (vacatedThread tick slot regs l)) c

/-- A crew record for a slot that starts a crew: it keeps nothing of one that ended there, whose accesses in flight move
aside with it to a key that is the slot's modulo 64 (R25, R350). -/
def Workgroup.freeSlot (w : Workgroup) (slot : Nat) (role : BitVec 2) : Workgroup :=
  let fresh : Crew := { (default : Crew) with role := role, nextId := 1 }
  match w.crews.find? slot with
  | none => w.putCrew slot fresh
  | some c =>
    let w1 := if c.flying.isEmpty && c.batches.isEmpty then w
      else w.putCrew (slot + 64 * (1 + w.crews.keys.foldl (fun m k => max m (k / 64)) 0)) c
    w1.putCrew slot fresh

/-- Slots of a role that a population may fill: the participants' by number, then the others reserved for the role. -/
def Workgroup.slotsFor (w : Workgroup) (role : BitVec 2) (parts : List (Nat × Crew)) : List Nat :=
  parts.map (·.1) ++ (w.crews.filter (fun e => decide (e.2.role = role ∧ e.1 < 64) && !e.2.isLive)).map (·.1)

/-- The threads fill crews in ascending tid, lanes ascending, from the lowest crew up (R24, R25). -/
def Workgroup.fill (w : Workgroup) (tick regs width : Nat) (low : Crew) (parts : List (Nat × Crew)) (ts : List Thread) :
    Workgroup :=
  let slots := (w.slotsFor low.role parts).take ((ts.length + width - 1) / width)
  let w1 := (slots.filter (fun sl => !(parts.map (·.1)).contains sl)).foldl (fun (w : Workgroup) sl => w.freeSlot sl low.role) w
  let keep := (slots.zip (List.range slots.length)).map (fun e =>
    let mine := (ts.drop (width * e.2)).take width
    let c := w1.crews.get e.1
    let live := laneMask mine.length
    let c := c.vacate tick e.1 regs (c.live &&& ~~~live)
    (e.1, (mine.zip (List.range mine.length)).foldl (fun (c : Crew) t => c.putThread t.2 t.1) c, live))
  w1.install low keep

/-! The order of crew records and of replays (R346, R348). -/

/-- By role code and then crew number (R346). -/
def recordBefore (a b : Nat × Crew) : Bool :=
  decide (a.2.role < b.2.role) || (a.2.role == b.2.role && decide (a.2.number ≤ b.2.number))

def insertRecord (x : Nat × Crew) : List (Nat × Crew) → List (Nat × Crew)
  | [] => [x]
  | y :: ys => if recordBefore x y then x :: y :: ys else y :: insertRecord x ys

/-- The crews of the reserved slots, each with its slot, in the order of their records. -/
def Workgroup.records (w : Workgroup) : List (Nat × Crew) := (w.crews.filter (fun e => decide (e.1 < 64))).foldr insertRecord []

/-- The keys of all crews in the order of their transfers in the copy log: those that have moved aside from a slot before the crew
of the slot. -/
def Workgroup.logOrder (w : Workgroup) : List Nat :=
  w.records.flatMap (fun r => (w.crews.keys.filter (fun k => decide (64 ≤ k ∧ k % 64 = r.1))) ++ [r.1])

/-- Replays stand before those of a crew: of an MMA, or of a transfer of a crew before it in the log (R348). -/
def Workgroup.replaysBefore (w : Workgroup) (key : Nat) : Bool :=
  w.crews.values.any (fun c => match c.mma with | some m => m.replay | none => false)
    || (w.logOrder.takeWhile (fun k => k != key)).any (fun k =>
      (w.crews.get k).flying.any (fun a => a.replay && !a.done && !a.isHeld))

/-- The population that a collective leaves is in place; the registers of its crews are written (R24, R290). -/
def State.putPop (s : State) (wid : Nat) (w : Workgroup) : State := (s.mark w w.crewLines).putWg wid w

/-! GROUP (R211 to R213). -/

/-- A combining entry (R212). -/
structure GroupEntry where
  reg : Nat
  op : Nat
  sat : Bool
  type : Nat
  deriving DecidableEq, Repr

/-- Key registers of a spec (R212, R216). -/
def specKeys (m : BitVec 256) : List Nat := if nfld m 0 2 = 2 then [nfld m 16 8, nfld m 24 8] else [nfld m 16 8]

def groupEntry (m : BitVec 256) (e : Nat) : GroupEntry :=
  ⟨nfld m (32 + 16 * e + 8) 8, nfld m (32 + 16 * e + 4) 4, flag m (32 + 16 * e + 3), nfld m (32 + 16 * e + 1) 2⟩

def groupEntries (m : BitVec 256) : List GroupEntry := (List.range (min 8 (nfld m 8 4))).map (groupEntry m)

/-- An entry outside its limits (R212). -/
def GroupEntry.bad (e : GroupEntry) : Bool :=
  decide (8 < e.op) || e.type == 3 || (e.sat && (e.op != 0 || e.type == 2))
    || (e.type != 0 && (e.op == 3 || e.op == 4 || e.op == 5 || e.op == 8))

/-- Every register of a list is below REGS and named once. -/
def namedOnce (regs : Nat) (rs : List Nat) : Bool := rs.all (fun r => decide (r < regs)) && rs.eraseDups.length == rs.length

/-- The RANGE conditions that GROUP and JOIN specs share: NKEY, the count of entries, unused entries, unused bits. -/
def specBad (m : BitVec 256) : Bool :=
  let n := nfld m 8 4
  nfld m 0 2 == 0 || nfld m 0 2 == 3 || decide (8 < n) || nfld m 12 4 != 0
    || (nfld m 0 2 == 1 && nfld m 24 8 != 0) || nfld m (32 + 16 * n) (16 * (8 - n)) != 0

/-- A GROUP spec that traps RANGE (R212). -/
def groupBad (m : BitVec 256) (regs : Nat) : Bool :=
  let es := groupEntries m
  specBad m || nfld m 2 6 != 0 || nfld m 160 96 != 0 || es.any GroupEntry.bad
    || (List.range es.length).any (fun e => flag m (32 + 16 * e)) || !namedOnce regs (es.map (·.reg) ++ specKeys m)

/-- The value of an entry over the members of a class, in ascending tid (R213). -/
def GroupEntry.combine (e : GroupEntry) (xs : List Word) : Word :=
  match e.op with
  | 6 => xs.headD 0
  | 7 => xs.getLastD 0
  | 8 => BitVec.ofNat 32 xs.length
  | 0 =>
    if e.sat then
      let signed := e.type == 1
      let sum := (xs.map (intVal signed)).foldl (· + ·) 0
      BitVec.ofInt 32 (if signed then satInt sum (-2147483648) 2147483647 else satInt sum 0 4294967295)
    else combineAll 0 e.type xs
  | op => combineAll op e.type xs

/-- The members of one population with the key of a thread. -/
def sameKey (w : Workgroup) (keys : List Nat) (t u : Nat × Nat) : Bool :=
  keys.all (fun r => (w.crews.get t.1).v r t.2 == (w.crews.get u.1).v r u.2)

/-- The survivors with their classes: a thread survives if no earlier one has its key (R213). -/
def groupClasses (w : Workgroup) (keys : List Nat) : List (Nat × Nat) → List ((Nat × Nat) × List (Nat × Nat)) → List ((Nat × Nat) × List (Nat × Nat))
  | [], out => out
  | t :: ts, out =>
    if out.any (fun c => sameKey w keys c.1 t) then
      groupClasses w keys ts (out.map (fun c => if sameKey w keys c.1 t then (c.1, c.2 ++ [t]) else c))
    else groupClasses w keys ts (out ++ [(t, [t])])

/-- The workgroup with every survivor's combined columns in place. -/
def groupCombine (w : Workgroup) (es : List GroupEntry) (classes : List ((Nat × Nat) × List (Nat × Nat))) : Workgroup :=
  classes.foldl (fun (x : Workgroup) c =>
    es.foldl (fun (x : Workgroup) e =>
      let v := e.combine (c.2.map (fun t => (w.crews.get t.1).v e.reg t.2))
      x.putCrew c.1.1 ((x.crews.get c.1.1).setV e.reg c.1.2 v)) x) w

/-- GROUP (R211 to R213). -/
def execGroup (a : Reg) (pack : Bool) (s : State) : Result :=
  popIssue s a fun s w parts low spec =>
    let regs := s.regsOf w low
    if groupBad spec regs then collectiveTrap s w parts .range 0
    else
      let classes := groupClasses w (specKeys spec) (popThreads parts) []
      let w1 := groupCombine w (groupEntries spec) classes
      let alive := classes.map (·.1)
      let parts1 := parts.map (fun p => (p.1, w1.crews.get p.1))
      if pack then
        .next (s.putPop s.cur.key.wid (w1.fill s.tick regs (s.width w) low parts1
          (alive.map (fun t => (w1.crews.get t.1).thread regs t.2))))
      else
        let keep := parts1.filterMap (fun p =>
          let live := maskWhere (fun l => alive.contains (p.1, l))
          if live = 0 then none else some (p.1, p.2, live))
        .next (s.putPop s.cur.key.wid (w1.install low keep))

/-! JOIN and JOINC (R214 to R221). -/

/-- Fields of a relation record (R215). -/
def BufRec.relBoff (m : BufRec) : Nat := nfld m 208 32
def BufRec.relHb (m : BufRec) : Nat := nfld m 192 5
def BufRec.relKeyOff (m : BufRec) : Nat := nfld m 176 16
def BufRec.relHashed (m : BufRec) : Bool := flag m 97
def BufRec.relWide (m : BufRec) : Bool := flag m 96
def BufRec.relRows (m : BufRec) : Nat := nfld m 64 32

/-- A relation record that breaks its limits or does not fit (R85, R215). -/
def BufRec.relationBad (m : BufRec) (spBytes : Nat) : Bool :=
  let kw := if m.relWide then 2 else 1
  m.fmt != 0 || m.mode != 3 || m.policy != 0 || nfld m 240 16 != 0 || nfld m 197 11 != 0 || nfld m 98 30 != 0
    || m.base % 4 != 0 || m.strideY % 4 != 0 || decide (m.strideY < 4) || m.relKeyOff % 4 != 0
    || decide (16 < m.relHb) || m.relBoff % 4 != 0 || (!m.relHashed && (m.relBoff != 0 || m.relHb != 0))
    || decide (spBytes < m.base + m.relRows * m.strideY) || decide (m.strideY < m.relKeyOff + 4 * kw)
    || (m.relHashed && decide (spBytes < m.relBoff + 4 * (2 ^ m.relHb + 1)))

/-- A word of scratchpad. -/
def Workgroup.spWord (w : Workgroup) (at_ : Nat) : Word := BitVec.ofNat 32 (leNat (SMap.slice w.scratch at_ 4))

/-- The key of a row. -/
def rowKey (w : Workgroup) (m : BufRec) (r : Nat) : Nat :=
  let at_ := m.base + r * m.strideY + m.relKeyOff
  (w.spWord at_).toNat + if m.relWide then (w.spWord (at_ + 4)).toNat * 2 ^ 32 else 0

/-- The lower bound of a key in a sorted relation: 33 halvings are enough for 2^32 rows (R217). -/
def lowerBound (key : Nat → Nat) (k : Nat) : Nat → Nat → Nat → Nat
  | 0, lo, _ => lo
  | n + 1, lo, hi =>
    if lo < hi then
      let mid := (lo + hi) / 2
      if key mid < k then lowerBound key k n (mid + 1) hi else lowerBound key k n lo mid
    else lo

/-- Rows from r on while the key holds, at most n. -/
def runOfKey (key : Nat → Nat) (k : Nat) : Nat → Nat → List Nat
  | 0, _ => []
  | n + 1, r => if key r = k then r :: runOfKey key k n (r + 1) else []

/-- The matches of a left key, in ascending order (R217). -/
def matchesOf (w : Workgroup) (m : BufRec) (klo khi : Word) : List Nat :=
  let k := klo.toNat + if m.relWide then khi.toNat * 2 ^ 32 else 0
  let rows := m.relRows
  if m.relHashed then
    let h := (klo ^^^ ((if m.relWide then khi else 0) * 0x85EBCA6B)) * 0x9E3779B1
    let b := if m.relHb = 0 then 0 else h.toNat / 2 ^ (32 - m.relHb)
    let start := min (w.spWord (m.relBoff + 4 * b)).toNat rows
    let end_ := min (w.spWord (m.relBoff + 4 * (b + 1))).toNat rows
    ((List.range (end_ - start)).map (start + ·)).filter (fun r => rowKey w m r == k)
  else
    let lo := lowerBound (rowKey w m) k 33 0 rows
    runOfKey (rowKey w m) k (rows - lo) lo

/-- Where a join stops at its cap: the left row, and the matches of it already emitted (R220). -/
structure JoinStop where
  li : Nat
  rp : Nat
  deriving DecidableEq, Repr

/-- The output of a join over left rows from place li on: each output thread names its left row and its match, none for a
null (R220). -/
def joinRows (matches_ : Thread → List Nat) (outer : Bool) (cap : Nat) :
    List Thread → Nat → Nat → List (Thread × Option Nat) → List (Thread × Option Nat) × Option JoinStop
  | [], _, _, out => (out, none)
  | t :: ts, li, rp, out =>
    let ms := matches_ t
    if ms.isEmpty && outer then
      if out.length = cap then (out, some ⟨li, rp⟩)
      else joinRows matches_ outer cap ts (li + 1) rp (out ++ [(t, none)])
    else
      let new := (ms.drop rp).take (cap - out.length)
      let out := out ++ new.map (fun r => (t, some r))
      if rp + new.length < ms.length then (out, some ⟨li, rp + new.length⟩)
      else joinRows matches_ outer cap ts (li + 1) 0 out

/-- Entries of a JOIN spec: the register and the word of the row (R216). -/
def joinEntries (m : BitVec 256) : List (Nat × Nat) :=
  (List.range (min 8 (nfld m 8 4))).map (fun e => (nfld m (32 + 16 * e + 8) 8, nfld m (32 + 16 * e) 8))

/-- A JOIN spec that traps RANGE before the relation record is checked (R210, R216). -/
def joinBad (m : BitVec 256) (rel : BufRec) (regs : Nat) : Bool :=
  specBad m || nfld m 0 2 != (if rel.relWide then 2 else 1) || nfld m 2 2 != 0 || nfld m 7 1 != 0 || nfld m 192 64 != 0
    || nfld m 160 32 % 4 != 0 || !namedOnce regs ((joinEntries m).map (·.1) ++ specKeys m)

/-- An output thread: the left row's columns, then the right columns and, for an outer join, NULLP (R220). -/
def joinThread (w : Workgroup) (m : BufRec) (spec : BitVec 256) (outer : Bool) (o : Thread × Option Nat) : Thread :=
  let val := fun (woff : Nat) => match o.2 with
    | some r => w.spWord (m.base + r * m.strideY + 4 * woff)
    | none => 0
  let t := (joinEntries spec).foldl (fun (t : Thread) e => { t with v := t.v.set e.1 (val e.2) }) o.1
  let n := nfld spec 4 3
  if outer && decide (n < 7) then
    { t with p := if o.2.isNone then t.p ||| BitVec.twoPow 7 n else t.p &&& ~~~(BitVec.twoPow 7 n) }
  else t

/-- The stash record of a left row, as words (R219). -/
def Thread.record (t : Thread) : List Byte := (t.v ++ [t.p.zeroExtend 32] ++ t.x).flatMap (fun x => leBytes 4 x.toNat)

/-- The left row that a stash record holds. -/
def stashThread (w : Workgroup) (at_ regs : Nat) : Thread where
  v := (List.range regs).map (fun r => w.spWord (at_ + 4 * r))
  p := (w.spWord (at_ + 4 * regs)).setWidth 7
  x := (List.range 4).map (fun n => w.spWord (at_ + 4 * (regs + 1 + n)))

/-- Bytes of a stash record. -/
def stashSize (regs : Nat) : Nat := 4 * (regs + 5)

/-- Fields of jcur (R218). -/
def jcurDone (j : DWord) : Bool := flag j 31
def jcurLcnt (j : DWord) : Nat := nfld j 16 13
def jcurLidx (j : DWord) : Nat := nfld j 0 13
def jcurRpos (j : DWord) : Nat := nfld j 32 32
def jcurOf (rpos lcnt lidx : Nat) : DWord := BitVec.ofNat 64 (rpos * 2 ^ 32 + lcnt * 2 ^ 16 + lidx)
def jcurIdle : DWord := 0x80000000#64

/-- Writing the cursor of a role. -/
def Workgroup.setJcur (w : Workgroup) (role : BitVec 2) (j : DWord) : Workgroup := { w with jcur := w.jcur.put role.toNat j }

/-- What JOIN and JOINC do once their spec and record have passed: `again` for JOINC (R220). The words of the right columns are read
before the stash is written, also where STASH overlaps the relation (DESIGN CHOICE, log entry 94). Everything is read and written at one
moment (DESIGN CHOICE, log entry 101). -/
def joinRun (s : State) (w : Workgroup) (parts : List (Nat × Crew)) (low : Crew) (spec : BitVec 256) (rel : BufRec)
    (outer again : Bool) : Result :=
  let g := s.gridOf w
  let regs := s.regsOf w low
  let width := s.width w
  let wid := s.cur.key.wid
  let size := stashSize regs
  let stash := nfld spec 160 32
  let j := w.jcur.get low.role.toNat
  let cap := g.copy.crewsMax low.role.toNat * width
  let left := if again then (List.range (jcurLcnt j)).map (fun i => stashThread w (stash + i * size) regs)
    else (popThreads parts).map (fun t => (w.crews.get t.1).thread regs t.2)
  let start := if again then jcurLidx j else 0
  let keys := specKeys spec
  let key := fun (t : Thread) (n : Nat) => t.v.getD (keys.getD n 256) 0
  let r := joinRows (fun t => matchesOf w rel (key t 0) (key t 1)) outer cap (left.drop start) start
    (if again then jcurRpos j else 0) []
  let out := r.1.map (joinThread w rel spec outer)
  let finish := fun (w : Workgroup) (j : DWord) =>
    Host.Outcome.next (s.putPop wid ((w.setJcur low.role j).fill s.tick regs width low parts out))
  if again && decide (g.spBytes < stash + jcurLcnt j * size) then collectiveTrap s w parts .bounds 0
  else match r.2 with
    | none => finish w jcurIdle
    | some stop =>
      if again then finish w (jcurOf stop.rp (jcurLcnt j) stop.li)
      else
        let kept := left.drop stop.li
        if g.spBytes < stash + kept.length * size then collectiveTrap s w parts .bounds 0
        else finish { w with scratch := w.scratch.putList stash (kept.flatMap Thread.record) } (jcurOf stop.rp kept.length 0)

/-- The checks of JOIN and JOINC, then their effect. A JOINC without a join in progress leaves the population as it is and clears the cursors
of its live crews; those of a crew that has ended stay (R226; DESIGN CHOICE, log entry 123). -/
def joinIssue (k : BitVec 5) (outer : Bool) (a : Reg) (again : Bool) (s : State) : Result :=
  popIssue s a fun s w parts low spec =>
    let g := s.gridOf w
    let rel := g.buf k.toNat
    if joinBad spec rel (s.regsOf w low) then collectiveTrap s w parts .range 0
    else if rel.relationBad g.spBytes then collectiveTrap s w parts .bounds 0
    else if (joinEntries spec).any (fun e => decide (rel.strideY < 4 * e.2 + 4)) then collectiveTrap s w parts .range 0
    else if again && jcurDone (w.jcur.get low.role.toNat) then
      .next (s.putWg s.cur.key.wid (parts.foldl
        (fun (w : Workgroup) p => w.putCrew p.1 { p.2.parted with pc := p.2.pc + 4, cursors := [] }) w))
    else joinRun s w parts low spec rel outer again

/-- JOIN (R214, R220). -/
def execJoin (k : BitVec 5) (left : Bool) (a : Reg) (s : State) : Result := joinIssue k left a false s

/-- JOINC (R214, R220). -/
def execJoinc (k : BitVec 5) (left : Bool) (a : Reg) (s : State) : Result := joinIssue k left a true s

end Sys2Proof.Machine
end

