-- ==== Sys2Proof/Machine/Stoat.lean ====
section
/-! DEFINITION. Stoat's examination of a pair of launches (12 R245 to R250), on the code that a role reaches (13 R262). -/

namespace Sys2Proof.Machine

/-! Reachable code. -/

/-- A scalar word of a role's code: the instruction, if its words can be read and decoded, and the words that can be read. -/
structure Site where
  instr : Option Instr
  words : List Word
  deriving DecidableEq, Repr

/-- The reading that Stoat makes of one word of code: none where its page is being moved. -/
def State.stoatWord (s : State) (c va : Nat) : CodeWord :=
  match s.vtrans c .ex va with
  | .ok pa => .word (BitVec.ofNat 32 (leNat (s.readBytes c pa 4)))
  | .fail code => .held code va
  | _ => .wait

/-- The instruction that a decoding gives. -/
def decodedInstr : Decoded → Option Instr
  | .ok i => some i
  | .reject _ => none

/-- The scalar word at an address; none: to be read again. -/
def siteAt (g : Nat → CodeWord) (a : Addr) : Option Site :=
  match g a.toNat with
  | .wait => none
  | .word w0 =>
    if isLongMajor (wMajor w0).toNat then
      match g (a + 4).toNat with
      | .wait => none
      | .word w1 => some ⟨decodedInstr (decodeScalar w0 w1), [w0, w1]⟩
      | _ => some ⟨none, [w0]⟩
    else some ⟨decodedInstr (decodeScalar w0 0), [w0]⟩
  | _ => some ⟨none, []⟩

/-- Where code goes on from n words of it (R262): at the next word, also from one that does not decode, and at a target. Where no word
can be read, nothing follows. -/
def successors (i : Option Instr) (a : Addr) (n : Nat) : List Addr :=
  let next := a + BitVec.ofNat 52 (4 * n)
  match i with
  | some (.jr ..) | some .exit | some (.trap _) => []
  | none => if n = 0 then [] else [next]
  | some (.jmp off) => [target a off]
  | some (.bcond _ _ _ off) | some (.loop _ off) => [next, target a off]
  | some (.jal off) => [next, target a off]
  | some _ => [next]

/-- The words reached from a list of addresses, by address, the first number bounding how many are looked at. -/
def reach (g : Nat → CodeWord) : Nat → List Addr → SMap Site → Option (SMap Site)
  | 0, _, seen => some seen
  | _, [], seen => some seen
  | n + 1, a :: todo, seen =>
    match seen.find? a.toNat with
    | some _ => reach g n todo seen
    | none =>
      match siteAt g a with
      | none => none
      | some x => reach g n (successors x.instr a x.words.length ++ todo) (seen.insert a.toNat x)

/-- The parcels of a run up to its end, with the lane instructions they hold; it stops at one that cannot be read, and where the address
space ends, as the lanes do (log entries 83 and 108). -/
def runSites (g : Nat → CodeWord) : Nat → Nat → Option (List (Addr × Site))
  | 0, _ => some []
  | n + 1, a =>
    if 2 ^ 52 < a + 12 then some []
    else match g a, g (a + 4), g (a + 8) with
    | .word p0, .word p1, .word p2 =>
      let i := decodedInstr (decodeLane p0 p1 p2)
      let here : Addr × Site := (BitVec.ofNat 52 a, ⟨i, [p0, p1, p2]⟩)
      if flag p0 14 then some [here] else (runSites g n (a + 12)).map (here :: ·)
    | .wait, _, _ | _, .wait, _ | _, _, .wait => none
    | _, _, _ => some []

/-- The offsets that the LRUNs of code name. -/
def lrunOffsets (m : SMap Site) : List Nat :=
  (m.values.filterMap (fun x => match x.instr with | some (.lrun _ off) => some off.toNat | _ => none)).eraseDups

/-- The code of a role: its scalar words, and its runs by offset (R262). -/
structure RoleCode where
  sites : SMap Site
  runs : SMap (List (Addr × Site))
  deriving Repr, Inhabited

/-- Collecting optional entries of a map. -/
def collect {α : Type} (f : Nat → Option α) : List Nat → Option (SMap α)
  | [] => some []
  | k :: ks =>
    match f k, collect f ks with
    | some x, some m => some (m.insert k x)
    | _, _ => none

/-- The code of one role of a launch. -/
def roleCode (g : Nat → CodeWord) (r : LaunchCopy) (role : Nat) : Option RoleCode :=
  match reach g runFuel [r.codeAt role 0] [] with
  | none => none
  | some m =>
    match collect (fun o => runSites g runFuel (runAddr r.laneBase (BitVec.ofNat 32 o))) (lrunOffsets m) with
    | none => none
    | some runs => some ⟨m, runs⟩

/-- The code of a launch, by role; none: a page of it is being moved. -/
def State.kernelCode (s : State) (c : Nat) (r : LaunchCopy) : Option (SMap RoleCode) :=
  collect (roleCode (s.stoatWord c) r) r.roles

/-! Malformed marks (R245 to R247; R248, MARK). -/

/-- A launch with its image and its code. -/
structure Marked where
  copy : LaunchCopy
  code : SMap RoleCode
  deriving Repr

def Marked.image (m : Marked) : Image := m.copy.image
/-- The word of a role's code at an offset. -/
def Marked.site (m : Marked) (role off : Nat) : Option Site := (m.code.get role).sites.find? (m.copy.codeAt role off).toNat
def Marked.instr (m : Marked) (role off : Nat) : Option Instr := (m.site role off).bind (·.instr)
/-- The offset of a word from its role's ENTRY. -/
def Marked.offset (m : Marked) (role a : Nat) : Int := (a : Int) - m.copy.entry role

/-- A role mark is malformed. -/
def Marked.badRole (m : Marked) (role : Nat) : Bool :=
  let i := m.image
  let body := i.body role
  let loopAt := i.loopAt role
  if !m.copy.present role then i.field (Image.markAt role) 16 != 0
  else
    i.field (Image.markAt role + 12) 4 != 0 || i.use role 28 3 != 0 || i.use role 6 1 != 0
      || decide (8 < i.cbUsed role) || decide (32 < i.mUsed role) || decide (32 < i.aUsed role) || decide (16 < i.bUsed role)
      || if i.looped role then
           decide (loopAt ≤ body) || (m.site role body).isNone
             || !(match m.instr role loopAt with
                  | some (.loop _ off) => target (m.copy.codeAt role loopAt) off == m.copy.codeAt role body
                  | _ => false)
         else body != 0 || loopAt != 0

/-- A tile mark is malformed: it is present or absent against KIND, or names no word of its role. Of an absent one MROLE may be anything (DESIGN
CHOICE, log entry 124). -/
def Marked.badTile (m : Marked) (consumer : Bool) : Bool :=
  let i := m.image
  let present := i.markPresent consumer
  let role := i.markRole consumer
  i.tileMark consumer 6 2 != 0 || i.tileMark consumer 38 10 != 0
    || present != (if i.kind = 3 || i.kind = (if consumer then 2 else 1) then 1 else 0)
    || (present == 1 && (!(role == 0 || role == 3) || !m.copy.present role || (m.site role (i.mark consumer)).isNone))

/-- The image is malformed. -/
def Marked.malformed (m : Marked) : Bool :=
  let i := m.image
  i.field 0 2 != 0x5354 || i.field 2 1 != 1 || i.kind == 0 || decide (3 < i.kind)
    || i.tripOff % 4 != 0 || decide (m.copy.argLen ≤ i.tripOff) || decide (1 < i.field 8 4) || i.field 12 4 != 0
    || [0, 1, 2, 3].any m.badRole || m.badTile false || m.badTile true

/-! CODE. -/

/-- What no fused kernel may hold (R248). -/
def bannedInFusion : Option Instr → Bool
  | some (.group ..) | some (.join ..) | some (.joinc ..) | some (.launch ..) | some .cwait | some (.jal _) | some (.jr ..) => true
  | _ => false

/-- The target of a branch or jump. -/
def branchTarget (a : Addr) : Option Instr → Option Addr
  | some (.bcond _ _ _ off) | some (.loop _ off) => some (target a off)
  | some (.jmp off) => some (target a off)
  | _ => none

/-- The part an offset of a looped role lies in: below its ENTRY, prologue, body up to LOOPAT, epilogue. -/
def Marked.part (m : Marked) (role : Nat) (off : Int) : Nat :=
  if off < 0 then 0 else if off < m.image.body role then 1 else if off ≤ m.image.loopAt role then 2 else 3

/-- A word of a role breaks CODE. -/
def Marked.badCode (m : Marked) (role : Nat) (e : Nat × Site) : Bool :=
  let off := m.offset role e.1
  bannedInFusion e.2.instr ||
    (m.image.looped role &&
      (decide (off < 0)
        || (e.2.instr == some .exit && decide (off < m.image.loopAt role))
        || (off != m.image.loopAt role && match branchTarget (BitVec.ofNat 52 e.1) e.2.instr with
            | some t =>
              let dest := m.offset role t.toNat
              m.part role dest != m.part role off && !(m.part role off == 1 && dest == m.image.body role)
            | none => false)))

/-- Words of code by address / 4. -/
def putWords (m : SMap Word) (a : Nat) (ws : List Word) : SMap Word :=
  (ws.zip (List.range ws.length)).foldl (fun (m : SMap Word) e => m.insert (a / 4 + e.2) e.1) m

/-- The scalar words of a launch, each once (R250). -/
def Marked.scalarWords (m : Marked) : SMap Word :=
  m.code.values.foldl (fun (x : SMap Word) (r : RoleCode) => r.sites.foldl (fun (x : SMap Word) e => putWords x e.1 e.2.words) x) []

/-- The runs of a launch by offset, each once. -/
def Marked.runs (m : Marked) : SMap (List (Addr × Site)) :=
  m.code.values.foldl
    (fun (x : SMap (List (Addr × Site))) (r : RoleCode) => r.runs.foldl (fun (x : SMap (List (Addr × Site))) e => x.insert e.1 e.2) x) []

/-- All code of a launch as the firmware holds it (R250). -/
def Marked.held (m : Marked) : SMap Word :=
  m.runs.values.foldl
    (fun (x : SMap Word) (run : List (Addr × Site)) => run.foldl (fun (x : SMap Word) e => putWords x e.1.toNat e.2.words) x)
    m.scalarWords

/-- Bytes of a launch's code in the fused code (R250). -/
def Marked.size (m : Marked) : Nat :=
  4 * m.scalarWords.length + (m.runs.values.map (fun (run : List (Addr × Site)) => (12 * run.length + 15) / 16 * 16)).sum

/-- EXIT words of a launch. -/
def Marked.exits (m : Marked) : Nat :=
  ((m.code.values.flatMap (fun (r : RoleCode) => r.sites.filterMap (fun e => if e.2.instr == some .exit then some e.1 else none))).eraseDups).length

/-! Predicates and index registers that a role's runs name (R249). -/

/-- The fields of kind k that a lane instruction names. -/
def namedFields (k : Kind) (i : Instr) : List Nat :=
  match laneRow i, laneFieldsOf i with
  | some r, some f =>
    let ks := laneKinds i r f
    let pick := fun (x : Kind) (n : BitVec 8) => if x = k then [n.toNat] else []
    pick r.dest f.dest ++ pick ks.1 f.srca ++ pick ks.2.1 f.srcb ++ pick ks.2.2 f.srcc
  | _, _ => []

/-- The index register that an indexed operand names. -/
def namedIndex (i : Instr) : List Nat :=
  match laneRow i, laneFieldsOf i with
  | some r, some f => if f.ixe && (match r.form with | .G | .M | .X => true | _ => false) then [f.ixreg.toNat] else []
  | _, _ => []

/-- The guard a lane instruction names. -/
def namedGuard (i : Instr) : List Nat := match laneFieldsOf i with | some f => [f.guard.toNat] | none => []

/-- Numbers below n that a role's runs name. -/
def RoleCode.named (r : RoleCode) (n : Nat) (f : Instr → List Nat) : List Nat :=
  let all := r.runs.values.flatMap (fun (run : List (Addr × Site)) => run.flatMap (fun e => match e.2.instr with | some i => f i | none => []))
  (List.range n).filter all.contains

def RoleCode.preds (r : RoleCode) : List Nat := r.named 7 (fun i => namedGuard i ++ namedFields .P i)
def RoleCode.xregs (r : RoleCode) : List Nat := r.named 4 (fun i => namedIndex i ++ namedFields .X i)

/-- The consumer's numbers mapped, lowest first, to the lowest ones below n that the producer's do not hold; the keys are
offset by `base`. -/
def placeAbove (n base : Nat) (pro con : List Nat) : List (Nat × Nat) :=
  (con.zip ((List.range n).filter (fun x => !pro.contains x))).map (fun p => (base + p.1, p.2))

/-! The examination. -/

/-- What an examination yields. -/
inductive Examined where
  /-- a page that it reads is being moved -/
  | wait
  /-- a code of R248; 0 is NONE -/
  | refuse (code : Nat)
  /-- the fused pair, its consumer's sequence number, packet and parent to be filled in -/
  | fuse (f : Fused)

/-- The 4 bytes of the trip-count word. -/
def Marked.trip (m : Marked) : List Byte := (m.copy.args.drop m.image.tripOff).take 4

/-- TILE holds no objection: the tiles of the marked TSTORE and TLOAD (R248). -/
def markedTiles (l n : Marked) : Option (Nat × Nat) :=
  let role := l.image.markRole false
  let inside := fun (m : Marked) (c : Bool) =>
    let at_ := m.image.mark c
    m.image.looped role && decide (m.image.body role ≤ at_ ∧ at_ < m.image.loopAt role)
  if role = n.image.markRole true ∧ l.image.tileMark false 8 30 = n.image.tileMark true 8 30 ∧ inside l false ∧ inside n true then
    match l.instr role (l.image.mark false), n.instr role (n.image.mark true) with
    | some (.tstore t _ _ _ m off), some (.tload u _ _ _ k _ o) =>
      if l.copy.bufs.getD m.toNat 0 = n.copy.bufs.getD k.toNat 0 ∧ off = o then some (u.toNat, t.toNat) else none
    | _, _ => none
  else none

/-- SHAPE (R248). -/
def shapeDiffers (l n : Marked) : Bool :=
  let a := l.copy
  let b := n.copy
  a.nwgx != b.nwgx || a.nwgy != b.nwgy || a.nwgz != b.nwgz || a.width != b.width || a.split != b.split
    || a.coresident != b.coresident || a.batch != b.batch
    || [0, 1, 2, 3].any (fun r => a.present r != b.present r
        || (a.present r && (a.crews r != b.crews r || a.crewsMax r != b.crewsMax r || a.threads r != b.threads r
            || l.image.looped r != n.image.looped r)))

/-- CODE (R248, R250). -/
def codeBreaks (l n : Marked) : Bool :=
  let bad := fun (m : Marked) => m.copy.roles.any (fun r => (m.code.get r).sites.any (m.badCode r))
  bad l || bad n
    || decide (131072 < l.size + n.size + 4 * ((l.copy.roles.filter l.image.looped).length + l.exits))

/-- SUM: a limit of R249 is exceeded. -/
def sumExceeds (l n : Marked) : Bool :=
  let a := l.copy
  let b := n.copy
  let above := fun (f : Image → Nat → Nat) (limit : Nat) => decide (limit < a.most (f l.image) + b.most (f n.image))
  decide (16 < (a.sum a.tiles + 1) / 2 * 2 + b.sum b.tiles)
    || decide (32 < a.sum a.accFloor + b.sum b.accFloor)
    || above Image.aUsed 32 || above Image.bUsed 16 || above Image.mUsed 32 || above Image.cbUsed 8
    || a.roles.any (fun r =>
        decide (256 < a.regs r + b.regs r) || decide (63 < n.image.sUsed r + (l.image.sUsed r + 2) / 2 * 2)
          || decide (7 < (l.code.get r).preds.length + (n.code.get r).preds.length)
          || decide (4 < (l.code.get r).xregs.length + (n.code.get r).xregs.length))

/-- SHARE (R248). -/
def sharesClash (a b : LaunchCopy) : Bool :=
  let scratch := fun (r : LaunchCopy) => r.spBytes != 0 || r.tagSets != 0
  (scratch a && scratch b) || nfld a.record (8 * 0x100) (8 * 0x100) != nfld b.record (8 * 0x100) (8 * 0x100)
    || decide (8192 < a.argLen + b.argLen)

/-- The fused pair (R249, R250). -/
def fusedPair (l n : Marked) (tiles : Nat × Nat) : Fused where
  copy := n.copy
  seq := 0
  pktIndex := 0
  depth := 0
  parent := none
  preds := n.copy.roles.flatMap (fun r => placeAbove 7 (8 * r) (l.code.get r).preds (n.code.get r).preds)
  xregs := n.copy.roles.flatMap (fun r => placeAbove 4 (4 * r) (l.code.get r).xregs (n.code.get r).xregs)
  tileFrom := tiles.1
  tileTo := tiles.2
  proCode := l.held
  conCode := n.held

/-- The conditions of R248 from MARK on, in the order of its table; `cores` is the size of the partition, `gap` says that a
BARRIER stands between the packets or a foreign dependence before N. -/
def examinePair (l n : Marked) (cores : Nat) (gap : Bool) : Examined :=
  let usable := fun (m : Marked) => m.copy.spliceAt % 16 == 0 && m.copy.splice.isSome && !m.malformed
  if !usable l || !usable n then .refuse 0x01
  else if l.image.kind = 2 ∨ n.image.kind = 1 then .refuse 0x00
  else if (l.copy.cause cores).isSome || (n.copy.cause cores).isSome then .refuse 0x02
  else if gap then .refuse 0x03
  else if shapeDiffers l n then .refuse 0x04
  else if l.trip != n.trip then .refuse 0x05
  else match markedTiles l n with
    | none => .refuse 0x06
    | some tiles =>
      if codeBreaks l n then .refuse 0x07
      else if sumExceeds l n then .refuse 0x08
      else if sharesClash l.copy n.copy then .refuse 0x09
      else
        let f := fusedPair l n tiles
        let occ := ({ (default : Grid) with copy := l.copy, fused := some f } : Grid).demand.occupancy
        if occ = 0 ∨ occ < max l.copy.occFloor n.copy.occFloor then .refuse 0x0A else .fuse f

/-- Stoat examines launch L with its partner N, if it has one (R248). -/
def State.examine (s : State) (c : Nat) (l : LaunchCopy) (n : Option LaunchCopy) (gap : Bool) : Examined :=
  match n with
  | none => .refuse 0
  | some n =>
    if l.spliceAt = 0 ∨ n.spliceAt = 0 then .refuse 0
    else match s.kernelCode c l, s.kernelCode c n with
      | some x, some y => examinePair ⟨l, x⟩ ⟨n, y⟩ (s.coresOf c).length gap
      | _, _ => .wait

end Sys2Proof.Machine
end

