-- ==== Sys2Proof/Machine/Queues.lean ====
section
/-! DEFINITION. Queues and the launch path: notify writes, packets, dependences, acceptance, the device queues, fabric packets
(19 R298 to R310; 12 R248, R254; 20 R311, R312). -/

namespace Sys2Proof.Machine

/-! Notify and register writes. -/

/-- SIZE (R299). -/
def Queue.size (q : Queue) : Nat := 2 ^ q.log2size.toNat

/-- NOTIFY_WRITE (R300, R304); it comes over PCIe (R364). -/
def execNotifyWrite (func queue : Nat) (value : DWord) (s : State) : Result :=
  let q := s.queues.get queue
  if s.downLinks.contains 0 then .next s
  else if !(decide (q.state = .active) && q.func.toNat == func) then .next s
  else if q.size < (value - q.read).toNat then
    .next (({ s with queues := s.queues.insert queue { q with state := .overrun } }).report
      (.plain .overrun q.ctx.toNat (BitVec.ofNat 64 queue)))
  else if q.tail < value then
    let since := if q.read = q.tail then s.tick else q.since
    .next { s with queues := s.queues.insert queue { q with tail := value, since := since } }
  else .next s

/-- The bits of an aperture entry and of a fabric table entry that are not reserved (R296, R309). -/
def apertureBits : BitVec 256 :=
  BitVec.ofNat 256 (0xFF <<< 248 + (2 ^ 52 - 1) <<< 192 + (2 ^ 39 - 1) <<< 128 + (2 ^ 42 - 1) <<< 61 + 0xFFFFF <<< 24)
def fabricBits : BitVec 64 := BitVec.ofNat 64 (1 <<< 63 + 0xFFFFFFFF <<< 12)

/-- REGISTER_WRITE: a doorbell write other than a notify is discarded (R300); table entries and the error window's registers
hold what is written (R296, R297, R309, R359), reserved bits as zero (R5). -/
def execRegisterWrite (_func : Nat) (r : SysReg) (value : BitVec 256) (s : State) : Result :=
  match r with
  | .doorbell .. => .next s
  | .aperture i => .next (if i < 128 then { s with apertures := s.apertures.put i (value &&& apertureBits) } else s)
  | .fabric t i =>
    .next (if i < 64 then { s with fabric := s.fabric.put (64 * t + i) (value.setWidth 64 &&& fabricBits) } else s)
  | .window t i =>
    let page := fun (n : Nat) => n / 4096 * 4096
    .next (if i < 4 then
      { s with windows := s.windows.insert (4 * t + i) (page (nfld value 0 64), page (nfld value 64 64)) } else s)
  | .priority q =>
    let runs := !s.stopped.contains (s.ctx (s.queues.get q).ctx.toNat).tenant
    .next (if runs then { s with queues := s.queues.modify q (fun x => { x with policy := some (fld value 0 2) }) } else s)
  | .windowMs => .next { s with windowMs := nfld value 0 32 }
  | .thresh => .next (if 1 ≤ nfld value 0 32 ∧ nfld value 0 32 ≤ 255 then { s with thresh := nfld value 0 32 } else s)

/-! Packets (R301). -/

abbrev Packet := BitVec 1024

def Packet.field (p : Packet) (off size : Nat) : Nat := nfld p (8 * off) (8 * size)
def Packet.type (p : Packet) : Nat := nfld p 24 8
def Packet.order (p : Packet) : Bool := flag p 16
def Packet.lrec (p : Packet) : Nat := p.field 8 8
def Packet.bsig (p : Packet) : Nat := p.field 16 8
def Packet.deps (p : Packet) : List Nat := ([0x20, 0x28, 0x30, 0x38].map (fun o => p.field o 8)).filter (fun d => d != 0)

/-- READY is that of ring index i. -/
def Packet.readyAt (p : Packet) (i : Nat) : Bool := nfld p 32 32 == (i + 1) % 2 ^ 32

/-- A ready packet is malformed (R301). A TYPE 1 packet with a BSIG and a TYPE 2 packet with an LREC are, and a BSIG that is not aligned is
not (DESIGN CHOICE, log entry 98). -/
def Packet.malformed (p : Packet) : Bool :=
  nfld p 0 16 != 0 || nfld p 17 7 != 0 || p.field 0x18 8 != 0 || p.field 0x40 64 != 0
    || !(p.type == 1 || p.type == 2)
    || (p.type == 1 && (p.bsig != 0 || p.lrec % 64 != 0)) || (p.type == 2 && p.lrec != 0)
    || p.deps.any (fun d => d % 8 != 0)

/-- What a slot holds. -/
inductive Slotted where
  /-- its page is being moved, and the read waits (R331) -/
  | moving
  | notReady
  /-- it cannot be read -/
  | fail (code : FaultCode) (va : Nat)
  | bad
  | packet (p : Packet)
  deriving DecidableEq, Repr

/-- The slot of index i of a user queue (R299, R305). -/
def State.slotAt (s : State) (q : Queue) (i : Nat) : Slotted :=
  match s.vread q.ctx.toNat (q.ring.toNat + 128 * (i % q.size)) 128 with
  | .moving => .moving
  | .fail code va => .fail code va
  | .bytes bs =>
    let p : Packet := BitVec.ofNat 1024 (leNat bs)
    if !p.readyAt i then .notReady else if p.malformed then .bad else .packet p

/-- A dependence is met: VALUE of its signal object is 0 or below (R302). -/
inductive DepView where
  | met | unmet
  | fail (code : FaultCode) (va : Nat)
  deriving DecidableEq, Repr

def State.depView (s : State) (c addr : Nat) : DepView :=
  match s.vread c addr 8 with
  | .moving => .unmet
  | .fail code _ => .fail code addr
  | .bytes bs => if (BitVec.ofNat 64 (leNat bs)).toInt ≤ 0 then .met else .unmet

/-! The head of a queue (R305). -/

/-- How the head of a queue stands. -/
inductive Head where
  /-- the queue is not ACTIVE, holds no packet, or is held by a co-resident grid -/
  | none
  | waits
  /-- a slot or dependence that cannot be read -/
  | fail (code : FaultCode) (va : Nat)
  | bad
  /-- it can start -/
  | ready (p : Packet)
  deriving DecidableEq, Repr

/-- Every earlier packet of the queue has completed. -/
def State.earlierDone (s : State) (queue : Nat) : Bool := !s.grids.values.any (fun g => g.queue == some queue)

/-- A co-resident grid holds the head of a user queue. -/
def State.headHeld (s : State) (queue : Nat) : Bool := s.grids.values.any (fun g => g.queue == some queue && g.atHead && !g.left)

/-- The first dependence that fails, is unmet, or none. -/
def State.depsView (s : State) (c : Nat) (deps : List Nat) : DepView :=
  let views := deps.map (s.depView c)
  match views.find? (fun v => match v with | .fail .. => true | _ => false) with
  | some v => v
  | none => if views.all (fun v => v == .met) then .met else .unmet

def State.headOf (s : State) (queue : Nat) : Head :=
  let q := s.queues.get queue
  if !(decide (q.state = .active) && (s.ctx q.ctx.toNat).valid && decide (q.read < q.tail)) || s.headHeld queue then .none
  else match s.slotAt q q.read.toNat with
    | .moving | .notReady => .waits
    | .fail code va => .fail code va
    | .bad => .bad
    | .packet p =>
      match s.depsView q.ctx.toNat p.deps with
      | .fail code va => .fail code va
      | .unmet => .waits
      | .met => if p.order && !s.earlierDone queue then .waits else .ready p

/-- One report for the first failure met at a head (R305): one for the whole head, of the slot or else of the first DEP in order that fails
(DESIGN CHOICE, log entry 127). -/
def State.reportHead (s : State) (queue : Nat) (code : FaultCode) (va : Nat) : State :=
  let q := s.queues.get queue
  if q.reported then s
  else ({ s with queues := s.queues.insert queue { q with reported := true } }).report
    (.plain code q.ctx.toNat (BitVec.ofNat 64 va))

/-- DEPENDENCE_RECHECK: the front end reads the head's slot and dependences again (R302, R305); what it finds decides which of
the queue's events can come about. -/
def execDependenceRecheck (queue : Nat) (s : State) : Result :=
  match s.headOf queue with
  | .fail code va => .next (s.reportHead queue code va)
  | _ => .next s

/-! Order among the queues of an I/O die (R298, R306). -/

/-- The I/O die of a user queue. -/
def queueIo (queue : Nat) : Nat := if queue < 2048 then 0 else 1

/-- A co-resident child holds a context's device queue. -/
def State.devHeld (s : State) (c : Nat) : Bool := s.grids.values.any (fun g => g.ctx == c && g.queue.isNone && g.atHead)

/-- The packet in slot i of a context's device queue, as the ring at DEVQ holds it, if it is ready (R289, R301, R308). A packet that is
not one LAUNCH writes is not (DESIGN CHOICE, log entry 88). -/
def State.devPacket (s : State) (c i : Nat) : Slotted :=
  match s.vread c (devAddr (s.ctx c).devq i) 128 with
  | .moving => .moving
  | .fail code va => .fail code va
  | .bytes bs =>
    let p : Packet := BitVec.ofNat 1024 (leNat bs)
    if p.readyAt i && !p.malformed && p.type == 1 then .packet p else .notReady

/-- How the head of a context's device queue stands (R289, R305, R308). -/
def State.devHead (s : State) (c : Nat) : Head :=
  let x := s.ctx c
  if !(x.valid && !x.devOff && decide (x.devTake < x.devPut)) || s.devHeld c then .none
  else match s.devPacket c x.devTake with
    | .packet p => .ready p
    | .fail code va => .fail code va
    | .moving | .notReady | .bad => .waits

/-- The device queue of a context has a packet that can be taken (R308). -/
def State.devReady (s : State) (c : Nat) : Bool := match s.devHead c with | .ready _ => true | _ => false

/-- The priority of a queue: as its tenant's plug-in has set it, else as it declares (R297). -/
def Queue.level (q : Queue) : BitVec 2 := q.policy.getD q.pri

/-- The precedence of every head that can start on an I/O die: PRI and the step since which it has waited. -/
def State.startable (s : State) (io : Nat) : List (Nat × Nat) :=
  let users := s.queues.keys.filterMap (fun q =>
    if queueIo q = io then
      match s.headOf q with
      | .ready _ => some ((s.queues.get q).level.toNat, (s.queues.get q).since)
      | _ => none
    else none)
  let devs := s.ctxs.keys.filterMap (fun c => if ioOf c = io ∧ s.devReady c then some (0, (s.ctx c).devSince) else none)
  users ++ devs

/-- No head of the I/O die comes before this one. -/
def State.isFirst (s : State) (io : Nat) (pri since : Nat) : Bool :=
  (s.startable io).all (fun x => decide (pri < x.1) || (pri == x.1 && decide (since ≤ x.2)))

/-- A head that can start and is first on its I/O die. -/
def State.startHead (s : State) (queue : Nat) : Option Packet :=
  match s.headOf queue with
  | .ready p =>
    let q := s.queues.get queue
    if s.isFirst (queueIo queue) q.level.toNat q.since then some p else none
  | _ => none

/-- BARRIER_PACKET_START (R305). -/
def execBarrierPacketStart (queue : Nat) (s : State) : Result :=
  match s.startHead queue with
  | some p =>
    if p.type = 2 then
      let q := s.queues.get queue
      .next ((s.decrement q.ctx.toNat q.func.toNat p.bsig 0).advance queue (q.read.toNat + 1))
    else .next s
  | none => .next s

/-! Acceptance. -/

/-- Compute dies that hold a core of the context's partition, ascending (R312). -/
def State.diesOf (s : State) (c : Nat) : List Nat := (List.range Config.dies).filter (fun d => (s.coresOf c).any (fun p => p.1 == d))

/-- The home die of a grid (R312). -/
def State.homeOf (s : State) (c seq : Nat) : Nat := (s.diesOf c).getD (seq % (s.diesOf c).length) 0

/-- The partner of a launch in its queue. -/
structure Partner where
  copy : LaunchCopy
  index : Nat
  /-- a BARRIER stands between, or a DEP names another signal than the launch's (R248, GAP) -/
  gap : Bool
  depth : Nat
  parent : Option Parent

/-- What looking for a partner gives. -/
inductive PartnerView where
  /-- a page is being moved -/
  | wait
  | none
  | found (n : Partner)

/-- The partner found, if one is. -/
def PartnerView.partner : PartnerView → Option Partner
  | .found n => some n
  | .wait | .none => Option.none

/-- Stoat's finding on a launch and its partner; it waits where a read for the partner does (R248, R331). -/
def State.examineWith (s : State) (c : Nat) (r : LaunchCopy) : PartnerView → Examined
  | .wait => .wait
  | .none => s.examine c r Option.none false
  | .found n => s.examine c r (some n.copy) n.gap

/-- The partner N of launch L in a user queue: the first LAUNCH packet above it, every packet before it a BARRIER (R248). A ready packet
that is malformed is none of these, so that there is no partner (DESIGN CHOICE, log entry 103). A slot on a page that is being moved
is waited for (R331). N's record and image are read here, and where the pair is refused again when N itself is accepted (R245; DESIGN
CHOICE, log entry 125). -/
def State.partnerAt (s : State) (q : Queue) (signal : Nat) (barrier : Bool) : Nat → Nat → PartnerView
  | 0, _ => .none
  | n + 1, i =>
    match s.slotAt q i with
    | .packet p =>
      if p.type = 2 then State.partnerAt s q signal true n (i + 1)
      else match s.readLaunch q.ctx.toNat p.lrec with
        | .moving => .wait
        | .fail _ _ => .none
        | .copy r => .found { copy := r, index := i, gap := barrier || p.deps.any (fun d => d != signal), depth := 0, parent := none }
    | .moving => .wait
    | .notReady | .fail .. | .bad => .none

/-- A launch about to be accepted. -/
structure Launching where
  ctx : Nat
  queue : Option Nat
  index : Nat
  pri : BitVec 2
  copy : LaunchCopy
  depth : Nat
  parent : Option Parent
  /-- SPLICEINFO of an earlier examination as consumer, else 0 (R254) -/
  note : BitVec 16

/-- SPLICEINFO of an examination as consumer that refused (R254): SIDE 1. -/
def consumerNote (code : Nat) : BitVec 16 := BitVec.ofNat 16 (0x4000 + code)

/-- What an acceptance leaves: the state, how many of the packets are passed, and the note for the partner. -/
structure Accepted where
  state : State
  /-- index of the packet after those accepted -/
  next : Nat
  /-- the grid stays at its queue's head (R305) -/
  held : Bool
  note : Option (BitVec 16)

/-- Acceptance of a launch (R305, R306, R311): its number, Stoat's finding, the admission checks, the grid. Each launch of a pair passes the
checks of R32 by itself, so that a co-resident pair whose joint demands exceed its partition is fused, and waits at its queue's head
for as long as the partition stays so (DESIGN CHOICE, log entry 97). The grid of a pair has the producer's
depth, its consumer's code reads its own (R34, R311, R345; DESIGN CHOICE, log entry 96). -/
def State.acceptWith (s : State) (l : Launching) (n : Option Partner) (x : Examined) : Option Accepted :=
  let seq := s.seq
  let grid := fun (info : BitVec 16) (f : Option Fused) =>
    ({ ctx := l.ctx, queue := l.queue, pktIndex := l.index, pri := l.pri, copy := l.copy, depth := l.depth, parent := l.parent,
       counter := 0, home := s.homeOf l.ctx seq, drawn := [], done := 0,
       atHead := l.copy.coresident, spliceInfo := info, fused := f } : Grid)
  match x, n with
  | .wait, _ => none
  | .fuse f, some n =>
    let f := { f with seq := seq + 1, pktIndex := n.index, depth := n.depth, parent := n.parent }
    some { state := { s with seq := seq + 2, grids := s.grids.insert seq (grid 0x8000 (some f)) }, next := n.index + 1,
           held := l.copy.coresident, note := none }
  | .fuse _, none => none
  | .refuse code, _ =>
    let info := if code = 0 then l.note else BitVec.ofNat 16 code
    let s := { s with seq := seq + 1 }
    let note := if code = 0 then none else some (consumerNote code)
    match l.copy.cause (s.coresOf l.ctx).length with
    | some cause =>
      some { state := s.refuseLaunch l.ctx l.copy cause l.queue seq info l.parent, next := l.index + 1, held := false, note := note }
    | none =>
      some { state := { s with grids := s.grids.insert seq (grid info none) }, next := l.index + 1, held := l.copy.coresident,
             note := note }

/-- A launch whose record cannot be read is accepted and takes its number (R33, R306), is reported, and its packet completes
(R32). -/
def State.reportRecord (s : State) (c lrec : Nat) : State :=
  { s with seq := s.seq + 1 }.report (.plain .xlat c (BitVec.ofNat 64 lrec))

/-- The launch at the head of a user queue is accepted (R305, R311). -/
def State.acceptUser (s : State) (queue : Nat) (p : Packet) : State :=
  let q := s.queues.get queue
  let c := q.ctx.toNat
  let i := q.read.toNat
  match s.readLaunch c p.lrec with
  | .moving => s
  | .fail _ _ => (s.reportRecord c p.lrec).advance queue (i + 1)
  | .copy r =>
    let noted : BitVec 16 := match q.note with | some (j, v) => if j = i then v else 0 | none => 0
    let l : Launching := { ctx := c, queue := some queue, index := i, pri := q.level, copy := r, depth := 0, parent := none,
                           note := noted }
    let view := if r.spliceAt = 0 then .none else s.partnerAt q r.signal false (q.tail.toNat - i - 1) (i + 1)
    match s.acceptWith l view.partner (s.examineWith c r view) with
    | none => s
    | some a =>
      let t := match a.note, view.partner with
        | some v, some n => { a.state with queues := a.state.queues.modify queue (fun q => { q with note := some (n.index, v) }) }
        | _, _ => a.state
      if a.held then t else t.advance queue a.next

/-- LAUNCH_ACCEPTANCE (R305, R306, R311). A malformed head halts its queue (R301). -/
def execLaunchAcceptance (queue : Nat) (s : State) : Result :=
  match s.headOf queue with
  | .bad => .next { s with queues := s.queues.modify queue (fun q => { q with state := .badpkt }) }
  | .fail code va => .next (s.reportHead queue code va)
  | _ =>
    match s.startHead queue with
    | some p => if p.type = 1 then .next (s.acceptUser queue p) else .next s
    | none => .next s

/-! Device queues (R308). -/

/-- The front end has taken the packets of a device queue below an index. -/
def Context.taken (x : Context) (next tick : Nat) : Context :=
  { x with devTake := next, devReported := false, devSlots := x.devSlots.filter (fun e => decide (next ≤ e.1)), devSince := tick }

/-- The partner of a launch in slot i of a device queue: the launch in the next slot, present and ready in the ring (R248, R301). -/
def State.devPartner (s : State) (c i : Nat) : PartnerView :=
  match (s.ctx c).devSlots.find? (i + 1) with
  | some ⟨some k, depth, parent, _, _⟩ =>
    match s.devPacket c (i + 1) with
    | .moving => .wait
    | .packet _ => .found { copy := k, index := i + 1, gap := false, depth := depth, parent := parent }
    | .notReady | .fail .. | .bad => .none
  | _ => .none

/-- The oldest packet of a device queue is taken (R308, R311). -/
def State.takeDev (s : State) (c : Nat) : State :=
  let x := s.ctx c
  let i := x.devTake
  match x.devSlots.find? i with
  | none => { s with ctxs := s.ctxs.insert c (x.taken (i + 1) s.tick) }
  | some d =>
    match d.copy with
    | none =>
      let s := { s with ctxs := s.ctxs.insert c (x.taken (i + 1) s.tick) }
      (s.reportRecord c d.lrec.toNat).childDone d.parent
    | some r =>
      let l : Launching := { ctx := c, queue := none, index := i, pri := 0, copy := r, depth := d.depth, parent := d.parent,
                             note := d.note }
      let view := if r.spliceAt = 0 then .none else s.devPartner c i
      match s.acceptWith l view.partner (s.examineWith c r view) with
      | none => s
      | some a =>
        let t := match a.note with
          | some v => { a.state with ctxs := a.state.ctxs.modify c (fun x =>
              { x with devSlots := x.devSlots.modify (i + 1) (fun e => { e with note := v }) }) }
          | none => a.state
        { t with ctxs := t.ctxs.modify c (fun x => x.taken a.next s.tick) }

/-- One report for a failure met at the head of a device queue (R305). -/
def State.reportDev (s : State) (c : Nat) (code : FaultCode) (va : Nat) : State :=
  if (s.ctx c).devReported then s
  else { s with ctxs := s.ctxs.modify c (fun x => { x with devReported := true }) }.report (.plain code c (BitVec.ofNat 64 va))

/-- DEVICE_QUEUE_TAKE (R306, R308). -/
def execDeviceQueueTake (ctx : Nat) (s : State) : Result :=
  match s.devHead ctx with
  | .fail code va => .next (s.reportDev ctx code va)
  | _ =>
  if s.devReady ctx && s.isFirst (ioOf ctx) 0 (s.ctx ctx).devSince then .next (s.takeDev ctx) else .next s

/-! Fabric packets (R309). -/

/-- A valid fabric entry matches source package, source context and target queue. -/
def State.fabricEntry (s : State) (pkg ctx queue : Nat) : Bool :=
  let tenant := (s.ctx (s.queues.get queue).ctx.toNat).tenant
  s.fabric.any (fun e => e.1 / 64 == tenant
    && (flag e.2 63 && nfld e.2 32 12 == pkg && nfld e.2 24 8 == ctx && nfld e.2 12 12 == queue))

/-- The packet as its producer publishes it at ring index i: READY is that of the index (R301, R303). -/
def publishedAt (i : Nat) (packet : List Byte) : List Byte :=
  (packet.take 4 ++ leBytes 4 ((i + 1) % 2 ^ 32) ++ packet.drop 8).take 128

/-- FABRIC_LAUNCH_PACKET: it does not arrive while the link is down (R364); refused with a cause, or published as a producer would
at the queue's next index. The tenant of a queue is that of its context (R297, R309; DEDUCED, log entry 55). A queue whose context
is not valid cannot be active (R299, R291), and is refused as one that is not. Where the slot cannot be translated or written the write
is dropped, and the packet counts as published (DESIGN CHOICE, log entry 128). -/
def execFabricLaunchPacket (srcPkg srcCtx queue : Nat) (approved : Bool) (packet : List Byte) (s : State) : Result :=
  let q := s.queues.get queue
  let c := q.ctx.toNat
  let i := q.tail.toNat
  let refuse := fun (cause : Nat) => Host.Outcome.next (s.send (.fabric srcPkg (some cause)))
  if s.downLinks.contains 5 then .next s
  else if !s.fabricEntry srcPkg srcCtx queue then refuse 0
  else if !approved || s.stopped.contains (s.ctx c).tenant then refuse 1
  else if q.state ≠ .active ∨ !(s.ctx c).valid then refuse 2
  else if q.size ≤ (q.tail - q.read).toNat then refuse 3
  else
    let s := s.post (.bytes c (q.ring.toNat + 128 * (i % q.size)) none (publishedAt i packet))
    let since := if q.read = q.tail then s.tick else q.since
    let s := { s with queues := s.queues.insert queue { q with tail := q.tail + 1, since := since } }
    .next (s.send (.fabric srcPkg none))

/-! Activation, disabling and function-level reset. -/

/-- A co-resident grid that waits at the head of a queue stays there when the queue is activated with its packet at READ again; otherwise it
has left the head, and waits to be admitted as before (R39, R299, R305; DESIGN CHOICE, log entry 120). -/
def Grid.reheaded (g : Grid) (queue : Nat) (old new : Queue) : Grid :=
  if g.queue = some queue ∧ g.atHead ∧ ¬(new.ctx = old.ctx ∧ new.ring = old.ring ∧ new.read.toNat = g.pktIndex)
    then { g with left := true } else g

/-- A device queue runs again; from now on its packet is at its head (R306, R342). -/
def Context.devRun (x : Context) (tick : Nat) : Context :=
  { x with devOff := false, devBare := false, devSince := if x.devOff then tick else x.devSince }

/-- QUEUE_ACTIVATE: QCTL, RING, MIRROR, READ and TAIL are written with STATE 1 to a DISABLED queue (R299, R304); one that fails
the conditions stays DISABLED. A RING or MIRROR that is not aligned is no condition, and is used as it stands (DESIGN CHOICE, log entry
117). Activating a queue of a context makes its device queue run again (R342). -/
def execQueueActivate (queue : Nat) (desc : BitVec 320) (s : State) : Result :=
  let old := s.queues.get queue
  let c := nfld desc 0 8
  let size := nfld desc 32 5
  let read : DWord := fld desc 192 64
  let tail : DWord := fld desc 256 64
  let ok := (s.ctx c).valid && decide (3 ≤ size ∧ size ≤ 16) && decide ((tail - read).toNat ≤ 2 ^ size)
  if 4096 ≤ queue ∨ old.state ≠ .disabled then .next s
  else
    let q : Queue := { state := if ok then .active else .disabled, pri := fld desc 60 2, policy := none, func := fld desc 52 8,
                       log2size := fld desc 32 5, ctx := fld desc 0 8, ring := fld desc 64 64, mirror := fld desc 128 64,
                       read := read, tail := tail, reported := false, since := s.tick, note := none }
    let s := { s with queues := s.queues.insert queue q, grids := s.grids.mapVals (fun g => g.reheaded queue old q) }
    .next (if ok then { s with ctxs := s.ctxs.modify c (fun x => x.devRun s.tick) } else s)

/-- QUEUE_DISABLE: the scheduler disables a queue (R299, R304). -/
def execQueueDisable (queue : Nat) (s : State) : Result :=
  .next { s with queues := s.queues.modify queue (fun q => { q with state := .disabled }) }

/-- Contexts bound to a function: those of its queues, whatever their STATE, that are valid (R298, R310; DESIGN CHOICE, log entry 129). -/
def State.boundTo (s : State) (func : Nat) : List Nat :=
  (((s.queues.values.filter (fun q => q.func.toNat == func)).map (fun q => q.ctx.toNat)).eraseDups).filter (fun c => (s.ctx c).valid)

/-- A context ends for a reason that no crew raised: it is reported and the reset rung runs (R332, R333, R342). -/
def State.endContext (s : State) (c : Nat) (code : FaultCode) : State :=
  let r := Report.plain code c 0
  (s.report r).resetRung c r none

/-- FUNCTION_LEVEL_RESET over PCIe (R364): the queues of the function become DISABLED and every context bound to it ends (R310, R332). -/
def execFunctionLevelReset (func : Nat) (s : State) : Result :=
  let s1 := { s with queues := s.queues.mapVals (fun q => if q.func.toNat == func then { q with state := .disabled } else q) }
  .next (if s.downLinks.contains 0 then s else (s.boundTo func).foldl (fun (s : State) c => s.endContext c .resetfn) s1)

end Sys2Proof.Machine
end

