-- ==== Sys2Proof/Machine/Dispatchers.lean ====
section
/-! DEFINITION. Dispatchers: the room of a core, the order of draws and admissions, a workgroup at admission, and its retirement or
parking (20 R312 to R317; 01 R36, R39; 02 R43; 22 R340). -/

namespace Sys2Proof.Machine

/-! Room (R315, R316). -/

/-- What is taken of a core: the demands of its residents. -/
def State.taken (s : State) (die core : Nat) : List Demand := (s.residents die core).map (fun w => (s.gridOf w).demand)

/-- Free crew slots of a core. -/
def State.freeSlots (s : State) (die core : Nat) : Nat :=
  Config.crewSlots - ((s.taken die core).map (·.crews)).sum

/-- A core has room for a demand (R316). -/
def State.hasRoom (s : State) (d : Demand) (die core : Nat) : Bool :=
  let t := s.taken die core
  decide ((t.map (·.crews)).sum + d.crews ≤ Config.crewSlots ∧ (t.map (·.regBytes)).sum + d.regBytes ≤ Config.laneBytes
    ∧ (t.map (·.tiles)).sum + d.tiles ≤ Config.coreTiles ∧ (t.map (·.scratch)).sum + d.scratch ≤ Config.scratchBytes
    ∧ d.accBlocks ≤ s.poolFree die core)

/-- A ladder keeps the workgroups of a grid from being drawn, admitted and resumed (R340). -/
def State.barred (s : State) (ctx seq : Nat) : Bool :=
  s.ladders.any (fun l => l.ctx == ctx && (l.scope == 0 || (l.scope == 1 && l.target.toNat == seq)))

/-- A ladder keeps a core from admitting workgroups of a context (R340). -/
def State.coreBarred (s : State) (ctx die core : Nat) : Bool :=
  s.ladders.any (fun l => l.ctx == ctx && l.scope == 2 && flag l.mask (64 * die + core))

/-- Cores of a die that may take workgroups of a context: of its partition and not leaving it, of its world, in service, no
die at its thermal limit, and no change of the region table holding admission (R292, R293, R316, R361, R365). The cores that such a change
affects are all of them (DESIGN CHOICE, log entry 112). -/
def State.openCores (s : State) (ctx die : Nat) : List Nat :=
  (List.range Config.cores).filter (fun core =>
    (s.coresOf ctx).contains (die, core) && !(s.partitions.get (s.ctx ctx).part).leaving.contains (die, core) && (s.secureCores.contains (coreKey die core) == (s.ctx ctx).secure)
      && !s.retired.contains (coreKey die core) && s.hot.isEmpty && s.regionHold.isNone && !s.coreBarred ctx die core)

/-- The core with the most free crew slots of a list, the lowest of equals. -/
def State.emptiest (s : State) (die : Nat) : List Nat → Option Nat
  | [] => none
  | c :: cs =>
    match State.emptiest s die cs with
    | none => some c
    | some d => if s.freeSlots die c < s.freeSlots die d then some d else some c

/-- The core of a die that R316 picks for a demand of a context. -/
def State.pickFor (s : State) (ctx : Nat) (d : Demand) (die : Nat) : Option Nat :=
  s.emptiest die ((s.openCores ctx die).filter (fun c => s.hasRoom d die c))

/-- The core of a die that R316 picks for a workgroup of a grid. -/
def State.pickCore (s : State) (g : Grid) (die : Nat) : Option Nat := s.pickFor g.ctx g.demand die

/-! Order of a dispatcher's work (R314). -/

/-- Grid order: lowest PRI first, then lowest SEQ. -/
def gridBefore (a b : Nat × Grid) : Bool :=
  decide (a.2.pri < b.2.pri) || (a.2.pri == b.2.pri && decide (a.1 < b.1))

/-- The lowest index that a die has drawn for a grid and not admitted. -/
def Grid.drawnOn (g : Grid) (die : Nat) : Option Nat :=
  ((g.drawn.filter (fun p => p.1 == die)).map (·.2)).foldl
    (fun (m : Option Nat) i => match m with | some j => some (min i j) | none => some i) none

/-- The die can take a drawn index of the grid now. -/
def State.canAdmit (s : State) (e : Nat × Grid) (die : Nat) : Bool :=
  (e.2.drawnOn die).isSome && !s.barred e.2.ctx e.1 && (s.pickCore e.2 die).isSome

/-- The die can draw for the grid now (R313); a co-resident grid is drawn when it is admitted (R317). -/
def State.canDraw (s : State) (e : Nat × Grid) (die : Nat) : Bool :=
  let g := e.2
  !g.copy.coresident && !s.barred g.ctx e.1 && decide (g.counter < g.copy.total)
    && (s.diesOf g.ctx).contains die && (s.pickCore g die).isSome

/-- A grid after a draw of n indices by a die (R313). -/
def Grid.draw (g : Grid) (die n : Nat) : Grid :=
  let got := (List.range (min n (g.copy.total - g.counter))).map (fun i => (die, g.counter + i))
  { g with counter := g.counter + n, drawn := g.drawn ++ got }

/-! Admission (R22, R43, R316). -/

/-- The lanes of crew k of a role that start live. -/
def LaunchCopy.liveAt (r : LaunchCopy) (role k : Nat) : Mask :=
  if k < r.crews role then laneMask (min r.width (r.threads role - k * r.width)) else 0

/-- Crew k of a role at admission: one with no live lane is reserved (R22, R25, R316). -/
def LaunchCopy.crewAt (r : LaunchCopy) (role k : Nat) : Crew :=
  let live := r.liveAt role k
  { (default : Crew) with
      role := BitVec.ofNat 2 role, number := k, status := if live = 0 then .reserved else .live, live := live,
      pc := BitVec.ofNat 52 (r.entry role), nextId := 1 }

/-- The crews of a workgroup at admission, in the order of role code and number; each takes the next slot. -/
def LaunchCopy.crewsAt (r : LaunchCopy) : SMap Crew :=
  let all := r.roles.flatMap (fun role => (List.range (r.crewsMax role)).map (r.crewAt role))
  (List.range all.length).zip all

/-- A share of a core that no resident has: the first free one from Config.share on. -/
def State.freeShare (s : State) (wid die core : Nat) : Nat :=
  let held := (s.residents die core).map (·.share)
  ((List.range 512).find? (fun i => !held.contains (((Config.share s.tick wid).val + i) % 512))).elim 0
    (fun i => ((Config.share s.tick wid).val + i) % 512)

/-- What a workgroup holds when it is admitted or resumed: the registers of the crews that have started, its tiles, the accumulators that
are bound, its scratchpad and its codebooks (R43, R87, R349). -/
def Workgroup.heldLines (w : Workgroup) (tiles spBytes : Nat) : List ArrayLine :=
  w.crewLines ++ (List.range tiles).map (⟨2, ·⟩) ++ w.accs.keys.map (⟨3, ·⟩)
    ++ (List.range ((spBytes + 4095) / 4096)).map (⟨4, ·⟩) ++ w.books.keys.map (⟨5, ·⟩)

/-- A workgroup's state is set in its share of the core's arrays: at admission as R43 and R87 say, at resumption as its area does. -/
def State.setLines (s : State) (w : Workgroup) : State :=
  s.mark w (w.heldLines (s.gridOf w).tileCount (s.gridOf w).spBytes)

/-- A workgroup at admission (R43, R218, R344). -/
def Grid.newWorkgroup (g : Grid) (seq index die core share admitted : Nat) : Workgroup where
  ctx := g.ctx
  seq := seq
  index := index
  die := die
  core := core
  share := share
  admitted := admitted
  parked := false
  children := []
  launched := 0
  idem := true
  crews := g.copy.crewsAt
  tiles := []
  accs := []
  bars := []
  scratch := []
  tags := []
  books := []
  jcur := [0, 1, 2, 3].map (fun r => (r, jcurIdle))
  handles := []

/-- The list without the first entry equal to x. -/
def dropFirst {α : Type} [DecidableEq α] (x : α) : List α → List α
  | [] => []
  | y :: ys => if y = x then ys else y :: dropFirst x ys

/-- A drawn index becomes a workgroup on a core. -/
def State.admitOn (s : State) (seq : Nat) (g : Grid) (die index core : Nat) : State :=
  let w := g.newWorkgroup seq index die core (s.freeShare s.nextWid die core) s.nextWid
  { s with
    grids := s.grids.insert seq { g with drawn := dropFirst (die, index) g.drawn },
    wgs := s.wgs.insert s.nextWid w,
    nextWid := s.nextWid + 1 }.setLines w

/-- The lowest drawn index of a grid on a die is admitted where R316 places it, if there is room (R313, R316). -/
def State.admitNext (s : State) (seq die : Nat) : State :=
  match s.grids.find? seq with
  | none => s
  | some g =>
    match g.drawnOn die, s.pickCore g die with
    | some index, some core => s.admitOn seq g die index core
    | _, _ => s

/-! Retirement and parking (R36, R115). -/

/-- Every access of the crew has returned and no MMA is open (R37, R350). -/
def Crew.settled (c : Crew) : Bool := c.flying.isEmpty && c.mma.isNone

/-- All crews of the workgroup have retired; those never started cannot start any more. -/
def Workgroup.finished (w : Workgroup) : Bool :=
  w.crews.values.all (fun c => decide (c.status = .retired ∨ c.status = .reserved) && c.settled)

/-- A parked workgroup keeps its record and its barrier objects (R36). -/
def Workgroup.park (w : Workgroup) : Workgroup :=
  { w with parked := true, crews := [], tiles := [], accs := [], scratch := [], tags := [], books := [], jcur := [] }

/-- A workgroup retires; with the last one its grid does (R36, R115). -/
def State.retireWg (s : State) (wid : Nat) (w : Workgroup) : State :=
  let s : State := { s with wgs := s.wgs.erase wid, grids := s.grids.modify w.seq (fun g => { g with done := g.done + 1 }) }
  let g := s.grids.get w.seq
  if g.copy.total ≤ g.done then s.retireGrid w.seq 0 0 else s

end Sys2Proof.Machine
end

