-- ==== Sys2Proof/Machine/LaneMatrix.lean ====
section
/-! DEFINITION. The matrix unit and its accumulators (09 R196 to R206, R209; 03 R71 to R73; 22 R338). -/

namespace Sys2Proof.Machine

/-! Tiles as operands (R196, R197). -/

/-- Element k of row r, of elements of a width in bits (R196). -/
def tileElem (t : Tile) (bits r k : Nat) : Nat :=
  leNat (SMap.slice t (128 * r + k * bits / 8) ((bits + 7) / 8)) / 2 ^ (k * bits % 8) % 2 ^ bits

/-- The two exponents of block b of row r in a scale tile: e_lo and e_hi, of an MX block its scale (R197). -/
def tileScale (t : Tile) (scale r b : Nat) : Nat × Nat :=
  let at_ := 32 * r + b * scale
  ((SMap.get t at_ : Byte).toNat, if scale = 2 then (SMap.get t (at_ + 1) : Byte).toNat else 127)

/-- Elements of a row: K (R196). -/
def rowElems (fmt : Nat) : Nat := 1024 / elemBits fmt

/-- The values of row r of a tile through a slot; `scaled` says that its scale tile is read. -/
def tileRow (f : Slot) (scaled : Bool) (t sc : Tile) (r : Nat) : List Num :=
  (List.range (rowElems f.fmt)).map (fun k =>
    let x := if scaled then tileScale sc f.scale r (k / 32) else (127, 127)
    decSlot f (tileElem t (elemBits f.fmt) r k) x.1 x.2)

/-- The elements of row r as integers (R200). -/
def tileInts (fmt : Nat) (t : Tile) (r : Nat) : List Int :=
  (List.range (rowElems fmt)).map (fun k => signedOf (elemBits fmt) (tileElem t (elemBits fmt) r k))

/-! MMA (R199 to R201). -/

/-- Floating-point formats of an MMA, by element bits (R200). -/
def mmaFloat (fmt : Nat) : Bool := [0x02, 0x03, 0x04, 0x05, 0x10, 0x11, 0x13, 0x18, 0x12, 0x19].contains fmt

/-- Both slots name integer formats of one row (R200). -/
def mmaInteger (fa fb : Nat) : Bool :=
  let eight := fun (x : Nat) => x == 0x07 || x == 0x13
  (eight fa && eight fb) || (fa == 0x08 && fb == 0x08)

/-- The pair is one that MMA accepts (R200). -/
def mmaPair (fa fb : Slot) : Bool :=
  if mmaInteger fa.fmt fb.fmt then !fa.ce && !fb.ce
  else mmaFloat fa.fmt && mmaFloat fb.fmt && elemBits fa.fmt == elemBits fb.fmt

/-- The operand's scale tile is read. -/
def mmaScaled (fa fb f : Slot) : Bool := blockFormat f.fmt && !mmaInteger fa.fmt fb.fmt

/-- An operand tile of number t breaks R197 or lies at or above T. -/
def badTile (scaled : Bool) (tiles t : Nat) : Bool :=
  if scaled then t % 2 != 0 || decide (tiles ≤ t + 1) else decide (tiles ≤ t)

/-- The halves of an MMA (R201). -/
def mmaHalves (width : Nat) (f : LaneFields) : List Nat := if width = 64 then [0, 1] else [nfld f.subop 1 1]

/-- One word of the product: the exact sum rounded once (R72, R73). -/
def mmaWord (integer sat : Bool) (old : Word) (a b : List Num) (ia ib : List Int) : Word :=
  if integer then
    let v := ((ia.zip ib).map (fun p => p.1 * p.2)).foldl (· + ·) old.toInt
    BitVec.ofInt 32 (if sat then satInt v (-2147483648) 2147483647 else v)
  else toF32 (Num.sum (ofF32 old :: (a.zip b).map (fun p => p.1.mul p.2)))

/-- Key of word (i, j) of an accumulator (R198). -/
def accKey (i j : Nat) : Nat := 64 * i + j

/-- The accumulator after an MMA of operand image `m` (R201). -/
def MmaImage.apply (m : MmaImage) (fa fb : Slot) (width : Nat) (acc : Cells 32) : Cells 32 :=
  let integer := mmaInteger fa.fmt fb.fmt
  let col := 32 * nfld m.f.subop 0 1
  let hs := mmaHalves width m.f
  let bs := (List.range 32).map (fun j => (tileRow fb (mmaScaled fa fb fb) m.b m.sb j, tileInts fb.fmt m.b j))
  let writes := (hs.zip [(m.a0, m.s0), (m.a1, m.s1)]).flatMap (fun h =>
    (List.range 32).flatMap (fun i =>
      let a := tileRow fa (mmaScaled fa fb fa) h.2.1 h.2.2 i
      let ia := tileInts fa.fmt h.2.1 i
      (bs.zip (List.range 32)).map (fun b =>
        let key := accKey (32 * h.1 + i) (col + b.2)
        (key, mmaWord integer m.f.sat (acc.get key) a b.1.1 ia b.1.2))))
  writes.foldl (fun (x : Cells 32) p => x.put p.1 p.2) acc

/-- What the matrix instructions share: the role, tiles at or above T among `ts`, crew-collective (R203). An operation of
the crew on accumulators waits for the crew's own MMA (R118, R209, R338). -/
def matrixIssue (s : State) (i : Instr) (f : LaneFields) (ts : List Nat) (groups : Nat × Nat × Nat × Nat)
    (run : Grid → Workgroup → Crew → Result) : Result :=
  acting s fun w0 c0 =>
    let badTiles := ts.any (fun t => decide (s.tileLimit w0 ≤ t))
    laneIssue s { LaneSpec.plain i with badRole := !c0.mayMatrix, badDirect := badTiles, collective := true, groups := groups } f
      fun w c _ => if c.mma.isSome then .next s else run (s.gridOf w) w c

/-- The operand image of an MMA with its first tiles ta and tb, read at issue (R201). -/
def mmaImage (tile : Nat → Tile) (ta tb : Nat) (c : Crew) (f : LaneFields) (fa fb : Slot) (wide : Bool) : MmaImage :=
  let sa := mmaScaled fa fb fa
  let second := ta + if sa then 2 else 1
  { f := f, pc := c.run.pc, a0 := tile ta, s0 := if sa then tile (ta + 1) else [],
    a1 := if wide then tile second else [], s1 := if wide && sa then tile (second + 1) else [],
    b := tile tb, sb := if mmaScaled fa fb fb then tile (tb + 1) else [] }

/-- MMA (R199 to R201): it reads its tiles now and commits by MMA_COMMIT. Each tile is read as it stands at this moment, also where
another crew's ACCCVT or SSLD races with it (R209; DESIGN CHOICE, log entry 100). -/
def execMma (f : LaneFields) (s : State) : Result :=
  matrixIssue s (.mma f) f [f.srca.toNat, f.srcb.toNat] (1, 1, 1, 1) fun _ w c =>
    let fa := s.slot w f.fa.toNat
    let fb := s.slot w f.fb.toNat
    let sa := mmaScaled fa fb fa
    let width := s.width w
    let ta := s.tileNumber w c f.srca.toNat
    let tb := s.tileNumber w c f.srcb.toNat
    let as := if width = 64 then [ta, ta + if sa then 2 else 1] else [ta]
    let tile := fun (n : Nat) => w.tiles.get (s.tileHome w c n)
    trapsThen s (passOn s w { c with mma := some (mmaImage tile ta tb c f fa fb (width == 64)) } f)
      [(!mmaPair fa fb, .fmtslot, 0),
       ((width == 64 && flag f.subop 1) || as.any (badTile sa (s.tileLimit w))
          || badTile (mmaScaled fa fb fb) (s.tileLimit w) tb, .range, 0),
       ((w.accs.find? f.dest.toNat).isNone, .accnone, 0)]

/-- MMA_COMMIT (R198, R202, R338): the accumulator takes the whole result; a handle unbound meanwhile raises ACCNONE, also where
it is bound anew (R166, R203), and commits no more unless its halted crew is resumed and so re-executes it (R334). Of the MMAs that a
resumption replays the first in the log commits first (R348). -/
def execMmaCommit (k : CrewKey) (s : State) : Result :=
  match s.find k with
  | none => .next s
  | some (w, c) =>
    match c.mma with
    | none => .next s
    | some m =>
      let first := m.replay && (w.crews.any (fun e => decide (e.2.role < c.role ∨ (e.2.role = c.role ∧ e.2.number < c.number))
        && match e.2.mma with | some x => x.replay | none => false))
      if first || m.trapped then .next s
      else match if m.unbound then none else w.accs.find? m.f.dest.toNat with
      | some a =>
        let acc := m.apply (s.slot w m.f.fa.toNat) (s.slot w m.f.fb.toNat) (s.width w) a.words
        .next (s.put k { w with accs := w.accs.insert m.f.dest.toNat { a with words := acc } } { c with mma := none })
      | none =>
        let live := decide (c.status = .live)
        let t := s.put k w { c with mma := some { m with replay := false, unbound := !live, trapped := live } }
        .next (if live then t.raise k (c.sideOf .lane) .accnone 0 .lane false m.pc else t)

/-! Accumulator access (R203 to R206). -/

/-- Replacing the words of a bound accumulator. -/
def Workgroup.putAcc (w : Workgroup) (h : Nat) (g : Cells 32 → Cells 32) : Workgroup :=
  { w with accs := w.accs.modify h (fun a => { a with words := g a.words }) }

/-- The committed words of an accumulator. -/
def Workgroup.accWords (w : Workgroup) (h : Nat) : Cells 32 := (w.accs.get h).words

/-- ACCZ (R204). -/
def execAccz (f : LaneFields) (s : State) : Result :=
  matrixIssue s (.accz f) f [] (1, 1, 1, 1) fun _ w c =>
    trapsThen s (passOn s (w.putAcc f.dest.toNat (fun _ => [])) c f) [((w.accs.find? f.dest.toNat).isNone, .accnone, 0)]

/-- Word of a fragment that lane L reaches with its register c (R205). -/
def fragKey (width : Nat) (f : LaneFields) (l c : Nat) : Nat :=
  let q := nfld f.subop 0 2
  accKey (if width = 64 then l else 32 * (q / 2) + l) (32 * (q % 2) + 8 * nfld f.subop 2 2 + c)

/-- A fragment that a width-64 crew may not name (R205). -/
def badFrag (width : Nat) (f : LaneFields) : Bool := width == 64 && flag f.subop 1

/-- ACCRD (R205). -/
def execAccrd (f : LaneFields) (s : State) : Result :=
  matrixIssue s (.accrd f) f [] (8, 1, 1, 1) fun _ w c =>
    let width := s.width w
    let acc := w.accWords f.srca.toNat
    let full := laneMask width
    trapsThen s
      (passOn s w ((List.range 8).foldl (fun (x : Crew) n =>
        x.writeLanes full (fun _ => f.dest.toNat + n) (fun l => acc.get (fragKey width f l n))) c) f)
      [(badFrag width f, .range, 0), ((w.accs.find? f.srca.toNat).isNone, .accnone, 0)]

/-- ACCWR (R205). -/
def execAccwr (f : LaneFields) (s : State) : Result :=
  matrixIssue s (.accwr f) f [] (1, 8, 1, 1) fun _ w c =>
    let width := s.width w
    let cells := (lanesOf (laneMask width)).flatMap (fun l =>
      (List.range 8).map (fun n => (fragKey width f l n, c.v (f.srca.toNat + n) l)))
    trapsThen s
      (passOn s (w.putAcc f.dest.toNat (fun a => cells.foldl (fun (x : Cells 32) p => x.put p.1 p.2) a)) c f)
      [(badFrag width f, .range, 0), ((w.accs.find? f.dest.toNat).isNone, .accnone, 0)]

/-- The words of the source region for tile row i (R206). -/
def cvtRow (acc : Cells 32) (fmt q i : Nat) : List Word :=
  let row := 32 * (q / 2) + i
  if elemBits fmt = 4 then (List.range 64).map (fun j => acc.get (accKey row j))
  else (List.range 32).map (fun j => acc.get (accKey row (32 * (q % 2) + j)))

/-- Little-endian bytes of codes of a width in bits, low nibble first (R60, R196). -/
def packCodes (bits : Nat) (codes : List Nat) : List Byte :=
  leBytes (codes.length * bits / 8)
    (((codes.zip (List.range codes.length)).map (fun p => p.1 % 2 ^ bits * 2 ^ (bits * p.2))).sum)

/-- The 32 lists of 32 that make up a list. -/
def chunks32 (xs : List α) : List (List α) := (List.range (xs.length / 32)).map (fun b => (xs.drop (32 * b)).take 32)

/-- One converted row: its element bytes and, for a block format, its scale bytes from the first block on (R206). -/
def cvtBytes (sl : Slot) (xs : List Num) (draws : List Nat) : List Byte × List Byte :=
  if blockFormat sl.fmt then
    let bs := ((chunks32 xs).zip (chunks32 draws)).map (fun p => quantBlock sl p.1 p.2)
    (packCodes (elemBits sl.fmt) (bs.flatMap (·.codes)),
     bs.flatMap (fun b => if sl.scale = 2 then leBytes 1 b.lo ++ leBytes 1 b.hi else leBytes 1 b.lo))
  else (packCodes (elemBits sl.fmt) ((xs.zip draws).map (fun p => roundSlot sl p.2 p.1)), [])

/-- Greatest p of a format (R206). -/
def cvtParts (fmt : Nat) : Nat := match elemBits fmt with | 32 => 0 | 16 => 1 | _ => 3

/-- ACCCVT (R206). It writes its tile, and the scale tile of a block format, whole in this step (DESIGN CHOICE, log entry 100). -/
def execAcccvt (f : LaneFields) (s : State) : Result :=
  matrixIssue s (.acccvt f) f [f.dest.toNat] (1, 1, 1, 1) fun _ w c =>
    let sl := s.slot w f.fa.toNat
    let q := nfld f.subop 0 2
    let p := nfld f.subop 2 2
    let td := s.tileNumber w c f.dest.toNat
    let home := s.tileHome w c
    let acc := w.accWords f.srca.toNat
    let bits := elemBits sl.fmt
    let blocks := if bits = 4 then 2 * p else p
    let rows := (List.range 32).map (fun i =>
      let xs := cvtRow acc sl.fmt q i
      (i, cvtBytes sl (xs.map ofF32) ((List.range xs.length).map (fun j => s.drawIf w c sl i j))))
    let put := fun (w : Workgroup) (r : Nat × (List Byte × List Byte)) =>
      let at_ := 128 * r.1 + (if bits = 32 then 0 else if bits = 16 then 64 * p else 32 * p)
      let w := { w with tiles := w.tiles.put (home td) (SMap.putList (w.tiles.get (home td)) at_ r.2.1) }
      if r.2.2.isEmpty then w
      else
        let scales := SMap.putList (w.tiles.get (home (td + 1))) (32 * r.1 + blocks * sl.scale) r.2.2
        { w with tiles := w.tiles.put (home (td + 1)) scales }
    trapsThen s (passOn s (rows.foldl put w) c f)
      [(sl.fmt == 0, .fmtslot, 0),
       (decide (cvtParts sl.fmt < p) || (bits == 4 && q % 2 == 1)
          || (blockFormat sl.fmt && badTile true (s.tileLimit w) td), .range, 0),
       ((w.accs.find? f.srca.toNat).isNone, .accnone, 0)]

end Sys2Proof.Machine
end

