-- ==== Sys2Proof/Machine/LaneMem.lean ====
section
/-! DEFINITION. Lane memory instructions at issue: LD, ST, ATOM and CPY (08 R190 to R193; 04 R84 to R95; 22 R336). The events of Machine/Landing.lean perform their accesses. -/

namespace Sys2Proof.Machine

/-- Lane registers that n bytes fill (R191). -/
def memGroup (n : Nat) : Nat := (n + 3) / 4

/-- The sides of the open IFs (R108). -/
def Progress.sides (p : Progress) : List (Nat × Bool) :=
  p.frames.filterMap (fun fr => match fr with | .ifs _ _ elsed mark => some (mark, elsed) | .loop .. => none)

/-- A lane access about to issue; `m` is the record it goes through, which with the class says whether it may allocate (R86,
R95). -/
def laneAccess (c : Crew) (f : LaneFields) (kind : AccessKind) (cls : MemClass) (scope : Scope) (scratch : Bool) (m : BufRec)
    (parts : List Part) : Access where
  id := 0
  stream := .lane
  kind := kind
  pc := c.run.pc
  cls := cls
  scope := scope
  scratch := scratch
  parts := parts
  alloc := m.allocates && cls != .nt
  order := []
  cross := []
  sides := c.run.sides
  batch := none
  fields := some f
  side := c.sideOf .lane
  entry := false

/-- The address of a lane and what of its bytes is accessed. -/
structure LaneAddr where
  lane : Nat
  addr : DWord
  bounds : Bool
  accessed : Nat → Bool

/-- The addresses of the lanes of E through a buffer record, for n bytes (R84, R134). -/
def recordAddrs (c : Crew) (e : Mask) (i : Instr) (f : LaneFields) (m : BufRec) (n : Nat) : List LaneAddr :=
  let coord := fun (p l : Nat) => if p ≤ f.nc then ((operandAt i f p).value c l).toInt else 0
  (lanesOf e).map (fun l =>
    let a := m.form (coord 1 l) (coord 2 l) (coord 3 l) f.off16.toInt n
    ⟨l, a.addr, a.bounds, a.accessed⟩)

/-- The scratchpad addresses of the lanes of E: v + off, both unsigned (R87). -/
def scratchAddrs (c : Crew) (e : Mask) (v : Operand) (off spBytes n : Nat) : List LaneAddr :=
  (lanesOf e).map (fun l =>
    let a := (v.value c l).toNat + off
    ⟨l, BitVec.ofNat 64 a, decide (spBytes < a + n), fun _ => true⟩)

/-- Orders 8 to 11 of R173 for these addresses of n bytes: `bad` says that the record is malformed or of the wrong class. Of
several addresses with a bit above 51 the report names that of the lowest lane (DESIGN CHOICE, log entry 99). -/
def addrTraps (bad scratch : Bool) (as : List LaneAddr) (n : Nat) : List (Bool × FaultCode × DWord) :=
  let far := if scratch then none else (as.find? (fun a => farAddr a.addr)).map (·.addr)
  [(bad, .bounds, 0), (as.any (fun a => misaligned a.addr n), .align, 0), (as.any (·.bounds), .bounds, 0),
   (far.isSome, .xlat, far.getD 0)]

/-- A lane memory instruction stands at its issue: its counter is full, an operand-log entry stands, or four instructions of
the log's kinds are between issue and performance (R50, R336). -/
def Crew.memWaits (c : Crew) (kind : AccessKind) : Bool :=
  !c.roomOn kind.path || c.logging || (kind.logged && decide (4 ≤ c.logCount))

/-- Marking the destination groups of the parts empty (R46). -/
def Crew.awaitParts (c : Crew) (parts : List Part) (n tag : Nat) : Crew :=
  parts.foldl (fun (c : Crew) (p : Part) => (List.range n).foldl (fun (c : Crew) k => c.awaitV (p.dst + k) p.unit tag) c) c

/-- Issue of a lane access: `n` registers of each part's destination become empty. -/
def issueLane (s : State) (w : Workgroup) (c : Crew) (f : LaneFields) (a : Access) (n : Nat) : Result :=
  passOn s w ((c.issue a).awaitParts a.parts n c.nextId) f

/-- The bytes of registers r, r + 1, ... of a lane, little-endian (R191). -/
def Crew.group (c : Crew) (r lane n : Nat) : BitVec 128 :=
  BitVec.ofNat 128 (((List.range n).map (fun k => (c.v (r + k) lane).toNat * 2 ^ (32 * k))).sum)

/-- One lane's part of n bytes. -/
def lanePart (a : LaneAddr) (n : Nat) (data : BitVec 128) (cmp : DWord) (dst sp : Nat) : Part where
  unit := a.lane
  half := 0
  addr := a.addr.toNat
  size := n
  bytes := maskOf a.accessed 0 n
  data := data
  cmp := cmp
  dst := dst
  sp := sp
  pa := none
  held := none

/-- LD, ST and ATOM from orders 8 on: the addresses through the record or the scratchpad, the access of a class and its
parts. -/
def laneMem (s : State) (i : Instr) (f : LaneFields) (cls : MemClass) (w w' : Workgroup) (c : Crew) (e : Mask) (n : Nat)
    (kind : AccessKind) (dests : Nat) (part : LaneAddr → Part) : Result :=
  let g := s.gridOf w
  let m := g.buf f.mslot.toNat
  let as := if f.sp then scratchAddrs c e (operandAt i f 1) f.off16.toNat g.spBytes n else recordAddrs c e i f m n
  let scope := if f.sp then .wg else (Scope.ofCode f.scope).getD .dev
  if c.memWaits kind then .next s
  else trapsThen s
    (issueLane s (if f.sp then w else w') c f (laneAccess c f kind cls scope f.sp m (as.flatMap (fun a => (part a).halves))) dests)
    (addrTraps (!f.sp && !m.ordinary) f.sp as n)

/-- The class that the CLASS field names (R105). -/
def laneClass (f : LaneFields) : MemClass := (MemClass.ofCode f.cls).getD .weak

/-- LD (R191). -/
def execLd (f : LaneFields) (s : State) : Result :=
  let n := memBytes f.subop
  let k := memGroup n
  laneIssue s { LaneSpec.plain (.ld f) with groups := (k, 1, 1, 1) } f fun w c e =>
    laneMem s (.ld f) f (laneClass f) w w c e n (.load f.subop) (min k 2)
      (fun a => lanePart a n 0 0 ((operandAt (.ld f) f 0).regIn c a.lane) 0)

/-- ST (R191); through a buffer record it ends replayability (R344). -/
def execSt (f : LaneFields) (s : State) : Result :=
  let n := memBytes f.subop
  let k := memGroup n
  laneIssue s { LaneSpec.plain (.st f) with groups := (k, 1, 1, 1), readsDest := true } f fun w c e =>
    laneMem s (.st f) f (laneClass f) w w.spoil c e n .store 0
      (fun a => lanePart a n (c.group ((operandAt (.st f) f 0).regIn c a.lane) a.lane k) 0 0 0)

/-- ATOM (R192), strong whatever class it names (R105); through a buffer record it ends replayability (R344). A lane whose word is not wholly accessed is dropped. -/
def execAtom (f : LaneFields) (s : State) : Result :=
  let i := Instr.atom f
  match AtomOp.ofCode f.subop with
  | none => trap s .illop 0
  | some op =>
    laneIssue s { LaneSpec.plain i with readsDest := decide (op = .cas) } f fun w c e =>
      laneMem s i f .strong w w.spoil c e 4 (.atom op true) 1 fun a =>
        let d := (operandAt i f 0).regIn c a.lane
        let p := lanePart a 4 (((operandAt i f 3).value c a.lane).zeroExtend 128) ((c.v d a.lane).zeroExtend 64) d 0
        if p.bytes = firstBytes 4 then p else { p with bytes := 0 }

/-- CPY (R91 to R93, R193); copied out it ends replayability (R344). Both sides are aligned to the size, of `.cb` to E (R193). -/
def execCpy (f : LaneFields) (s : State) : Result :=
  let i := Instr.cpy f
  acting s fun _ c0 =>
  laneIssue s { LaneSpec.plain i with badRole := !c0.mayCopy, readsDest := true } f fun w c e =>
    let g := s.gridOf w
    let m := g.buf f.mslot.toNat
    let book := w.books.find? f.cbnum.toNat
    let code := nfld f.subop 0 2
    let isBook := code == 3
    let out := flag f.subop 2
    -- bytes on the global side and on the scratchpad side
    let n := if isBook then 1 else 4 * 2 ^ code
    let size := if isBook then (match book with | some b => entryBytes b.code | none => 1) else n
    let bar := if f.ben then some f.bnum else none
    let as := recordAddrs c e i f m n
    let sps := scratchAddrs c e (operandAt i f 0) 0 g.spBytes size
    let kind : AccessKind :=
      if isBook then .copyBook f.cbnum.toNat size bar else if out then .copyOut bar else .copyIn bar
    let parts := (as.zip sps).flatMap (fun p => (lanePart p.1 n 0 (BitVec.ofNat 64 (size + 2 ^ 32 * (maskOf p.1.accessed 0 n).toNat)) 0 p.2.addr.toNat).halves)
    let far := (as.find? (fun a => farAddr a.addr)).map (·.addr)
    if c.memWaits kind then .next s
    else trapsThen s
      (issueLane s (if out then w.spoil else w) c f
        (laneAccess c f kind (laneClass f) .dev false m parts) 0)
      [((f.ben && !(w.bar f.bnum.toNat).valid) || (isBook && book.isNone), .range, 0),
       (!m.ordinary, .bounds, 0),
       (as.any (fun a => misaligned a.addr size) || sps.any (fun a => misaligned a.addr size), .align, 0),
       (as.any (·.bounds) || sps.any (·.bounds), .bounds, 0),
       (far.isSome, .xlat, far.getD 0)]

end Sys2Proof.Machine
end

