-- ==== Sys2Proof/Machine/Save.lean ====
section
/-! DEFINITION. The save area of a workgroup (22 R345 to R348): its bytes, and a workgroup as an area describes it. -/

namespace Sys2Proof.Machine

/-! Bytes. -/

def zeroBytes (n : Nat) : List Byte := List.replicate n 0

/-- Exactly n bytes: zeros follow, or the rest is left out. -/
def fitBytes (n : Nat) (bs : List Byte) : List Byte := (bs ++ zeroBytes n).take n

/-- The next multiple of n. -/
def alignUp (n x : Nat) : Nat := (x + n - 1) / n * n

/-- The number whose bits below n are given. -/
def bitsNat (n : Nat) (p : Nat → Bool) : Nat := ((List.range n).map (fun i => if p i then 2 ^ i else 0)).sum

/-- 32-bit words, little-endian. -/
def wordBytes (ws : List Word) : List Byte := ws.flatMap (fun x => leBytes 4 x.toNat)

/-! What stops at a save. -/

/-- A copy of a lane, whole again: its halves rejoined, or back at its index byte where it stands in pieces of an entry. -/
def Part.whole (p : Part) (book : Bool) : Part :=
  if book then
    if p.half = 0 then p
    else { p with half := 0, size := 1, bytes := fld p.cmp 32 16, sp := p.sp - 8 * (p.half - 1), data := 0 }
  else if nfld p.cmp 0 32 = 16 ∧ p.size = 8 then
    { p with half := 0, addr := p.addr - 8 * p.half, sp := p.sp - 8 * p.half, size := 16, bytes := fld p.cmp 32 16, dst := 0 }
  else p

/-- The first part of each unit. -/
def firstOfUnits : List Nat → List Part → List Part
  | _, [] => []
  | seen, p :: ps => if seen.contains p.unit then firstOfUnits seen ps else p :: firstOfUnits (p.unit :: seen) ps

/-- A unit of a tile transfer that has not received its bytes, or that is not performed. -/
def Access.owes (a : Access) (unit : Nat) : Bool := a.parts.any (fun p => p.unit == unit && nfld p.cmp 0 32 != 0)

def AccessKind.isBook : AccessKind → Bool
  | .copyBook .. => true
  | _ => false

/-- The parts of the lanes of a copy that have not landed, each whole again. -/
def Access.wholeLanes (a : Access) : List Part := (firstOfUnits [] a.parts).map (fun p => p.whole a.kind.isBook)

/-- An access as the save area keeps it: what is held walks again, and with it what waits behind it, a lane memory instruction by an entry
of the operand log; a copy that has not landed is done again whole, and a TLOAD too, which then counts only the units not yet counted
(R121, R336, R337, R348). -/
def Access.squash (a : Access) : Access :=
  let entry := decide (a.stream = .lane) && a.kind.logged
  let ps := a.parts.map (fun p => { p with held := none, pa := none, key := none, logged := p.logged || entry })
  let a := { a with entry := a.entry || entry }
  if a.done then a
  else match a.kind with
    | .copyIn _ | .copyOut _ | .copyBook .. => { a with parts := ({ a with parts := ps }).wholeLanes.flatMap Part.halves }
    | .tload _ _ rows => { a with parts := tileParts rows [] (fun u => if a.owes u then 16 else 0) }
    | .fetch _ => { a with parts := ps.map (fun p => { p with addr := 0, size := 0, bytes := 0 }) }
    | _ => { a with parts := ps }

/-- A crew that waits at BWAIT and has observed the completion it waits for has executed it (R53, R113, R343). -/
def Crew.passBar (c : Crew) : Crew :=
  match c.waitBar with
  | some x => if x.passed && !x.failed then { c.advance 4 with waitBar := none } else { c with waitBar := none }
  | none => c

/-- What a save orders, as FENCE.ar does: what it leaves open precedes every later access (R121). -/
def Crew.savedOrder (c : Crew) : Crew :=
  { c.crossing with
    orderS := c.keepOrder c.orderS Access.fenced
    orderL := c.keepOrder c.orderL Access.fenced
    orderW := c.keepOrder c.orderW Access.fenced }

/-- A crew stopped for a save: results on their way land (R341); a CBLOAD, a waiting AGROW, AFREE or BWAIT is executed anew
after it (R336, R337, R343). A scalar access that waits behind a held one goes on waiting in the workgroup as it was saved, for the area has
no field for it (DESIGN CHOICE, log entry 22). -/
def Crew.stopped (c : Crew) : Crew :=
  let c1 := c.keepAll.passBar
  let kept := c1.flying.filter (fun (a : Access) => match a.kind with | .cbload .. => false | _ => true)
  ({ c1 with flying := kept.map Access.squash, waitGrow := none, freeing := none, fetchHeld := [], walking := [] } : Crew).savedOrder

def Workgroup.stopped (w : Workgroup) : Workgroup := { w with crews := SMap.mapVals w.crews Crew.stopped }

/-! Crew records (R347). -/

def CrewStatus.code : CrewStatus → Nat
  | .reserved => 0 | .live => 1 | .retired => 2 | .halted => 3

def CrewStatus.ofCode : Nat → CrewStatus
  | 0 => .reserved | 1 => .live | 2 => .retired | _ => .halted

/-- The value that the run in progress has given a scalar register: it lands before the area is written (R341 step 4). -/
def Crew.early (c : Crew) (d : Nat) : Option Word :=
  match c.queue, c.prog with
  | r :: _, some p =>
    let v := p.results.get d
    if c.sTag.find? d = some r.tag && flag v 32 then some (fld v 0 32) else none
  | _, _ => none

/-- A scalar register is saved full. -/
def Crew.savedFull (c : Crew) (d : Nat) : Bool := d == 0 || (c.sTag.find? d).isNone || (c.early d).isSome

def Crew.batchWord (c : Crew) : Nat :=
  c.nextBatch.toNat + match c.batches with | b :: _ => 256 * b.number.toNat + 65536 | [] => 0

/-- The frames, outermost first. -/
def Frame.bytes : Frame → List Byte
  | .ifs entry rest elsed _ =>
    leBytes 1 1 ++ leBytes 1 elsed.toNat ++ zeroBytes 6 ++ leBytes 8 entry.toNat ++ leBytes 8 rest.toNat
  | .loop entry body _ => leBytes 1 2 ++ zeroBytes 7 ++ leBytes 8 entry.toNat ++ leBytes 8 body.toNat

def Crew.framesOf (c : Crew) : List Frame := match c.prog with | some p => p.frames.reverse | none => []

/-- The 1,024 bytes of a crew record (R347). -/
def Crew.record (c : Crew) : List Byte :=
  leBytes 4 (c.status.code + 4 * c.role.toNat + 16 * c.number) ++ zeroBytes 4
    ++ leBytes 8 c.live.toNat ++ leBytes 8 c.pc.toNat ++ leBytes 8 (bitsNat 64 c.savedFull)
    ++ ([Path.ld, .st, .cp, .tl, .ft].flatMap (fun p => leBytes 1 (c.counter p))) ++ zeroBytes 3
    ++ leBytes 4 c.batchWord
    ++ leBytes 4 (c.queue.length + (if c.prog.isSome then 16 else 0) + 32 * c.framesOf.length)
    ++ leBytes 8 (match c.prog with | some p => p.pc.toNat + (if p.past then 2 ^ 52 else 0) | none => 0)
    ++ leBytes 8 (match c.prog with | some p => p.active.toNat | none => 0)
    ++ wordBytes ((List.range 64).map (fun d => if d = 0 then 0 else (c.early d).getD (c.sreg.get d)))
    ++ fitBytes 288 (c.queue.flatMap (fun r => leBytes 4 r.offset.toNat ++ wordBytes r.k))
    ++ fitBytes 384 (c.framesOf.flatMap Frame.bytes) ++ zeroBytes 32

/-- The LANE bytes of a crew (R346). -/
def Cursor.bytes (x : Cursor) : List Byte :=
  leBytes 4 (x.slot.toNat + if x.valid then 2 ^ 31 else 0) ++ wordBytes [x.row, x.st, x.en]

def Crew.laneBytes (c : Crew) (regs width : Nat) : List Byte :=
  let lanes := List.range width
  let bs := wordBytes ((List.range regs).flatMap (fun r => lanes.map (c.v r)))
    ++ lanes.flatMap (fun l => leBytes 1 (bitsNat 7 (fun p => flag (c.preds.get p) l)))
    ++ wordBytes (lanes.flatMap (fun l => [0, 1, 2, 3].map (fun n => c.x n l)))
    ++ lanes.flatMap (fun l => (c.cursors.get l).bytes)
    ++ leBytes ((regs + 7) / 8) (bitsNat regs (fun r => lanes.all (c.vFull r)))
  fitBytes (alignUp 256 bs.length) bs

/-! The logs (R348). -/

/-- The parcels of a lane memory instruction or of an MMA. -/
def Access.parcels (a : Access) : List Word :=
  match a.fields, a.kind with
  | some f, .load _ => encode (.ld f)
  | some f, .store => encode (.st f)
  | some f, .atom .. => encode (.atom f)
  | some f, .fetch _ => encode (.fetch f)
  | _, _ => []

/-- The accesses that hold an operand-log entry. -/
def Crew.entries (c : Crew) : List Access := c.flying.filter (fun a => a.entry && !a.done)

/-- The part of a lane; of two halves the first that is not performed. -/
def Access.laneOf (a : Access) (l : Nat) : Option Part := a.parts.find? (fun p => p.unit == l)

/-- The lane registers that a part of a logged access writes. -/
def Access.partRegs (a : Access) (p : Part) : List Nat :=
  match a.kind with
  | .load _ => (List.range (memGroup p.size)).map (fun n => laneKey (p.dst + n) p.unit)
  | .atom .. => [laneKey p.dst p.unit]
  | .fetch _ => [0, 1, 2].map (fun n => laneKey (p.dst + n) p.unit)
  | _ => []

/-- The lane registers that a logged access is yet to write in a lane. -/
def Access.laneRegs (a : Access) (l : Nat) : List Nat := (a.parts.filter (fun p => p.unit == l)).flatMap a.partRegs

/-- Those of them of which the access holds the youngest write tag (R48). -/
def Crew.awaited (c : Crew) (a : Access) (l : Nat) : List Nat := (a.laneRegs l).filter (fun k => c.vTag.find? k == some a.id)

/-- The access holds the youngest write tag of its destination in a lane (R48): of some register of it. -/
def Crew.youngest (c : Crew) (a : Access) (l : Nat) : Bool := !(c.awaited a l).isEmpty

/-- The 32-byte record of a lane: of a FETCH x and y stand in the places of address and data. -/
def Access.laneRecord (a : Access) (l : Nat) : List Byte :=
  match a.laneOf l, a.kind with
  | some p, .fetch _ => leBytes 8 (nfld p.data 0 64) ++ leBytes 16 (nfld p.cmp 0 32) ++ zeroBytes 8
  | some p, _ => leBytes 8 (p.addr - 8 * p.half) ++ leBytes 16 (p.data <<< (64 * p.half)).toNat ++ leBytes 4 (nfld p.cmp 0 32) ++ zeroBytes 4
  | none, _ => zeroBytes 32

def Crew.logEntry (c : Crew) (width : Nat) (a : Access) : List Byte :=
  fitBytes 12 (wordBytes a.parcels) ++ zeroBytes 4 ++ leBytes 8 a.pc.toNat
    ++ leBytes 8 (bitsNat 64 (fun l => (a.laneOf l).isSome)) ++ leBytes 8 (bitsNat 64 (c.youngest a)) ++ zeroBytes 24
    ++ (List.range width).flatMap a.laneRecord

/-- Bytes of an operand-log entry. -/
def logSize (width : Nat) : Nat := 64 + 32 * width

def Crew.logBytes (c : Crew) (width : Nat) : List Byte :=
  fitBytes (4 * logSize width) (c.entries.flatMap (c.logEntry width))

/-- The barrier field of a copy-log entry. -/
def barCode (bar : Option (BitVec 4)) : Nat := match bar with | some o => 2 ^ 15 + o.toNat | none => 0

/-- The 320 bytes of a tile entry, and the image of a TSTORE whose tile has changed since. -/
def tileEntry (kind tile dir slot bar : Nat) (rows : List (Nat × BitVec 128)) (done : Nat → Bool) : List Byte :=
  leBytes 1 kind ++ leBytes 1 tile ++ leBytes 1 dir ++ leBytes 1 slot ++ zeroBytes 12 ++ leBytes 2 bar ++ zeroBytes 14
    ++ rows.flatMap (fun r => leBytes 8 r.1) ++ leBytes 32 (bitsNat 256 done)

/-- The size code of a lane's copy (R134): 3 of a codebook entry. -/
def Part.sizeCode (p : Part) (book : Bool) : Nat :=
  if book then 3 else match nfld p.cmp 0 32 with | 4 => 0 | 8 => 1 | _ => 2

/-- The entries of a transfer in the copy log; `slot` is the crew's record. -/
def Workgroup.copyEntries (w : Workgroup) (slot : Nat) (c : Crew) (a : Access) : List Byte :=
  let isBook := a.kind.isBook
  let batch := match a.batch with
    | some n => (match c.batches.find? (fun b => b.serial == n) with | some b => b.number.toNat | none => 0xFF)
    | none => 0xFF
  let copy := fun (dir book : Nat) (bar : Option (BitVec 4)) =>
    a.wholeLanes.flatMap (fun p =>
      leBytes 1 1 ++ leBytes 1 (p.sizeCode isBook) ++ leBytes 1 (dir + (if isBook then 2 else 0) + (if a.cls = .nt then 4 else 0)) ++ leBytes 1 slot
        ++ leBytes 4 p.sp ++ leBytes 8 p.addr ++ leBytes 2 (barCode bar) ++ leBytes 1 batch ++ leBytes 1 book ++ zeroBytes 12)
  match a.kind with
  | .copyIn bar => copy 0 0 bar
  | .copyOut bar => copy 1 0 bar
  | .copyBook b _ bar => copy 0 b bar
  | .tload t bar rows => tileEntry 2 t 0 slot (barCode bar) rows (fun u => !a.owes u)
  | .tstore t image rows =>
    tileEntry 3 t 1 slot 0 rows (fun u => !a.owes u)
      ++ if image = w.tiles.get t then [] else SMap.slice image 0 4096
  | _ => []

/-- A transfer of the copy log: the key of its crew, the place of its crew's record, the access. -/
structure Transfer where
  key : Nat
  place : Nat
  access : Access

/-- The place of the record of a crew's slot. -/
def Workgroup.placeOf (w : Workgroup) (key : Nat) : Nat := (w.records.map (·.1)).idxOf (key % 64)

/-- The transfers that the copy log holds: of each crew copies first. -/
def Workgroup.transfers (w : Workgroup) : List Transfer :=
  w.logOrder.flatMap (fun k =>
    let open_ := (w.crews.get k).flying.filter (fun a => a.kind.squashes && !a.done)
    (open_.filter (fun a => a.kind.isCopy) ++ open_.filter (fun a => !a.kind.isCopy)).map (fun a => ⟨k, w.placeOf k, a⟩))

/-- The bytes of a transfer's entries. -/
def Workgroup.transferBytes (w : Workgroup) (e : Transfer) : List Byte := w.copyEntries e.place (w.crews.get e.key) e.access

/-- Entries of a transfer: one a lane, or one. -/
def Access.entryCount (a : Access) : Nat := if a.kind.isCopy then (firstOfUnits [] a.parts).length else 1

/-- The tiles of an MMA image in the order of its record. -/
def MmaImage.tiles (m : MmaImage) : List Tile := [m.a0, m.s0, m.a1, m.s1, m.b, m.sb]

/-- The 24,640 bytes of an MMA record. -/
def MmaImage.record (m : MmaImage) (slot : Nat) : List Byte :=
  wordBytes (encode (.mma m.f)) ++ zeroBytes 4 ++ leBytes 8 m.pc.toNat ++ leBytes 1 slot ++ zeroBytes 39
    ++ m.tiles.flatMap (fun t => SMap.slice t 0 4096)

/-- The MMAs between issue and commit, each with the place of its crew's record. -/
def Workgroup.mmas (w : Workgroup) : List (Nat × MmaImage) :=
  let rs := w.records
  (rs.zip (List.range rs.length)).filterMap (fun e => e.1.2.mma.map (fun m => (e.2, m)))

/-! Sections (R346). -/

/-- An object in the form of R51. -/
def Barrier.pack (b : Barrier) : BitVec 96 :=
  b.expBytes ++ b.recv ++ bit b.valid ++ bit b.ovf ++ bit b.phase ++ 0#21 ++ b.expArr ++ b.arr

def Barrier.unpack (x : BitVec 96) : Barrier where
  expBytes := fld x 72 24
  recv := fld x 48 24
  valid := flag x 47
  ovf := flag x 46
  phase := flag x 45
  expArr := fld x 12 12
  arr := fld x 0 12

def TagSet.bytes (t : TagSet) : List Byte :=
  (List.range 8).flatMap (fun way =>
    let x := t.ways.get way
    leBytes 8 ((slotLine x).toNat + if slotValid x then 2 ^ 63 else 0))
  ++ leBytes 1 t.tree.toNat ++ zeroBytes 7

def Workgroup.accBytes (w : Workgroup) : List Byte :=
  (List.range 32).flatMap (fun h =>
    match w.accs.find? h with | some a => leBytes 16 (if a.pool then 3 else 1) | none => zeroBytes 16)
  ++ w.accs.values.flatMap (fun a => wordBytes (SMap.slice a.words 0 4096))

def Workgroup.codebookBytes (w : Workgroup) : List Byte :=
  (List.range Config.codebooks).flatMap (fun b =>
    match w.books.find? b with
    | some k => leBytes 8 (2 ^ 63 + k.code.toNat) ++ SMap.slice k.bytes 0 (256 * entryBytes k.code)
    | none => zeroBytes 8)

/-- The BURROW section: the sequences that the workgroup's crews opened or changed and that are open (R346). Their order, the one changed
last first, and a CPOS word of 0 where there is none are the model's (DESIGN CHOICE, log entry 116). -/
def Workgroup.burrowBytes (w : Workgroup) (x : Context) : List Byte :=
  let qs := w.handles.filterMap (fun h => (x.seqs.find? h).map (fun q => (h, q)))
  leBytes 4 qs.length ++ qs.flatMap (fun e =>
    leBytes 2 e.1 ++ leBytes 1 e.2.cpos.isSome.toNat ++ zeroBytes 1 ++ leBytes 4 e.2.hpos ++ leBytes 4 (e.2.cpos.getD 0))

def Grid.fusedBytes (g : Grid) : List Byte :=
  match g.fused with
  | some f => leBytes 4 1 ++ leBytes 4 g.copy.kid ++ leBytes 4 f.copy.kid ++ zeroBytes 4
  | none => zeroBytes 16

/-- The thirteen sections; `burrow` are the bytes of BURROW. -/
def Workgroup.sections (w : Workgroup) (g : Grid) (burrow : List Byte) : List (List Byte) :=
  let width := g.copy.width
  let rs := w.records
  let ts := w.transfers
  let ms := w.mmas
  let full := fun (bs : List Byte) => if w.parked then [] else bs
  [full (rs.flatMap (fun r => r.2.record)),
   full (rs.flatMap (fun r => r.2.laneBytes (g.regs r.2.role.toNat) width)),
   full ((List.range g.tileCount).flatMap (fun t => SMap.slice (w.tiles.get t) 0 4096)),
   full w.accBytes,
   (List.range 16).flatMap (fun o => leBytes 12 (w.bar o).pack.toNat),
   full (SMap.slice w.scratch 0 g.spBytes ++ (List.range g.tagSets).flatMap (fun n => (w.tags.get n).bytes)),
   full w.codebookBytes,
   full ([0, 1, 2, 3].flatMap (fun r => leBytes 8 (w.jcur.get r).toNat)),
   full (rs.flatMap (fun r => r.2.logBytes width)),
   full (leBytes 4 ((ts.map (fun e => e.access.entryCount)).sum) ++ ts.flatMap w.transferBytes),
   full (leBytes 4 ms.length ++ ms.flatMap (fun e => e.2.record e.1)),
   burrow,
   g.fusedBytes]

/-- The directory entry of each section, the first to stand at or after `off`: its offset and length, 0 and 0 if empty. -/
def directory : Nat → List (List Byte) → List (Nat × Nat)
  | _, [] => []
  | off, [] :: rest => (0, 0) :: directory off rest
  | off, sec :: rest => (alignUp 256 off, sec.length) :: directory (alignUp 256 off + sec.length) rest

/-- The sections, each 256-byte aligned. -/
def layOut : Nat → List (List Byte) → List Byte
  | _, [] => []
  | off, [] :: rest => layOut off rest
  | off, sec :: rest => zeroBytes (alignUp 256 off - off) ++ sec ++ layOut (alignUp 256 off + sec.length) rest

/-- The bytes of a save area (R345); `children` are outstanding. -/
def Workgroup.areaBytes (w : Workgroup) (g : Grid) (children : Nat) (burrow : List Byte) : List Byte :=
  let secs := w.sections g burrow
  let body := layOut 256 secs
  let halted := w.crews.values.any (fun c => decide (c.status = .halted))
  leBytes 4 0x4B5A5356 ++ leBytes 4 1 ++ leBytes 4 (256 + body.length)
    ++ leBytes 1 w.ctx ++ leBytes 1 (w.parked.toNat + 2 * halted.toNat + 4 * w.idem.toNat) ++ leBytes 1 g.depth ++ leBytes 1 0
    ++ leBytes 8 w.seq ++ leBytes 8 w.index ++ leBytes 4 g.copy.kid ++ leBytes 4 children
    ++ leBytes 4 (w.index / 2 ^ 64) ++ zeroBytes 20
    ++ fitBytes 128 ((directory 256 secs).flatMap (fun e => leBytes 4 e.1 ++ leBytes 4 e.2)) ++ zeroBytes 64 ++ body

/-! Reading an area (R349): the workgroup that its bytes describe. What they have no field for is as the workgroup was saved; an
item that has been added has there what an instruction of its kind would give it (DESIGN CHOICE, log entry 22). -/

/-- The bytes of an area, by offset, as the firmware reads them. -/
structure Saved where
  s : State
  base : Nat

def Saved.byte (x : Saved) (o : Nat) : Byte := x.s.ownByte .firmware (x.base + o)
def Saved.bytes (x : Saved) (o n : Nat) : List Byte := (List.range n).map (fun i => x.byte (o + i))
def Saved.nat (x : Saved) (o n : Nat) : Nat := leNat (x.bytes o n)
def Saved.word (x : Saved) (o : Nat) : Word := BitVec.ofNat 32 (x.nat o 4)
/-- n bytes from an offset on as a sparse array. -/
def Saved.cells (x : Saved) (o n : Nat) : Cells 8 :=
  (List.range n).filterMap (fun i => if x.byte (o + i) = 0 then none else some (i, x.byte (o + i)))
/-- The sparse array of words that a function gives at rising keys. -/
def cellsOf {w : Nat} (keys : List Nat) (f : Nat → BitVec w) : Cells w :=
  keys.filterMap (fun k => if f k = 0 then none else some (k, f k))

/-! Crew records. -/

/-- Frame i of a record at o, `mark` as it was. -/
def Saved.frame (x : Saved) (o : Nat) (old : Option Frame) : Frame :=
  let mark := match old with | some (.ifs _ _ _ m) => m | some (.loop _ _ m) => m | none => 0
  let entry := BitVec.ofNat 64 (x.nat (o + 8) 8)
  if x.nat o 1 = 1 then .ifs entry (BitVec.ofNat 64 (x.nat (o + 16) 8)) (x.nat (o + 1) 1 == 1) mark
  else .loop entry (BitVec.ofNat 52 (x.nat (o + 16) 8)) mark

/-- The full bits, and the counts of runs and frames, of a record at o. -/
def Saved.fullBits (x : Saved) (o : Nat) : Nat := x.nat (o + 0x18) 8
def Saved.runs (x : Saved) (o : Nat) : Nat := min 8 (x.nat (o + 0x2C) 4 % 16)
def Saved.depth (x : Saved) (o : Nat) : Nat := min 16 (x.nat (o + 0x2C) 4 / 32 % 32)

/-- Scalar registers that a record says are empty though nothing was to write them. -/
def Crew.orphans (c : Crew) (x : Saved) (o : Nat) : List Nat :=
  (List.range 64).filter (fun d => d != 0 && !(x.fullBits o).testBit d && (c.sTag.find? d).isNone)

/-- The lane queue by a record at o. The last of added runs is to write the registers that nothing else would. -/
def Crew.loadQueue (c : Crew) (x : Saved) (o : Nat) : List Run :=
  (List.range (x.runs o)).map (fun i =>
    let at_ := o + 0x140 + 36 * i
    let added : Run := { offset := 0, k := [], tag := c.nextId + i, side := .producer,
                         dests := if i + 1 = x.runs o then c.orphans x o else [] }
    { c.queue.getD i added with offset := x.word at_, k := (List.range 8).map (fun n => x.word (at_ + 4 + 4 * n)) })

/-- The run in progress by a record at o. A register that the run had written is full there and takes the value there; the run's
later writes to it still come (R147; DESIGN CHOICE, log entry 22). -/
def Crew.loadRun (c : Crew) (x : Saved) (o : Nat) : Option Progress :=
  if x.nat (o + 0x2C) 4 / 16 % 2 = 0 ∨ x.runs o = 0 then none
  else
    let p : Progress := c.prog.getD { pc := 0, active := 0, frames := [], results := [], ended := false }
    let olds := p.frames.reverse
    some { p with
      pc := BitVec.ofNat 52 (x.nat (o + 0x30) 8)
      past := (x.nat (o + 0x30) 8).testBit 52
      active := BitVec.ofNat 64 (x.nat (o + 0x38) 8)
      frames := ((List.range (x.depth o)).map (fun i => x.frame (o + 0x260 + 24 * i) olds[i]?)).reverse
      results := p.results.filterMap (fun e =>
        if (c.early e.1).isNone then some e
        else if (x.fullBits o).testBit e.1 then some (e.1, 1#1 ++ x.word (o + 0x40 + 4 * e.1)) else none) }

/-- Whose write each scalar register waits for by a record at o; tag 0 never lands. -/
def Crew.loadTags (c : Crew) (x : Saved) (o : Nat) : SMap Nat :=
  let orphan := if c.queue.length < x.runs o then c.nextId + x.runs o - 1 else 0
  ((List.range 63).map (· + 1)).filterMap (fun d =>
    if !(x.fullBits o).testBit d then some (d, (c.sTag.find? d).getD orphan)
    else if (c.early d).isSome then (c.sTag.find? d).map (fun t => (d, t)) else none)

/-- The crew by a record at o. -/
def Crew.loadRecord (c : Crew) (x : Saved) (o : Nat) : Crew :=
  { c with
    status := CrewStatus.ofCode (x.nat o 4 % 4)
    number := x.nat o 4 / 16 % 64
    live := BitVec.ofNat 64 (x.nat (o + 8) 8)
    pc := BitVec.ofNat 52 (x.nat (o + 0x10) 8)
    sreg := cellsOf ((List.range 63).map (· + 1)) (fun d => x.word (o + 0x40 + 4 * d))
    sTag := c.loadTags x o
    nextBatch := BitVec.ofNat 8 (x.nat (o + 0x28) 1)
    queue := c.loadQueue x o
    prog := c.loadRun x o }

/-- The crew's LANE bytes at o. -/
def Crew.loadLanes (c : Crew) (x : Saved) (o regs width : Nat) : Crew :=
  let lanes := List.range width
  let preds := o + 4 * regs * width
  let xs := preds + width
  let cur := xs + 16 * width
  { c with
    vreg := cellsOf ((List.range regs).flatMap (fun r => lanes.map (laneKey r)))
      (fun k => x.word (o + 4 * (k / 64 * width + k % 64)))
    preds := cellsOf (List.range 7) (fun p => BitVec.ofNat 64 (bitsNat width (fun l => (x.nat (preds + l) 1).testBit p)))
    xreg := cellsOf ((List.range 4).flatMap (fun n => lanes.map (laneKey n))) (fun k => x.word (xs + 16 * (k % 64) + 4 * (k / 64)))
    cursors := lanes.foldl (fun (m : SMap Cursor) l =>
      let at_ := cur + 16 * l
      m.put l ⟨(x.word at_).getLsbD 31, fld (x.word at_) 0 5, x.word (at_ + 4), x.word (at_ + 8), x.word (at_ + 12)⟩) [] }

/-- The full bits of LANE bytes at o. -/
def Saved.laneFull (x : Saved) (o regs width : Nat) : Nat := x.nat (o + 4 * regs * width + width + 32 * width) ((regs + 7) / 8)

/-! Operand logs. -/

/-- What the instruction of a log entry does, with its fields and the bytes of a lane. -/
def logKind : Instr → Option (AccessKind × LaneFields × Nat)
  | .ld f => some (.load f.subop, f, memBytes f.subop)
  | .st f => some (.store, f, memBytes f.subop)
  | .atom f => (AtomOp.ofCode f.subop).map (fun op => (.atom op true, f, 4))
  | .fetch f => some (.fetch f.mslot, f, 0)
  | _ => none

/-- The part of an access with the operands of a lane's record at o. -/
def Part.loadLane (p : Part) (x : Saved) (o : Nat) (fetch : Bool) : Part :=
  if fetch then { p with data := BitVec.ofNat 128 (x.nat o 8), cmp := BitVec.ofNat 64 (x.nat (o + 8) 4) }
  else { p with
    addr := x.nat o 8 + 8 * p.half
    data := BitVec.ofNat 128 (x.nat (o + 8) 16) >>> (64 * p.half)
    cmp := BitVec.ofNat 64 (x.nat (o + 24) 4) }

/-- The access of log entry i, at o: none where no such instruction stands there. -/
def Crew.loadEntry (c : Crew) (g : Grid) (x : Saved) (o width i : Nat) : Option Access :=
  match decodeLane (x.word o) (x.word (o + 4)) (x.word (o + 8)) with
  | .reject _ => none
  | .ok ins =>
    (logKind ins).map (fun k =>
      let f := k.2.1
      let cls := match k.1 with | .atom .. => MemClass.strong | .fetch _ => .weak | _ => laneClass f
      let scope := if f.sp then Scope.wg else (Scope.ofCode f.scope).getD .dev
      let added := { laneAccess c f k.1 cls scope f.sp (g.buf f.mslot.toNat) [] with id := c.nextId + 8 + i }
      let old := (c.entries[i]?).getD added
      let lane := fun (l : Nat) =>
        let olds := old.parts.filter (fun p => p.unit == l)
        let fresh := { lanePart ⟨l, 0, false, fun _ => true⟩ k.2.2 0 0 ((operandAt ins f 0).regIn c l) 0 with logged := true }
        (if olds.isEmpty then fresh.halves else olds).map (fun p => p.loadLane x (o + 64 + 32 * l) (k.2.2 == 0))
      { old with
        kind := k.1, fields := some f, pc := BitVec.ofNat 52 (x.nat (o + 16) 8), entry := true
        parts := ((List.range width).filter (fun l => (x.nat (o + 24) 8).testBit l)).flatMap lane })

/-- The lane registers of a lane that wait for an access of the log whose mask names the lane: those that waited for it when it was saved,
for a mask does not say which of a group do; where none did, the group (DESIGN CHOICE, log entry 22). -/
def Crew.reawaited (c : Crew) (a : Access) (l : Nat) : List Nat :=
  if c.youngest a l then c.awaited a l else a.laneRegs l

/-- Whose write each lane register waits for: by the masks of the entries, each access with its mask; an empty register that none
of them writes waits for ever. -/
def Crew.loadVTags (c : Crew) (es : List (Access × Nat)) (full regs : Nat) : SMap Nat :=
  let tags := es.foldl (fun (m : SMap Nat) e =>
    (((List.range 64).filter e.2.testBit).flatMap (c.reawaited e.1)).foldl (fun (m : SMap Nat) k => m.insert k e.1.id) m) []
  ((List.range regs).filter (fun r => !full.testBit r && !tags.any (fun e => e.1 / 64 == r))).foldl
    (fun (m : SMap Nat) r => m.insert (laneKey r 0) 0) tags

/-- Accesses in the order of their numbers. -/
def byNumber (xs : List Access) : List Access :=
  xs.foldr (fun a ys => ys.takeWhile (fun b => decide (b.id < a.id)) ++ a :: ys.dropWhile (fun b => decide (b.id < a.id))) []

/-- The crew by its record at o, LANE bytes at l and operand log at q; the transfers of its copy log come after. -/
def Crew.load (c : Crew) (g : Grid) (x : Saved) (o l q : Nat) : Crew :=
  let regs := g.regs c.role.toNat
  let width := g.copy.width
  let c1 := (c.loadLanes x l regs width).loadRecord x o
  let at_ := fun (i : Nat) => q + logSize width * i
  let es := (List.range 4).filterMap (fun i => (c1.loadEntry g x (at_ i) width i).map (fun a => (a, x.nat (at_ i + 32) 8)))
  { c1 with
    flying := c.flying.filter (fun a => a.kind.squashes || a.done)
      ++ byNumber (es.map (·.1) ++ c.flying.filter (fun a => decide (a.stream = .scalar) && !a.kind.squashes && !a.done))
    vTag := c.loadVTags es (x.laneFull l regs width) regs }

/-- The crews by their records from o, LANE bytes from l and operand logs from q on. -/
def loadCrews (x : Saved) (g : Grid) : Nat → Nat → Nat → List (Nat × Crew) → Workgroup → Workgroup
  | _, _, _, [], w => w
  | o, l, q, r :: rs, w =>
    let width := g.copy.width
    loadCrews x g (o + 1024) (l + (r.2.laneBytes (g.regs r.2.role.toNat) width).length) (q + 4 * logSize width) rs
      (w.putCrew r.1 (r.2.load g x o l q))

/-! The copy log. -/

/-- An entry of the copy log as it was saved: its transfer and, of a copy, the lane's part. -/
abbrev LogUnit := Transfer × Option Part

def Workgroup.logUnits (w : Workgroup) : List LogUnit :=
  w.transfers.flatMap (fun e => if e.access.kind.isCopy then e.access.wholeLanes.map (fun p => (e, some p)) else [(e, none)])

/-- An entry that has been read: the key of its crew, its bytes, the number of its batch and the access that it is alone. -/
structure LogRead where
  key : Nat
  size : Nat
  batch : Option (BitVec 8)
  access : Access

/-- The serial number of a batch of the crew. -/
def Crew.serialOf (c : Crew) (q : BitVec 8) : Nat :=
  match c.batches.find? (fun b => b.number == q) with
  | some b => b.serial
  | none => c.nextId + 0x10000 + q.toNat

/-- The barrier field of an entry at o. -/
def Saved.bar (x : Saved) (o : Nat) : Option (BitVec 4) :=
  let v := x.nat (o + 16) 2
  if v.testBit 15 then some (BitVec.ofNat 4 v) else none

/-- The number of the batch that a copy's entry at o names; `base` is the access it was saved from. 0xFF says both that the copy is
unsealed and that its batch is numbered 255 (R93, R348): a copy whose batch was saved under that number stays in it, every other
one is unsealed (DESIGN CHOICE, log entry 95). -/
def Saved.batchOf (x : Saved) (o : Nat) (c : Crew) (base : Access) : Option (BitVec 8) :=
  let q := BitVec.ofNat 8 (x.nat (o + 18) 1)
  if q = 0xFF && !c.batches.any (fun b => b.number == 0xFF && base.batch == some b.serial) then none else some q

/-- Bytes that a `.cb` copy writes: those it had when it was saved, else the codebook's entry size. -/
def Workgroup.bookSize (w : Workgroup) (book : Nat) (old : Option Part) : Nat :=
  match old, w.books.find? book with
  | some p, _ => nfld p.cmp 0 32
  | none, some b => entryBytes b.code
  | none, none => 1

/-- A copy's entry at o; its byte 18 as Saved.batchOf reads it (DESIGN CHOICE, log entry 95). -/
def Saved.copyEntry (x : Saved) (o : Nat) (w : Workgroup) (c : Crew) (base : Access) (old : Option Part) (unit : Nat) : Access :=
  let flags := x.nat (o + 2) 1
  let isBook := flags.testBit 1
  let book := x.nat (o + 19) 1
  let size := if isBook then w.bookSize book old else 4 * 2 ^ (x.nat (o + 1) 1 % 4)
  let n := if isBook then 1 else size
  let mask := match old with | some p => nfld p.cmp 32 16 | none => 2 ^ n - 1
  let p : Part := { unit := match old with | some p => p.unit | none => unit
                    half := 0, addr := x.nat (o + 8) 8, size := n, bytes := BitVec.ofNat 16 mask, data := 0,
                    cmp := BitVec.ofNat 64 (size + 2 ^ 32 * mask), dst := 0, sp := x.nat (o + 4) 4, pa := none, held := none }
  let bar := x.bar o
  { base with
    kind := if isBook then .copyBook book size bar else if flags.testBit 0 then .copyOut bar else .copyIn bar
    cls := if flags.testBit 2 then .nt else if base.cls = .nt then .weak else base.cls
    batch := (x.batchOf o c base).map c.serialOf
    parts := p.halves }

/-- The rows of a tile transfer's entry at o. -/
def Saved.rows (x : Saved) (o : Nat) (olds : List (Nat × BitVec 128)) : List (Nat × BitVec 128) :=
  (List.range 32).map (fun i => (x.nat (o + 32 + 8 * i) 8, match olds[i]? with | some r => r.2 | none => BitVec.allOnes 128))

/-- The rows of a tile transfer. -/
def AccessKind.rows : AccessKind → List (Nat × BitVec 128)
  | .tload _ _ rows | .tstore _ _ rows => rows
  | _ => []

/-- A tile transfer's entry at o. Of a TSTORE the halves that are still to be stored of a unit that is not performed. -/
def Saved.tileEntry (x : Saved) (o : Nat) (w : Workgroup) (base : Access) (imaged : Bool) : Access :=
  let tile := x.nat (o + 1) 1
  let rows := x.rows o base.kind.rows
  let done := fun (u : Nat) => (x.nat (o + 288) 32).testBit u
  if x.nat o 1 = 2 then
    { base with kind := .tload tile (x.bar o) rows, parts := tileParts rows [] (fun u => if done u then 0 else 16) }
  else
    let image := if imaged then x.cells (o + 320) 4096 else w.tiles.get tile
    let owed := fun (p : Part) => !base.parts.any (fun q => q.unit == p.unit) || base.parts.any (fun q => q.unit == p.unit && q.half == p.half)
    { base with
      kind := .tstore tile image rows
      parts := (tileParts rows image (fun _ => 16)).filter (fun p => !done p.unit && owed p) }

/-- Entry j of the copy log, at o; `w0` is the workgroup as it was saved, `w` as it has been loaded so far. -/
def Saved.logEntry (x : Saved) (w0 w : Workgroup) (o j : Nat) (old : Option LogUnit) : LogRead :=
  let place := x.nat (o + 3) 1
  let same := match old with | some u => u.1.place == place | none => false
  let key := match same, old with
    | true, some u => u.1.key
    | _, _ => (w.records.map (·.1)).getD place 0
  let c := w.crews.get key
  let added := { scalarAccess c (.copyIn none) .weak .dev [] with id := c.nextId + 16 + j }
  let base := { (match same, old with | true, some u => u.1.access | _, _ => added) with replay := true }
  if x.nat o 1 = 2 ∨ x.nat o 1 = 3 then
    let imaged := x.nat o 1 == 3 && match old with | some u => (w0.transferBytes u.1).length == 4416 | none => false
    { key := key, size := if imaged then 4416 else 320, batch := none, access := x.tileEntry o w base imaged }
  else
    { key := key, size := 32
      batch := x.batchOf o c base
      access := x.copyEntry o w c { base with stream := .lane } (if same then old.bind (·.2) else none) (64 + j) }

/-- n entries of the copy log, from entry j at o on. -/
def Saved.logEntries (x : Saved) (w0 w : Workgroup) : Nat → Nat → Nat → List LogUnit → List LogRead
  | 0, _, _, _ => []
  | n + 1, o, j, olds =>
    let r := x.logEntry w0 w o j olds.head?
    r :: x.logEntries w0 w n (o + r.size) (j + 1) olds.tail

/-- The lanes of one CPY together again: entries that follow one another, of one access, and agree in all but their lanes. An access
that has been parted so gets another number. -/
def mergeLog (fresh : Nat) : List LogRead → List LogRead → List LogRead
  | out, [] => out.reverse
  | out, r :: rs =>
    match out with
    | p :: ps =>
      if p.key == r.key && p.access.id == r.access.id && p.access.kind == r.access.kind && p.access.cls == r.access.cls
          && p.access.batch == r.access.batch && r.access.kind.isCopy then
        mergeLog fresh ({ p with access := { p.access with parts := p.access.parts ++ r.access.parts } } :: ps) rs
      else if (p :: ps).any (fun q => q.key == r.key && q.access.id == r.access.id) then
        mergeLog (fresh + 1) ({ r with access := { r.access with id := fresh } } :: p :: ps) rs
      else mergeLog fresh (r :: p :: ps) rs
    | [] => mergeLog fresh [r] rs

/-- An access of a saved crew that has returned stands again behind those of its path that are older and have not, so that its
path's counter still counts it (R50); where none is left, it is gone. -/
def insertDone (l : List Access) (d : Access) : List Access :=
  let older := fun (a : Access) => a.kind.path == d.kind.path && decide (a.id < d.id) && !a.done
  let newer := l.reverse.takeWhile (fun a => !older a)
  if newer.length = l.length then l else l.take (l.length - newer.length) ++ d :: newer.reverse

/-- The crew of a key with the transfers that the log gives it; `oldest` is the unlanded batch that its record names. -/
def Crew.withLog (c : Crew) (rs : List LogRead) (oldest : List (BitVec 8)) : Crew :=
  let numbers := (oldest ++ rs.filterMap (·.batch)).eraseDups
  let flying := (c.flying.filter (·.done)).foldl insertDone
    (rs.map (·.access) ++ c.flying.filter (fun a => !a.kind.squashes && !a.done))
  let batches : List Batch := numbers.map (fun q => { serial := c.serialOf q, number := q, bar := match c.batches.find? (fun b => b.number == q) with
    | some b => b.bar
    | none => none })
  { c with
    flying := flying
    batches := batches
    nextId := (flying.map (·.id) ++ batches.map (·.serial)).foldl (fun m n => max m (n + 1)) (c.nextId + 16) }

/-- The wait counters of a record at o beyond the accesses in flight. -/
def Crew.withCounts (c : Crew) (x : Saved) (o : Nat) : Crew :=
  { c with bias := [Path.ld, .st, .cp, .tl, .ft].foldl (fun (m : SMap Int) p =>
      m.put (pathCode p) ((x.nat (o + 0x20 + pathCode p) 1 : Int) - c.onPath p)) [] }

/-- The workgroup with its copy log at o and its crews' records from q on. -/
def Workgroup.loadLog (w0 w : Workgroup) (x : Saved) (o q : Nat) : Workgroup :=
  let fresh := (w.crews.values.map (·.nextId)).foldl max 0 + 0x20000
  let rs := mergeLog fresh [] (x.logEntries w0 w (x.nat o 4) (o + 4) 0 w0.logUnits)
  { w with crews := w.crews.map (fun e =>
      let at_ := q + 1024 * w.placeOf e.1
      let word := x.nat (at_ + 0x28) 4
      let oldest := if e.1 < 64 then (if word.testBit 16 then [BitVec.ofNat 8 (word / 256)] else []) else e.2.batches.map (·.number)
      let c := (e.2.withLog (rs.filter (fun r => r.key == e.1)) oldest).savedOrder
      (e.1, if e.1 < 64 then c.withCounts x at_ else c)) }

/-! The other sections. -/

/-- Changing the crew of a record. -/
def Workgroup.onRecord (w : Workgroup) (i : Nat) (f : Crew → Crew) : Workgroup :=
  match w.records[i]? with
  | some r => w.putCrew r.1 (f r.2)
  | none => w

/-- n MMA records from o on; `olds` are the MMAs that were saved, each with the place of its crew's record. One whose handle was
unbound after its issue stays so (R203), and one that has raised ACCNONE waits for its halted crew (R334). -/
def loadMmas (x : Saved) (olds : List (Nat × MmaImage)) : Nat → Nat → Workgroup → Workgroup
  | 0, _, w => w
  | n + 1, o, w =>
    let t := fun (i : Nat) => x.cells (o + 64 + 4096 * i) 4096
    let w := match decodeLane (x.word o) (x.word (o + 4)) (x.word (o + 8)) with
      | .ok (.mma f) =>
        let m : MmaImage := { f := f, pc := BitVec.ofNat 52 (x.nat (o + 16) 8), a0 := t 0, s0 := t 1, a1 := t 2, s1 := t 3, b := t 4,
                              sb := t 5, replay := true }
        let was := fun (p : MmaImage → Bool) => olds.any (fun e => e.1 == x.nat (o + 24) 1 && p e.2)
        w.onRecord (x.nat (o + 24) 1) (fun c =>
          let waits := was MmaImage.trapped && decide (c.status = .halted)
          { c with mma := some { m with unbound := was MmaImage.unbound, trapped := waits, replay := !waits } })
      | _ => w
    loadMmas x olds n (o + 24640) w

/-- The tag set at o. -/
def Saved.tagSet (x : Saved) (o : Nat) : TagSet where
  ways := cellsOf (List.range 8) (fun way =>
    let v := BitVec.ofNat 64 (x.nat (o + 8 * way) 8)
    (bit (flag v 63) ++ fld v 0 44 : BitVec 45))
  tree := BitVec.ofNat 7 (x.nat (o + 64) 1)

/-- The accumulators of the handles of a list, by their entries from o on and their buffers from q on. -/
def Saved.loadAccs (x : Saved) (o : Nat) : Nat → List Nat → SMap Accum
  | _, [] => []
  | q, h :: hs =>
    let v := x.nat (o + 16 * h) 1
    if v.testBit 0 then (h, ⟨v.testBit 1, cellsOf (List.range 4096) (fun i => x.word (q + 4 * i))⟩) :: x.loadAccs o (q + 16384) hs
    else x.loadAccs o q hs

/-- The codebooks of a list of numbers, from o on. -/
def Saved.loadBooks (x : Saved) : Nat → List Nat → SMap Codebook
  | _, [] => []
  | o, b :: bs =>
    let head := x.nat o 8
    if head.testBit 63 then
      let code := BitVec.ofNat 2 head
      (b, ⟨code, x.cells (o + 8) (256 * entryBytes code)⟩) :: x.loadBooks (o + 8 + 256 * entryBytes code) bs
    else x.loadBooks (o + 8) bs

/-- The workgroup that an area describes, from the workgroup as it was saved. -/
def Workgroup.load (w : Workgroup) (g : Grid) (x : Saved) : Workgroup :=
  let off := fun (i : Nat) => x.nat (0x40 + 8 * i) 4
  let head := { w with
    index := x.nat 0x18 8 + 2 ^ 64 * x.nat 0x28 4
    idem := (x.nat 0x0D 1).testBit 2
    bars := (List.range 16).foldl (fun (m : SMap Barrier) o => m.put o (Barrier.unpack (BitVec.ofNat 96 (x.nat (off 4 + 12 * o) 12)))) [] }
  if w.parked then head
  else
    let crews := loadCrews x g (off 0) (off 1) (off 8) w.records head
    let w1 := { crews with
      crews := SMap.mapVals crews.crews (fun c => { c with mma := none })
      tiles := (List.range g.tileCount).foldl (fun (m : SMap Tile) t => m.put t (x.cells (off 2 + 4096 * t) 4096)) []
      accs := x.loadAccs (off 3) (off 3 + 512) (List.range 32)
      scratch := x.cells (off 5) g.spBytes
      tags := (List.range g.tagSets).foldl (fun (m : SMap TagSet) n => m.put n (x.tagSet (off 5 + g.spBytes + 72 * n))) []
      books := x.loadBooks (off 6) (List.range Config.codebooks)
      jcur := [0, 1, 2, 3].map (fun r => (r, BitVec.ofNat 64 (x.nat (off 7 + 8 * r) 8))) }
    loadMmas x w.mmas (x.nat (off 10) 4) (off 10 + 4) (w.loadLog w1 x (off 9) (off 0))

end Sys2Proof.Machine
end

