-- ==== Sys2Proof/Machine/SaveCheck.lean ====
section
/-! DEFINITION. The checks that a save area must pass before a workgroup is restored from it (22 R349): MAGIC, VERSION, CTXID and TOTAL,
reserved fields, the lengths of the sections, and the limits of every value. -/

namespace Sys2Proof.Machine

/-- n bytes at o are zero. -/
def Saved.zero (x : Saved) (o n : Nat) : Bool := (x.bytes o n).all (· == 0)

/-- The offset and the length of a section, by the directory (R345). -/
def Saved.off (x : Saved) (i : Nat) : Nat := x.nat (0x40 + 8 * i) 4
def Saved.len (x : Saved) (i : Nat) : Nat := x.nat (0x44 + 8 * i) 4

/-- A mask of lanes within a width. -/
def inWidth (width m : Nat) : Bool := decide (m < 2 ^ width)

/-! The header. -/

/-- The header against the workgroup that was saved; of a grid's workgroup SEQ, KID and DEPTH are the grid's (R345). -/
def Saved.headOk (x : Saved) (w : Workgroup) (g : Grid) : Bool :=
  x.nat 0 4 == 0x4B5A5356 && x.nat 4 4 == 1 && x.nat 0x0C 1 == w.ctx && decide (x.nat 0x0D 1 < 8)
    && (x.nat 0x0D 1).testBit 0 == w.parked && x.nat 0x0E 1 == g.depth && x.zero 0x0F 1 && x.nat 0x10 8 == w.seq
    && decide (x.nat 0x18 8 + 2 ^ 64 * x.nat 0x28 4 < g.copy.total) && x.nat 0x20 4 == g.copy.kid && x.zero 0x2C 20
    && x.zero 0xA8 24 && x.zero 0xC0 64

/-- Sections that stand in the area after its header, each at a multiple of 256 and none over another; TOTAL ends with the last. -/
def Saved.placed (x : Saved) : Bool :=
  let secs := (List.range 13).filter (fun i => x.len i != 0)
  secs.all (fun i => decide (256 ≤ x.off i) && x.off i % 256 == 0
      && secs.all (fun j => i == j || decide (x.off i + x.len i ≤ x.off j ∨ x.off j + x.len j ≤ x.off i)))
    && x.nat 8 4 == (secs.map (fun i => x.off i + x.len i)).foldl max 256

/-! Sections. -/

/-- A frame at o (R347). -/
def Saved.frameOk (x : Saved) (o width : Nat) : Bool :=
  let entry := inWidth width (x.nat (o + 8) 8)
  x.zero (o + 2) 6 && entry && match x.nat o 1 with
    | 1 => decide (x.nat (o + 1) 1 ≤ 1) && inWidth width (x.nat (o + 16) 8)
    | 2 => x.zero (o + 1) 1 && decide (x.nat (o + 16) 8 < 2 ^ 52)
    | _ => false

/-- A crew record at o, of a role (R347). Runs and frames that are not counted may hold anything. -/
def Saved.recordOk (x : Saved) (o role width : Nat) : Bool :=
  let lq := x.nat (o + 0x2C) 4
  decide (x.nat o 4 < 2 ^ 10) && x.nat o 4 / 4 % 4 == role && x.zero (o + 4) 4 && inWidth width (x.nat (o + 8) 8)
    && decide (x.nat (o + 0x10) 8 < 2 ^ 52) && (x.fullBits o).testBit 0 && x.zero (o + 0x40) 4
    && (List.range 5).all (fun p => decide (x.nat (o + 0x20 + p) 1 ≤ 63)) && x.zero (o + 0x25) 3
    && decide (x.nat (o + 0x28) 4 < 2 ^ 17)
    && decide (lq < 2 ^ 10) && decide (lq % 16 ≤ 8) && decide (lq / 32 ≤ 16) && (!lq.testBit 4 || lq % 16 != 0)
    && decide (x.nat (o + 0x30) 8 < 2 ^ 53) && inWidth width (x.nat (o + 0x38) 8)
    && (List.range (x.depth o)).all (fun i => x.frameOk (o + 0x260 + 24 * i) width) && x.zero (o + 0x3E0) 32

/-- The crew records from o on, by role and then by number (R346, R347). -/
def Saved.recordsOk (x : Saved) (width : Nat) : Nat → List (Nat × Crew) → Bool
  | _, [] => true
  | o, [r] => x.recordOk o r.2.role.toNat width
  | o, r :: q :: rs =>
    x.recordOk o r.2.role.toNat width
      && decide (r.2.role ≠ q.2.role ∨ x.nat o 4 / 16 ≤ x.nat (o + 1024) 4 / 16) && x.recordsOk width (o + 1024) (q :: rs)

/-- An x word within R44. -/
def xWordOk (regs : Nat) (v : Word) : Bool :=
  fld v 26 6 == 0 && decide (nfld v 8 9 ≤ 256) && decide (nfld v 0 8 + nfld v 8 9 ≤ regs)

/-- LANE bytes of a crew at o (R346). An x word that is as it was saved passes: a row changed in a stash brings any word back (R219). -/
def Saved.lanesOk (x : Saved) (c : Crew) (o regs width : Nat) : Bool :=
  let preds := o + 4 * regs * width
  let bits := preds + 33 * width
  let n := (regs + 7) / 8
  (List.range width).all (fun l => decide (x.nat (preds + l) 1 < 128)
      && (List.range 4).all (fun k =>
        let v := x.word (preds + width + 16 * l + 4 * k)
        xWordOk regs v || v == c.x k l)
      && fld (x.word (preds + 17 * width + 16 * l)) 5 26 == 0)
    && decide (x.nat bits n < 2 ^ regs) && x.zero (bits + n) (alignUp 256 (bits + n - o) - (bits + n - o))

def Saved.laneOk (x : Saved) (g : Grid) : Nat → List (Nat × Crew) → Bool
  | _, [] => true
  | o, r :: rs =>
    let regs := g.regs r.2.role.toNat
    x.lanesOk r.2 o regs g.copy.width && x.laneOk g (o + (r.2.laneBytes regs g.copy.width).length) rs

/-- The 32 entries of ACC at o: how many are bound, and how many of those to the floor (R346). -/
def Saved.accCounts (x : Saved) (o : Nat) : Nat × Nat :=
  (((List.range 32).filter (fun h => (x.nat (o + 16 * h) 1).testBit 0)).length,
   ((List.range 32).filter (fun h => x.nat (o + 16 * h) 1 == 1)).length)

def Saved.accOk (x : Saved) (o floor : Nat) : Bool :=
  (List.range 32).all (fun h => [0, 1, 3].contains (x.nat (o + 16 * h) 1) && x.zero (o + 16 * h + 1) 15)
    && decide ((x.accCounts o).2 ≤ floor)

/-- The objects at o (R51). -/
def Saved.barsOk (x : Saved) (o : Nat) : Bool :=
  (List.range 16).all (fun n =>
    let v := BitVec.ofNat 96 (x.nat (o + 12 * n) 12)
    fld v 24 21 == 0 && (!flag v 47 || fld v 12 12 != 0))

/-- The tag sets from o on (R346). -/
def Saved.tagsOk (x : Saved) (o sets : Nat) : Bool :=
  (List.range sets).all (fun n =>
    (List.range 8).all (fun k => nfld (BitVec.ofNat 64 (x.nat (o + 72 * n + 8 * k) 8)) 44 19 == 0)
      && decide (x.nat (o + 72 * n + 64) 1 < 128) && x.zero (o + 72 * n + 65) 7)

/-- The bytes that the codebooks of a list of numbers take from o on, where their headers are well formed (R346). -/
def Saved.booksLen (x : Saved) : Nat → List Nat → Option Nat
  | _, [] => some 0
  | o, _ :: bs =>
    let head := BitVec.ofNat 64 (x.nat o 8)
    let n := 8 + if flag head 63 then 256 * entryBytes (fld head 0 2) else 0
    if fld head 2 61 != 0 then none else (x.booksLen (o + n) bs).map (n + ·)

/-- The join cursors at o (R218). -/
def Saved.joinOk (x : Saved) (o : Nat) : Bool :=
  (List.range 4).all (fun r =>
    let j := BitVec.ofNat 64 (x.nat (o + 8 * r) 8)
    fld j 29 2 == 0 && fld j 13 3 == 0 && (jcurDone j || decide (jcurLidx j < jcurLcnt j)))

/-- A lane's operands at o: an address of n bytes of global memory or of scratchpad (R81, R87). -/
def Saved.laneRecordOk (x : Saved) (o n : Nat) (sp : Bool) (spBytes : Nat) : Bool :=
  let a := x.nat o 8
  n == 0 || (decide (a < 2 ^ 52) && a % n == 0 && (!sp || decide (a + n ≤ spBytes)))

/-- An operand-log entry at o: unused and then zero in all its bytes, or of an instruction that the log keeps (R348). -/
def Saved.logEntryOk (x : Saved) (g : Grid) (o : Nat) : Bool :=
  let width := g.copy.width
  let mask := x.nat (o + 24) 8
  let unused := x.zero o 64
  let kind := match decodeLane (x.word o) (x.word (o + 4)) (x.word (o + 8)) with
    | .ok i => logKind i
    | .reject _ => none
  (unused && x.zero (o + 64) (32 * width)) || (!unused && (List.range width).all (fun l => x.zero (o + 64 + 32 * l + 28) 4)
    && (x.zero (o + 12) 4 && decide (x.nat (o + 16) 8 < 2 ^ 52) && inWidth width mask && mask != 0 && x.zero (o + 40) 24
      && mask &&& x.nat (o + 32) 8 == x.nat (o + 32) 8
      && match kind with
        | some k => (List.range width).all (fun l => !mask.testBit l || x.laneRecordOk (o + 64 + 32 * l) k.2.2 k.2.1.sp g.spBytes)
        | none => false))

/-- The barrier field at o. -/
def Saved.barOk (x : Saved) (o : Nat) : Bool := x.nat o 2 / 16 % 2 ^ 11 == 0

/-- The size of a copy-log entry at o, where it is well formed; of what was saved there, `long` says that a TSTORE's image follows
it, and `size` are the bytes of a codebook's entry (R348). -/
def Saved.copyEntryLen (x : Saved) (g : Grid) (o places : Nat) (long : Bool) (size : Nat) : Option Nat :=
  let kind := x.nat o 1
  let flags := x.nat (o + 2) 1
  let book := flags.testBit 1
  let code := x.nat (o + 1) 1
  let size := if book then size else 4 * 2 ^ code
  let at_ := x.nat (o + 4) 4
  let common := decide (x.nat (o + 3) 1 < places) && x.barOk (o + 16)
  if kind = 1 then
    if common && decide (flags < 8) && (if book then code == 3 && !flags.testBit 0 else decide (code < 3)) && at_ % size == 0
        && decide (at_ + size ≤ g.spBytes) && decide (x.nat (o + 8) 8 < 2 ^ 52) && x.nat (o + 8) 8 % size == 0
        && decide (x.nat (o + 19) 1 < Config.codebooks) && x.zero (o + 20) 12 then some 32
    else none
  else if kind = 2 ∨ kind = 3 then
    if common && decide (code < g.tileCount) && flags == kind - 2 && x.zero (o + 4) 12 && x.zero (o + 18) 14
        && (List.range 32).all (fun i => decide (x.nat (o + 32 + 8 * i) 8 < 2 ^ 52) && x.nat (o + 32 + 8 * i) 8 % 16 == 0) then
      some (if long && kind == 3 then 4416 else 320)
    else none
  else none

/-- The bytes of n entries of the copy log from o on; `w` is the workgroup with its codebooks as they are restored. -/
def Saved.copyLogLen (x : Saved) (w0 w : Workgroup) (g : Grid) (places : Nat) : Nat → Nat → List LogUnit → Option Nat
  | 0, _, _ => some 0
  | n + 1, o, olds =>
    let old := olds.head?.filter (fun u => u.1.place == x.nat (o + 3) 1)
    let long := old.any (fun u => (w0.transferBytes u.1).length == 4416)
    match x.copyEntryLen g o places long (w.bookSize (x.nat (o + 19) 1) (old.bind (·.2))) with
    | some k => (x.copyLogLen w0 w g places n (o + k) olds.tail).map (k + ·)
    | none => none

/-- Which of the six images of an MMA record its operation uses: A0, its scale, A1, its scale, B, its scale (R197, R201, R348). -/
def mmaUses (fa fb : Slot) (wide : Bool) : List Bool :=
  let sa := mmaScaled fa fb fa
  [true, sa, wide, wide && sa, true, mmaScaled fa fb fb]

/-- An MMA record at o; images that are not used are zero (R348). -/
def Saved.mmaOk (x : Saved) (g : Grid) (o places : Nat) : Bool :=
  (match decodeLane (x.word o) (x.word (o + 4)) (x.word (o + 8)) with
      | .ok (.mma f) => ((mmaUses (g.copy.fmtSlot f.fa.toNat) (g.copy.fmtSlot f.fb.toNat) (g.copy.width == 64)).zip (List.range 6)).all
          (fun e => e.1 || x.zero (o + 64 + 4096 * e.2) 4096)
      | _ => false)
    && x.zero (o + 12) 4 && decide (x.nat (o + 16) 8 < 2 ^ 52) && decide (x.nat (o + 24) 1 < places) && x.zero (o + 25) 39

/-- The MMA records from o on, at most one of each crew (R338). -/
def Saved.mmasOk (x : Saved) (g : Grid) (o n places : Nat) : Bool :=
  (List.range n).all (fun i => x.mmaOk g (o + 24640 * i) places
    && (List.range i).all (fun j => x.nat (o + 24640 * j + 24) 1 != x.nat (o + 24640 * i + 24) 1))

/-- The BURROW section at o: positions are at most 16,777,215 (R227, R346). -/
def Saved.burrowOk (x : Saved) (o n : Nat) : Bool :=
  (List.range n).all (fun i =>
    let e := o + 4 + 12 * i
    decide (x.nat (e + 2) 1 ≤ 1) && x.zero (e + 3) 1 && decide (x.nat (e + 4) 4 < 2 ^ 24) && decide (x.nat (e + 8) 4 < 2 ^ 24))

/-! All of it. -/

/-- Sections that a resident workgroup's area has and a parked one's has not: their lengths are those of the launch record, and their
values within their limits; `w'` is the workgroup that they describe. -/
def Saved.residentOk (x : Saved) (w w' : Workgroup) (g : Grid) : Bool :=
  let rs := w.records
  let places := rs.length
  let o := x.off
  x.len 0 == 1024 * places && x.recordsOk g.copy.width (o 0) rs
    && x.len 1 == (rs.map (fun r => (r.2.laneBytes (g.regs r.2.role.toNat) g.copy.width).length)).sum && x.laneOk g (o 1) rs
    && x.len 2 == 4096 * g.tileCount
    && x.len 3 == 512 + 16384 * (x.accCounts (o 3)).1 && x.accOk (o 3) g.floor
    && x.len 5 == g.spBytes + 72 * g.tagSets && x.tagsOk (o 5 + g.spBytes) g.tagSets
    && x.booksLen (o 6) (List.range Config.codebooks) == some (x.len 6)
    && x.len 7 == 32 && x.joinOk (o 7)
    && x.len 8 == 4 * logSize g.copy.width * places
    && (List.range (4 * places)).all (fun i => x.logEntryOk g (o 8 + logSize g.copy.width * i))
    && (x.copyLogLen w w' g places (x.nat (o 9) 4) (o 9 + 4) w.logUnits).map (4 + ·) == some (x.len 9)
    && x.len 10 == 4 + 24640 * x.nat (o 10) 4 && x.mmasOk g (o 10 + 4) (x.nat (o 10) 4) places

/-- The checks of R349. Of a section that the launch record gives no length its own count gives it. -/
def Workgroup.areaOk (w : Workgroup) (g : Grid) (x : Saved) : Bool :=
  let n := x.nat (x.off 11) 4
  x.headOk w g && x.placed && x.len 4 == 192 && x.barsOk (x.off 4) && x.len 11 == 4 + 12 * n && x.burrowOk (x.off 11) n
    && x.len 12 == 16 && x.bytes (x.off 12) 16 == g.fusedBytes
    && if w.parked then [0, 1, 2, 3, 5, 6, 7, 8, 9, 10].all (fun i => x.len i == 0) else x.residentOk w (w.load g x) g

/-- The workgroup that an area describes, if it passes the checks of R349. -/
def Workgroup.loadChecked (w : Workgroup) (g : Grid) (x : Saved) : Option Workgroup :=
  if w.areaOk g x then some (w.load g x) else none

end Sys2Proof.Machine
end

