-- ==== Sys2Proof/Machine/Room.lean ====
section
/-! DEFINITION. Who takes the room of the cores, and when: saved workgroups, drawn indices and new draws, co-resident grids as a
whole, and what a core offers when room on it is freed (20 R313, R314, R317, R318, R322; 22 R349, R366; 07 R166; 01 R36). -/

namespace Sys2Proof.Machine

/-! Saved workgroups return (R322, R349, R366). -/

/-- A saved workgroup with the pool it stands in. -/
abbrev SavedAt := Pool × Area

/-- The save areas that may be resumed, with their pools (R366). -/
def State.savedAreas (s : State) : List SavedAt :=
  (s.pools.filter (·.resumed)).flatMap (fun p => (p.areas.filter (fun a => !a.restored && !s.barred p.ctx a.wg.seq)).map (fun a => (p, a)))

/-- The bytes of an area as they stand now. -/
def State.areaOf (s : State) (a : Area) : Saved := ⟨s, a.base⟩

/-- The core on which a saved workgroup that is parked stands again: its own where that may take workgroups of its context, else the
lowest that may (R361; DESIGN CHOICE, log entry 30). -/
def State.placeParked (s : State) (w : Workgroup) (die : Nat) : Option Nat :=
  let cores := s.openCores w.ctx die
  if w.die = die ∧ cores.contains w.core then some w.core else cores.head?

/-- The workgroup that an area describes as its bytes stand now (R349). -/
def State.loaded (s : State) (a : Area) : Workgroup := a.wg.load (s.grids.get a.wg.seq) (s.areaOf a)

/-- Where a saved workgroup goes on a die: its whole carving with the blocks of its pool accumulators, as its area names them; a parked
one takes no room (R36, R165, R322). -/
def State.placeArea (s : State) (a : Area) (die : Nat) : Option Nat :=
  let g := s.grids.get a.wg.seq
  if a.wg.parked then s.placeParked a.wg die
  else s.pickFor g.ctx { g.demand with accBlocks := g.demand.accBlocks + 2 * (s.loaded a).poolBound } die

/-- Places for all of some saved workgroups, one after the other, each as its bytes load, on the lowest of some dies that has room
(R317, R322). -/
def State.placeAll (dies : List Nat) : List Area → State → Option (List (Area × Nat × Nat))
  | [], _ => some []
  | a :: rest, s =>
    match dies.findSome? (fun d => (s.placeArea a d).map (fun core => (d, core))) with
    | some p => (State.placeAll dies rest (s.putWg a.wid { (s.loaded a) with die := p.1, core := p.2 })).map ((a, p) :: ·)
    | none => none

/-- The saved workgroups that resume together with one: the whole of a co-resident grid (R317, R366). -/
def State.together (s : State) (a : Area) : List Area :=
  if (s.grids.get a.wg.seq).copy.coresident then (s.savedAreas.map (·.2)).filter (fun x => x.wg.seq == a.wg.seq) else [a]

/-- The places at which a saved workgroup and those that resume with it are resumed through a die, if there is room now. -/
def State.resumePlaces (s : State) (a : Area) (die : Nat) : Option (List (Area × Nat × Nat)) :=
  let g := s.grids.get a.wg.seq
  let dies := s.diesOf g.ctx
  if !dies.contains die || !s.hot.isEmpty then none
  else State.placeAll (if g.copy.coresident then dies else [die]) (s.together a) s

/-- Saved work waits that the die can take first (R314, R318). -/
def State.savedFirst (s : State) (die : Nat) : Bool := s.savedAreas.any (fun e => (s.resumePlaces e.2 die).isSome)

/-- The children of a workgroup whose area says that `field` are outstanding where `written` were: added ones never complete, and of
those left out the youngest are forgotten (R349; DESIGN CHOICE, log entry 22). -/
def Workgroup.withKids (w : Workgroup) (written field : Nat) : Workgroup :=
  if written ≤ field then
    { w with
      children := w.children ++ (List.range (field - written)).map (fun i => w.launched + i)
      launched := w.launched + (field - written) }
  else { w with children := w.children.take (w.children.length - (written - field)) }

/-- A saved workgroup is checked and restored at its place; an area that fails raises BADSAVE (R349). The MMA and the transfers
of its logs are in flight again. -/
def State.restore (s : State) (e : Area × Nat × Nat) : State :=
  let a := e.1
  match s.pools.any (fun p => p.areas.contains a), a.wg.loadChecked (s.grids.get a.wg.seq) (s.areaOf a) with
  | false, _ => s
  | true, none => s.endContext a.wg.ctx .badsave
  | true, some w =>
    let share := s.freeShare a.wid e.2.1 e.2.2
    let w' := { w with die := e.2.1, core := e.2.2, share := share, admitted := s.nextWid, children := a.wg.children }
    let done := fun (x : Area) => if x = a then { x with restored := true } else x
    let t : State := { s with
      wgs := s.wgs.insert a.wid (w'.withKids a.kids ((s.areaOf a).nat 0x24 4))
      nextWid := s.nextWid + 1
      pools := s.pools.map (fun (p : Pool) => { p with areas := p.areas.map done }) }
    if w.parked then t else t.setLines w'

/-- WORKGROUP_RESUMPTION: a saved workgroup of a resumed pool takes its room through a die that has it, with the others of a
co-resident grid (R322, R349, R366). -/
def execWorkgroupResumption (pool area die : Nat) (s : State) : Result :=
  match s.savedAreas.find? (fun e => e.1.base == pool && e.1.areas[area]? == some e.2) with
  | none => .next s
  | some e =>
    match s.resumePlaces e.2 die with
    | none => .next s
    | some places => .next (places.foldl State.restore s).poolsDone

/-! Draws and admissions (R313, R314, R316). -/

/-- DISPATCHER_DRAW: after saved work and drawn indices that can be placed, in grid order. -/
def execDispatcherDraw (die seq : Nat) (s : State) : Result :=
  match s.grids.find? seq with
  | none => .next s
  | some g =>
    let others := s.grids.any (fun e => s.canAdmit e die || (s.canDraw e die && gridBefore e (seq, g)))
    if !s.canDraw (seq, g) die || s.savedFirst die || others then .next s
    else .next { s with grids := s.grids.insert seq (g.draw die g.copy.batch) }

/-- WORKGROUP_ADMISSION: the lowest drawn index of the grid on the die, after saved work and the drawn indices of grids that
come before it. -/
def execWorkgroupAdmission (die seq : Nat) (s : State) : Result :=
  match s.grids.find? seq with
  | none => .next s
  | some g =>
    let others := s.grids.any (fun e => s.canAdmit e die && gridBefore e (seq, g))
    if !s.canAdmit (seq, g) die || s.savedFirst die || others then .next s else .next (s.admitNext seq die)

/-! Co-resident admission (R39, R317). -/

/-- The workgroups of a grid that a die could place at once, at most n: R316 applied one workgroup at a time. -/
def State.capacity (seq : Nat) (g : Grid) (die : Nat) : Nat → State → Nat
  | 0, _ => 0
  | n + 1, s =>
    match s.pickCore g die with
    | some core => 1 + State.capacity seq g die n (s.admitOn seq g die 0 core)
    | none => 0

/-- The share of each die of a list, of n workgroups that are not yet assigned. -/
def State.shares (s : State) (seq : Nat) (g : Grid) : Nat → List Nat → List (Nat × Nat)
  | _, [] => []
  | n, d :: ds =>
    let c := s.capacity seq g d n
    (d, c) :: s.shares seq g (n - c) ds

/-- The shares of a co-resident grid that has been accepted and is not admitted, if all its workgroups fit at once. -/
def State.fits (s : State) (e : Nat × Grid) : Option (List (Nat × Nat)) :=
  let sh := s.shares e.1 e.2 e.2.copy.total (s.diesOf e.2.ctx)
  if e.2.atHead && !s.barred e.2.ctx e.1 && decide ((sh.map (·.2)).sum = e.2.copy.total) then some sh else none

/-- One draw of a die for its share: the least of B and what it has not received. -/
def Grid.drawShare (sh : List (Nat × Nat)) (g : Grid) (die : Nat) : Grid :=
  let share := ((sh.filter (fun p => p.1 == die)).map (·.2)).sum
  g.draw die (min g.copy.batch (share - (g.drawn.filter (fun p => p.1 == die)).length))

/-- All draws: those dies of `order` first that the counter saw first, then what is left, in ascending die order. -/
def Grid.drawShares (g : Grid) (sh : List (Nat × Nat)) (order : List Nat) : Grid :=
  (order ++ sh.flatMap (fun p => List.replicate p.2 p.1)).foldl (Grid.drawShare sh) g

/-- Every index that the dies of a list have drawn is admitted, ascending on each die. -/
def State.admitShares (s : State) (seq : Nat) (sh : List (Nat × Nat)) : State :=
  (sh.flatMap (fun p => List.replicate p.2 p.1)).foldl (fun (s : State) die => s.admitNext seq die) s

/-- What comes before a co-resident grid's admission (R314): saved work and drawn indices that a die of its partition can take, and
what precedes it in grid order. -/
def State.beforeShares (s : State) (x : Nat × Grid) : Bool :=
  (s.diesOf x.2.ctx).any (fun die => s.savedFirst die
    || s.grids.any (fun e => s.canAdmit e die || (s.canDraw e die && gridBefore e x)))
  || s.grids.any (fun e => (s.fits e).isSome && gridBefore e x)

/-- CORESIDENT_ADMISSION: in one step every workgroup of the grid is drawn and admitted, or none (R317); `order` is the order of
the dies' draws at the counter, which the rule leaves open. The queue then moves on (R305). -/
def execCoresidentAdmission (seq : Nat) (order : List Nat) (s : State) : Result :=
  match s.grids.find? seq with
  | none => .next s
  | some g =>
    match s.fits (seq, g) with
    | none => .next s
    | some sh =>
      if s.beforeShares (seq, g) then .next s
      else
        let g' := ({ g with atHead := false } : Grid).drawShares sh order
        .next (({ s with grids := s.grids.insert seq g' }.admitShares seq sh).leaveHead g)

/-! What a core offers (R318). -/

/-- The saved workgroups that have their place on a core now are resumed there. -/
def State.offerSaved (s : State) (die core : Nat) : State :=
  (s.savedAreas.foldl (fun (s : State) e =>
    match s.resumePlaces e.2 die with
    | some places => if places.any (fun p => p.2 == (die, core)) then places.foldl State.restore s else s
    | none => s) s).poolsDone

/-- Inserting a grid in grid order (R314). -/
def insertGrid (x : Nat × Grid) : List (Nat × Grid) → List (Nat × Grid)
  | [] => [x]
  | y :: ys => if gridBefore x y then x :: y :: ys else y :: insertGrid x ys

/-- The grid's next drawn index of a die is admitted where that is on this core; a saved workgroup that has no place here holds it not
back. -/
def State.offerIndex (die core : Nat) (s : State) (seq : Nat) : State :=
  let g := s.grids.get seq
  if s.canAdmit (seq, g) die && s.pickCore g die == some core then s.admitNext seq die else s

/-- Drawn indices of the die, in grid order, ascending in each grid, are admitted to a core. -/
def State.offerDrawn (s : State) (die core : Nat) : State :=
  let claimants := (s.grids.foldr insertGrid []).flatMap
    (fun e => List.replicate (e.2.drawn.filter (fun p => p.1 == die)).length e.1)
  claimants.foldl (State.offerIndex die core) s

/-- A core offers the room that has been freed on it: to waiting AGROWs, to saved workgroups, to drawn indices (R318). -/
def State.offer (s : State) (die core : Nat) : State :=
  let s1 := State.offerBlocks Config.accBlocks s die core
  (s1.offerSaved die core).offerDrawn die core

/-- AFREE (R166): it waits for the crew's own operations, and is in progress meanwhile; an unordered one of another crew comes before
or finds the handle unbound. Whether the handle is bound it looks at after that wait (DESIGN CHOICE, log entry 122). The room goes where
R318 says. -/
def execAfree (h : BitVec 5) (s : State) : Result :=
  acting s fun w c =>
    if !c.mayMatrix then trap s .role 0
    else if !c.runsIssued || c.mma.isSome then .next (s.put s.cur.key w { c with freeing := some h })
    else trapsThen s
      (.next ((s.put s.cur.key (w.unbind h.toNat) ({ c with freeing := none }.advance 4)).offer w.die w.core))
      [((w.accs.find? h.toNat).isNone, .accnone, 0)]

/-- WORKGROUP_RETIREMENT: a workgroup whose crews have retired retires, or is parked while children are outstanding; a parked
one retires when its last child has (R36). Its core offers the room (R318). -/
def execWorkgroupRetirement (wid : Nat) (s : State) : Result :=
  match s.wgs.find? wid with
  | none => .next s
  | some w =>
    if s.frozen w || !w.finished then .next s
    else if w.children.isEmpty then .next ((s.retireWg wid w).offer w.die w.core).drained
    else if w.parked then .next s
    else .next ((s.putWg wid w.park).offer w.die w.core).drained

end Sys2Proof.Machine
end

