-- ==== Sys2Proof/Machine/Sha.lean ====
section
/-! DEFINITION. SHA-256, which the boot ROM and the SPDM responder hash with (25 R362, R363). The spec names the function; the function
itself is PRESUMED from FIPS 180-4 (log entry 105). -/

namespace Sys2Proof.Sha

/-- The 64 round constants, constant i in bits 32 i + 31 to 32 i. -/
def roundTable : BitVec 2048 :=
    0xc67178f2bef9a3f7a4506ceb90befffa8cc7020884c8781478a5636f748f82ee#256
    ++ 0x682e6ff35b9cca4f4ed8aa4a391c0cb334b0bcb52748774c1e376c0819a4c116#256
    ++ 0x106aa070f40e3585d6990624d192e819c76c51a3c24b8b70a81a664ba2bfe8a1#256
    ++ 0x92722c8581c2c92e766a0abb650a735453380d134d2c6dfc2e1b213827b70a85#256
    ++ 0x1429296706ca6351d5a79147c6e00bf3bf597fc7b00327c8a831c66d983e5152#256
    ++ 0x76f988da5cb0a9dc4a7484aa2de92c6f240ca1cc0fc19dc6efbe4786e49b69c1#256
    ++ 0xc19bf1749bdc06a780deb1fe72be5d74550c7dc3243185be12835b01d807aa98#256
    ++ 0xab1c5ed5923f82a459f111f13956c25be9b5dba5b5c0fbcf71374491428a2f98#256

/-- The eight working words. -/
structure Words where
  a : Word
  b : Word
  c : Word
  d : Word
  e : Word
  f : Word
  g : Word
  h : Word
  deriving DecidableEq, Repr

/-- The words that hashing starts from. -/
def Words.start : Words :=
  ⟨0x6a09e667, 0xbb67ae85, 0x3c6ef372, 0xa54ff53a,
    0x510e527f, 0x9b05688c, 0x1f83d9ab, 0x5be0cd19⟩

/-- Three rotations to the right, or two and a shift, combined. -/
def turned (x : Word) (i j k : Nat) : Word := x.rotateRight i ^^^ x.rotateRight j ^^^ x.rotateRight k
def smeared (x : Word) (i j k : Nat) : Word := x.rotateRight i ^^^ x.rotateRight j ^^^ x >>> k

/-- n further words of the message schedule, the newest first. -/
def schedule : Nat → List Word → List Word
  | 0, w => w
  | n + 1, w =>
    schedule n ((smeared (w.getD 1 0) 17 19 10 + w.getD 6 0 + smeared (w.getD 14 0) 7 18 3 + w.getD 15 0) :: w)

/-- One round on a round constant plus a schedule word. -/
def Words.round (x : Words) (kw : Word) : Words :=
  let t := x.h + turned x.e 6 11 25 + ((x.e &&& x.f) ^^^ (~~~x.e &&& x.g)) + kw
  let u := turned x.a 2 13 22 + ((x.a &&& x.b) ^^^ (x.a &&& x.c) ^^^ (x.b &&& x.c))
  ⟨t + u, x.a, x.b, x.c, x.d + t, x.e, x.f, x.g⟩

def Words.add (x y : Words) : Words := ⟨x.a + y.a, x.b + y.b, x.c + y.c, x.d + y.d, x.e + y.e, x.f + y.f, x.g + y.g, x.h + y.h⟩

/-- A number from bytes, the first the most significant. -/
def beNat (bs : List Byte) : Nat := leNat bs.reverse

/-- Word i of a block of 64 bytes. -/
def wordAt (block : List Byte) (i : Nat) : Word := BitVec.ofNat 32 (beNat ((block.drop (4 * i)).take 4))

/-- The words after one more block. -/
def Words.absorb (x : Words) (block : List Byte) : Words :=
  let w := (schedule 48 ((List.range 16).reverse.map (wordAt block))).reverse
  x.add ((List.range 64).foldl (fun (y : Words) i => y.round (fld roundTable (32 * i) 32 + w.getD i 0)) x)

/-- The message with its padding: a set bit, zeros, and its length in bits. -/
def padded (bs : List Byte) : List Byte :=
  bs ++ [0x80] ++ List.replicate ((119 - bs.length % 64) % 64) 0 ++ (leBytes 8 (8 * bs.length)).reverse

def Words.digest (x : Words) : BitVec 256 := x.a ++ x.b ++ x.c ++ x.d ++ x.e ++ x.f ++ x.g ++ x.h

/-- The SHA-256 of some bytes, its first byte in bits 255:248. -/
def hash (bs : List Byte) : BitVec 256 :=
  let m := padded bs
  ((List.range (m.length / 64)).foldl (fun (x : Words) i => x.absorb ((m.drop (64 * i)).take 64)) Words.start).digest

end Sys2Proof.Sha

namespace Sys2Proof

/-- An image's digest, and its security version in its first four bytes (R362; PRESUMED, log entry 105). -/
def FlashImage.digest (x : FlashImage) : BitVec 256 := Sha.hash x.bytes
def FlashImage.version (x : FlashImage) : Word := BitVec.ofNat 32 (leNat (x.bytes.take 4))

end Sys2Proof
end

