-- ==== Sys2Proof/Machine/Kv.lean ====
section
/-! DEFINITION. The key-value arena (04 R96 to R99) and the issue of the key-value instructions (11 R237 to R240). -/

namespace Sys2Proof.Machine

/-! The handle (R96) and the addresses of its items (R97). -/

def BufRec.nhead (m : BufRec) : Nat := nfld m 248 8
def BufRec.maxBlk (m : BufRec) : Nat := nfld m 232 16
def BufRec.stepBase (m : BufRec) : Nat := nfld m 180 52
def BufRec.seqBase (m : BufRec) : Nat := nfld m 128 52
def BufRec.mapBase (m : BufRec) : Nat := nfld m 64 52

/-- A well-formed key-value handle (R85, R96). -/
def BufRec.kvHandle (m : BufRec) : Bool :=
  m.fmt == 0x30 && decide (m.policy < 4) && m.mode == 0 && nfld m 116 12 == 0 && m.nhead != 0 && m.maxBlk != 0
    && m.stepBase % 4 == 0 && m.seqBase % 16 == 0 && m.mapBase % 4 == 0 && m.base % 4096 == 0

/-- The sequence and the head that sa names, and its reserved bits (R237). -/
def kvSeq (sel : Word) : Nat := nfld sel 0 16
def kvHead (sel : Word) : Nat := nfld sel 16 8
def kvReserved (sel : Word) : Bool := nfld sel 24 8 != 0

def BufRec.seqAt (m : BufRec) (sel : Word) : Nat := m.seqBase + kvSeq sel * 16
def BufRec.mapAt (m : BufRec) (sel : Word) (p : Nat) : Nat := m.mapBase + (kvSeq sel * m.maxBlk + p / 32) * 4
def BufRec.tagAt (m : BufRec) (sel : Word) (p : Nat) : Nat := m.stepBase + (kvSeq sel * m.maxBlk * 32 + p) * 4
/-- A row of the frame that a map entry names. -/
def BufRec.rowAt (m : BufRec) (sel : Word) (entry p : Nat) : Nat :=
  m.base + (entry % 2 ^ 31) * m.nhead * 4096 + kvHead sel * 4096 + p % 32 * 128

/-- Positions of a sequence. -/
def BufRec.positions (m : BufRec) : Nat := m.maxBlk * 32

/-! Reading items. -/

/-- What reading or translating an item gives. -/
inductive KvRead (α : Type) where
  | miss (need : Need) (va : Nat)
  /-- its page is being moved, or an earlier access of the crew is to be performed first -/
  | wait
  /-- bits 63:52 of the address are set (R81) -/
  | far (va : Nat)
  | fail (code : FaultCode) (va : Nat)
  | got (x : α)

def KvRead.bind {α β : Type} (r : KvRead α) (f : α → KvRead β) : KvRead β :=
  match r with
  | .miss need va => .miss need va
  | .wait => .wait
  | .far va => .far va
  | .fail code va => .fail code va
  | .got x => f x

/-- The physical address of an item. -/
def State.kvPa (s : State) (w : Workgroup) (need : Need) (va : Nat) : KvRead Nat :=
  if 2 ^ 52 ≤ va then .far va
  else match s.xlate w.die w.ctx need va with
    | .ok pa => .got pa
    | .fail code => .fail code va
    | .moving => .wait
    | .miss => .miss need va

/-- Which bytes an access may read now: at an address, a number of them. -/
abbrev MayRead := Nat → Nat → Bool

/-- The bytes that access `a` of a crew may read, `before` being the accesses of the crew in flight before it: what it must follow is
performed (R106, R108, R109). -/
def Access.mayRead (a : Access) (before : List Access) : MayRead := fun va n => a.mayTouch before (readFeet [(va, n)])

/-- n bytes of an item, once they may be read. -/
def State.kvBytes (s : State) (w : Workgroup) (may : MayRead) (va n : Nat) : KvRead (List Byte) :=
  if may va n then (s.kvPa w .rd va).bind fun pa => .got (s.readBytes w.ctx pa n) else .wait

def State.kvWord (s : State) (w : Workgroup) (may : MayRead) (va : Nat) : KvRead Nat :=
  (s.kvBytes w may va 4).bind fun bs => .got (leNat bs)

/-- The row and status of one position for a reader at step r, given LEN and the map entry of its block (R98). -/
def State.kvPosition (s : State) (w : Workgroup) (may : MayRead) (m : BufRec) (sel : Word) (len entry r p : Nat) :
    KvRead (List Byte × Nat) :=
  let zeros := List.replicate 128 (0 : Byte)
  if len ≤ p ∨ m.positions ≤ p then .got (zeros, 2)
  else if entry < 2 ^ 31 then .got (zeros, 3)
  else (s.kvWord w may (m.tagAt sel p)).bind fun tag =>
    if r < tag then .got (zeros, 1)
    else (s.kvBytes w may (m.rowAt sel entry p) 128).bind fun row => .got (row, 0)

/-- The rows and statuses of a list of positions. -/
def State.kvPositions (s : State) (w : Workgroup) (may : MayRead) (m : BufRec) (sel : Word) (len entry r : Nat) :
    List Nat → KvRead (List (List Byte × Nat))
  | [] => .got []
  | p :: ps =>
    (s.kvPosition w may m sel len entry r p).bind fun x =>
      (State.kvPositions s w may m sel len entry r ps).bind fun xs => .got (x :: xs)

/-- The map entry of the block of p0, if it is within MAXBLK. -/
def State.kvEntry (s : State) (w : Workgroup) (may : MayRead) (m : BufRec) (sel : Word) (p0 : Nat) : KvRead Nat :=
  if p0 < m.positions then s.kvWord w may (m.mapAt sel p0) else .got 0

/-- What a KVLD has read: the map entry, and the row and status of each position. -/
structure KvBlock where
  entry : Nat
  rows : List (List Byte × Nat)

/-- What KVLD reads: LEN once, the map entry once, then each position with its tag (R238). -/
def State.kvBlock (s : State) (w : Workgroup) (may : MayRead) (m : BufRec) (sel : Word) (p0 r : Nat) : KvRead KvBlock :=
  (s.kvWord w may (m.seqAt sel)).bind fun len =>
    (s.kvEntry w may m sel p0).bind fun entry =>
      (s.kvPositions w may m sel len entry r ((List.range 32).map (fun i => p0 + i))).bind fun rows => .got ⟨entry, rows⟩

/-- The addresses and sizes that a KVLD of a block has read. -/
def KvBlock.reads (b : KvBlock) (m : BufRec) (sel : Word) (p0 : Nat) : List (Nat × Nat) :=
  (m.seqAt sel, 4) :: (if p0 < m.positions then [(m.mapAt sel p0, 4)] else [])
    ++ (b.rows.zip (List.range 32)).flatMap (fun x =>
      match x.1.2 with
      | 0 => [(m.tagAt sel (p0 + x.2), 4), (m.rowAt sel b.entry (p0 + x.2), 128)]
      | 1 => [(m.tagAt sel (p0 + x.2), 4)]
      | _ => [])

/-- The status pair: two bits a position (R238). -/
def KvBlock.status (b : KvBlock) : DWord :=
  BitVec.ofNat 64 (((b.rows.zip (List.range 32)).map (fun p => p.1.2 * 4 ^ p.2)).sum)

/-- The lines that reads by virtual address leave in the die cache (R86). -/
def State.touchAt (s : State) (w : Workgroup) (alloc : Bool) (reads : List (Nat × Nat)) : State :=
  reads.foldl (fun (s : State) r =>
    match s.kvPa w .rd r.1 with
    | .got pa => s.touchRange (.ctx w.ctx) alloc pa r.2
    | _ => s) s

/-! Issue. -/

/-- An instruction that stands at its issue until its items are translated; a walk that fails holds it (R335, R337). -/
def kvIssue {α : Type} (s : State) (r : KvRead α) (run : α → Result) : Result :=
  match r with
  | .miss need va => .next (s.issueMiss s.cur.key s.cur.stream need va)
  | .wait => .next s
  | .far va => trap s .xlat (BitVec.ofNat 64 va)
  | .fail code va => .next (s.holdFetch s.cur.key s.cur.stream code va)
  | .got x => run x

/-- An access of the key-value group through a handle. -/
def kvAccess (c : Crew) (m : BufRec) (kind : AccessKind) (cls : MemClass) (parts : List Part) : Access :=
  { scalarAccess c kind cls .dev parts with alloc := m.allocates }

/-- What an access of the crew that is about to issue may read (R106, R109). -/
def Crew.mayRead (c : Crew) (a : Access) : MayRead := (c.stamp a).mayRead c.flying

/-- KVLD (R238). Its reads are performed at its issue, each once what it must follow is performed, so that every later access follows them;
the tile and the pair land later. -/
def execKvld (d a b r : Reg) (t : BitVec 4) (m : BitVec 5) (s : State) : Result :=
  acting s fun w c =>
    let g := s.gridOf w
    let h := g.buf m.toNat
    let sel := c.s a
    let access := fun (rows : Cells 8) (status : DWord) => kvAccess c h (.kvld d t.toNat rows status) .strong [onePart 0 0 0 0]
    if !c.allFull [a, b, r] then .next s
    else trapsThen s
      (if !c.roomOn (some .tl) then .next s
       else kvIssue s (s.kvBlock w (c.mayRead (access [] 0)) h sel (c.s b).toNat (c.s r).toNat) fun block =>
        issueScalar (s.touchAt w h.allocates (block.reads h sel (c.s b).toNat)) w c
          (access (SMap.putList [] 0 (block.rows.flatMap (·.1))) block.status) 8 (fun c tag => (c.awaitS d tag).awaitS d.odd tag))
      [(decide (s.tileLimit w ≤ t.toNat) || kvReserved sel, .range, 0),
       (!h.kvHandle, .bounds, 0),
       (decide (h.nhead ≤ kvHead sel), .range, 0),
       ((c.s b).toNat % 32 != 0, .align, 0)]

/-- A block of these is known not to be resident (R239). A failure on another item does not come before that (R237). -/
def State.kvNotResident (s : State) (w : Workgroup) (m : BufRec) (sel : Word) (blocks : List Nat) : Bool :=
  blocks.any (fun b =>
    let va := m.mapAt sel (32 * b)
    match (if s.xlate w.die w.ctx .rd va = .miss then s.vtrans w.ctx .rd va else s.xlate w.die w.ctx .rd va) with
    | .ok pa => decide (leNat (s.readBytes w.ctx pa 4) < 2 ^ 31)
    | _ => false)

/-- The map entries of the blocks of positions p to p + n - 1 by block, rising. -/
def State.kvEntries (s : State) (w : Workgroup) (may : MayRead) (m : BufRec) (sel : Word) : List Nat → KvRead (SMap Nat)
  | [] => .got []
  | b :: bs =>
    (s.kvWord w may (m.mapAt sel (32 * b))).bind fun e =>
      (State.kvEntries s w may m sel bs).bind fun es => .got (SMap.insert es b e)

/-- Blocks of positions p to p + n - 1. -/
def kvBlocks (p n : Nat) : List Nat := (List.range ((p + n - 1) / 32 - p / 32 + 1)).map (fun i => p / 32 + i)

/-- Parts translated at issue. -/
def State.kvParts (s : State) (w : Workgroup) (need : Need) : List Part → KvRead (List Part)
  | [] => .got []
  | p :: ps =>
    (s.kvPa w need p.addr).bind fun pa =>
      (State.kvParts s w need ps).bind fun qs => .got ({ p with pa := some pa } :: qs)

/-- The parts of a KVAPP that write row i of the tile at position p + i, and its tag: one unit (R119, R239). -/
def kvRowParts (m : BufRec) (sel : Word) (tile : Tile) (entries : SMap Nat) (p step i : Nat) : List Part :=
  let row := m.rowAt sel ((entries.find? ((p + i) / 32)).getD 0) (p + i)
  (List.range 8).map (fun j =>
    { onePart (row + 16 * j) 16 (BitVec.ofNat 128 (leNat (SMap.slice tile (128 * i + 16 * j) 16))) 0 with unit := i })
  ++ [{ onePart (m.tagAt sel (p + i)) 4 (BitVec.ofNat 128 step) 0 with unit := i }]

/-- KVAPP (R239): it reads LEN and the map at its issue, and its rows, tags and LEN are written later; it ends replayability
(R344). -/
def execKvapp (d a b r : Reg) (t : BitVec 4) (m : BitVec 5) (s : State) : Result :=
  acting s fun w c =>
    let g := s.gridOf w
    let h := g.buf m.toNat
    let sel := c.s a
    let n := (c.s d).toNat
    let p := (c.s b).toNat
    let reads := (h.seqAt sel, 4) :: (kvBlocks p n).map (fun b => (h.mapAt sel (32 * b), 4))
    let access := kvAccess c h (.kvapp (h.seqAt sel) n) .strong
    let may := c.mayRead (access [])
    if !c.allFull [d, a, b, r] then .next s
    else trapsThen s
      (if !c.roomOn (some .st) || !reads.all (fun x => may x.1 x.2) then .next s
       else if s.kvNotResident w h sel (kvBlocks p n) then trap s .bounds 0
       else kvIssue s ((s.kvWord w may (h.seqAt sel)).bind fun _ => s.kvEntries w may h sel (kvBlocks p n)) fun es =>
         let rows := ((List.range n).map (kvRowParts h sel (w.tiles.get t.toNat) es p (c.s r).toNat)).flatten
         let len := { onePart (h.seqAt sel) 4 (BitVec.ofNat 128 (p + n)) 0 with unit := n }
         kvIssue s ((s.kvParts w .wr rows).bind fun rs => (s.kvParts w .rw [len]).bind fun l => .got (rs ++ l)) fun parts =>
           issueScalar (s.touchAt w h.allocates reads) w.spoil c (access parts) 8 (fun c _ => c))
      [(decide (s.tileLimit w ≤ t.toNat) || kvReserved sel, .range, 0),
       (!h.kvHandle, .bounds, 0),
       (decide (h.nhead ≤ kvHead sel ∨ n = 0 ∨ 32 < n), .range, 0),
       (decide (h.positions < p + n), .bounds, 0)]

/-- The checks and the one part of KVTRUNC and KVSTEP: a word of the sequence entry. -/
def kvField (s : State) (srcs : List Reg) (a : Reg) (m : BitVec 5) (need : Need) (off : Nat) (data : Word)
    (run : Workgroup → Crew → Nat → List Part → Result) : Result :=
  acting s fun w c =>
    let h := (s.gridOf w).buf m.toNat
    let sel := c.s a
    if !c.allFull srcs then .next s
    else trapsThen s
      (kvIssue s (s.kvParts w need [onePart (h.seqAt sel + off) 4 (data.zeroExtend 128) 0]) (run w c (h.seqAt sel)))
      [(kvReserved sel, .range, 0), (!h.kvHandle, .bounds, 0), (decide (h.nhead ≤ kvHead sel), .range, 0)]

/-- KVTRUNC: LEN := sb (R240); it ends replayability (R344). -/
def execKvtrunc (a b : Reg) (m : BitVec 5) (s : State) : Result :=
  acting s fun _ c =>
    kvField s [a, b] a m .wr 0 (c.s b) fun w c at_ parts =>
      issueScalar s w.spoil c (kvAccess c ((s.gridOf w).buf m.toNat) (.kvtrunc at_) .strong parts) 8 (fun c _ => c)

/-- KVSTEP: STEP := STEP + 1, its new value in sd before the next scalar instruction issues (R240); it ends replayability
(R344). -/
def execKvstep (d a : Reg) (m : BitVec 5) (s : State) : Result :=
  kvField s [a] a m .rw 4 0 fun w c at_ parts =>
    issueScalar s w.spoil c (kvAccess c ((s.gridOf w).buf m.toNat) (.kvstep at_ d) .strong parts) 8 (fun c _ => c)

end Sys2Proof.Machine
end

