-- ==== Sys2Proof/Machine/LaneFetch.lean ====
section
/-! DEFINITION. FETCH: its handle, what a lane of it reads, and its issue (04 R81, R100; 10 R224 to R226). The event FETCH_LANDS of
Machine/Landing.lean performs it. -/

namespace Sys2Proof.Machine

/-! FETCH (R100, R224). -/

def BufRec.cols (m : BufRec) : Nat := nfld m 64 32
def BufRec.rows (m : BufRec) : Nat := nfld m 96 32
def BufRec.aux1 (m : BufRec) : Nat := nfld m 128 48
def BufRec.vfmt (m : BufRec) : Nat := nfld m 176 6
def BufRec.aux2 (m : BufRec) : Nat := nfld m 192 48

/-- A value format of R57 that a fetch handle names. -/
def fetchFormat (v : Nat) : Bool := decide (1 ≤ v ∧ v ≤ 8)

/-- A well-formed fetch handle (R85, R100). -/
def BufRec.fetchHandle (m : BufRec) : Bool :=
  (m.fmt == 0x38 || m.fmt == 0x39 || m.fmt == 0x3A) && decide (m.policy < 4) && m.mode == 0 && nfld m 182 10 == 0
    && nfld m 240 16 == 0 && fetchFormat m.vfmt && (m.fmt != 0x38 || m.aux2 == 0) && (m.fmt != 0x39 || m.cols % 8 == 0)

/-- Byte width of the value format (R83). -/
def BufRec.fetchUnit (m : BufRec) : Nat := (unitBytes m.vfmt).getD 1

/-- The alignment that FETCH checks (R224). -/
def BufRec.fetchMisaligned (m : BufRec) : Bool :=
  let u := m.fetchUnit
  if m.fmt = 0x3A then m.base % 4 != 0 || (m.base + m.aux1) % 4 != 0 || (m.base + m.aux2) % u != 0
  else m.base % u != 0 || m.aux1 % u != 0

/-- The address of a row of a dense or 2:4 layout, in 64 bits (R81, R225). -/
def BufRec.fetchRowAt (m : BufRec) (y : Nat) : Nat := (m.base + y * m.aux1) % 2 ^ 64

/-- Where element i of the value format stands from an address on: a 4-bit one in a nibble of its byte (R60, R225). -/
def BufRec.fetchElemAt (m : BufRec) (start i : Nat) : Nat :=
  (start + if elemBits m.vfmt = 4 then i / 2 else i * m.fetchUnit) % 2 ^ 64

/-- The metadata byte of an element of the 2:4 layout (R100). -/
def BufRec.fetchMetaAt (m : BufRec) (x y : Nat) : Nat := (m.base + m.aux2 + y * (m.cols / 8) + x / 8) % 2 ^ 64

/-- The addresses that issue forms for the request of a lane: those that depend on nothing in memory (R225). -/
def BufRec.fetchAddrs (m : BufRec) (x y : Int) : List Nat :=
  if y < 0 ∨ (m.rows : Int) ≤ y then []
  else if m.fmt = 0x3A then [m.base + 4 * y.toNat, m.base + 4 * y.toNat + 4]
  else if x < 0 ∨ (m.cols : Int) ≤ x then []
  else if m.fmt = 0x38 then [m.fetchElemAt (m.fetchRowAt y.toNat) x.toNat]
  else [m.fetchMetaAt x.toNat y.toNat]

/-- What a lane of a FETCH writes, and where it read how many bytes. -/
structure FetchOut where
  value : Word
  column : Word
  status : Word
  reads : List (Nat × Nat)

/-- An element of the value format at place `idx` from an address: a 4-bit one is a nibble of its byte (R60, R225). -/
def State.fetchValue (s : State) (w : Workgroup) (may : MayRead) (m : BufRec) (start idx : Nat) : KvRead (Word × (Nat × Nat)) :=
  let four := elemBits m.vfmt == 4
  let va := m.fetchElemAt start idx
  (s.kvBytes w may va m.fetchUnit).bind fun bs =>
    let x := if four then leNat bs / 2 ^ (idx % 2 * 4) % 16 else leNat bs
    let v := match elemOf m.vfmt with
      | .float f => toF32 (f.decode x)
      | _ => BitVec.ofInt 32 (signedOf (elemBits m.vfmt) x)
    .got (v, (va, m.fetchUnit))

/-! What the addresses of a request depend on. -/

/-- What a lane has read before it can form its addresses: the row pointers st and en of a CSR row, en in bits 63:32, or the metadata
byte of the 2:4 layout; 0 where there is nothing to read. With it the cursor of a CSR row, and where it was read. -/
structure FetchKey where
  key : DWord
  cursor : Option Cursor
  reads : List (Nat × Nat)

/-- The row pointers of a CSR row: the cursor's, else read (R226). -/
def State.fetchRow (s : State) (w : Workgroup) (may : MayRead) (m : BufRec) (slot : BitVec 5) (y : Nat) (cur : Cursor) :
    KvRead FetchKey :=
  let key := fun (cur : Cursor) (reads : List (Nat × Nat)) => FetchKey.mk (cur.en ++ cur.st) (some cur) reads
  if cur.valid && cur.slot == slot && cur.row.toNat == y then .got (key cur [])
  else
    let va := m.base + 4 * y
    (s.kvWord w may va).bind fun st => (s.kvWord w may (va + 4)).bind fun en =>
      .got (key ⟨true, slot, BitVec.ofNat 32 y, BitVec.ofNat 32 st, BitVec.ofNat 32 en⟩ [(va, 4), (va + 4, 4)])

/-- What the request of a lane depends on, x and y as issue formed them; a request out of bounds reads nothing (R225). -/
def State.fetchKey (s : State) (w : Workgroup) (may : MayRead) (m : BufRec) (slot : BitVec 5) (x y : Int) (cur : Cursor) :
    KvRead FetchKey :=
  if y < 0 ∨ (m.rows : Int) ≤ y then .got ⟨0, none, []⟩
  else if m.fmt = 0x3A then s.fetchRow w may m slot y.toNat cur
  else if m.fmt = 0x38 ∨ x < 0 ∨ (m.cols : Int) ≤ x then .got ⟨0, none, []⟩
  else
    let va := m.fetchMetaAt x.toNat y.toNat
    (s.kvBytes w may va 1).bind fun bs => .got ⟨BitVec.ofNat 64 (leNat bs), none, [(va, 1)]⟩

/-- What a lane's request comes to: a result that reads no value, or the place of a value and of its column (R225). -/
inductive FetchForm where
  | ends (column status : Word)
  /-- element `idx` of the values from `start` on, of a column -/
  | value (column start idx : Nat)
  /-- of a CSR row: the address of the column too -/
  | entry (columnAt start idx : Nat)
  deriving DecidableEq

/-- The form of a request by what it depends on (R100, R225): in the 2:4 layout the nibble of the group of four columns gives the two
kept positions. -/
def BufRec.fetchForm (m : BufRec) (x y : Int) (key : DWord) : FetchForm :=
  if y < 0 ∨ (m.rows : Int) ≤ y then .ends 0xFFFFFFFF 2
  else if m.fmt = 0x3A then
    let st := nfld key 0 32
    let en := nfld key 32 32
    if en < st then .ends 0xFFFFFFFF 3
    else if x < 0 ∨ ((en - st : Nat) : Int) ≤ x then .ends 0xFFFFFFFF 2
    else .entry (m.base + m.aux1 + 4 * (st + x.toNat)) (m.base + m.aux2) (st + x.toNat)
  else if x < 0 ∨ (m.cols : Int) ≤ x then .ends 0xFFFFFFFF 2
  else
    let c := x.toNat
    let row := m.fetchRowAt y.toNat
    if m.fmt = 0x38 then .value c row c
    else
      let nib := key.toNat / 2 ^ (c / 4 % 2 * 4) % 16
      if c % 4 = nib % 4 then .value c row (2 * (c / 4))
      else if c % 4 = nib / 4 then .value c row (2 * (c / 4) + 1)
      else .ends (BitVec.ofNat 32 c) 1

/-- The addresses of a form: of a column and of its element they are formed together (R81). -/
def FetchForm.addrs (m : BufRec) : FetchForm → List Nat
  | .ends .. => []
  | .value _ start idx => [m.fetchElemAt start idx]
  | .entry columnAt start idx => [columnAt, m.fetchElemAt start idx]

/-- The first address of a form that has a bit above 51 set (R81). -/
def FetchForm.far (m : BufRec) (form : FetchForm) : Option Nat := (form.addrs m).find? (fun va => decide (2 ^ 52 ≤ va))

/-- What a form gives (R225). -/
def State.fetchOut (s : State) (w : Workgroup) (may : MayRead) (m : BufRec) (form : FetchForm) : KvRead FetchOut :=
  match form with
  | .ends column status => .got ⟨0, column, status, []⟩
  | .value column start idx =>
    (s.fetchValue w may m start idx).bind fun v => .got ⟨v.1, BitVec.ofNat 32 column, 0, [v.2]⟩
  | .entry columnAt start idx =>
    (s.kvWord w may columnAt).bind fun col => (s.fetchValue w may m start idx).bind fun v =>
      let c : Int := (BitVec.ofNat 32 col).toInt
      let bad := decide (c < 0 ∨ (m.cols : Int) ≤ c)
      .got ⟨v.1, BitVec.ofNat 32 col, if bad then 4 else 0, [(columnAt, 4), v.2]⟩

/-! Issue. -/

/-- What a lane finds at the issue of a FETCH: what its addresses depend on, and none of them with a bit above 51 set (R81). One whose walk
would fail issues with the others without it, and is held in flight (R225, R335, R336). -/
def State.fetchAtIssue (s : State) (w : Workgroup) (m : BufRec) (x y : Int) (r : KvRead FetchKey) : KvRead (Option FetchKey) :=
  match r with
  | .got k => match (m.fetchForm x y k.key).far m with
    | some va => .far va
    | none => .got (some k)
  | .far va => .far va
  | .fail .. => .got none
  | .miss need va => match s.vtrans w.ctx need va with
    | .fail _ => .got none
    | _ => .miss need va
  | .wait => .wait

/-- What the lanes of a FETCH find at its issue: the first address with a bit above 51 set, else the first lane that has yet to read, else
what each has read. -/
def fetchAll {α : Type} (xs : List (KvRead α)) : KvRead (List α) :=
  match xs.findSome? (fun k => match k with | .far va => some va | _ => none) with
  | some va => .far va
  | none => xs.foldr (fun k rest => k.bind fun x => rest.bind fun ys => .got (x :: ys)) (.got [])

/-- The crew with the cursors that lanes have loaded. -/
def Crew.loadCursors (c : Crew) (ks : List (Nat × Option FetchKey)) : Crew :=
  { c with cursors := ks.foldl (fun (m : SMap Cursor) k => match k.2.bind (·.cursor) with
      | some cur => m.put k.1 cur
      | none => m) c.cursors }

/-- FETCH (R224, R225): x and y of each lane of E are formed at issue, and what their addresses depend on, row pointers and metadata, is
read there, so that an address with a bit above 51 set traps XLAT with no effect in any lane (R81; DEDUCED, log entry 86). A CSR lane loads its cursor there
too, so that of two FETCHes in flight the one whose pointers are read last leaves its row (DESIGN CHOICE, log entry 131). -/
def execFetch (f : LaneFields) (s : State) : Result :=
  let i := Instr.fetch f
  laneIssue s { LaneSpec.plain i with groups := (3, 1, 1, 1) } f fun w c e =>
    let m := (s.gridOf w).buf f.mslot.toNat
    let x := fun (l : Nat) => ((operandAt i f 1).value c l).toInt + f.off16.toInt
    let y := fun (l : Nat) => if f.nc = 2 then (operandAt i f 2).value c l else 0
    let part := fun (l : Nat) =>
      lanePart ⟨l, 0, false, fun _ => false⟩ 0 ((BitVec.ofInt 64 (x l)).zeroExtend 128) ((y l).zeroExtend 64)
        ((operandAt i f 0).regIn c l) 0
    let a := laneAccess c f (.fetch f.mslot) .weak .dev false m ((lanesOf e).map part)
    let far := ((lanesOf e).flatMap (fun l => m.fetchAddrs (x l) (y l).toInt)).find? (fun va => decide (2 ^ 52 ≤ va))
    let found := (lanesOf e).map (fun l =>
      s.fetchAtIssue w m (x l) (y l).toInt (s.fetchKey w (c.mayRead a) m f.mslot (x l) (y l).toInt (c.cursors.get l)))
    if c.memWaits (.fetch f.mslot) then .next s
    else trapsThen s (kvIssue s (fetchAll found) fun ks =>
        let lanes := (lanesOf e).zip ks
        issueLane (s.touchAt w a.alloc (ks.flatMap (fun k => (k.map (·.reads)).getD []))) w (c.loadCursors lanes) f
          { a with parts := lanes.map (fun k => { part k.1 with key := k.2.map (·.key) }) } 3)
      [(!m.fetchHandle, .bounds, 0), (m.fetchMisaligned, .align, 0), (far.isSome, .xlat, BitVec.ofNat 64 (far.getD 0))]

end Sys2Proof.Machine
end

