-- ==== Sys2Proof/Machine/Landing.lean ====
section
/-! DEFINITION. The events that perform accesses and end runs: loads land, stores and transfers are performed, walks complete
and held accesses are replayed or declined (01 R19; 02 R48 to R52; 04 R91 to R94; 05 R105 to R119; 10 R225, R226; 11 R238 to
R240; 21 R325, R326; 22 R335 to R337). An event whose condition fails changes nothing. -/

namespace Sys2Proof.Machine

/-! Bytes of a part. -/

/-- Whether a part may be performed now, and where. -/
inductive Spot where
  | at (pa : Nat)
  | wait
  | held (code : FaultCode)
  deriving DecidableEq, Repr

/-- The physical address of a part; one that accesses no memory is not translated (R84). One that was translated before its link went down
fails as a walk does (R364). -/
def State.spot (s : State) (w : Workgroup) (a : Access) (p : Part) : Spot :=
  if !a.global p then .at 0
  else match p.pa with
    | some pa => if s.reachable pa then .at pa else .held .xlat
    | none => match s.xlate w.die w.ctx a.kind.need p.addr with
      | .ok pa => .at pa
      | .fail code => .held code
      | _ => .wait

/-- Scratchpad with those bytes written whose mask bit is set, from bit i on. -/
def scratchMasked (m : Cells 8) (at_ : Nat) (mask : BitVec 16) : Nat → List Byte → Cells 8
  | _, [] => m
  | i, b :: bs => scratchMasked (if flag mask i then m.put (at_ + i) b else m) at_ mask (i + 1) bs

/-- Writing the accessed bytes of a part. -/
def State.writePart (s : State) (w : Workgroup) (a : Access) (p : Part) (pa : Nat) (bs : List Byte) : State × Workgroup :=
  if a.scratch then (s, { w with scratch := scratchMasked w.scratch p.addr p.bytes 0 bs })
  else (s.writeMasked w.ctx a.alloc pa p.bytes 0 bs, w)

/-- The line that a part reads comes into the die cache, where its access may allocate (R86). A part lies in one line. -/
def State.touchPart (s : State) (w : Workgroup) (a : Access) (p : Part) (pa : Nat) : State :=
  if a.global p then s.touch (.ctx w.ctx) a.alloc pa else s

/-! Values. -/

/-- The register value of a load of 1, 2 or 4 bytes (R191). -/
def loadWord (code : BitVec 4) (x : Nat) : Word :=
  match code.toNat with
  | 1 => (BitVec.ofNat 8 x).signExtend 32
  | 3 => (BitVec.ofNat 16 x).signExtend 32
  | _ => BitVec.ofNat 32 x

/-- A lane's load lands in the registers of its part. -/
def Crew.landLoad (c : Crew) (tag : Nat) (p : Part) (code : BitVec 4) (x : Nat) : Crew :=
  let c := c.landV p.dst p.unit tag (loadWord code x)
  if p.size = 8 then c.landV (p.dst + 1) p.unit tag (BitVec.ofNat 32 (x / 2 ^ 32)) else c

/-- A scalar result lands: one register, or a pair. -/
def Crew.landPair (c : Crew) (d : Reg) (tag : Nat) (wide : Bool) (v : DWord) : Crew :=
  if wide then (c.landS d tag (fld v 0 32)).landS d.odd tag (fld v 32 32) else c.landS d tag (fld v 0 32)

/-! Copies and barriers. -/

/-- Batches all of whose copies have landed arrive on their objects (R93). -/
def settleBatches (w : Workgroup) (c : Crew) : Workgroup × Crew :=
  let done := c.batches.filter (fun b => !c.batchOpen b.serial)
  (done.foldl (fun (w : Workgroup) b => w.arriveAt b.bar) w, { c with batches := c.batches.filter (fun b => c.batchOpen b.serial) })

/-- The access without a part that has been performed. -/
def Access.without (a : Access) (p : Part) : Access := { a with parts := a.parts.erase p }

/-- The crew of a slot with what it has observed of the object it waits on, after the workgroup's objects have changed. -/
def Crew.watched (c : Crew) (slot : Nat) (w : Workgroup) : Crew :=
  match w.crews.find? slot with
  | some x => { c with waitBar := x.waitBar }
  | none => c

/-- A part has been performed: the crew drops it, and batches settle. -/
def State.partDone (s : State) (k : CrewKey) (w : Workgroup) (c : Crew) (a : Access) (p : Part) : State :=
  let r := settleBatches w (c.putAccess (a.without p))
  s.put k r.1 (r.2.watched k.slot r.1)

/-- RECEIVE once both halves of a unit have landed (R52, R91, R94). -/
def Workgroup.received (w : Workgroup) (a : Access) (p : Part) (bar : Option (BitVec 4)) : Workgroup :=
  if (a.without p).parts.any (fun q => q.unit == p.unit) then w else w.deliver bar (nfld p.cmp 0 32)

/-- The entry of a codebook (R92). -/
def Codebook.entry (b : Codebook) (i : Nat) : List Byte := SMap.slice b.bytes (i * entryBytes b.code) (entryBytes b.code)

/-- What lane l of a `.cb` copy of n bytes writes for index i: the entry, and free bytes where the codebook supplies none
(log entry 90). -/
def Workgroup.bookBytes (w : Workgroup) (tick book i lane n : Nat) : List Byte :=
  let e := match w.books.find? book with | some b => b.entry i | none => []
  (List.range n).map (fun j => e.getD j (Config.unbooked tick lane j))

/-- The pieces of an entry that a lane has read: single-copy atomic parts of 8 bytes at most (R103). -/
def Part.pieces (p : Part) (bs : List Byte) : List Part :=
  (List.range ((bs.length + 7) / 8)).map (fun j =>
    { p with half := j + 1, size := min bs.length 8, bytes := BitVec.allOnes 16, sp := p.sp + 8 * j, pa := none,
             data := BitVec.ofNat 128 (leNat ((bs.drop (8 * j)).take 8)) })

/-! One part. -/

/-- A part of the access is performed at its physical address. A load, weak or strong, reads memory itself in the step in which it is
performed, once (of a weak one DESIGN CHOICE, log entry 91); a copy reads its source in the step in which it lands, a `.cb` copy its
index byte and entry in one step before (DESIGN CHOICE, log entry 92). An index byte that is not accessed is 0, so that entry 0 is
written (R84, R92; DESIGN CHOICE, log entry 93). -/
def State.landPart (s : State) (k : CrewKey) (w : Workgroup) (c : Crew) (a : Access) (p : Part) (pa : Nat) : State :=
  let bs := s.partBytes w a p pa
  let x := leNat bs
  let old : DWord := BitVec.ofNat 64 x
  let store := fun (bs : List Byte) (w : Workgroup) (c : Crew) =>
    let r := s.writePart w a p pa bs
    r.1.partDone k r.2 c a p
  let update := store (a.written p x)
  let s := if a.kind.need = .rd then s.touchPart w a p pa else s
  match a.kind with
  | .load code => s.partDone k w (c.landLoad a.id p code x) a p
  | .store | .kvtrunc _ | .kvapp .. => update w c
  | .tstore .. => update w c
  | .atom .. => update w (c.landV p.dst p.unit a.id (BitVec.ofNat 32 x))
  | .sload d size => s.partDone k w (c.landPair d a.id (size == 3) old) a p
  | .ldk d =>
    s.partDone k w (c.landS d a.id (BitVec.ofNat 32 (leNat (((s.gridOf w).args.drop p.addr).take 4)))) a p
  | .satom d _ wide => update w (c.landPair d a.id wide old)
  | .copyIn bar =>
    s.partDone k (({ w with scratch := w.scratch.putList p.sp bs }).received a p bar) c a p
  | .copyOut bar => store (SMap.slice w.scratch p.sp p.size) (w.received a p bar) c
  | .copyBook b n bar =>
    if p.half = 0 then
      let pieces := p.pieces (w.bookBytes s.tick b x p.unit n)
      s.put k w (c.putAccess { a with parts := a.parts.flatMap (fun q => if q = p then pieces else [q]) })
    else s.partDone k (({ w with scratch := w.scratch.putList p.sp p.store }).received a p bar) c a p
  | .tload t bar _ =>
    let tile := SMap.putList (w.tiles.get t) (16 * p.unit + 8 * p.half) bs
    s.partDone k (({ w with tiles := w.tiles.put t tile }).received a p bar) c a p
  | .kvstep _ d => update w (c.setS d (BitVec.ofNat 32 (x + 1)))
  | .cbload b code got =>
    s.put k w (c.putAccess { a.without p with kind := .cbload b code (SMap.putList got (p.size * p.unit) bs) })
  | .fetch _ | .kvld .. => s

/-- A part is held, walks again before it is performed, and the scheduler is told (R335); parts of one access share the walk of a page, and its report (R326). -/
def State.holdPart (s : State) (k : CrewKey) (a : Access) (p : Part) (code : FaultCode) (va : Nat) : State :=
  match s.find k with
  | none => s
  | some (w, c) =>
    let a' := { a with
      entry := a.entry || (decide (a.stream = .lane) && a.kind.logged),
      parts := a.parts.map (fun q => if q = p then { q with held := some ⟨code, va⟩, pa := none, logged := a.kind.logged } else q) }
    let t := s.put k w { c with flying := c.flying.map (fun b => if b.id == a.id then a' else b) }
    if a.parts.any (fun q => match q.held with | some h => h.code == code && h.addr / 65536 == va / 65536 | none => false) then t
    else t.report (s.reportOf w c a.side code (BitVec.ofNat 64 va) a.stream true a.pc)

/-- Rows of a TSTORE that coincide are written in ascending order (R158): no part before this one shares a byte with it. -/
def Access.inOrder (a : Access) (p : Part) : Bool :=
  match a.kind with
  | .tstore .. => (a.parts.takeWhile (fun q => q != p)).all (fun q => !(a.feet p).any (fun f => (a.feet q).any f.clash))
  | _ => true

/-- One part of an access is performed, or held, if it may be; the last piece of a codebook is left to CBLOAD_COMPLETES. -/
def State.landOne (s : State) (k : CrewKey) (id n : Nat) : State :=
  match s.find k with
  | none => s
  | some (w, c) =>
    match c.access id with
    | none => s
    | some a =>
      match a.parts.find? (fun p => p.unit + 256 * p.half == n) with
      | none => s
      | some p =>
        let last := match a.kind with | .cbload .. => a.parts.length == 1 | _ => false
        if p.held.isSome || !a.mayPerform (c.before id) p || !a.inOrder p || (a.kind.squashes && s.quiesced w) || last
            || (a.replay && w.replaysBefore k.slot) then s
        else match s.spot w a p with
          | .wait => s
          | .held code => s.holdPart k a p code p.addr
          | .at pa =>
          let t := s.landPart k w c a p pa
          if a.kind.receives then t.raiseWaits k.wid else t

/-- Parts of an access of one of some kinds are performed in turn: part n is unit n % 256, its upper half from 256 on. -/
def landUnits (s : State) (k : CrewKey) (id : Nat) (units : List Nat) (kinds : AccessKind → Bool) : Result :=
  match s.find k with
  | some (_, c) =>
    match c.access id with
    | some a => if kinds a.kind then .next (units.foldl (fun (s : State) n => s.landOne k id n) s) else .next s
    | none => .next s
  | none => .next s

/-- Results on their way under a number land (R46, R48). -/
def State.landPending (s : State) (k : CrewKey) (id : Nat) : State :=
  match s.find k with
  | some (w, c) =>
    match c.pending.filter (fun q => q.tag == id) with
    | [] => s
    | qs => s.put k w (qs.foldl Crew.keep c)
  | none => s

/-- LOAD_LANDS: loads, atomics with a result, the pieces of a codebook, and results on their way (R46, R48, R161). -/
def execLoadLands (k : CrewKey) (id : Nat) (units : List Nat) (s : State) : Result :=
  landUnits (s.landPending k id) k id units (fun kd => match kd with
    | .load _ | .atom .. | .sload .. | .ldk _ | .cbload .. => true
    | .satom d _ _ => d != 0
    | _ => false)

/-- The part has a translation and can be reached. -/
def State.placed (s : State) (w : Workgroup) (a : Access) (p : Part) : Bool := match s.spot w a p with | .at _ => true | _ => false

/-- The parts of one unit of a KVAPP are performed together: a row and its tag, or LEN after every row (R119, R239). One of them that is
held, or that cannot be reached any more, holds the others back. -/
def State.landRow (s : State) (k : CrewKey) (id n : Nat) : State :=
  match s.find k with
  | none => s
  | some (w, c) =>
    match c.access id with
    | none => s
    | some a =>
      let ps := a.parts.filter (fun p => p.unit == n)
      let early := match a.kind with | .kvapp _ rows => n == rows && a.parts.any (fun p => p.unit != rows) | _ => false
      if early || ps.any (fun p => p.held.isSome || !a.mayPerform (c.before id) p) then s
      else match ps.find? (fun p => !s.placed w a p) with
        | some p => match s.spot w a p with
          | .held code => s.holdPart k a p code p.addr
          | _ => s
        | none => ps.foldl (fun (s : State) p =>
          match s.find k with
          | some (w', c') =>
            match c'.access id, s.spot w' a p with
            | some a', .at pa => s.landPart k w' c' a' p pa
            | _, _ => s
          | none => s) s

/-- STORE_PERFORMED: stores, atomics without a result and the writes of the key-value group (R50). -/
def execStorePerformed (k : CrewKey) (id : Nat) (units : List Nat) (s : State) : Result :=
  match s.find k with
  | some (_, c) =>
    match c.access id with
    | some a =>
      match a.kind with
      | .kvapp .. => .next (units.foldl (fun (s : State) n => s.landRow k id n) s)
      | _ => landUnits s k id units (fun kd => match kd with
          | .store | .kvtrunc _ | .kvstep .. => true
          | .satom d _ _ => d == 0
          | _ => false)
    | none => .next s
  | none => .next s

/-- COPY_LANDS (R91 to R93). -/
def execCopyLands (k : CrewKey) (id : Nat) (lanes : List Nat) (s : State) : Result :=
  landUnits s k id lanes AccessKind.isCopy

/-- TLOAD_PIECE_LANDS (R94, R157). -/
def execTloadPieceLands (k : CrewKey) (id : Nat) (units : List Nat) (s : State) : Result :=
  landUnits s k id units (fun kd => match kd with | .tload .. => true | _ => false)

/-- TSTORE_PERFORMED (R94, R158). -/
def execTstorePerformed (k : CrewKey) (id : Nat) (units : List Nat) (s : State) : Result :=
  landUnits s k id units (fun kd => match kd with | .tstore .. => true | _ => false)

/-! FETCH (R225, R226). -/

/-- A lane of a FETCH waits for the walk of an address that it is to read: its part stands there as other parts do that walk
(R326). -/
def Part.awaitsWalk (p : Part) (va : Nat) : Part := { p with addr := va, size := 1, bytes := 1, pa := none }

/-- A read of a part in flight: what it gives is made use of, a missing translation is walked for, one that fails holds the access (R335),
and an address with a bit above 51 set traps XLAT (R81). -/
def State.kvHold (s : State) (k : CrewKey) (w : Workgroup) (c : Crew) (a : Access) (p : Part) {α : Type} (r : KvRead α)
    (got : α → State) : State :=
  match r with
  | .got x => got x
  | .far va => if c.status = .live then s.raise k a.side .xlat (BitVec.ofNat 64 va) a.stream true a.pc else s
  | .fail code va => s.holdPart k a p code va
  | .miss _ va => s.put k w (c.putAccess { a with parts := a.parts.map (fun q => if q = p then q.awaitsWalk va else q) })
  | .wait => s

/-- What a part of a FETCH in flight is still to read: what its addresses depend on, or, with that, its value. -/
inductive FetchStep where
  | key (k : FetchKey)
  | out (o : FetchOut)

def State.fetchStep (s : State) (w : Workgroup) (c : Crew) (m : BufRec) (slot : BitVec 5) (may : MayRead) (p : Part) : KvRead FetchStep :=
  let x := (fld p.data 0 64).toInt
  let y := (fld p.cmp 0 32).toInt
  match p.key with
  | none => (s.fetchKey w may m slot x y (c.cursors.get p.unit)).bind fun k =>
      match (m.fetchForm x y k.key).far m with
      | some va => .far va
      | none => .got (.key k)
  | some key => (s.fetchOut w may m (m.fetchForm x y key)).bind fun o => .got (.out o)

/-- The lane does not know its addresses yet, and is not held. -/
def Part.unread (p : Part) : Bool := p.key.isNone && p.held.isNone

/-- One lane of a FETCH reads what its addresses depend on, or lands: its three registers. It reads what it needs in one step, once all of
that is translated (log entry 39). No lane lands while another that is not held has yet to know its addresses, so that an address with
a bit above 51 set traps XLAT with no effect in any lane, but where a walk has been held and others were performed (R81, R336; DEDUCED,
log entry 86). A CSR lane loads its cursor when it reads its row pointers (DESIGN CHOICE, log entry 131). -/
def State.fetchOne (s : State) (k : CrewKey) (id n : Nat) : State :=
  match s.find k with
  | none => s
  | some (w, c) =>
    match c.access id with
    | none => s
    | some a =>
      match a.kind, a.parts.find? (fun p => p.unit == n) with
      | .fetch slot, some p =>
        if p.held.isSome || (c.before id).any (fun b => !b.done && a.waitsFor b p) then s
        else
          s.kvHold k w c a p (s.fetchStep w c ((s.gridOf w).buf slot.toNat) slot (a.mayRead (c.before id)) p) fun o =>
            match o with
            | .key q =>
              (s.touchAt w a.alloc q.reads).put k w ((c.loadCursors [(n, some q)]).putAccess
                { a with parts := a.parts.map (fun r => if r = p then { r with key := some q.key } else r) })
            | .out o =>
              if a.parts.any Part.unread then s
              else
                (s.touchAt w a.alloc o.reads).partDone k w
                  (((c.landV p.dst n id o.value).landV (p.dst + 1) n id o.column).landV (p.dst + 2) n id o.status) a p
      | _, _ => s

/-- FETCH_LANDS (R225, R226). -/
def execFetchLands (k : CrewKey) (id : Nat) (lanes : List Nat) (s : State) : Result :=
  .next (lanes.foldl (fun (s : State) n => s.fetchOne k id n) s)

/-! KVLD and CBLOAD. -/

/-- KVLD_LANDS: the tile and the pair are written (R238). -/
def execKvldLands (k : CrewKey) (id : Nat) (s : State) : Result :=
  match s.find k with
  | none => .next s
  | some (w, c) =>
    match c.access id with
    | none => .next s
    | some a =>
      match a.kind, a.parts with
      | .kvld d tile rows status, p :: _ =>
        .next (s.partDone k { w with tiles := w.tiles.put tile rows } (c.landPair d id true status) a p)
      | _, _ => .next s

/-- CBLOAD_COMPLETES (R92, R161): what it has not read is read, every entry enters the store, and the scalar stream passes on. -/
def execCbloadCompletes (k : CrewKey) (id : Nat) (s : State) : Result :=
  match s.find k with
  | none => .next s
  | some (w, c) =>
    match c.access id with
    | none => .next s
    | some a =>
      match a.kind with
      | .cbload book code got =>
        let held := a.parts.find? (fun p => match s.spot w a p with | .held _ => true | _ => false)
        let wait := a.parts.any (fun p => p.held.isSome || !a.mayPerform (c.before id) p
          || match s.spot w a p with | .wait => true | _ => false)
        if wait then .next s
        else match held with
          | some p => .next (match s.spot w a p with | .held code => s.holdPart k a p code p.addr | _ => s)
          | none =>
            let r := a.parts.foldl (fun (r : State × Cells 8) p => match s.spot w a p with
              | .at pa => (r.1.touchPart w a p pa, SMap.putList r.2 (p.size * p.unit) (s.readBytes w.ctx pa p.size))
              | _ => r) (s, got)
            .next ((r.1.mark w [⟨5, book⟩]).put k { w with books := w.books.insert book ⟨code, r.2⟩ } (c.putAccess { a with parts := [] } |>.advance 4))
      | _ => .next s

/-! Walks. -/

/-- A part uses the translation that its walk found (R327). -/
def State.translated (s : State) (k : CrewKey) (id : Nat) (p : Part) (pa : Nat) : State :=
  match s.find k with
  | none => s
  | some (w, c) =>
    s.put k w { c with flying := c.flying.map (fun a =>
      if a.id == id then { a with parts := a.parts.map (fun q => if q = p then { q with pa := some pa } else q) } else a) }

/-- One part walks; the access is read afresh because an earlier walk may have held a part. -/
def State.walkPart (s : State) (k : CrewKey) (id : Nat) (p : Part) : State :=
  match s.find k with
  | none => s
  | some (w, c) =>
    match c.access id with
    | none => s
    | some a =>
      if s.walks w a p then
        match s.walkShared (some (k, id)) w.die w.ctx a.kind.need p.addr with
        | (t, .fail code) => t.holdPart k a p code p.addr
        | (s, .ok pa) => s.translated k id p pa
        | (s, _) => s
      else s

/-- WALK_COMPLETE (R325, R326, R335): the walks of an access end, one that fails also for the accesses that share it; a walk that meets a
page being moved goes on waiting (R331). -/
def execWalkComplete (k : CrewKey) (id : Nat) (s : State) : Result :=
  match s.find k with
  | none => .next s
  | some (_, c) =>
    match c.access id with
    | none => .next s
    | some a => .next (a.parts.foldl (fun (s : State) p => s.walkPart k id p) s)

/-- REPLAY (R335): the held access, or the stream held under the number, walks again. -/
def execReplay (k : CrewKey) (id : Nat) (s : State) : Result :=
  match s.find k with
  | none => .next s
  | some (w, c) =>
    .next (s.put k w { c with
      fetchHeld := c.fetchHeld.filter (fun h => h.id != id)
      flying := c.flying.map (fun a =>
        if a.id == id then { a with parts := a.parts.map (fun p => { p with held := none }) } else a) })

/-- DECLINE (R335, R337): the held access, or the stream held under the number, raises its code; a CBLOAD then leaves its codebook
without entries (R161). -/
def execDecline (k : CrewKey) (id : Nat) (s : State) : Result :=
  match s.find k with
  | none => .next s
  | some (w, c) =>
    match c.fetchHeld.find? (fun h => h.id == id), c.access id with
    | some h, _ =>
      if h.joint then
        .next (s.raiseAll k.wid w (w.participants c.role) h.held.code (BitVec.ofNat 64 h.held.addr) true)
      else .next (s.raise k (c.sideOf h.stream) h.held.code (BitVec.ofNat 64 h.held.addr) h.stream true (c.at h.stream))
    | none, none => .next s
    | none, some a =>
      match a.parts.findSome? (fun p => p.held) with
      | none => .next s
      | some h =>
        let s := match a.kind with
          | .cbload book .. => s.put k { w with books := w.books.erase book } (c.putAccess { a with parts := [] })
          | _ => s
        .next (s.raise k a.side h.code (BitVec.ofNat 64 h.addr) a.stream true a.pc)

/-! Runs. -/

/-- An access that writes lane registers. -/
def AccessKind.fillsLanes : AccessKind → Bool
  | .load _ | .atom .. | .fetch _ => true
  | _ => false

/-- The destination of a run becomes full: with the value the run last wrote, else the one it held (R147). -/
def Crew.fill (c : Crew) (r : Run) (results : Cells 33) (d : Nat) : Crew :=
  if c.sTag.find? d = some r.tag then
    let v := results.get d
    let c := { c with sTag := c.sTag.erase d }
    if flag v 32 then c.setS (BitVec.ofNat 6 d) (fld v 0 32) else c
  else c

/-- RUN_COMPLETE (R19, R147): every instruction has issued, every register write has landed, and the crew's MMA is
committed. -/
def execRunComplete (k : CrewKey) (s : State) : Result :=
  match s.find k with
  | none => .next s
  | some (w, c) =>
    match c.queue, c.prog with
    | r :: rest, some p =>
      if p.ended && c.mma.isNone && c.flying.all (fun a => a.done || !a.kind.fillsLanes)
          && c.pending.all (fun q => q.lanes.isEmpty) then
        .next (s.put k w { (r.dests.foldl (fun (c : Crew) d => c.fill r p.results d) c) with queue := rest, prog := none })
      else .next s
    | _, _ => .next s

end Sys2Proof.Machine
end

