-- ==== Sys2Proof/Machine/Translate.lean ====
section
/-! DEFINITION. Shootdowns, page moves and pins (21 R327 to R331), and accesses of the host and of peers (18 R293, R296). -/

namespace Sys2Proof.Machine

/-! Accesses that used a translation. -/

/-- An access in flight has a part translated into a range of physical addresses. -/
def Access.usesFrame (a : Access) (base size : Nat) : Bool :=
  a.parts.any (fun p => match p.pa with | some x => decide (base ≤ x ∧ x < base + size) | none => false)

/-- An access in flight of context ctx has a translated part at a range of virtual addresses. -/
def Access.usesPage (a : Access) (va size : Nat) : Bool :=
  a.parts.any (fun p => p.pa.isSome && decide (va ≤ p.addr ∧ p.addr < va + size))

/-- The accesses in flight that meet a condition on their workgroup and themselves: crew and access number. -/
def State.flyingWhere (s : State) (p : Workgroup → Access → Bool) : List (CrewKey × Nat) :=
  s.wgs.flatMap (fun e => e.2.crews.flatMap (fun x =>
    (x.2.flying.filter (p e.2)).map (fun a => ((⟨e.1, x.1⟩ : CrewKey), a.id))))

/-! Shootdown (R327). -/

/-- Bytes of a shootdown's range. -/
def shootSize (code : Nat) : Nat :=
  match code with | 0 => 65536 | 1 => 2097152 | 2 => 1073741824 | _ => 2 ^ 52

/-- Two ranges share an address. -/
def overlap (a n b m : Nat) : Bool := decide (a < b + m ∧ b < a + n)

/-- The cached translations of a range of a context, leaves and table entries, are discarded in every die. -/
def State.dropCached (s : State) (c va size : Nat) : State :=
  { s with
    tlb := s.tlb.filter (fun e => !(e.ctx == c && overlap e.leaf.va e.leaf.size va size)),
    tables := s.tables.filter (fun t => !(t.ctx == c && overlap t.va t.size va size)) }

/-- SHOOTDOWN begins: the range's cached translations are discarded. -/
def execShootdown (io : Nat) (cmd : BitVec 128) (s : State) : Result :=
  let c := nfld cmd 32 8
  let size := shootSize (nfld cmd 0 2)
  let va := if nfld cmd 0 2 = 3 then 0 else nfld cmd 64 52
  let t := s.dropCached c va size
  .next { t with shootdowns := t.shootdowns ++ [{ io := io, ctx := c, va := va, size := size }] }

/-- The value that the shootdown command register of an I/O die reads as (R327). -/
def State.shootReg (s : State) (io : Nat) : Nat := if s.shootdowns.any (fun d => d.io == io) then 0 else 1

/-- SHOOTDOWN_ACKNOWLEDGE: the oldest shootdown of the I/O die ends once no access in flight has used a translation of its range;
what was cached again meanwhile is discarded, so that a later access walks again. -/
def execShootdownAcknowledge (io : Nat) (s : State) : Result :=
  match s.shootdowns.find? (fun d => d.io == io) with
  | none => .next s
  | some d =>
    if (s.flyingWhere (fun w a => w.ctx == d.ctx && a.usesPage d.va d.size)).isEmpty then
      .next ({ s with shootdowns := s.shootdowns.erase d }.dropCached d.ctx d.va d.size)
    else .next s

/-! The eviction engine (R330, R331). -/

/-- The 8 bytes at a physical address, as the engines and the scheduler read them. -/
def State.leafAt (s : State) (a : Nat) : BitVec 64 := BitVec.ofNat 64 (s.fwNat a 8)

def State.putLeafAt (s : State) (a : Nat) (e : BitVec 64) : State := s.fwWrite a (leBytes 8 e.toNat)

def moveLeaf (cmd : BitVec 256) : Nat := nfld cmd 0 64
def moveDst (cmd : BitVec 256) : Nat := nfld cmd 64 64
def moveDone (cmd : BitVec 256) : Nat := nfld cmd 128 64

/-- A leaf's frame and page size, if it is valid and well formed at the level its PSIZE gives (R324, R325). -/
def leafPage (e : BitVec 64) : Option (Nat × Nat) :=
  let shift := match nfld e 2 2 with | 0 => 16 | 1 => 21 | _ => 30
  (leafFrame e (3 - nfld e 2 2) shift).map (fun f => (f, 2 ^ shift))

/-- The worlds of all lines of two pages agree, one by one at the 64 KiB of region bounds (R292). -/
def State.sameWorlds (s : State) (a b size : Nat) : Bool :=
  (List.range (size / 65536)).all (fun i => s.secureAt (a + 65536 * i) == s.secureAt (b + 65536 * i))

/-- Every byte of a page can be reached (R364); the share of a CXL port is a whole number of pages, but for the last. -/
def State.pageReachable (s : State) (base size : Nat) : Bool := s.reachable base && s.reachable (base + size - 1)

/-- DST fails its checks (R330). -/
def State.badDst (s : State) (frame size dst : Nat) : Bool :=
  dst % size != 0 || !(s.isLocal dst && s.isLocal (dst + size - 1)) || !s.pageReachable dst size || (s.isHbm dst && s.isHbm frame)
    || (s.isCxl dst && s.isCxl frame) || !s.sameWorlds frame dst size

/-- Line i of a page copied: the line of the old frame leaves the die cache, and what memory then holds of it is enciphered under the
same key for its new address (R294, R331). -/
def State.copyLine (frame dst : Nat) (s : State) (i : Nat) : State :=
  let a := frame + 256 * i
  let b := dst + 256 * i
  let t := s.evict (a / 256)
  let slot := if t.isLocal a then t.sealed.find? (a / 256) else some (Config.movedSlot s.tick)
  let key := t.keys.get (slot.getD 511)
  let bytes := SMap.putList ([] : Cells 8) 0 ((List.range 256).map (fun j => if t.isLocal a then t.mem.clear key (a + j) else t.mem.read (a + j)))
  { t with mem := t.mem.sealLine key b bytes, sealed := match slot with | some n => t.sealed.insert (b / 256) n | none => t.sealed.erase (b / 256),
            lines := t.lines.erase (b / 256) }

/-- A page copied, line by line. -/
def State.copyPage (s : State) (frame dst size : Nat) : State := (List.range (size / 256)).foldl (State.copyLine frame dst) s

/-- A move ends: the status word, nothing of it is left, and the Kazlet's writes that waited for it are made (R331). -/
def State.moveDone (s : State) (m : Move) (code : Nat) : State :=
  let t : State := { s.fwWrite (Machine.moveDone m.cmd) (leBytes 8 code) with moves := s.moves.erase m }
  State.settleAll t.owed t

/-- The 8 bytes of a leaf can be reached (R364). -/
def State.leafReachable (s : State) (a : Nat) : Bool := s.reachable a && s.reachable (a + 7)

/-- A move begins: the engine loads the leaf and checks it and DST, or the command ends at once (R331). A leaf or a frame that cannot
be reached counts as none (DESIGN CHOICE, log entry 60). -/
def State.beginMove (s : State) (io : Nat) (cmd : BitVec 256) : State :=
  let e0 := s.leafAt (moveLeaf cmd)
  let m : Move := { io := io, cmd := cmd, e0 := e0, marked := false }
  match if s.leafReachable (moveLeaf cmd) then leafPage e0 else none with
  | none => s.moveDone m 3
  | some (frame, size) =>
    if !s.pageReachable frame size then s.moveDone m 3
    else if nfld e0 57 7 != 0 then s.moveDone m 1
    else if s.badDst frame size (moveDst cmd) then s.moveDone m 4
    else { s with moves := s.moves ++ [m] }

/-- E1: the leaf as the engine marks it. -/
def Move.e1 (m : Move) : BitVec 64 := setFld (setFld m.e0 55 1 1) 56 1 0

/-- The leaf is marked by a compare-and-swap, and the shootdown of the page begins; a leaf that has changed loses the move, and DST is
not touched (R331). -/
def State.markMove (s : State) (m : Move) : State :=
  match leafPage m.e0 with
  | none => s
  | some (frame, size) =>
    if !s.leafReachable (moveLeaf m.cmd) then s.moveDone m 3
    else if s.leafAt (moveLeaf m.cmd) = m.e0 then
      let t := s.putLeafAt (moveLeaf m.cmd) m.e1
      { t with
        tlb := t.tlb.filter (fun e => !overlap e.leaf.pa e.leaf.size frame size)
        moves := t.moves.map (fun x => if x = m then { m with marked := true } else x) }
    else s.moveDone m 2

/-- Once no access in flight uses the old frame, the page is copied and the move commits, or loses to a change of the leaf (R331); one whose
frame or DST cannot be reached any more ends as at its beginning (DESIGN CHOICE, log entry 60). -/
def State.finishMove (s : State) (m : Move) : State :=
  match leafPage m.e0 with
  | none => s
  | some (frame, size) =>
    let at_ := moveLeaf m.cmd
    if !(s.flyingWhere (fun _ a => a.usesFrame frame size)).isEmpty then s
    else if !(s.pageReachable frame size && s.pageReachable (moveDst m.cmd) size) then
      (s.putLeafAt at_ (setFld (s.leafAt at_) 55 1 0)).moveDone m (if s.pageReachable frame size then 4 else 3)
    else
      let t := s.copyPage frame (moveDst m.cmd) size
      let e := t.leafAt at_
      if e = m.e1 then (t.putLeafAt at_ (setFld (setFld e 16 36 (moveDst m.cmd / 65536)) 55 1 0)).moveDone m 0
      else (t.putLeafAt at_ (setFld e 55 1 0)).moveDone m 2

/-- MOVE_COMMAND: the command begins; when it comes again, the leaf is marked; and again, and the move ends. A PIN and accesses may
fall between (R329). An engine performs at most 64 moves at once (R330). -/
def execMoveCommand (io : Nat) (cmd : BitVec 256) (s : State) : Result :=
  match s.moves.find? (fun m => m.io == io && m.cmd == cmd) with
  | none => if (s.moves.filter (fun m => m.io == io)).length < 64 then .next (s.beginMove io cmd) else .next s
  | some m => .next (if m.marked then s.finishMove m else s.markMove m)

/-- PIN: the scheduler pins a leaf or unpins it; a pin at 127 is refused (R329). -/
def execPin (pteAddr : Nat) (take : Bool) (s : State) : Result :=
  let e := s.leafAt pteAddr
  let n := nfld e 57 7
  if !s.leafReachable pteAddr then .next (s.send (.pinRefused pteAddr))
  else if take then
    if n = 127 then .next (s.send (.pinRefused pteAddr))
    else .next (s.putLeafAt pteAddr (setFld (setFld e 57 7 (n + 1)) 56 1 1))
  else .next (s.putLeafAt pteAddr (setFld e 57 7 (n + 127)))

/-! Accesses from outside (R293, R296). -/

/-- Bytes that a request touches. -/
def opBytes : BusOp → Nat
  | .read n => n
  | .write bs => bs.length
  | .atomic _ wide _ _ => if wide then 8 else 4

/-- Bytes a, a + 1, ... as the owner that `own` gives for each reads and writes them. -/
def State.readOwned (s : State) (own : Nat → Owner) (a n : Nat) : List Byte := (List.range n).map (fun i => s.readAs (own (a + i)) (a + i))

def State.writeOwned (s : State) (own : Nat → Owner) (a : Nat) : List Byte → State
  | [] => s
  | b :: bs => State.writeOwned (s.writeAs (own a) true a b) own (a + 1) bs

/-- A request performed in the name of the owners that `own` gives, with the bytes it answers: those read, or an atomic's old
value. -/
def State.perform (s : State) (own : Nat → Owner) (pa : Nat) (op : BusOp) : State × List Byte :=
  match op with
  | .read n => (s, s.readOwned own pa n)
  | .write bs => (s.writeOwned own pa bs, [])
  | .atomic op wide b cmp =>
    let n := if wide then 8 else 4
    let old := s.readOwned own pa n
    let new := atomNew op wide (BitVec.ofNat 64 (leNat old)) b cmp
    (s.writeOwned own pa (leBytes n new.toNat), old)

/-- Every byte of a request lies in reachable local memory of the non-secure world. -/
def State.openTo (s : State) (pa n : Nat) : Bool :=
  (List.range n).all (fun i => s.isLocal (pa + i) && s.reachable (pa + i) && !s.secureAt (pa + i))

/-- What a read of a queue's doorbell page gives (R300). -/
def Queue.doorbell (q : Queue) (offset : Nat) : DWord :=
  match offset with
  | 0 => q.tail
  | 8 => q.read
  | 16 => match q.state with | .disabled => 0 | .active => 1 | .overrun => 2 | .badpkt => 3
  | _ => 0

/-- In whose name the host acts: that of the owner of the line, or of the context named where the line has none (DEDUCED, log
entry 19). -/
def State.hostOwner (s : State) (ctx : Option Nat) : Nat → Owner :=
  s.ownerAt (match ctx with | some c => .ctx c | none => .firmware)

/-- HOST_ACCESS: an access over PCIe to device memory is performed, or completed with Unsupported Request (R293); the host reads a
doorbell page (R300; one wider than 8 bytes gives the field and then zeros, and an atomic there does nothing and is not answered, DESIGN
CHOICE, log entry 118), a mailbox (R364; what Sett makes of a write there are events of their own) or configuration space (R362). A link
that is down brings none (R364). The host's own memory it accesses without the package. -/
def execHostAccess (target : HostTarget) (op : BusOp) (s : State) : Result :=
  let unsupported := Host.Outcome.next (s.send (.host none))
  match target with
  | .memory pa ctx =>
    let n := opBytes op
    if isHost pa && isHost (pa + n - 1) then
      let r := s.perform (s.hostOwner ctx) pa op
      .next (r.1.send (.host (some r.2)))
    else if s.downLinks.contains 0 then .next s
    else if s.openTo pa n then
      let r := s.perform (s.hostOwner ctx) pa op
      .next (r.1.send (.host (some r.2)))
    else unsupported
  | .doorbell queue offset =>
    if s.downLinks.contains 0 then .next s
    else match op with
      | .read n => .next (s.send (.host (some (leBytes n ((s.queues.get queue).doorbell offset).toNat))))
      | _ => .next s
  | .mailbox offset =>
    if s.downLinks.contains 0 then .next s
    else match op with
      | .read n => .next (s.send (.host (some ((List.range n).map (fun i => Config.mailboxByte s.tick (offset + i))))))
      | _ => .next s
  | .config offset =>
    if s.downLinks.contains 0 then .next s
    else match op with
      | .read n => .next (s.send (.host (some ((List.range n).map (fun i => Config.configByte s.tick (offset + i))))))
      | _ => unsupported

/-- Fields of an aperture entry (R296). -/
def apLctx (e : BitVec 256) : Nat := nfld e 248 8
def apLbase (e : BitVec 256) : Nat := nfld e 192 52
def apWsize (e : BitVec 256) : Nat := nfld e 128 39
def apWbase (e : BitVec 256) : Nat := nfld e 64 39

/-- The entry that a peer's request takes: the valid one of lowest index that matches. -/
def State.aperture (s : State) (pkg ctx addr : Nat) : Option (BitVec 256) :=
  s.apertures.values.find? (fun e => flag e 63 && nfld e 32 12 == pkg && nfld e 24 8 == ctx
    && decide (apWbase e ≤ addr ∧ addr < apWbase e + apWsize e))

/-- The entry allows the request. -/
def apAllows (e : BitVec 256) (op : BusOp) : Bool :=
  match op with
  | .read _ => flag e 62
  | .write _ => flag e 61
  | .atomic .. => flag e 62 && flag e 61

/-- PEER_ACCESS: performed as an access of the entry's local context, or refused with an error flit (R293, R296). -/
def execPeerAccess (srcPkg srcCtx addr : Nat) (op : BusOp) (s : State) : Result :=
  let refuse := Host.Outcome.next (s.send (.peer srcPkg none))
  if s.downLinks.contains 5 then .next s
  else match s.aperture srcPkg srcCtx addr with
    | none => refuse
    | some e =>
      let c := s.ctx (apLctx e)
      let pa := apLbase e + (addr - apWbase e)
      if apAllows e op && c.valid && !c.secure && s.openTo pa (opBytes op) then
        let r := s.perform (fun _ => .ctx (apLctx e)) pa op
        .next (r.1.send (.peer srcPkg (some r.2)))
      else refuse

end Sys2Proof.Machine
end

