-- ==== Sys2Proof/Machine/Contexts.lean ====
section
/-! DEFINITION. Contexts, worlds, regions, keys, plug-ins and partitions (18 R288 to R297; 24 R361; 22 R332 to R334). -/

namespace Sys2Proof.Machine

/-! The context table (R288, R289). -/

/-- The context a descriptor describes, in a partition and of a tenant, nothing of Burrow or its device queue in use. -/
def contextOf (d : BitVec 512) (part tenant : Nat) : Context where
  valid := true
  secure := flag d 62
  debug := flag d 61
  arenaSz := fld d 32 8
  keySlot := fld d 0 9
  ptroot := fld d 64 64
  arena := fld d 128 64
  devq := fld d 192 64
  devReported := false
  hbase := fld d 256 16
  hcount := fld d 272 16
  sweeping := false
  devOff := false
  devBare := false
  devTake := 0
  devPut := 0
  devSlots := []
  devSince := 0
  seqs := []
  leaves := []
  part := part
  tenant := tenant

/-- Two grants of handles share one. -/
def Context.grantsMeet (x y : Context) : Bool := overlap x.hbase.toNat x.hcount.toNat y.hbase.toNat y.hcount.toNat

/-- Some byte of the arena lies in a region of another world (R289); region bounds are multiples of 64 KiB (R292). -/
def State.arenaMixed (s : State) (x : Context) : Bool :=
  (List.range (x.arenaSz.toNat * 1024)).any (fun i => s.secureAt (x.arena.toNat + 65536 * i) != x.secure)

/-- The valid contexts but one. -/
def State.otherValid (s : State) (ctx : Nat) : List Context := (s.ctxs.filter (fun e => e.1 != ctx && e.2.valid)).map (·.2)

/-- The cause with which the monitor answers an activation (R289); 0 is OK. Where several conditions fail it is the lowest code (DESIGN
CHOICE, log entry 110). -/
def State.activationCause (s : State) (ctx : Nat) (d : BitVec 512) : Nat :=
  let x := contextOf d 0 0
  let old := s.ctx ctx
  if old.valid || old.sweeping then 1
  else if nfld d 40 21 != 0 || nfld d 9 23 != 0 || nfld d 288 224 != 0 || x.ptroot.toNat % 4096 != 0
      || x.arena.toNat % 67108864 != 0 then 2
  else if decide (65536 < x.hbase.toNat + x.hcount.toNat)
      || (x.hcount != 0 && (s.otherValid ctx).any (fun y => y.hcount != 0 && x.grantsMeet y)) then 3
  else if x.keySlot.toNat == 511 || (s.keys.find? x.keySlot.toNat).isNone
      || (s.otherValid ctx).any (fun y => y.keySlot == x.keySlot) then 4
  else if s.arenaMixed x then 5
  else 0

/-- CONTEXT_ACTIVATE, in a partition that the scheduler holds and for a tenant (R289, R297, R361). -/
def execContextActivate (ctx part tenant : Nat) (desc : BitVec 512) (s : State) : Result :=
  if 256 ≤ ctx then .next s
  else
    let cause := s.activationCause ctx desc
    let s := s.send (.activation ctx cause)
    if cause = 0 then .next { s with ctxs := s.ctxs.insert ctx (contextOf desc part tenant) } else .next s

/-- CONTEXT_CHANGE: of a valid descriptor the monitor changes DEBUG and DEVQ (R289). -/
def execContextChange (ctx : Nat) (debug : Bool) (devq : DWord) (s : State) : Result :=
  if (s.ctx ctx).valid then .next { s with ctxs := s.ctxs.modify ctx (fun x => { x with debug := debug, devq := devq }) }
  else .next s

/-- Every workgroup of the context has retired, been ended, or stands in a save area (R291, R366). -/
def State.releasable (s : State) (ctx : Nat) : Bool :=
  (s.ctx ctx).valid && !s.wgs.values.any (fun w => w.ctx == ctx)
    && s.grids.values.all (fun g => g.ctx != ctx || (decide (g.copy.total ≤ g.counter) && g.drawn.isEmpty))

/-- CONTEXT_RELEASE: sequences close, save areas not restored are discarded with their grids, and the sweep begins
(R230, R291, R366). -/
def execContextRelease (ctx : Nat) (s : State) : Result :=
  if s.releasable ctx then
    let s := ((s.gridsOf ctx).foldl (fun (s : State) q => s.retireGrid q 2 0) s).resetLadders ctx
    .next { s with ctxs := s.ctxs.modify ctx (fun x => { x.closeAll with valid := false, sweeping := true }) }
  else .next s

/-- A line after the sweep of a context: zero with a cleared tag if it carried the CTXID (R291). -/
def Line.swept (ctx : Nat) (l : Line) : Line := if l.owner = some (.ctx ctx) then default else l

/-- A descriptor after its sweep: its device queue is zero too (R291, R357). -/
def Context.swept (x : Context) : Context := { x with sweeping := false, devTake := 0, devPut := 0, devSlots := [] }

/-- RELEASE_SWEEP_DONE: every line of every array that carries the CTXID has been cleared, the state of its queues among them (R357), once
the Kazlet owes no write of the context any more (R291). -/
def execReleaseSweepDone (ctx : Nat) (s : State) : Result :=
  if (s.ctx ctx).sweeping && s.owed.all (fun o => o.span.1 != ctx) then
    .next { s with
      lines := s.lines.mapVals (Line.swept ctx),
      tags := s.tags.keep (fun t => t.ctx != ctx),
      tlb := s.tlb.filter (fun e => e.ctx != ctx),
      tables := s.tables.filter (fun t => t.ctx != ctx),
      queues := s.queues.keep (fun q => q.ctx.toNat != ctx),
      ctxs := s.ctxs.modify ctx Context.swept }
  else .next s

/-- KILL: the scheduler ends a context (R332). -/
def execKill (ctx : Nat) (s : State) : Result := if (s.ctx ctx).valid then .next (s.endContext ctx .kill) else .next s

/-- The crew takes part in the fault of a population instruction that has halted another of its role (R23). -/
def Crew.haltedWith (c d : Crew) : Bool := decide (c.role = d.role ∧ c.status = .halted) && c.joint

/-- DEBUG_CREW_RESUME: a halted crew runs again (R334); those that a population instruction has halted run again together (R23). -/
def execDebugCrewResume (k : CrewKey) (s : State) : Result :=
  match s.find k with
  | some (w, c) =>
    if c.status ≠ .halted then .next s
    else if c.joint then
      .next (s.putWg k.wid { w with crews := SMap.mapVals w.crews (fun x => if x.haltedWith c then x.resume else x) })
    else .next (s.put k w c.resume)
  | none => .next s

/-! Worlds, regions and keys. -/

/-- A region table entry (R292). -/
def regionOf (e : BitVec 128) : Region where
  valid := flag e 63
  secure := flag e 62
  base := fld e 0 52
  limit := fld e 64 52

/-- The range of a region entry: its base and size, which is 0 where the entry is not in force (R292). -/
def Region.range (r : Region) : Nat × Nat := (r.base.toNat, if r.valid then r.limit.toNat + 1 - r.base.toNat else 0)

/-- A part of an access leads to a range: it was translated there, or it will be by a leaf that its die has cached or that the tables
hold. One whose walk has failed leads nowhere. -/
def State.leadsTo (s : State) (w : Workgroup) (a : Access) (range : Nat × Nat) (p : Part) : Bool :=
  let inside := fun (pa : Nat) => decide (range.1 ≤ pa ∧ pa < range.1 + range.2)
  let at_ := fun (l : Leafmap) => inside (l.pa + (p.addr - l.va))
  a.global p && p.held.isNone && match p.pa with
    | some pa => inside pa
    | none => match s.cached w.die w.ctx p.addr with
      | some l => at_ l
      | none => match s.walk w.ctx p.addr with
        | .leaf l | .moving l => at_ l
        | .invalid => false

/-- A move in progress has checked its frame and DST against the table: it reads or writes a range (R330, R331). -/
def State.movesIn (s : State) (range : Nat × Nat) : Bool :=
  range.2 != 0 && s.moves.any (fun m => match leafPage m.e0 with
    | some (frame, size) => overlap frame size range.1 range.2 || overlap (moveDst m.cmd) size range.1 range.2
    | none => false)

/-- Accesses are in flight to the range of a region entry: of crews, or of the eviction engine. -/
def State.flyingTo (s : State) (r : Region) : Bool :=
  !(s.flyingWhere (fun w a => a.parts.any (s.leadsTo w a r.range))).isEmpty || s.movesIn r.range

/-- REGION_TABLE_WRITE: the monitor holds admission until the accesses in flight to the old range, and to the new one, have been performed
or refused, and then writes the entry, so that none meets both entries (R293). It makes one change at a time (DESIGN CHOICE, log entry
112). -/
def execRegionTableWrite (index : Nat) (entry : BitVec 128) (s : State) : Result :=
  if 64 ≤ index ∨ s.regionHold.any (fun h => h != (index, entry)) then .next s
  else if s.flyingTo (s.regions.get index) || s.flyingTo (regionOf entry) then .next { s with regionHold := some (index, entry) }
  else .next { s with regions := s.regions.put index (regionOf entry), regionHold := none }

/-- KEY_SLOT_WRITE: a slot named by a valid descriptor cannot be rewritten (R294). -/
def execKeySlotWrite (index : Nat) (key : BitVec 512) (s : State) : Result :=
  if 512 ≤ index ∨ s.ctxs.values.any (fun x => x.valid && x.keySlot.toNat == index) then .next s
  else .next { s with keys := s.keys.insert index key }

/-- A core holds a workgroup, be it parked (R36, R292). -/
def State.occupied (s : State) (die core : Nat) : Bool := s.wgs.values.any (fun w => decide (w.die = die ∧ w.core = core))

/-- CORE_WORLD_CHANGE: only while the core holds no workgroup (R292). -/
def execCoreWorldChange (die core : Nat) (secure : Bool) (s : State) : Result :=
  if s.occupied die core || decide (Config.dies ≤ die ∨ Config.cores ≤ core) then .next s
  else
    let rest := s.secureCores.filter (fun k => k != coreKey die core)
    .next { s with secureCores := if secure then coreKey die core :: rest else rest }

/-! Plug-ins (R297). -/

/-- A plug-in stops: the defaults apply for its tenant, whose queues have the priority they declare. -/
def State.stopPlugin (s : State) (tenant : Nat) : State :=
  { s with
    stopped := if s.stopped.contains tenant then s.stopped else tenant :: s.stopped
    queues := s.queues.mapVals (fun q => if (s.ctx q.ctx.toNat).tenant = tenant then { q with policy := none } else q) }

/-- PLUGIN_TIME_LIMIT. -/
def execPluginTimeLimit (tenant : Nat) (s : State) : Result := .next (s.stopPlugin tenant)

/-- PLUGIN_WINDOW_VIOLATION: an access outside the plug-in's windows. -/
def execPluginWindowViolation (tenant addr : Nat) (s : State) : Result :=
  if [0, 1, 2, 3].any (fun i => match s.windows.find? (4 * tenant + i) with
      | some (base, size) => decide (base ≤ addr ∧ addr < base + size)
      | none => false) then .next s
  else .next (s.stopPlugin tenant)

/-- Steps 2 and 3 of bring-up: the key is the fused one, its signature of the image verifies, and the image's version is not below the
counter (R362). -/
def State.accepts (s : State) (x : FlashImage) : Bool :=
  Sha.hash x.key == s.keyHash && x.signature == Config.sealOf x.key x.digest && decide (s.rollback ≤ x.version)

/-- An image held since boot passes those steps again when it is reloaded (R362). -/
def State.reloads (s : State) (n : Nat) : Bool :=
  match s.images[n]? with
  | some x => s.accepts x
  | none => false

/-- PLUGIN_RESTART, after the monitor has reloaded the plug-in's image, the tenant's among those behind monitor and scheduler. -/
def execPluginRestart (tenant : Nat) (s : State) : Result :=
  .next (if s.reloads (2 + tenant) then { s with stopped := s.stopped.filter (fun t => t != tenant) } else s)

/-! Partitions (R361). -/

/-- Drawn indices of dies that hold no core of a partition any more pass to its lowest die; if it has none, they wait with no die, as
if with one beyond the last. -/
def handOver (dies : List Nat) (drawn : List (Nat × Nat)) : List (Nat × Nat) :=
  match dies with
  | [] => drawn.map (fun p => (Config.dies, p.2))
  | d :: _ => drawn.map (fun p => if dies.contains p.1 then p else (d, p.2))

/-- A workgroup of the partition stands on one of some cores. -/
def State.standsOn (s : State) (part : Nat) (cores : List (Nat × Nat)) : Bool :=
  s.wgs.values.any (fun w => decide ((s.ctx w.ctx).part = part) && cores.contains (w.die, w.core))

/-- The cores that a partition is given, each once: a set of cores of the package, without those that have been retired (R361). -/
def State.givenCores (s : State) (cores : List (Nat × Nat)) : List (Nat × Nat) :=
  (cores.filter (fun p => decide (p.1 < Config.dies ∧ p.2 < Config.cores) && !s.retired.contains (coreKey p.1 p.2))).eraseDups

/-- PARTITION_RESIZE (R361): cores that leave take no workgroup from now on; they stay in the partition while a workgroup of it stands on
one of them, and the event comes again once the ladder has taken those off. -/
def execPartitionResize (part : Nat) (cores : List (Nat × Nat)) (s : State) : Result :=
  let new := s.givenCores cores
  let leaving := (s.partitions.get part).cores.filter (fun p => !new.contains p)
  if s.standsOn part leaving then
    .next { s with partitions := s.partitions.insert part { cores := new ++ leaving, leaving := leaving } }
  else
    let t := { s with partitions := s.partitions.insert part { cores := new, leaving := [] } }
    .next { t with
      grids := t.grids.mapVals (fun g => if (t.ctx g.ctx).part = part then { g with drawn := handOver (t.diesOf g.ctx) g.drawn } else g) }

end Sys2Proof.Machine
end

