-- ==== Sys2Proof/Machine/Ladder.lean ====
section
/-! DEFINITION. The pre-emption ladder and the resume command (22 R339 to R344, R366). The reset rung
stands in Machine/Retire.lean, the return of a workgroup in Machine/Room.lean. -/

namespace Sys2Proof.Machine

/-! The ladder. -/

/-- The ladder of an I/O die and a pool. -/
def State.ladder (s : State) (io pool : Nat) : Option Ladder := s.ladders.find? (fun l => l.io == io && l.pool == pool)

/-- Changing a ladder. -/
def State.putLadder (s : State) (l l' : Ladder) : State := { s with ladders := s.ladders.map (fun x => if x = l then l' else x) }

/-- A ladder ends with SAVED: its pool waits for the resume command (R341, R366). -/
def State.saved (s : State) (l : Ladder) : State :=
  let t := s.ladderEnd l.pool 1 l.areas.length
  { t with
    ladders := t.ladders.erase l,
    pools := t.pools ++ [{ io := l.io, base := l.pool, ctx := l.ctx, resumed := false, areas := l.areas }] }

/-- A workgroup is flushed: discarded, and its index drawn again on its die (R341, R344). -/
def State.flush (s : State) (wid : Nat) (w : Workgroup) : State :=
  { s with
    wgs := s.wgs.erase wid,
    grids := s.grids.modify w.seq (fun g => { g with drawn := g.drawn ++ [(w.die, w.index)] }) }

/-- The save rung may flush the workgroup: it is replayable (R344) and not parked. A co-resident grid is saved
together (R343), and a halted crew by the save rung alone (R334). -/
def State.mayFlush (s : State) (w : Workgroup) : Bool :=
  w.idem && !w.parked && !(s.gridOf w).copy.coresident && w.crews.values.all (fun c => !decide (c.status = .halted))

/-- The save area of a workgroup that has stopped would extend beyond the pool (R339). -/
def Ladder.tooBig (l : Ladder) (n : Nat) : Bool :=
  l.poolSz != 0 && decide (l.pool + 4096 * l.poolSz.toNat < l.next + n)

/-! What a save waits for (R335, R336, R341). -/

/-- A part cannot be performed while the accesses of a list are not: it is held, or it comes after one of them; a lane of a FETCH comes after
one too if a lane that has yet to know its addresses does, and a row of a KVAPP with its tag, LEN with every row. -/
def State.stuckPart (s : State) (w : Workgroup) (c : Crew) (stuck : List Access) (a : Access) (p : Part) : Bool :=
  match a.kind with
  | .fetch slot =>
    let waits := fun (may : MayRead) (q : Part) => match s.fetchStep w c ((s.gridOf w).buf slot.toNat) slot may q with
      | .wait => true
      | _ => false
    let behind := fun (q : Part) => stuck.any (fun b => a.waitsFor b q) || (waits (a.mayRead stuck) q && !waits (fun _ _ => true) q)
    p.held.isSome || behind p || a.parts.any (fun q => q.unread && behind q)
  | .kvapp _ rows => a.parts.any (fun q => (q.unit == p.unit || p.unit == rows) && (q.held.isSome || !a.mayPerform stuck q))
  | _ => p.held.isSome || !a.mayPerform stuck p

/-- Every access of a list is performed, held, or behind a held one, or is a transfer that is squashed (R341 steps 2 and 3); `stuck` are
those before it of which some part cannot be performed while the held walks stay so, or, once the quiesce limit has passed, ever. -/
def State.quietFrom (s : State) (w : Workgroup) (c : Crew) : List Access → List Access → Bool
  | _, [] => true
  | stuck, a :: as =>
    let waits := s.stuckPart w c stuck a
    (a.done || a.kind.squashes || a.parts.all waits)
      && State.quietFrom s w c (if a.parts.any waits || (!a.done && a.kind.squashes && s.quiesced w) then stuck ++ [a] else stuck) as

def State.quiet (s : State) (w : Workgroup) : Bool := w.crews.values.all (fun c => s.quietFrom w c [] c.flying)

/-- A workgroup of the scope is saved or flushed, once every access of it is performed, held or squashed, and its carving is
freed; an area that does not fit is not written (R341 steps 2 to 5, R339). -/
def State.saveOne (s : State) (io pool wid : Nat) : State :=
  match s.ladder io pool, s.wgs.find? wid with
  | some l, some w =>
    if !(l.members.contains w.admitted && s.quiet w) then s
    else if s.mayFlush w && Config.flushed s.tick wid then (s.flush wid w).offer w.die w.core
    else
      let w' := w.stopped
      let bs := w'.areaBytes (s.gridOf w) w.children.length (w.burrowBytes (s.ctx w.ctx))
      if l.tooBig bs.length then s
      else
        let area : Area := { base := l.next, wid := wid, wg := w', kids := w.children.length, restored := false }
        let t := (s.putLadder l { l with areas := l.areas ++ [area], next := alignUp 4096 (l.next + bs.length) }).fwWrite l.next bs
        ({ t with wgs := t.wgs.erase wid } : State).offer w.die w.core
  | _, _ => s

/-- Every workgroup of the scope that can be saved now is; with the last one the ladder ends with SAVED (R341). -/
def State.saveAll (s : State) (io pool : Nat) : State :=
  let t := s.wgs.keys.foldl (fun (s : State) wid => s.saveOne io pool wid) s
  match t.ladder io pool with
  | some l => if t.wgs.values.any (fun w => l.members.contains w.admitted) then t else t.saved l
  | none => t

/-- Crews that wait at AGROW or AFREE stop waiting: they execute it anew after the save (R343). -/
def Workgroup.unwait (w : Workgroup) : Workgroup :=
  { w with crews := SMap.mapVals w.crews (fun c => { c with waitGrow := none, freeing := none }) }

/-- The save rung begins: the workgroups of the scope stop issuing; without any the ladder ends with SAVED (R341). -/
def State.startSave (s : State) (l : Ladder) : State :=
  let members := (s.wgs.values.filter (s.inScope l)).map (·.admitted)
  if members.isEmpty then s.saved l
  else
    let rung := if l.quiesceUs = 0 then Rung.quiesced else Rung.save
    let s1 := s.putLadder l { l with rung := rung, members := members }
    let s2 := { s1 with wgs := s1.wgs.mapVals (fun w => if members.contains w.admitted then w.unwait else w) }
    if l.quiesceUs = 0 then s2.saveAll l.io l.pool else s2

/-- The ladder that a command asks for, its defaults filled in (R339). -/
def ladderOf (io : Nat) (cmd : BitVec 256) (mask : BitVec 512) : Ladder where
  io := io
  scope := nfld cmd 0 8
  ctx := nfld cmd 8 8
  quiesceUs := if fld cmd 16 16 = 0xFFFF then 4 else fld cmd 16 16
  drainUs := if fld cmd 32 32 = 0xFFFFFFFF then 200 else fld cmd 32 32
  saveUs := if fld cmd 64 32 = 0xFFFFFFFF then 50 else fld cmd 64 32
  poolSz := fld cmd 96 32
  target := fld cmd 128 64
  mask := mask
  pool := nfld cmd 192 64
  rung := .drain
  members := []
  areas := []
  next := nfld cmd 192 64 + 4096

/-- The core mask of a command of SCOPE 2, at its TARGET. -/
def State.coreMask (s : State) (cmd : BitVec 256) : BitVec 512 :=
  if nfld cmd 0 8 = 2 then BitVec.ofNat 512 (s.fwNat (nfld cmd 128 64) 64) else 0

/-- The command is refused (R339). -/
def Ladder.refused (l : Ladder) : Bool :=
  decide (2 < l.scope) || l.saveUs == 0 || (List.range 8).any (fun d => nfld l.mask (64 * d + 56) 8 != 0)

/-- LADDER_COMMAND (R339, R340): the drain rung, the save rung where DRAINUS is 0, or a refusal. -/
def execLadderCommand (io : Nat) (cmd : BitVec 256) (s : State) : Result :=
  let l := ladderOf io cmd (s.coreMask cmd)
  if l.refused then .next (s.ladderEnd l.pool 3 0)
  else
    let t := { s with ladders := s.ladders ++ [l] }
    if l.drainUs = 0 then .next (t.startSave l) else .next t.drained

/-- SAVE_RUNG_START: the drain deadline passes (R341). -/
def execSaveRungStart (io pool : Nat) (s : State) : Result :=
  match s.ladder io pool with
  | some l => if l.rung = .drain then .next (s.startSave l) else .next s
  | none => .next s

/-- QUIESCE_LIMIT_EXPIRY: transfers do not land any more, and every workgroup of the scope whose other accesses are performed
or held is saved. The event comes again for those that were not ready (R341). -/
def execQuiesceLimitExpiry (io pool : Nat) (s : State) : Result :=
  match s.ladder io pool with
  | some l =>
    if l.rung = .drain then .next s else .next ((s.putLadder l { l with rung := .quiesced }).saveAll io pool)
  | none => .next s

/-- SAVE_DEADLINE_EXPIRY: a workgroup of the scope is not saved, and the context ends with DEADLINE (R341). -/
def execSaveDeadlineExpiry (io pool : Nat) (s : State) : Result :=
  match s.ladder io pool with
  | some l => if l.rung = .drain then .next s else .next (s.endContext l.ctx .deadline)
  | none => .next s

/-! The resume command (R366). -/

/-- The value that the resume command register of an I/O die reads as. -/
def State.resumeValue (s : State) (io : Nat) : Nat := s.resumeReg.get io + 1

/-- The pool that a resume command names, if the command is accepted (R366). -/
def State.resumable (s : State) (io : Nat) (cmd : BitVec 128) : Option Pool :=
  if nfld cmd 72 56 != 0 || !(s.ctx (nfld cmd 64 8)).valid || s.fwNat (nfld cmd 0 64) 4 != 1 then none
  else s.pools.find? (fun p => p.io == io && p.base == nfld cmd 0 64 && p.ctx == nfld cmd 64 8 && !p.resumed)

/-- RESUME_COMMAND: every save area of the pool becomes eligible (R366). -/
def execResumeCommand (io : Nat) (cmd : BitVec 128) (s : State) : Result :=
  match s.resumable io cmd with
  | none => .next { s with resumeReg := s.resumeReg.put io 1 }
  | some p =>
    .next { s with
      resumeReg := s.resumeReg.put io 0,
      pools := s.pools.map (fun x => if x = p then { x with resumed := true } else x) }.poolsDone

end Sys2Proof.Machine
end

