-- ==== Sys2Proof/Machine/LaneControl.lean ====
section
/-! DEFINITION. Structured control of the lane stream (08 R194, R195; 01 R21) and the lane NOP. -/

namespace Sys2Proof.Machine

/-- A structured-control instruction acts on the run in progress; none: ILLOP with no effect (R194). -/
def laneControl (s : State) (f : LaneFields) (g : Crew → Progress → Option Crew) : Result :=
  acting s fun w c =>
    match g c c.run with
    | some c => passOn s w c f
    | none => trap s .illop 0

/-- The condition of IF, WHILE and BRK, inverted when SUBOP is 1. -/
def Crew.cond (c : Crew) (f : LaneFields) : Mask :=
  let p := c.pred f.srca.toNat
  if f.subop.toNat = 1 then ~~~p else p

/-- A crew with its run in progress replaced. -/
def Crew.setRun (c : Crew) (p : Progress) : Crew := { c with prog := some p }

/-- The accesses made since an opening stay before what follows its reconvergence point (R108). What follows includes the other path of an IF
that holds this structure in its first: R108 calls the two paths unordered and says that FI orders all before it before everything after
it, and the model keeps the order (DESIGN CHOICE, log entry 114). -/
def Crew.joinSince (c : Crew) (mark : Nat) : Crew :=
  { c with orderL := c.orderL ++ c.open_ (fun a => decide (a.stream = .lane ∧ mark ≤ a.id) && !a.kind.transfer) }

/-- IF (R194). -/
def execIfL (f : LaneFields) (s : State) : Result :=
  laneControl s f fun c p =>
    if 16 ≤ p.frames.length then none
    else
      let k := c.cond f
      some ({ c with nextId := c.nextId + 1 }.setRun
        { p with active := p.active &&& k, frames := .ifs p.active (p.active &&& ~~~k) false c.nextId :: p.frames })

/-- ELSE (R194). -/
def execElseL (f : LaneFields) (s : State) : Result :=
  laneControl s f fun c p =>
    match p.frames with
    | .ifs entry rest false mark :: fs => some (c.setRun { p with active := rest, frames := .ifs entry rest true mark :: fs })
    | _ => none

/-- FI (R194). -/
def execFi (f : LaneFields) (s : State) : Result :=
  laneControl s f fun c p =>
    match p.frames with
    | .ifs entry _ _ mark :: fs => some ((c.joinSince mark).setRun { p with active := entry, frames := fs })
    | _ => none

/-- DO (R194). -/
def execDoL (f : LaneFields) (s : State) : Result :=
  laneControl s f fun c p =>
    if 16 ≤ p.frames.length then none
    else some (c.setRun { p with frames := .loop p.active (p.pc + 12) c.nextId :: p.frames })

/-- WHILE (R194): a loop that goes on does not pass on, so an end-of-run bit on it takes no effect then (R21). -/
def execWhileL (f : LaneFields) (s : State) : Result :=
  acting s fun w c =>
    match c.run.frames with
    | .loop entry body mark :: fs =>
      let cont := c.run.active &&& c.cond f
      if cont = 0 then passOn s w ((c.joinSince mark).setRun { c.run with active := entry, frames := fs }) f
      else .next (s.put s.cur.key w (c.setRun { c.run with active := cont, pc := body }))
    | _ => trap s .illop 0

/-- The IF frames above the innermost DO without the lanes that leave; none if no DO is open (R194). -/
def breakFrames (out : Mask) : List Frame → Option (List Frame)
  | [] => none
  | .loop entry body mark :: fs => some (.loop entry body mark :: fs)
  | .ifs entry rest elsed mark :: fs =>
    (breakFrames out fs).map (fun gs => .ifs (entry &&& ~~~out) (rest &&& ~~~out) elsed mark :: gs)

/-- BRK (R194). -/
def execBrk (f : LaneFields) (s : State) : Result :=
  laneControl s f fun c p =>
    let out := p.active &&& c.cond f
    (breakFrames out p.frames).map (fun fs => c.setRun { p with active := p.active &&& ~~~out, frames := fs })

/-- NOP (R195). -/
def execLnop (f : LaneFields) (s : State) : Result := acting s fun w c => passOn s w c f

end Sys2Proof.Machine
end

