-- ==== Sys2Proof/Machine/Reliability.lean ====
section
/-! DEFINITION. Errors and scrubbing (24 R355 to R360), write-backs of the die cache and of Burrow (18 R290; 04 R101), heat and
links (25 R364, R365), bring-up and attestation (25 R362, R363). -/

namespace Sys2Proof.Machine

/-! Write-backs. -/

/-- DIE_CACHE_WRITE_BACK: a line leaves the die cache (R290, R294). -/
def execDieCacheWriteBack (line : Nat) (s : State) : Result :=
  .next (s.evict line)

/-- BURROW_WRITE_BACK: a leaf is clean once the arena holds it (R101). How the arena holds it is not architectural, and what the bytes of its
memory read as stays as it was (DESIGN CHOICE, log entry 121). -/
def execBurrowWriteBack (ctx leaf : Nat) (s : State) : Result :=
  .next { s with ctxs := s.ctxs.modify ctx (fun x =>
    { x with leaves := x.leaves.modify leaf (fun l => { l with dirty := false }) }) }

/-! Counting (R358 to R360). -/

/-- ARRAY code of an error record (R360); what R357 lists beyond its arrays counts as other. -/
def arrayCode : SramArray → Nat
  | .laneRegs => 0 | .scalarQueues => 1 | .tiles => 2 | .acc => 3 | .scratch => 4 | .codebooks => 5 | .fetchCache => 6
  | .datapath => 7 | .dieCache => 8 | .burrow => 9 | .other | .translation | .firmware => 10

/-- The array belongs to a core. -/
def ofCore (a : SramArray) : Bool := decide (arrayCode a < 8)

/-- Key of a region: its die, its core (56 for a side chiplet), its array and its number (R359). -/
def regionKey (a : SramArray) (die core region : Nat) : Nat :=
  if ofCore a then regionNumber (arrayCode a) die core 0 else regionNumber (arrayCode a) die 56 region

/-- The I/O die nearer a compute die (DESIGN CHOICE, log entry 21). -/
def nearIo (die : Nat) : Nat := die / 4

/-- The I/O die nearer a region's die. -/
def regionIo (key : Nat) : Nat := nearIo (key / 65536)

/-- What an error record says of a line's owner. -/
structure Tagged where
  owner : Option Nat
  world : Bool
  ended : Bool
  handle : Nat

/-- The 16 bytes of an error record (R360). -/
def errorRecord (kind : Nat) (a : SramArray) (die core region count : Nat) (t : Tagged) : BitVec 128 :=
  0#48 ++ BitVec.ofNat 16 t.handle ++ BitVec.ofNat 8 (min count 255)
    ++ 0#5 ++ bit t.owner.isSome ++ bit t.ended ++ bit t.world
    ++ BitVec.ofNat 8 (t.owner.getD 0) ++ BitVec.ofNat 8 (if ofCore a then 0 else region)
    ++ BitVec.ofNat 8 (if ofCore a then core else 0xFF) ++ BitVec.ofNat 8 die ++ BitVec.ofNat 8 (arrayCode a) ++ BitVec.ofNat 8 kind

/-- Keys of the cores of a die. -/
def dieCores (die : Nat) : List Nat := (List.range Config.cores).map (coreKey die)

/-- The 12 other regions of a die are all lasting faults. -/
def State.noOtherLeft (s : State) (die : Nat) : Bool :=
  (List.range 12).all (fun r => s.lasting.contains (regionKey .other die 0 r))

/-- The lines of a region of the die cache are written back (R359). -/
def State.writeBackRegion (s : State) (region : Nat) : State :=
  (s.lines.keys.filter (fun n => (Config.lineRegion n).val = region)).foldl State.evict s

/-- The leaves of a region of Burrow are written back to their arenas (R359). -/
def Context.writeBackRegion (x : Context) (ctx region : Nat) : Context :=
  { x with leaves := x.leaves.map (fun e => (e.1, if (Config.leafRegion ctx e.1).val = region then { e.2 with dirty := false } else e.2)) }

/-- A lasting fault retires its core, or every core of a die that has no other SRAM left; a region of the die cache or of Burrow is
written back and takes nothing any more (R359, R361). -/
def State.markLasting (s : State) (a : SramArray) (die core region : Nat) : State :=
  let t := { s with lasting := regionKey a die core region :: s.lasting }
  match a with
  | .dieCache => t.writeBackRegion (64 * die + region)
  | .burrow => { t with ctxs := t.ctxs.map (fun e => (e.1, e.2.writeBackRegion e.1 (32 * die + region))) }
  | .other | .translation | .firmware => if t.noOtherLeft die then { t with retired := dieCores die ++ t.retired } else t
  | _ => { t with retired := coreKey die core :: t.retired }

/-- A detected error is counted and recorded; at THRESH within the window the region's fault is lasting (R355, R359, R360). -/
def State.countError (s : State) (kind : Nat) (a : SramArray) (die core region : Nat) (t : Tagged) : State :=
  let key := regionKey a die core region
  let n := s.errors.get key + 1
  let s := { s with errors := s.errors.put key n }
  let s := s.send (.error (nearIo die) (errorRecord kind a die core region n t))
  if s.thresh ≤ n ∧ !s.lasting.contains key then
    (s.markLasting a die core region).send (.error (nearIo die) (errorRecord 3 a die core region n { t with handle := 0 }))
  else s

/-- ERROR_WINDOW_EXPIRY: an I/O die clears its counts (R359). -/
def execErrorWindowExpiry (io : Nat) (s : State) : Result :=
  .next { s with errors := s.errors.filter (fun e => regionIo e.1 != io) }

/-! Scrubbing (R355 to R358). -/

/-- A line by its number in an array: of a core's array, its place there; of the die cache, PA / 256; of Burrow, context and leaf; of the
translation caches, the place of its entry, leaves before table entries; of the others, the queue whose state it holds, a device
queue's behind the user queues'. -/
def burrowCtx (line : Nat) : Nat := line / 2 ^ 22
def burrowLeaf (line : Nat) : Nat := line % 2 ^ 22

/-- The context that a line of an I/O die's queue state is held for, whatever the STATE of the queue: a user queue's or a device queue's,
from the activation of its context to the end of its release sweep, unless an error has rewritten it since it was written last (R290, R291,
R299, R308, R357). -/
def State.queueOwner (s : State) (line : Nat) : Option Nat :=
  let c := if line < 4096 then (s.queues.find? line).map (fun q => q.ctx.toNat)
    else if (s.ctx (line - 4096)).devBare then none else some (line - 4096)
  c.filter (fun c => (s.ctx c).valid || (s.ctx c).sweeping)

/-- The context and the page of an entry of a die's translation caches, by its line. -/
def State.cachedAt (s : State) (line : Nat) : Option (Nat × Nat × Nat) :=
  (s.tlb.map (fun e => (e.die, e.ctx, e.leaf.va)) ++ s.tables.map (fun e => (e.die, e.ctx, e.va)))[line]?

/-- The tag of a line of an array (R290): its context and its world. -/
def State.tagOf (s : State) (a : SramArray) (die core line : Nat) : Option Tag :=
  match a with
  | .dieCache =>
    match s.lines.find? line with
    | some ⟨some (.ctx c), secure, _, _⟩ => some ⟨c, secure⟩
    | _ => none
  | .burrow =>
    let x := s.ctx (burrowCtx line)
    match x.leaves.find? (burrowLeaf line) with
    | some l => if l.poisoned || !s.takesLeaf (burrowCtx line) (burrowLeaf line) then none else some ⟨burrowCtx line, x.secure⟩
    | none => none
  | .translation =>
    (s.cachedAt line).map (fun e => ⟨e.2.1, (s.ctx e.2.1).secure⟩)
  | .other => (s.queueOwner line).map (fun c => ⟨c, (s.ctx c).secure⟩)
  | .datapath | .firmware => none
  | _ => s.tags.find? (tagKey (arrayCode a) die core line)

/-- The world bit of a line: its tag's; a line of the die cache has that of its region, whether a context owns it or the firmware
(R292). -/
def State.worldAt (s : State) (a : SramArray) (die core line : Nat) : Bool :=
  match a with
  | .dieCache => (s.lines.get line).secure
  | _ => match s.tagOf a die core line with
    | some t => t.secure
    | none => false

/-- What becomes of a line with an uncorrectable error: the state, whether its owner ends, the KIND and HANDLE of the record
(R357, R358). -/
structure Broken where
  state : State
  ended : Bool
  kind : Nat
  handle : Nat

/-- Nothing ends. -/
def Broken.kept (s : State) : Broken := ⟨s, false, 1, 0⟩

/-- The owner of a line ends, if it is still a valid context (R342). -/
def State.endOwner (s : State) (c : Nat) : State := if (s.ctx c).valid then s.endContext c .poison else s

/-- A dirty leaf is poisoned: zero, in a line with a cleared tag, which has nothing to write back (R357, R358). -/
def State.poisonLeaf (s : State) (c leaf : Nat) : Broken :=
  let x := s.ctx c
  let x' := { x with leaves := x.leaves.insert leaf { bytes := [], poisoned := true, dirty := false } }
  let first := match x'.seqs.filter (fun e => x'.flagged e.2) with | (h, _) :: _ => h | [] => 0
  ⟨{ s with ctxs := s.ctxs.insert c x' }, false, 2, first⟩

/-- State of a queue, by its line, rewritten as zero. -/
def State.zeroQueue (s : State) (line : Nat) : State :=
  if line < 4096 then { s with queues := s.queues.erase line }
  else { s with ctxs := s.ctxs.modify (line - 4096) (fun x => { x with devTake := 0, devPut := 0, devSlots := [], devBare := true }) }

/-- An uncorrectable error in a line: what it ends, and the line rewritten as zero with a cleared tag, or discarded and read again
(R357). The monitor reloads the firmware's lines from images that it checks again (R362). -/
def State.breakLine (s : State) (a : SramArray) (die core line : Nat) (tag : Option Tag) : Broken :=
  match a, tag with
  | .datapath, _ => .kept s
  | .firmware, _ => .kept (if s.images.all s.accepts then s else { s with boot := .recovery })
  | .dieCache, _ =>
    match s.lines.find? line with
    | none => .kept s
    | some l =>
      match l.owner, l.dirty with
      | some _, false => .kept { s with lines := s.lines.erase line }
      | some (.ctx c), true =>
        let t := s.endOwner c
        ⟨{ t with lines := t.lines.insert line default }, (s.ctx c).valid, 1, 0⟩
      | _, _ => .kept { s with lines := s.lines.insert line default }
  | .burrow, some t =>
    match (s.ctx t.ctx).leaves.find? (burrowLeaf line) with
    | some l => if l.dirty then s.poisonLeaf t.ctx (burrowLeaf line) else .kept s
    | none => .kept s
  | .translation, some _ =>
    .kept (if line < s.tlb.length then { s with tlb := s.tlb.eraseIdx line }
      else { s with tables := s.tables.eraseIdx (line - s.tlb.length) })
  | .other, some t => ⟨(s.endOwner t.ctx).zeroQueue line, (s.ctx t.ctx).valid, 1, 0⟩
  | .other, none => .kept (s.zeroQueue line)
  | _, some t =>
    let e := s.endOwner t.ctx
    ⟨{ e with tags := e.tags.erase (tagKey (arrayCode a) die core line) }, (s.ctx t.ctx).valid, 1, 0⟩
  | _, none => .kept s

/-- Regions of an array on a die; of a core's array there is one (R359). -/
def regionCount (a : SramArray) : Nat :=
  match a with
  | .dieCache => 64
  | .burrow => 32
  | .other | .translation | .firmware => 12
  | _ => 1

/-- Where what stood first in a region of a die's other SRAM stands now: there, or, once that region's fault is lasting, in the next of
the die's regions whose fault is not (R359; DESIGN CHOICE, log entry 69). -/
def State.otherAt (s : State) (die first : Nat) : Nat :=
  12 * die + (((List.range 12).map (fun i => (first + i) % 12)).find? (fun r => !s.lasting.contains (regionKey .other die 0 r))).getD first

/-- A line that stands in the other SRAM now, as 12 * die + region. A number beyond the queues names a line that holds nothing and is not
moved, and one beyond the entries of the translation caches no line. -/
def State.otherSpot (s : State) (a : SramArray) (line : Nat) : Option Nat :=
  match a with
  | .translation => (s.cachedAt line).map (fun e => s.otherAt e.1 (Config.entryRegion e.1 e.2.1 e.2.2).val)
  | .firmware => some (s.otherAt ((Config.firmwareRegion line).val / 12) ((Config.firmwareRegion line).val % 12))
  | _ =>
    let r := (Config.otherRegion line).val
    some (if line < 4352 then s.otherAt (r / 12) (r % 12) else r)

/-- The line is one of those that stand in a region of a die (R359); an array of a core has fewer than 2^20. -/
def State.standsIn (s : State) (a : SramArray) (die region line : Nat) : Bool :=
  match a with
  | .dieCache => decide ((Config.lineRegion line).val = 64 * die + region)
  | .burrow => decide ((Config.leafRegion (burrowCtx line) (burrowLeaf line)).val = 32 * die + region)
  | .other | .translation | .firmware => s.otherSpot a line == some (12 * die + region)
  | _ => decide (line < 2 ^ 20)

/-- HEDGEHOG_SCRUB: a read of a line that finds `bad` bad bits (R355 to R357). -/
def execHedgehogScrub (array : SramArray) (die core region line : Nat) (bad : Nat) (s : State) : Result :=
  let tag := s.tagOf array die core line
  let t : Tagged := { owner := tag.map (·.ctx), world := s.worldAt array die core line, ended := false, handle := 0 }
  if bad = 0 ∨ Config.dies ≤ die ∨ Config.cores ≤ core ∨ regionCount array ≤ region ∨ !s.standsIn array die region line then .next s
  else if bad = 1 then .next (s.countError 0 array die core region t)
  else
    let b := s.breakLine array die core line tag
    .next (b.state.countError b.kind array die core region { t with ended := b.ended, handle := b.handle })

/-! Heat and links. -/

/-- THERMAL_LIMIT: every context ends with KILL, and none is admitted until the die has cooled (R365). -/
def execThermalLimit (die : Nat) (s : State) : Result :=
  let t : State := (s.ctxs.keys.filter (fun c => (s.ctx c).valid)).foldl (fun (s : State) c => s.endContext c .kill) s
  .next { t with hot := die :: t.hot.filter (fun d => d != die) }

/-- THERMAL_COOLED. -/
def execThermalCooled (die : Nat) (s : State) : Result := .next { s with hot := s.hot.filter (fun d => d != die) }

/-- LINK_TRAINING_FAILURE: the link stays down (R364). -/
def execLinkTrainingFailure (link : Nat) (s : State) : Result :=
  .next (if s.downLinks.contains link then s else { s with downLinks := link :: s.downLinks })

/-! Bring-up and attestation. -/

/-- What package reset clears: everything on the package but what is fused, what stands in memory, links that are down and the heat of
the dies; the lines of the die cache become zero with cleared tags (R362, R364, R365). -/
def State.cleared (s : State) : State :=
  { State.reset with
    agenda := s.agenda, cur := s.cur, tick := s.tick, nextWid := s.nextWid, mem := s.mem,
    lines := s.lines.mapVals (fun _ => default), sealed := s.sealed, cxlBytes := s.cxlBytes, downLinks := s.downLinks, hot := s.hot,
    keyHash := s.keyHash, rollback := s.rollback, bootRom := s.bootRom, out := s.out }

/-- PACKAGE_RESET: the boot ROM's steps on what the boot flash holds, the monitor's image first, then the scheduler's and the
plug-ins'; none if it cannot be read. A failure leaves the package in recovery, with the images that were loaded before it
(R362). -/
def execPackageReset (flash : Option (List FlashImage)) (s : State) : Result :=
  let images := flash.getD []
  .next { s.cleared with
    images := images.takeWhile s.accepts
    boot := if 2 ≤ images.length ∧ images.all s.accepts then .done else .recovery }

/-- An SPDM answer, if PCIe brings the request (R363, R364). -/
def spdmAnswer (s : State) (request : Nat) (words : List (BitVec 256)) : Result :=
  if s.downLinks.contains 0 then .next s else .next (s.send (.spdm request words))

/-- The signature of an answer (R363), a free value. -/
def State.signature (s : State) : List (BitVec 256) := (List.range 12).map (fun i => fld (Config.signature s.tick) (256 * i) 256)

/-- The measurements: the boot ROM, then the images in force, in order (R363). -/
def State.measurements (s : State) : List (BitVec 256) := s.bootRom :: s.images.map (·.digest)

/-- The digest of the certificate chain (R363). -/
def chainDigest : BitVec 256 := Sha.hash (Config.chain 0)

/-- GET_VERSION: 1.3. -/
def execGetVersion (s : State) : Result := spdmAnswer s 0 [0x13]
def execGetCapabilities (s : State) : Result := spdmAnswer s 1 [Config.capabilities]
/-- NEGOTIATE_ALGORITHMS: of what is offered, SHA-256 (bit 0) and RSASSA-3072 (bit 2) alone are chosen. -/
def execNegotiateAlgorithms (hash sign : Nat) (s : State) : Result :=
  spdmAnswer s 2 [BitVec.ofNat 256 hash &&& 1, BitVec.ofNat 256 sign &&& 4]
def execGetDigests (s : State) : Result := spdmAnswer s 3 [chainDigest]
def execGetCertificate (slot : Nat) (s : State) : Result := spdmAnswer s 4 ((Config.chain slot).map (BitVec.zeroExtend 256))
def execChallenge (nonce : BitVec 256) (s : State) : Result := spdmAnswer s 5 (chainDigest :: nonce :: s.signature)
def execGetMeasurements (s : State) : Result := spdmAnswer s 6 (s.measurements ++ s.signature)

end Sys2Proof.Machine
end

