-- ==== Sys2Proof/Machine/Dispatch.lean ====
section
/-! DEFINITION. The meaning of each instruction and event, arm by arm. -/

namespace Sys2Proof.Machine

def exec (i : Instr) (s : State) : Host.Outcome State Fault Refusal :=
  match i with
  | .add d a b => Sys2Proof.Machine.execAdd d a b s
  | .sub d a b => Sys2Proof.Machine.execSub d a b s
  | .mul d a b => Sys2Proof.Machine.execMul d a b s
  | .mulh d a b => Sys2Proof.Machine.execMulh d a b s
  | .mulhu d a b => Sys2Proof.Machine.execMulhu d a b s
  | .div d a b => Sys2Proof.Machine.execDiv d a b s
  | .divu d a b => Sys2Proof.Machine.execDivu d a b s
  | .rem d a b => Sys2Proof.Machine.execRem d a b s
  | .remu d a b => Sys2Proof.Machine.execRemu d a b s
  | .andR d a b => Sys2Proof.Machine.execAndR d a b s
  | .orR d a b => Sys2Proof.Machine.execOrR d a b s
  | .xorR d a b => Sys2Proof.Machine.execXorR d a b s
  | .shl d a b => Sys2Proof.Machine.execShl d a b s
  | .shr d a b => Sys2Proof.Machine.execShr d a b s
  | .sra d a b => Sys2Proof.Machine.execSra d a b s
  | .min d a b => Sys2Proof.Machine.execMin d a b s
  | .max d a b => Sys2Proof.Machine.execMax d a b s
  | .minu d a b => Sys2Proof.Machine.execMinu d a b s
  | .maxu d a b => Sys2Proof.Machine.execMaxu d a b s
  | .slt d a b => Sys2Proof.Machine.execSlt d a b s
  | .sltu d a b => Sys2Proof.Machine.execSltu d a b s
  | .seq d a b => Sys2Proof.Machine.execSeq d a b s
  | .clz d a => Sys2Proof.Machine.execClz d a s
  | .popc d a => Sys2Proof.Machine.execPopc d a s
  | .mov d a => Sys2Proof.Machine.execMov d a s
  | .add64 d a b => Sys2Proof.Machine.execAdd64 d a b s
  | .addi d a imm => Sys2Proof.Machine.execAddi d a imm s
  | .andi d a imm => Sys2Proof.Machine.execAndi d a imm s
  | .ori d a imm => Sys2Proof.Machine.execOri d a imm s
  | .xori d a imm => Sys2Proof.Machine.execXori d a imm s
  | .shli d a sh => Sys2Proof.Machine.execShli d a sh s
  | .shri d a sh => Sys2Proof.Machine.execShri d a sh s
  | .srai d a sh => Sys2Proof.Machine.execSrai d a sh s
  | .lui d imm => Sys2Proof.Machine.execLui d imm s
  | .li d imm => Sys2Proof.Machine.execLi d imm s
  | .sel d a b c => Sys2Proof.Machine.execSel d a b c s
  | .lea d a b sh => Sys2Proof.Machine.execLea d a b sh s
  | .bcond c a b off => Sys2Proof.Machine.execBcond c a b off s
  | .jmp off => Sys2Proof.Machine.execJmp off s
  | .jal off => Sys2Proof.Machine.execJal off s
  | .jr d a => Sys2Proof.Machine.execJr d a s
  | .loop a off => Sys2Proof.Machine.execLoop a off s
  | .lrun a off => Sys2Proof.Machine.execLrun a off s
  | .gets d sp => Sys2Proof.Machine.execGets d sp s
  | .fence k sc => Sys2Proof.Machine.execFence k sc s
  | .drain sc => Sys2Proof.Machine.execDrain sc s
  | .sld d a off cls sc sz => Sys2Proof.Machine.execSld d a off cls sc sz s
  | .sst d a off cls sc sz => Sys2Proof.Machine.execSst d a off cls sc sz s
  | .ldk d a imm => Sys2Proof.Machine.execLdk d a imm s
  | .satom d a b op sc wide => Sys2Proof.Machine.execSatom d a b op sc wide s
  | .binit o a => Sys2Proof.Machine.execBinit o a s
  | .bexp o a b => Sys2Proof.Machine.execBexp o a b s
  | .barr o => Sys2Proof.Machine.execBarr o s
  | .bwait o par => Sys2Proof.Machine.execBwait o par s
  | .btry d o par => Sys2Proof.Machine.execBtry d o par s
  | .tload t a b z m bar off => Sys2Proof.Machine.execTload t a b z m bar off s
  | .tstore t a b z m off => Sys2Proof.Machine.execTstore t a b z m off s
  | .cpseal d bar => Sys2Proof.Machine.execCpseal d bar s
  | .cpwait a n => Sys2Proof.Machine.execCpwait a n s
  | .cbload cb a e => Sys2Proof.Machine.execCbload cb a e s
  | .waitc p a => Sys2Proof.Machine.execWaitc p a s
  | .tlook d a => Sys2Proof.Machine.execTlook d a s
  | .tfill d a b => Sys2Proof.Machine.execTfill d a b s
  | .tdrop a => Sys2Proof.Machine.execTdrop a s
  | .aalloc h => Sys2Proof.Machine.execAalloc h s
  | .agrow d h => Sys2Proof.Machine.execAgrow d h s
  | .agrowDenial k => Sys2Proof.Machine.execAgrowDenial k s
  | .afree h => Sys2Proof.Machine.execAfree h s
  | .group a pack => Sys2Proof.Machine.execGroup a pack s
  | .join k left a => Sys2Proof.Machine.execJoin k left a s
  | .joinc k left a => Sys2Proof.Machine.execJoinc k left a s
  | .ssopen d a b => Sys2Proof.Machine.execSsopen d a b s
  | .ssld d a b t => Sys2Proof.Machine.execSsld d a b t s
  | .ssst d a b t => Sys2Proof.Machine.execSsst d a b t s
  | .sssnap d a b => Sys2Proof.Machine.execSssnap d a b s
  | .ssroll d a b => Sys2Proof.Machine.execSsroll d a b s
  | .ssfork d a b => Sys2Proof.Machine.execSsfork d a b s
  | .sscommit d a b => Sys2Proof.Machine.execSscommit d a b s
  | .ssclose d a => Sys2Proof.Machine.execSsclose d a s
  | .kvld d a b c t m => Sys2Proof.Machine.execKvld d a b c t m s
  | .kvapp d a b c t m => Sys2Proof.Machine.execKvapp d a b c t m s
  | .kvtrunc a b m => Sys2Proof.Machine.execKvtrunc a b m s
  | .kvstep d a m => Sys2Proof.Machine.execKvstep d a m s
  | .launch d a => Sys2Proof.Machine.execLaunch d a s
  | .trap code => Sys2Proof.Machine.execTrap code s
  | .nop => Sys2Proof.Machine.execNop s
  | .lsync => Sys2Proof.Machine.execLsync s
  | .exit => Sys2Proof.Machine.execExit s
  | .cwait => Sys2Proof.Machine.execCwait s
  | .bkpt => Sys2Proof.Machine.execBkpt s
  | .iadd f => Sys2Proof.Machine.execIadd f s
  | .iaddI f => Sys2Proof.Machine.execIaddI f s
  | .isub f => Sys2Proof.Machine.execIsub f s
  | .isubI f => Sys2Proof.Machine.execIsubI f s
  | .imul f => Sys2Proof.Machine.execImul f s
  | .imulI f => Sys2Proof.Machine.execImulI f s
  | .imulh f => Sys2Proof.Machine.execImulh f s
  | .imulhI f => Sys2Proof.Machine.execImulhI f s
  | .imad f => Sys2Proof.Machine.execImad f s
  | .imin f => Sys2Proof.Machine.execImin f s
  | .iminI f => Sys2Proof.Machine.execIminI f s
  | .imax f => Sys2Proof.Machine.execImax f s
  | .imaxI f => Sys2Proof.Machine.execImaxI f s
  | .iabs f => Sys2Proof.Machine.execIabs f s
  | .ineg f => Sys2Proof.Machine.execIneg f s
  | .iset f => Sys2Proof.Machine.execIset f s
  | .isetI f => Sys2Proof.Machine.execIsetI f s
  | .land f => Sys2Proof.Machine.execLand f s
  | .landI f => Sys2Proof.Machine.execLandI f s
  | .lor f => Sys2Proof.Machine.execLor f s
  | .lorI f => Sys2Proof.Machine.execLorI f s
  | .lxor f => Sys2Proof.Machine.execLxor f s
  | .lxorI f => Sys2Proof.Machine.execLxorI f s
  | .andn f => Sys2Proof.Machine.execAndn f s
  | .andnI f => Sys2Proof.Machine.execAndnI f s
  | .lnot f => Sys2Proof.Machine.execLnot f s
  | .lop f => Sys2Proof.Machine.execLop f s
  | .lshl f => Sys2Proof.Machine.execLshl f s
  | .lshlI f => Sys2Proof.Machine.execLshlI f s
  | .lshr f => Sys2Proof.Machine.execLshr f s
  | .lshrI f => Sys2Proof.Machine.execLshrI f s
  | .lsra f => Sys2Proof.Machine.execLsra f s
  | .lsraI f => Sys2Proof.Machine.execLsraI f s
  | .rotl f => Sys2Proof.Machine.execRotl f s
  | .rotlI f => Sys2Proof.Machine.execRotlI f s
  | .lpopc f => Sys2Proof.Machine.execLpopc f s
  | .lclz f => Sys2Proof.Machine.execLclz f s
  | .brev f => Sys2Proof.Machine.execBrev f s
  | .bfe f => Sys2Proof.Machine.execBfe f s
  | .bfi f => Sys2Proof.Machine.execBfi f s
  | .llea f => Sys2Proof.Machine.execLlea f s
  | .lleaI f => Sys2Proof.Machine.execLleaI f s
  | .lsel f => Sys2Proof.Machine.execLsel f s
  | .lmov f => Sys2Proof.Machine.execLmov f s
  | .movi f => Sys2Proof.Machine.execMovi f s
  | .fadd f => Sys2Proof.Machine.execFadd f s
  | .faddI f => Sys2Proof.Machine.execFaddI f s
  | .fsub f => Sys2Proof.Machine.execFsub f s
  | .fsubI f => Sys2Proof.Machine.execFsubI f s
  | .fmul f => Sys2Proof.Machine.execFmul f s
  | .fmulI f => Sys2Proof.Machine.execFmulI f s
  | .ffma f => Sys2Proof.Machine.execFfma f s
  | .fmin f => Sys2Proof.Machine.execFmin f s
  | .fminI f => Sys2Proof.Machine.execFminI f s
  | .fmax f => Sys2Proof.Machine.execFmax f s
  | .fmaxI f => Sys2Proof.Machine.execFmaxI f s
  | .fset f => Sys2Proof.Machine.execFset f s
  | .fsetI f => Sys2Proof.Machine.execFsetI f s
  | .frcp f => Sys2Proof.Machine.execFrcp f s
  | .frsq f => Sys2Proof.Machine.execFrsq f s
  | .fsqrt f => Sys2Proof.Machine.execFsqrt f s
  | .fexp2 f => Sys2Proof.Machine.execFexp2 f s
  | .flog2 f => Sys2Proof.Machine.execFlog2 f s
  | .fclass f => Sys2Proof.Machine.execFclass f s
  | .hadd2 f => Sys2Proof.Machine.execHadd2 f s
  | .hadd2I f => Sys2Proof.Machine.execHadd2I f s
  | .hmul2 f => Sys2Proof.Machine.execHmul2 f s
  | .hmul2I f => Sys2Proof.Machine.execHmul2I f s
  | .hfma2 f => Sys2Proof.Machine.execHfma2 f s
  | .cvt f => Sys2Proof.Machine.execCvt f s
  | .qnt f => Sys2Proof.Machine.execQnt f s
  | .dqt f => Sys2Proof.Machine.execDqt f s
  | .route f => Sys2Proof.Machine.execRoute f s
  | .routeI f => Sys2Proof.Machine.execRouteI f s
  | .vote f => Sys2Proof.Machine.execVote f s
  | .redux f => Sys2Proof.Machine.execRedux f s
  | .scan f => Sys2Proof.Machine.execScan f s
  | .matchL f => Sys2Proof.Machine.execMatchL f s
  | .plop f => Sys2Proof.Machine.execPlop f s
  | .xset f => Sys2Proof.Machine.execXset f s
  | .xsetI f => Sys2Proof.Machine.execXsetI f s
  | .xadd f => Sys2Proof.Machine.execXadd f s
  | .xaddI f => Sys2Proof.Machine.execXaddI f s
  | .xget f => Sys2Proof.Machine.execXget f s
  | .getl f => Sys2Proof.Machine.execGetl f s
  | .ld f => Sys2Proof.Machine.execLd f s
  | .st f => Sys2Proof.Machine.execSt f s
  | .atom f => Sys2Proof.Machine.execAtom f s
  | .cpy f => Sys2Proof.Machine.execCpy f s
  | .fetch f => Sys2Proof.Machine.execFetch f s
  | .ifL f => Sys2Proof.Machine.execIfL f s
  | .elseL f => Sys2Proof.Machine.execElseL f s
  | .fi f => Sys2Proof.Machine.execFi f s
  | .doL f => Sys2Proof.Machine.execDoL f s
  | .whileL f => Sys2Proof.Machine.execWhileL f s
  | .brk f => Sys2Proof.Machine.execBrk f s
  | .mma f => Sys2Proof.Machine.execMma f s
  | .accz f => Sys2Proof.Machine.execAccz f s
  | .accrd f => Sys2Proof.Machine.execAccrd f s
  | .accwr f => Sys2Proof.Machine.execAccwr f s
  | .acccvt f => Sys2Proof.Machine.execAcccvt f s
  | .isect f => Sys2Proof.Machine.execIsect f s
  | .rand f => Sys2Proof.Machine.execRand f s
  | .sample f => Sys2Proof.Machine.execSample f s
  | .topk f => Sys2Proof.Machine.execTopk f s
  | .accept f => Sys2Proof.Machine.execAccept f s
  | .lnop f => Sys2Proof.Machine.execLnop f s
  | .runComplete k => Sys2Proof.Machine.execRunComplete k s
  | .loadLands k id units => Sys2Proof.Machine.execLoadLands k id units s
  | .storePerformed k id units => Sys2Proof.Machine.execStorePerformed k id units s
  | .copyLands k id lanes => Sys2Proof.Machine.execCopyLands k id lanes s
  | .tloadPieceLands k id units => Sys2Proof.Machine.execTloadPieceLands k id units s
  | .tstorePerformed k id units => Sys2Proof.Machine.execTstorePerformed k id units s
  | .fetchLands k id lanes => Sys2Proof.Machine.execFetchLands k id lanes s
  | .kvldLands k id => Sys2Proof.Machine.execKvldLands k id s
  | .cbloadCompletes k id => Sys2Proof.Machine.execCbloadCompletes k id s
  | .mmaCommit k => Sys2Proof.Machine.execMmaCommit k s
  | .notifyWrite func queue value => Sys2Proof.Machine.execNotifyWrite func queue value s
  | .registerWrite func r value => Sys2Proof.Machine.execRegisterWrite func r value s
  | .launchAcceptance queue => Sys2Proof.Machine.execLaunchAcceptance queue s
  | .barrierPacketStart queue => Sys2Proof.Machine.execBarrierPacketStart queue s
  | .dependenceRecheck queue => Sys2Proof.Machine.execDependenceRecheck queue s
  | .deviceQueueTake ctx => Sys2Proof.Machine.execDeviceQueueTake ctx s
  | .fabricLaunchPacket srcPkg srcCtx queue approved packet => Sys2Proof.Machine.execFabricLaunchPacket srcPkg srcCtx queue approved packet s
  | .peerAccess srcPkg srcCtx addr op => Sys2Proof.Machine.execPeerAccess srcPkg srcCtx addr op s
  | .hostAccess target op => Sys2Proof.Machine.execHostAccess target op s
  | .dispatcherDraw die seq => Sys2Proof.Machine.execDispatcherDraw die seq s
  | .workgroupAdmission die seq => Sys2Proof.Machine.execWorkgroupAdmission die seq s
  | .coresidentAdmission seq order => Sys2Proof.Machine.execCoresidentAdmission seq order s
  | .workgroupRetirement wid => Sys2Proof.Machine.execWorkgroupRetirement wid s
  | .walkComplete k id => Sys2Proof.Machine.execWalkComplete k id s
  | .replay k id => Sys2Proof.Machine.execReplay k id s
  | .decline k id => Sys2Proof.Machine.execDecline k id s
  | .shootdown io cmd => Sys2Proof.Machine.execShootdown io cmd s
  | .shootdownAcknowledge io => Sys2Proof.Machine.execShootdownAcknowledge io s
  | .moveCommand io cmd => Sys2Proof.Machine.execMoveCommand io cmd s
  | .ladderCommand io cmd => Sys2Proof.Machine.execLadderCommand io cmd s
  | .saveRungStart io pool => Sys2Proof.Machine.execSaveRungStart io pool s
  | .quiesceLimitExpiry io pool => Sys2Proof.Machine.execQuiesceLimitExpiry io pool s
  | .saveDeadlineExpiry io pool => Sys2Proof.Machine.execSaveDeadlineExpiry io pool s
  | .resumeCommand io cmd => Sys2Proof.Machine.execResumeCommand io cmd s
  | .workgroupResumption pool area die => Sys2Proof.Machine.execWorkgroupResumption pool area die s
  | .debugCrewResume k => Sys2Proof.Machine.execDebugCrewResume k s
  | .kill ctx => Sys2Proof.Machine.execKill ctx s
  | .contextActivate ctx part tenant desc => Sys2Proof.Machine.execContextActivate ctx part tenant desc s
  | .contextChange ctx debug devq => Sys2Proof.Machine.execContextChange ctx debug devq s
  | .contextRelease ctx => Sys2Proof.Machine.execContextRelease ctx s
  | .releaseSweepDone ctx => Sys2Proof.Machine.execReleaseSweepDone ctx s
  | .regionTableWrite index entry => Sys2Proof.Machine.execRegionTableWrite index entry s
  | .keySlotWrite index key => Sys2Proof.Machine.execKeySlotWrite index key s
  | .queueActivate queue desc => Sys2Proof.Machine.execQueueActivate queue desc s
  | .functionLevelReset func => Sys2Proof.Machine.execFunctionLevelReset func s
  | .packageReset flash => Sys2Proof.Machine.execPackageReset flash s
  | .getVersion => Sys2Proof.Machine.execGetVersion s
  | .getCapabilities => Sys2Proof.Machine.execGetCapabilities s
  | .negotiateAlgorithms hash sign => Sys2Proof.Machine.execNegotiateAlgorithms hash sign s
  | .getDigests => Sys2Proof.Machine.execGetDigests s
  | .getCertificate slot => Sys2Proof.Machine.execGetCertificate slot s
  | .challenge nonce => Sys2Proof.Machine.execChallenge nonce s
  | .getMeasurements => Sys2Proof.Machine.execGetMeasurements s
  | .pluginTimeLimit tenant => Sys2Proof.Machine.execPluginTimeLimit tenant s
  | .pluginRestart tenant => Sys2Proof.Machine.execPluginRestart tenant s
  | .hedgehogScrub array die core region line bad => Sys2Proof.Machine.execHedgehogScrub array die core region line bad s
  | .errorWindowExpiry io => Sys2Proof.Machine.execErrorWindowExpiry io s
  | .partitionResize part cores => Sys2Proof.Machine.execPartitionResize part cores s
  | .thermalLimit die => Sys2Proof.Machine.execThermalLimit die s
  | .thermalCooled die => Sys2Proof.Machine.execThermalCooled die s
  | .linkTrainingFailure link => Sys2Proof.Machine.execLinkTrainingFailure link s
  | .illop w0 w1 w2 => Sys2Proof.Machine.execIllop w0 w1 w2 s
  | .queueDisable queue => Sys2Proof.Machine.execQueueDisable queue s
  | .coreWorldChange die core secure => Sys2Proof.Machine.execCoreWorldChange die core secure s
  | .pluginWindowViolation tenant addr => Sys2Proof.Machine.execPluginWindowViolation tenant addr s
  | .pin pteAddr take => Sys2Proof.Machine.execPin pteAddr take s
  | .dieCacheWriteBack line => Sys2Proof.Machine.execDieCacheWriteBack line s
  | .burrowWriteBack ctx leaf => Sys2Proof.Machine.execBurrowWriteBack ctx leaf s

end Sys2Proof.Machine
end

