-- ==== Sys2Proof/Machine/Turns.lean ====
section
/-! DEFINITION. What a turn of each kind does: a scalar stream's or a lane stream's next instruction, or an event; and the
placing of an instruction where the next step fetches it. -/

namespace Sys2Proof.Machine

/-- An event of the machine that no crew issues (95). -/
def isTurnEvent (i : Instr) : Bool := i.isEvent && !(match i with | .illop .. => true | _ => false)

/-- An instruction that a stream has fetched runs; in a fused grid as the fused code holds it (R249). -/
def State.runFetched (s : State) (w : Workgroup) (c : Crew) (stream : Stream) (i : Instr) : Result :=
  let g := s.gridOf w
  match g.beyond c stream i with
  | (false, false) => exec (g.fusedForm c stream i) s
  | (v, t) =>
    match exec (g.fusedForm c stream i) { s with beyondV := v, beyondT := t } with
    | .next u => .next { u with beyondV := false, beyondT := false }
    | r => r

/-- What a fetch leads to: its instruction runs, or the fetch waits, walks or is
held. -/
def State.onFetched (s : State) (k : CrewKey) (w : Workgroup) (c : Crew) (stream : Stream) (f : Fetched) : Result :=
  match f with
  | .instr i => s.runFetched w c stream i
  | .wait => .next s
  | .miss va => .next (s.issueMiss k stream .ex va)
  | .held code va => .next (s.holdFetch k stream code va)

/-- The turn of a scalar stream: its next instruction issues, if the stream may issue. -/
def State.scalarTurn (s : State) (k : CrewKey) : Result :=
  match s.find k with
  | none => .next s
  | some (w, c0) =>
    let c := ((s.gridOf w).relocate c0).readRun (s.codeWord w) ((s.gridOf w).laneForm c0)
    if s.mayIssue w c .scalar && !c.scalarBusy then
      State.onFetched { s.put k w c with cur := ⟨k, .scalar⟩ } k w c .scalar (s.fetchScalar w c.side c.pc)
    else .next s

/-- The turn of a lane stream: the next lane instruction of the run in progress; the oldest queued run begins if none is. Parcels at or
above 2^52 have no translation: XLAT (R81, R137). -/
def State.laneTurn (s : State) (k : CrewKey) : Result :=
  match s.find k with
  | none => .next s
  | some (w, c0) =>
    let c := (c0.startRun ((s.gridOf w).laneBaseFor (c0.sideOf .lane))).readRun (s.codeWord w) ((s.gridOf w).laneForm c0)
    match c.prog with
    | none => .next s
    | some p =>
      if !s.mayIssue w c .lane || p.ended then .next s
      else match p.beyond with
        | some va => .next ((s.put k w c).raise k (c.sideOf .lane) .xlat (BitVec.ofNat 64 va) .lane false p.pc)
        | none => State.onFetched { s.put k w c with cur := ⟨k, .lane⟩ } k w c .lane (s.fetchLane w (c.sideOf .lane) p.pc)

/-- What needs no package: its reset, heat, links, and the host's own memory. -/
def needsNoPackage : Instr → Bool
  | .packageReset .. | .thermalCooled _ | .linkTrainingFailure _ => true
  | .hostAccess (.memory pa _) op => isHost pa && isHost (pa + opBytes op - 1)
  | _ => false

/-- What comes about while a package is in recovery: that, SPDM requests and configuration reads (R362, R363). -/
def inRecovery (i : Instr) : Bool :=
  needsNoPackage i || match i with
    | .getVersion | .getCapabilities | .negotiateAlgorithms .. | .getDigests | .getCertificate _ | .challenge _
    | .getMeasurements => true
    | .hostAccess (.config _) (.read _) => true
    | _ => false

/-- An event comes about as far as bring-up has come. -/
def State.admits (s : State) (i : Instr) : Bool :=
  match s.boot with
  | .pending => needsNoPackage i
  | .recovery => inRecovery i
  | .done => true

/-- A workgroup's code fills a line of its core's fetch cache, which takes its tag (R290); which lines and when, the spec leaves to the
core (log entry 20). -/
def State.fillLine (s : State) (wid line : Nat) : State :=
  match s.wgs.find? wid with
  | some w =>
    if line < 2 ^ 20 ∧ !w.parked then
      { s with tags := s.tags.insert (tagKey 6 w.die w.core line) ⟨w.ctx, (s.ctx w.ctx).secure⟩ }
    else s
  | none => s

/-- One turn; nothing runs before bring-up has ended (R362). -/
def State.turn (s : State) : Turn → Result
  | .scalar k => if s.boot = .done then s.scalarTurn k else .next s
  | .lane k => if s.boot = .done then s.laneTurn k else .next s
  | .event i => if isTurnEvent i && s.admits i then exec i s else .next s
  | .line wid line => .next (if s.boot = .done then s.fillLine wid line else s)

/-- The room that discards have freed is offered, core by core (R318, R350), in the order in which it came free (DESIGN CHOICE, log entry
119). An offer may restore an area that fails and so end a context and free more; no more than every core once for each context. -/
def State.offerFreed : Nat → State → State
  | 0, s => s
  | n + 1, s =>
    match s.freed with
    | [] => s
    | (die, core) :: rest => State.offerFreed n ({ s with freed := rest }.offer die core)

/-- The end of a step: what it has freed is offered. -/
def offered (r : Result) : Result :=
  match r with
  | .next s => .next { s.offerFreed (s.freed.length + Config.dies * Config.cores * s.ctxs.length) with freed := [] }
  | r => r

/-- The turn that comes next, and the state without it: the head of the agenda, else what Config.choice gives. -/
def State.nextTurn (s : State) : Option Turn × State :=
  match s.agenda with
  | t :: rest => (some t, { s with agenda := rest, tick := s.tick + 1 })
  | [] => (Config.choice s.tick, { s with tick := s.tick + 1 })

/-! Placing an instruction. -/

/-- A launch record whose one UNIFIED role starts at address 0 with one crew of width 32 and 256 lane registers; its lane
section starts at 0. -/
def placedRecord : BitVec 4096 :=
  BitVec.ofNat 4096 (
    (0x4B5A <<< 48 + 0x01 <<< 40 + 2 <<< 8)                                  -- HDR: MAGIC, VERSION, WIDTH 32
    + (1 <<< (8 * 0x018) + 1 <<< (8 * 0x01C) + 1 <<< (8 * 0x020))            -- one workgroup
    + 4096 <<< (8 * 0x024)                                                   -- SPBYTES
    + (8 + 16 <<< 8 + 4 <<< 16) <<< (8 * 0x0BC)                              -- ROLE3: 8 tiles, 4 accumulators, 4 threads
    + (256 <<< 8 + 1 <<< 17 + 1 <<< 24 + 1 <<< 31) <<< (8 * 0x0B8))          -- ROLE3: REGS, CREWS, CREWSMAX, PRESENT

/-- The crew that runs a placed instruction. -/
def placedCrew : Crew :=
  { (default : Crew) with
      role := 3, number := 0, status := .live, live := 0xF#64, nextId := 1,
      queue := [{ offset := 0, k := List.replicate 8 0, tag := 0, dests := [], side := .producer }] }

/-- A context with one grid of one workgroup, its crew at address 0 with one run queued at address 0, and the translation of
the first 64 KiB to physical address 0, and the line there on chip. It stands for a program loaded from outside (log entry 8). -/
def State.withCrew (s : State) : State :=
  { s with
    boot := .done,
    ctxs := s.ctxs.insert 0 { (default : Context) with valid := true, arenaSz := 1, hcount := 16 },
    grids := s.grids.insert 0 { (default : Grid) with copy := { (default : LaunchCopy) with record := placedRecord } },
    wgs := s.wgs.insert 0 { (default : Workgroup) with idem := true, crews := [(0, placedCrew)] },
    tlb := ⟨0, 0, { va := 0, pa := 0, size := 65536, rd := true, wr := true, ex := true }⟩ :: s.tlb,
    lines := s.lines.insert 0 { owner := some (.ctx 0), secure := s.secureAt 0, dirty := true, bytes := [] } }

/-- Little-endian bytes of an instruction from address 0 on. -/
def State.placeBytes (s : State) (n w : Nat) : State :=
  { s with lines := s.lines.modify 0 (fun l => { l with bytes := SMap.putList l.bytes 0 (leBytes n w) }) }

end Sys2Proof.Machine
end

