-- ==== Sys2Proof/Machine/Step.lean ====
section
/-! DEFINITION. One step of the machine, and an instruction placed where the next step fetches it. -/

namespace Sys2Proof.Machine

/-- One step: one turn of one stream, or one event, and the offer of what it has freed. -/
def step (s : State) : Host.Outcome State Fault Refusal :=
  match s.nextTurn with
  | (some t, s) => offered (s.turn t)
  | (none, s) => .next s

/-- The state with an instruction of nbits bits stored where the next step fetches its next instruction: up to 64 bits at
the program counter of a crew whose scalar turn is next, 96 bits at the start of the run that its lane turn begins. -/
def State.withFetchWord (s : State) (nbits w : Nat) : State :=
  let t := s.withCrew.placeBytes 12 w
  { t with agenda := [if nbits ≤ 64 then .scalar ⟨0, 0⟩ else .lane ⟨0, 0⟩] }

end Sys2Proof.Machine
end

