-- ==== Sys2Proof/Laws/Decode.lean ====
section
/-! SUPPORT. Fields of words that are written as appended fields: what the decoder reads of what the encoder writes
(06 R122 to R129). -/

namespace Sys2Proof.Laws

theorem fld_append_high {v w : Nat} (x : BitVec v) (y : BitVec w) (lo len : Nat) (h : w ≤ lo) :
    fld (x ++ y) lo len = fld x (lo - w) len := BitVec.extractLsb'_append_eq_of_le h

theorem fld_append_low {v w : Nat} (x : BitVec v) (y : BitVec w) (lo len : Nat) (h : lo + len ≤ w) :
    fld (x ++ y) lo len = fld y lo len := BitVec.extractLsb'_append_eq_of_add_le h

theorem fld_whole {w : Nat} (x : BitVec w) : fld x 0 w = x := BitVec.extractLsb'_eq_self

theorem nfld_eq_toNat_fld {w : Nat} (x : BitVec w) (lo len : Nat) : nfld x lo len = (fld x lo len).toNat := rfl

theorem flag_append_high {v w : Nat} (x : BitVec v) (y : BitVec w) (i : Nat) (h : w ≤ i) :
    flag (x ++ y) i = flag x (i - w) := by
  simp only [flag, BitVec.getLsbD_append, Nat.not_lt.2 h, if_false]

theorem flag_append_low {v w : Nat} (x : BitVec v) (y : BitVec w) (i : Nat) (h : i < w) :
    flag (x ++ y) i = flag y i := by
  simp only [flag, BitVec.getLsbD_append, h, if_true]

theorem flag_bit (b : Bool) : flag (bit b) 0 = b := by cases b <;> rfl

theorem wMajor_encReg (m : BitVec 6) (d a b : Reg) (n : BitVec 8) : wMajor (encReg m d a b n) = m := by
  unfold wMajor encReg
  simp (disch := decide) only [fld_append_high]
  exact fld_whole m

theorem wSd_encReg (m : BitVec 6) (d a b : Reg) (n : BitVec 8) : wSd (encReg m d a b n) = d := by
  unfold wSd encReg
  simp (disch := decide) only [fld_append_high, fld_append_low]
  exact fld_whole d

theorem wSa_encReg (m : BitVec 6) (d a b : Reg) (n : BitVec 8) : wSa (encReg m d a b n) = a := by
  unfold wSa encReg
  simp (disch := decide) only [fld_append_high, fld_append_low]
  exact fld_whole a

theorem wSb_encReg (m : BitVec 6) (d a b : Reg) (n : BitVec 8) : wSb (encReg m d a b n) = b := by
  unfold wSb encReg
  simp (disch := decide) only [fld_append_high, fld_append_low]
  exact fld_whole b

theorem wMinor_encReg (m : BitVec 6) (d a b : Reg) (n : BitVec 8) : wMinor (encReg m d a b n) = n := by
  unfold wMinor encReg
  simp (disch := decide) only [fld_append_low]
  exact fld_whole n

theorem fld_encReg (m : BitVec 6) (d a b : Reg) (n : BitVec 8) (lo len : Nat) (h : lo + len ≤ 8) :
    fld (encReg m d a b n) lo len = fld n lo len := by
  unfold encReg
  simp (disch := exact h) only [fld_append_low]

theorem fld_encReg_major (m : BitVec 6) (d a b : Reg) (n : BitVec 8) (lo len : Nat) (h : 26 ≤ lo) :
    fld (encReg m d a b n) lo len = fld m (lo - 26) len := by
  unfold encReg
  rw [fld_append_high _ _ _ _ (by omega), fld_append_high _ _ _ _ (by omega), fld_append_high _ _ _ _ (by omega),
    fld_append_high _ _ _ _ (by omega)]
  simp only [Nat.sub_sub]

theorem flag_encReg (m : BitVec 6) (d a b : Reg) (n : BitVec 8) (i : Nat) (h : i < 8) :
    flag (encReg m d a b n) i = flag n i := by
  unfold encReg
  simp (disch := exact h) only [flag_append_low]

/-- The three unused register fields of a word that has none. -/
theorem fld_encReg_unused (m : BitVec 6) (n : BitVec 8) : fld (encReg m 0 0 0 n) 8 18 = 0 := by
  unfold encReg
  rw [fld_append_high _ _ _ _ (by decide)]
  ext i hi
  simp only [fld, Nat.sub_self, BitVec.getElem_extractLsb', BitVec.getLsbD_append, BitVec.ofNat_eq_ofNat,
    BitVec.getLsbD_zero, BitVec.getElem_zero, Nat.zero_add]
  split
  · rfl
  · split
    · rfl
    · rw [if_pos (by omega)]

theorem cond_ofCode_code (c : Cond) : Cond.ofCode c.code = some c := by cases c <;> rfl
theorem special_ofCode_code (c : Special) : Special.ofCode c.code = some c := by cases c <;> rfl
theorem scope_ofCode_code (c : Scope) : Scope.ofCode c.code = some c := by cases c <;> rfl
theorem memClass_ofCode_code (c : MemClass) : MemClass.ofCode c.code = some c := by cases c <;> rfl
theorem fenceKind_ofCode_code (c : FenceKind) : FenceKind.ofCode c.code = some c := by cases c <;> rfl
theorem atomOp_ofCode_code (c : AtomOp) : AtomOp.ofCode c.code = some c := by cases c <;> rfl
theorem path_ofCode_code (c : Path) : Path.ofCode c.code = some c := by cases c <;> rfl

/-- An instruction that parses and is within its operand limits decodes. -/
theorem checked_ok {r : Decoded} {i : Instr} (hr : r = .ok i) (hi : i.wf = true) : checked r = .ok i := by
  subst hr; simp only [checked, hi, if_true]

theorem laneFields_encodeFields (opc : BitVec 10) (f : LaneFields) (p0 p1 p2 : Word)
    (h : encodeFields opc f = [p0, p1, p2]) : laneFields p0 p1 p2 = f ∧ fld p0 0 10 = opc := by
  obtain ⟨rfl, rfl, rfl⟩ : p0 = _ ∧ p1 = _ ∧ p2 = _ := by
    simpa only [encodeFields, List.cons.injEq, and_true, eq_comm] using h
  constructor
  · simp (disch := decide) only [laneFields, fld_append_high, fld_append_low, flag_append_high, flag_append_low,
      Nat.reduceSub, fld_whole, flag_bit]
  · simp (disch := decide) only [fld_append_low, fld_whole]

/-- The parcels of a lane instruction's fields under its opcode decode to it. -/
theorem decodeWords_encodeFields {opc : BitVec 10} {f : LaneFields} {i : Instr}
    (ho : laneOfOpcode opc f = some i) (h : i.wf = true) : decodeWords (encodeFields opc f) = .ok i := by
  obtain ⟨hf, hp⟩ := laneFields_encodeFields opc f _ _ _ rfl
  simp only [encodeFields, decodeWords, decodeLane] at *
  rw [hf, hp, ho]
  exact checked_ok rfl h

end Sys2Proof.Laws
end

