-- ==== Sys2Proof/Laws/PerInstr.lean ====
section
/-! SUPPORT. Statements made of every instruction as syntax, one lemma per constructor: its words decode back to it. -/

namespace Sys2Proof.Laws

set_option Elab.async false

set_option linter.unusedSimpArgs false
set_option linter.unusedTactic false
set_option linter.unreachableTactic false
set_option linter.unnecessarySeqFocus false

/-- The words of a well-formed instruction decode to that instruction. -/
def Roundtrip.Statement (i : Instr) : Prop := i.wf = true → decodeWords (encode i) = .ok i

namespace Roundtrip

theorem add (d a b : Reg) : Statement (.add d a b) := by
  intro h; refine checked_ok ?_ h; simp (disch := decide) only [parseScalar, decodeAlu, ifZero, wMajor_encReg, wSd_encReg, wSa_encReg,
    wSb_encReg, wMinor_encReg, nfld_eq_toNat_fld, fld_encReg, fld_encReg_unused, flag_encReg, fld_append_high,
    fld_append_low, fld_whole, flag_append_high, flag_append_low, flag_bit, BitVec.reduceToNat, Nat.reduceSub,
    cond_ofCode_code, special_ofCode_code, scope_ofCode_code, memClass_ofCode_code, fenceKind_ofCode_code,
    atomOp_ofCode_code, path_ofCode_code] <;> rfl
theorem sub (d a b : Reg) : Statement (.sub d a b) := by
  intro h; refine checked_ok ?_ h; simp (disch := decide) only [parseScalar, decodeAlu, ifZero, wMajor_encReg, wSd_encReg, wSa_encReg,
    wSb_encReg, wMinor_encReg, nfld_eq_toNat_fld, fld_encReg, fld_encReg_unused, flag_encReg, fld_append_high,
    fld_append_low, fld_whole, flag_append_high, flag_append_low, flag_bit, BitVec.reduceToNat, Nat.reduceSub,
    cond_ofCode_code, special_ofCode_code, scope_ofCode_code, memClass_ofCode_code, fenceKind_ofCode_code,
    atomOp_ofCode_code, path_ofCode_code] <;> rfl
theorem mul (d a b : Reg) : Statement (.mul d a b) := by
  intro h; refine checked_ok ?_ h; simp (disch := decide) only [parseScalar, decodeAlu, ifZero, wMajor_encReg, wSd_encReg, wSa_encReg,
    wSb_encReg, wMinor_encReg, nfld_eq_toNat_fld, fld_encReg, fld_encReg_unused, flag_encReg, fld_append_high,
    fld_append_low, fld_whole, flag_append_high, flag_append_low, flag_bit, BitVec.reduceToNat, Nat.reduceSub,
    cond_ofCode_code, special_ofCode_code, scope_ofCode_code, memClass_ofCode_code, fenceKind_ofCode_code,
    atomOp_ofCode_code, path_ofCode_code] <;> rfl
theorem mulh (d a b : Reg) : Statement (.mulh d a b) := by
  intro h; refine checked_ok ?_ h; simp (disch := decide) only [parseScalar, decodeAlu, ifZero, wMajor_encReg, wSd_encReg, wSa_encReg,
    wSb_encReg, wMinor_encReg, nfld_eq_toNat_fld, fld_encReg, fld_encReg_unused, flag_encReg, fld_append_high,
    fld_append_low, fld_whole, flag_append_high, flag_append_low, flag_bit, BitVec.reduceToNat, Nat.reduceSub,
    cond_ofCode_code, special_ofCode_code, scope_ofCode_code, memClass_ofCode_code, fenceKind_ofCode_code,
    atomOp_ofCode_code, path_ofCode_code] <;> rfl
theorem mulhu (d a b : Reg) : Statement (.mulhu d a b) := by
  intro h; refine checked_ok ?_ h; simp (disch := decide) only [parseScalar, decodeAlu, ifZero, wMajor_encReg, wSd_encReg, wSa_encReg,
    wSb_encReg, wMinor_encReg, nfld_eq_toNat_fld, fld_encReg, fld_encReg_unused, flag_encReg, fld_append_high,
    fld_append_low, fld_whole, flag_append_high, flag_append_low, flag_bit, BitVec.reduceToNat, Nat.reduceSub,
    cond_ofCode_code, special_ofCode_code, scope_ofCode_code, memClass_ofCode_code, fenceKind_ofCode_code,
    atomOp_ofCode_code, path_ofCode_code] <;> rfl
theorem div (d a b : Reg) : Statement (.div d a b) := by
  intro h; refine checked_ok ?_ h; simp (disch := decide) only [parseScalar, decodeAlu, ifZero, wMajor_encReg, wSd_encReg, wSa_encReg,
    wSb_encReg, wMinor_encReg, nfld_eq_toNat_fld, fld_encReg, fld_encReg_unused, flag_encReg, fld_append_high,
    fld_append_low, fld_whole, flag_append_high, flag_append_low, flag_bit, BitVec.reduceToNat, Nat.reduceSub,
    cond_ofCode_code, special_ofCode_code, scope_ofCode_code, memClass_ofCode_code, fenceKind_ofCode_code,
    atomOp_ofCode_code, path_ofCode_code] <;> rfl
theorem divu (d a b : Reg) : Statement (.divu d a b) := by
  intro h; refine checked_ok ?_ h; simp (disch := decide) only [parseScalar, decodeAlu, ifZero, wMajor_encReg, wSd_encReg, wSa_encReg,
    wSb_encReg, wMinor_encReg, nfld_eq_toNat_fld, fld_encReg, fld_encReg_unused, flag_encReg, fld_append_high,
    fld_append_low, fld_whole, flag_append_high, flag_append_low, flag_bit, BitVec.reduceToNat, Nat.reduceSub,
    cond_ofCode_code, special_ofCode_code, scope_ofCode_code, memClass_ofCode_code, fenceKind_ofCode_code,
    atomOp_ofCode_code, path_ofCode_code] <;> rfl
theorem rem (d a b : Reg) : Statement (.rem d a b) := by
  intro h; refine checked_ok ?_ h; simp (disch := decide) only [parseScalar, decodeAlu, ifZero, wMajor_encReg, wSd_encReg, wSa_encReg,
    wSb_encReg, wMinor_encReg, nfld_eq_toNat_fld, fld_encReg, fld_encReg_unused, flag_encReg, fld_append_high,
    fld_append_low, fld_whole, flag_append_high, flag_append_low, flag_bit, BitVec.reduceToNat, Nat.reduceSub,
    cond_ofCode_code, special_ofCode_code, scope_ofCode_code, memClass_ofCode_code, fenceKind_ofCode_code,
    atomOp_ofCode_code, path_ofCode_code] <;> rfl
theorem remu (d a b : Reg) : Statement (.remu d a b) := by
  intro h; refine checked_ok ?_ h; simp (disch := decide) only [parseScalar, decodeAlu, ifZero, wMajor_encReg, wSd_encReg, wSa_encReg,
    wSb_encReg, wMinor_encReg, nfld_eq_toNat_fld, fld_encReg, fld_encReg_unused, flag_encReg, fld_append_high,
    fld_append_low, fld_whole, flag_append_high, flag_append_low, flag_bit, BitVec.reduceToNat, Nat.reduceSub,
    cond_ofCode_code, special_ofCode_code, scope_ofCode_code, memClass_ofCode_code, fenceKind_ofCode_code,
    atomOp_ofCode_code, path_ofCode_code] <;> rfl
theorem andR (d a b : Reg) : Statement (.andR d a b) := by
  intro h; refine checked_ok ?_ h; simp (disch := decide) only [parseScalar, decodeAlu, ifZero, wMajor_encReg, wSd_encReg, wSa_encReg,
    wSb_encReg, wMinor_encReg, nfld_eq_toNat_fld, fld_encReg, fld_encReg_unused, flag_encReg, fld_append_high,
    fld_append_low, fld_whole, flag_append_high, flag_append_low, flag_bit, BitVec.reduceToNat, Nat.reduceSub,
    cond_ofCode_code, special_ofCode_code, scope_ofCode_code, memClass_ofCode_code, fenceKind_ofCode_code,
    atomOp_ofCode_code, path_ofCode_code] <;> rfl
theorem orR (d a b : Reg) : Statement (.orR d a b) := by
  intro h; refine checked_ok ?_ h; simp (disch := decide) only [parseScalar, decodeAlu, ifZero, wMajor_encReg, wSd_encReg, wSa_encReg,
    wSb_encReg, wMinor_encReg, nfld_eq_toNat_fld, fld_encReg, fld_encReg_unused, flag_encReg, fld_append_high,
    fld_append_low, fld_whole, flag_append_high, flag_append_low, flag_bit, BitVec.reduceToNat, Nat.reduceSub,
    cond_ofCode_code, special_ofCode_code, scope_ofCode_code, memClass_ofCode_code, fenceKind_ofCode_code,
    atomOp_ofCode_code, path_ofCode_code] <;> rfl
theorem xorR (d a b : Reg) : Statement (.xorR d a b) := by
  intro h; refine checked_ok ?_ h; simp (disch := decide) only [parseScalar, decodeAlu, ifZero, wMajor_encReg, wSd_encReg, wSa_encReg,
    wSb_encReg, wMinor_encReg, nfld_eq_toNat_fld, fld_encReg, fld_encReg_unused, flag_encReg, fld_append_high,
    fld_append_low, fld_whole, flag_append_high, flag_append_low, flag_bit, BitVec.reduceToNat, Nat.reduceSub,
    cond_ofCode_code, special_ofCode_code, scope_ofCode_code, memClass_ofCode_code, fenceKind_ofCode_code,
    atomOp_ofCode_code, path_ofCode_code] <;> rfl
theorem shl (d a b : Reg) : Statement (.shl d a b) := by
  intro h; refine checked_ok ?_ h; simp (disch := decide) only [parseScalar, decodeAlu, ifZero, wMajor_encReg, wSd_encReg, wSa_encReg,
    wSb_encReg, wMinor_encReg, nfld_eq_toNat_fld, fld_encReg, fld_encReg_unused, flag_encReg, fld_append_high,
    fld_append_low, fld_whole, flag_append_high, flag_append_low, flag_bit, BitVec.reduceToNat, Nat.reduceSub,
    cond_ofCode_code, special_ofCode_code, scope_ofCode_code, memClass_ofCode_code, fenceKind_ofCode_code,
    atomOp_ofCode_code, path_ofCode_code] <;> rfl
theorem shr (d a b : Reg) : Statement (.shr d a b) := by
  intro h; refine checked_ok ?_ h; simp (disch := decide) only [parseScalar, decodeAlu, ifZero, wMajor_encReg, wSd_encReg, wSa_encReg,
    wSb_encReg, wMinor_encReg, nfld_eq_toNat_fld, fld_encReg, fld_encReg_unused, flag_encReg, fld_append_high,
    fld_append_low, fld_whole, flag_append_high, flag_append_low, flag_bit, BitVec.reduceToNat, Nat.reduceSub,
    cond_ofCode_code, special_ofCode_code, scope_ofCode_code, memClass_ofCode_code, fenceKind_ofCode_code,
    atomOp_ofCode_code, path_ofCode_code] <;> rfl
theorem sra (d a b : Reg) : Statement (.sra d a b) := by
  intro h; refine checked_ok ?_ h; simp (disch := decide) only [parseScalar, decodeAlu, ifZero, wMajor_encReg, wSd_encReg, wSa_encReg,
    wSb_encReg, wMinor_encReg, nfld_eq_toNat_fld, fld_encReg, fld_encReg_unused, flag_encReg, fld_append_high,
    fld_append_low, fld_whole, flag_append_high, flag_append_low, flag_bit, BitVec.reduceToNat, Nat.reduceSub,
    cond_ofCode_code, special_ofCode_code, scope_ofCode_code, memClass_ofCode_code, fenceKind_ofCode_code,
    atomOp_ofCode_code, path_ofCode_code] <;> rfl
theorem min (d a b : Reg) : Statement (.min d a b) := by
  intro h; refine checked_ok ?_ h; simp (disch := decide) only [parseScalar, decodeAlu, ifZero, wMajor_encReg, wSd_encReg, wSa_encReg,
    wSb_encReg, wMinor_encReg, nfld_eq_toNat_fld, fld_encReg, fld_encReg_unused, flag_encReg, fld_append_high,
    fld_append_low, fld_whole, flag_append_high, flag_append_low, flag_bit, BitVec.reduceToNat, Nat.reduceSub,
    cond_ofCode_code, special_ofCode_code, scope_ofCode_code, memClass_ofCode_code, fenceKind_ofCode_code,
    atomOp_ofCode_code, path_ofCode_code] <;> rfl
theorem max (d a b : Reg) : Statement (.max d a b) := by
  intro h; refine checked_ok ?_ h; simp (disch := decide) only [parseScalar, decodeAlu, ifZero, wMajor_encReg, wSd_encReg, wSa_encReg,
    wSb_encReg, wMinor_encReg, nfld_eq_toNat_fld, fld_encReg, fld_encReg_unused, flag_encReg, fld_append_high,
    fld_append_low, fld_whole, flag_append_high, flag_append_low, flag_bit, BitVec.reduceToNat, Nat.reduceSub,
    cond_ofCode_code, special_ofCode_code, scope_ofCode_code, memClass_ofCode_code, fenceKind_ofCode_code,
    atomOp_ofCode_code, path_ofCode_code] <;> rfl
theorem minu (d a b : Reg) : Statement (.minu d a b) := by
  intro h; refine checked_ok ?_ h; simp (disch := decide) only [parseScalar, decodeAlu, ifZero, wMajor_encReg, wSd_encReg, wSa_encReg,
    wSb_encReg, wMinor_encReg, nfld_eq_toNat_fld, fld_encReg, fld_encReg_unused, flag_encReg, fld_append_high,
    fld_append_low, fld_whole, flag_append_high, flag_append_low, flag_bit, BitVec.reduceToNat, Nat.reduceSub,
    cond_ofCode_code, special_ofCode_code, scope_ofCode_code, memClass_ofCode_code, fenceKind_ofCode_code,
    atomOp_ofCode_code, path_ofCode_code] <;> rfl
theorem maxu (d a b : Reg) : Statement (.maxu d a b) := by
  intro h; refine checked_ok ?_ h; simp (disch := decide) only [parseScalar, decodeAlu, ifZero, wMajor_encReg, wSd_encReg, wSa_encReg,
    wSb_encReg, wMinor_encReg, nfld_eq_toNat_fld, fld_encReg, fld_encReg_unused, flag_encReg, fld_append_high,
    fld_append_low, fld_whole, flag_append_high, flag_append_low, flag_bit, BitVec.reduceToNat, Nat.reduceSub,
    cond_ofCode_code, special_ofCode_code, scope_ofCode_code, memClass_ofCode_code, fenceKind_ofCode_code,
    atomOp_ofCode_code, path_ofCode_code] <;> rfl
theorem slt (d a b : Reg) : Statement (.slt d a b) := by
  intro h; refine checked_ok ?_ h; simp (disch := decide) only [parseScalar, decodeAlu, ifZero, wMajor_encReg, wSd_encReg, wSa_encReg,
    wSb_encReg, wMinor_encReg, nfld_eq_toNat_fld, fld_encReg, fld_encReg_unused, flag_encReg, fld_append_high,
    fld_append_low, fld_whole, flag_append_high, flag_append_low, flag_bit, BitVec.reduceToNat, Nat.reduceSub,
    cond_ofCode_code, special_ofCode_code, scope_ofCode_code, memClass_ofCode_code, fenceKind_ofCode_code,
    atomOp_ofCode_code, path_ofCode_code] <;> rfl
theorem sltu (d a b : Reg) : Statement (.sltu d a b) := by
  intro h; refine checked_ok ?_ h; simp (disch := decide) only [parseScalar, decodeAlu, ifZero, wMajor_encReg, wSd_encReg, wSa_encReg,
    wSb_encReg, wMinor_encReg, nfld_eq_toNat_fld, fld_encReg, fld_encReg_unused, flag_encReg, fld_append_high,
    fld_append_low, fld_whole, flag_append_high, flag_append_low, flag_bit, BitVec.reduceToNat, Nat.reduceSub,
    cond_ofCode_code, special_ofCode_code, scope_ofCode_code, memClass_ofCode_code, fenceKind_ofCode_code,
    atomOp_ofCode_code, path_ofCode_code] <;> rfl
theorem seq (d a b : Reg) : Statement (.seq d a b) := by
  intro h; refine checked_ok ?_ h; simp (disch := decide) only [parseScalar, decodeAlu, ifZero, wMajor_encReg, wSd_encReg, wSa_encReg,
    wSb_encReg, wMinor_encReg, nfld_eq_toNat_fld, fld_encReg, fld_encReg_unused, flag_encReg, fld_append_high,
    fld_append_low, fld_whole, flag_append_high, flag_append_low, flag_bit, BitVec.reduceToNat, Nat.reduceSub,
    cond_ofCode_code, special_ofCode_code, scope_ofCode_code, memClass_ofCode_code, fenceKind_ofCode_code,
    atomOp_ofCode_code, path_ofCode_code] <;> rfl
theorem clz (d a : Reg) : Statement (.clz d a) := by
  intro h; refine checked_ok ?_ h; simp (disch := decide) only [parseScalar, decodeAlu, ifZero, wMajor_encReg, wSd_encReg, wSa_encReg,
    wSb_encReg, wMinor_encReg, nfld_eq_toNat_fld, fld_encReg, fld_encReg_unused, flag_encReg, fld_append_high,
    fld_append_low, fld_whole, flag_append_high, flag_append_low, flag_bit, BitVec.reduceToNat, Nat.reduceSub,
    cond_ofCode_code, special_ofCode_code, scope_ofCode_code, memClass_ofCode_code, fenceKind_ofCode_code,
    atomOp_ofCode_code, path_ofCode_code] <;> rfl
theorem popc (d a : Reg) : Statement (.popc d a) := by
  intro h; refine checked_ok ?_ h; simp (disch := decide) only [parseScalar, decodeAlu, ifZero, wMajor_encReg, wSd_encReg, wSa_encReg,
    wSb_encReg, wMinor_encReg, nfld_eq_toNat_fld, fld_encReg, fld_encReg_unused, flag_encReg, fld_append_high,
    fld_append_low, fld_whole, flag_append_high, flag_append_low, flag_bit, BitVec.reduceToNat, Nat.reduceSub,
    cond_ofCode_code, special_ofCode_code, scope_ofCode_code, memClass_ofCode_code, fenceKind_ofCode_code,
    atomOp_ofCode_code, path_ofCode_code] <;> rfl
theorem mov (d a : Reg) : Statement (.mov d a) := by
  intro h; refine checked_ok ?_ h; simp (disch := decide) only [parseScalar, decodeAlu, ifZero, wMajor_encReg, wSd_encReg, wSa_encReg,
    wSb_encReg, wMinor_encReg, nfld_eq_toNat_fld, fld_encReg, fld_encReg_unused, flag_encReg, fld_append_high,
    fld_append_low, fld_whole, flag_append_high, flag_append_low, flag_bit, BitVec.reduceToNat, Nat.reduceSub,
    cond_ofCode_code, special_ofCode_code, scope_ofCode_code, memClass_ofCode_code, fenceKind_ofCode_code,
    atomOp_ofCode_code, path_ofCode_code] <;> rfl
theorem add64 (d a b : Reg) : Statement (.add64 d a b) := by
  intro h; refine checked_ok ?_ h; simp (disch := decide) only [parseScalar, decodeAlu, ifZero, wMajor_encReg, wSd_encReg, wSa_encReg,
    wSb_encReg, wMinor_encReg, nfld_eq_toNat_fld, fld_encReg, fld_encReg_unused, flag_encReg, fld_append_high,
    fld_append_low, fld_whole, flag_append_high, flag_append_low, flag_bit, BitVec.reduceToNat, Nat.reduceSub,
    cond_ofCode_code, special_ofCode_code, scope_ofCode_code, memClass_ofCode_code, fenceKind_ofCode_code,
    atomOp_ofCode_code, path_ofCode_code] <;> rfl
theorem addi (d a : Reg) (i : BitVec 14) : Statement (.addi d a i) := by
  intro h; refine checked_ok ?_ h; simp (disch := decide) only [parseScalar, ifZero, encImm, wMajor, wSd, wSa, wSb,
    wMinor, wImm14, nfld_eq_toNat_fld, fld_append_high,
    fld_append_low, fld_whole, flag_append_high, flag_append_low, flag_bit, BitVec.reduceToNat, Nat.reduceSub,
    cond_ofCode_code, special_ofCode_code, scope_ofCode_code, memClass_ofCode_code, fenceKind_ofCode_code,
    atomOp_ofCode_code, path_ofCode_code] <;> rfl
theorem andi (d a : Reg) (i : BitVec 14) : Statement (.andi d a i) := by
  intro h; refine checked_ok ?_ h; simp (disch := decide) only [parseScalar, ifZero, encImm, wMajor, wSd, wSa, wSb,
    wMinor, wImm14, nfld_eq_toNat_fld, fld_append_high,
    fld_append_low, fld_whole, flag_append_high, flag_append_low, flag_bit, BitVec.reduceToNat, Nat.reduceSub,
    cond_ofCode_code, special_ofCode_code, scope_ofCode_code, memClass_ofCode_code, fenceKind_ofCode_code,
    atomOp_ofCode_code, path_ofCode_code] <;> rfl
theorem ori (d a : Reg) (i : BitVec 14) : Statement (.ori d a i) := by
  intro h; refine checked_ok ?_ h; simp (disch := decide) only [parseScalar, ifZero, encImm, wMajor, wSd, wSa, wSb,
    wMinor, wImm14, nfld_eq_toNat_fld, fld_append_high,
    fld_append_low, fld_whole, flag_append_high, flag_append_low, flag_bit, BitVec.reduceToNat, Nat.reduceSub,
    cond_ofCode_code, special_ofCode_code, scope_ofCode_code, memClass_ofCode_code, fenceKind_ofCode_code,
    atomOp_ofCode_code, path_ofCode_code] <;> rfl
theorem xori (d a : Reg) (i : BitVec 14) : Statement (.xori d a i) := by
  intro h; refine checked_ok ?_ h; simp (disch := decide) only [parseScalar, ifZero, encImm, wMajor, wSd, wSa, wSb,
    wMinor, wImm14, nfld_eq_toNat_fld, fld_append_high,
    fld_append_low, fld_whole, flag_append_high, flag_append_low, flag_bit, BitVec.reduceToNat, Nat.reduceSub,
    cond_ofCode_code, special_ofCode_code, scope_ofCode_code, memClass_ofCode_code, fenceKind_ofCode_code,
    atomOp_ofCode_code, path_ofCode_code] <;> rfl
theorem shli (d a : Reg) (sh : BitVec 5) : Statement (.shli d a sh) := by
  intro h; refine checked_ok ?_ h; simp (disch := decide) only [parseScalar, ifZero, encImm, wMajor, wSd, wSa, wSb,
    wMinor, wImm14, nfld_eq_toNat_fld, fld_append_high,
    fld_append_low, fld_whole, flag_append_high, flag_append_low, flag_bit, BitVec.reduceToNat, Nat.reduceSub,
    cond_ofCode_code, special_ofCode_code, scope_ofCode_code, memClass_ofCode_code, fenceKind_ofCode_code,
    atomOp_ofCode_code, path_ofCode_code] <;> rfl
theorem shri (d a : Reg) (sh : BitVec 5) : Statement (.shri d a sh) := by
  intro h; refine checked_ok ?_ h; simp (disch := decide) only [parseScalar, ifZero, encImm, wMajor, wSd, wSa, wSb,
    wMinor, wImm14, nfld_eq_toNat_fld, fld_append_high,
    fld_append_low, fld_whole, flag_append_high, flag_append_low, flag_bit, BitVec.reduceToNat, Nat.reduceSub,
    cond_ofCode_code, special_ofCode_code, scope_ofCode_code, memClass_ofCode_code, fenceKind_ofCode_code,
    atomOp_ofCode_code, path_ofCode_code] <;> rfl
theorem srai (d a : Reg) (sh : BitVec 5) : Statement (.srai d a sh) := by
  intro h; refine checked_ok ?_ h; simp (disch := decide) only [parseScalar, ifZero, encImm, wMajor, wSd, wSa, wSb,
    wMinor, wImm14, nfld_eq_toNat_fld, fld_append_high,
    fld_append_low, fld_whole, flag_append_high, flag_append_low, flag_bit, BitVec.reduceToNat, Nat.reduceSub,
    cond_ofCode_code, special_ofCode_code, scope_ofCode_code, memClass_ofCode_code, fenceKind_ofCode_code,
    atomOp_ofCode_code, path_ofCode_code] <;> rfl
theorem lui (d : Reg) (i : BitVec 20) : Statement (.lui d i) := by
  intro h; refine checked_ok ?_ h; simp (disch := decide) only [parseScalar, ifZero, encImm, wMajor, wSd, wSa, wSb,
    wMinor, wImm14, nfld_eq_toNat_fld, fld_append_high,
    fld_append_low, fld_whole, flag_append_high, flag_append_low, flag_bit, BitVec.reduceToNat, Nat.reduceSub,
    cond_ofCode_code, special_ofCode_code, scope_ofCode_code, memClass_ofCode_code, fenceKind_ofCode_code,
    atomOp_ofCode_code, path_ofCode_code] <;> rfl
theorem li (d : Reg) (i : Word) : Statement (.li d i) := by
  intro h; refine checked_ok ?_ h; simp (disch := decide) only [parseScalar, ifZero, encImm, wMajor, wSd, wSa, wSb,
    wMinor, wImm14, nfld_eq_toNat_fld, fld_append_high,
    fld_append_low, fld_whole, flag_append_high, flag_append_low, flag_bit, BitVec.reduceToNat, Nat.reduceSub,
    cond_ofCode_code, special_ofCode_code, scope_ofCode_code, memClass_ofCode_code, fenceKind_ofCode_code,
    atomOp_ofCode_code, path_ofCode_code] <;> rfl
theorem sel (d a b c : Reg) : Statement (.sel d a b c) := by
  intro h; refine checked_ok ?_ h; simp (disch := decide) only [parseScalar, ifZero, wMajor_encReg, wSd_encReg, wSa_encReg,
    wSb_encReg, wMinor_encReg, nfld_eq_toNat_fld, fld_encReg, fld_encReg_unused, flag_encReg, fld_append_high,
    fld_append_low, fld_whole, flag_append_high, flag_append_low, flag_bit, BitVec.reduceToNat, Nat.reduceSub,
    cond_ofCode_code, special_ofCode_code, scope_ofCode_code, memClass_ofCode_code, fenceKind_ofCode_code,
    atomOp_ofCode_code, path_ofCode_code] <;> rfl
theorem lea (d a b : Reg) (sh : BitVec 5) : Statement (.lea d a b sh) := by
  intro h; refine checked_ok ?_ h; simp (disch := decide) only [parseScalar, ifZero, wMajor_encReg, wSd_encReg, wSa_encReg,
    wSb_encReg, wMinor_encReg, nfld_eq_toNat_fld, fld_encReg, fld_encReg_unused, flag_encReg, fld_append_high,
    fld_append_low, fld_whole, flag_append_high, flag_append_low, flag_bit, BitVec.reduceToNat, Nat.reduceSub,
    cond_ofCode_code, special_ofCode_code, scope_ofCode_code, memClass_ofCode_code, fenceKind_ofCode_code,
    atomOp_ofCode_code, path_ofCode_code] <;> rfl
theorem bcond (c : Cond) (a b : Reg) (off : BitVec 10) : Statement (.bcond c a b off) := by
  intro h; refine checked_ok ?_ h; simp (disch := decide) only [parseScalar, ifZero, encImm, wMajor, wSd, wSa, wSb,
    wMinor, wImm14, nfld_eq_toNat_fld, fld_append_high,
    fld_append_low, fld_whole, flag_append_high, flag_append_low, flag_bit, BitVec.reduceToNat, Nat.reduceSub,
    cond_ofCode_code, special_ofCode_code, scope_ofCode_code, memClass_ofCode_code, fenceKind_ofCode_code,
    atomOp_ofCode_code, path_ofCode_code] <;> rfl
theorem jmp (off : BitVec 26) : Statement (.jmp off) := by
  intro h; refine checked_ok ?_ h; simp (disch := decide) only [parseScalar, ifZero, encImm, wMajor, wSd, wSa, wSb,
    wMinor, wImm14, nfld_eq_toNat_fld, fld_append_high,
    fld_append_low, fld_whole, flag_append_high, flag_append_low, flag_bit, BitVec.reduceToNat, Nat.reduceSub,
    cond_ofCode_code, special_ofCode_code, scope_ofCode_code, memClass_ofCode_code, fenceKind_ofCode_code,
    atomOp_ofCode_code, path_ofCode_code] <;> rfl
theorem jal (off : BitVec 26) : Statement (.jal off) := by
  intro h; refine checked_ok ?_ h; simp (disch := decide) only [parseScalar, ifZero, encImm, wMajor, wSd, wSa, wSb,
    wMinor, wImm14, nfld_eq_toNat_fld, fld_append_high,
    fld_append_low, fld_whole, flag_append_high, flag_append_low, flag_bit, BitVec.reduceToNat, Nat.reduceSub,
    cond_ofCode_code, special_ofCode_code, scope_ofCode_code, memClass_ofCode_code, fenceKind_ofCode_code,
    atomOp_ofCode_code, path_ofCode_code] <;> rfl
theorem jr (d a : Reg) : Statement (.jr d a) := by
  intro h; refine checked_ok ?_ h; simp (disch := decide) only [parseScalar, ifZero, encImm, wMajor, wSd, wSa, wSb,
    wMinor, wImm14, nfld_eq_toNat_fld, fld_append_high,
    fld_append_low, fld_whole, flag_append_high, flag_append_low, flag_bit, BitVec.reduceToNat, Nat.reduceSub,
    cond_ofCode_code, special_ofCode_code, scope_ofCode_code, memClass_ofCode_code, fenceKind_ofCode_code,
    atomOp_ofCode_code, path_ofCode_code] <;> rfl
theorem loop (a : Reg) (off : BitVec 10) : Statement (.loop a off) := by
  intro h; refine checked_ok ?_ h; simp (disch := decide) only [parseScalar, ifZero, encImm, wMajor, wSd, wSa, wSb,
    wMinor, wImm14, nfld_eq_toNat_fld, fld_append_high,
    fld_append_low, fld_whole, flag_append_high, flag_append_low, flag_bit, BitVec.reduceToNat, Nat.reduceSub,
    cond_ofCode_code, special_ofCode_code, scope_ofCode_code, memClass_ofCode_code, fenceKind_ofCode_code,
    atomOp_ofCode_code, path_ofCode_code] <;> rfl
theorem lrun (a : Reg) (off : Word) : Statement (.lrun a off) := by
  intro h; refine checked_ok ?_ h; simp (disch := decide) only [parseScalar, ifZero, wMajor_encReg, wSd_encReg, wSa_encReg,
    wSb_encReg, wMinor_encReg, nfld_eq_toNat_fld, fld_encReg, fld_encReg_unused, flag_encReg, fld_append_high,
    fld_append_low, fld_whole, flag_append_high, flag_append_low, flag_bit, BitVec.reduceToNat, Nat.reduceSub,
    cond_ofCode_code, special_ofCode_code, scope_ofCode_code, memClass_ofCode_code, fenceKind_ofCode_code,
    atomOp_ofCode_code, path_ofCode_code] <;> rfl
theorem gets (d : Reg) (sp : Special) : Statement (.gets d sp) := by
  intro h; refine checked_ok ?_ h; simp (disch := decide) only [parseScalar, ifZero, wMajor_encReg, wSd_encReg, wSa_encReg,
    wSb_encReg, wMinor_encReg, nfld_eq_toNat_fld, fld_encReg, fld_encReg_unused, flag_encReg, fld_append_high,
    fld_append_low, fld_whole, flag_append_high, flag_append_low, flag_bit, BitVec.reduceToNat, Nat.reduceSub,
    cond_ofCode_code, special_ofCode_code, scope_ofCode_code, memClass_ofCode_code, fenceKind_ofCode_code,
    atomOp_ofCode_code, path_ofCode_code] <;> rfl
theorem fence (k : FenceKind) (sc : Scope) : Statement (.fence k sc) := by
  intro h; refine checked_ok ?_ h; simp (disch := decide) only [parseScalar, decodeOrdering, ifZero, wMajor_encReg, wSd_encReg, wSa_encReg,
    wSb_encReg, wMinor_encReg, nfld_eq_toNat_fld, fld_encReg, fld_encReg_unused, flag_encReg, fld_append_high,
    fld_append_low, fld_whole, flag_append_high, flag_append_low, flag_bit, BitVec.reduceToNat, Nat.reduceSub,
    cond_ofCode_code, special_ofCode_code, scope_ofCode_code, memClass_ofCode_code, fenceKind_ofCode_code,
    atomOp_ofCode_code, path_ofCode_code] <;> rfl
theorem drain (sc : Scope) : Statement (.drain sc) := by
  intro h; refine checked_ok ?_ h; simp (disch := decide) only [parseScalar, decodeOrdering, ifZero, wMajor_encReg, wSd_encReg, wSa_encReg,
    wSb_encReg, wMinor_encReg, nfld_eq_toNat_fld, fld_encReg, fld_encReg_unused, flag_encReg, fld_append_high,
    fld_append_low, fld_whole, flag_append_high, flag_append_low, flag_bit, BitVec.reduceToNat, Nat.reduceSub,
    cond_ofCode_code, special_ofCode_code, scope_ofCode_code, memClass_ofCode_code, fenceKind_ofCode_code,
    atomOp_ofCode_code, path_ofCode_code] <;> rfl
theorem sld (d a : Reg) (off : BitVec 7) (cls : MemClass) (sc : Scope) (sz : BitVec 2) : Statement (.sld d a off cls sc sz) := by
  intro h; refine checked_ok ?_ h; simp (disch := decide) only [parseScalar, decodeMemory, ifZero, encImm, wMajor, wSd, wSa, wSb,
    wMinor, wImm14, nfld_eq_toNat_fld, fld_append_high,
    fld_append_low, fld_whole, flag_append_high, flag_append_low, flag_bit, BitVec.reduceToNat, Nat.reduceSub,
    cond_ofCode_code, special_ofCode_code, scope_ofCode_code, memClass_ofCode_code, fenceKind_ofCode_code,
    atomOp_ofCode_code, path_ofCode_code] <;> rfl
theorem sst (d a : Reg) (off : BitVec 7) (cls : MemClass) (sc : Scope) (sz : BitVec 2) : Statement (.sst d a off cls sc sz) := by
  intro h; refine checked_ok ?_ h; simp (disch := decide) only [parseScalar, decodeMemory, ifZero, encImm, wMajor, wSd, wSa, wSb,
    wMinor, wImm14, nfld_eq_toNat_fld, fld_append_high,
    fld_append_low, fld_whole, flag_append_high, flag_append_low, flag_bit, BitVec.reduceToNat, Nat.reduceSub,
    cond_ofCode_code, special_ofCode_code, scope_ofCode_code, memClass_ofCode_code, fenceKind_ofCode_code,
    atomOp_ofCode_code, path_ofCode_code] <;> rfl
theorem ldk (d a : Reg) (i : BitVec 14) : Statement (.ldk d a i) := by
  intro h; refine checked_ok ?_ h; simp (disch := decide) only [parseScalar, ifZero, encImm, wMajor, wSd, wSa, wSb,
    wMinor, wImm14, nfld_eq_toNat_fld, fld_append_high,
    fld_append_low, fld_whole, flag_append_high, flag_append_low, flag_bit, BitVec.reduceToNat, Nat.reduceSub,
    cond_ofCode_code, special_ofCode_code, scope_ofCode_code, memClass_ofCode_code, fenceKind_ofCode_code,
    atomOp_ofCode_code, path_ofCode_code] <;> rfl
theorem satom (d a b : Reg) (op : AtomOp) (sc : Scope) (wide : Bool) : Statement (.satom d a b op sc wide) := by
  intro h; refine checked_ok ?_ h; simp (disch := decide) only [parseScalar, ifZero, wMajor_encReg, wSd_encReg, wSa_encReg,
    wSb_encReg, wMinor_encReg, nfld_eq_toNat_fld, fld_encReg, fld_encReg_unused, flag_encReg, fld_append_high,
    fld_append_low, fld_whole, flag_append_high, flag_append_low, flag_bit, BitVec.reduceToNat, Nat.reduceSub,
    cond_ofCode_code, special_ofCode_code, scope_ofCode_code, memClass_ofCode_code, fenceKind_ofCode_code,
    atomOp_ofCode_code, path_ofCode_code] <;> rfl
theorem binit (o : BitVec 4) (a : Reg) : Statement (.binit o a) := by
  intro h; refine checked_ok ?_ h; simp (disch := decide) only [parseScalar, decodeBarrier, ifZero, wMajor_encReg, wSd_encReg, wSa_encReg,
    wSb_encReg, wMinor_encReg, nfld_eq_toNat_fld, fld_encReg, fld_encReg_unused, flag_encReg, fld_append_high,
    fld_append_low, fld_whole, flag_append_high, flag_append_low, flag_bit, BitVec.reduceToNat, Nat.reduceSub,
    cond_ofCode_code, special_ofCode_code, scope_ofCode_code, memClass_ofCode_code, fenceKind_ofCode_code,
    atomOp_ofCode_code, path_ofCode_code] <;> rfl
theorem bexp (o : BitVec 4) (a b : Reg) : Statement (.bexp o a b) := by
  intro h; refine checked_ok ?_ h; simp (disch := decide) only [parseScalar, decodeBarrier, ifZero, wMajor_encReg, wSd_encReg, wSa_encReg,
    wSb_encReg, wMinor_encReg, nfld_eq_toNat_fld, fld_encReg, fld_encReg_unused, flag_encReg, fld_append_high,
    fld_append_low, fld_whole, flag_append_high, flag_append_low, flag_bit, BitVec.reduceToNat, Nat.reduceSub,
    cond_ofCode_code, special_ofCode_code, scope_ofCode_code, memClass_ofCode_code, fenceKind_ofCode_code,
    atomOp_ofCode_code, path_ofCode_code] <;> rfl
theorem barr (o : BitVec 4) : Statement (.barr o) := by
  intro h; refine checked_ok ?_ h; simp (disch := decide) only [parseScalar, decodeBarrier, ifZero, wMajor_encReg, wSd_encReg, wSa_encReg,
    wSb_encReg, wMinor_encReg, nfld_eq_toNat_fld, fld_encReg, fld_encReg_unused, flag_encReg, fld_append_high,
    fld_append_low, fld_whole, flag_append_high, flag_append_low, flag_bit, BitVec.reduceToNat, Nat.reduceSub,
    cond_ofCode_code, special_ofCode_code, scope_ofCode_code, memClass_ofCode_code, fenceKind_ofCode_code,
    atomOp_ofCode_code, path_ofCode_code] <;> rfl
theorem bwait (o : BitVec 4) (par : Bool) : Statement (.bwait o par) := by
  intro h; refine checked_ok ?_ h; simp (disch := decide) only [parseScalar, decodeBarrier, ifZero, wMajor_encReg, wSd_encReg, wSa_encReg,
    wSb_encReg, wMinor_encReg, nfld_eq_toNat_fld, fld_encReg, fld_encReg_unused, flag_encReg, fld_append_high,
    fld_append_low, fld_whole, flag_append_high, flag_append_low, flag_bit, BitVec.reduceToNat, Nat.reduceSub,
    cond_ofCode_code, special_ofCode_code, scope_ofCode_code, memClass_ofCode_code, fenceKind_ofCode_code,
    atomOp_ofCode_code, path_ofCode_code] <;> rfl
theorem btry (d : Reg) (o : BitVec 4) (par : Bool) : Statement (.btry d o par) := by
  intro h; refine checked_ok ?_ h; simp (disch := decide) only [parseScalar, decodeBarrier, ifZero, wMajor_encReg, wSd_encReg, wSa_encReg,
    wSb_encReg, wMinor_encReg, nfld_eq_toNat_fld, fld_encReg, fld_encReg_unused, flag_encReg, fld_append_high,
    fld_append_low, fld_whole, flag_append_high, flag_append_low, flag_bit, BitVec.reduceToNat, Nat.reduceSub,
    cond_ofCode_code, special_ofCode_code, scope_ofCode_code, memClass_ofCode_code, fenceKind_ofCode_code,
    atomOp_ofCode_code, path_ofCode_code] <;> rfl
theorem tload (t : BitVec 4) (a b z : Reg) (m : BitVec 5) (bar : Option (BitVec 4)) (off : BitVec 16) : Statement (.tload t a b z m bar off) := by
  intro h; refine checked_ok ?_ h; cases bar <;>
    simp (disch := decide) only [parseScalar, decodeTile, ifZero, encImm, wMajor, wSd, wSa, wSb,
    wMinor, wImm14, nfld_eq_toNat_fld, fld_append_high,
    fld_append_low, fld_whole, flag_append_high, flag_append_low, flag_bit, BitVec.reduceToNat, Nat.reduceSub,
    cond_ofCode_code, special_ofCode_code, scope_ofCode_code, memClass_ofCode_code, fenceKind_ofCode_code,
    atomOp_ofCode_code, path_ofCode_code] <;> rfl
theorem tstore (t : BitVec 4) (a b z : Reg) (m : BitVec 5) (off : BitVec 16) : Statement (.tstore t a b z m off) := by
  intro h; refine checked_ok ?_ h; simp (disch := decide) only [parseScalar, decodeTile, ifZero, encImm, wMajor, wSd, wSa, wSb,
    wMinor, wImm14, nfld_eq_toNat_fld, fld_append_high,
    fld_append_low, fld_whole, flag_append_high, flag_append_low, flag_bit, BitVec.reduceToNat, Nat.reduceSub,
    cond_ofCode_code, special_ofCode_code, scope_ofCode_code, memClass_ofCode_code, fenceKind_ofCode_code,
    atomOp_ofCode_code, path_ofCode_code] <;> rfl
theorem cpseal (d : Reg) (bar : Option (BitVec 4)) : Statement (.cpseal d bar) := by
  intro h; refine checked_ok ?_ h; cases bar <;>
    simp (disch := decide) only [parseScalar, ifZero, wMajor_encReg, wSd_encReg, wSa_encReg,
    wSb_encReg, wMinor_encReg, nfld_eq_toNat_fld, fld_encReg, fld_encReg_unused, flag_encReg, fld_append_high,
    fld_append_low, fld_whole, flag_append_high, flag_append_low, flag_bit, BitVec.reduceToNat, Nat.reduceSub,
    cond_ofCode_code, special_ofCode_code, scope_ofCode_code, memClass_ofCode_code, fenceKind_ofCode_code,
    atomOp_ofCode_code, path_ofCode_code] <;> rfl
theorem cpwait (a : Reg) (n : BitVec 8) : Statement (.cpwait a n) := by
  intro h; refine checked_ok ?_ h; simp (disch := decide) only [parseScalar, ifZero, wMajor_encReg, wSd_encReg, wSa_encReg,
    wSb_encReg, wMinor_encReg, nfld_eq_toNat_fld, fld_encReg, fld_encReg_unused, flag_encReg, fld_append_high,
    fld_append_low, fld_whole, flag_append_high, flag_append_low, flag_bit, BitVec.reduceToNat, Nat.reduceSub,
    cond_ofCode_code, special_ofCode_code, scope_ofCode_code, memClass_ofCode_code, fenceKind_ofCode_code,
    atomOp_ofCode_code, path_ofCode_code] <;> rfl
theorem cbload (cb : BitVec 3) (a : Reg) (e : BitVec 2) : Statement (.cbload cb a e) := by
  intro h; refine checked_ok ?_ h; simp (disch := decide) only [parseScalar, ifZero, wMajor_encReg, wSd_encReg, wSa_encReg,
    wSb_encReg, wMinor_encReg, nfld_eq_toNat_fld, fld_encReg, fld_encReg_unused, flag_encReg, fld_append_high,
    fld_append_low, fld_whole, flag_append_high, flag_append_low, flag_bit, BitVec.reduceToNat, Nat.reduceSub,
    cond_ofCode_code, special_ofCode_code, scope_ofCode_code, memClass_ofCode_code, fenceKind_ofCode_code,
    atomOp_ofCode_code, path_ofCode_code] <;> rfl
theorem waitc (p : Path) (a : Reg) : Statement (.waitc p a) := by
  intro h; refine checked_ok ?_ h; simp (disch := decide) only [parseScalar, ifZero, wMajor_encReg, wSd_encReg, wSa_encReg,
    wSb_encReg, wMinor_encReg, nfld_eq_toNat_fld, fld_encReg, fld_encReg_unused, flag_encReg, fld_append_high,
    fld_append_low, fld_whole, flag_append_high, flag_append_low, flag_bit, BitVec.reduceToNat, Nat.reduceSub,
    cond_ofCode_code, special_ofCode_code, scope_ofCode_code, memClass_ofCode_code, fenceKind_ofCode_code,
    atomOp_ofCode_code, path_ofCode_code] <;> rfl
theorem tlook (d a : Reg) : Statement (.tlook d a) := by
  intro h; refine checked_ok ?_ h; simp (disch := decide) only [parseScalar, decodeTag, ifZero, wMajor_encReg, wSd_encReg, wSa_encReg,
    wSb_encReg, wMinor_encReg, nfld_eq_toNat_fld, fld_encReg, fld_encReg_unused, flag_encReg, fld_append_high,
    fld_append_low, fld_whole, flag_append_high, flag_append_low, flag_bit, BitVec.reduceToNat, Nat.reduceSub,
    cond_ofCode_code, special_ofCode_code, scope_ofCode_code, memClass_ofCode_code, fenceKind_ofCode_code,
    atomOp_ofCode_code, path_ofCode_code] <;> rfl
theorem tfill (d a b : Reg) : Statement (.tfill d a b) := by
  intro h; refine checked_ok ?_ h; simp (disch := decide) only [parseScalar, decodeTag, ifZero, wMajor_encReg, wSd_encReg, wSa_encReg,
    wSb_encReg, wMinor_encReg, nfld_eq_toNat_fld, fld_encReg, fld_encReg_unused, flag_encReg, fld_append_high,
    fld_append_low, fld_whole, flag_append_high, flag_append_low, flag_bit, BitVec.reduceToNat, Nat.reduceSub,
    cond_ofCode_code, special_ofCode_code, scope_ofCode_code, memClass_ofCode_code, fenceKind_ofCode_code,
    atomOp_ofCode_code, path_ofCode_code] <;> rfl
theorem tdrop (a : Reg) : Statement (.tdrop a) := by
  intro h; refine checked_ok ?_ h; simp (disch := decide) only [parseScalar, decodeTag, ifZero, wMajor_encReg, wSd_encReg, wSa_encReg,
    wSb_encReg, wMinor_encReg, nfld_eq_toNat_fld, fld_encReg, fld_encReg_unused, flag_encReg, fld_append_high,
    fld_append_low, fld_whole, flag_append_high, flag_append_low, flag_bit, BitVec.reduceToNat, Nat.reduceSub,
    cond_ofCode_code, special_ofCode_code, scope_ofCode_code, memClass_ofCode_code, fenceKind_ofCode_code,
    atomOp_ofCode_code, path_ofCode_code] <;> rfl
theorem aalloc (h : BitVec 5) : Statement (.aalloc h) := by
  intro h; refine checked_ok ?_ h; simp (disch := decide) only [parseScalar, decodeAcc, ifZero, wMajor_encReg, wSd_encReg, wSa_encReg,
    wSb_encReg, wMinor_encReg, nfld_eq_toNat_fld, fld_encReg, fld_encReg_unused, flag_encReg, fld_append_high,
    fld_append_low, fld_whole, flag_append_high, flag_append_low, flag_bit, BitVec.reduceToNat, Nat.reduceSub,
    cond_ofCode_code, special_ofCode_code, scope_ofCode_code, memClass_ofCode_code, fenceKind_ofCode_code,
    atomOp_ofCode_code, path_ofCode_code] <;> rfl
theorem agrow (d : Reg) (h : BitVec 5) : Statement (.agrow d h) := by
  intro h; refine checked_ok ?_ h; simp (disch := decide) only [parseScalar, decodeAcc, ifZero, wMajor_encReg, wSd_encReg, wSa_encReg,
    wSb_encReg, wMinor_encReg, nfld_eq_toNat_fld, fld_encReg, fld_encReg_unused, flag_encReg, fld_append_high,
    fld_append_low, fld_whole, flag_append_high, flag_append_low, flag_bit, BitVec.reduceToNat, Nat.reduceSub,
    cond_ofCode_code, special_ofCode_code, scope_ofCode_code, memClass_ofCode_code, fenceKind_ofCode_code,
    atomOp_ofCode_code, path_ofCode_code] <;> rfl
theorem agrowDenial (k : CrewKey) : Statement (.agrowDenial k) := fun h => absurd h Bool.false_ne_true
theorem afree (h : BitVec 5) : Statement (.afree h) := by
  intro h; refine checked_ok ?_ h; simp (disch := decide) only [parseScalar, decodeAcc, ifZero, wMajor_encReg, wSd_encReg, wSa_encReg,
    wSb_encReg, wMinor_encReg, nfld_eq_toNat_fld, fld_encReg, fld_encReg_unused, flag_encReg, fld_append_high,
    fld_append_low, fld_whole, flag_append_high, flag_append_low, flag_bit, BitVec.reduceToNat, Nat.reduceSub,
    cond_ofCode_code, special_ofCode_code, scope_ofCode_code, memClass_ofCode_code, fenceKind_ofCode_code,
    atomOp_ofCode_code, path_ofCode_code] <;> rfl
theorem group (a : Reg) (pack : Bool) : Statement (.group a pack) := by
  intro h; refine checked_ok ?_ h; simp (disch := decide) only [parseScalar, ifZero, wMajor_encReg, wSd_encReg, wSa_encReg,
    wSb_encReg, wMinor_encReg, nfld_eq_toNat_fld, fld_encReg, fld_encReg_unused, flag_encReg, fld_append_high,
    fld_append_low, fld_whole, flag_append_high, flag_append_low, flag_bit, BitVec.reduceToNat, Nat.reduceSub,
    cond_ofCode_code, special_ofCode_code, scope_ofCode_code, memClass_ofCode_code, fenceKind_ofCode_code,
    atomOp_ofCode_code, path_ofCode_code] <;> rfl
theorem join (k : BitVec 5) (left : Bool) (a : Reg) : Statement (.join k left a) := by
  intro h; refine checked_ok ?_ h; simp (disch := decide) only [parseScalar, ifZero, wMajor_encReg, wSd_encReg, wSa_encReg,
    wSb_encReg, wMinor_encReg, nfld_eq_toNat_fld, fld_encReg, fld_encReg_unused, flag_encReg, fld_append_high,
    fld_append_low, fld_whole, flag_append_high, flag_append_low, flag_bit, BitVec.reduceToNat, Nat.reduceSub,
    cond_ofCode_code, special_ofCode_code, scope_ofCode_code, memClass_ofCode_code, fenceKind_ofCode_code,
    atomOp_ofCode_code, path_ofCode_code] <;> rfl
theorem joinc (k : BitVec 5) (left : Bool) (a : Reg) : Statement (.joinc k left a) := by
  intro h; refine checked_ok ?_ h; simp (disch := decide) only [parseScalar, ifZero, wMajor_encReg, wSd_encReg, wSa_encReg,
    wSb_encReg, wMinor_encReg, nfld_eq_toNat_fld, fld_encReg, fld_encReg_unused, flag_encReg, fld_append_high,
    fld_append_low, fld_whole, flag_append_high, flag_append_low, flag_bit, BitVec.reduceToNat, Nat.reduceSub,
    cond_ofCode_code, special_ofCode_code, scope_ofCode_code, memClass_ofCode_code, fenceKind_ofCode_code,
    atomOp_ofCode_code, path_ofCode_code] <;> rfl
theorem ssopen (d a b : Reg) : Statement (.ssopen d a b) := by
  intro h; refine checked_ok ?_ h; simp (disch := decide) only [parseScalar, decodeBurrow, ifZero, wMajor_encReg, wSd_encReg, wSa_encReg,
    wSb_encReg, wMinor_encReg, nfld_eq_toNat_fld, fld_encReg, fld_encReg_unused, flag_encReg, fld_append_high,
    fld_append_low, fld_whole, flag_append_high, flag_append_low, flag_bit, BitVec.reduceToNat, Nat.reduceSub,
    cond_ofCode_code, special_ofCode_code, scope_ofCode_code, memClass_ofCode_code, fenceKind_ofCode_code,
    atomOp_ofCode_code, path_ofCode_code] <;> rfl
theorem ssld (d a b : Reg) (t : BitVec 4) : Statement (.ssld d a b t) := by
  intro h; refine checked_ok ?_ h; simp (disch := decide) only [parseScalar, decodeBurrow, ifZero, wMajor_encReg, wSd_encReg, wSa_encReg,
    wSb_encReg, wMinor_encReg, nfld_eq_toNat_fld, fld_encReg, fld_encReg_unused, flag_encReg, fld_append_high,
    fld_append_low, fld_whole, flag_append_high, flag_append_low, flag_bit, BitVec.reduceToNat, Nat.reduceSub,
    cond_ofCode_code, special_ofCode_code, scope_ofCode_code, memClass_ofCode_code, fenceKind_ofCode_code,
    atomOp_ofCode_code, path_ofCode_code] <;> rfl
theorem ssst (d a b : Reg) (t : BitVec 4) : Statement (.ssst d a b t) := by
  intro h; refine checked_ok ?_ h; simp (disch := decide) only [parseScalar, decodeBurrow, ifZero, wMajor_encReg, wSd_encReg, wSa_encReg,
    wSb_encReg, wMinor_encReg, nfld_eq_toNat_fld, fld_encReg, fld_encReg_unused, flag_encReg, fld_append_high,
    fld_append_low, fld_whole, flag_append_high, flag_append_low, flag_bit, BitVec.reduceToNat, Nat.reduceSub,
    cond_ofCode_code, special_ofCode_code, scope_ofCode_code, memClass_ofCode_code, fenceKind_ofCode_code,
    atomOp_ofCode_code, path_ofCode_code] <;> rfl
theorem sssnap (d a b : Reg) : Statement (.sssnap d a b) := by
  intro h; refine checked_ok ?_ h; simp (disch := decide) only [parseScalar, decodeBurrow, ifZero, wMajor_encReg, wSd_encReg, wSa_encReg,
    wSb_encReg, wMinor_encReg, nfld_eq_toNat_fld, fld_encReg, fld_encReg_unused, flag_encReg, fld_append_high,
    fld_append_low, fld_whole, flag_append_high, flag_append_low, flag_bit, BitVec.reduceToNat, Nat.reduceSub,
    cond_ofCode_code, special_ofCode_code, scope_ofCode_code, memClass_ofCode_code, fenceKind_ofCode_code,
    atomOp_ofCode_code, path_ofCode_code] <;> rfl
theorem ssroll (d a b : Reg) : Statement (.ssroll d a b) := by
  intro h; refine checked_ok ?_ h; simp (disch := decide) only [parseScalar, decodeBurrow, ifZero, wMajor_encReg, wSd_encReg, wSa_encReg,
    wSb_encReg, wMinor_encReg, nfld_eq_toNat_fld, fld_encReg, fld_encReg_unused, flag_encReg, fld_append_high,
    fld_append_low, fld_whole, flag_append_high, flag_append_low, flag_bit, BitVec.reduceToNat, Nat.reduceSub,
    cond_ofCode_code, special_ofCode_code, scope_ofCode_code, memClass_ofCode_code, fenceKind_ofCode_code,
    atomOp_ofCode_code, path_ofCode_code] <;> rfl
theorem ssfork (d a b : Reg) : Statement (.ssfork d a b) := by
  intro h; refine checked_ok ?_ h; simp (disch := decide) only [parseScalar, decodeBurrow, ifZero, wMajor_encReg, wSd_encReg, wSa_encReg,
    wSb_encReg, wMinor_encReg, nfld_eq_toNat_fld, fld_encReg, fld_encReg_unused, flag_encReg, fld_append_high,
    fld_append_low, fld_whole, flag_append_high, flag_append_low, flag_bit, BitVec.reduceToNat, Nat.reduceSub,
    cond_ofCode_code, special_ofCode_code, scope_ofCode_code, memClass_ofCode_code, fenceKind_ofCode_code,
    atomOp_ofCode_code, path_ofCode_code] <;> rfl
theorem sscommit (d a b : Reg) : Statement (.sscommit d a b) := by
  intro h; refine checked_ok ?_ h; simp (disch := decide) only [parseScalar, decodeBurrow, ifZero, wMajor_encReg, wSd_encReg, wSa_encReg,
    wSb_encReg, wMinor_encReg, nfld_eq_toNat_fld, fld_encReg, fld_encReg_unused, flag_encReg, fld_append_high,
    fld_append_low, fld_whole, flag_append_high, flag_append_low, flag_bit, BitVec.reduceToNat, Nat.reduceSub,
    cond_ofCode_code, special_ofCode_code, scope_ofCode_code, memClass_ofCode_code, fenceKind_ofCode_code,
    atomOp_ofCode_code, path_ofCode_code] <;> rfl
theorem ssclose (d a : Reg) : Statement (.ssclose d a) := by
  intro h; refine checked_ok ?_ h; simp (disch := decide) only [parseScalar, decodeBurrow, ifZero, wMajor_encReg, wSd_encReg, wSa_encReg,
    wSb_encReg, wMinor_encReg, nfld_eq_toNat_fld, fld_encReg, fld_encReg_unused, flag_encReg, fld_append_high,
    fld_append_low, fld_whole, flag_append_high, flag_append_low, flag_bit, BitVec.reduceToNat, Nat.reduceSub,
    cond_ofCode_code, special_ofCode_code, scope_ofCode_code, memClass_ofCode_code, fenceKind_ofCode_code,
    atomOp_ofCode_code, path_ofCode_code] <;> rfl
theorem kvld (d a b c : Reg) (t : BitVec 4) (m : BitVec 5) : Statement (.kvld d a b c t m) := by
  intro h; refine checked_ok ?_ h; simp (disch := decide) only [parseScalar, decodeKv, ifZero, wMajor_encReg, wSd_encReg, wSa_encReg,
    wSb_encReg, wMinor_encReg, nfld_eq_toNat_fld, fld_encReg, fld_encReg_unused, flag_encReg, fld_append_high,
    fld_append_low, fld_whole, flag_append_high, flag_append_low, flag_bit, BitVec.reduceToNat, Nat.reduceSub,
    cond_ofCode_code, special_ofCode_code, scope_ofCode_code, memClass_ofCode_code, fenceKind_ofCode_code,
    atomOp_ofCode_code, path_ofCode_code] <;> rfl
theorem kvapp (d a b c : Reg) (t : BitVec 4) (m : BitVec 5) : Statement (.kvapp d a b c t m) := by
  intro h; refine checked_ok ?_ h; simp (disch := decide) only [parseScalar, decodeKv, ifZero, wMajor_encReg, wSd_encReg, wSa_encReg,
    wSb_encReg, wMinor_encReg, nfld_eq_toNat_fld, fld_encReg, fld_encReg_unused, flag_encReg, fld_append_high,
    fld_append_low, fld_whole, flag_append_high, flag_append_low, flag_bit, BitVec.reduceToNat, Nat.reduceSub,
    cond_ofCode_code, special_ofCode_code, scope_ofCode_code, memClass_ofCode_code, fenceKind_ofCode_code,
    atomOp_ofCode_code, path_ofCode_code] <;> rfl
theorem kvtrunc (a b : Reg) (m : BitVec 5) : Statement (.kvtrunc a b m) := by
  intro h; refine checked_ok ?_ h; simp (disch := decide) only [parseScalar, decodeKv, ifZero, wMajor_encReg, wSd_encReg, wSa_encReg,
    wSb_encReg, wMinor_encReg, nfld_eq_toNat_fld, fld_encReg, fld_encReg_unused, flag_encReg, fld_append_high,
    fld_append_low, fld_whole, flag_append_high, flag_append_low, flag_bit, BitVec.reduceToNat, Nat.reduceSub,
    cond_ofCode_code, special_ofCode_code, scope_ofCode_code, memClass_ofCode_code, fenceKind_ofCode_code,
    atomOp_ofCode_code, path_ofCode_code] <;> rfl
theorem kvstep (d a : Reg) (m : BitVec 5) : Statement (.kvstep d a m) := by
  intro h; refine checked_ok ?_ h; simp (disch := decide) only [parseScalar, decodeKv, ifZero, wMajor_encReg, wSd_encReg, wSa_encReg,
    wSb_encReg, wMinor_encReg, nfld_eq_toNat_fld, fld_encReg, fld_encReg_unused, flag_encReg, fld_append_high,
    fld_append_low, fld_whole, flag_append_high, flag_append_low, flag_bit, BitVec.reduceToNat, Nat.reduceSub,
    cond_ofCode_code, special_ofCode_code, scope_ofCode_code, memClass_ofCode_code, fenceKind_ofCode_code,
    atomOp_ofCode_code, path_ofCode_code] <;> rfl
theorem launch (d a : Reg) : Statement (.launch d a) := by
  intro h; refine checked_ok ?_ h; simp (disch := decide) only [parseScalar, ifZero, wMajor_encReg, wSd_encReg, wSa_encReg,
    wSb_encReg, wMinor_encReg, nfld_eq_toNat_fld, fld_encReg, fld_encReg_unused, flag_encReg, fld_append_high,
    fld_append_low, fld_whole, flag_append_high, flag_append_low, flag_bit, BitVec.reduceToNat, Nat.reduceSub,
    cond_ofCode_code, special_ofCode_code, scope_ofCode_code, memClass_ofCode_code, fenceKind_ofCode_code,
    atomOp_ofCode_code, path_ofCode_code] <;> rfl
theorem trap (code : BitVec 14) : Statement (.trap code) := by
  intro h; refine checked_ok ?_ h; simp (disch := decide) only [parseScalar, ifZero, encImm, wMajor, wSd, wSa, wSb,
    wMinor, wImm14, nfld_eq_toNat_fld, fld_append_high,
    fld_append_low, fld_whole, flag_append_high, flag_append_low, flag_bit, BitVec.reduceToNat, Nat.reduceSub,
    cond_ofCode_code, special_ofCode_code, scope_ofCode_code, memClass_ofCode_code, fenceKind_ofCode_code,
    atomOp_ofCode_code, path_ofCode_code] <;> rfl
theorem nop : Statement (.nop) := fun _ => by decide
theorem lsync : Statement (.lsync) := fun _ => by decide
theorem exit : Statement (.exit) := fun _ => by decide
theorem cwait : Statement (.cwait) := fun _ => by decide
theorem bkpt : Statement (.bkpt) := fun _ => by decide
theorem iadd (f : LaneFields) : Statement (.iadd f) := fun h => decodeWords_encodeFields rfl h
theorem iaddI (f : LaneFields) : Statement (.iaddI f) := fun h => decodeWords_encodeFields rfl h
theorem isub (f : LaneFields) : Statement (.isub f) := fun h => decodeWords_encodeFields rfl h
theorem isubI (f : LaneFields) : Statement (.isubI f) := fun h => decodeWords_encodeFields rfl h
theorem imul (f : LaneFields) : Statement (.imul f) := fun h => decodeWords_encodeFields rfl h
theorem imulI (f : LaneFields) : Statement (.imulI f) := fun h => decodeWords_encodeFields rfl h
theorem imulh (f : LaneFields) : Statement (.imulh f) := fun h => decodeWords_encodeFields rfl h
theorem imulhI (f : LaneFields) : Statement (.imulhI f) := fun h => decodeWords_encodeFields rfl h
theorem imad (f : LaneFields) : Statement (.imad f) := fun h => decodeWords_encodeFields rfl h
theorem imin (f : LaneFields) : Statement (.imin f) := fun h => decodeWords_encodeFields rfl h
theorem iminI (f : LaneFields) : Statement (.iminI f) := fun h => decodeWords_encodeFields rfl h
theorem imax (f : LaneFields) : Statement (.imax f) := fun h => decodeWords_encodeFields rfl h
theorem imaxI (f : LaneFields) : Statement (.imaxI f) := fun h => decodeWords_encodeFields rfl h
theorem iabs (f : LaneFields) : Statement (.iabs f) := fun h => decodeWords_encodeFields rfl h
theorem ineg (f : LaneFields) : Statement (.ineg f) := fun h => decodeWords_encodeFields rfl h
theorem iset (f : LaneFields) : Statement (.iset f) := fun h => decodeWords_encodeFields rfl h
theorem isetI (f : LaneFields) : Statement (.isetI f) := fun h => decodeWords_encodeFields rfl h
theorem land (f : LaneFields) : Statement (.land f) := fun h => decodeWords_encodeFields rfl h
theorem landI (f : LaneFields) : Statement (.landI f) := fun h => decodeWords_encodeFields rfl h
theorem lor (f : LaneFields) : Statement (.lor f) := fun h => decodeWords_encodeFields rfl h
theorem lorI (f : LaneFields) : Statement (.lorI f) := fun h => decodeWords_encodeFields rfl h
theorem lxor (f : LaneFields) : Statement (.lxor f) := fun h => decodeWords_encodeFields rfl h
theorem lxorI (f : LaneFields) : Statement (.lxorI f) := fun h => decodeWords_encodeFields rfl h
theorem andn (f : LaneFields) : Statement (.andn f) := fun h => decodeWords_encodeFields rfl h
theorem andnI (f : LaneFields) : Statement (.andnI f) := fun h => decodeWords_encodeFields rfl h
theorem lnot (f : LaneFields) : Statement (.lnot f) := fun h => decodeWords_encodeFields rfl h
theorem lop (f : LaneFields) : Statement (.lop f) := fun h => decodeWords_encodeFields rfl h
theorem lshl (f : LaneFields) : Statement (.lshl f) := fun h => decodeWords_encodeFields rfl h
theorem lshlI (f : LaneFields) : Statement (.lshlI f) := fun h => decodeWords_encodeFields rfl h
theorem lshr (f : LaneFields) : Statement (.lshr f) := fun h => decodeWords_encodeFields rfl h
theorem lshrI (f : LaneFields) : Statement (.lshrI f) := fun h => decodeWords_encodeFields rfl h
theorem lsra (f : LaneFields) : Statement (.lsra f) := fun h => decodeWords_encodeFields rfl h
theorem lsraI (f : LaneFields) : Statement (.lsraI f) := fun h => decodeWords_encodeFields rfl h
theorem rotl (f : LaneFields) : Statement (.rotl f) := fun h => decodeWords_encodeFields rfl h
theorem rotlI (f : LaneFields) : Statement (.rotlI f) := fun h => decodeWords_encodeFields rfl h
theorem lpopc (f : LaneFields) : Statement (.lpopc f) := fun h => decodeWords_encodeFields rfl h
theorem lclz (f : LaneFields) : Statement (.lclz f) := fun h => decodeWords_encodeFields rfl h
theorem brev (f : LaneFields) : Statement (.brev f) := fun h => decodeWords_encodeFields rfl h
theorem bfe (f : LaneFields) : Statement (.bfe f) := fun h => decodeWords_encodeFields rfl h
theorem bfi (f : LaneFields) : Statement (.bfi f) := fun h => decodeWords_encodeFields rfl h
theorem llea (f : LaneFields) : Statement (.llea f) := fun h => decodeWords_encodeFields rfl h
theorem lleaI (f : LaneFields) : Statement (.lleaI f) := fun h => decodeWords_encodeFields rfl h
theorem lsel (f : LaneFields) : Statement (.lsel f) := fun h => decodeWords_encodeFields rfl h
theorem lmov (f : LaneFields) : Statement (.lmov f) := fun h => decodeWords_encodeFields rfl h
theorem movi (f : LaneFields) : Statement (.movi f) := fun h => decodeWords_encodeFields rfl h
theorem fadd (f : LaneFields) : Statement (.fadd f) := fun h => decodeWords_encodeFields rfl h
theorem faddI (f : LaneFields) : Statement (.faddI f) := fun h => decodeWords_encodeFields rfl h
theorem fsub (f : LaneFields) : Statement (.fsub f) := fun h => decodeWords_encodeFields rfl h
theorem fsubI (f : LaneFields) : Statement (.fsubI f) := fun h => decodeWords_encodeFields rfl h
theorem fmul (f : LaneFields) : Statement (.fmul f) := fun h => decodeWords_encodeFields rfl h
theorem fmulI (f : LaneFields) : Statement (.fmulI f) := fun h => decodeWords_encodeFields rfl h
theorem ffma (f : LaneFields) : Statement (.ffma f) := fun h => decodeWords_encodeFields rfl h
theorem fmin (f : LaneFields) : Statement (.fmin f) := fun h => decodeWords_encodeFields rfl h
theorem fminI (f : LaneFields) : Statement (.fminI f) := fun h => decodeWords_encodeFields rfl h
theorem fmax (f : LaneFields) : Statement (.fmax f) := fun h => decodeWords_encodeFields rfl h
theorem fmaxI (f : LaneFields) : Statement (.fmaxI f) := fun h => decodeWords_encodeFields rfl h
theorem fset (f : LaneFields) : Statement (.fset f) := fun h => decodeWords_encodeFields rfl h
theorem fsetI (f : LaneFields) : Statement (.fsetI f) := fun h => decodeWords_encodeFields rfl h
theorem frcp (f : LaneFields) : Statement (.frcp f) := fun h => decodeWords_encodeFields rfl h
theorem frsq (f : LaneFields) : Statement (.frsq f) := fun h => decodeWords_encodeFields rfl h
theorem fsqrt (f : LaneFields) : Statement (.fsqrt f) := fun h => decodeWords_encodeFields rfl h
theorem fexp2 (f : LaneFields) : Statement (.fexp2 f) := fun h => decodeWords_encodeFields rfl h
theorem flog2 (f : LaneFields) : Statement (.flog2 f) := fun h => decodeWords_encodeFields rfl h
theorem fclass (f : LaneFields) : Statement (.fclass f) := fun h => decodeWords_encodeFields rfl h
theorem hadd2 (f : LaneFields) : Statement (.hadd2 f) := fun h => decodeWords_encodeFields rfl h
theorem hadd2I (f : LaneFields) : Statement (.hadd2I f) := fun h => decodeWords_encodeFields rfl h
theorem hmul2 (f : LaneFields) : Statement (.hmul2 f) := fun h => decodeWords_encodeFields rfl h
theorem hmul2I (f : LaneFields) : Statement (.hmul2I f) := fun h => decodeWords_encodeFields rfl h
theorem hfma2 (f : LaneFields) : Statement (.hfma2 f) := fun h => decodeWords_encodeFields rfl h
theorem cvt (f : LaneFields) : Statement (.cvt f) := fun h => decodeWords_encodeFields rfl h
theorem qnt (f : LaneFields) : Statement (.qnt f) := fun h => decodeWords_encodeFields rfl h
theorem dqt (f : LaneFields) : Statement (.dqt f) := fun h => decodeWords_encodeFields rfl h
theorem route (f : LaneFields) : Statement (.route f) := fun h => decodeWords_encodeFields rfl h
theorem routeI (f : LaneFields) : Statement (.routeI f) := fun h => decodeWords_encodeFields rfl h
theorem vote (f : LaneFields) : Statement (.vote f) := fun h => decodeWords_encodeFields rfl h
theorem redux (f : LaneFields) : Statement (.redux f) := fun h => decodeWords_encodeFields rfl h
theorem scan (f : LaneFields) : Statement (.scan f) := fun h => decodeWords_encodeFields rfl h
theorem matchL (f : LaneFields) : Statement (.matchL f) := fun h => decodeWords_encodeFields rfl h
theorem plop (f : LaneFields) : Statement (.plop f) := fun h => decodeWords_encodeFields rfl h
theorem xset (f : LaneFields) : Statement (.xset f) := fun h => decodeWords_encodeFields rfl h
theorem xsetI (f : LaneFields) : Statement (.xsetI f) := fun h => decodeWords_encodeFields rfl h
theorem xadd (f : LaneFields) : Statement (.xadd f) := fun h => decodeWords_encodeFields rfl h
theorem xaddI (f : LaneFields) : Statement (.xaddI f) := fun h => decodeWords_encodeFields rfl h
theorem xget (f : LaneFields) : Statement (.xget f) := fun h => decodeWords_encodeFields rfl h
theorem getl (f : LaneFields) : Statement (.getl f) := fun h => decodeWords_encodeFields rfl h
theorem ld (f : LaneFields) : Statement (.ld f) := fun h => decodeWords_encodeFields rfl h
theorem st (f : LaneFields) : Statement (.st f) := fun h => decodeWords_encodeFields rfl h
theorem atom (f : LaneFields) : Statement (.atom f) := fun h => decodeWords_encodeFields rfl h
theorem cpy (f : LaneFields) : Statement (.cpy f) := fun h => decodeWords_encodeFields rfl h
theorem fetch (f : LaneFields) : Statement (.fetch f) := fun h => decodeWords_encodeFields rfl h
theorem ifL (f : LaneFields) : Statement (.ifL f) := fun h => decodeWords_encodeFields rfl h
theorem elseL (f : LaneFields) : Statement (.elseL f) := fun h => decodeWords_encodeFields rfl h
theorem fi (f : LaneFields) : Statement (.fi f) := fun h => decodeWords_encodeFields rfl h
theorem doL (f : LaneFields) : Statement (.doL f) := fun h => decodeWords_encodeFields rfl h
theorem whileL (f : LaneFields) : Statement (.whileL f) := fun h => decodeWords_encodeFields rfl h
theorem brk (f : LaneFields) : Statement (.brk f) := fun h => decodeWords_encodeFields rfl h
theorem mma (f : LaneFields) : Statement (.mma f) := fun h => decodeWords_encodeFields rfl h
theorem accz (f : LaneFields) : Statement (.accz f) := fun h => decodeWords_encodeFields rfl h
theorem accrd (f : LaneFields) : Statement (.accrd f) := fun h => decodeWords_encodeFields rfl h
theorem accwr (f : LaneFields) : Statement (.accwr f) := fun h => decodeWords_encodeFields rfl h
theorem acccvt (f : LaneFields) : Statement (.acccvt f) := fun h => decodeWords_encodeFields rfl h
theorem isect (f : LaneFields) : Statement (.isect f) := fun h => decodeWords_encodeFields rfl h
theorem rand (f : LaneFields) : Statement (.rand f) := fun h => decodeWords_encodeFields rfl h
theorem sample (f : LaneFields) : Statement (.sample f) := fun h => decodeWords_encodeFields rfl h
theorem topk (f : LaneFields) : Statement (.topk f) := fun h => decodeWords_encodeFields rfl h
theorem accept (f : LaneFields) : Statement (.accept f) := fun h => decodeWords_encodeFields rfl h
theorem lnop (f : LaneFields) : Statement (.lnop f) := fun h => decodeWords_encodeFields rfl h
theorem runComplete (k : CrewKey) : Statement (.runComplete k) := fun h => absurd h Bool.false_ne_true
theorem loadLands (k : CrewKey) (id : Nat) (units : List Nat) : Statement (.loadLands k id units) := fun h => absurd h Bool.false_ne_true
theorem storePerformed (k : CrewKey) (id : Nat) (units : List Nat) : Statement (.storePerformed k id units) := fun h => absurd h Bool.false_ne_true
theorem copyLands (k : CrewKey) (id : Nat) (lanes : List Nat) : Statement (.copyLands k id lanes) := fun h => absurd h Bool.false_ne_true
theorem tloadPieceLands (k : CrewKey) (id : Nat) (units : List Nat) : Statement (.tloadPieceLands k id units) := fun h => absurd h Bool.false_ne_true
theorem tstorePerformed (k : CrewKey) (id : Nat) (units : List Nat) : Statement (.tstorePerformed k id units) := fun h => absurd h Bool.false_ne_true
theorem fetchLands (k : CrewKey) (id : Nat) (lanes : List Nat) : Statement (.fetchLands k id lanes) := fun h => absurd h Bool.false_ne_true
theorem kvldLands (k : CrewKey) (id : Nat) : Statement (.kvldLands k id) := fun h => absurd h Bool.false_ne_true
theorem cbloadCompletes (k : CrewKey) (id : Nat) : Statement (.cbloadCompletes k id) := fun h => absurd h Bool.false_ne_true
theorem mmaCommit (k : CrewKey) : Statement (.mmaCommit k) := fun h => absurd h Bool.false_ne_true
theorem notifyWrite (func queue : Nat) (value : DWord) : Statement (.notifyWrite func queue value) := fun h => absurd h Bool.false_ne_true
theorem registerWrite (func : Nat) (r : SysReg) (value : BitVec 256) : Statement (.registerWrite func r value) := fun h => absurd h Bool.false_ne_true
theorem launchAcceptance (queue : Nat) : Statement (.launchAcceptance queue) := fun h => absurd h Bool.false_ne_true
theorem barrierPacketStart (queue : Nat) : Statement (.barrierPacketStart queue) := fun h => absurd h Bool.false_ne_true
theorem dependenceRecheck (queue : Nat) : Statement (.dependenceRecheck queue) := fun h => absurd h Bool.false_ne_true
theorem deviceQueueTake (ctx : Nat) : Statement (.deviceQueueTake ctx) := fun h => absurd h Bool.false_ne_true
theorem fabricLaunchPacket (srcPkg srcCtx queue : Nat) (approved : Bool) (packet : List Byte) : Statement (.fabricLaunchPacket srcPkg srcCtx queue approved packet) := fun h => absurd h Bool.false_ne_true
theorem peerAccess (srcPkg srcCtx addr : Nat) (op : BusOp) : Statement (.peerAccess srcPkg srcCtx addr op) := fun h => absurd h Bool.false_ne_true
theorem hostAccess (target : HostTarget) (op : BusOp) : Statement (.hostAccess target op) := fun h => absurd h Bool.false_ne_true
theorem dispatcherDraw (die seq : Nat) : Statement (.dispatcherDraw die seq) := fun h => absurd h Bool.false_ne_true
theorem workgroupAdmission (die seq : Nat) : Statement (.workgroupAdmission die seq) := fun h => absurd h Bool.false_ne_true
theorem coresidentAdmission (seq : Nat) (order : List Nat) : Statement (.coresidentAdmission seq order) := fun h => absurd h Bool.false_ne_true
theorem workgroupRetirement (wid : Nat) : Statement (.workgroupRetirement wid) := fun h => absurd h Bool.false_ne_true
theorem walkComplete (k : CrewKey) (id : Nat) : Statement (.walkComplete k id) := fun h => absurd h Bool.false_ne_true
theorem replay (k : CrewKey) (id : Nat) : Statement (.replay k id) := fun h => absurd h Bool.false_ne_true
theorem decline (k : CrewKey) (id : Nat) : Statement (.decline k id) := fun h => absurd h Bool.false_ne_true
theorem shootdown (io : Nat) (cmd : BitVec 128) : Statement (.shootdown io cmd) := fun h => absurd h Bool.false_ne_true
theorem shootdownAcknowledge (io : Nat) : Statement (.shootdownAcknowledge io) := fun h => absurd h Bool.false_ne_true
theorem moveCommand (io : Nat) (cmd : BitVec 256) : Statement (.moveCommand io cmd) := fun h => absurd h Bool.false_ne_true
theorem ladderCommand (io : Nat) (cmd : BitVec 256) : Statement (.ladderCommand io cmd) := fun h => absurd h Bool.false_ne_true
theorem saveRungStart (io pool : Nat) : Statement (.saveRungStart io pool) := fun h => absurd h Bool.false_ne_true
theorem quiesceLimitExpiry (io pool : Nat) : Statement (.quiesceLimitExpiry io pool) := fun h => absurd h Bool.false_ne_true
theorem saveDeadlineExpiry (io pool : Nat) : Statement (.saveDeadlineExpiry io pool) := fun h => absurd h Bool.false_ne_true
theorem resumeCommand (io : Nat) (cmd : BitVec 128) : Statement (.resumeCommand io cmd) := fun h => absurd h Bool.false_ne_true
theorem workgroupResumption (pool area die : Nat) : Statement (.workgroupResumption pool area die) := fun h => absurd h Bool.false_ne_true
theorem debugCrewResume (k : CrewKey) : Statement (.debugCrewResume k) := fun h => absurd h Bool.false_ne_true
theorem kill (ctx : Nat) : Statement (.kill ctx) := fun h => absurd h Bool.false_ne_true
theorem contextActivate (ctx part tenant : Nat) (desc : BitVec 512) : Statement (.contextActivate ctx part tenant desc) := fun h => absurd h Bool.false_ne_true
theorem contextChange (ctx : Nat) (debug : Bool) (devq : DWord) : Statement (.contextChange ctx debug devq) := fun h => absurd h Bool.false_ne_true
theorem contextRelease (ctx : Nat) : Statement (.contextRelease ctx) := fun h => absurd h Bool.false_ne_true
theorem releaseSweepDone (ctx : Nat) : Statement (.releaseSweepDone ctx) := fun h => absurd h Bool.false_ne_true
theorem regionTableWrite (index : Nat) (entry : BitVec 128) : Statement (.regionTableWrite index entry) := fun h => absurd h Bool.false_ne_true
theorem keySlotWrite (index : Nat) (key : BitVec 512) : Statement (.keySlotWrite index key) := fun h => absurd h Bool.false_ne_true
theorem queueActivate (queue : Nat) (desc : BitVec 320) : Statement (.queueActivate queue desc) := fun h => absurd h Bool.false_ne_true
theorem functionLevelReset (func : Nat) : Statement (.functionLevelReset func) := fun h => absurd h Bool.false_ne_true
theorem packageReset (flash : Option (List FlashImage)) : Statement (.packageReset flash) := fun h => absurd h Bool.false_ne_true
theorem getVersion : Statement (.getVersion) := fun h => absurd h Bool.false_ne_true
theorem getCapabilities : Statement (.getCapabilities) := fun h => absurd h Bool.false_ne_true
theorem negotiateAlgorithms (hash sign : Nat) : Statement (.negotiateAlgorithms hash sign) := fun h => absurd h Bool.false_ne_true
theorem getDigests : Statement (.getDigests) := fun h => absurd h Bool.false_ne_true
theorem getCertificate (slot : Nat) : Statement (.getCertificate slot) := fun h => absurd h Bool.false_ne_true
theorem challenge (nonce : BitVec 256) : Statement (.challenge nonce) := fun h => absurd h Bool.false_ne_true
theorem getMeasurements : Statement (.getMeasurements) := fun h => absurd h Bool.false_ne_true
theorem pluginTimeLimit (tenant : Nat) : Statement (.pluginTimeLimit tenant) := fun h => absurd h Bool.false_ne_true
theorem pluginRestart (tenant : Nat) : Statement (.pluginRestart tenant) := fun h => absurd h Bool.false_ne_true
theorem hedgehogScrub (array : SramArray) (die core region : Nat) (line : Nat) (bad : Nat) : Statement (.hedgehogScrub array die core region line bad) := fun h => absurd h Bool.false_ne_true
theorem errorWindowExpiry (io : Nat) : Statement (.errorWindowExpiry io) := fun h => absurd h Bool.false_ne_true
theorem partitionResize (part : Nat) (cores : List (Nat × Nat)) : Statement (.partitionResize part cores) := fun h => absurd h Bool.false_ne_true
theorem thermalLimit (die : Nat) : Statement (.thermalLimit die) := fun h => absurd h Bool.false_ne_true
theorem thermalCooled (die : Nat) : Statement (.thermalCooled die) := fun h => absurd h Bool.false_ne_true
theorem linkTrainingFailure (link : Nat) : Statement (.linkTrainingFailure link) := fun h => absurd h Bool.false_ne_true
theorem illop (w0 w1 w2 : Word) : Statement (.illop w0 w1 w2) := fun h => absurd h Bool.false_ne_true
theorem queueDisable (queue : Nat) : Statement (.queueDisable queue) := fun h => absurd h Bool.false_ne_true
theorem coreWorldChange (die core : Nat) (secure : Bool) : Statement (.coreWorldChange die core secure) := fun h => absurd h Bool.false_ne_true
theorem pluginWindowViolation (tenant addr : Nat) : Statement (.pluginWindowViolation tenant addr) := fun h => absurd h Bool.false_ne_true
theorem pin (pteAddr : Nat) (take : Bool) : Statement (.pin pteAddr take) := fun h => absurd h Bool.false_ne_true
theorem dieCacheWriteBack (line : Nat) : Statement (.dieCacheWriteBack line) := fun h => absurd h Bool.false_ne_true
theorem burrowWriteBack (ctx leaf : Nat) : Statement (.burrowWriteBack ctx leaf) := fun h => absurd h Bool.false_ne_true

end Roundtrip

end Sys2Proof.Laws
end

