-- ==== Sys2Proof/Safety.lean ====
section
/-! DEFINITION. What counts as a sound state and a safe step, and the conditions and effects that the statements speak of. -/

namespace Sys2Proof

open Machine

/-- Physical memory is in its canonical form. -/
def MemoryCanonical (s : State) : Prop := Memory.wf s.mem

/-- CXL memory is populated in whole lines (R290, R328). -/
def WholeLines (s : State) : Prop := s.cxlBytes % 256 = 0

/-- The step neither faults nor is refused. -/
def StepSafe (s : State) : Prop := ∃ t, step s = .next t

/-- Grids are listed by rising acceptance number, each below the next one, as is that of a fused grid's consumer (R306). -/
def NumbersBelow (s : State) : Prop :=
  SMap.Sorted s.grids ∧ ∀ e ∈ s.grids, e.1 < s.seq ∧ ∀ f, e.2.fused = some f → f.seq < s.seq

/-- The instruction is issued by a crew: it is no event of the machine. -/
def Issued (i : Instr) : Prop := isTurnEvent i = false

/-! Scalar instructions. -/

/-- Crew `c` of workgroup `w` is the one that the running instruction acts for. -/
def Issuing (s : State) (w : Workgroup) (c : Crew) : Prop := s.issuer = some (w, c)

/-- Nothing but the crew that issues changes: it becomes `c'` in workgroup `w`. -/
def Becomes (i : Instr) (s : State) (w : Workgroup) (c' : Crew) : Prop := exec i s = .next (s.put s.cur.key w c')

/-- `c'` is `c` with `v` in scalar register d, which is full; writing s0 changes nothing. -/
structure ScalarWritten (c c' : Crew) (d : Reg) (v : Word) : Prop where
  value : c'.s d = if d = 0 then 0 else v
  isFull : c'.full d = true
  others : ∀ r, r ≠ d → c'.s r = c.s r ∧ c'.full r = c.full r
  rest : { c' with sreg := c.sreg, sTag := c.sTag } = c

/-- A scalar instruction of 4 bytes that writes `val` of its issuing crew to sd, and does nothing else, once its sources are
full; a source that is empty keeps it where it stands (R46, R138). -/
def ScalarResult (i : Instr) (d : Reg) (srcs : List Reg) (val : Crew → Word) : Prop :=
  ∀ s w c, Issuing s w c →
    ((∀ r ∈ srcs, c.full r = true) → ∃ c', ScalarWritten c c' d (val c) ∧ Becomes i s w (c'.advance 4)) ∧
    ((∃ r ∈ srcs, c.full r = false) → exec i s = .next s)

/-! Lane instructions. -/

/-- A lane instruction neither waits nor traps at issue by the generic checks of R173: its executing set is not empty, its
registers are in range and in their windows, and its sources are full. -/
structure LaneReady (s : State) (p : LaneSpec) (f : LaneFields) (w : Workgroup) (c : Crew) : Prop where
  issuer : Issuing s w c
  role : p.badRole = false
  direct : p.badDirect = false
  whole : p.collective = true → c.executing f = laneMask (s.width w)
  active : c.executing f ≠ 0
  inRange : ∀ n ∈ [0, 1, 2, 3], (operandAt p.instr f n).outOfRegs (s.regsOf w c) (p.group n) = false
  inWindow : ∀ n ∈ [0, 1, 2, 3], (operandAt p.instr f n).outOfWindow c (c.executing f) (p.group n) = false
  sourcesFull : ∀ n ∈ [1, 2, 3], (operandAt p.instr f n).empty c (c.executing f) (p.group n) = false
  destFull : p.readsDest = true → (operandAt p.instr f 0).empty c (c.executing f) (p.group 0) = false

/-- The state once the issuing crew has become `c'` and its run has passed the instruction (R21, R137): the run goes on behind it, or
ends with it; one that would end with a structure still open takes ILLOP after the instruction's own effect, which is in `c'`. -/
def Passed (s : State) (w : Workgroup) (c' : Crew) (f : LaneFields) : State :=
  if f.eor = true ∧ c'.run.frames ≠ [] then
    (s.put s.cur.key w c').raise s.cur.key (c'.sideOf .lane) .illop 0 .lane false c'.run.pc
  else s.put s.cur.key w { c' with prog := some { c'.run.skip 12 with ended := f.eor } }

/-- `c'` is `c` with `val l` in register `dst l` of every lane l of `e`, full there; nothing else changes. -/
structure LanesWritten (c c' : Crew) (e : Mask) (dst : Nat → Nat) (val : Nat → Word) : Prop where
  value : ∀ l, flag e l = true → c'.v (dst l) l = val l ∧ c'.vFull (dst l) l = true
  others : ∀ r l, l < 64 → (flag e l = false ∨ r ≠ dst l) → c'.v r l = c.v r l ∧ c'.vFull r l = c.vFull r l
  rest : { c' with vreg := c.vreg, vTag := c.vTag } = c

/-- How the frame of R173 sees a lane instruction that crew `c` of workgroup `w` issues; none for structured control, the lane NOP and
what is no lane instruction, which it does not concern. -/
def laneSpecOf (s : State) (w : Workgroup) (c : Crew) (i : Instr) : Option LaneSpec :=
  let matrix := fun (ts : List Nat) (groups : Nat × Nat × Nat × Nat) => some
    { LaneSpec.plain i with badRole := !c.mayMatrix, badDirect := ts.any (fun t => decide (s.tileLimit w ≤ t)), collective := true,
                            groups := groups }
  let whole := fun (groups : Nat × Nat × Nat × Nat) => some { LaneSpec.plain i with collective := true, groups := groups }
  match i with
  | .ifL _ | .elseL _ | .fi _ | .doL _ | .whileL _ | .brk _ | .lnop _ => none
  | .getl f => some { LaneSpec.plain i with groups := if f.special = .cycles then (2, 1, 1, 1) else (1, 1, 1, 1) }
  | .ld f => some { LaneSpec.plain i with groups := (memGroup (memBytes f.subop), 1, 1, 1) }
  | .st f => some { LaneSpec.plain i with groups := (memGroup (memBytes f.subop), 1, 1, 1), readsDest := true }
  | .atom f => (AtomOp.ofCode f.subop).map (fun op => { LaneSpec.plain i with readsDest := decide (op = .cas) })
  | .cpy _ => some { LaneSpec.plain i with badRole := !c.mayCopy, readsDest := true }
  | .fetch _ => some { LaneSpec.plain i with groups := (3, 1, 1, 1) }
  | .qnt f | .dqt f => some { LaneSpec.plain i with collective := decide (f.subop = 1) }
  | .mma f => matrix [f.srca.toNat, f.srcb.toNat] (1, 1, 1, 1)
  | .acccvt f => matrix [f.dest.toNat] (1, 1, 1, 1)
  | .accz _ => matrix [] (1, 1, 1, 1)
  | .accrd _ => matrix [] (8, 1, 1, 1)
  | .accwr _ => matrix [] (1, 8, 1, 1)
  | .matchL _ => whole (if s.width w = 64 then (2, 1, 1, 1) else (1, 1, 1, 1))
  | .topk _ => whole (2, 1, 1, 1)
  | .sample f => whole (1, max f.simm.toNat 1, 1, 1)
  | .accept _ | .isect _ => whole (1, 1, 1, 1)
  | .rand _ => some { LaneSpec.plain i with groups := (4, 1, 1, 1) }
  | i => (laneFieldsOf i).map (fun _ => LaneSpec.plain i)

/-- The value of source `n` in lane l. -/
def source (i : Instr) (f : LaneFields) (c : Crew) (n l : Nat) : Word := (operandAt i f n).value c l

/-- The destination register in lane l. -/
def destination (i : Instr) (f : LaneFields) (c : Crew) (l : Nat) : Nat := (operandAt i f 0).regIn c l

/-- A lane instruction that writes `val` to its destination in every lane of its executing set, and does nothing else. -/
def LaneResult (con : LaneFields → Instr) (val : State → Workgroup → Crew → LaneFields → Nat → Word) : Prop :=
  ∀ s f w c, LaneReady s (.plain (con f)) f w c →
    ∃ c', LanesWritten c c' (c.executing f) (destination (con f) f c) (val s w c f) ∧ exec (con f) s = .next (Passed s w c' f)

/-- The same of an operation on the values of its sources a, b and c. -/
def LaneComputes (con : LaneFields → Instr) (g : LaneFields → Word → Word → Word → Word) : Prop :=
  LaneResult con (fun _ _ c f l => g f (source (con f) f c 1 l) (source (con f) f c 2 l) (source (con f) f c 3 l))

/-- The same of a form I instruction, whose source b is parcel 2 (R132). -/
def LaneComputesImm (con : LaneFields → Instr) (g : LaneFields → Word → Word → Word) : Prop :=
  LaneResult con (fun _ _ c f l => g f (source (con f) f c 1 l) f.p2)

/-- Both forms of a two-source operation. -/
def LaneComputes2 (con conI : LaneFields → Instr) (g : LaneFields → Word → Word → Word) : Prop :=
  LaneComputes con (fun f a b _ => g f a b) ∧ LaneComputesImm conI g

/-- `c'` is `c` with predicate n holding `val l` in every lane l of `e`; p7 stays true everywhere, and nothing else changes. -/
structure PredicateWritten (c c' : Crew) (e : Mask) (n : Nat) (val : Nat → Bool) : Prop where
  value : ∀ l, l < 64 → flag (c'.pred n) l = if n % 8 = 7 then true else if flag e l then val l else flag (c.pred n) l
  others : ∀ m, m % 8 ≠ n % 8 → c'.pred m = c.pred m
  rest : { c' with preds := c.preds } = c

/-- A lane instruction that writes a predicate in its executing set, and does nothing else. -/
def PredicateResult (con : LaneFields → Instr) (val : Crew → LaneFields → Nat → Bool) : Prop :=
  ∀ s f w c, LaneReady s (.plain (con f)) f w c →
    ∃ c', PredicateWritten c c' (c.executing f) f.dest.toNat (val c f) ∧ exec (con f) s = .next (Passed s w c' f)

/-- The run of `c'` holds `v` for scalar register r as the value to write when it completes (R147); s0 takes none. -/
def ResultHeld (c c' : Crew) (r : Nat) (v : Word) : Prop :=
  if r = 0 then c' = c
  else c' = { c with prog := some { c.run with results := c'.run.results } } ∧ c'.run.results.get r = 1#1 ++ v
    ∧ ∀ q, q ≠ r → c'.run.results.get q = c.run.results.get q

/-- A lane instruction whose one effect is a lane-to-scalar result in register `r`. -/
def ScalarFromLanes (con : LaneFields → Instr) (spec : LaneFields → LaneSpec)
    (val : State → Workgroup → Crew → LaneFields → Word) : Prop :=
  ∀ s f w c, LaneReady s (spec f) f w c →
    ∃ c', ResultHeld c c' f.dest.toNat (val s w c f) ∧ exec (con f) s = .next (Passed s w c' f)

/-! Exceptions. -/

/-- The running instruction traps with `code`: the machine goes on in the state that taking that exception gives (R333,
R334). -/
def Traps (i : Instr) (s : State) (code : FaultCode) (detail : DWord) : Prop := exec i s = trap s code detail

/-- No work of context `ctx` is left: no workgroup, no grid, no ladder, its queues DISABLED and its device queue off (R342). -/
structure Stopped (s : State) (ctx : Nat) : Prop where
  noWorkgroup : ∀ e ∈ s.wgs, e.2.ctx ≠ ctx
  noGrid : ∀ e ∈ s.grids, e.2.ctx ≠ ctx
  noLadder : ∀ l ∈ s.ladders, l.ctx ≠ ctx
  queuesOff : ∀ e ∈ s.queues, e.2.ctx.toNat = ctx → e.2.state = .disabled
  deviceOff : (s.ctxs.find? ctx).isSome = true → (s.ctx ctx).devOff = true

/-! Memory. -/

/-- What context `c` reads at every address outside `n` bytes from `pa` is as before. -/
def ReadsAsBefore (s t : State) (c pa n : Nat) : Prop := ∀ a, (a < pa ∨ pa + n ≤ a) → t.readByte c a = s.readByte c a

/-- The parts of the machine that only its firmware, its monitor and its registers change stay as they are (R292, R294, R296,
R309). -/
structure SystemKept (s t : State) : Prop where
  regions : t.regions = s.regions
  keys : t.keys = s.keys
  cores : t.secureCores = s.secureCores
  apertures : t.apertures = s.apertures
  fabric : t.fabric = s.fabric
  windows : t.windows = s.windows
  images : t.images = s.images
  fused : t.keyHash = s.keyHash ∧ t.rollback = s.rollback ∧ t.bootRom = s.bootRom

end Sys2Proof
end

