-- ==== Sys2Proof/Certificates/Slice0/Obligations.lean ====
section
/-! DEFINITION. The statements for the provers, each named for what it states. -/

open Sys2Proof Sys2Proof.Machine


/-! The machine as a whole. -/

/-- R288, R292, R296, R299, R309, R327, R359: at reset no context, region, aperture or fabric entry is valid, no queue is other
than DISABLED, the error window is 100 ms and its threshold 16. Memory is in its canonical form and no grid exists. That the
command registers of R327 and R366 read 1 is the model's choice, for the spec gives them no reset value (log entries 6 and
74). -/
def Obligations.ResetLeavesEverythingInvalid : Prop :=
  MemoryCanonical State.reset ∧ WholeLines State.reset ∧ NumbersBelow State.reset
  ∧ (∀ n, (State.reset.ctx n).valid = false) ∧ (∀ n, (State.reset.regions.get n).valid = false)
  ∧ (∀ n, flag (State.reset.apertures.get n) 63 = false) ∧ (∀ n, flag (State.reset.fabric.get n) 63 = false)
  ∧ (∀ n, (State.reset.queues.get n).state = .disabled)
  ∧ State.reset.windowMs = 100 ∧ State.reset.thresh = 16
  ∧ (∀ io, State.reset.shootReg io = 1) ∧ (∀ io, State.reset.resumeValue io = 1)

/-- Physical memory stays in its canonical form over every step, and CXL memory populated in whole lines. -/
def Obligations.MemoryStaysCanonical : Prop :=
  ∀ (s t : State), MemoryCanonical s → WholeLines s → step s = .next t → MemoryCanonical t ∧ WholeLines t

/-- R306: acceptance numbers are taken in order, so that every grid has one below the next; every step keeps it. -/
def Obligations.AcceptanceNumbersStayBelow : Prop := ∀ (s t : State), NumbersBelow s → step s = .next t → NumbersBelow t

/-- What the package has sent out is never withdrawn: every step appends to it, a package reset included. -/
def Obligations.MessagesAreNeverWithdrawn : Prop := ∀ (s t : State), step s = .next t → ∃ ms, t.out = s.out ++ ms

/-- No data and no instruction ends a run: every state, reachable or not, has a next state. -/
def Obligations.EveryStepGoesOn : Prop := ∀ s, StepSafe s

/-- R292, R294, R296, R309: no instruction that a crew issues changes the region table, the worlds of cores, the keys, the
apertures, the fabric table or the plug-in windows, whatever it traps into. -/
def Obligations.CrewsCannotTouchSystemTables : Prop :=
  ∀ (i : Instr) (s t : State), Issued i → exec i s = .next t → SystemKept s t

/-- The words of every well-formed instruction decode to it, with every operand at every value its encoding admits. -/
def Obligations.DecodeReadsWhatEncodeWrites : Prop := ∀ i, Laws.Roundtrip.Statement i

/-- Words that the spec writes out beside their fields decode to the instructions they stand for: R145, R151, R152, R153, R157,
R159, R160, R167, R169, R190, R204, R205, R222, R241. -/
def Obligations.SpecWordsDecode : Prop :=
  decodeWords [0x509003FC] = .ok (.loop 9 0x3FC)
  ∧ decodeWords [0xFC000001] = .ok .lsync
  ∧ decodeWords [0x6440000F] = .ok (.gets 4 .cycles)
  ∧ decodeWords [0x8D428208] = .ok (.satom 20 10 2 .add .dev false)
  ∧ decodeWords [0x68000004] = .ok (.fence .rel .dev)
  ∧ decodeWords [0x68000020] = .ok (.fence .ar .crew)
  ∧ decodeWords [0x68000044] = .ok (.drain .dev)
  ∧ decodeWords [0xA4310510, 0x88C00000] = .ok (.tload 3 4 5 6 2 (some 1) 0)
  ∧ decodeWords [0xAC900012] = .ok (.cpseal 9 (some 2))
  ∧ decodeWords [0xB0000005] = .ok (.cpwait 0 5)
  ∧ decodeWords [0xDC430000] = .ok (.launch 4 12)
  ∧ decodeWords [0xF8000123] = .ok (.trap 0x123)
  ∧ (∃ f, decodeWords [0x08201C61, 0x50000504, 0x04000208] = .ok (.st f) ∧ f.dest = 8 ∧ f.srca = 4 ∧ f.srcb = 5
      ∧ f.mslot = 1 ∧ f.off16 = 2 ∧ f.guard = 7)
  ∧ (∃ f, decodeWords [0x05001C71, 0, 0] = .ok (.accz f) ∧ f.dest = 5)
  ∧ (∃ f, decodeWords [0x10001C72, 0x60000003, 0] = .ok (.accrd f) ∧ f.dest = 16 ∧ f.srca = 3 ∧ f.subop = 6)
  ∧ (∃ f, decodeWords [0x08001C54, 3, 0] = .ok (.matchL f) ∧ f.dest = 8 ∧ f.srca = 3)
  ∧ (∃ f, decodeWords [0x08001C79, 0, 3] = .ok (.rand f) ∧ f.dest = 8 ∧ f.simm = 3)

/-- R17, R19, R128, R136, R137: a turn of the scalar stream of a live crew whose grid is not fused runs the instruction that
the word or the two words at its program counter decode to, through the translation its die has cached, in the state with
that turn taken; a turn of the lane stream runs the instruction of the three parcels at the run's address; one or two words, or parcels,
that do not decode run as the row ILLOP. A run that has gone beyond 2^52 raises XLAT, for its parcels have no translation (R81).
Before its turn a queued run that could not be read to its end is read on (`Crew.readRun`, log entry 27); at its end the step offers the
room that discards in it have freed, core by core (R318, R350; the order is the model's choice, log entry 119), so that none is left to
offer. That a turn decodes memory as it stands at that step (log entry 79), and that the second word stands at the address after modulo
2^52 (log entry 83), are the model's choices. -/
def Obligations.StepRunsTheDecodedInstruction : Prop :=
  (∀ (s : State) (k : CrewKey) (w : Workgroup) (c : Crew) (rest : List Turn),
    s.boot = .done → s.find k = some (w, c) → (s.gridOf w).fused = none →
    let word := fun (pa : Nat) => BitVec.ofNat 32 (leNat (s.readBytes w.ctx pa 4))
    let read := c.readRun (s.codeWord w) ((s.gridOf w).laneForm c)
    let next := ({ s with agenda := rest, tick := s.tick + 1 } : State).put k w read
    let taken := fun (st : Stream) => { next with cur := ⟨k, st⟩ }
    (∀ pa, s.agenda = .scalar k :: rest → s.mayIssue w read .scalar = true → read.scalarBusy = false →
      s.xlate w.die w.ctx .ex read.pc.toNat = .ok pa →
      (isLongMajor (wMajor (word pa)).toNat = false →
        (∀ i, decodeWords [word pa] = .ok i → step s = offered (exec i (taken .scalar)))
        ∧ (∀ r, decodeWords [word pa] = .reject r → step s = offered (exec (.illop (word pa) 0 0) (taken .scalar))))
      ∧ (∀ pa1, isLongMajor (wMajor (word pa)).toNat = true → s.xlate w.die w.ctx .ex (read.pc + 4).toNat = .ok pa1 →
        (∀ i, decodeWords [word pa, word pa1] = .ok i → step s = offered (exec i (taken .scalar)))
        ∧ (∀ r, decodeWords [word pa, word pa1] = .reject r → step s = offered (exec (.illop (word pa) (word pa1) 0) (taken .scalar)))))
    ∧ (∀ p, s.agenda = .lane k :: rest → c.prog = some p → p.ended = false → s.mayIssue w read .lane = true →
      (∀ pa pa1 pa2, p.past = false → p.pc.toNat + 12 ≤ 2 ^ 52 →
        s.xlate w.die w.ctx .ex p.pc.toNat = .ok pa → s.xlate w.die w.ctx .ex (p.pc.toNat + 4) = .ok pa1 →
        s.xlate w.die w.ctx .ex (p.pc.toNat + 8) = .ok pa2 →
        (∀ i, decodeWords ([pa, pa1, pa2].map word) = .ok i → step s = offered (exec i (taken .lane)))
        ∧ (∀ r, decodeWords ([pa, pa1, pa2].map word) = .reject r → step s = offered (exec (.illop (word pa) (word pa1) (word pa2)) (taken .lane))))
      ∧ (p.past = true → step s =
          offered (.next (next.raise k (read.sideOf .lane) .xlat (BitVec.ofNat 64 (2 ^ 52 + p.pc.toNat)) .lane false p.pc))))
    ∧ ((∀ r ∈ c.queue, r.rest = none) → read = c))
  ∧ (∀ t : State, t.freed = [] → offered (.next t) = .next t)
  ∧ (∀ (t u : State) (die core : Nat), t.freed = [(die, core)] → u = ({ t with freed := [] } : State).offer die core → u.freed = [] →
      offered (.next t) = .next u)
  ∧ (∀ s t : State, s.freed = [] → step s = .next t → t.freed = [])

/-- R290, R294, R295: what an owner writes to a byte that its world reaches (R293) it reads back, and every other byte it reads as before,
whoever owned the line and wherever it stood, and whether its access puts the line on chip or not; once a context has written a line of
local memory on chip, every other context reads the line's bytes as zero. CXL memory is populated in whole lines. That a secure access
reaches lines of both worlds is the model's reading (log entry 106); a region of the die cache whose fault is lasting takes no line
(R359). -/
def Obligations.WritesAreReadByTheirContextAlone : Prop :=
  (∀ (s : State) (o : Owner) (alloc : Bool) (a : Nat) (b : Byte) (x : Nat), WholeLines s →
    (s.worldOf o = true ∨ s.secureAt a = false) →
    (s.writeAs o alloc a b).readAs o x = if x = a then b else s.readAs o x)
  ∧ (∀ (s : State) (c d a : Nat) (b : Byte) (x : Nat), s.isLocal a = true → s.isLocal x = true → x / 256 = a / 256 → d ≠ c →
    s.takesLine (a / 256) = true → (s.writeByte c a b).readByte d x = 0)

/-- R293: a host access through the package that touches any byte of the secure world is answered with Unsupported Request, and
nothing else changes. That so is one that touches a byte outside local memory, or behind a port that is down, is the model's
reading (log entry 58). -/
def Obligations.HostCannotReachTheSecureWorld : Prop :=
  ∀ (s : State) (pa : Nat) (ctx : Option Nat) (op : BusOp) (i : Nat), s.downLinks.contains 0 = false → i < opBytes op →
    (isHost pa && isHost (pa + opBytes op - 1)) = false →
    (s.secureAt (pa + i) = true ∨ s.isLocal (pa + i) = false ∨ s.reachable (pa + i) = false) →
    exec (.hostAccess (.memory pa ctx) op) s = .next (s.send (.host none))

/-! Scalar instructions. -/

/-- R142, whole: DIV and REM round the quotient toward zero, DIVU and REMU are unsigned; a divisor of zero and the overflowing
quotient give the table's values, and division never traps. -/
def Obligations.DivisionRoundsTowardZero : Prop :=
  ∀ d a b : Reg,
    ScalarResult (.div d a b) d [a, b]
      (fun c => if c.s b = 0 then 0xFFFFFFFF#32 else BitVec.ofInt 32 ((c.s a).toInt.tdiv (c.s b).toInt))
  ∧ ScalarResult (.divu d a b) d [a, b]
      (fun c => if c.s b = 0 then 0xFFFFFFFF#32 else BitVec.ofNat 32 ((c.s a).toNat / (c.s b).toNat))
  ∧ ScalarResult (.rem d a b) d [a, b]
      (fun c => if c.s b = 0 then c.s a else BitVec.ofInt 32 ((c.s a).toInt.tmod (c.s b).toInt))
  ∧ ScalarResult (.remu d a b) d [a, b]
      (fun c => if c.s b = 0 then c.s a else BitVec.ofNat 32 ((c.s a).toNat % (c.s b).toNat))

/-- R141, R143: the register arithmetic of the scalar stream but for division; immediates, LI with its second word, SEL, LEA,
and ADD64 on pairs, of which s0:s1 reads as zero. -/
def Obligations.ScalarResultsAreThoseOfTheTables : Prop :=
  ∀ (d a b e : Reg) (imm : BitVec 14) (sh : BitVec 5),
    ScalarResult (.add d a b) d [a, b] (fun c => c.s a + c.s b)
  ∧ ScalarResult (.sub d a b) d [a, b] (fun c => c.s a - c.s b)
  ∧ ScalarResult (.mul d a b) d [a, b] (fun c => c.s a * c.s b)
  ∧ ScalarResult (.mulh d a b) d [a, b] (fun c => BitVec.ofInt 32 ((c.s a).toInt * (c.s b).toInt / 2 ^ 32))
  ∧ ScalarResult (.mulhu d a b) d [a, b] (fun c => BitVec.ofNat 32 ((c.s a).toNat * (c.s b).toNat / 2 ^ 32))
  ∧ ScalarResult (.andR d a b) d [a, b] (fun c => c.s a &&& c.s b)
  ∧ ScalarResult (.orR d a b) d [a, b] (fun c => c.s a ||| c.s b)
  ∧ ScalarResult (.xorR d a b) d [a, b] (fun c => c.s a ^^^ c.s b)
  ∧ ScalarResult (.shl d a b) d [a, b] (fun c => c.s a <<< ((c.s b).toNat % 32))
  ∧ ScalarResult (.shr d a b) d [a, b] (fun c => c.s a >>> ((c.s b).toNat % 32))
  ∧ ScalarResult (.sra d a b) d [a, b] (fun c => (c.s a).sshiftRight ((c.s b).toNat % 32))
  ∧ ScalarResult (.min d a b) d [a, b] (fun c => if (c.s a).toInt < (c.s b).toInt then c.s a else c.s b)
  ∧ ScalarResult (.max d a b) d [a, b] (fun c => if (c.s a).toInt < (c.s b).toInt then c.s b else c.s a)
  ∧ ScalarResult (.minu d a b) d [a, b] (fun c => if (c.s a).toNat < (c.s b).toNat then c.s a else c.s b)
  ∧ ScalarResult (.maxu d a b) d [a, b] (fun c => if (c.s a).toNat < (c.s b).toNat then c.s b else c.s a)
  ∧ ScalarResult (.slt d a b) d [a, b] (fun c => if (c.s a).toInt < (c.s b).toInt then 1 else 0)
  ∧ ScalarResult (.sltu d a b) d [a, b] (fun c => if (c.s a).toNat < (c.s b).toNat then 1 else 0)
  ∧ ScalarResult (.seq d a b) d [a, b] (fun c => if c.s a = c.s b then 1 else 0)
  ∧ ScalarResult (.mov d a) d [a] (fun c => c.s a)
  ∧ ScalarResult (.popc d a) d [a] (fun c => BitVec.ofNat 32 ((List.range 32).countP (fun n => flag (c.s a) n)))
  ∧ ScalarResult (.addi d a imm) d [a] (fun c => c.s a + BitVec.ofInt 32 imm.toInt)
  ∧ ScalarResult (.andi d a imm) d [a] (fun c => c.s a &&& BitVec.ofInt 32 imm.toInt)
  ∧ ScalarResult (.ori d a imm) d [a] (fun c => c.s a ||| BitVec.ofInt 32 imm.toInt)
  ∧ ScalarResult (.xori d a imm) d [a] (fun c => c.s a ^^^ BitVec.ofInt 32 imm.toInt)
  ∧ ScalarResult (.shli d a sh) d [a] (fun c => c.s a <<< sh.toNat)
  ∧ ScalarResult (.shri d a sh) d [a] (fun c => c.s a >>> sh.toNat)
  ∧ ScalarResult (.srai d a sh) d [a] (fun c => (c.s a).sshiftRight sh.toNat)
  ∧ (∀ up : BitVec 20, ScalarResult (.lui d up) d [] (fun _ => up ++ 0#12))
  ∧ ScalarResult (.sel d a b e) d [a, b, e] (fun c => if c.s e = 0 then c.s b else c.s a)
  ∧ ScalarResult (.lea d a b sh) d [a, b] (fun c => c.s a + c.s b <<< sh.toNat)
  ∧ (∀ (s : State) (w : Workgroup) (c : Crew) (v : Word), Issuing s w c → ∃ c', ScalarWritten c c' d v ∧ Becomes (.li d v) s w (c'.advance 8))
  ∧ (∀ (s : State) (w : Workgroup) (c : Crew), Issuing s w c → c.allFull (pairOf a ++ pairOf b) = true →
      Becomes (.add64 d a b) s w
        (((c.setS d (fld (c.s2 a + c.s2 b) 0 32)).setS d.odd (fld (c.s2 a + c.s2 b) 32 32)).advance 4))
  ∧ ∃ lz : Word → Nat, (lz 0 = 32) ∧ (∀ x, x ≠ 0 → lz x < 32 ∧ 2 ^ (31 - lz x) ≤ x.toNat ∧ x.toNat < 2 ^ (32 - lz x))
      ∧ ScalarResult (.clz d a) d [a] (fun c => BitVec.ofNat 32 (lz (c.s a)))

/-- R128, R144, R145: where the scalar stream goes. Branch and jump offsets count words from the instruction; JR stays in its 4 GiB;
JAL and JR write the fall-through address; LOOP counts down and is taken while the count is not zero. That targets and fall-through
addresses are taken modulo 2^52 is the model's choice (log entry 83). -/
def Obligations.ControlFlowGoesWhereTheRulesSay : Prop :=
  ∀ (s : State) (w : Workgroup) (c : Crew), Issuing s w c → ∀ (d a b : Reg) (o10 : BitVec 10) (o26 : BitVec 26) (cond : Cond),
    (c.full a = true → c.full b = true →
      exec (.bcond cond a b o10) s = .next (s.put s.cur.key w { c with
        pc := if condHolds cond (c.s a) (c.s b) then c.pc + BitVec.ofInt 52 (4 * o10.toInt) else c.pc + 4 }))
  ∧ exec (.jmp o26) s = .next (s.put s.cur.key w { c with pc := c.pc + BitVec.ofInt 52 (4 * o26.toInt) })
  ∧ (∃ c', ScalarWritten c c' 1 (BitVec.ofNat 32 (c.pc + 4).toNat)
      ∧ exec (.jal o26) s = .next (s.put s.cur.key w { c' with pc := c.pc + BitVec.ofInt 52 (4 * o26.toInt) }))
  ∧ (c.full a = true → (c.s a).toNat % 4 = 0 → ∃ c', ScalarWritten c c' d (BitVec.ofNat 32 (c.pc + 4).toNat)
      ∧ exec (.jr d a) s = .next (s.put s.cur.key w { c' with
          pc := BitVec.ofNat 52 (c.pc.toNat / 2 ^ 32 * 2 ^ 32 + (c.s a).toNat) }))
  ∧ (c.full a = true → (c.s a).toNat % 4 ≠ 0 → Traps (.jr d a) s .align 0)
  ∧ (c.full a = true → ∃ c', ScalarWritten c c' a (c.s a - 1)
      ∧ exec (.loop a o10) s = .next (s.put s.cur.key w { c' with
          pc := if c.s a = 1 then c.pc + 4 else c.pc + BitVec.ofInt 52 (4 * o10.toInt) }))

/-- R54, R111, R140, R148, R152, R153, R162, R168, R169: the instructions that order, wait, read a special or end a crew, where they
have nothing to wait for. A fence leaves what is not performed yet before every later access of both streams, but for a store before a
later load; FENCE.rel waits for no access (the model's reading, log entry 25). The count that `cycles` reads is the clock last read and
what has elapsed since (log entry 5). BKPT with DEBUG 1 reports BREAKPOINT and halts the crew after it. What `crew`, `ncrews` and `tid`
read after a lower crew has ended is log entry 13. -/
def Obligations.ScalarSystemInstructionsComplete : Prop :=
  ∀ (s : State) (w : Workgroup) (c : Crew), Issuing s w c → ∀ (d a : Reg) (sp : Special) (p : Path) (sc : Scope),
    Becomes .nop s w (c.advance 4)
  ∧ ((s.ctx w.ctx).debug = false → Becomes .bkpt s w (c.advance 4))
  ∧ ((s.ctx w.ctx).debug = true → ∃ r, exec .bkpt s =
      .next (({ s with out := s.out ++ [.report (w.ctx % 2) r] } : State).put s.cur.key w { c.advance 4 with status := .halted })
      ∧ fld r 0 8 = 0x21 ∧ flag r 10 = false ∧ fld r 64 52 = c.pc ∧ nfld r 16 8 = w.ctx % 256)
  ∧ (c.drained = true → Becomes .lsync s w (c.afterRuns.advance 4))
  ∧ (let reads := fun (x : Access) => x.fenced && !x.kind.onlyStores
     let after := { c.crossing with
       orderS := c.keepOrder c.orderS reads, orderL := c.keepOrder c.orderL reads, orderW := c.keepOrder c.orderW Access.fenced }
     (c.drained = true → Becomes (.fence .rel sc) s w (after.advance 4))
     ∧ (c.drained = true → (∀ x ∈ c.flying, x.done = true ∨ x.fenced = false) → Becomes (.fence .ar sc) s w (after.advance 4))
     ∧ (c.drained = true → (∀ x ∈ c.flying, x.done = true ∨ fenceWaits .acq x = false) → Becomes (.fence .acq sc) s w (after.advance 4)))
  ∧ (c.drained = true → (∀ x ∈ c.flying, x.done = false → x.cls ≠ .nt) → Becomes (.drain sc) s w (c.advance 4))
  ∧ (c.full a = true → c.queue = [] → c.counter p ≤ (c.s a).toNat → Becomes (.waitc p a) s w (c.advance 4))
  ∧ (c.full a = true → c.queue = [] → 63 ≤ (c.s a).toNat → Becomes (.waitc p a) s w (c.advance 4))
  ∧ (c.drained = true → (s.gridOf w).fused = none → ∃ c', Becomes .exit s w c' ∧ c'.status = .retired ∧ c'.sreg = c.sreg
      ∧ c'.vreg = c.vreg ∧ c'.sTag = [] ∧ c'.vTag = [] ∧ c'.pending = [] ∧ c'.flying = c.flying)
  ∧ (w.children = [] → Becomes .cwait s w ({ c with waitKids := none }.advance 4))
  ∧ (c.waitKids = none → (∃ n ∈ w.children, n < w.launched) → Becomes .cwait s w { c with waitKids := some w.launched })
  ∧ (sp ≠ .cycles → sp ≠ .jcur → ∃ c', ScalarWritten c c' d (BitVec.ofNat 32 (s.special w c c.side sp)) ∧ Becomes (.gets d sp) s w (c'.advance 4))
  ∧ Becomes (.gets d .jcur) s w ((c.setS2 d (w.jcur.get c.role.toNat)).advance 4)
  ∧ (∃ v, v = s.cycles.get (56 * w.die + w.core) + Config.elapsed s.tick ∧ exec (.gets d .cycles) s =
      .next (({ s with cycles := s.cycles.put (56 * w.die + w.core) v } : State).put s.cur.key w ((c.setS2 d v).advance 4)))

/-- R136, R169, R332 to R334: TRAP and undecodable words take an exception, a triple of parcels in the lane stream too: the machine goes on
in the state that the shared operation gives, with the code, the detail, the stream and the program counter of the instruction. -/
def Obligations.TrapsTakeTheirException : Prop :=
  ∀ (s : State) (w : Workgroup) (c : Crew), Issuing s w c → ∀ (code : BitVec 14) (w0 w1 w2 : Word),
    (s.cur.stream = .scalar → exec (.trap code) s = .next (s.raise s.cur.key c.side .trap (code.zeroExtend 64) .scalar false c.pc)
      ∧ exec (.illop w0 w1 w2) s = .next (s.raise s.cur.key c.side .illop 0 .scalar false c.pc))
  ∧ (∀ p, s.cur.stream = .lane → c.prog = some p →
      exec (.illop w0 w1 w2) s = .next (s.raise s.cur.key (c.sideOf .lane) .illop 0 .lane false p.pc))

/-- R333, R334: with DEBUG 1 a crew that raises a fault halts with its program counters at the instruction, every other crew
and all of memory stay as they are, and one report goes to the context's I/O die: CODE in byte 0, ORIGIN, LANE and INFLIGHT in
byte 1, CTXID in byte 2, the program counter from byte 8, DETAIL from byte 16. A halted crew that the scheduler resumes is
live again at the same program counters, with nothing held; where a population instruction has halted it, the crews of its role
that stand halted with it run again together (R23). -/
def Obligations.DebugHaltsACrewUntilItIsResumed : Prop :=
  (∀ (s : State) (k : CrewKey) (w : Workgroup) (c : Crew) (code : FaultCode) (detail : DWord) (stream : Stream) (inflight : Bool) (pc : Addr),
      s.find k = some (w, c) → (s.ctx w.ctx).debug = true → code ≠ .stpoison →
      ∃ r t, s.raise k (c.sideOf stream) code detail stream inflight pc = t
        ∧ t = { (s.put k w { c with status := .halted }) with out := s.out ++ [.report (w.ctx % 2) r] }
        ∧ fld r 0 8 = code.code ∧ flag r 8 = true ∧ flag r 9 = decide (stream = .lane) ∧ flag r 10 = inflight
        ∧ nfld r 16 8 = w.ctx % 256 ∧ fld r 64 52 = pc ∧ fld r 128 64 = detail)
  ∧ (∀ (s : State) (k : CrewKey) (w : Workgroup) (c : Crew), s.find k = some (w, c) → c.status = .halted → c.joint = false →
    ∃ c', exec (.debugCrewResume k) s = .next (s.put k w c') ∧ c'.status = .live ∧ c'.pc = c.pc ∧ c'.prog = c.prog
      ∧ c'.fetchHeld = [] ∧ (∀ a ∈ c'.flying, a.isHeld = false) ∧ c'.sreg = c.sreg ∧ c'.vreg = c.vreg)
  ∧ (∀ (s : State) (k : CrewKey) (w : Workgroup) (c : Crew), s.find k = some (w, c) → c.status = .halted → c.joint = true →
    ∃ w', exec (.debugCrewResume k) s = .next (s.putWg k.wid w') ∧ { w' with crews := w.crews } = w
      ∧ ∀ n x, w.crews.find? n = some x → ∃ x', w'.crews.find? n = some x'
          ∧ (if x.role = c.role ∧ x.status = .halted ∧ x.joint = true then x'.status = .live ∧ x'.pc = x.pc ∧ x'.fetchHeld = []
             else x' = x))

/-- R332, R334, R342: with DEBUG 0 a fault other than STPOISON ends its context: nothing of its work is left, its queues are
DISABLED, and the grids and workgroups of the others stay as they are. A workgroup that launched a grid of the context ends its
wait for it; launching grids are of the context itself (R34). -/
def Obligations.WithoutDebugAFaultEndsItsContext : Prop :=
  ∀ (s : State) (k : CrewKey) (w : Workgroup) (c : Crew) (code : FaultCode) (detail : DWord) (stream : Stream) (inflight : Bool) (pc : Addr),
    s.find k = some (w, c) → (s.ctx w.ctx).debug = false → code ≠ .stpoison → NumbersBelow s → ∀ t,
    t = s.raise k (c.sideOf stream) code detail stream inflight pc →
    Stopped t w.ctx
    ∧ (∀ e ∈ s.grids, e.2.ctx ≠ w.ctx → e ∈ t.grids)
    ∧ (∀ e ∈ s.wgs, e.2.ctx ≠ w.ctx →
        (∀ g ∈ s.grids, g.2.ctx = w.ctx → (∀ p, g.2.parent = some p → p.wid ≠ e.1)
          ∧ ∀ f p, g.2.fused = some f → f.parent = some p → p.wid ≠ e.1) → e ∈ t.wgs)
    ∧ (∀ e ∈ s.wgs, e.2.ctx ≠ w.ctx → ∃ v, (e.1, v) ∈ t.wgs ∧ { v with children := e.2.children } = e.2)

/-! Scalar memory. -/

/-- R149, R150, R151: a scalar access that is aligned, within 52 bits and translated issues: it is in flight with its address,
bytes and data, its destinations are empty until it lands, and nothing else of the machine changes but IDEM, which a store or
an atomic lets fall (R344). A misaligned access traps ALIGN, and an aligned one with an address bit above 51 traps XLAT with
the address (R81, R139). -/
def Obligations.ScalarAccessesIssueOrTrap : Prop :=
  ∀ (s : State) (w : Workgroup) (c : Crew), Issuing s w c → ∀ (d a b : Reg) (off : BitVec 7) (cls : MemClass) (sc : Scope) (sz : BitVec 2) (pa : Nat),
    let addr := c.s2 a + BitVec.ofInt 64 (off.toInt * 2 ^ sz.toNat)
    (c.allFull (pairOf a) = true → addr.toNat % 2 ^ sz.toNat = 0 → addr.toNat < 2 ^ 52 →
      s.xlate w.die w.ctx .rd addr.toNat = .ok pa → c.roomOn (some .ld) = true → sz ≠ 3 →
      Becomes (.sld d a off cls sc sz) s w (((c.issue (scalarAccess c (.sload d sz) cls sc
        [{ onePart addr.toNat (2 ^ sz.toNat) 0 0 with pa := some pa }])).awaitS d c.nextId).advance 4))
  ∧ (c.allFull (pairOf a) = true → addr.toNat % 8 = 0 → addr.toNat < 2 ^ 52 →
      s.xlate w.die w.ctx .rd addr.toNat = .ok pa → c.roomOn (some .ld) = true → sz = 3 →
      Becomes (.sld d a off cls sc sz) s w ((((c.issue (scalarAccess c (.sload d sz) cls sc
        [{ onePart addr.toNat 8 0 0 with pa := some pa }])).awaitS d c.nextId).awaitS d.odd c.nextId).advance 4))
  ∧ (c.allFull (pairOf a) = true → c.full d = true → addr.toNat % 2 ^ sz.toNat = 0 → addr.toNat < 2 ^ 52 →
      s.xlate w.die w.ctx .wr addr.toNat = .ok pa → c.roomOn (some .st) = true → sz ≠ 3 →
      Becomes (.sst d a off cls sc sz) s w.spoil ((c.issue (scalarAccess c .store cls sc
        [{ onePart addr.toNat (2 ^ sz.toNat) ((c.s d).zeroExtend 128) 0 with pa := some pa }])).advance 4))
  ∧ (c.allFull (pairOf a ++ pairOf d) = true → addr.toNat % 8 = 0 → addr.toNat < 2 ^ 52 →
      s.xlate w.die w.ctx .wr addr.toNat = .ok pa → c.roomOn (some .st) = true → sz = 3 →
      Becomes (.sst d a off cls sc sz) s w.spoil ((c.issue (scalarAccess c .store cls sc
        [{ onePart addr.toNat 8 ((c.s2 d).zeroExtend 128) 0 with pa := some pa }])).advance 4))
  ∧ (∀ op : AtomOp, c.allFull (pairOf a ++ [b, d]) = true → (c.s2 a).toNat % 4 = 0 → (c.s2 a).toNat < 2 ^ 52 →
      s.xlate w.die w.ctx .rw (c.s2 a).toNat = .ok pa → c.roomOn (some (if d = 0 then .st else .ld)) = true →
      Becomes (.satom d a b op sc false) s w.spoil (((c.issue (scalarAccess c (.satom d op false) .strong sc
        [{ onePart (c.s2 a).toNat 4 ((c.s b).zeroExtend 128) ((c.s d).zeroExtend 64) with pa := some pa }])).awaitS d c.nextId).advance 4))
  ∧ (∀ op : AtomOp, c.allFull (pairOf a ++ pairOf b ++ pairOf d) = true → (c.s2 a).toNat % 8 = 0 → (c.s2 a).toNat < 2 ^ 52 →
      s.xlate w.die w.ctx .rw (c.s2 a).toNat = .ok pa → c.roomOn (some .ld) = true → d ≠ 0 →
      Becomes (.satom d a b op sc true) s w.spoil ((((c.issue (scalarAccess c (.satom d op true) .strong sc
        [{ onePart (c.s2 a).toNat 8 ((c.s2 b).zeroExtend 128) (c.s2 d) with pa := some pa }])).awaitS d c.nextId).awaitS d.odd
          c.nextId).advance 4))
  ∧ (∀ imm : BitVec 14, let o := (c.s a).toNat + imm.toNat
      c.full a = true → (s.gridOf w).fused = none → o % 4 = 0 → o + 4 ≤ (s.gridOf w).copy.args.length →
      c.roomOn (some .ld) = true →
      Becomes (.ldk d a imm) s w (((c.issue (scalarAccess c (.ldk d) .weak .dev [onePart o 4 0 0])).awaitS d c.nextId).advance 4))
  ∧ (c.allFull (pairOf a ++ pairOf d ++ [b, d]) = true → addr.toNat % 2 ^ sz.toNat ≠ 0 → Traps (.sld d a off cls sc sz) s .align 0 ∧ Traps (.sst d a off cls sc sz) s .align 0)
  ∧ (c.allFull (pairOf a ++ pairOf d ++ [b, d]) = true → addr.toNat % 2 ^ sz.toNat = 0 → 2 ^ 52 ≤ addr.toNat →
      Traps (.sld d a off cls sc sz) s .xlat addr ∧ Traps (.sst d a off cls sc sz) s .xlat addr)
  ∧ (c.allFull (pairOf a ++ pairOf d ++ [b, d]) = true → (c.s2 a).toNat % 4 ≠ 0 → ∀ op : AtomOp, Traps (.satom d a b op sc false) s .align 0)

/-! Accesses land. -/

/-- R48, R50, R91, R94, R103, R106, R119: a part of an access that is not held, whose earlier accesses on common bytes have been
performed and that is translated is performed by the event of its kind; an event of another kind changes nothing. A SATOM
with a result is performed as a load is, one without as a store is. -/
def Obligations.AccessesLandByTheirEvent : Prop :=
  ∀ (s : State) (k : CrewKey) (w : Workgroup) (c : Crew) (id : Nat) (a : Access) (p : Part) (n pa : Nat), s.find k = some (w, c) → c.access id = some a →
    a.parts.find? (fun q => q.unit + 256 * q.half == n) = some p → p.held = none → a.replay = false →
    (∀ q ∈ c.pending, q.tag ≠ id) →
    a.mayPerform (c.before id) p = true → a.inOrder p = true → s.quiesced w = false → s.spot w a p = .at pa →
    ((∃ code, a.kind = .load code) ∨ (∃ op r, a.kind = .atom op r) ∨ (∃ d sz, a.kind = .sload d sz) ∨ (∃ d, a.kind = .ldk d)
        ∨ (∃ d op wide, a.kind = .satom d op wide ∧ d ≠ 0) ∨ (∃ b code got, a.kind = .cbload b code got ∧ a.parts.length ≠ 1) →
      exec (.loadLands k id [n]) s = .next (s.landPart k w c a p pa) ∧ exec (.copyLands k id [n]) s = .next s)
  ∧ (a.kind = .store ∨ (∃ x, a.kind = .kvtrunc x) ∨ (∃ x d, a.kind = .kvstep x d) ∨ (∃ op wide, a.kind = .satom 0 op wide) →
      exec (.storePerformed k id [n]) s = .next (s.landPart k w c a p pa) ∧ exec (.loadLands k id [n]) s = .next s)
  ∧ (∀ x rows, a.kind = .kvapp x rows → a.parts.filter (fun q => q.unit == p.unit) = [p] → p.pa = some pa →
      (p.unit = rows → ∀ q ∈ a.parts, q.unit = rows) → exec (.storePerformed k id [p.unit]) s = .next (s.landPart k w c a p pa))
  ∧ (∀ x rows, a.kind = .kvapp x rows → (∃ q ∈ a.parts, q.unit ≠ rows) → exec (.storePerformed k id [rows]) s = .next s)
  ∧ (a.kind.isCopy = true → exec (.copyLands k id [n]) s = .next ((s.landPart k w c a p pa).raiseWaits k.wid))
  ∧ (∀ t b r, a.kind = .tload t b r → exec (.tloadPieceLands k id [n]) s = .next ((s.landPart k w c a p pa).raiseWaits k.wid))
  ∧ (∀ t i r, a.kind = .tstore t i r → exec (.tstorePerformed k id [n]) s = .next (s.landPart k w c a p pa))

/-- R91, R94, R103, R119, R127, R191, R192, R239, R240: what landing does to memory and scratchpad. A load changes no byte as its
context reads it; a store writes exactly its accessed bytes, low byte first; an atomic replaces its bytes by the result of its
operation on what stood there, an add by the sum; LEN of a KVAPP never falls, and STEP rises by one. A copy in and a TLOAD write
the bytes read to scratchpad or tile, a copy out those of scratchpad to memory; a `.cb` copy reads its index byte and in that step the entry
it names, which then goes to scratchpad by single-copy-atomic pieces; that they read their source in the step in which they
land is the model's choice (log entry 92). -/
def Obligations.LandingWritesExactlyItsBytes : Prop :=
  ∀ (s t : State) (k : CrewKey) (w : Workgroup) (c : Crew) (a : Access) (p : Part) (pa : Nat), WholeLines s → t = s.landPart k w c a p pa →
    let old := leNat (s.partBytes w a p pa)
    let puts := fun (bs : List Byte) => ∀ x, t.readByte w.ctx x =
      if pa ≤ x ∧ x < pa + p.size ∧ flag p.bytes (x - pa) = true then bs.getD (x - pa) 0 else s.readByte w.ctx x
    let reads := ∀ x, t.readByte w.ctx x = s.readByte w.ctx x
    let inner := fun (ok : Workgroup → Prop) => ∃ w' c', t.find k = some (w', c') ∧ ok w'
    (a.scratch = false → p.size ≤ 16 →
      ((∃ code, a.kind = .load code) ∨ (∃ d sz, a.kind = .sload d sz) → t.mem = s.mem ∧ reads)
      ∧ (a.kind = .store → puts (leBytes p.size p.data.toNat))
      ∧ (∀ r, a.kind = .atom .add r → p.size = 4 → p.bytes = 0xF →
          leNat (t.readBytes w.ctx pa 4) = (leNat (s.readBytes w.ctx pa 4) + (fld p.data 0 32).toNat) % 2 ^ 32
          ∧ ReadsAsBefore s t w.ctx pa 4)
      ∧ (∀ op r, a.kind = .atom op r → p.size = 4 →
          puts (leBytes 4 (atomNew op false (BitVec.ofNat 64 old) (fld p.data 0 64) p.cmp).toNat))
      ∧ (∀ d op wide, a.kind = .satom d op wide →
          puts (leBytes p.size (atomNew op wide (BitVec.ofNat 64 old) (fld p.data 0 64) p.cmp).toNat))
      ∧ (∀ x rows, a.kind = .kvapp x rows →
          (p.unit = rows → p.size = 4 → puts (leBytes 4 (max old (fld p.data 0 64).toNat)))
          ∧ (p.unit ≠ rows → puts (leBytes p.size p.data.toNat)))
      ∧ (∀ x, a.kind = .kvtrunc x → puts (leBytes p.size p.data.toNat))
      ∧ (∀ x d, a.kind = .kvstep x d → p.size = 4 → puts (leBytes 4 (old + 1)))
      ∧ (∀ i m r, a.kind = .tstore i m r → puts (leBytes p.size p.data.toNat))
      ∧ (∀ bar, a.kind = .copyOut bar → puts (SMap.slice w.scratch p.sp p.size))
      ∧ (∀ bar, a.kind = .copyIn bar → reads ∧ inner (fun w' => ∀ x, w'.scratch.get x =
          if p.sp ≤ x ∧ x < p.sp + p.size then (s.partBytes w a p pa).getD (x - p.sp) 0 else w.scratch.get x))
      ∧ (∀ b n bar, a.kind = .copyBook b n bar → reads
          ∧ (p.half ≠ 0 → inner (fun w' => ∀ x, w'.scratch.get x =
              if p.sp ≤ x ∧ x < p.sp + p.size then (leBytes p.size p.data.toNat).getD (x - p.sp) 0 else w.scratch.get x))
          ∧ (p.half = 0 → (n = 4 ∨ (n ≠ 0 ∧ n % 8 = 0)) → p ∈ a.parts → c.access a.id = some a → ∃ pieces : List Part,
              (∃ w' c', t.find k = some (w', c') ∧ w'.scratch = w.scratch
                ∧ c'.access a.id = some { a with parts := a.parts.flatMap (fun q => if q = p then pieces else [q]) })
              ∧ (pieces.map (·.size)).sum = n ∧ (∀ q ∈ pieces, q.unit = p.unit ∧ q.half ≠ 0)
              ∧ ∀ j < n, ∃ q ∈ pieces, q.sp ≤ p.sp + j ∧ p.sp + j < q.sp + q.size ∧ ∀ bk, w.books.find? b = some bk →
                  n ≤ entryBytes bk.code →
                  (leBytes q.size q.data.toNat).getD (p.sp + j - q.sp) 0 = SMap.get bk.bytes (old * entryBytes bk.code + j)))
      ∧ (∀ i bar r, a.kind = .tload i bar r → reads ∧ inner (fun w' => (∀ n, n ≠ i → w'.tiles.get n = w.tiles.get n)
          ∧ ∀ x, SMap.get (w'.tiles.get i) x = if 16 * p.unit + 8 * p.half ≤ x ∧ x < 16 * p.unit + 8 * p.half + p.size
              then (s.partBytes w a p pa).getD (x - (16 * p.unit + 8 * p.half)) 0 else SMap.get (w.tiles.get i) x)))
  ∧ (a.scratch = true → p.size ≤ 16 →
      let writes := fun (bs : List Byte) => t.mem = s.mem ∧ t.lines = s.lines ∧ inner (fun w' => ∀ x, w'.scratch.get x =
        if p.addr ≤ x ∧ x < p.addr + p.size ∧ flag p.bytes (x - p.addr) = true then bs.getD (x - p.addr) 0 else w.scratch.get x)
      (∀ code, a.kind = .load code → t.mem = s.mem ∧ t.lines = s.lines ∧ inner (fun w' => w'.scratch = w.scratch))
      ∧ (a.kind = .store → writes (leBytes p.size p.data.toNat))
      ∧ (∀ op r, a.kind = .atom op r → p.size = 4 →
          writes (leBytes 4 (atomNew op false (BitVec.ofNat 64 old) (fld p.data 0 64) p.cmp).toNat)))

/-- R46, R48, R103, R149 to R151, R191, R192: what landing does to registers: a scalar load of 1, 2 or 4 bytes fills its register, one of 8
its pair, with the little-endian value unless a younger write has taken the register over; a lane load of 1, 2 or 4 bytes fills the register
of its lane, sign-extended where its size says so, one of 8 two registers, and one of 16 two by each of its halves; an atomic gives the
value from before, all of this of scratchpad as of memory; an LDK its argument word; what has landed is no longer in flight, and what else
is open stays so. A result that an instruction promised fills its pair in the same way. That the value of a weak load is what memory holds
in the step in which it lands is the model's choice (log entry 91). -/
def Obligations.LandingFillsTheYoungestRegister : Prop :=
  (∀ (s : State) (k : CrewKey) (w : Workgroup) (c : Crew) (a : Access) (p : Part) (pa : Nat), s.find k = some (w, c) → c.batches = [] →
    p.bytes = BitVec.ofNat 16 (2 ^ p.size - 1) →
    let n := p.size
    let x := leNat (if a.scratch then SMap.slice w.scratch p.addr n else s.readBytes w.ctx pa n)
    let lands := fun (c' : Crew) => (∃ w', (s.landPart k w c a p pa).find k = some (w'.putCrew k.slot c', c')
        ∧ { w' with scratch := w.scratch } = w ∧ (a.scratch = false → w' = w))
      ∧ (∀ b ∈ c'.flying, b.id = a.id → b = { a with parts := a.parts.erase p })
      ∧ ∀ b ∈ c.flying, b.id ≠ a.id → b.done = false → b ∈ c'.flying
    let scalar := fun (c' : Crew) (d : Reg) (v : Word) => c'.s d = (if c.sTag.find? d.toNat = some a.id then v else c.s d)
      ∧ c'.full d = (c.full d || decide (c.sTag.find? d.toNat = some a.id))
    let lane := fun (c' : Crew) (r : Nat) (v : Word) =>
      c'.v r p.unit = (if c.vTag.find? (laneKey r p.unit) = some a.id then v else c.v r p.unit)
      ∧ c'.vFull r p.unit = (c.vFull r p.unit || decide (c.vTag.find? (laneKey r p.unit) = some a.id))
    (∀ d code, d ≠ 0 → n ≤ 4 →
      ((a.kind = .sload d code ∧ code ≠ 3 ∧ n = 2 ^ code.toNat) ∨ (n = 4 ∧ ∃ op, a.kind = .satom d op false)) → ∃ c', lands c'
      ∧ scalar c' d (BitVec.ofNat 32 x) ∧ ∀ r, r ≠ d → c'.s r = c.s r ∧ c'.full r = c.full r)
    ∧ (∀ d, d ≠ 0 → a.kind = .ldk d → ∃ c', lands c'
      ∧ scalar c' d (BitVec.ofNat 32 (leNat (((s.gridOf w).args.drop p.addr).take 4))) ∧ ∀ r, r ≠ d → c'.s r = c.s r ∧ c'.full r = c.full r)
    ∧ (∀ d, d ≠ 0 → d.toNat % 2 = 0 → n = 8 → (a.kind = .sload d 3 ∨ ∃ op, a.kind = .satom d op true) → ∃ c', lands c'
      ∧ scalar c' d (BitVec.ofNat 32 x) ∧ scalar c' d.odd (BitVec.ofNat 32 (x / 2 ^ 32))
      ∧ ∀ r, r ≠ d → r ≠ d.odd → c'.s r = c.s r ∧ c'.full r = c.full r)
    ∧ (∀ code : BitVec 4, p.unit < 64 →
      ((a.kind = .load code ∧ (code.toNat < 2 ∧ n = 1 ∨ (code = 2 ∨ code = 3) ∧ n = 2 ∨ code = 4 ∧ n = 4))
        ∨ (code = 4 ∧ n = 4 ∧ ∃ op r, a.kind = .atom op r)) → ∃ c', lands c'
      ∧ lane c' p.dst (if code = 1 then (BitVec.ofNat 8 x).signExtend 32 else if code = 3 then (BitVec.ofNat 16 x).signExtend 32
          else BitVec.ofNat 32 x)
      ∧ ∀ r l, l < 64 → (r ≠ p.dst ∨ l ≠ p.unit) → c'.v r l = c.v r l ∧ c'.vFull r l = c.vFull r l)
    ∧ (p.unit < 64 → n = 8 → (a.kind = .load 5 ∨ a.kind = .load 6) → ∃ c', lands c'
      ∧ lane c' p.dst (BitVec.ofNat 32 x) ∧ lane c' (p.dst + 1) (BitVec.ofNat 32 (x / 2 ^ 32))
      ∧ ∀ r l, l < 64 → (r ≠ p.dst ∧ r ≠ p.dst + 1 ∨ l ≠ p.unit) → c'.v r l = c.v r l ∧ c'.vFull r l = c.vFull r l))
  ∧ (∀ p : Part, p.size = 16 → ∃ lo hi, p.halves = [lo, hi] ∧ lo.size = 8 ∧ hi.size = 8 ∧ lo.addr = p.addr ∧ hi.addr = p.addr + 8
      ∧ lo.dst = p.dst ∧ hi.dst = p.dst + 2 ∧ lo.unit = p.unit ∧ hi.unit = p.unit)
  ∧ (∀ (s : State) (k : CrewKey) (w : Workgroup) (c : Crew) (q : Pending) (d : Reg) (v : DWord), s.find k = some (w, c) →
    c.pending = [q] → q.regs = pairWrites d v → q.lanes = [] → c.access q.tag = none → d ≠ 0 → d.toNat % 2 = 0 →
    c.sTag.find? d.toNat = some q.tag → c.sTag.find? d.odd.toNat = some q.tag → ∃ c',
      exec (.loadLands k q.tag []) s = .next (s.put k w c') ∧ c'.s2 d = v ∧ c'.full d = true ∧ c'.full d.odd = true
      ∧ c'.pending = [] ∧ ∀ r, r ≠ d → r ≠ d.odd → c'.s r = c.s r ∧ c'.full r = c.full r)

/-- R92, R147, R161, R201 to R203, R225, R238: runs, FETCH, KVLD, CBLOAD and MMA come to their end. Each destination of a run gets the
value that the run last wrote to it, or keeps the one it held; a codebook holds the 256 entries as its crew reads them; an MMA
commits to each word of its quadrant, or at width 64 of its column half, the exact sum of the word and the products along a row,
rounded once to nearest even, or of integers reduced or clamped, and to no other word (R201); one
whose handle has been unbound since its issue raises ACCNONE, at its commit, with INFLIGHT 0 and its image kept, and then commits no
more (the model's reading, log entry 48). A FETCH lane reads its value in the step in which it lands (log entry 39), once the addresses
of all lanes that are not held are known (log entry 86); a lane whose walk had failed at issue reads what its addresses depend on first,
loads its cursor with it (R226; log entry 131), and traps XLAT for an address with a bit above 51 set (R81). -/
def Obligations.RunsAndEnginesComplete : Prop :=
  ∀ (s : State) (k : CrewKey) (w : Workgroup) (c : Crew), s.find k = some (w, c) →
    (∀ r rest p, c.queue = r :: rest → c.prog = some p → p.ended = true → c.mma = none →
      (∀ a ∈ c.flying, a.done = true ∨ a.kind.fillsLanes = false) → (∀ q ∈ c.pending, q.lanes = []) → (∀ d ∈ r.dests, d < 64) → ∃ c',
      exec (.runComplete k) s = .next (s.put k w c') ∧ c'.queue = rest ∧ c'.prog = none ∧ c'.vreg = c.vreg
      ∧ ∀ d : Reg, d ≠ 0 → if d.toNat ∈ r.dests ∧ c.sTag.find? d.toNat = some r.tag
          then c'.full d = true ∧ c'.s d = (if flag (p.results.get d.toNat) 32 then fld (p.results.get d.toNat) 0 32 else c.s d)
          else c'.full d = c.full d ∧ c'.s d = c.s d)
  ∧ (∀ m acc, c.mma = some m → m.unbound = false → m.trapped = false → m.replay = false → w.accs.find? m.f.dest.toNat = some acc →
      exec (.mmaCommit k) s = .next (s.put k { w with accs := w.accs.insert m.f.dest.toNat { acc with
        words := m.apply (s.slot w m.f.fa.toNat) (s.slot w m.f.fb.toNat) (s.width w) acc.words } } { c with mma := none }))
  ∧ (∀ (m : MmaImage) (fa fb : Slot) (width i j : Nat) (acc : Cells 32), fa.valid = true → fb.valid = true → mmaPair fa fb = true →
      (width = 64 → flag m.f.subop 1 = false) → i < 64 → j < 64 →
      let old := acc.get (64 * i + j)
      let new := (m.apply fa fb width acc).get (64 * i + j)
      let bits := elemBits fa.fmt
      let elem := fun (t : Tile) (r n : Nat) => ((SMap.get t (128 * r + n * bits / 8) : Byte).toNat
        + 256 * (SMap.get t (128 * r + n * bits / 8 + 1) : Byte).toNat) / 2 ^ (n * bits % 8) % 2 ^ bits
      let value := fun (f : Slot) (t scales : Tile) (r n : Nat) =>
        let at_ := fun (x : Nat) => (SMap.get scales (32 * r + n / 32 * formatScale f.fmt + x) : Byte).toNat
        if blockFormat f.fmt then decSlot f (elem t r n) (at_ 0) (if formatScale f.fmt = 2 then at_ 1 else 127)
        else decSlot f (elem t r n) 127 127
      let a := if width = 64 ∧ 32 ≤ i then (m.a1, m.s1) else (m.a0, m.s0)
      let written := (width = 64 ∨ i / 32 = nfld m.f.subop 1 1) ∧ j / 32 = nfld m.f.subop 0 1
      let along := List.range (1024 / bits)
      (¬ written → new = old)
      ∧ (written → mmaInteger fa.fmt fb.fmt = false → new = BitVec.ofNat 32 (fp32.encode .rne false 0 false
          (Sys2Proof.Num.sum (fp32.decode old.toNat :: along.map (fun n => (value fa a.1 a.2 (i % 32) n).mul (value fb m.b m.sb (j % 32) n))))))
      ∧ (written → mmaInteger fa.fmt fb.fmt = true →
          let v := old.toInt + (along.map (fun n => signedOf bits (elem a.1 (i % 32) n) * signedOf bits (elem m.b (j % 32) n))).sum
          new = BitVec.ofInt 32 (if m.f.sat then max (-2 ^ 31) (min v (2 ^ 31 - 1)) else v)))
  ∧ (∀ m, c.mma = some m → m.unbound = true → m.trapped = false → m.replay = false → c.status = .live → exec (.mmaCommit k) s =
      .next ((s.put k w { c with mma := some { m with unbound := false, trapped := true } }).raise k (c.sideOf .lane) .accnone 0 .lane false m.pc))
  ∧ (∀ m, c.mma = some m → m.trapped = true → exec (.mmaCommit k) s = .next s)
  ∧ (∀ id a p n slot, c.access id = some a → a.kind = .fetch slot → a.parts.find? (fun q => q.unit == n) = some p →
      p.held = none → (∀ b ∈ c.before id, b.done = true ∨ a.waitsFor b p = false) →
      let m := (s.gridOf w).buf slot.toNat
      let may := a.mayRead (c.before id)
      let x := (fld p.data 0 64).toInt
      let y := (fld p.cmp 0 32).toInt
      let lands := exec (.fetchLands k id [n]) s
      (∀ key o, p.key = some key → (∀ q ∈ a.parts, q.key ≠ none ∨ q.held ≠ none) → s.fetchOut w may m (m.fetchForm x y key) = .got o →
        lands = .next ((s.touchAt w a.alloc o.reads).partDone k w
          (((c.landV p.dst n id o.value).landV (p.dst + 1) n id o.column).landV (p.dst + 2) n id o.status) a p))
      ∧ (∀ key, p.key = some key → (∃ q ∈ a.parts, q.key = none ∧ q.held = none) → ∀ o, s.fetchOut w may m (m.fetchForm x y key) = .got o →
        lands = .next s)
      ∧ (∀ q, p.key = none → s.fetchKey w may m slot x y (c.cursors.get n) = .got q → (∀ va ∈ (m.fetchForm x y q.key).addrs m, va < 2 ^ 52) →
        ∃ c' : Crew, { c' with cursors := c.cursors } = c
        ∧ (∀ l, c'.cursors.get l = if l = n then q.cursor.getD (c.cursors.get n) else c.cursors.get l)
        ∧ lands = .next ((s.touchAt w a.alloc q.reads).put k w
            (c'.putAccess { a with parts := a.parts.map (fun r => if r = p then { r with key := some q.key } else r) })))
      ∧ (∀ q va, p.key = none → s.fetchKey w may m slot x y (c.cursors.get n) = .got q → c.status = .live →
        ((m.fetchForm x y q.key).addrs m).find? (fun va => decide (2 ^ 52 ≤ va)) = some va →
        lands = .next (s.raise k a.side .xlat (BitVec.ofNat 64 va) a.stream true a.pc)))
  ∧ (∀ id a p ps d tile rows status, c.access id = some a → a.kind = .kvld d tile rows status → a.parts = p :: ps →
      exec (.kvldLands k id) s = .next (s.partDone k { w with tiles := w.tiles.put tile rows } (c.landPair d id true status) a p))
  ∧ (∀ (id : Nat) (a : Access) (book : Nat) (code : BitVec 2) (addr : Nat) (pa : Nat → Nat), c.access id = some a → a.kind = .cbload book code [] → a.parts = bookParts addr (entryBytes code) →
      (∀ p ∈ a.parts, a.mayPerform (c.before id) p = true ∧ s.spot w a p = .at (pa p.unit)) → ∃ (t : State) (b : Codebook),
      exec (.cbloadCompletes k id) s = .next (t.put k { w with books := w.books.insert book b } ((c.putAccess { a with parts := [] }).advance 4))
      ∧ t = { s with lines := t.lines, tags := s.tags.insert (tagKey 5 w.die w.core (2048 * w.share + book)) ⟨w.ctx, (s.ctx w.ctx).secure⟩ }
      ∧ b.code = code
      ∧ ∀ n, n < 256 * entryBytes code →
          SMap.get b.bytes n = s.readByte w.ctx (pa (n / min (entryBytes code) 8) + n % min (entryBytes code) 8))

/-! Barriers, batches, tiles, codebooks, tags, accumulators. -/

/-- R51, R52, R53, R155, R156: the barrier instructions; the arrival that completes a phase flips the parity, sets the arrivals
back and takes the expected bytes off. A crew that waits at BWAIT observes what becomes of the object: it passes on at its turn
once it has seen the other parity, and traps once it has seen an overflow first. BARR at 4,095 arrivals in a phase that bytes hold open
takes the count to 0 (the model's choice, log entry 84). -/
def Obligations.BarrierObjectsCountAndFlip : Prop :=
  ∀ (s : State) (w : Workgroup) (c : Crew), Issuing s w c → ∀ (o : BitVec 4) (a b d : Reg) (par : Bool),
    let x := w.bar o.toNat
    (c.full a = true → 1 ≤ (c.s a).toNat → (c.s a).toNat ≤ 4095 →
      exec (.binit o a) s = .next (s.put s.cur.key (w.putBar o.toNat
        ⟨0, 0, true, false, false, BitVec.ofNat 12 (c.s a).toNat, 0⟩) (c.advance 4)))
  ∧ (c.full a = true → ((c.s a).toNat = 0 ∨ 4095 < (c.s a).toNat) → Traps (.binit o a) s .range 0)
  ∧ (c.drained = true → c.fenced = true → x.valid = true → x.ovf = false →
      exec (.barr o) s = .next (s.put s.cur.key (w.putBar o.toNat
        (if x.expArr ≤ x.arr + 1 ∧ x.expBytes ≤ x.recv
         then { x with recv := x.recv - x.expBytes, expBytes := 0, arr := 0, phase := !x.phase }
         else { x with arr := x.arr + 1 })) (c.advance 4)))
  ∧ (c.full a = true → c.full b = true → (c.s a).toNat ≤ 4095 → x.valid = true → x.ovf = false →
      exec (.bexp o a b) s = .next ((s.put s.cur.key (w.putBar o.toNat (x.expect (c.s a).toNat (c.s b).toNat)) (c.advance 4)).raiseWaits
        s.cur.key.wid))
  ∧ (∀ k v e y, s.find k = some (v, e) → e.waitBar = some y → y.failed = true → e.status = .live →
      s.raiseWait k = (s.put k v { e with waitBar := none }).raise k e.side .range 0 .scalar false e.pc)
  ∧ (c.waitBar = none → x.valid = true → x.ovf = false → x.phase = !par → Becomes (.bwait o par) s w (c.advance 4))
  ∧ (c.waitBar = none → x.valid = true → x.ovf = false → x.phase = par →
      Becomes (.bwait o par) s w { c with waitBar := some ⟨o, par, false, false⟩ })
  ∧ (∀ y, c.waitBar = some y → y.passed = true → y.failed = false → Becomes (.bwait o par) s w ({ c with waitBar := none }.advance 4))
  ∧ (∀ y, c.waitBar = some y → y.passed = false → y.failed = false → exec (.bwait o par) s = .next s)
  ∧ (∀ y, c.waitBar = some y → y.failed = true → exec (.bwait o par) s = trap (s.put s.cur.key w { c with waitBar := none }) .range 0)
  ∧ (∀ y z, c.waitBar = some y → y.bar = o → y.passed = false → y.failed = false →
      ∃ q, (c.observe o.toNat z).waitBar = some q ∧ (q.failed = true ↔ z.ovf = true)
        ∧ (q.passed = true ↔ z.phase = !y.par ∧ z.ovf = false) ∧ q.bar = o ∧ q.par = y.par)
  ∧ (x.valid = true → x.ovf = false → ∃ c', ScalarWritten c c' d (if x.phase = !par then 1 else 0)
      ∧ Becomes (.btry d o par) s w (c'.advance 4))
  ∧ (x.valid = false ∨ x.ovf = true → (c.waitBar = none → Traps (.bwait o par) s .range 0) ∧ Traps (.btry d o par) s .range 0)

/-- R13, R93, R159, R160: CPSEAL numbers the copies since the last seal, writes the number, and has the batch stand in flight until
they have landed, or, where none is in flight, land at once; CPWAIT waits for a number. R94, R157, R158, R92, R161, R251, R252: tile
transfers and codebook loads issue for the copy roles once their checks pass: TLOAD and TSTORE move 32 rows of 128 bytes, TSTORE
with the tile as it stands at issue; a forwarded TLOAD only receives its 4,096 bytes and an elided TSTORE does nothing. CBLOAD reads
its 256 entries in pieces of 8 bytes at most. Another role traps ROLE. A row or a codebook that starts below 2^52 and passes it with a byte
that is accessed traps XLAT like one that starts above (R81; the model's choice, log entry 109), the first such row with its address (log
entry 99). -/
def Obligations.CopiesAndTransfersIssueSealAndWait : Prop :=
  (∀ (s : State) (w : Workgroup) (c : Crew), Issuing s w c → ∀ (d a : Reg) (bar : Option (BitVec 4)) (n : BitVec 8),
      (c.mayCopy = true → c.drained = true → (∀ o, bar = some o → (w.bar o.toNat).valid = true) →
        (∀ b ∈ c.batches, b.number ≠ c.nextBatch) → (∀ x ∈ c.flying, x.batch ≠ some c.nextId) → ∃ c',
        ScalarWritten { c with
          nextBatch := c.nextBatch + 1, nextId := c.nextId + 1,
          flying := c.flying.map (fun x => if x.kind.isCopy = true ∧ x.batch = none then { x with batch := some c.nextId } else x) }
          c' d (c.nextBatch.zeroExtend 32)
        ∧ ((∃ x ∈ c.flying, x.kind.isCopy = true ∧ x.batch = none ∧ x.done = false) →
            Becomes (.cpseal d bar) s w { c'.advance 4 with batches := c.batches ++ [⟨c.nextId, c.nextBatch, bar⟩] })
        ∧ ((∀ x ∈ c.flying, x.kind.isCopy = true → x.batch = none → x.done = true) →
            exec (.cpseal d bar) s = .next (s.put s.cur.key (w.arriveAt bar) (c'.advance 4))))
    ∧ (c.mayCopy = true → c.full a = true → (∀ b ∈ c.batches, b.number ≠ (c.s a).setWidth 8 + n) →
        Becomes (.cpwait a n) s w (c.advance 4))
    ∧ (c.mayCopy = true → c.full a = true → (∃ b ∈ c.batches, b.number = (c.s a).setWidth 8 + n) →
        exec (.cpwait a n) s = .next s)
    ∧ (c.role = 1 ∨ c.role = 2 → Traps (.cpseal d bar) s .role 0 ∧ (c.full a = true → Traps (.cpwait a n) s .role 0)))
  ∧ (∀ (s : State) (w : Workgroup) (c : Crew), Issuing s w c → ∀ (t : BitVec 4) (a b z : Reg) (m : BitVec 5) (bar : Option (BitVec 4)) (off : BitVec 16)
        (cb : BitVec 3) (e : BitVec 2),
      let rec_ := (s.gridOf w).buf m.toNat
      let rows := tileRows rec_ (c.s a) (c.s b) (c.s z) off
      let transfer := fun (k : AccessKind) (tile : Tile) =>
        { scalarAccess c k .weak .dev (tileParts (rowsKept rows) tile (fun _ => 16)) with alloc := rec_.allocates }
      let near := fun (r : Formed) => r.addr.toNat < 2 ^ 52 ∧ ∀ i, i < 128 → r.accessed i = true → r.addr.toNat + i < 2 ^ 52
      (c.mayCopy = true → c.allFull [a, b, z] = true → t.toNat < s.tileLimit w → rec_.ordinary = true →
        (∀ r ∈ rows, r.bounds = false ∧ r.addr.toNat % 16 = 0) →
        ((∀ r ∈ rows, near r) → c.roomOn (some .tl) = true →
          ((s.gridOf w).forwards c = false → (∀ o, bar = some o → (w.bar o.toNat).valid = true) →
            Becomes (.tload t a b z m bar off) s w ((c.issue (transfer (.tload t.toNat bar (rowsKept rows)) [])).advance 8))
          ∧ ((s.gridOf w).elides c = false → Becomes (.tstore t a b z m off) s w.spoil
              ((c.issue (transfer (.tstore t.toNat (w.tiles.get t.toNat) (rowsKept rows)) (w.tiles.get t.toNat))).advance 8)))
        ∧ ((s.gridOf w).forwards c = true → (∀ o, bar = some o → (w.bar o.toNat).valid = true) →
            exec (.tload t a b z m bar off) s = .next ((s.put s.cur.key (w.deliver bar 4096) (c.advance 8)).raiseWaits
              s.cur.key.wid))
        ∧ ((s.gridOf w).elides c = true → Becomes (.tstore t a b z m off) s w (c.advance 8))
        ∧ (∀ before r after, rows = before ++ r :: after → (∀ x ∈ before, near x) → ¬ near r →
            ((s.gridOf w).forwards c = false → (∀ o, bar = some o → (w.bar o.toNat).valid = true) →
              Traps (.tload t a b z m bar off) s .xlat r.addr)
            ∧ ((s.gridOf w).elides c = false → Traps (.tstore t a b z m off) s .xlat r.addr)))
    ∧ (c.mayCopy = true → c.allFull (pairOf a) = true → (c.s2 a).toNat % entryBytes e = 0 →
        2 ^ 52 < (c.s2 a).toNat + 256 * entryBytes e → Traps (.cbload cb a e) s .xlat (c.s2 a))
    ∧ (c.mayCopy = true → c.allFull (pairOf a) = true → (c.s2 a).toNat % entryBytes e = 0 →
        (c.s2 a).toNat + 256 * entryBytes e ≤ 2 ^ 52 → ((w.books.find? cb.toNat).isSome = true ∨ s.bookFree w.die w.core = true) →
        Becomes (.cbload cb a e) s w ((c.issue (scalarAccess c (.cbload cb.toNat e []) .weak .dev
          ((List.range (256 * entryBytes e / min (entryBytes e) 8)).map (fun i =>
            { onePart ((c.s2 a).toNat + min (entryBytes e) 8 * i) (min (entryBytes e) 8) 0 0 with
              unit := i, bytes := BitVec.allOnes 16 })))).advance 0))
    ∧ (c.role = 1 ∨ c.role = 2 → (c.allFull [a, b, z] = true → Traps (.tload t a b z m bar off) s .role 0
          ∧ Traps (.tstore t a b z m off) s .role 0) ∧ (c.allFull (pairOf a) = true → Traps (.cbload cb a e) s .role 0)))

/-- R46, R88 to R90, R163: TLOOK finds the way of a line and turns the tree away from it, or answers its victim; TFILL puts the line
into the slot it names, or finds it as TLOOK does; TDROP takes it out, with the tree as it was, or has no effect; after TFILL the line is
found, the tree turned away from its slot; every other slot and every other set stay as they were. TLOOK and TFILL mark their pair
empty and land it later (R46; the model's reading, log entry 31). -/
def Obligations.TagTableLooksFillsAndDrops : Prop :=
  ∀ (s : State) (w : Workgroup) (c : Crew), Issuing s w c → ∀ (d a b : Reg),
    let g := s.gridOf w
    let line := lineOf g (c.s2 a)
    let set := line.toNat % g.tagSets
    let t := w.tags.get set
    c.allFull (pairOf a ++ [b]) = true → g.tagSets ≠ 0 → (c.s2 a).toNat < 2 ^ 52 →
    let answers := fun (w' : Workgroup) (v : DWord) => s.put s.cur.key w' ((c.promise (pairWrites d v) []).advance 4)
    let others := fun (w' : Workgroup) (slot : Nat) => (∀ way, way ≠ slot → (w'.tags.get set).ways.get way = t.ways.get way)
      ∧ ∀ n, n ≠ set → w'.tags.get n = w.tags.get n
    (∀ way, t.find line = some way →
      let v := answers { w with tags := w.tags.put set { t with tree := touchTree t.tree way } } (tagPair g (8 * set + way) none 2)
      exec (.tlook d a) s = .next v ∧ ((c.s b).toNat / 8 = set → exec (.tfill d a b) s = .next v))
  ∧ (t.find line = none →
      let x := t.ways.get t.victim
      exec (.tlook d a) s = .next (answers w (if slotValid x = true then tagPair g (8 * set + t.victim) (some (slotLine x)) 1
        else tagPair g (8 * set + t.victim) none 0)))
  ∧ (t.find line = none → (c.s b).toNat / 8 = set →
      let x := t.ways.get ((c.s b).toNat % 8)
      ∃ w' : Workgroup, exec (.tfill d a b) s = .next (answers w' (if slotValid x = true
          then tagPair g (c.s b).toNat (some (slotLine x)) 1 else tagPair g (c.s b).toNat none 0))
      ∧ (w'.tags.get set).find line = some ((c.s b).toNat % 8) ∧ { w' with tags := w.tags } = w
      ∧ (w'.tags.get set).tree = touchTree t.tree ((c.s b).toNat % 8) ∧ others w' ((c.s b).toNat % 8))
  ∧ (∀ v : DWord, d ≠ 0 → d.toNat % 2 = 0 →
      let c' := c.promise (pairWrites d v) []
      c'.full d = false ∧ c'.full d.odd = false ∧ (∀ r, r ≠ d → r ≠ d.odd → c'.full r = c.full r) ∧ c'.sreg = c.sreg
      ∧ c'.pending = c.pending ++ [⟨c.nextId, pairWrites d v, []⟩])
  ∧ ((c.s b).toNat / 8 ≠ set → Traps (.tfill d a b) s .range 0)
  ∧ (∃ w', exec (.tdrop a) s = .next (s.put s.cur.key w' (c.advance 4)) ∧ { w' with tags := w.tags } = w
      ∧ (∀ way, t.find line = some way → slotValid ((w'.tags.get set).ways.get way) = false ∧ (w'.tags.get set).tree = t.tree ∧ others w' way)
      ∧ (t.find line = none → w' = w))

/-- R164 to R166: binding and freeing accumulators. AALLOC binds a handle within the floor, AGROW one from the pool when two
blocks are free, the youngest waiting AGROW of a deadlocked core is denied with 0, AFREE waits for the crew's MMA, unbinds, and
has the core offer the room. A binding writes the line of the handle, which takes the context's tag (R290; which line it is, log entry 20). -/
def Obligations.AccumulatorsBindAndFree : Prop :=
  ∀ (s : State) (w : Workgroup) (c : Crew), Issuing s w c → ∀ (d : Reg) (h : BitVec 5),
    let owned : State := { s with
      tags := s.tags.insert (tagKey 3 w.die w.core (2048 * w.share + h.toNat)) ⟨w.ctx, (s.ctx w.ctx).secure⟩ }
    (c.mayMatrix = true → w.accs.find? h.toNat = none → w.floorBound < (s.gridOf w).floor →
      exec (.aalloc h) s = .next (owned.put s.cur.key { w with accs := w.accs.insert h.toNat ⟨false, []⟩ } (c.advance 4)))
  ∧ (c.mayMatrix = true → w.accs.find? h.toNat = none → 2 ≤ s.poolFree w.die w.core →
      s.growers w.die w.core = [] → ∃ c', ScalarWritten { c with waitGrow := none } c' d 1
      ∧ exec (.agrow d h) s = .next (owned.put s.cur.key { w with accs := w.accs.insert h.toNat ⟨true, []⟩ } (c'.advance 4)))
  ∧ (c.mayMatrix = true → w.accs.find? h.toNat = none → s.poolFree w.die w.core < 2 →
      Becomes (.agrow d h) s w { c with waitGrow := some (d, h) })
  ∧ (c.waitGrow = some (d, h) → s.deadlocked w.die w.core = true →
      (extreme Grower.younger (s.growers w.die w.core)).map (·.key) = some s.cur.key → ∃ c', ScalarWritten c c' d 0
      ∧ exec (.agrowDenial s.cur.key) s = .next (s.put s.cur.key w ({ c' with waitGrow := none }.advance 4)))
  ∧ (c.mayMatrix = true → c.queue = [] → c.mma = none → (w.accs.find? h.toNat).isSome = true →
      exec (.afree h) s = .next ((s.put s.cur.key (w.unbind h.toNat) ({ c with freeing := none }.advance 4)).offer w.die w.core)
      ∧ (w.unbind h.toNat).accs.find? h.toNat = none ∧ (∀ n, n ≠ h.toNat → (w.unbind h.toNat).accs.find? n = w.accs.find? n))
  ∧ (c.mayMatrix = true → c.mma.isSome = true → Becomes (.afree h) s w { c with freeing := some h })
  ∧ (c.mayMatrix = true → c.queue = [] → c.mma = none → w.accs.find? h.toNat = none → Traps (.afree h) s .accnone 0)
  ∧ (c.mayMatrix = false → Traps (.aalloc h) s .role 0 ∧ Traps (.agrow d h) s .role 0 ∧ Traps (.afree h) s .role 0)

/-- R34, R35, R46, R139, R167: LAUNCH puts its child into the device queue with the parent's depth and one more, or answers 1
where the queue is full; at depth 12 it traps NESTDEPTH. A launch whose record cannot be read enters the queue all the same, without
a copy. The result lands later (the model's reading, log entry 31); a ring that cannot be written keeps the launch (log entry
14); the packet goes to the ring at DEVQ as it stands (log entry 111). -/
def Obligations.LaunchesEnterTheDeviceQueue : Prop :=
  ∀ (s : State) (w : Workgroup) (c : Crew), Issuing s w c → ∀ (d a : Reg), c.allFull (pairOf a) = true →
    ((s.gridOf w).depthOf c.side = 12 → Traps (.launch d a) s .nestdepth 0)
  ∧ ((s.gridOf w).depthOf c.side ≠ 12 → (c.s2 a).toNat % 64 ≠ 0 → Traps (.launch d a) s .align 0)
  ∧ ((s.gridOf w).depthOf c.side ≠ 12 → (c.s2 a).toNat % 64 = 0 → 2 ^ 52 ≤ (c.s2 a).toNat → Traps (.launch d a) s .xlat (c.s2 a))
  ∧ ((s.gridOf w).depthOf c.side ≠ 12 → (c.s2 a).toNat % 64 = 0 → (c.s2 a).toNat < 2 ^ 52 → c.drained = true → c.fenced = true →
      ((s.ctx w.ctx).devFree = false →
        exec (.launch d a) s = .next (s.put s.cur.key w.spoil ((c.promise [(d, 1)] []).advance 4)))
      ∧ (∀ copy, (s.ctx w.ctx).devFree = true →
        ((∃ r, copy = some r ∧ s.readLaunch w.ctx (c.s2 a).toNat = .copy r)
          ∨ (copy = none ∧ ∃ code va, s.readLaunch w.ctx (c.s2 a).toNat = .fail code va)) → ∃ (t : State) (w' : Workgroup),
        exec (.launch d a) s = .next (t.put s.cur.key w' ((c.promise [(d, 0)] []).advance 4))
        ∧ w'.children = w.children ++ [w.launched] ∧ w'.launched = w.launched + 1 ∧ w'.crews = w.crews
        ∧ t.wgs = s.wgs ∧ t.grids = s.grids
        ∧ (t.ctx w.ctx).devPut = (s.ctx w.ctx).devPut + 1
        ∧ ∃ slot, (t.ctx w.ctx).devSlots.find? (s.ctx w.ctx).devPut = some slot ∧ slot.copy = copy
            ∧ slot.depth = (s.gridOf w).depthOf c.side + 1 ∧ slot.parent = some ⟨s.cur.key.wid, w.launched⟩))

/-- R18, R146: LRUN queues a run with its eight constants and marks empty the scalar registers that its code writes; with eight
runs queued it waits. Where a word of the run cannot be translated at the LRUN, the run is queued all the same, so that the lane stream
meets that word (R137); the scalar stream then stands until the run has been read on and the destinations from there on are marked too,
each with what it held at the LRUN (the model's reading, log entry 27). A run ends too where a triple does not decode. -/
def Obligations.LrunQueuesARun : Prop :=
  (∀ (s : State) (w : Workgroup) (c : Crew), Issuing s w c → ∀ (a : Reg) (off : Word),
    let scan := scanRun (s.codeWord w c.side) ((s.gridOf w).laneForm c) runFuel (runAddr ((s.gridOf w).laneBaseFor c.side) off)
    (c.queue.length < 8 → (∀ n < 8, c.full (a + BitVec.ofNat 6 n) = true) → ∃ c' : Crew,
      Becomes (.lrun a off) s w (c'.advance 8)
      ∧ c'.queue = c.queue ++ [⟨off, (List.range 8).map (fun n => c.s (a + BitVec.ofNat 6 n)), c.nextId,
          (scan.dests.filter (fun d => d != 0)).eraseDups, c.side, scan.rest,
          if scan.rest = none then [] else c.sTag.map (fun e => (e.1, c.sreg.get e.1))⟩]
      ∧ c'.nextId = c.nextId + 1 ∧ c'.sreg = c.sreg ∧ c'.vreg = c.vreg
      ∧ (∀ r : Reg, r ≠ 0 → r.toNat ∈ scan.dests → c'.full r = false)
      ∧ (∀ r : Reg, (∀ d ∈ scan.dests, BitVec.ofNat 6 d ≠ r) → c'.full r = c.full r))
    ∧ (8 ≤ c.queue.length → exec (.lrun a off) s = .next s))
  ∧ (∀ (g : Side → Nat → CodeWord) (form : Instr → Instr) (c : Crew) (pre post : List Run) (r : Run) (pc : Nat),
      c.queue = pre ++ r :: post → (∀ q ∈ pre, q.rest = none) → r.rest = some pc → (∀ q ∈ pre ++ post, q.tag ≠ r.tag) →
      let scan := scanRun (g r.side) form runFuel pc
      let c' := c.readRun g form
      (∀ d ∈ scan.dests, d < 64) →
      (∃ r', c'.queue = pre ++ r' :: post ∧ r'.rest = scan.rest ∧ { r' with dests := r.dests, rest := r.rest, kept := r.kept } = r
        ∧ ∀ d, d ∈ r'.dests ↔ d ∈ r.dests ∨ d ≠ 0 ∧ d ∈ scan.dests)
      ∧ (∀ d : Reg, d ≠ 0 → d.toNat ∈ scan.dests → d.toNat ∉ r.dests → c'.full d = false ∧ c'.s d = (r.kept.find? d.toNat).getD (c.s d))
      ∧ (∀ d : Reg, d = 0 ∨ d.toNat ∉ scan.dests ∨ d.toNat ∈ r.dests → c'.full d = c.full d ∧ c'.s d = c.s d)
      ∧ c.scalarBusy = true ∧ { c' with sreg := c.sreg, sTag := c.sTag, queue := c.queue } = c)
/-! Populations, Burrow, key-value sequences. -/

/-- R23, R24, R106, R114, R210 to R221, R335: a population instruction whose participants have all arrived at one address and whose spec can
be read has its effect on the whole population; a participant elsewhere is ILLCONV; one that has not arrived is waited for; a spec outside
its limits is RANGE; a walk of the spec that fails holds the lowest participant. GROUP keeps the first thread of every key, its entries
combined over the threads of that key; JOIN and JOINC put the output of the join into the population, and the left rows that the cap leaves
over into the stash. The registers of the crews that have started are written, so that their lines take the context's tag (R290; which
lines, log entry 20). A JOINC without a join in progress only passes on, its cursors cleared (the model's reading, log entry 46; those of
crews that have ended stay, log entry 123); the right column is read before the stash is written (log entry 94). -/
def Obligations.PopulationInstructionsActTogether : Prop :=
  ∀ (s : State) (w : Workgroup) (c : Crew) (slot : Nat) (low : Crew) (rest : List (Nat × Crew)) (pa : Nat), Issuing s w c → w.participants c.role = (slot, low) :: rest → ∀ (a : Reg) (pack left : Bool) (k : BitVec 5),
    let parts := w.participants c.role
    let spec : BitVec 256 := BitVec.ofNat 256 (leNat (s.readBytes w.ctx pa 32))
    let t := s.touchRange (.ctx w.ctx) true pa 32
    let regs := t.regsOf w low
    let wid := s.cur.key.wid
    let pops := [Instr.group a pack, .join k left a, .joinc k left a]
    (∀ w' : Workgroup, { t.putPop wid w' with tags := t.tags } = t.putWg wid w'
      ∧ ∀ e ∈ w'.crews, e.2.status ≠ .reserved → ∀ array, array < 2 →
          (t.putPop wid w').tags.find? (tagKey array w'.die w'.core (2048 * w'.share + e.1 % 64)) = some ⟨w'.ctx, (t.ctx w'.ctx).secure⟩)
  ∧ ((∃ p ∈ parts, s.arrived w p.2 = false) → ∀ i ∈ pops, exec i s = .next s)
  ∧ ((∀ p ∈ parts, s.arrived w p.2 = true) → (∃ p ∈ parts, p.2.pc ≠ low.pc) → ∀ i ∈ pops, exec i s = collectiveTrap s w parts .illconv 0)
  ∧ ((∀ p ∈ parts, s.arrived w p.2 = true ∧ p.2.pc = low.pc) → (low.s2 a).toNat % 32 ≠ 0 →
      ∀ i ∈ pops, exec i s = collectiveTrap s w parts .align 0)
  ∧ ((∀ p ∈ parts, s.arrived w p.2 = true ∧ p.2.pc = low.pc) → (low.s2 a).toNat % 32 = 0 → (low.s2 a).toNat < 2 ^ 52 →
      (∀ code, s.xlate w.die w.ctx .rd (low.s2 a).toNat = .fail code →
        ∀ i ∈ pops, exec i s = .next (s.holdAt ⟨wid, slot⟩ .scalar true code (low.s2 a).toNat))
      ∧ (s.xlate w.die w.ctx .rd (low.s2 a).toNat = .ok pa →
        (groupBad spec regs = true → exec (.group a pack) s = collectiveTrap t w parts .range 0)
        ∧ (groupBad spec regs = false →
            let classes := groupClasses w (specKeys spec) (popThreads parts) []
            let w1 := groupCombine w (groupEntries spec) classes
            let alive := classes.map (·.1)
            (classes.Pairwise (fun x y => sameKey w (specKeys spec) x.1 y.1 = false))
            ∧ (∀ x ∈ classes, x.2 = (popThreads parts).filter (sameKey w (specKeys spec) x.1) ∧ x.2.head? = some x.1)
            ∧ (∀ th ∈ popThreads parts, ∃ x ∈ classes, th ∈ x.2)
            ∧ (∀ x ∈ classes, ∀ e ∈ groupEntries spec,
                (w1.crews.get x.1.1).v e.reg x.1.2 = e.combine (x.2.map (fun th => (w.crews.get th.1).v e.reg th.2)))
            ∧ exec (.group a true) s = .next (t.putPop wid (w1.fill t.tick regs (t.width w) low
                (parts.map (fun p => (p.1, w1.crews.get p.1))) (alive.map (fun th => (w1.crews.get th.1).thread regs th.2))))
            ∧ exec (.group a false) s = .next (t.putPop wid (w1.install low (parts.filterMap (fun p =>
                if maskWhere (fun l => alive.contains (p.1, l)) = 0 then none
                else some (p.1, w1.crews.get p.1, maskWhere (fun l => alive.contains (p.1, l)))))))
            ∧ (SMap.Sorted w.crews → ∃ w', exec (.group a pack) s = .next (t.putPop wid w')
                ∧ w'.scratch = w.scratch ∧ w'.tiles = w.tiles ∧ w'.accs = w.accs ∧ w'.bars = w.bars
                ∧ ∀ e ∈ w.crews, e.2.role ≠ c.role → w'.crews.find? e.1 = some e.2))
        ∧ (let rel := (t.gridOf w).buf k.toNat
           let j := w.jcur.get low.role.toNat
           let stash := nfld spec 160 32
           let keyOf := fun (th : Thread) (n : Nat) => th.v.getD ((specKeys spec).getD n 256) 0
           let output := fun (rows : List Thread) (start rp : Nat) =>
             joinRows (fun th => matchesOf w rel (keyOf th 0) (keyOf th 1)) left ((t.gridOf w).copy.crewsMax low.role.toNat * t.width w)
               (rows.drop start) start rp []
           let put := fun (w' : Workgroup) (j' : DWord) (o : List (Thread × Option Nat)) => Host.Outcome.next (t.putPop wid
             ((w'.setJcur low.role j').fill t.tick regs (t.width w) low parts (o.map (joinThread w rel spec left))))
           joinBad spec rel regs = false → rel.relationBad (t.gridOf w).spBytes = false →
           (∀ e ∈ joinEntries spec, 4 * e.2 + 4 ≤ rel.strideY) →
            (let rows := (popThreads parts).map (fun th => (w.crews.get th.1).thread regs th.2)
             ((output rows 0 0).2 = none → exec (.join k left a) s = put w 0x80000000#64 (output rows 0 0).1)
             ∧ (∀ stop, (output rows 0 0).2 = some stop →
                 let kept := rows.drop stop.li
                 (stash + kept.length * stashSize regs ≤ (t.gridOf w).spBytes → exec (.join k left a) s =
                   put { w with scratch := w.scratch.putList stash (kept.flatMap Thread.record) }
                     (jcurOf stop.rp kept.length 0) (output rows 0 0).1)
                 ∧ ((t.gridOf w).spBytes < stash + kept.length * stashSize regs →
                   exec (.join k left a) s = collectiveTrap t w parts .bounds 0)))
            ∧ (jcurDone j = true → exec (.joinc k left a) s = .next (t.putWg wid (parts.foldl
                (fun (x : Workgroup) p => x.putCrew p.1 { p.2.parted with pc := p.2.pc + 4, cursors := [] }) w)))
            ∧ (jcurDone j = false →
                let rows := (List.range (jcurLcnt j)).map (fun n => stashThread w (stash + n * stashSize regs) regs)
                let o := output rows (jcurLidx j) (jcurRpos j)
                ((t.gridOf w).spBytes < stash + jcurLcnt j * stashSize regs →
                  exec (.joinc k left a) s = collectiveTrap t w parts .bounds 0)
                ∧ (stash + jcurLcnt j * stashSize regs ≤ (t.gridOf w).spBytes →
                  (o.2 = none → exec (.joinc k left a) s = put w 0x80000000#64 o.1)
                  ∧ ∀ stop, o.2 = some stop → exec (.joinc k left a) s = put w (jcurOf stop.rp (jcurLcnt j) stop.li) o.1)))))

/-- R214, R218, R220: a JOIN whose rows fit, and a JOINC whose remaining rows fit, end with the join cursor idle: DONE 1 and
everything else 0 (R220). It is stated of `joinRun`, which JOIN and JOINC run once their spec and record have passed. -/
def Obligations.JoinsThatFitLeaveTheCursorIdle : Prop :=
  ∀ (s : State) (w : Workgroup) (parts : List (Nat × Crew)) (low : Crew) (spec : BitVec 256) (rel : BufRec) (outer again : Bool),
    let g := s.gridOf w
    let regs := s.regsOf w low
    let stash := nfld spec 160 32
    let j := w.jcur.get low.role.toNat
    let left := if again then (List.range (jcurLcnt j)).map (fun i => stashThread w (stash + i * stashSize regs) regs)
      else (popThreads parts).map (fun t => (w.crews.get t.1).thread regs t.2)
    let start := if again then jcurLidx j else 0
    let keyOf := fun (t : Thread) (n : Nat) => t.v.getD ((specKeys spec).getD n 256) 0
    (again = true → stash + jcurLcnt j * stashSize regs ≤ g.spBytes) →
    (joinRows (fun t => matchesOf w rel (keyOf t 0) (keyOf t 1)) outer (g.copy.crewsMax low.role.toNat * s.width w)
      (left.drop start) start (if again then jcurRpos j else 0) []).2 = none →
    ∃ w', joinRun s w parts low spec rel outer again = .next (s.putPop s.cur.key.wid w')
      ∧ w'.jcur.get low.role.toNat = 0x80000000#64 ∧ w'.scratch = w.scratch

/-- R227 to R235: the sequence instructions with status OK: sd becomes 0 and the sequence changes as each rule says; a
sequence that is not open, open already, without the snapshot, or at a position not allowed answers its status and changes
nothing; no other sequence changes. A handle outside the context's grant traps PERM before any other check of the operands,
with DETAIL 0 (the model's reading, log entry 35). As accesses of their crew (R103, R120) they wait for those that an LSYNC or a fence has
put before them (R109). -/
def Obligations.SequencesOpenSnapRollForkCommitClose : Prop :=
  (∀ (s : State) (w : Workgroup) (c : Crew), Issuing s w c → ∀ (d a b : Reg),
      let x := s.ctx w.ctx
      let h := (c.s a).toNat % 65536
      let new := (c.s a).toNat / 65536
      let pos := (c.s b).toNat
      let answers := fun (i : Instr) (n : Word) => ∃ c', ScalarWritten c c' d n ∧ Becomes i s w.spoil (c'.advance 4)
      let does := fun (i : Instr) (n0 : Nat) (ok : Context → Prop) => ∃ c' w' x', ScalarWritten c c' d 0 ∧ ok x'
        ∧ exec i s = .next (State.put { s with ctxs := s.ctxs.insert w.ctx x' } s.cur.key w' (c'.advance 4))
        ∧ (∀ n, n ≠ n0 → x'.seqs.find? n = x.seqs.find? n)
        ∧ { w' with handles := w.handles, idem := w.idem } = w
      c.full a = true → c.full b = true → x.grants h = true →
      ((∃ y ∈ c.flying, y.done = false ∧ (y.id ∈ c.orderS ∨ y.id ∈ c.orderW)) →
        (new = 0 → pos < 65536 → x.arenaSz ≠ 0 → exec (.ssopen d a b) s = .next s) ∧ (new = 0 → exec (.ssclose d a) s = .next s)
        ∧ (new = 0 → pos < 2 ^ 24 → ∀ i ∈ [Instr.sssnap d a b, .ssroll d a b, .sscommit d a b], exec i s = .next s)
        ∧ (x.grants new = true → pos < 2 ^ 24 → exec (.ssfork d a b) s = .next s))
    ∧ ((∀ y ∈ c.flying, y.done = true ∨ (y.id ∉ c.orderS ∧ y.id ∉ c.orderW)) →
      (new = 0 → pos < 65536 → x.arenaSz ≠ 0 → x.seqs.find? h = none →
        does (.ssopen d a b) h (fun x' => x'.seqs.find? h = some ⟨pos % 256 + 1, pos / 256 + 1, [], 0, [], none⟩))
    ∧ (new = 0 → pos < 65536 → x.arenaSz ≠ 0 → (x.seqs.find? h).isSome = true → answers (.ssopen d a b) 2)
    ∧ (new = 0 → x.seqs.find? h = none → answers (.ssclose d a) 1
        ∧ (pos < 2 ^ 24 → answers (.sssnap d a b) 1 ∧ answers (.ssroll d a b) 1 ∧ answers (.sscommit d a b) 1))
    ∧ (∀ q, new = 0 → x.seqs.find? h = some q → does (.ssclose d a) h (fun x' => x'.seqs.find? h = none))
    ∧ (∀ q, new = 0 → pos < 2 ^ 24 → x.seqs.find? h = some q →
        (pos < q.hpos → answers (.sssnap d a b) 5)
        ∧ (q.hpos ≤ pos → does (.sssnap d a b) h (fun x' => ∃ q', x'.seqs.find? h = some q' ∧ q'.hpos = pos ∧ q'.head = q.head
            ∧ q'.ring.find? pos = some q.head
            ∧ ∀ p, p ≠ pos → q'.ring.find? p =
                if q.ring.find? pos = none ∧ 16 ≤ q.ring.length ∧ q.evictable = some p then none else q.ring.find? p))
        ∧ (∀ e, c.full e = true → (c.s e).toNat = 2 ^ 24 + pos →
            (pos < q.hpos → answers (.sssnap d a e) 5)
            ∧ (q.hpos ≤ pos → does (.sssnap d a e) h (fun x' => x'.seqs.find? h = some { q with hpos := pos })))
        ∧ (q.ring.find? pos = none → answers (.ssroll d a b) 3 ∧ answers (.sscommit d a b) 3)
        ∧ (∀ refs, q.ring.find? pos = some refs →
            does (.ssroll d a b) h (fun x' => ∃ q', x'.seqs.find? h = some q' ∧ q'.head = refs ∧ q'.hpos = pos
              ∧ q'.cpos = q.cpos ∧ q'.nlayer = q.nlayer ∧ q'.leaves = q.leaves
              ∧ ∀ p, q'.ring.find? p = if p ≤ pos then q.ring.find? p else none)
            ∧ ((∀ p, q.cpos = some p → p ≤ pos) →
                does (.sscommit d a b) h (fun x' => ∃ q', x'.seqs.find? h = some q' ∧ q'.cpos = some pos ∧ q'.head = q.head
                  ∧ q'.hpos = q.hpos ∧ q'.nlayer = q.nlayer ∧ q'.leaves = q.leaves
                  ∧ ∀ p, q'.ring.find? p = if pos ≤ p then q.ring.find? p else none))
            ∧ (∀ p, q.cpos = some p → pos < p → answers (.sscommit d a b) 5)))
    ∧ (x.grants new = true → pos < 2 ^ 24 →
        (x.seqs.find? h = none → answers (.ssfork d a b) 1)
        ∧ (∀ q, x.seqs.find? h = some q → ((x.seqs.find? new).isSome = true → answers (.ssfork d a b) 2)
            ∧ (x.seqs.find? new = none → q.ring.find? pos = none → answers (.ssfork d a b) 3)))
    ∧ (∀ q refs, x.grants new = true → pos < 2 ^ 24 → x.seqs.find? h = some q → x.seqs.find? new = none →
        q.ring.find? pos = some refs →
        does (.ssfork d a b) new (fun x' => x'.seqs.find? new = some ⟨q.nlayer, q.leaves, refs, pos, [(pos, refs)], none⟩))))
  ∧ (∀ (s : State) (w : Workgroup) (c : Crew), Issuing s w c → ∀ (d a b : Reg) (t : BitVec 4),
      c.full a = true → c.full b = true → (s.ctx w.ctx).grants ((c.s a).toNat % 65536) = false →
      ∀ i ∈ [Instr.ssopen d a b, .ssld d a b t, .ssst d a b t, .sssnap d a b, .ssroll d a b, .ssfork d a b, .sscommit d a b,
        .ssclose d a],
      Traps i s .perm 0)

/-- R101, R102, R228, R231, R358: SSST stores a tile in a fresh leaf where the piece has none or shares it, else in place, and answers 4
where no leaf is free; the pieces of every sequence else keep their leaves and these their bytes. SSLD of a piece reads its leaf; a piece
never stored reads as zeros; a poisoned leaf raises STPOISON with the handle. The arena holds 16,384 leaves for each 64 MiB (log entry 34).
Both wait for the accesses that must precede them (R103, R109, R120). That a poisoned leaf is overwritten in place is the model's choice
(log entry 102). A leaf in a region that takes none stands in the arena alone (R359); which region it is in is log entry 69. -/
def Obligations.SequencePiecesLoadAndStore : Prop :=
  ∀ (s : State) (w : Workgroup) (c : Crew), Issuing s w c → ∀ (d a b : Reg) (t : BitVec 4) (q : Seq),
    let x := s.ctx w.ctx
    let h := (c.s a).toNat
    let layer := (c.s b).toNat % 256
    let leaf := (c.s b).toNat / 256
    let piece := 256 * layer + leaf
    let shared := ∀ l, q.head.find? piece = some l → 1 < x.count l
    let stored := { w.spoil with handles := h :: w.handles.erase h }
    let after := ∀ y ∈ c.flying, y.done = true ∨ y.id ∉ c.orderW
    let free := x.leaves.length < x.arenaSz.toNat * 16384
    c.full a = true → c.full b = true → h < 65536 → x.grants h = true → (c.s b).toNat < 65536 →
    ((∃ y ∈ c.flying, y.done = false ∧ y.id ∈ c.orderS) → exec (.ssld d a b t) s = .next s)
  ∧ ((∃ y ∈ c.flying, y.done = false ∧ (y.id ∈ c.orderS ∨ y.id ∈ c.orderW)) → exec (.ssst d a b t) s = .next s)
  ∧ ((∀ y ∈ c.flying, y.done = true ∨ y.id ∉ c.orderS) →
    (s.tileLimit w ≤ t.toNat → Traps (.ssld d a b t) s .range 0 ∧ (after → Traps (.ssst d a b t) s .range 0))
  ∧ (t.toNat < s.tileLimit w → x.seqs.find? h = none → (∃ c', ScalarWritten c c' d 1 ∧ Becomes (.ssld d a b t) s w (c'.advance 4))
      ∧ (after → ∃ c', ScalarWritten c c' d 1 ∧ Becomes (.ssst d a b t) s w.spoil (c'.advance 4)))
  ∧ (t.toNat < s.tileLimit w → x.seqs.find? h = some q →
      (q.nlayer ≤ layer ∨ q.leaves ≤ leaf → Traps (.ssld d a b t) s .range 0 ∧ (after → Traps (.ssst d a b t) s .range 0))
      ∧ (layer < q.nlayer → leaf < q.leaves →
        (∀ bytes, (q.head.find? piece = none ∧ bytes = []
            ∨ ∃ l, q.head.find? piece = some l ∧ (x.leaves.get l).poisoned = false ∧ bytes = (x.leaves.get l).bytes) →
          ∃ c' w', ScalarWritten c c' d 0
          ∧ exec (.ssld d a b t) s = .next (State.put { s with ctxs := s.ctxs.insert w.ctx x } s.cur.key w' (c'.advance 4))
          ∧ w' = { w with tiles := w.tiles.put t.toNat bytes })
        ∧ (∀ l, q.head.find? piece = some l → (x.leaves.get l).poisoned = true →
          Traps (.ssld d a b t) s .stpoison (BitVec.ofNat 64 h))
        ∧ (after → shared → free → ∃ c' x' q' l, ScalarWritten c c' d 0
          ∧ exec (.ssst d a b t) s = .next (State.put { s with ctxs := s.ctxs.insert w.ctx x' } s.cur.key stored (c'.advance 4))
          ∧ x'.seqs.find? h = some q' ∧ q'.head.find? piece = some l ∧ (∀ p, p ≠ piece → q'.head.find? p = q.head.find? p)
          ∧ q'.ring = q.ring ∧ q'.hpos = q.hpos ∧ q'.cpos = q.cpos
          ∧ x.leaves.find? l = none ∧ x'.leaves.find? l = some ⟨w.tiles.get t.toNat, false, s.takesLeaf w.ctx l⟩
          ∧ (∀ n, n ≠ h → x'.seqs.find? n = x.seqs.find? n)
          ∧ ∀ n r p m, x.seqs.find? n = some r → r.head.find? p = some m → (n ≠ h ∨ p ≠ piece) → (x.leaves.find? m).isSome = true →
              x'.leaves.find? m = x.leaves.find? m)
        ∧ (after → shared → ¬ free → ∃ c', ScalarWritten c c' d 4 ∧ Becomes (.ssst d a b t) s w.spoil (c'.advance 4))
        ∧ (∀ l, q.head.find? piece = some l → x.count l ≤ 1 → after → ∃ c' x', ScalarWritten c c' d 0
          ∧ exec (.ssst d a b t) s = .next (State.put { s with ctxs := s.ctxs.insert w.ctx x' } s.cur.key stored (c'.advance 4))
          ∧ x'.seqs = x.seqs ∧ x'.leaves.find? l = some ⟨w.tiles.get t.toNat, false, s.takesLeaf w.ctx l⟩
          ∧ ∀ m, m ≠ l → x'.leaves.find? m = x.leaves.find? m))))

/-- R86, R96, R97, R106, R237 to R240: the key-value instructions issue their accesses once handle, sequence and addresses are in order: to
the words that the handle's bases give. KVLD makes its reads in one step at its issue, each once what it must follow is performed (the
model's reading, log entry 37), and its tile and its pair land later; KVAPP traps BOUNDS where a block is not resident. -/
def Obligations.KeyValueInstructionsIssue : Prop :=
  ∀ (s : State) (w : Workgroup) (c : Crew), Issuing s w c → ∀ (d a b r : Reg) (t : BitVec 4) (m : BitVec 5),
    let h := (s.gridOf w).buf m.toNat
    let sel := c.s a
    let at_ := nfld h 128 52 + (c.s a).toNat % 65536 * 16
    let may := fun (k : AccessKind) (parts : List Part) => c.mayRead (kvAccess c h k .strong parts)
    c.allFull [a, b, r, d] = true → sel.toNat < 2 ^ 24 → h.kvHandle = true → sel.toNat / 65536 < h.nhead → at_ + 4 < 2 ^ 52 →
    (∀ pa, s.xlate w.die w.ctx .wr at_ = .ok pa → c.roomOn (some .st) = true →
      Becomes (.kvtrunc a b m) s w.spoil ((c.issue (kvAccess c h (.kvtrunc at_) .strong
        [{ onePart at_ 4 ((c.s b).zeroExtend 128) 0 with pa := some pa }])).advance 8))
  ∧ (∀ pa, s.xlate w.die w.ctx .rw (at_ + 4) = .ok pa →
      Becomes (.kvstep d a m) s w.spoil ((c.issue (kvAccess c h (.kvstep at_ d) .strong
        [{ onePart (at_ + 4) 4 0 0 with pa := some pa }])).advance 8))
  ∧ (∀ block, t.toNat < s.tileLimit w → (c.s b).toNat % 32 = 0 → c.roomOn (some .tl) = true →
      s.kvBlock w (may (.kvld d t.toNat [] 0) [onePart 0 0 0 0]) h sel (c.s b).toNat (c.s r).toNat = .got block →
      let reads := block.reads h sel (c.s b).toNat
      let kind : AccessKind := .kvld d t.toNat (SMap.putList [] 0 (block.rows.flatMap (·.1))) block.status
      exec (.kvld d a b r t m) s = .next ((s.touchAt w h.allocates reads).put s.cur.key w
        ((((c.issue (kvAccess c h kind .strong [onePart 0 0 0 0])).awaitS d c.nextId).awaitS d.odd c.nextId).advance 8)))
  ∧ (∀ len es rs l, let n := (c.s d).toNat
      let p := (c.s b).toNat
      let reads := (at_, 4) :: (kvBlocks p n).map (fun x => (h.mapAt sel (32 * x), 4))
      t.toNat < s.tileLimit w → 1 ≤ n → n ≤ 32 → p + n ≤ h.positions → c.roomOn (some .st) = true →
      (∀ x ∈ reads, may (.kvapp at_ n) [] x.1 x.2 = true) →
      (s.kvNotResident w h sel (kvBlocks p n) = true → Traps (.kvapp d a b r t m) s .bounds 0)
      ∧ (s.kvNotResident w h sel (kvBlocks p n) = false →
        s.kvWord w (may (.kvapp at_ n) []) at_ = .got len → s.kvEntries w (may (.kvapp at_ n) []) h sel (kvBlocks p n) = .got es →
        s.kvParts w .wr ((List.range n).map (kvRowParts h sel (w.tiles.get t.toNat) es p (c.s r).toNat)).flatten = .got rs →
        s.kvParts w .rw [{ onePart at_ 4 (BitVec.ofNat 128 (p + n)) 0 with unit := n }] = .got l →
        exec (.kvapp d a b r t m) s = .next ((s.touchAt w h.allocates reads).put s.cur.key w.spoil
          ((c.issue (kvAccess c h (.kvapp at_ n) .strong (rs ++ l))).advance 8))))

/-! Lane instructions. -/

/-- R132, R171, R172, R174: integer arithmetic, formed exactly over the operands read by TYPE, then reduced modulo 2^32 or, with
SAT, clamped to the type's range, in every lane of the executing set. -/
def Obligations.LaneIntegerArithmetic : Prop :=
  let val := fun (f : LaneFields) (x : Word) => if f.signed then x.toInt else (x.toNat : Int)
  let out := fun (f : LaneFields) (r : Int) =>
    if f.sat then (if f.signed then BitVec.ofInt 32 (max (-2 ^ 31) (min r (2 ^ 31 - 1))) else BitVec.ofInt 32 (max 0 (min r (2 ^ 32 - 1))))
    else BitVec.ofInt 32 r
  LaneComputes2 .iadd .iaddI (fun f a b => out f (val f a + val f b))
  ∧ LaneComputes2 .isub .isubI (fun f a b => out f (val f a - val f b))
  ∧ LaneComputes2 .imul .imulI (fun f a b => out f (val f a * val f b))
  ∧ LaneComputes2 .imulh .imulhI (fun f a b => out f (val f a * val f b / 2 ^ 32))
  ∧ LaneComputes .imad (fun f a b c => out f (val f a * val f b + val f c))
  ∧ LaneComputes2 .imin .iminI (fun f a b => out f (min (val f a) (val f b)))
  ∧ LaneComputes2 .imax .imaxI (fun f a b => out f (max (val f a) (val f b)))
  ∧ LaneComputes .iabs (fun f a _ _ => out f (if val f a < 0 then -val f a else val f a))
  ∧ LaneComputes .ineg (fun f a _ _ => out f (-val f a))

/-- R176: logic, shifts and rotates; LOP looks each bit up in its table. R177: bit counts, reversal, field
extraction and insertion, LEA, SEL, MOV and MOVI. -/
def Obligations.LaneLogicBitsAndMoves : Prop :=
  LaneComputes2 .land .landI (fun _ a b => a &&& b)
  ∧ LaneComputes2 .lor .lorI (fun _ a b => a ||| b)
  ∧ LaneComputes2 .lxor .lxorI (fun _ a b => a ^^^ b)
  ∧ LaneComputes2 .andn .andnI (fun _ a b => a &&& ~~~b)
  ∧ LaneComputes .lnot (fun _ a _ _ => ~~~a)
  ∧ (∃ lop : BitVec 8 → Word → Word → Word → Word, LaneComputes .lop (fun f a b c => lop f.lut a b c)
      ∧ ∀ t a b c n, n < 32 → flag (lop t a b c) n = tableBit t (flag a n) (flag b n) (flag c n))
  ∧ LaneComputes2 .lshl .lshlI (fun _ a b => a <<< (b.toNat % 32))
  ∧ LaneComputes2 .lshr .lshrI (fun _ a b => a >>> (b.toNat % 32))
  ∧ LaneComputes2 .lsra .lsraI (fun _ a b => a.sshiftRight (b.toNat % 32))
  ∧ LaneComputes2 .rotl .rotlI (fun _ a b => (a <<< (b.toNat % 32)) ||| (a >>> (32 - b.toNat % 32)))
  ∧ LaneComputes .lpopc (fun _ a _ _ => BitVec.ofNat 32 ((List.range 32).countP (fun n => flag a n)))
  ∧ (∃ lz : Word → Nat, lz 0 = 32 ∧ (∀ x, x ≠ 0 → lz x < 32 ∧ 2 ^ (31 - lz x) ≤ x.toNat ∧ x.toNat < 2 ^ (32 - lz x))
      ∧ LaneComputes .lclz (fun _ a _ _ => BitVec.ofNat 32 (lz a)))
  ∧ (∃ rev : Word → Word, (∀ x n, n < 32 → flag (rev x) n = flag x (31 - n)) ∧ LaneComputes .brev (fun _ a _ _ => rev a))
  ∧ (∃ ext : Bool → Word → Nat → Nat → Word, LaneComputes .bfe (fun f a b c => ext f.signed a (b.toNat % 32) (min (c.toNat % 64) (32 - b.toNat % 32)))
      ∧ ∀ signed a p l n, l ≤ 32 - p → p < 32 → n < 32 → flag (ext signed a p l) n
          = if n < l then flag a (p + n) else signed && decide (0 < l) && flag a (p + l - 1))
  ∧ (∃ ins : Word → Word → Nat → Nat → Word,
      LaneComputes .bfi (fun _ a b c => ins a b (c.toNat % 32) (min (c.toNat / 256 % 64) (32 - c.toNat % 32)))
      ∧ ∀ a b p l n, l ≤ 32 - p → p < 32 → n < 32 → flag (ins a b p l) n = if p ≤ n ∧ n < p + l then flag b (n - p) else flag a n)
  ∧ LaneComputes2 .llea .lleaI (fun f a b => a + b <<< f.subop.toNat)
  ∧ LaneResult .lsel (fun _ _ c f l => if flag (c.pred f.srcc.toNat) l then source (.lsel f) f c 1 l else source (.lsel f) f c 2 l)
  ∧ LaneComputes .lmov (fun _ a _ _ => a)
  ∧ LaneComputesImm .movi (fun _ _ b => b)

/-- R65, R72, R76, R178, R180: FP32 arithmetic: the exact sum or product rounded once to nearest even; FMIN and FMAX give the lesser
and the greater, ignore a NaN beside a number and give the canonical NaN for two; FRCP, FRSQ and FSQRT give the FP32 value nearest to
the exact one, of two equally near the even one: twice the exact value lies between the sums of the result with its neighbours.
FEXP2 and FLOG2 lie between the powers, and the logarithms of the powers, of two next to their argument, and are exact there (below and
above the normal numbers too, where those powers round to subnormals, to zero and to infinity); how
they round between is the model's reading (log entry 11). The special inputs give the values of R76's table. FCLASS sets the one bit of its
argument's class. -/
def Obligations.LaneFloatArithmetic : Prop :=
  let once := fun (ts : List Sys2Proof.Num) => BitVec.ofNat 32 (fp32.encode .rne false 0 false (Sys2Proof.Num.sum ts))
  let twice := fun (n : Nat) => Dy.sum [fp32.magnitude false n, fp32.magnitude false (n + 1)]
  let nearest := fun (r : Nat) (cmp : Dy → Dy × Dy) => r ≤ 0x7F800000
    ∧ (r ≠ 0 → (cmp (twice (r - 1))).1.le (cmp (twice (r - 1))).2 = true
        ∧ (r % 2 = 1 → (cmp (twice (r - 1))).1.lt (cmp (twice (r - 1))).2 = true))
    ∧ (r < 0x7F800000 → (cmp (twice r)).2.le (cmp (twice r)).1 = true ∧ (r % 2 = 1 → (cmp (twice r)).2.lt (cmp (twice r)).1 = true))
  LaneComputes2 .fadd .faddI (fun _ a b => once [fp32.decode a.toNat, fp32.decode b.toNat])
  ∧ LaneComputes2 .fsub .fsubI (fun _ a b => once [fp32.decode a.toNat, (fp32.decode b.toNat).flip])
  ∧ LaneComputes2 .fmul .fmulI (fun _ a b => toF32 ((ofF32 a).mul (ofF32 b)))
  ∧ LaneComputes .ffma (fun _ a b c => once [(fp32.decode a.toNat).mul (fp32.decode b.toNat), fp32.decode c.toNat])
  ∧ (∃ lo hi : Word → Word → Word, LaneComputes2 .fmin .fminI (fun _ a b => lo a b) ∧ LaneComputes2 .fmax .fmaxI (fun _ a b => hi a b)
      ∧ (∀ a b, (ofF32 a).isNan = true → (ofF32 b).isNan = true → lo a b = 0x7FC00000 ∧ hi a b = 0x7FC00000)
      ∧ (∀ a b, (ofF32 a).isNan = true → (ofF32 b).isNan = false → lo a b = b ∧ hi a b = b ∧ lo b a = b ∧ hi b a = b)
      ∧ (∀ a b, (ofF32 a).isNan = false → (ofF32 b).isNan = false →
          (lo a b = a ∨ lo a b = b) ∧ (hi a b = a ∨ hi a b = b)
          ∧ fkey (lo a b) ≤ fkey a ∧ fkey (lo a b) ≤ fkey b ∧ fkey a ≤ fkey (hi a b) ∧ fkey b ≤ fkey (hi a b)))
  ∧ LaneComputes .frcp (fun _ a _ _ => frcp a) ∧ LaneComputes .frsq (fun _ a _ _ => frsq a)
  ∧ LaneComputes .fsqrt (fun _ a _ _ => fsqrt a) ∧ LaneComputes .fexp2 (fun _ a _ _ => fexp2 a)
  ∧ LaneComputes .flog2 (fun _ a _ _ => flog2 a)
  ∧ (∀ a x, fp32.decode a.toNat = .fin x → x.m ≠ 0 →
      (flag (frcp a) 31 = x.neg ∧ nearest (nfld (frcp a) 0 31) (fun m => (x.abs.mul m, ⟨false, 2, 0⟩)))
      ∧ (x.neg = false → nearest (fsqrt a).toNat (fun m => (m.mul m, x.mul ⟨false, 4, 0⟩))
          ∧ nearest (frsq a).toNat (fun m => (x.mul (m.mul m), ⟨false, 4, 0⟩)))
      ∧ (x.neg = true → fsqrt a = 0x7FC00000 ∧ frsq a = 0x7FC00000 ∧ flog2 a = 0x7FC00000)
      ∧ (∀ k : Int, -126 ≤ k → k ≤ 126 → (Dy.ofInt k).le x = true → x.lt (Dy.ofInt (k + 1)) = true →
          ((k + 127) * 2 ^ 23 : Int) ≤ (fexp2 a).toNat ∧ ((fexp2 a).toNat : Int) ≤ (k + 128) * 2 ^ 23
          ∧ (x.le (Dy.ofInt k) = true → ((fexp2 a).toNat : Int) = (k + 127) * 2 ^ 23))
      ∧ (∀ k : Int, (Dy.ofInt k).le x = true → x.lt (Dy.ofInt (k + 1)) = true →
          (toF32 (.fin ⟨false, 1, k⟩)).toNat ≤ (fexp2 a).toNat ∧ (fexp2 a).toNat ≤ (toF32 (.fin ⟨false, 1, k + 1⟩)).toNat
          ∧ (x.le (Dy.ofInt k) = true → fexp2 a = toF32 (.fin ⟨false, 1, k⟩)))
      ∧ (x.neg = false → fkey (toF32 (.fin (Dy.ofInt x.log2))) ≤ fkey (flog2 a)
          ∧ fkey (flog2 a) ≤ fkey (toF32 (.fin (Dy.ofInt (x.log2 + 1))))
          ∧ (x.m = 2 ^ Nat.log2 x.m → flog2 a = toF32 (.fin (Dy.ofInt x.log2)))))
  ∧ ([0, 0x80000000, 0x7F800000, 0xFF800000].map frcp = [0x7F800000, 0xFF800000, 0, 0x80000000]
      ∧ [0, 0x80000000, 0x7F800000, 0xFF800000].map frsq = [0x7F800000, 0xFF800000, 0, 0x7FC00000]
      ∧ [0, 0x80000000, 0x7F800000, 0xFF800000].map fsqrt = [0, 0x80000000, 0x7F800000, 0x7FC00000]
      ∧ [0, 0x80000000, 0x7F800000, 0xFF800000].map fexp2 = [0x3F800000, 0x3F800000, 0x7F800000, 0]
      ∧ [0, 0x80000000, 0x7F800000, 0xFF800000].map flog2 = [0xFF800000, 0xFF800000, 0x7F800000, 0x7FC00000]
      ∧ ∀ a, (ofF32 a).isNan = true → ∀ g ∈ [frcp, frsq, fsqrt, fexp2, flog2], g a = 0x7FC00000)
  ∧ (∃ cl : Word → Nat, LaneComputes .fclass (fun _ a _ _ => BitVec.ofNat 32 (2 ^ cl a))
      ∧ ∀ x : Word, let ex := nfld x 23 8
        (ex = 255 → nfld x 0 23 = 0 → cl x = if flag x 31 then 0 else 7)
        ∧ (ex = 255 → nfld x 0 23 ≠ 0 → cl x = if flag x 22 then 9 else 8)
        ∧ (ex = 0 → nfld x 0 23 = 0 → cl x = if flag x 31 then 3 else 4)
        ∧ (ex = 0 → nfld x 0 23 ≠ 0 → cl x = if flag x 31 then 2 else 5)
        ∧ (ex ≠ 0 → ex ≠ 255 → cl x = if flag x 31 then 1 else 6))

/-- R181, R182, R207, R208: packed pairs, half by half; conversions, with and without a format slot, of one value and between the pair
types; quantisation in element mode and, over the whole crew, in block mode, each by a slot whose format is one of the mode's, else
FMTSLOT, as an unbound slot of a conversion is. Of the slot of a CVT its format but for being bound, its scale and its curve are not
used (R182; that it is R182 and not R69 is the model's choice, log entry 115). -/
def Obligations.LanePackedAndConverted : Prop :=
  let fmt := fun (f : LaneFields) => if f.type = 3 then bf16 else fp16
  let pair := fun (f : LaneFields) (g : Sys2Proof.Num → Sys2Proof.Num → Sys2Proof.Num → Sys2Proof.Num) (a b c : Word) =>
    let half := fun (h : Nat) => BitVec.ofNat 16 ((fmt f).rne (g ((fmt f).decode (a.toNat / 2 ^ h % 65536))
      ((fmt f).decode (b.toNat / 2 ^ h % 65536)) ((fmt f).decode (c.toNat / 2 ^ h % 65536))))
    half 16 ++ half 0
  LaneComputes2 .hadd2 .hadd2I (fun f a b => pair f (fun x y _ => Sys2Proof.Num.sum [x, y]) a b 0)
  ∧ LaneComputes2 .hmul2 .hmul2I (fun f a b => pair f (fun x y _ => x.mul y) a b 0)
  ∧ LaneComputes .hfma2 (fun f a b c => pair f (fun x y z => Sys2Proof.Num.sum [x.mul y, z]) a b c)
  ∧ (∀ (s : State) (f : LaneFields) (w : Workgroup) (c : Crew), LaneReady s (.plain (.cvt f)) f w c →
      let slot := s.slot w f.fa.toNat
      let pair := f.type = 3 ∨ f.type = 4
      let one := fun (mode : Round) (sat : Bool) (draw x : Nat) =>
        convert (cvtType f.type.toNat) (cvtType f.subop.toNat) mode f.sat sat draw (x % 2 ^ (cvtType f.type.toNat).width)
      let gives := fun (mode : Round) (sat : Bool) (draw : Nat → Nat → Nat) => ∃ c',
        LanesWritten c c' (c.executing f) (destination (.cvt f) f c) (fun l =>
          let x := (source (.cvt f) f c 1 l).toNat
          if pair then BitVec.ofNat 32 ((one mode sat (draw l 1) (x / 65536)).toNat * 65536 + (one mode sat (draw l 0) (x % 65536)).toNat)
          else one mode sat (draw l 0) x)
        ∧ exec (.cvt f) s = .next (Passed s w c' f)
      (f.use = false → gives .rne f.sat (fun _ _ => 0))
      ∧ (f.use = true → slot.fmt ≠ 0 → gives slot.mode (f.sat || slot.sat) (s.drawIf w c slot))
      ∧ (f.use = true → slot.fmt = 0 → Traps (.cvt f) s .fmtslot 0))
  ∧ (∀ (s : State) (f : LaneFields) (w : Workgroup) (c : Crew), LaneReady s (.plain (.qnt f)) f w c → f.subop = 0 → elementFormat (s.slot w f.fa.toNat).fmt = true → ∃ c',
      LanesWritten c c' (c.executing f) (destination (.qnt f) f c)
        (fun l => BitVec.ofNat 32 (roundSlot (s.slot w f.fa.toNat) (s.drawIf w c (s.slot w f.fa.toNat) l 0) (ofF32 (source (.qnt f) f c 1 l))))
      ∧ exec (.qnt f) s = .next (Passed s w c' f))
  ∧ (∀ (s : State) (f : LaneFields) (w : Workgroup) (c : Crew), LaneReady s (.plain (.dqt f)) f w c → f.subop = 0 → elementFormat (s.slot w f.fa.toNat).fmt = true → ∃ c',
      LanesWritten c c' (c.executing f) (destination (.dqt f) f c)
        (fun l => toF32 (decSlot (s.slot w f.fa.toNat)
          ((source (.dqt f) f c 1 l).toNat % 2 ^ elemBits (s.slot w f.fa.toNat).fmt) 127 127))
      ∧ exec (.dqt f) s = .next (Passed s w c' f))
  ∧ (∀ (s : State) (f : LaneFields) (w : Workgroup) (c : Crew), f.subop = 1 →
      let slot := s.slot w f.fa.toNat
      let wide := blockFormat slot.fmt = true ∧ 32 ≤ s.width w
      (LaneReady s { LaneSpec.plain (.qnt f) with collective := true } f w c → wide → ∃ c',
        LanesWritten c c' (c.executing f) (destination (.qnt f) f c) (fun l =>
          let lanes := (List.range 32).map (fun j => 32 * (l / 32) + j)
          let b := quantBlock slot (lanes.map (fun x => ofF32 (source (.qnt f) f c 1 x))) (lanes.map (fun x => s.drawIf w c slot x 0))
          BitVec.ofNat 32 (b.codes.getD (l % 32) 0 + b.lo * 2 ^ 16 + b.hi * 2 ^ 24))
        ∧ exec (.qnt f) s = .next (Passed s w c' f))
      ∧ (LaneReady s { LaneSpec.plain (.dqt f) with collective := true } f w c → wide → ∃ c',
        LanesWritten c c' (c.executing f) (destination (.dqt f) f c) (fun l =>
          let scale := source (.dqt f) f c 1 (32 * (l / 32))
          toF32 (decSlot slot ((source (.dqt f) f c 1 l).toNat % 2 ^ elemBits slot.fmt) (nfld scale 16 8) (nfld scale 24 8)))
        ∧ exec (.dqt f) s = .next (Passed s w c' f))
      ∧ (blockFormat slot.fmt = false →
        (LaneReady s { LaneSpec.plain (.qnt f) with collective := true } f w c → Traps (.qnt f) s .fmtslot 0)
        ∧ (LaneReady s { LaneSpec.plain (.dqt f) with collective := true } f w c → Traps (.dqt f) s .fmtslot 0)))
  ∧ (∀ (s : State) (f : LaneFields) (w : Workgroup) (c : Crew), f.subop = 0 → elementFormat (s.slot w f.fa.toNat).fmt = false →
      (LaneReady s (.plain (.qnt f)) f w c → Traps (.qnt f) s .fmtslot 0) ∧ (LaneReady s (.plain (.dqt f)) f w c → Traps (.dqt f) s .fmtslot 0))
  ∧ (∀ (s : State) (f : LaneFields) (w : Workgroup) (c : Crew), Issuing s w c → f.subop = 1 → c.executing f ≠ laneMask (s.width w) →
      (∀ n ∈ [0, 1, 2, 3], (operandAt (.qnt f) f n).outOfRegs (s.regsOf w c) 1 = false
        ∧ (operandAt (.dqt f) f n).outOfRegs (s.regsOf w c) 1 = false) →
      Traps (.qnt f) s .illconv 0 ∧ Traps (.dqt f) s .illconv 0)

/-- R175, R179: comparisons write their predicate in the executing set and leave its other lanes. -/
def Obligations.LaneComparisonsWritePredicates : Prop :=
  PredicateResult .iset (fun c f l => intCompare f.signed f.subop.toNat (source (.iset f) f c 1 l) (source (.iset f) f c 2 l))
  ∧ PredicateResult .isetI (fun c f l => intCompare f.signed f.subop.toNat (source (.isetI f) f c 1 l) f.p2)
  ∧ PredicateResult .fset (fun c f l => floatCompare f.subop.toNat (source (.fset f) f c 1 l) (source (.fset f) f c 2 l))
  ∧ PredicateResult .fsetI (fun c f l => floatCompare f.subop.toNat (source (.fsetI f) f c 1 l) f.p2)

/-- R183, whole: PLOP writes bit (4 pa + 2 pb + pc) of bits 7:0 of parcel 2 to pd in each lane of E; p7 as pd is discarded.
A table of 0xF0 copies pa, and one of 0 clears pd in the lanes of E. -/
def Obligations.PlopLooksItsTableUp : Prop :=
  PredicateResult .plop (fun c f l => flag f.p2 ((if flag (c.pred f.srca.toNat) l then 4 else 0)
      + (if flag (c.pred f.srcb.toNat) l then 2 else 0) + (if flag (c.pred f.srcc.toNat) l then 1 else 0)))
  ∧ (∀ (s : State) (f : LaneFields) (w : Workgroup) (c : Crew), LaneReady s (.plain (.plop f)) f w c → f.dest.toNat % 8 = 7 →
      exec (.plop f) s = .next (Passed s w c f))
  ∧ (∀ (s : State) (f : LaneFields) (w : Workgroup) (c : Crew), LaneReady s (.plain (.plop f)) f w c → fld f.p2 0 8 = 0xF0#8 → ∃ c',
      PredicateWritten c c' (c.executing f) f.dest.toNat (flag (c.pred f.srca.toNat)) ∧ exec (.plop f) s = .next (Passed s w c' f))
  ∧ (∀ (s : State) (f : LaneFields) (w : Workgroup) (c : Crew), LaneReady s (.plain (.plop f)) f w c → fld f.p2 0 8 = 0#8 → ∃ c',
      PredicateWritten c c' (c.executing f) f.dest.toNat (fun _ => false) ∧ exec (.plop f) s = .next (Passed s w c' f))

/-- R44, R45, R184: XSET and XADD, in both forms, check every lane before any changes and trap RANGE where one fails, else set the word or
move IDX; XGET reads it back. -/
def Obligations.IndexRegistersMoveWithinTheirWindows : Prop :=
  ∀ (s : State) (f : LaneFields) (w : Workgroup) (c : Crew), (s.gridOf w).fused = none →
    let e := c.executing f
    let n := f.dest.toNat
    let written := fun (c' : Crew) (val : Nat → Word) => { c' with xreg := c.xreg } = c
      ∧ (∀ l, l < 64 → c'.x n l = if flag e l then val l else c.x n l) ∧ ∀ m l, l < 64 → m ≠ n → c'.x m l = c.x m l
    let good := fun (x : Word) => x.toNat < 2 ^ 26 ∧ x.toNat / 256 % 512 ≤ 256 ∧ x.toNat % 256 + x.toNat / 256 % 512 ≤ s.regsOf w c
    let moved := fun (l : Nat) (x : Word) => ((c.x n l).toNat / 2 ^ 17 % 512 : Int) + x.toInt
    (LaneReady s (.plain (.xset f)) f w c → (∀ l, flag e l = true → good (source (.xset f) f c 1 l)) → ∃ c',
      written c' (source (.xset f) f c 1) ∧ exec (.xset f) s = .next (Passed s w c' f))
  ∧ (LaneReady s (.plain (.xset f)) f w c → (∃ l, flag e l = true ∧ ¬ good (source (.xset f) f c 1 l)) → Traps (.xset f) s .range 0)
  ∧ (LaneReady s (.plain (.xsetI f)) f w c → good f.p2 → ∃ c',
      written c' (fun _ => f.p2) ∧ exec (.xsetI f) s = .next (Passed s w c' f))
  ∧ (LaneReady s (.plain (.xsetI f)) f w c → ¬ good f.p2 → Traps (.xsetI f) s .range 0)
  ∧ (LaneReady s (.plain (.xadd f)) f w c →
      (∃ l, flag e l = true ∧ (moved l (source (.xadd f) f c 1 l) < 0 ∨ 511 < moved l (source (.xadd f) f c 1 l))) →
      Traps (.xadd f) s .range 0)
  ∧ (LaneReady s (.plain (.xaddI f)) f w c → (∃ l, flag e l = true ∧ (moved l f.p2 < 0 ∨ 511 < moved l f.p2)) → Traps (.xaddI f) s .range 0)
  ∧ (LaneReady s (.plain (.xadd f)) f w c →
      (∀ l, flag e l = true → 0 ≤ moved l (source (.xadd f) f c 1 l) ∧ moved l (source (.xadd f) f c 1 l) ≤ 511) → ∃ c',
      written c' (fun l => BitVec.ofNat 32 ((c.x n l).toNat % 2 ^ 17 + (moved l (source (.xadd f) f c 1 l)).toNat * 2 ^ 17))
      ∧ exec (.xadd f) s = .next (Passed s w c' f))
  ∧ (LaneReady s (.plain (.xaddI f)) f w c → (∀ l, flag e l = true → 0 ≤ moved l f.p2 ∧ moved l f.p2 ≤ 511) → ∃ c',
      written c' (fun l => BitVec.ofNat 32 ((c.x n l).toNat % 2 ^ 17 + (moved l f.p2).toNat * 2 ^ 17))
      ∧ exec (.xaddI f) s = .next (Passed s w c' f))
  ∧ (LaneReady s (.plain (.xget f)) f w c → ∃ c',
      LanesWritten c c' e (destination (.xget f) f c) (fun l => BitVec.ofNat 32 ((c.x f.srca.toNat l).toNat % 2 ^ 26))
      ∧ exec (.xget f) s = .next (Passed s w c' f))

/-- R46, R185, R186, R189: specials, ROUTE and SCAN: the value of another lane, of the lanes up to this one, or of a register of the
core. GETL of cycles marks its pair empty and lands it later (the model's reading, log entry 31); tid counts the
live masks of crews that EXIT has ended too (log entry 13). -/
def Obligations.LaneSpecialsRouteAndScan : Prop :=
  (∀ (s : State) (f : LaneFields) (w : Workgroup) (c : Crew), f.special ≠ .cycles → LaneReady s (.plain (.getl f)) f w c → ∃ c',
    LanesWritten c c' (c.executing f) (destination (.getl f) f c) (fun l => match f.special with
      | .tid => BitVec.ofNat 32 (w.tid c l) | .lane => BitVec.ofNat 32 l | sp => BitVec.ofNat 32 (s.special w c (c.sideOf .lane) sp))
    ∧ exec (.getl f) s = .next (Passed s w c' f))
  ∧ (∀ (s : State) (f : LaneFields) (w : Workgroup) (c : Crew), f.special = .cycles → LaneReady s { LaneSpec.plain (.getl f) with groups := (2, 1, 1, 1) } f w c → ∃ c',
    exec (.getl f) s = .next (Passed (s.setClock w (s.clock w)) w c' f)
    ∧ c'.pending = c.pending ++ [⟨c.nextId, [], (lanesOf (c.executing f)).flatMap (fun l =>
        [(laneKey f.dest.toNat l, fld (s.clock w) 0 32), (laneKey (f.dest.toNat + 1) l, fld (s.clock w) 32 32)])⟩]
    ∧ { c' with vTag := c.vTag, pending := c.pending, nextId := c.nextId } = c
    ∧ ∀ r l, l < 64 → c'.vFull r l = (c.vFull r l && !(flag (c.executing f) l && (r == f.dest.toNat || r == f.dest.toNat + 1))))
  ∧ LaneResult .route (fun s w c f l =>
      match routeLane f.subop.toNat (s.width w) l (source (.route f) f c 2 l) with
      | some j => (operandAt (.route f) f 1).heldIn c l j
      | none => source (.route f) f c 3 l)
  ∧ LaneResult .routeI (fun s w c f l =>
      match routeLane f.subop.toNat (s.width w) l f.p2 with
      | some j => (operandAt (.routeI f) f 1).heldIn c l j
      | none => source (.routeI f) f c 3 l)
  ∧ LaneResult .scan (fun _ _ c f l => combineAll (f.subop.toNat % 8) f.type.toNat
      (((List.range 64).filter (fun j => flag (c.executing f) j && (if f.subop.toNat < 8 then decide (j ≤ l) else decide (j < l)))).map
        (source (.scan f) f c 1)))

/-- R147, R187, R188, R223, R243, R244: lane-to-scalar results are held by the run for its end: the vote, the reduction over the
executing set, for .MINIDX and .MAXIDX with the lowest lane that holds it in the register after, the matching counts of two lists and
how far each may be advanced, the sampled place by every step of R79 (a NaN weight leaves no running sum above t: the model's reading,
log entry 15) with its division rounded to nearest even, the first place that differs. ACCEPT of registers that agree everywhere gives
the width (the model's choice, log entry 113). -/
def Obligations.LaneToScalarResultsWaitForTheRun : Prop :=
  ScalarFromLanes .vote (fun f => .plain (.vote f)) (fun s w c f => voteWord f.subop.toNat (s.width w) (c.executing f) (c.pred f.srca.toNat))
  ∧ (∀ (s : State) (f : LaneFields) (w : Workgroup) (c : Crew), LaneReady s (.plain (.redux f)) f w c → f.subop.toNat < 6 → ∃ c',
      ResultHeld c c' f.dest.toNat (combineAll f.subop.toNat f.type.toNat
        (((List.range 64).filter (flag (c.executing f))).map (source (.redux f) f c 1)))
      ∧ exec (.redux f) s = .next (Passed s w c' f))
  ∧ (∀ (s : State) (f : LaneFields) (w : Workgroup) (c : Crew), LaneReady s (.plain (.redux f)) f w c → 6 ≤ f.subop.toNat → f.dest ≠ 0 →
      let lanes := (List.range 64).filter (flag (c.executing f))
      let a := source (.redux f) f c 1
      let holds := fun (v : Word) (l : Nat) => a l = v ∨ (f.type = 2 ∧ isNanWord (a l) = true ∧ isNanWord v = true)
      ∃ c1 c' v l, v = combineAll (f.subop.toNat - 5) f.type.toNat (lanes.map a)
      ∧ ResultHeld c c1 f.dest.toNat v ∧ ResultHeld c1 c' (f.dest.toNat + 1) (BitVec.ofNat 32 l)
      ∧ ((∃ j ∈ lanes, holds v j) → l ∈ lanes ∧ holds v l ∧ ∀ j ∈ lanes, j < l → ¬ holds v j)
      ∧ exec (.redux f) s = .next (Passed s w c' f))
  ∧ ScalarFromLanes .accept (fun f => { LaneSpec.plain (.accept f) with collective := true }) (fun s w c f =>
      BitVec.ofNat 32 (((List.range (s.width w)).find? (fun l => source (.accept f) f c 1 l != source (.accept f) f c 2 l)).getD (s.width w)))
  ∧ (∀ (s : State) (f : LaneFields) (w : Workgroup) (c : Crew), LaneReady s { LaneSpec.plain (.sample f) with collective := true, groups := (1, max f.simm.toNat 1, 1, 1) } f w c →
      s.width w = 32 → f.simm.toNat ≠ 0 →
      let n := 32 * f.simm.toNat
      let x := fun (i : Nat) => c.v (f.srca.toNat + i / 32) (i % 32)
      let least := fun (p : Nat → Prop) (i : Nat) => i < n ∧ p i ∧ ∀ j < i, ¬ p j
      let top := fun (i : Nat) => ∀ j < n, logitKey (x j) ≤ logitKey (x i)
      let out := fun (i : Nat) => isNanWord (x i) = true ∨ x i = 0xFF800000
      let temp := source (.sample f) f c 2 0
      ∃ c' i degen, ResultHeld c c' f.dest.toNat (BitVec.ofNat 32 (i + if degen then 2 ^ 31 else 0))
      ∧ exec (.sample f) s = .next (Passed s w c' f)
      ∧ ((∀ j < n, out j) → i = 0 ∧ degen = true)
      ∧ ((∃ j < n, x j = 0x7F800000) → least (fun j => x j = 0x7F800000) i ∧ degen = true)
      ∧ ((∃ j < n, ¬ out j) → (∀ j < n, x j ≠ 0x7F800000) →
          (nfld temp 0 31 = 0 → least top i ∧ degen = false)
          ∧ (nfld temp 0 31 ≠ 0 → (isNanWord temp = true ∨ flag temp 31 = true) → least top i ∧ degen = true)
          ∧ (nfld temp 0 31 ≠ 0 → isNanWord temp = false → flag temp 31 = false → ∃ m < n, top m ∧
              let weight := fun (j : Nat) =>
                let d := toF32 (Sys2Proof.Num.sum [ofF32 (x j), (ofF32 (x m)).flip])
                let e := toF32 ((ofF32 d).mul (ofF32 0x3FB8AA3B))
                if isNanWord (x j) = true ∨ x j = 0xFF800000 then Sys2Proof.Num.fin Dy.zero
                else if temp = 0x7F800000 ∧ nfld d 23 8 ≠ 255 then ofF32 0x3F800000
                else ofF32 (fexp2 (divF32 (ofF32 e) (ofF32 temp)))
              let upTo := fun (j : Nat) => Dy.sum ((List.range (j + 1)).map (fun j => (weight j).dy))
              let t := (ofF32 (toF32 (.fin ((upTo (n - 1)).mul ⟨false, nfld (source (.sample f) f c 3 0) 8 24, -24⟩)))).dy
              let takes := fun (j : Nat) => (weight j).dy.m ≠ 0 ∧ t.lt (upTo j) = true ∧ ∀ j < n, weight j ≠ .nan
              degen = false ∧ ((∃ j < n, takes j) → least takes i)
              ∧ ((∀ j < n, ¬ takes j) → i < n ∧ (weight i).dy.m ≠ 0 ∧ ∀ j, i < j → j < n → (weight j).dy.m = 0))))
  ∧ (let twice := fun (n : Nat) => Dy.sum [fp32.magnitude false n, fp32.magnitude false (n + 1)]
     let nearest := fun (r : Nat) (cmp : Dy → Dy × Dy) => r ≤ 0x7F800000
       ∧ (r ≠ 0 → (cmp (twice (r - 1))).1.le (cmp (twice (r - 1))).2 = true
           ∧ (r % 2 = 1 → (cmp (twice (r - 1))).1.lt (cmp (twice (r - 1))).2 = true))
       ∧ (r < 0x7F800000 → (cmp (twice r)).2.le (cmp (twice r)).1 = true ∧ (r % 2 = 1 → (cmp (twice r)).2.lt (cmp (twice r)).1 = true))
     ∀ (a b : Word) (y : Dy), ofF32 b = .fin y → y.m ≠ 0 →
       (∀ x, ofF32 a = .fin x → flag (divF32 (ofF32 a) (ofF32 b)) 31 = (x.neg != y.neg)
         ∧ (x.m = 0 → nfld (divF32 (ofF32 a) (ofF32 b)) 0 31 = 0)
         ∧ (x.m ≠ 0 → nearest (nfld (divF32 (ofF32 a) (ofF32 b)) 0 31) (fun m => (y.abs.mul m, x.abs.mul ⟨false, 2, 0⟩))))
       ∧ ∀ neg, ofF32 a = .inf neg → divF32 (ofF32 a) (ofF32 b) = toF32 (.inf (neg != y.neg)))
  ∧ (∀ (s : State) (f : LaneFields) (w : Workgroup) (c : Crew), LaneReady s { LaneSpec.plain (.isect f) with collective := true } f w c → ∃ c1 c',
      LanesWritten c c1 (c.executing f) (fun _ => f.dest.toNat) (fun l =>
        match (intersect (source (.isect f) f c 1) (source (.isect f) f c 2) (s.width w) (2 * s.width w) 0 0)[l]? with
        | some p => BitVec.ofNat 32 (p.1 + p.2 * 65536) | none => 0xFFFFFFFF#32)
      ∧ (let a := source (.isect f) f c 1
         let b := source (.isect f) f c 2
         let m := min (a (s.width w - 1)).toNat (b (s.width w - 1)).toNat
         let upTo := fun (x : Nat → Word) => ((List.range (s.width w)).filter (fun i => decide ((x i).toNat ≤ m))).length
         ResultHeld c1 c' f.xreg.toNat (BitVec.ofNat 32
           ((intersect a b (s.width w) (2 * s.width w) 0 0).length + upTo a * 256 + upTo b * 65536)))
      ∧ exec (.isect f) s = .next (Passed s w c' f))

/-- R222, R241, R242, R78: MATCH finds the lanes with an equal value, TOPK the greatest values with their lanes, RAND four words
of the generator for each thread. -/
def Obligations.LanesMatchRankAndDraw : Prop :=
  (∀ (s : State) (f : LaneFields) (w : Workgroup) (c : Crew) (n : Nat), n = (if s.width w = 64 then 2 else 1) →
    LaneReady s { LaneSpec.plain (.matchL f) with collective := true, groups := (n, 1, 1, 1) } f w c → ∃ (c1 c' : Crew) (m : Nat → Mask),
      LanesWritten c c1 (c.executing f) (destination (.matchL f) f c) (fun l => fld (m l) 0 32)
      ∧ (n = 1 → c' = c1)
      ∧ (n = 2 → LanesWritten c1 c' (c.executing f) (fun l => destination (.matchL f) f c l + 1) (fun l => fld (m l) 32 32))
      ∧ exec (.matchL f) s = .next (Passed s w c' f)
      ∧ ∀ l j, j < 64 → flag (m l) j = (decide (j < s.width w) && source (.matchL f) f c 1 j == source (.matchL f) f c 1 l))
  ∧ (∀ (s : State) (f : LaneFields) (w : Workgroup) (c : Crew), LaneReady s { LaneSpec.plain (.topk f) with collective := true, groups := (2, 1, 1, 1) } f w c → ∃ c1 c',
      let place := fun (r : Nat) => if r < f.simm.toNat
        then (List.range (s.width w)).find? (fun l => rankOf (source (.topk f) f c 1) (s.width w) l == r) else none
      LanesWritten c c1 (c.executing f) (fun _ => f.dest.toNat) (fun r => match place r with
          | some l => if (ofF32 (source (.topk f) f c 1 l)).isNan then 0x7FC00000#32 else source (.topk f) f c 1 l
          | none => 0xFF800000#32)
      ∧ LanesWritten c1 c' (c.executing f) (fun _ => f.dest.toNat + 1) (fun r => match place r with
          | some l => BitVec.ofNat 32 l | none => 0xFFFFFFFF#32)
      ∧ exec (.topk f) s = .next (Passed s w c' f))
  ∧ (∀ (s : State) (f : LaneFields) (w : Workgroup) (c : Crew), LaneReady s { LaneSpec.plain (.rand f) with groups := (4, 1, 1, 1) } f w c → ∃ c1 c2 c3 c',
      let word := fun (l : Nat) => philox ⟨c.runConst 4, c.runConst 5, BitVec.ofNat 32 (w.tid c l), BitVec.ofNat 32 (f.simm.toNat * 256)⟩
        (c.runConst 6) (c.runConst 7)
      LanesWritten c c1 (c.executing f) (fun _ => f.dest.toNat) (fun l => (word l).w0)
      ∧ LanesWritten c1 c2 (c.executing f) (fun _ => f.dest.toNat + 1) (fun l => (word l).w1)
      ∧ LanesWritten c2 c3 (c.executing f) (fun _ => f.dest.toNat + 2) (fun l => (word l).w2)
      ∧ LanesWritten c3 c' (c.executing f) (fun _ => f.dest.toNat + 3) (fun l => (word l).w3)
      ∧ exec (.rand f) s = .next (Passed s w c' f))

/-- R46, R84, R87, R91, R95, R105, R134, R190 to R193, R224, R344: lane memory instructions through the scratchpad or a buffer record
issue one part of their size for each lane of the executing set, at the address that the lane's coordinates or its scratchpad
offset give, with the lane's data; their destination registers are empty until it lands. ATOM is strong whatever class it names. CPY
takes in, copies out or looks up a codebook, and tells the barrier that it names. FETCH keeps its coordinates and what its addresses
depend on, which it reads at its issue with the cursor (R226), where it traps XLAT for one of them (the model's reading, log entry 86); that
DETAIL is that of the lowest lane is its choice (log entry 99). A lane whose walk fails there issues without it. -/
def Obligations.LaneMemoryInstructionsIssue : Prop :=
  ∀ (s : State) (f : LaneFields) (w : Workgroup) (c : Crew), c.logging = false → c.logCount < 4 →
    let g := s.gridOf w
    let e := c.executing f
    let m := g.buf f.mslot.toNat
    let n := memBytes f.subop
    let passes := fun (i : Instr) (w' : Workgroup) (a : Access) (dests : Nat) => ∃ c',
      exec i s = .next (Passed s w' c' f) ∧ c' = (c.issue a).awaitParts a.parts dests c.nextId ∧ c'.vreg = c.vreg ∧ c'.sreg = c.sreg
      ∧ ∀ r l, l < 64 → c'.vFull r l = (c.vFull r l && !a.parts.any (fun p => p.unit == l && decide (p.dst ≤ r ∧ r < p.dst + dests)))
    let addrs := fun (i : Instr) (k : Nat) =>
      if f.sp then scratchAddrs c e (operandAt i f 1) f.off16.toNat g.spBytes k else recordAddrs c e i f m k
    let good := fun (i : Instr) (k : Nat) => (f.sp = true ∨ m.ordinary = true)
      ∧ ∀ x ∈ addrs i k, x.bounds = false ∧ x.addr.toNat % k = 0 ∧ (f.sp = true ∨ x.addr.toNat < 2 ^ 52)
    let acts := fun (i : Instr) (kind : AccessKind) (cls : MemClass) (w' : Workgroup) (k dests : Nat) (part : LaneAddr → Part) =>
      passes i (if f.sp then w else w') (laneAccess c f kind cls (if f.sp then .wg else (Scope.ofCode f.scope).getD .dev) f.sp m
        ((addrs i k).flatMap (fun x => (part x).halves))) dests
    (LaneReady s { LaneSpec.plain (.ld f) with groups := (memGroup n, 1, 1, 1) } f w c → good (.ld f) n → c.roomOn (some .ld) = true →
      acts (.ld f) (.load f.subop) (laneClass f) w n (min (memGroup n) 2)
        (fun x => lanePart x n 0 0 (destination (.ld f) f c x.lane) 0))
  ∧ (LaneReady s { LaneSpec.plain (.st f) with groups := (memGroup n, 1, 1, 1), readsDest := true } f w c → good (.st f) n →
      c.roomOn (some .st) = true → acts (.st f) .store (laneClass f) w.spoil n 0 (fun x => lanePart x n
        (BitVec.ofNat 128 (((List.range (memGroup n)).map (fun k => (c.v (destination (.st f) f c x.lane + k) x.lane).toNat * 2 ^ (32 * k))).sum))
        0 0 0))
  ∧ (∀ op, AtomOp.ofCode f.subop = some op → LaneReady s { LaneSpec.plain (.atom f) with readsDest := decide (op = .cas) } f w c →
      good (.atom f) 4 → c.roomOn (some .ld) = true → acts (.atom f) (.atom op true) .strong w.spoil 4 1 (fun x =>
        let p := lanePart x 4 ((source (.atom f) f c 3 x.lane).zeroExtend 128)
          ((c.v (destination (.atom f) f c x.lane) x.lane).zeroExtend 64) (destination (.atom f) f c x.lane) 0
        if p.bytes = firstBytes 4 then p else { p with bytes := 0 }))
  ∧ (LaneReady s { LaneSpec.plain (.cpy f) with badRole := !c.mayCopy, readsDest := true } f w c →
      let code := nfld f.subop 0 2
      let bar := if f.ben then some f.bnum else none
      let book := w.books.find? f.cbnum.toNat
      let k := if code = 3 then 1 else 4 * 2 ^ code
      let size := if code = 3 then (match book with | some b => entryBytes b.code | none => 1) else k
      let as := recordAddrs c e (.cpy f) f m k
      let sps := scratchAddrs c e (operandAt (.cpy f) f 0) 0 g.spBytes size
      let out := flag f.subop 2
      (f.ben = true → (w.bar f.bnum.toNat).valid = true) → (code = 3 → book.isSome = true) → m.ordinary = true →
      (∀ x ∈ as, x.bounds = false ∧ x.addr.toNat % size = 0 ∧ x.addr.toNat < 2 ^ 52) →
      (∀ x ∈ sps, x.bounds = false ∧ x.addr.toNat % size = 0) → c.roomOn (some .cp) = true →
      passes (.cpy f) (if out then w.spoil else w)
        (laneAccess c f (if code = 3 then .copyBook f.cbnum.toNat size bar else if out then .copyOut bar else .copyIn bar)
          (laneClass f) .dev false m ((as.zip sps).flatMap (fun p => (lanePart p.1 k 0
            (BitVec.ofNat 64 (size + 2 ^ 32 * (maskOf p.1.accessed 0 k).toNat)) 0 p.2.addr.toNat).halves))) 0)
  ∧ (LaneReady s { LaneSpec.plain (.fetch f) with groups := (3, 1, 1, 1) } f w c →
      let x := fun (l : Nat) => (source (.fetch f) f c 1 l).toInt + f.off16.toInt
      let y := fun (l : Nat) => if f.nc = 2 then source (.fetch f) f c 2 l else 0
      let a := laneAccess c f (.fetch f.mslot) .weak .dev false m ((lanesOf e).map (fun l =>
        lanePart ⟨l, 0, false, fun _ => false⟩ 0 ((BitVec.ofInt 64 (x l)).zeroExtend 128) ((y l).zeroExtend 64)
          (destination (.fetch f) f c l) 0))
      let key := fun (l : Nat) => s.fetchKey w (c.mayRead a) m f.mslot (x l) (y l).toInt (c.cursors.get l)
      let found := fun (l : Nat) => s.fetchAtIssue w m (x l) (y l).toInt (key l)
      m.fetchHandle = true → m.fetchMisaligned = false →
      (∀ l, flag e l = true → ∀ va ∈ m.fetchAddrs (x l) (y l).toInt, va < 2 ^ 52) → c.roomOn (some .ft) = true →
      (∀ keys : Nat → Option FetchKey, (∀ l, l < 64 → flag e l = true → found l = .got (keys l)) → ∃ (t : State) (c1 c' : Crew),
        let a' := { a with parts := (lanesOf e).map (fun l =>
          { lanePart ⟨l, 0, false, fun _ => false⟩ 0 ((BitVec.ofInt 64 (x l)).zeroExtend 128) ((y l).zeroExtend 64)
              (destination (.fetch f) f c l) 0 with key := (keys l).map (·.key) }) }
        exec (.fetch f) s = .next (Passed t w c' f) ∧ t = { s with lines := t.lines }
        ∧ { c1 with cursors := c.cursors } = c
        ∧ (∀ l, c1.cursors.get l = if flag e l then ((keys l).bind (·.cursor)).getD (c.cursors.get l) else c.cursors.get l)
        ∧ c' = (c1.issue a').awaitParts a'.parts 3 c.nextId ∧ c'.vreg = c.vreg ∧ c'.sreg = c.sreg
        ∧ ∀ r l, l < 64 → c'.vFull r l
            = (c.vFull r l && !(flag e l && decide (destination (.fetch f) f c l ≤ r ∧ r < destination (.fetch f) f c l + 3))))
      ∧ (∀ l q va, l < 64 → flag e l = true → (∀ j, j < l → flag e j = true → ∀ u, found j ≠ .far u) → key l = .got q →
          ((m.fetchForm (x l) (y l).toInt q.key).addrs m).find? (fun va => decide (2 ^ 52 ≤ va)) = some va →
          Traps (.fetch f) s .xlat (BitVec.ofNat 64 va))
      ∧ (∀ l, (∀ q, key l = .got q → (∀ va ∈ (m.fetchForm (x l) (y l).toInt q.key).addrs m, va < 2 ^ 52) → found l = .got (some q))
          ∧ ∀ code va, key l = .fail code va → found l = .got none))

/-- R20, R21, R108, R194, R195: the structured control of a run: IF and ELSE split the active lanes, FI and the end of a DO join
them, BRK and WHILE take lanes out of the loop, BRK also out of the IF frames above the innermost DO; ELSE, FI, WHILE or BRK without its
structure is ILLOP: with no frame or the wrong one on top, ELSE a second time, BRK with no DO open. One that
ends its run with a structure open, IF and DO among them, takes its effect and then ILLOP (Passed). The ELSE path of an IF waits for what
a structure inside its first path has left open (the model's choice, log entry 114). -/
def Obligations.StructuredControlSplitsAndJoins : Prop :=
  ∀ (s : State) (f : LaneFields) (w : Workgroup) (c : Crew) (p : Progress), Issuing s w c → c.prog = some p →
    let k := if f.subop.toNat = 1 then ~~~(c.pred f.srca.toNat) else c.pred f.srca.toNat
    let goes := fun (i : Instr) (act : Mask) (frames : List Frame) => ∃ c',
      exec i s = .next (Passed s w c' f) ∧ c'.prog = some { p with active := act, frames := frames }
      ∧ c'.vreg = c.vreg ∧ c'.sreg = c.sreg ∧ c'.preds = c.preds ∧ c'.flying = c.flying
    (p.frames.length < 16 → goes (.ifL f) (p.active &&& k) (.ifs p.active (p.active &&& ~~~k) false c.nextId :: p.frames))
  ∧ (16 ≤ p.frames.length → Traps (.ifL f) s .illop 0 ∧ Traps (.doL f) s .illop 0)
  ∧ (∀ entry rest mark fs, p.frames = .ifs entry rest false mark :: fs → goes (.elseL f) rest (.ifs entry rest true mark :: fs))
  ∧ (∀ entry rest elsed mark fs, p.frames = .ifs entry rest elsed mark :: fs → goes (.fi f) entry fs)
  ∧ (p.frames.length < 16 → goes (.doL f) p.active (.loop p.active (p.pc + 12) c.nextId :: p.frames))
  ∧ (∀ entry body mark fs, p.frames = .loop entry body mark :: fs →
      (p.active &&& k = 0 → goes (.whileL f) entry fs)
      ∧ (p.active &&& k ≠ 0 → ∃ c', exec (.whileL f) s = .next (s.put s.cur.key w c')
          ∧ c'.prog = some { p with active := p.active &&& k, pc := body } ∧ c'.vreg = c.vreg))
  ∧ (∀ (ifs : List (Mask × Mask × Bool × Nat)) entry body mark fs,
      let out := p.active &&& k
      p.frames = ifs.map (fun x => .ifs x.1 x.2.1 x.2.2.1 x.2.2.2) ++ .loop entry body mark :: fs →
      goes (.brk f) (p.active &&& ~~~out)
        (ifs.map (fun x => .ifs (x.1 &&& ~~~out) (x.2.1 &&& ~~~out) x.2.2.1 x.2.2.2) ++ .loop entry body mark :: fs))
  ∧ goes (.lnop f) p.active p.frames
  ∧ ((∀ entry rest mark fs, p.frames ≠ .ifs entry rest false mark :: fs) → Traps (.elseL f) s .illop 0)
  ∧ ((∀ entry rest elsed mark fs, p.frames ≠ .ifs entry rest elsed mark :: fs) → Traps (.fi f) s .illop 0)
  ∧ ((∀ entry body mark fs, p.frames ≠ .loop entry body mark :: fs) → Traps (.whileL f) s .illop 0)
  ∧ ((∀ entry body mark, .loop entry body mark ∉ p.frames) → Traps (.brk f) s .illop 0)

/-- R13, R171, R173, R21, R45 to R47, R203: every lane instruction but those of structured control takes the checks of R173 in their
order: a role that may not issue it is ROLE, a register at or above REGS or a tile at or above T is RANGE, a crew-collective one on
a partly live crew is ILLCONV, one whose executing set is empty only passes on, a register outside its window is RANGE, an empty
source is EMPTY or waited for. One that ends its run with a structure open is ILLOP after its own effect (Passed), and so is a NOP; the
statements of the other lane instructions and of structured control say their states by the same Passed. -/
def Obligations.LaneIssueTrapsInOrder : Prop :=
  (∀ (s : State) (i : Instr) (f : LaneFields) (p : LaneSpec) (w : Workgroup) (c : Crew), Issuing s w c →
    laneFieldsOf i = some f → laneSpecOf s w c i = some p →
    let e := c.executing f
    let at_ := fun (n : Nat) => operandAt i f n
    let outside := ∃ n ∈ [0, 1, 2, 3], (at_ n).outOfRegs (s.regsOf w c) (p.group n) = true
    let window := ∃ n ∈ [0, 1, 2, 3], (at_ n).outOfWindow c e (p.group n) = true
    let sources := if p.readsDest then [0, 1, 2, 3] else [1, 2, 3]
    let hungry := fun (n : Nat) => (at_ n).empty c e (p.group n) = true
    (p.badRole = true → Traps i s .role 0)
    ∧ (p.badRole = false → (p.badDirect = true ∨ outside → Traps i s .range 0)
      ∧ (p.badDirect = false → ¬ outside →
        (p.collective = true → e ≠ laneMask (s.width w) → Traps i s .illconv 0)
        ∧ (p.collective = false → e = 0 → exec i s = .next (Passed s w c f))
        ∧ ((p.collective = true → e = laneMask (s.width w)) → e ≠ 0 →
          (window → Traps i s .range 0)
          ∧ (¬ window → (∃ n ∈ sources, n ≠ 0 ∧ flag f.pol (n - 1) = true ∧ hungry n) → Traps i s .empty 0)
          ∧ (¬ window → (∀ n ∈ sources, n ≠ 0 → flag f.pol (n - 1) = true → ¬ hungry n) → (∃ n ∈ sources, hungry n) →
              exec i s = .next s)))))
  ∧ (∀ (s : State) (f : LaneFields) (w : Workgroup) (c : Crew), Issuing s w c → exec (.lnop f) s = .next (Passed s w c f))
  ∧ (∀ (s : State) (f : LaneFields) (w : Workgroup) (c : Crew), Passed s w c f =
      if f.eor = true ∧ c.run.frames ≠ [] then
        (s.put s.cur.key w c).raise s.cur.key (c.sideOf .lane) .illop 0 .lane false c.run.pc
      else s.put s.cur.key w { c with prog := some { c.run.skip 12 with ended := f.eor } })

/-- R13, R118, R196 to R206, R209: the matrix instructions, for a matrix role and a whole crew with no MMA open: MMA takes its operand
image in every pair of formats that it accepts, ACCZ clears, ACCRD and ACCWR move a fragment of 8 registers, ACCCVT converts into a
tile, with a block format into its scale tile too; no other word, register or tile changes. Another role traps ROLE. -/
def Obligations.MatrixInstructionsAct : Prop :=
  ∀ (s : State) (f : LaneFields) (w : Workgroup) (c : Crew),
    let fa := s.slot w f.fa.toNat
    let fb := s.slot w f.fb.toNat
    let width := s.width w
    let q := nfld f.subop 0 2
    let p := nfld f.subop 2 2
    let row := if width = 64 then 0 else 32 * (q / 2)
    let col := 32 * (q % 2) + 8 * p
    let ready := fun (i : Instr) (ts : List Nat) (groups : Nat × Nat × Nat × Nat) => c.mma = none ∧ LaneReady s
      { LaneSpec.plain i with badRole := !c.mayMatrix, badDirect := ts.any (fun t => decide (s.tileLimit w ≤ t)), collective := true,
                              groups := groups } f w c
    let home := s.tileHome w c
    (let tile := fun (n : Nat) => w.tiles.get (home n)
     let sa := mmaScaled fa fb fa
     let ta := s.tileNumber w c f.srca.toNat
     let tb := s.tileNumber w c f.srcb.toNat
     let as := if width = 64 then [ta, ta + if sa then 2 else 1] else [ta]
     ready (.mma f) [f.srca.toNat, f.srcb.toNat] (1, 1, 1, 1) → mmaPair fa fb = true → (width = 64 → flag f.subop 1 = false) →
      (∀ t ∈ as, badTile sa (s.tileLimit w) t = false) → badTile (mmaScaled fa fb fb) (s.tileLimit w) tb = false →
      (w.accs.find? f.dest.toNat).isSome = true → ∃ x : MmaImage,
      exec (.mma f) s = .next (Passed s w { c with mma := some x } f)
      ∧ x.f = f ∧ x.pc = c.run.pc ∧ x.a0 = tile ta ∧ x.b = tile tb ∧ x.unbound = false ∧ x.trapped = false ∧ x.replay = false
      ∧ (sa = true → x.s0 = tile (ta + 1)) ∧ (mmaScaled fa fb fb = true → x.sb = tile (tb + 1))
      ∧ (width = 64 → x.a1 = tile (ta + if sa then 2 else 1) ∧ (sa = true → x.s1 = tile (ta + 3))))
  ∧ (ready (.accz f) [] (1, 1, 1, 1) → ∀ a, w.accs.find? f.dest.toNat = some a →
      exec (.accz f) s = .next (Passed s { w with accs := w.accs.insert f.dest.toNat { a with words := [] } } c f))
  ∧ (ready (.accrd f) [] (8, 1, 1, 1) → (width = 64 → flag f.subop 1 = false) → (w.accs.find? f.srca.toNat).isSome = true → ∃ c',
      exec (.accrd f) s = .next (Passed s w c' f) ∧ { c' with vreg := c.vreg, vTag := c.vTag } = c
      ∧ (∀ l n, l < 64 → l < width → n < 8 → c'.vFull (f.dest.toNat + n) l = true ∧ c'.v (f.dest.toNat + n) l
          = (w.accs.get f.srca.toNat).words.get (64 * (row + l) + col + n))
      ∧ ∀ r l, l < 64 → (width ≤ l ∨ r < f.dest.toNat ∨ f.dest.toNat + 8 ≤ r) → c'.v r l = c.v r l ∧ c'.vFull r l = c.vFull r l)
  ∧ (ready (.accwr f) [] (1, 8, 1, 1) → (width = 64 → flag f.subop 1 = false) → (w.accs.find? f.dest.toNat).isSome = true → ∃ w',
      exec (.accwr f) s = .next (Passed s w' c f) ∧ { w' with accs := w.accs } = w
      ∧ (∀ h, h ≠ f.dest.toNat → w'.accs.find? h = w.accs.find? h)
      ∧ (w'.accs.get f.dest.toNat).pool = (w.accs.get f.dest.toNat).pool
      ∧ ∀ i j, i < 64 → j < 64 → (w'.accs.get f.dest.toNat).words.get (64 * i + j) =
          if row ≤ i ∧ i < row + width ∧ col ≤ j ∧ j < col + 8 then c.v (f.srca.toNat + (j - col)) (i - row)
          else (w.accs.get f.dest.toNat).words.get (64 * i + j))
  ∧ (let bits := elemBits fa.fmt
     let td := s.tileNumber w c f.dest.toNat
     let n := if bits = 4 then 64 else 32
     let first := n * p * bits / 8
     let scaleFirst := n / 32 * p * fa.scale
     let out := fun (i : Nat) => cvtBytes fa ((cvtRow (w.accs.get f.srca.toNat).words fa.fmt q i).map ofF32)
       ((List.range n).map (fun j => s.drawIf w c fa i j))
     ready (.acccvt f) [f.dest.toNat] (1, 1, 1, 1) → fa.fmt ≠ 0 → p ≤ cvtParts fa.fmt → (bits = 4 → q % 2 = 0) →
      (blockFormat fa.fmt = true → badTile true (s.tileLimit w) td = false ∧ home (td + 1) ≠ home td) →
      (w.accs.find? f.srca.toNat).isSome = true → ∃ w',
      exec (.acccvt f) s = .next (Passed s w' c f) ∧ { w' with tiles := w.tiles } = w
      ∧ (∀ t, t ≠ home td → (blockFormat fa.fmt = true → t ≠ home (td + 1)) → w'.tiles.get t = w.tiles.get t)
      ∧ (∀ x, SMap.get (w'.tiles.get (home td)) x =
          if x < 4096 ∧ first ≤ x % 128 ∧ x % 128 < first + n * bits / 8 then (out (x / 128)).1.getD (x % 128 - first) 0
          else SMap.get (w.tiles.get (home td)) x)
      ∧ (blockFormat fa.fmt = true → ∀ x, SMap.get (w'.tiles.get (home (td + 1))) x =
          if x < 1024 ∧ scaleFirst ≤ x % 32 ∧ x % 32 < scaleFirst + n / 32 * fa.scale
            then (out (x / 32)).2.getD (x % 32 - scaleFirst) 0
          else SMap.get (w.tiles.get (home (td + 1))) x))
  ∧ (Issuing s w c → c.mayMatrix = false → ∀ i ∈ [Instr.mma f, .accz f, .accrd f, .accwr f, .acccvt f], Traps i s .role 0)
/-! Events. -/

/-- R299, R300, R304: a notify write moves TAIL of an active queue of its function, halts it beyond SIZE with one report, and is discarded
otherwise; activation and disabling set STATE. A queue that is not DISABLED is not activated, and one whose descriptor fails the conditions
stays DISABLED (the model's reading, log entry 56). With the activation the device queue of the context waits at its head anew (R306), and a
co-resident grid that the queue does not find at READ again has left its head (the model's choice, log entry 120). A link that is down
brings no notify write (R364). A RING or MIRROR that is not aligned is no condition (log entry 117). -/
def Obligations.NotifyWritesMoveTheTail : Prop :=
  ∀ (s : State) (func n : Nat) (v : DWord), let q := s.queues.get n
    (s.downLinks.contains 0 = false → q.state = .active → q.func.toNat = func → (v - q.read).toNat ≤ 2 ^ q.log2size.toNat → q.tail < v →
      exec (.notifyWrite func n v) s = .next { s with
        queues := s.queues.insert n { q with tail := v, since := if q.read = q.tail then s.tick else q.since } })
  ∧ (s.downLinks.contains 0 = false → q.state = .active → q.func.toNat = func → 2 ^ q.log2size.toNat < (v - q.read).toNat → ∃ t r,
      exec (.notifyWrite func n v) s = .next t ∧ t.out = s.out ++ [.report (ioOf q.ctx.toNat) r] ∧ fld r 0 8 = 0x18 ∧ nfld r 128 64 = n % 2 ^ 64
      ∧ (t.queues.get n).state = .overrun ∧ t.mem = s.mem ∧ t.grids = s.grids)
  ∧ (s.downLinks.contains 0 = true ∨ q.state ≠ .active ∨ q.func.toNat ≠ func
        ∨ (v ≤ q.tail ∧ (v - q.read).toNat ≤ 2 ^ q.log2size.toNat) →
      exec (.notifyWrite func n v) s = .next s)
  ∧ (∀ x, s.queues.find? n = some x → exec (.queueDisable n) s = .next { s with queues := s.queues.insert n { x with state := .disabled } })
  ∧ (∀ desc : BitVec 320, n < 4096 → q.state = .disabled →
      let ok := (s.ctx (nfld desc 0 8)).valid = true ∧ 3 ≤ nfld desc 32 5 ∧ nfld desc 32 5 ≤ 16
        ∧ (fld desc 256 64 - fld desc 192 64 : DWord).toNat ≤ 2 ^ nfld desc 32 5
      ∃ t, exec (.queueActivate n desc) s = .next t ∧ (t.queues.get n).ctx = fld desc 0 8
      ∧ (t.queues.get n).read = fld desc 192 64 ∧ (t.queues.get n).tail = fld desc 256 64 ∧ (t.queues.get n).note = none
      ∧ t.grids = s.grids.mapVals (fun g => if g.queue = some n ∧ g.atHead = true
          ∧ ¬ (fld desc 0 8 = q.ctx ∧ fld desc 64 64 = q.ring ∧ nfld desc 192 64 = g.pktIndex) then { g with left := true } else g)
      ∧ (ok → (t.queues.get n).state = .active ∧ (t.ctx (nfld desc 0 8)).devOff = false
          ∧ (t.ctx (nfld desc 0 8)).devSince = if (s.ctx (nfld desc 0 8)).devOff then s.tick else (s.ctx (nfld desc 0 8)).devSince)
      ∧ (¬ ok → (t.queues.get n).state = .disabled ∧ t.ctxs = s.ctxs))
  ∧ (∀ desc : BitVec 320, q.state ≠ .disabled → exec (.queueActivate n desc) s = .next s)

/-- R296, R297, R300, R309, R359: what a register write changes: the entry it names, whose reserved bits stay zero (of the entries of
tables the model's reading, log entry 82); a plug-in's window in whole 4 KiB, in a layout that is the model's (log entry 68); the
priority of a queue while its tenant's plug-in runs; a doorbell write that is no notify changes nothing. -/
def Obligations.RegisterWritesChangeTheirEntry : Prop :=
  ∀ (s : State) (func : Nat) (v : BitVec 256) (i : Nat),
    (∀ q o n, exec (.registerWrite func (.doorbell q o n) v) s = .next s)
  ∧ (i < 128 → ∃ e : BitVec 256, exec (.registerWrite func (.aperture i) v) s = .next { s with apertures := s.apertures.put i e }
      ∧ ∀ n, flag e n = (flag v n && [(24, 20), (61, 42), (128, 39), (192, 52), (248, 8)].any (fun r => decide (r.1 ≤ n ∧ n < r.1 + r.2))))
  ∧ (∀ tenant, i < 64 → ∃ e : BitVec 64,
      exec (.registerWrite func (.fabric tenant i) v) s = .next { s with fabric := s.fabric.put (64 * tenant + i) e }
      ∧ ∀ n, flag e n = (flag v n && (n == 63 || decide (12 ≤ n ∧ n < 44))))
  ∧ (∀ tenant, i < 4 → exec (.registerWrite func (.window tenant i) v) s = .next { s with
      windows := s.windows.insert (4 * tenant + i) (v.toNat % 2 ^ 64 / 4096 * 4096, v.toNat / 2 ^ 64 % 2 ^ 64 / 4096 * 4096) })
  ∧ (let runs := s.stopped.contains (s.ctx (s.queues.get i).ctx.toNat).tenant = false
     (∀ q, runs → s.queues.find? i = some q → exec (.registerWrite func (.priority i) v) s =
        .next { s with queues := s.queues.insert i { q with policy := some (fld v 0 2) } })
     ∧ (¬ runs → exec (.registerWrite func (.priority i) v) s = .next s))
  ∧ exec (.registerWrite func .windowMs v) s = .next { s with windowMs := v.toNat % 2 ^ 32 }
  ∧ (1 ≤ v.toNat % 2 ^ 32 → v.toNat % 2 ^ 32 ≤ 255 → exec (.registerWrite func .thresh v) s = .next { s with thresh := v.toNat % 2 ^ 32 })

/-- R32, R33, R301, R302, R303, R305, R306, R308, R309, R311: the launch path. A malformed head halts its queue as BADPKT; a head that
cannot be read is reported once; a BARRIER that can start and is first passes; a LAUNCH is accepted and takes the next number, be it
that its record cannot be read or its cause refuses it; the oldest packet of a device queue is taken; a fabric packet that its checks
pass is published at TAIL with READY of its index. The tenant of a queue is that of its context (the model's reading, log entry 55), and
so is the number that a launch takes whose record cannot be read (log entry 51). What of BSIG and LREC makes a packet malformed is log
entry 98. -/
def Obligations.TheLaunchPathMoves : Prop :=
  ∀ (s : State) (n : Nat), let q := s.queues.get n; let ctx := q.ctx.toNat
    (∀ x, s.queues.find? n = some x → s.headOf n = .bad → ∃ t, exec (.launchAcceptance n) s = .next t
      ∧ (t.queues.get n).state = .badpkt ∧ (t.queues.get n).read = q.read ∧ t.grids = s.grids)
  ∧ (∀ code va, s.headOf n = .fail code va → q.reported = false → ∃ t r, exec (.dependenceRecheck n) s = .next t
      ∧ t.out = s.out ++ [.report (ioOf ctx) r] ∧ fld r 0 8 = code.code ∧ (t.queues.get n).reported = true
      ∧ exec (.launchAcceptance n) s = .next t)
  ∧ (∀ code va, s.headOf n = .fail code va → q.reported = true → exec (.dependenceRecheck n) s = .next s)
  ∧ (∀ p, s.startHead n = some p → p.type = 2 → ∃ t, t = (s.decrement ctx q.func.toNat p.bsig 0).advance n (q.read.toNat + 1)
      ∧ exec (.barrierPacketStart n) s = .next t
      ∧ (t.queues.get n).read = BitVec.ofNat 64 (q.read.toNat + 1) ∧ t.grids = s.grids ∧ t.seq = s.seq)
  ∧ (∀ p, s.startHead n = some p → p.type = 1 → s.headOf n = .ready p → exec (.launchAcceptance n) s = .next (s.acceptUser n p))
  ∧ (∀ p r, s.readLaunch ctx p.lrec = .copy r → r.spliceAt = 0 →
      let t := s.acceptUser n p
      (∀ cause, r.cause (s.coresOf ctx).length = some cause → ∃ x : Completion, x.result = 1 ∧ x.cause = cause ∧ x.seq = s.seq
        ∧ x.queue = some n ∧ x.done = 0
        ∧ t = (({ s with seq := s.seq + 1 } : State).complete ctx r x).advance n (q.read.toNat + 1))
      ∧ (r.cause (s.coresOf ctx).length = none → ∃ g, t.seq = s.seq + 1
        ∧ t.grids = s.grids.insert s.seq g ∧ g.ctx = ctx ∧ g.copy = r ∧ g.queue = some n ∧ g.depth = 0
        ∧ g.counter = 0 ∧ g.done = 0 ∧ g.drawn = [] ∧ g.atHead = r.coresident
        ∧ (r.coresident = false → (t.queues.get n).read = BitVec.ofNat 64 (q.read.toNat + 1))
        ∧ (r.coresident = true → t.queues = s.queues)))
  ∧ (∀ p code va, s.readLaunch ctx p.lrec = .fail code va → ∃ r, let t := s.acceptUser n p
      t.out = s.out ++ [.report (ioOf ctx) r] ∧ fld r 0 8 = 0x08 ∧ nfld r 128 64 = p.lrec % 2 ^ 64 ∧ t.seq = s.seq + 1 ∧ t.grids = s.grids
      ∧ (t.queues.get n).read = BitVec.ofNat 64 (q.read.toNat + 1))
  ∧ (∀ c, s.devReady c = true → s.isFirst (ioOf c) 0 (s.ctx c).devSince = true →
      exec (.deviceQueueTake c) s = .next (s.takeDev c))
  ∧ (∀ c d, (s.ctx c).devSlots.find? (s.ctx c).devTake = some d →
      let t := s.takeDev c
      (∀ r, d.copy = some r → (s.ctx c).devSlots.find? ((s.ctx c).devTake + 1) = none → r.cause (s.coresOf c).length = none → ∃ g,
        t.grids = s.grids.insert s.seq g ∧ g.copy = r ∧ g.parent = d.parent ∧ g.depth = d.depth ∧ g.queue = none
        ∧ (t.ctx c).devTake = (s.ctx c).devTake + 1 ∧ t.seq = s.seq + 1)
      ∧ (d.copy = none → t.seq = s.seq + 1 ∧ t.grids = s.grids ∧ (t.ctx c).devTake = (s.ctx c).devTake + 1))
  ∧ (∀ pkg src ok (pk : List Byte), s.downLinks.contains 5 = false →
      let stopped := s.stopped.contains (s.ctx ctx).tenant = true
      let refused := fun (cause : Nat) => exec (.fabricLaunchPacket pkg src n ok pk) s = .next (s.send (.fabric pkg (some cause)))
      let full := 2 ^ q.log2size.toNat ≤ (q.tail - q.read).toNat
      (s.fabricEntry pkg src n = false → refused 0)
      ∧ (s.fabricEntry pkg src n = true → (ok = false ∨ stopped → refused 1)
        ∧ (ok = true → ¬ stopped → (q.state ≠ .active ∨ (s.ctx ctx).valid = false → refused 2)
          ∧ (q.state = .active → (s.ctx ctx).valid = true → (full → refused 3)
          ∧ (¬ full → ∃ t, exec (.fabricLaunchPacket pkg src n ok pk) s = .next t ∧ t.out = s.out ++ [.fabric pkg none]
            ∧ t.mem = (s.post (.bytes ctx (q.ring.toNat + 128 * (q.tail.toNat % 2 ^ q.log2size.toNat)) none (publishedAt q.tail.toNat pk))).mem
            ∧ (t.queues.get n).tail = q.tail + 1 ∧ (t.queues.get n).read = q.read ∧ t.grids = s.grids)))))
  ∧ (∀ i (pk : List Byte), pk.length = 128 → (publishedAt i pk).length = 128
      ∧ leNat (((publishedAt i pk).drop 4).take 4) = (i + 1) % 2 ^ 32
      ∧ ∀ j, j < 4 ∨ 8 ≤ j → (publishedAt i pk)[j]? = pk[j]?)

/-- R22, R36, R39, R305, R312 to R318: dispatch. A die draws a batch from the counter; the lowest drawn index becomes a workgroup on the
core that R316 names, its crews at the entry of their role, in a share of that core's arrays that no other resident has, of which the lines
that R43 and R87 set take its context's tag and no other (R290; how lines are counted is the model's choice, log entry 20); a co-resident
grid whose workgroups all fit is drawn and admitted in one step and leaves its queue's head, else nothing of it is; a finished workgroup
without children retires, and its grid with the last one; one with children is parked; the core offers the room. That a workgroup is not
finished while an access or a transfer of it is in flight is the model's reading (log entry 32). -/
def Obligations.GridsAreDrawnAdmittedAndRetired : Prop :=
  ∀ (s : State) (die n : Nat) (g : Grid), s.grids.find? n = some g →
    (s.canDraw (n, g) die = true → s.savedFirst die = false →
      (∀ e ∈ s.grids, s.canAdmit e die = false ∧ (s.canDraw e die = false ∨ gridBefore e (n, g) = false)) → ∃ g',
      exec (.dispatcherDraw die n) s = .next { s with grids := s.grids.insert n g' }
      ∧ g'.counter = g.counter + g.copy.batch
      ∧ g'.drawn = g.drawn ++ (List.range (min g.copy.batch (g.copy.total - g.counter))).map (fun i => (die, g.counter + i)))
  ∧ (∀ index core, s.canAdmit (n, g) die = true → s.savedFirst die = false → g.drawnOn die = some index → s.pickCore g die = some core →
      (∀ e ∈ s.grids, s.canAdmit e die = false ∨ gridBefore e (n, g) = false) → ∃ t w,
      exec (.workgroupAdmission die n) s = .next t ∧ t.wgs = s.wgs.insert s.nextWid w ∧ w.index = index ∧ w.die = die ∧ w.core = core
      ∧ w.seq = n ∧ w.ctx = g.ctx ∧ w.idem = true ∧ w.parked = false ∧ w.tiles = [] ∧ w.accs = [] ∧ w.scratch = [] ∧ w.children = []
      ∧ (∀ e ∈ w.crews, e.2.sreg = [] ∧ e.2.vreg = [] ∧ e.2.xreg = [] ∧ e.2.preds = [] ∧ e.2.sTag = []
          ∧ e.2.pc = BitVec.ofNat 52 (g.copy.entry e.2.role.toNat) ∧ e.2.live = g.copy.liveAt e.2.role.toNat e.2.number
          ∧ e.2.status = if e.2.live = 0 then .reserved else .live)
      ∧ t.mem = s.mem ∧ t.nextWid = s.nextWid + 1 ∧ (t.grids.get n).drawn = dropFirst (die, index) g.drawn
      ∧ ((s.residents die core).length < 512 → ∀ v ∈ s.residents die core, v.share ≠ w.share)
      ∧ (let line := fun (array n : Nat) => tagKey array die core (2048 * w.share + n)
         let set := fun (key : Nat) => (∃ e ∈ w.crews, e.2.status ≠ .reserved ∧ ∃ array, array < 2 ∧ key = line array (e.1 % 64))
           ∨ (∃ i, i < g.tileCount ∧ key = line 2 i) ∨ (∃ i, 4096 * i < g.spBytes ∧ key = line 4 i)
         ∀ key, (set key → t.tags.find? key = some ⟨g.ctx, (s.ctx g.ctx).secure⟩) ∧ (¬ set key → t.tags.find? key = s.tags.find? key)))
  ∧ (∀ order, (s.fits (n, g) = none → exec (.coresidentAdmission n order) s = .next s)
      ∧ ∀ sh, s.fits (n, g) = some sh →
        (s.beforeShares (n, g) = true → exec (.coresidentAdmission n order) s = .next s)
        ∧ (s.beforeShares (n, g) = false → ∃ t, exec (.coresidentAdmission n order) s = .next t
          ∧ t = (({ s with grids := s.grids.insert n (({ g with atHead := false } : Grid).drawShares sh order) } : State).admitShares n sh).leaveHead g
          ∧ (t.grids.get n).atHead = false))
  ∧ (∀ sh, s.fits (n, g) = some sh → g.atHead = true ∧ s.barred g.ctx n = false ∧ (sh.map (·.2)).sum = g.copy.total
      ∧ sh.map (·.1) = s.diesOf g.ctx)
  ∧ (∀ wid w, s.wgs.find? wid = some w → w.seq = n → s.frozen w = false → w.finished = true →
      (w.children = [] → exec (.workgroupRetirement wid) s = .next (((s.retireWg wid w).offer w.die w.core).drained)
        ∧ (g.done + 1 < g.copy.total → (s.retireWg wid w).wgs = s.wgs.erase wid
            ∧ ((s.retireWg wid w).grids.get n).done = g.done + 1 ∧ (s.retireWg wid w).out = s.out)
        ∧ (g.copy.total ≤ g.done + 1 → (s.retireWg wid w).grids.find? n = none))
      ∧ (w.children ≠ [] → w.parked = false → exec (.workgroupRetirement wid) s = .next (((s.putWg wid w.park).offer w.die w.core).drained)
        ∧ w.park.parked = true ∧ w.park.bars = w.bars ∧ w.park.children = w.children)
      ∧ (w.children ≠ [] → w.parked = true → exec (.workgroupRetirement wid) s = .next s))
  ∧ (∀ wid w, s.wgs.find? wid = some w → (s.frozen w = true ∨ w.finished = false) → exec (.workgroupRetirement wid) s = .next s)

/-- R325 to R327, R335, R337: a walk that ends caches its leaf and the table entries it read, and its access goes on with the translation;
one that fails holds it, and what else of its die and context waits for that page, accesses and streams that stand for it (the model's
reading, log entry 89), with one report. The number by which REPLAY and DECLINE name a held access is log entry 42, which of its parts a
DECLINE reports entry 40. What is replayed is held no more, by its number alone, and what is declined raises its code; a CBLOAD then has no
entries (R161). A shootdown discards every cached translation and table entry of its range, when it begins and again when it ends, which is
when no access that used one is in flight. -/
def Obligations.TranslationsAreWalkedHeldAndShotDown : Prop :=
  ∀ (s : State) (k : CrewKey) (w : Workgroup) (c : Crew), s.find k = some (w, c) →
    (∀ id a p l ts pa, c.access id = some a → a.parts = [p] → s.walks w a p = true → s.walkOn (some w.die) w.ctx p.addr = (.leaf l, ts) →
      s.checkLeaf w.ctx a.kind.need l p.addr = .ok pa → ∃ t, exec (.walkComplete k id) s = .next t
      ∧ t.tlb = ⟨w.die, w.ctx, l⟩ :: s.tlb ∧ t.tables = ts ++ s.tables ∧ t.mem = s.mem ∧ t.out = s.out
      ∧ ∃ w' c', t.find k = some (w', c') ∧ c'.access id = some { a with parts := [{ p with pa := some pa }] } ∧ c'.sreg = c.sreg
        ∧ c'.vreg = c.vreg)
  ∧ (∀ id a p ts, c.access id = some a → a.parts = [p] → s.walks w a p = true → s.walkOn (some w.die) w.ctx p.addr = (.invalid, ts) → ∃ t r,
      exec (.walkComplete k id) s = .next t ∧ t.out = s.out ++ [.report (ioOf w.ctx) r] ∧ fld r 0 8 = 0x08 ∧ t.mem = s.mem
      ∧ (∃ w' c' a', t.find k = some (w', c') ∧ c'.access id = some a' ∧ a'.isHeld = true)
      ∧ (∀ k' v e id' b q, s.find k' = some (v, e) → v.die = w.die → v.ctx = w.ctx → e.access id' = some b → q ∈ b.parts →
        s.walks v b q = true → q.addr / 65536 = p.addr / 65536 →
        ∃ v' e' b', t.find k' = some (v', e') ∧ e'.access id' = some b' ∧ b'.isHeld = true)
      ∧ ∀ k' v e m, s.find k' = some (v, e) → v.die = w.die → v.ctx = w.ctx → e.walking = [m] → m.va / 65536 = p.addr / 65536 →
        ∃ v' e', t.find k' = some (v', e') ∧ e'.walking = [] ∧ e'.fetchHeld = ⟨e.nextId, m.stream, m.joint, ⟨.xlat, m.va⟩⟩ :: e.fetchHeld)
  ∧ (∀ id a p l ts, c.access id = some a → a.parts = [p] → s.walks w a p = true → s.walkOn (some w.die) w.ctx p.addr = (.moving l, ts) →
      exec (.walkComplete k id) s = .next { s with tables := ts ++ s.tables })
  ∧ (∀ id, ∃ c', exec (.replay k id) s = .next (s.put k w c') ∧ { c' with fetchHeld := c.fetchHeld, flying := c.flying } = c
      ∧ (∀ h, h ∈ c'.fetchHeld ↔ h ∈ c.fetchHeld ∧ h.id ≠ id)
      ∧ (∀ a, c.access id = some a → ∃ a', c'.access id = some a' ∧ a'.isHeld = false)
      ∧ (∀ n, n ≠ id → c'.access n = c.access n))
  ∧ (∀ id h, c.fetchHeld.find? (fun h => h.id == id) = some h →
      (h.joint = false → exec (.decline k id) s =
        .next (s.raise k (c.sideOf h.stream) h.held.code (BitVec.ofNat 64 h.held.addr) h.stream true (c.at h.stream)))
      ∧ (h.joint = true → exec (.decline k id) s =
        .next (s.raiseAll k.wid w (w.participants c.role) h.held.code (BitVec.ofNat 64 h.held.addr) true)))
  ∧ (∀ id a h, c.fetchHeld.find? (fun h => h.id == id) = none → c.access id = some a → a.parts.findSome? (fun p => p.held) = some h →
      let raised := fun (u : State) => Host.Outcome.next (u.raise k a.side h.code (BitVec.ofNat 64 h.addr) a.stream true a.pc)
      ((∀ book code got, a.kind ≠ .cbload book code got) → exec (.decline k id) s = raised s)
      ∧ (∀ book code got, a.kind = .cbload book code got → exec (.decline k id) s =
        raised (s.put k { w with books := w.books.erase book } (c.putAccess { a with parts := [] }))))
  ∧ (∀ io (cmd : BitVec 128), let size := [2 ^ 16, 2 ^ 21, 2 ^ 30, 2 ^ 52].getD (nfld cmd 0 2) 0
      let va := if nfld cmd 0 2 = 3 then 0 else nfld cmd 64 52
      ∃ t, exec (.shootdown io cmd) s = .next t ∧ t = { s.dropCached (nfld cmd 32 8) va size with
          shootdowns := s.shootdowns ++ [⟨io, nfld cmd 32 8, va, size⟩] } ∧ t.shootReg io = 0)
  ∧ (∀ ctx va size, let t := s.dropCached ctx va size
      (∀ e, e ∈ t.tlb ↔ e ∈ s.tlb ∧ (e.ctx = ctx → ¬ (e.leaf.va < va + size ∧ va < e.leaf.va + e.leaf.size)))
      ∧ (∀ e, e ∈ t.tables ↔ e ∈ s.tables ∧ (e.ctx = ctx → ¬ (e.va < va + size ∧ va < e.va + e.size)))
      ∧ t.mem = s.mem ∧ t.wgs = s.wgs)
  ∧ (∀ io d, s.shootdowns.find? (fun x => x.io == io) = some d →
      let used := s.flyingWhere (fun w a => w.ctx == d.ctx && a.usesPage d.va d.size)
      (used = [] → exec (.shootdownAcknowledge io) s =
        .next (({ s with shootdowns := s.shootdowns.erase d } : State).dropCached d.ctx d.va d.size))
      ∧ (used ≠ [] → exec (.shootdownAcknowledge io) s = .next s))

/-- R294, R329 to R331: a pin counts in its leaf and is refused at 127. A move of a pinned leaf, or with a DST that fails its checks,
ends at once; else the leaf is marked, unless it has changed, and once nothing uses the old frame the page is copied line by line,
each under the key that it had, and the leaf names DST. The Kazlet's writes that waited are then made in
order (log entry 18). That the move is made of three events, and how it ends where leaf, frame or DST cannot be reached, is the model's
choice (log entry 60). CXL memory is populated in whole lines. -/
def Obligations.PinsAndMovesChangeTheirLeaf : Prop :=
  ∀ (s : State) (addr io : Nat) (cmd : BitVec 256), WholeLines s →
    (s.leafReachable addr = true → nfld (s.leafAt addr) 57 7 < 127 → ∃ t, exec (.pin addr true) s = .next t
      ∧ t = s.putLeafAt addr (setFld (setFld (s.leafAt addr) 57 7 (nfld (s.leafAt addr) 57 7 + 1)) 56 1 1)
      ∧ nfld (t.leafAt addr) 57 7 = nfld (s.leafAt addr) 57 7 + 1 ∧ flag (t.leafAt addr) 56 = true)
  ∧ (s.leafReachable addr = false ∨ nfld (s.leafAt addr) 57 7 = 127 → exec (.pin addr true) s = .next (s.send (.pinRefused addr)))
  ∧ (s.leafReachable addr = true → 1 ≤ nfld (s.leafAt addr) 57 7 → ∃ t, exec (.pin addr false) s = .next t
      ∧ nfld (t.leafAt addr) 57 7 = nfld (s.leafAt addr) 57 7 - 1)
  ∧ (let leaf := s.leafAt (moveLeaf cmd)
     let m : Move := ⟨io, cmd, leaf, false⟩
     s.moves.find? (fun x => x.io == io && x.cmd == cmd) = none → (s.moves.filter (fun x => x.io == io)).length < 64 →
      (s.leafReachable (moveLeaf cmd) = false ∨ leafPage leaf = none → exec (.moveCommand io cmd) s = .next (s.moveDone m 3))
      ∧ ∀ frame size, s.leafReachable (moveLeaf cmd) = true → leafPage leaf = some (frame, size) →
        (s.pageReachable frame size = false → exec (.moveCommand io cmd) s = .next (s.moveDone m 3))
        ∧ (s.pageReachable frame size = true → (nfld leaf 57 7 ≠ 0 → exec (.moveCommand io cmd) s = .next (s.moveDone m 1))
          ∧ (nfld leaf 57 7 = 0 → (s.badDst frame size (moveDst cmd) = true → exec (.moveCommand io cmd) s = .next (s.moveDone m 4))
            ∧ (s.badDst frame size (moveDst cmd) = false → exec (.moveCommand io cmd) s = .next { s with moves := s.moves ++ [m] }))))
  ∧ (∀ m frame size, s.moves.find? (fun x => x.io == io && x.cmd == cmd) = some m → leafPage m.e0 = some (frame, size) →
      let e1 := setFld (setFld m.e0 55 1 1) 56 1 0
      let there := s.leafReachable (moveLeaf cmd) = true
      (m.marked = false → ¬ there → exec (.moveCommand io cmd) s = .next (s.moveDone m 3))
      ∧ (m.marked = false → there → s.leafAt (moveLeaf cmd) ≠ m.e0 → exec (.moveCommand io cmd) s = .next (s.moveDone m 2))
      ∧ (m.marked = false → there → s.leafAt (moveLeaf cmd) = m.e0 → ∃ t, exec (.moveCommand io cmd) s = .next t
          ∧ t.leafAt (moveLeaf cmd) = e1 ∧ t.moves = s.moves.map (fun x => if x = m then { m with marked := true } else x)
          ∧ ∀ e, e ∈ t.tlb ↔ e ∈ s.tlb ∧ ¬ (e.leaf.pa < frame + size ∧ frame < e.leaf.pa + e.leaf.size))
      ∧ (m.marked = true →
          let used := s.flyingWhere (fun _ a => a.usesFrame frame size)
          let t := s.copyPage frame (moveDst cmd) size
          let open_ := s.pageReachable frame size = true ∧ s.pageReachable (moveDst cmd) size = true
          (used ≠ [] → exec (.moveCommand io cmd) s = .next s)
          ∧ (used = [] → ¬ open_ → exec (.moveCommand io cmd) s = .next ((s.putLeafAt (moveLeaf cmd)
              (setFld (s.leafAt (moveLeaf cmd)) 55 1 0)).moveDone m (if s.pageReachable frame size = true then 4 else 3)))
          ∧ (used = [] → open_ → t.leafAt (moveLeaf cmd) = e1 → exec (.moveCommand io cmd) s =
            .next ((t.putLeafAt (moveLeaf cmd) (setFld (setFld e1 16 36 (moveDst cmd / 65536)) 55 1 0)).moveDone m 0))
          ∧ (used = [] → open_ → t.leafAt (moveLeaf cmd) ≠ e1 → exec (.moveCommand io cmd) s =
            .next ((t.putLeafAt (moveLeaf cmd) (setFld (t.leafAt (moveLeaf cmd)) 55 1 0)).moveDone m 2))))
  ∧ (∀ m code, let u : State := { s.fwWrite (nfld m.cmd 128 64) (leBytes 8 code) with moves := s.moves.erase m }
      s.moveDone m code = State.settleAll u.owed u ∧ (s.owed = [] → s.moveDone m code = u))
  ∧ (∀ frame dst i, frame % 256 = 0 → dst % 256 = 0 → s.isLocal (frame + 256 * i) = true → s.isLocal (dst + 256 * i) = true →
      frame ≠ dst → let t := State.copyLine frame dst s i
      t.lines.find? ((dst + 256 * i) / 256) = none
      ∧ (∀ l o, s.lines.find? ((frame + 256 * i) / 256) = some l → l.owner = some o → l.dirty = true →
          s.reachable (frame + 256 * i) = true → t.sealed.find? ((dst + 256 * i) / 256) = some (s.slotOf o)
          ∧ ∀ j, j < 256 → t.mem.clear (s.keyOf o) (dst + 256 * i + j) = l.bytes.get j)
      ∧ (s.lines.find? ((frame + 256 * i) / 256) = none →
          t.sealed.find? ((dst + 256 * i) / 256) = s.sealed.find? ((frame + 256 * i) / 256)
          ∧ ∀ key, key = s.keys.get ((s.sealed.find? ((frame + 256 * i) / 256)).getD 511) → ∀ j, j < 256 →
            t.mem.clear key (dst + 256 * i + j) = s.mem.clear key (frame + 256 * i + j)))

/-- R115, R293, R296, R300, R362, R364: accesses from outside. A host access to open memory is performed in the name of the line's
owner, so that it reads what a context has written (the model's reading, log entry 19), and changes nothing else; the host reads a
doorbell page, a mailbox and configuration space, a write of which is answered with Unsupported Request (the model's choice, log entry
77). A peer's request goes through the lowest valid entry that matches, as an access of that entry's context, and is refused where there
is none, where it is not allowed, where the context is not valid or is secure, or where the memory is not open, which shuts out what is
no reachable local memory (log entry 58). A link that is down brings none; the host's own memory needs none. A doorbell read of more
than 8 bytes gives zeros after the field (log entry 118). -/
def Obligations.OutsideAccessesAreCheckedAndAnswered : Prop :=
  ∀ (s : State) (pa n pkg src addr : Nat) (ctx : Option Nat) (op : BusOp) (bs : List Byte) (aop : AtomOp) (b cmp : DWord),
    let done := fun (own : Nat → Owner) (m : Option (List Byte) → Message) (pa : Nat) (op : BusOp) =>
      Host.Outcome.next (((s.perform own pa op).1).send (m (some (s.perform own pa op).2)))
    let open_ := fun (n : Nat) => s.downLinks.contains 0 = false ∧ s.openTo pa n = true
    let host := fun (op : BusOp) => exec (.hostAccess (.memory pa ctx) op) s
    (∀ own, s.perform own pa (.read n) = (s, s.readOwned own pa n)
      ∧ s.perform own pa (.write bs) = (s.writeOwned own pa bs, [])
      ∧ s.perform own pa (.atomic aop false b cmp) = (s.writeOwned own pa (leBytes 4 (atomNew aop false
          (BitVec.ofNat 64 (leNat (s.readOwned own pa 4))) b cmp).toNat), s.readOwned own pa 4)
      ∧ s.perform own pa (.atomic aop true b cmp) = (s.writeOwned own pa (leBytes 8 (atomNew aop true
          (BitVec.ofNat 64 (leNat (s.readOwned own pa 8))) b cmp).toNat), s.readOwned own pa 8))
  ∧ (open_ (opBytes op) → host op = done (s.hostOwner ctx) .host pa op)
  ∧ (isHost pa = true → isHost (pa + opBytes op - 1) = true → host op = done (s.hostOwner ctx) .host pa op)
  ∧ (∀ c b, s.isLocal pa = true → s.secureAt pa = false → s.takesLine (pa / 256) = true → (s.writeByte c pa b).readOwned ((s.writeByte c pa b).hostOwner ctx) pa 1 = [b])
  ∧ (s.downLinks.contains 0 = true → (isHost pa && isHost (pa + opBytes op - 1)) = false → host op = .next s)
  ∧ (∀ target, (∀ pa ctx, target ≠ .memory pa ctx) → s.downLinks.contains 0 = true → exec (.hostAccess target op) s = .next s)
  ∧ (s.downLinks.contains 0 = false → ∀ queue offset, let q := s.queues.get queue
      let value : DWord := if offset = 0 then q.tail else if offset = 8 then q.read else if offset = 16 then
        (match q.state with | .disabled => 0 | .active => 1 | .overrun => 2 | .badpkt => 3) else 0
      exec (.hostAccess (.doorbell queue offset) (.read n)) s = .next (s.send (.host (some (leBytes n value.toNat))))
      ∧ (∃ ds, ds.length = n ∧ exec (.hostAccess (.mailbox offset) (.read n)) s = .next (s.send (.host (some ds))))
      ∧ (∃ ds, ds.length = n ∧ exec (.hostAccess (.config offset) (.read n)) s = .next (s.send (.host (some ds))))
      ∧ exec (.hostAccess (.config offset) (.write bs)) s = .next (s.send (.host none)))
  ∧ (let peer := fun (op : BusOp) => exec (.peerAccess pkg src addr op) s
     let refused := Host.Outcome.next (s.send (.peer pkg none))
     let matches_ := fun (e : BitVec 256) => flag e 63 = true ∧ nfld e 32 12 = pkg ∧ nfld e 24 8 = src
       ∧ nfld e 64 39 ≤ addr ∧ addr < nfld e 64 39 + nfld e 128 39
     (s.downLinks.contains 5 = true → peer op = .next s)
     ∧ (s.downLinks.contains 5 = false →
        ((∀ e ∈ s.apertures, ¬ matches_ e.2) → peer op = refused)
        ∧ ∀ i e, (i, e) ∈ s.apertures → matches_ e → SMap.Sorted s.apertures → (∀ x ∈ s.apertures, x.1 < i → ¬ matches_ x.2) →
          let allowed := match op with
            | .read _ => flag e 62 = true
            | .write _ => flag e 61 = true
            | .atomic .. => flag e 62 = true ∧ flag e 61 = true
          let target := nfld e 192 52 + (addr - nfld e 64 39)
          let good := allowed ∧ (s.ctx (nfld e 248 8)).valid = true ∧ (s.ctx (nfld e 248 8)).secure = false
            ∧ s.openTo target (opBytes op) = true
          (¬ good → peer op = refused) ∧ (good → peer op = done (fun _ => .ctx (nfld e 248 8)) (.peer pkg) target op)))

/-- R339 to R344, R349, R366: the ladder. A refused command writes REFUSED; a drain rung waits while its scope holds a resident
workgroup and ends with DRAINED when it holds none; the save rung takes the workgroups of its scope, each of which is flushed or saved,
its area written at the pool's next 4 KiB, once it is quiet and the area fits; with none left, or none to begin with, it ends with
SAVED; the save deadline ends the context. A resume command is accepted for a saved pool alone and sets its register (which never reads
0 between steps, log entry 74); a saved workgroup is resumed where its die has room, from what its area holds and, for what the layout
has no field for, as it was saved (log entry 22), in a share of its core's arrays that takes its tag (log entry 20); an area that fails
its checks ends the context with BADSAVE. That a drain ends though parked workgroups stay is log entry 63, that the quiesce limit may
come again entry 71, that an area too big for its pool is left unwritten entry 73. The order of the sequences in an area is entry 116.
-/
def Obligations.TheLadderDrainsSavesAndResumes : Prop :=
  ∀ (s : State) (io pool : Nat) (cmd : BitVec 256),
    (3 ≤ nfld cmd 0 8 ∨ nfld cmd 64 32 = 0 ∨ (nfld cmd 0 8 = 2 ∧ ∃ d, d < 8 ∧ nfld (s.coreMask cmd) (64 * d + 56) 8 ≠ 0) →
      exec (.ladderCommand io cmd) s = .next (s.fwWrite (nfld cmd 192 64) (leBytes 4 3 ++ leBytes 4 0)))
  ∧ (nfld cmd 0 8 = 0 → nfld cmd 64 32 ≠ 0 → nfld cmd 32 32 ≠ 0 → s.ladders = [] → ∃ l, l.io = io ∧ l.ctx = nfld cmd 8 8
      ∧ l.rung = .drain ∧ l.pool = nfld cmd 192 64 ∧ l.areas = [] ∧ l.next = l.pool + 4096
      ∧ ((∃ e ∈ s.wgs, e.2.ctx = nfld cmd 8 8 ∧ e.2.parked = false) → exec (.ladderCommand io cmd) s = .next { s with ladders := [l] })
      ∧ ((∀ e ∈ s.wgs, e.2.parked = false → e.2.ctx ≠ nfld cmd 8 8 ∧ (s.gridOf e.2).copy.coresident = false) →
          exec (.ladderCommand io cmd) s = .next { (({ s with ladders := [l] } : State).fwWrite l.pool (leBytes 4 0 ++ leBytes 4 0)) with
            ladders := [] }))
  ∧ (∀ l, s.ladders = [l] → l.rung = .drain → (∀ e ∈ s.wgs, e.2.parked = true ∨ l.names e.2 = false) →
      s.drained = { s.fwWrite l.pool (leBytes 4 0 ++ leBytes 4 l.areas.length) with ladders := [] })
  ∧ (∀ l, s.ladder io pool = some l → l.rung = .drain →
      exec (.quiesceLimitExpiry io pool) s = .next s ∧ exec (.saveDeadlineExpiry io pool) s = .next s
      ∧ ((∀ e ∈ s.wgs, s.inScope l e.2 = false) → exec (.saveRungStart io pool) s = .next (s.saved l))
      ∧ ((∃ e ∈ s.wgs, s.inScope l e.2 = true) → l.quiesceUs ≠ 0 → ∃ t, exec (.saveRungStart io pool) s = .next t
          ∧ (∀ e ∈ s.wgs, s.inScope l e.2 = true → ∀ v, t.wgs.find? e.1 = some v → s.wgs.find? e.1 = some e.2 → t.frozen v = true)
          ∧ t.mem = s.mem))
  ∧ (∀ l, s.saved l = { s.fwWrite l.pool (leBytes 4 1 ++ leBytes 4 l.areas.length) with
      ladders := s.ladders.erase l, pools := s.pools ++ [⟨l.io, l.pool, l.ctx, false, l.areas⟩] })
  ∧ (∀ l wid w, s.ladder io pool = some l → s.wgs.find? wid = some w →
      let bs := w.stopped.areaBytes (s.gridOf w) w.children.length (w.burrowBytes (s.ctx w.ctx))
      let area : Area := { base := l.next, wid := wid, wg := w.stopped, kids := w.children.length, restored := false }
      let l' := { l with areas := l.areas ++ [area], next := alignUp 4096 (l.next + bs.length) }
      let flush := s.mayFlush w = true ∧ Config.flushed s.tick wid = true
      let ready := w.admitted ∈ l.members ∧ s.quiet w = true
      (¬ ready → s.saveOne io pool wid = s)
      ∧ (ready → flush → s.saveOne io pool wid = (({ s with
          wgs := s.wgs.erase wid
          grids := s.grids.modify w.seq (fun g => { g with drawn := g.drawn ++ [(w.die, w.index)] }) } : State).offer w.die w.core))
      ∧ (ready → ¬ flush → l.tooBig bs.length = true → s.saveOne io pool wid = s)
      ∧ (ready → ¬ flush → l.tooBig bs.length = false → s.saveOne io pool wid =
          ({ ((s.putLadder l l').fwWrite l.next bs) with wgs := s.wgs.erase wid } : State).offer w.die w.core))
  ∧ (∀ l, s.ladder io pool = some l → l.rung ≠ .drain →
      exec (.quiesceLimitExpiry io pool) s = .next ((s.putLadder l { l with rung := .quiesced }).saveAll io pool)
      ∧ (s.wgs = [] → ∃ t, exec (.quiesceLimitExpiry io pool) s = .next t
          ∧ t.pools = s.pools ++ [⟨l.io, l.pool, l.ctx, false, l.areas⟩]))
  ∧ (∀ l, s.ladder io pool = some l → l.rung ≠ .drain → ∃ t, exec (.saveDeadlineExpiry io pool) s = .next t ∧ Stopped t l.ctx
      ∧ t = s.endContext l.ctx .deadline)
  ∧ (∀ c : BitVec 128, s.resumable io c = none → exec (.resumeCommand io c) s = .next { s with resumeReg := s.resumeReg.put io 1 })
  ∧ (∀ (c : BitVec 128) p, s.resumable io c = some p → (∃ a ∈ p.areas, a.restored = false) → s.pools = [p] → ∃ t,
      exec (.resumeCommand io c) s = .next t ∧ t.pools = [{ p with resumed := true }] ∧ t.resumeValue io = 1 ∧ t.mem = s.mem)
  ∧ (∀ area die e a, s.savedAreas.find? (fun x => x.1.base == pool && x.1.areas[area]? == some x.2) = some (e, a) →
      let read := a.wg.loadChecked (s.grids.get a.wg.seq) (s.areaOf a)
      (s.resumePlaces a die = none → exec (.workgroupResumption pool area die) s = .next s)
      ∧ (∀ core, s.resumePlaces a die = some [(a, die, core)] →
        (read = none → exec (.workgroupResumption pool area die) s = .next ((s.endContext a.wg.ctx .badsave).poolsDone))
        ∧ (∀ w, read = some w → s.pools = [e] → (∃ b ∈ e.areas, b ≠ a ∧ b.restored = false) → ∃ t,
          exec (.workgroupResumption pool area die) s = .next t ∧ t.mem = s.mem
          ∧ t.wgs = s.wgs.insert a.wid (({ w with
              die := die, core := core, share := s.freeShare a.wid die core, admitted := s.nextWid, children := a.wg.children } : Workgroup).withKids
              a.kids ((s.areaOf a).nat 0x24 4))
          ∧ (w.parked = false → ∀ l ∈ w.heldLines (s.gridOf w).tileCount (s.gridOf w).spBytes,
              t.tags.find? (tagKey l.array die core (2048 * s.freeShare a.wid die core + l.line)) = some ⟨w.ctx, (s.ctx w.ctx).secure⟩))))

/-- R288 to R294, R297, R332, R361, R362: the monitor's and the firmware's operations on contexts, regions, keys, cores, plug-ins and
partitions. A release retires what grids remain (with RESULT 2, the model's reading, log entry 65); its sweep clears every line, tag, cached
translation and queue that carries the CTXID, and waits while the Kazlet owes a write of the context (log entry 18). A change of the region
table holds admission on all cores until no access of a crew and no move is in flight to the old range or to the new one (that it is all
cores, and one change at a time, is the model's choice, log entry 112). A plug-in that stops leaves its tenant's queues with the priority
they declare. Cores that leave a partition take no workgroup, and leave it once none of it stands on them; a parked workgroup stands on its
core (the model's choice, log entry 30). A plug-in restarts from the image held since boot, if it has one (R362; what an image is made of is
log entry 105). Which cause an activation answers where several conditions fail is log entry 110. -/
def Obligations.ContextsRegionsAndKeysChangeByTheirRules : Prop :=
  ∀ (s : State) (ctx part tenant : Nat) (d : BitVec 512),
    (ctx < 256 → s.activationCause ctx d = 0 → ∃ t, exec (.contextActivate ctx part tenant d) s = .next t ∧ (t.ctx ctx).valid = true
      ∧ (t.ctx ctx).secure = flag d 62 ∧ (t.ctx ctx).debug = flag d 61 ∧ (t.ctx ctx).ptroot = fld d 64 64 ∧ (t.ctx ctx).seqs = []
      ∧ (t.ctx ctx).part = part ∧ (t.ctx ctx).tenant = tenant ∧ t.out = s.out ++ [.activation ctx 0])
  ∧ (ctx < 256 → s.activationCause ctx d ≠ 0 →
      exec (.contextActivate ctx part tenant d) s = .next (s.send (.activation ctx (s.activationCause ctx d))))
  ∧ (∀ x debug devq, s.ctxs.find? ctx = some x → x.valid = true → exec (.contextChange ctx debug devq) s =
      .next { s with ctxs := s.ctxs.insert ctx { x with debug := debug, devq := devq } })
  ∧ (∀ x, s.ctxs.find? ctx = some x → s.releasable ctx = true → ∃ t, exec (.contextRelease ctx) s = .next t
      ∧ (t.ctx ctx).valid = false ∧ (t.ctx ctx).sweeping = true ∧ (t.ctx ctx).seqs = [] ∧ ∀ e ∈ t.grids, e.2.ctx ≠ ctx)
  ∧ (s.releasable ctx = false → exec (.contextRelease ctx) s = .next s)
  ∧ ((∃ o ∈ s.owed, o.span.1 = ctx) → exec (.releaseSweepDone ctx) s = .next s)
  ∧ (∀ x, s.ctxs.find? ctx = some x → x.sweeping = true → (∀ o ∈ s.owed, o.span.1 ≠ ctx) → ∃ t, exec (.releaseSweepDone ctx) s = .next t
      ∧ (t.ctx ctx).sweeping = false ∧ (∀ e, e ∈ t.tlb ↔ e ∈ s.tlb ∧ e.ctx ≠ ctx) ∧ (∀ e, e ∈ t.tables ↔ e ∈ s.tables ∧ e.ctx ≠ ctx)
      ∧ (∀ e, e ∈ t.tags ↔ e ∈ s.tags ∧ e.2.ctx ≠ ctx) ∧ (∀ e, e ∈ t.queues ↔ e ∈ s.queues ∧ e.2.ctx.toNat ≠ ctx)
      ∧ (t.ctx ctx).devTake = 0 ∧ (t.ctx ctx).devPut = 0 ∧ (t.ctx ctx).devSlots = []
      ∧ (∀ n l, s.lines.find? n = some l → t.lines.find? n = some (if l.owner = some (.ctx ctx) then ⟨none, false, false, []⟩ else l)))
  ∧ (∀ x, s.ctxs.find? ctx = some x → x.valid = true → ∃ t, exec (.kill ctx) s = .next t ∧ Stopped t ctx)
  ∧ (∀ i (e : BitVec 128), i < 64 →
      let new : Region := ⟨flag e 63, flag e 62, fld e 0 52, fld e 64 52⟩
      let meets := fun (r : Region) (pa n : Nat) => r.base.toNat ≤ r.limit.toNat ∧ pa ≤ r.limit.toNat ∧ r.base.toNat < pa + n
      let busy := fun (r : Region) => r.valid = true
        ∧ (s.flyingWhere (fun w a => a.parts.any (s.leadsTo w a (r.base.toNat, r.limit.toNat + 1 - r.base.toNat))) ≠ []
          ∨ ∃ m ∈ s.moves, ∃ frame size, leafPage m.e0 = some (frame, size) ∧ (meets r frame size ∨ meets r (moveDst m.cmd) size))
      (s.regionHold = none ∨ s.regionHold = some (i, e) →
        (¬ busy (s.regions.get i) → ¬ busy new → exec (.regionTableWrite i e) s =
          .next { s with regions := s.regions.put i new, regionHold := none })
        ∧ (busy (s.regions.get i) ∨ busy new → exec (.regionTableWrite i e) s = .next { s with regionHold := some (i, e) }))
      ∧ (∀ h, s.regionHold = some h → h ≠ (i, e) → exec (.regionTableWrite i e) s = .next s))
  ∧ (s.regionHold ≠ none → ∀ c die, s.openCores c die = [])
  ∧ (∀ i key, i < 512 → (∀ e ∈ s.ctxs, e.2.valid = true → e.2.keySlot.toNat ≠ i) →
      exec (.keySlotWrite i key) s = .next { s with keys := s.keys.insert i key })
  ∧ (∀ i key, (∃ e ∈ s.ctxs, e.2.valid = true ∧ e.2.keySlot.toNat = i) → exec (.keySlotWrite i key) s = .next s)
  ∧ (∀ die core sec, die < 8 → core < 56 →
      ((∀ e ∈ s.wgs, ¬ (e.2.die = die ∧ e.2.core = core)) → ∃ t, exec (.coreWorldChange die core sec) s = .next t
        ∧ t.secureCores.contains (56 * die + core) = sec)
      ∧ ((∃ e ∈ s.wgs, e.2.die = die ∧ e.2.core = core) → exec (.coreWorldChange die core sec) s = .next s))
  ∧ (∀ im, s.images[2 + tenant]? = some im →
      let good := Sha.hash im.key = s.keyHash ∧ im.signature = Config.sealOf im.key (Sha.hash im.bytes) ∧ s.rollback ≤ im.version
      (good → exec (.pluginRestart tenant) s = .next { s with stopped := s.stopped.filter (fun x => x != tenant) })
      ∧ (¬ good → exec (.pluginRestart tenant) s = .next s))
  ∧ (s.images[2 + tenant]? = none → exec (.pluginRestart tenant) s = .next s)
  ∧ (let stops := fun (i : Instr) => ∃ t, exec i s = .next t ∧ t.stopped.contains tenant = true ∧ t.mem = s.mem
      ∧ ∀ n q, s.queues.find? n = some q → ∃ q', t.queues.find? n = some q' ∧ { q' with policy := q.policy } = q
          ∧ q'.policy = if (s.ctx q.ctx.toNat).tenant = tenant then none else q.policy
     let inside := fun (addr : Nat) => ∃ i b, i < 4 ∧ s.windows.find? (4 * tenant + i) = some b ∧ b.1 ≤ addr ∧ addr < b.1 + b.2
     stops (.pluginTimeLimit tenant)
     ∧ (∀ addr, ¬ inside addr → stops (.pluginWindowViolation tenant addr))
     ∧ (∀ addr, inside addr → exec (.pluginWindowViolation tenant addr) s = .next s))
  ∧ (∀ named : List (Nat × Nat),
      let cores := (named.filter (fun p => decide (p.1 < 8 ∧ p.2 < 56) && !s.retired.contains (56 * p.1 + p.2))).eraseDups
      let leaving := (s.partitions.get part).cores.filter (fun p => !cores.contains p)
      (s.standsOn part leaving = true → exec (.partitionResize part named) s =
        .next { s with partitions := s.partitions.insert part ⟨cores ++ leaving, leaving⟩ })
      ∧ (s.standsOn part leaving = false → ∃ t, exec (.partitionResize part named) s = .next t
        ∧ t.partitions = s.partitions.insert part ⟨cores, []⟩ ∧ t.wgs = s.wgs
        ∧ ∀ e ∈ s.grids, (e.1, if (s.ctx e.2.ctx).part = part then { e.2 with drawn := handOver (t.diesOf e.2.ctx) e.2.drawn } else e.2) ∈ t.grids))
  ∧ (∀ die core, (die, core) ∈ (s.partitions.get (s.ctx ctx).part).leaving → core ∉ s.openCores ctx die)

/-- R310, R332, R364, R365: what ends contexts from outside: a function-level reset disables the function's queues and ends the
contexts bound to it; a thermal limit ends every context, and while a die is at its limit nothing is drawn, admitted or resumed
(log entry 64); a failed link stays down. -/
def Obligations.ResetsAndLimitsEndContexts : Prop :=
  ∀ (s : State) (func die link : Nat),
    (s.downLinks.contains 0 = false → ∃ t, exec (.functionLevelReset func) s = .next t
      ∧ (∀ e ∈ t.queues, e.2.func.toNat = func → e.2.state = .disabled) ∧ ∀ c ∈ s.boundTo func, Stopped t c)
  ∧ (s.downLinks.contains 0 = true → exec (.functionLevelReset func) s = .next s)
  ∧ (∃ t, exec (.thermalLimit die) s = .next t ∧ t.hot.contains die = true ∧ ∀ e ∈ s.ctxs, e.2.valid = true → s.ctxs.find? e.1 = some e.2 → Stopped t e.1)
  ∧ (s.hot ≠ [] → (∀ c d, s.openCores c d = []) ∧ (∀ e d, s.canAdmit e d = false ∧ s.canDraw e d = false)
      ∧ (∀ e, e.2.copy.total ≠ 0 → s.fits e = none) ∧ ∀ a d, s.resumePlaces a d = none)
  ∧ exec (.thermalCooled die) s = .next { s with hot := s.hot.filter (fun d => d != die) }
  ∧ (∃ t, exec (.linkTrainingFailure link) s = .next t ∧ t.downLinks.contains link = true ∧ t.mem = s.mem ∧ t.wgs = s.wgs)

/-- R101, R290, R294, R355 to R361: a dirty line leaves the die cache under its owner's key; a leaf written back is clean; a corrected error
is counted and recorded with the tag of its line and changes no data; at THRESH the region is lasting, with a second record of KIND 3 and
HANDLE 0, and a core retires; an uncorrectable one in a dirty leaf poisons it, in a line of a core's array or a dirty line of the die cache
it ends the owner and clears the line, and in a core's line that nothing has filled or written ends nothing; the state of a queue carries
the tag of its context until the sweep ends; the window's end clears the counts of its I/O die. How the lines of a workgroup are counted is
log entry 20, which I/O die is the nearer entry 21, which region a line stands in entry 69, and that a write-back behind a port that is down
fails entry 107. -/
def Obligations.ErrorsAreCountedAndContained : Prop :=
  ∀ s (a : SramArray) (die core region line : Nat),
    let key := regionKey a die core region
    let scrub := fun (bad : Nat) => exec (.hedgehogScrub a die core region line bad) s
    let placed := die < 8 ∧ core < 56 ∧ region < regionCount a ∧ s.standsIn a die region line = true
    (∀ l o, s.lines.find? line = some l → l.owner = some o → l.dirty = true → s.reachable (256 * line) = true → ∃ t,
      exec (.dieCacheWriteBack line) s = .next t
      ∧ t.lines.find? line = none ∧ t.sealed.find? line = some (s.slotOf o)
      ∧ (∀ j, j < 256 → t.mem.clear (s.keyOf o) (256 * line + j) = l.bytes.get j)
      ∧ ∀ x, x / 256 ≠ line → t.mem.read x = s.mem.read x)
  ∧ (∀ l, s.lines.find? line = some l → (l.owner = none ∨ l.dirty = false ∨ s.reachable (256 * line) = false) →
      exec (.dieCacheWriteBack line) s = .next { s with lines := s.lines.erase line })
  ∧ (∀ ctx x leaf l, s.ctxs.find? ctx = some x → x.leaves.find? leaf = some l → exec (.burrowWriteBack ctx leaf) s =
      .next { s with ctxs := s.ctxs.insert ctx { x with leaves := x.leaves.insert leaf { l with dirty := false } } })
  ∧ (¬ placed → ∀ bad, scrub bad = .next s)
  ∧ (placed → s.errors.get key + 1 < s.thresh → ∃ r, scrub 1 = .next { s with
        errors := s.errors.put key (s.errors.get key + 1), out := s.out ++ [.error (nearIo die) r] }
      ∧ nfld r 0 8 = 0 ∧ nfld r 8 8 = arrayCode a ∧ nfld r 16 8 = die ∧ nfld r 56 8 = min (s.errors.get key + 1) 255
      ∧ (∀ g, s.tagOf a die core line = some g → flag r 50 = true ∧ nfld r 40 8 = g.ctx % 256 ∧ (a ≠ .dieCache → flag r 48 = g.secure))
      ∧ (s.tagOf a die core line = none → flag r 50 = false ∧ nfld r 40 8 = 0)
      ∧ (∀ l, a = .dieCache → s.lines.find? line = some l → flag r 48 = l.secure))
  ∧ (placed → s.thresh ≤ s.errors.get key + 1 → s.lasting.contains key = false → ∃ t r q,
      scrub 1 = .next t ∧ t.lasting.contains key = true ∧ t.out = s.out ++ [.error (nearIo die) r, .error (nearIo die) q]
      ∧ nfld q 0 8 = 3 ∧ nfld q 64 16 = 0
      ∧ (ofCore a = true → t.retired.contains (56 * die + core) = true) ∧ (a ≠ .dieCache → t.mem = s.mem))
  ∧ (∀ c x l, placed → a = .burrow → c = line / 2 ^ 22 → s.lasting.contains key = false → s.ctxs.find? c = some x →
      x.leaves.find? (line % 2 ^ 22) = some l → l.dirty = true → l.poisoned = false → ∃ t, scrub 2 = .next t
      ∧ ((t.ctx c).leaves.get (line % 2 ^ 22)).poisoned = true ∧ ((t.ctx c).leaves.get (line % 2 ^ 22)).bytes = [] ∧ t.wgs = s.wgs)
  ∧ (∀ g, placed → ofCore a = true → a ≠ .datapath → s.tagOf a die core line = some g → (s.ctx g.ctx).valid = true → ∃ t,
      scrub 2 = .next t ∧ Stopped t g.ctx ∧ t.tags.find? (tagKey (arrayCode a) die core line) = none)
  ∧ (placed → ofCore a = true → s.tagOf a die core line = none → ∃ t, scrub 2 = .next t ∧ t.wgs = s.wgs ∧ t.grids = s.grids
      ∧ t.ctxs = s.ctxs ∧ t.tags = s.tags)
  ∧ (∀ l, ofCore a = true → a ≠ .datapath → s.tagOf a die core l = s.tags.find? (tagKey (arrayCode a) die core l))
  ∧ (∀ l c, a = .other → ((s.ctx c).valid = true ∨ (s.ctx c).sweeping = true) →
      (l < 4096 → ∀ q, s.queues.find? l = some q → q.ctx.toNat = c → s.tagOf a die core l = some ⟨c, (s.ctx c).secure⟩)
      ∧ (l = 4096 + c → (s.ctx c).devBare = false → s.tagOf a die core l = some ⟨c, (s.ctx c).secure⟩))
  ∧ (∀ c l, placed → a = .dieCache → s.lines.find? line = some l → l.owner = some (.ctx c) →
      (l.dirty = true → (s.ctx c).valid = true → ∃ t, scrub 2 = .next t ∧ Stopped t c
        ∧ ∀ x, t.lines.find? line = some x → x = ⟨none, false, false, []⟩)
      ∧ (l.dirty = false → ∃ t, scrub 2 = .next t ∧ t.lines.find? line = none ∧ t.wgs = s.wgs ∧ t.grids = s.grids))
  ∧ (∀ io, ∃ t, exec (.errorWindowExpiry io) s = .next t ∧ ∀ e, e ∈ t.errors ↔ e ∈ s.errors ∧ regionIo e.1 ≠ io)

/-- R362, R363, R365: package reset with a monitor and a scheduler, and images that are all signed under the fused key and not rolled
back, leaves everything invalid, memory as it stands (which the spec leaves open, log entry 66), the lines of the die cache zero, and the
dies as hot as they were; any failure leaves the package in recovery, where no other event comes about (log entry 75); before bring-up
has ended no stream issues. SPDM requests are answered, the measurements with the SHA-256 of the boot ROM and of the images in force,
and a signature; the forms of the answers and the chosen bits are taken from SPDM (log entry 67), the form of keys, images and
signatures is the model's (log entry 105). -/
def Obligations.BringUpAndAttestationAnswer : Prop :=
  ∀ (s : State),
    let good := fun (x : FlashImage) => Sha.hash x.key = s.keyHash ∧ x.signature = Config.sealOf x.key (Sha.hash x.bytes)
      ∧ s.rollback ≤ x.version
    (∀ images : List FlashImage, 2 ≤ images.length → (∀ x ∈ images, good x) → ∃ t,
      exec (.packageReset (some images)) s = .next t ∧ t.boot = .done ∧ t.images = images
      ∧ t.wgs = [] ∧ t.grids = [] ∧ t.ctxs = [] ∧ t.queues = [] ∧ t.keys = [] ∧ t.tags = [] ∧ t.tlb = [] ∧ t.mem = s.mem ∧ t.hot = s.hot
      ∧ t.keyHash = s.keyHash ∧ t.rollback = s.rollback ∧ t.secureCores = [] ∧ t.downLinks = s.downLinks
      ∧ ∀ n l, s.lines.find? n = some l → t.lines.find? n = some ⟨none, false, false, []⟩)
  ∧ (∀ flash : Option (List FlashImage), (∀ images, flash = some images → images.length < 2 ∨ ∃ x ∈ images, ¬ good x) → ∃ t,
      exec (.packageReset flash) s = .next t ∧ t.boot = .recovery ∧ t.wgs = [] ∧ t.ctxs = [] ∧ t.mem = s.mem)
  ∧ (∀ k rest, s.freed = [] → s.boot ≠ .done → (s.agenda = .scalar k :: rest ∨ s.agenda = .lane k :: rest) →
      step s = .next { s with agenda := rest, tick := s.tick + 1 })
  ∧ (∀ i rest, s.freed = [] → (s.boot = .recovery ∧ inRecovery i = false ∨ s.boot = .pending ∧ needsNoPackage i = false) → s.agenda = .event i :: rest →
      step s = .next { s with agenda := rest, tick := s.tick + 1 })
  ∧ (s.downLinks.contains 0 = false →
      let answers := fun (i : Instr) (n : Nat) (words : List (BitVec 256)) => exec i s = .next (s.send (.spdm n words))
      (∃ sig : List (BitVec 256), sig.length = 12
        ∧ answers .getMeasurements 6 (s.bootRom :: s.images.map (fun x => Sha.hash x.bytes) ++ sig)
        ∧ ∃ chain : List Byte, answers (.getCertificate 0) 4 (chain.map (BitVec.zeroExtend 256)) ∧ answers .getDigests 3 [Sha.hash chain]
          ∧ ∀ nonce, answers (.challenge nonce) 5 (Sha.hash chain :: nonce :: sig))
      ∧ answers .getVersion 0 [0x13]
      ∧ (∃ words, answers .getCapabilities 1 words)
      ∧ (∀ h g, answers (.negotiateAlgorithms h g) 2 [BitVec.ofNat 256 h &&& 1, BitVec.ofNat 256 g &&& 4])
      ∧ (∀ slot, ∃ words, answers (.getCertificate slot) 4 words))
  ∧ (s.downLinks.contains 0 = true → ∀ i ∈ [Instr.getMeasurements, .getVersion, .getCapabilities, .getDigests], exec i s = .next s)
end

