-- ==== Sys2Proof/Laws/Aes.lean ====
section
/-! SUPPORT. The cipher of off-chip lines can be undone: what is enciphered under a key reads the same under that key. -/

namespace Sys2Proof.Aes

theorem xor_cancel {w : Nat} (x k : BitVec w) : x ^^^ k ^^^ k = x := by rw [BitVec.xor_assoc, BitVec.xor_self, BitVec.xor_zero]

@[simp] theorem Col.add_add (x k : Col) : (x.add k).add k = x := by simp only [Col.add, xor_cancel]
@[simp] theorem Block.add_add (x k : Block) : (x.add k).add k = x := by simp only [Block.add, Col.add_add]

theorem unsbox_sbox (x : Byte) : unsbox (sbox x) = x := by revert x; decide

@[simp] theorem Col.unsbox_sbox (x : Col) : (x.map sbox).map unsbox = x := by
  simp only [Col.map, Aes.unsbox_sbox]

@[simp] theorem Block.unsbox_sbox (x : Block) : (x.mapCols (Col.map sbox)).mapCols (Col.map unsbox) = x := by
  simp only [Block.mapCols, Col.unsbox_sbox]

@[simp] theorem unshiftRows_shiftRows (x : Block) : unshiftRows (shiftRows x) = x := rfl

/-- Multiplication by x is linear. -/
theorem xtime_xor (x y : Byte) : xtime (x ^^^ y) = xtime x ^^^ xtime y := by
  unfold xtime
  rw [BitVec.shiftLeft_xor_distrib, BitVec.getLsbD_xor]
  generalize x <<< 1 = a
  generalize y <<< 1 = b
  generalize (0x1B : Byte) = k
  have both : a ^^^ b = a ^^^ k ^^^ (b ^^^ k) := by
    rw [show a ^^^ k ^^^ (b ^^^ k) = a ^^^ b ^^^ k ^^^ k by ac_rfl, xor_cancel]
  cases x.getLsbD 7 <;> cases y.getLsbD 7
  · simp
  · simp; ac_rfl
  · simp; ac_rfl
  · simpa using both

theorem mixCol_add (x y : Col) : mixCol (x.add y) = (mixCol x).add (mixCol y) := by
  simp only [mixCol, Col.add, xtime_xor, Col.mk.injEq]
  refine ⟨?_, ?_, ?_, ?_⟩ <;> ac_rfl

theorem unmixByte_xor (u v w z u' v' w' z' : Byte) :
    unmixByte (u ^^^ u') (v ^^^ v') (w ^^^ w') (z ^^^ z') = unmixByte u v w z ^^^ unmixByte u' v' w' z' := by
  simp only [unmixByte, xtime_xor]
  ac_rfl

theorem unmixCol_add (x y : Col) : unmixCol (x.add y) = (unmixCol x).add (unmixCol y) := by
  simp only [unmixCol, Col.add, unmixByte_xor]

theorem unmixCol_mixCol (x : Col) : unmixCol (mixCol x) = x := by
  have one : ∀ a : Byte, unmixCol (mixCol ⟨a, 0, 0, 0⟩) = ⟨a, 0, 0, 0⟩ ∧ unmixCol (mixCol ⟨0, a, 0, 0⟩) = ⟨0, a, 0, 0⟩
      ∧ unmixCol (mixCol ⟨0, 0, a, 0⟩) = ⟨0, 0, a, 0⟩ ∧ unmixCol (mixCol ⟨0, 0, 0, a⟩) = ⟨0, 0, 0, a⟩ := by
    intro a
    have zero : xtime 0 = 0 := by decide
    simp only [unmixCol, mixCol, unmixByte, xtime_xor, zero, Col.mk.injEq]
    generalize xtime (xtime (xtime (xtime a))) = a4
    generalize xtime (xtime (xtime a)) = a3
    generalize xtime (xtime a) = a2
    generalize xtime a = a1
    refine ⟨⟨?_, ?_, ?_, ?_⟩, ⟨?_, ?_, ?_, ?_⟩, ⟨?_, ?_, ?_, ?_⟩, ?_, ?_, ?_, ?_⟩ <;>
    · apply BitVec.eq_of_getElem_eq
      intro i hi
      simp only [BitVec.ofNat_eq_ofNat, BitVec.getElem_xor, BitVec.getElem_zero]
      generalize a[i] = b0, a1[i] = b1, a2[i] = b2, a3[i] = b3, a4[i] = b4
      revert b0 b1 b2 b3 b4
      decide
  obtain ⟨a, b, c, d⟩ := x
  have parts : (⟨a, b, c, d⟩ : Col) = Col.add ⟨a, 0, 0, 0⟩ (Col.add ⟨0, b, 0, 0⟩ (Col.add ⟨0, 0, c, 0⟩ ⟨0, 0, 0, d⟩)) := by
    simp [Col.add]
  rw [parts]
  simp only [mixCol_add, unmixCol_add, (one a).1, (one b).2.1, (one c).2.2.1, (one d).2.2.2]

theorem unmix_mix (x : Block) : (x.mapCols mixCol).mapCols unmixCol = x := by
  simp only [Block.mapCols, unmixCol_mixCol]

theorem unrounds_rounds (ks : List Block) (x : Block) : unrounds ks (rounds ks x) = x := by
  induction ks generalizing x with
  | nil => rfl
  | cons k ks ih =>
    cases ks with
    | nil => simp [unrounds, rounds]
    | cons l ls => simp only [rounds, unrounds, ih, Block.add_add, unmix_mix, unshiftRows_shiftRows, Block.unsbox_sbox]

theorem decrypt_encrypt (key : BitVec 256) (x : Block) : decrypt key (encrypt key x) = x := by
  unfold decrypt encrypt
  cases schedule key with
  | nil => rfl
  | cons k ks => simp [unrounds_rounds]

theorem decipher_encipher (key : BitVec 512) (line j : Nat) (x : Block) :
    decipher key line j (encipher key line j x) = x := by
  simp [decipher, encipher, decrypt_encrypt]

end Sys2Proof.Aes
end

