-- ==== Sys2Proof/Laws/Cells.lean ====
section
/-! SUPPORT. Sparse maps: reading after listing, erasing and writing a key, and that each operation keeps the canonical form. -/

namespace Sys2Proof

variable {α : Type}

theorem SMap.find?_insert (m : SMap α) (k : Nat) (v : α) (j : Nat) :
    (m.insert k v).find? j = if j = k then some v else m.find? j := by
  induction m with
  | nil => simp only [SMap.insert, SMap.find?, eq_comm]
  | cons e m ih =>
    obtain ⟨a, x⟩ := e
    simp only [SMap.insert]
    split
    · by_cases h : j = k
      · simp [SMap.find?, h]
      · simp [SMap.find?, h, Ne.symm h]
    · split
      · subst a
        by_cases h : j = k
        · simp [SMap.find?, h]
        · simp [SMap.find?, h, Ne.symm h]
      · simp only [SMap.find?, ih]
        by_cases h : a = j
        · simp [h]; intro h'; omega
        · simp [h]

theorem SMap.find?_erase (m : SMap α) (k j : Nat) : (m.erase k).find? j = if j = k then none else m.find? j := by
  induction m with
  | nil => simp [SMap.erase, SMap.find?]
  | cons e m ih =>
    obtain ⟨a, x⟩ := e
    simp only [SMap.erase]
    split
    · rw [ih]; subst a
      by_cases h : j = k
      · simp [h]
      · simp [SMap.find?, h, Ne.symm h]
    · simp only [SMap.find?, ih]
      by_cases h : a = j
      · simp [h]; intro h'; omega
      · simp [h]

@[simp] theorem SMap.find?_insert_self (m : SMap α) (k : Nat) (v : α) : (m.insert k v).find? k = some v := by
  simp [SMap.find?_insert]

@[simp] theorem SMap.find?_erase_self (m : SMap α) (k : Nat) : (m.erase k).find? k = none := by simp [SMap.find?_erase]

section
variable [Inhabited α]

theorem SMap.get_insert (m : SMap α) (k : Nat) (v : α) (j : Nat) : (m.insert k v).get j = if j = k then v else m.get j := by
  simp only [SMap.get, SMap.find?_insert]; split <;> rfl

@[simp] theorem SMap.get_insert_self (m : SMap α) (k : Nat) (v : α) : (m.insert k v).get k = v := by simp [SMap.get_insert]

theorem SMap.get_erase (m : SMap α) (k j : Nat) : (m.erase k).get j = if j = k then default else m.get j := by
  simp only [SMap.get, SMap.find?_erase]; split <;> rfl

theorem SMap.get_put [DecidableEq α] (m : SMap α) (k : Nat) (v : α) (j : Nat) :
    (m.put k v).get j = if j = k then v else m.get j := by
  unfold SMap.put
  split
  · rename_i h; rw [SMap.get_erase, h]
  · exact SMap.get_insert m k v j

@[simp] theorem SMap.get_put_self [DecidableEq α] (m : SMap α) (k : Nat) (v : α) : (m.put k v).get k = v := by
  simp [SMap.get_put]

@[simp] theorem SMap.get_nil (k : Nat) : SMap.get ([] : SMap α) k = default := rfl

end

/-! What is listed. -/

theorem SMap.mem_insert {m : SMap α} {k : Nat} {v : α} {e : Nat × α} (h : e ∈ m.insert k v) : e = (k, v) ∨ e ∈ m := by
  induction m with
  | nil => simpa [SMap.insert] using h
  | cons b m ih =>
    obtain ⟨a, x⟩ := b
    simp only [SMap.insert] at h
    split at h
    · simpa using h
    · split at h
      · simp only [List.mem_cons] at h ⊢
        rcases h with h | h
        · exact .inl h
        · exact .inr (.inr h)
      · simp only [List.mem_cons] at h ⊢
        rcases h with h | h
        · exact .inr (.inl h)
        · rcases ih h with h | h
          · exact .inl h
          · exact .inr (.inr h)

theorem SMap.mem_erase {m : SMap α} {k : Nat} {e : Nat × α} : e ∈ m.erase k ↔ e ∈ m ∧ e.1 ≠ k := by
  induction m with
  | nil => simp [SMap.erase]
  | cons b m ih =>
    obtain ⟨a, x⟩ := b
    simp only [SMap.erase]
    split
    · rw [ih]; subst a
      constructor
      · exact fun h => ⟨List.mem_cons_of_mem _ h.1, h.2⟩
      · rintro ⟨h, hk⟩
        rcases List.mem_cons.mp h with rfl | h
        · exact absurd rfl hk
        · exact ⟨h, hk⟩
    · simp only [List.mem_cons, ih]
      constructor
      · rintro (rfl | h)
        · exact ⟨.inl rfl, by assumption⟩
        · exact ⟨.inr h.1, h.2⟩
      · rintro ⟨rfl | h, hk⟩
        · exact .inl rfl
        · exact .inr ⟨h, hk⟩

/-! The canonical form. -/

theorem SMap.sorted_insert {m : SMap α} (h : SMap.Sorted m) (k : Nat) (v : α) : SMap.Sorted (m.insert k v) := by
  induction m with
  | nil => simp [SMap.insert]
  | cons e m ih =>
    obtain ⟨a, x⟩ := e
    have h' := List.pairwise_cons.mp h
    simp only [SMap.insert]
    split
    · rename_i hk
      refine List.pairwise_cons.mpr ⟨fun p hp => ?_, h⟩
      rcases List.mem_cons.mp hp with rfl | hp
      · exact hk
      · exact Nat.lt_trans hk (h'.1 p hp)
    · split
      · subst a; exact List.pairwise_cons.mpr ⟨h'.1, h'.2⟩
      · refine List.pairwise_cons.mpr ⟨fun p hp => ?_, ih h'.2⟩
        rcases SMap.mem_insert hp with rfl | hp
        · show a < k; omega
        · exact h'.1 p hp

theorem SMap.sorted_erase {m : SMap α} (h : SMap.Sorted m) (k : Nat) : SMap.Sorted (m.erase k) := by
  induction m with
  | nil => simp [SMap.erase]
  | cons e m ih =>
    obtain ⟨a, x⟩ := e
    have h' := List.pairwise_cons.mp h
    simp only [SMap.erase]
    split
    · exact ih h'.2
    · exact List.pairwise_cons.mpr ⟨fun p hp => h'.1 p (SMap.mem_erase.mp hp).1, ih h'.2⟩

theorem SMap.sorted_mapVals {m : SMap α} (h : SMap.Sorted m) (f : α → α) : SMap.Sorted (SMap.mapVals m f) :=
  List.pairwise_map.mpr h

theorem SMap.sorted_keep {m : SMap α} (h : SMap.Sorted m) (p : α → Bool) : SMap.Sorted (SMap.keep m p) := h.filter _

/-- In a map whose keys rise, an entry that is listed is what its key finds. -/
theorem SMap.find?_of_mem {m : SMap α} (h : SMap.Sorted m) {e : Nat × α} (he : e ∈ m) : m.find? e.1 = some e.2 := by
  induction m with
  | nil => cases he
  | cons b m ih =>
    obtain ⟨a, x⟩ := b
    have h' := List.pairwise_cons.mp h
    rcases List.mem_cons.mp he with rfl | he
    · simp [SMap.find?]
    · have : a < e.1 := h'.1 e he
      have hne : a ≠ e.1 := by omega
      simpa [SMap.find?, hne] using ih h'.2 he

theorem SMap.mem_of_find? {m : SMap α} {k : Nat} {v : α} (h : m.find? k = some v) : (k, v) ∈ m := by
  induction m with
  | nil => cases h
  | cons b m ih =>
    obtain ⟨a, x⟩ := b
    simp only [SMap.find?] at h
    split at h
    · cases h; subst a; exact List.mem_cons_self
    · exact List.mem_cons_of_mem _ (ih h)

section
variable [Inhabited α] [DecidableEq α]

theorem SMap.wf_put {m : SMap α} (h : SMap.wf m) (k : Nat) (v : α) : SMap.wf (m.put k v) := by
  unfold SMap.put
  split
  · exact ⟨SMap.sorted_erase h.1 k, fun p hp => h.2 p (SMap.mem_erase.mp hp).1⟩
  · refine ⟨SMap.sorted_insert h.1 k v, fun p hp => ?_⟩
    rcases SMap.mem_insert hp with rfl | hp
    · assumption
    · exact h.2 p hp

theorem SMap.wf_putList {m : SMap α} (h : SMap.wf m) (k : Nat) (vs : List α) : SMap.wf (m.putList k vs) := by
  induction vs generalizing m k with
  | nil => exact h
  | cons v vs ih => exact ih (SMap.wf_put h k v) (k + 1)

end

end Sys2Proof
end

