-- ==== Sys2Proof/Laws/State.lean ====
section
/-! SUPPORT. What each update of the state, of a workgroup and of a crew leaves as it was: one lemma for each field. -/

namespace Sys2Proof.Machine

/-! The state. -/

@[simp] theorem State.putWg_wgs (s : State) (n : Nat) (w : Workgroup) : (s.putWg n w).wgs = s.wgs.insert n w := rfl
@[simp] theorem State.putWg_agenda (s : State) (n : Nat) (w : Workgroup) : (s.putWg n w).agenda = s.agenda := rfl
@[simp] theorem State.putWg_cur (s : State) (n : Nat) (w : Workgroup) : (s.putWg n w).cur = s.cur := rfl
@[simp] theorem State.putWg_beyondV (s : State) (n : Nat) (w : Workgroup) : (s.putWg n w).beyondV = s.beyondV := rfl
@[simp] theorem State.putWg_beyondT (s : State) (n : Nat) (w : Workgroup) : (s.putWg n w).beyondT = s.beyondT := rfl
@[simp] theorem State.putWg_tick (s : State) (n : Nat) (w : Workgroup) : (s.putWg n w).tick = s.tick := rfl
@[simp] theorem State.putWg_nextWid (s : State) (n : Nat) (w : Workgroup) : (s.putWg n w).nextWid = s.nextWid := rfl
@[simp] theorem State.putWg_mem (s : State) (n : Nat) (w : Workgroup) : (s.putWg n w).mem = s.mem := rfl
@[simp] theorem State.putWg_lines (s : State) (n : Nat) (w : Workgroup) : (s.putWg n w).lines = s.lines := rfl
@[simp] theorem State.putWg_sealed (s : State) (n : Nat) (w : Workgroup) : (s.putWg n w).sealed = s.sealed := rfl
@[simp] theorem State.putWg_freed (s : State) (n : Nat) (w : Workgroup) : (s.putWg n w).freed = s.freed := rfl
@[simp] theorem State.putWg_tags (s : State) (n : Nat) (w : Workgroup) : (s.putWg n w).tags = s.tags := rfl
@[simp] theorem State.putWg_cxlBytes (s : State) (n : Nat) (w : Workgroup) :
    (s.putWg n w).cxlBytes = s.cxlBytes := rfl
@[simp] theorem State.putWg_grids (s : State) (n : Nat) (w : Workgroup) : (s.putWg n w).grids = s.grids := rfl
@[simp] theorem State.putWg_ctxs (s : State) (n : Nat) (w : Workgroup) : (s.putWg n w).ctxs = s.ctxs := rfl
@[simp] theorem State.putWg_queues (s : State) (n : Nat) (w : Workgroup) : (s.putWg n w).queues = s.queues := rfl
@[simp] theorem State.putWg_seq (s : State) (n : Nat) (w : Workgroup) : (s.putWg n w).seq = s.seq := rfl
@[simp] theorem State.putWg_tlb (s : State) (n : Nat) (w : Workgroup) : (s.putWg n w).tlb = s.tlb := rfl
@[simp] theorem State.putWg_tables (s : State) (n : Nat) (w : Workgroup) : (s.putWg n w).tables = s.tables := rfl
@[simp] theorem State.putWg_owed (s : State) (n : Nat) (w : Workgroup) : (s.putWg n w).owed = s.owed := rfl
@[simp] theorem State.putWg_shootdowns (s : State) (n : Nat) (w : Workgroup) :
    (s.putWg n w).shootdowns = s.shootdowns := rfl
@[simp] theorem State.putWg_moves (s : State) (n : Nat) (w : Workgroup) : (s.putWg n w).moves = s.moves := rfl
@[simp] theorem State.putWg_ladders (s : State) (n : Nat) (w : Workgroup) : (s.putWg n w).ladders = s.ladders := rfl
@[simp] theorem State.putWg_pools (s : State) (n : Nat) (w : Workgroup) : (s.putWg n w).pools = s.pools := rfl
@[simp] theorem State.putWg_resumeReg (s : State) (n : Nat) (w : Workgroup) :
    (s.putWg n w).resumeReg = s.resumeReg := rfl
@[simp] theorem State.putWg_regions (s : State) (n : Nat) (w : Workgroup) : (s.putWg n w).regions = s.regions := rfl
@[simp] theorem State.putWg_regionHold (s : State) (n : Nat) (w : Workgroup) :
    (s.putWg n w).regionHold = s.regionHold := rfl
@[simp] theorem State.putWg_secureCores (s : State) (n : Nat) (w : Workgroup) :
    (s.putWg n w).secureCores = s.secureCores := rfl
@[simp] theorem State.putWg_keys (s : State) (n : Nat) (w : Workgroup) : (s.putWg n w).keys = s.keys := rfl
@[simp] theorem State.putWg_apertures (s : State) (n : Nat) (w : Workgroup) :
    (s.putWg n w).apertures = s.apertures := rfl
@[simp] theorem State.putWg_fabric (s : State) (n : Nat) (w : Workgroup) : (s.putWg n w).fabric = s.fabric := rfl
@[simp] theorem State.putWg_errors (s : State) (n : Nat) (w : Workgroup) : (s.putWg n w).errors = s.errors := rfl
@[simp] theorem State.putWg_windowMs (s : State) (n : Nat) (w : Workgroup) :
    (s.putWg n w).windowMs = s.windowMs := rfl
@[simp] theorem State.putWg_thresh (s : State) (n : Nat) (w : Workgroup) : (s.putWg n w).thresh = s.thresh := rfl
@[simp] theorem State.putWg_lasting (s : State) (n : Nat) (w : Workgroup) : (s.putWg n w).lasting = s.lasting := rfl
@[simp] theorem State.putWg_retired (s : State) (n : Nat) (w : Workgroup) : (s.putWg n w).retired = s.retired := rfl
@[simp] theorem State.putWg_partitions (s : State) (n : Nat) (w : Workgroup) :
    (s.putWg n w).partitions = s.partitions := rfl
@[simp] theorem State.putWg_stopped (s : State) (n : Nat) (w : Workgroup) : (s.putWg n w).stopped = s.stopped := rfl
@[simp] theorem State.putWg_windows (s : State) (n : Nat) (w : Workgroup) : (s.putWg n w).windows = s.windows := rfl
@[simp] theorem State.putWg_downLinks (s : State) (n : Nat) (w : Workgroup) :
    (s.putWg n w).downLinks = s.downLinks := rfl
@[simp] theorem State.putWg_hot (s : State) (n : Nat) (w : Workgroup) : (s.putWg n w).hot = s.hot := rfl
@[simp] theorem State.putWg_boot (s : State) (n : Nat) (w : Workgroup) : (s.putWg n w).boot = s.boot := rfl
@[simp] theorem State.putWg_images (s : State) (n : Nat) (w : Workgroup) : (s.putWg n w).images = s.images := rfl
@[simp] theorem State.putWg_keyHash (s : State) (n : Nat) (w : Workgroup) : (s.putWg n w).keyHash = s.keyHash := rfl
@[simp] theorem State.putWg_rollback (s : State) (n : Nat) (w : Workgroup) :
    (s.putWg n w).rollback = s.rollback := rfl
@[simp] theorem State.putWg_bootRom (s : State) (n : Nat) (w : Workgroup) : (s.putWg n w).bootRom = s.bootRom := rfl
@[simp] theorem State.putWg_cycles (s : State) (n : Nat) (w : Workgroup) : (s.putWg n w).cycles = s.cycles := rfl
@[simp] theorem State.putWg_out (s : State) (n : Nat) (w : Workgroup) : (s.putWg n w).out = s.out := rfl
@[simp] theorem State.put_wgs (s : State) (k : CrewKey) (w : Workgroup) (c : Crew) :
    (s.put k w c).wgs = s.wgs.insert k.wid (w.putCrew k.slot c) := rfl
@[simp] theorem State.put_agenda (s : State) (k : CrewKey) (w : Workgroup) (c : Crew) :
    (s.put k w c).agenda = s.agenda := rfl
@[simp] theorem State.put_cur (s : State) (k : CrewKey) (w : Workgroup) (c : Crew) : (s.put k w c).cur = s.cur := rfl
@[simp] theorem State.put_beyondV (s : State) (k : CrewKey) (w : Workgroup) (c : Crew) :
    (s.put k w c).beyondV = s.beyondV := rfl
@[simp] theorem State.put_beyondT (s : State) (k : CrewKey) (w : Workgroup) (c : Crew) :
    (s.put k w c).beyondT = s.beyondT := rfl
@[simp] theorem State.put_tick (s : State) (k : CrewKey) (w : Workgroup) (c : Crew) :
    (s.put k w c).tick = s.tick := rfl
@[simp] theorem State.put_nextWid (s : State) (k : CrewKey) (w : Workgroup) (c : Crew) :
    (s.put k w c).nextWid = s.nextWid := rfl
@[simp] theorem State.put_mem (s : State) (k : CrewKey) (w : Workgroup) (c : Crew) : (s.put k w c).mem = s.mem := rfl
@[simp] theorem State.put_lines (s : State) (k : CrewKey) (w : Workgroup) (c : Crew) :
    (s.put k w c).lines = s.lines := rfl
@[simp] theorem State.put_sealed (s : State) (k : CrewKey) (w : Workgroup) (c : Crew) :
    (s.put k w c).sealed = s.sealed := rfl
@[simp] theorem State.put_freed (s : State) (k : CrewKey) (w : Workgroup) (c : Crew) :
    (s.put k w c).freed = s.freed := rfl
@[simp] theorem State.put_tags (s : State) (k : CrewKey) (w : Workgroup) (c : Crew) :
    (s.put k w c).tags = s.tags := rfl
@[simp] theorem State.put_cxlBytes (s : State) (k : CrewKey) (w : Workgroup) (c : Crew) :
    (s.put k w c).cxlBytes = s.cxlBytes := rfl
@[simp] theorem State.put_grids (s : State) (k : CrewKey) (w : Workgroup) (c : Crew) :
    (s.put k w c).grids = s.grids := rfl
@[simp] theorem State.put_ctxs (s : State) (k : CrewKey) (w : Workgroup) (c : Crew) :
    (s.put k w c).ctxs = s.ctxs := rfl
@[simp] theorem State.put_queues (s : State) (k : CrewKey) (w : Workgroup) (c : Crew) :
    (s.put k w c).queues = s.queues := rfl
@[simp] theorem State.put_seq (s : State) (k : CrewKey) (w : Workgroup) (c : Crew) : (s.put k w c).seq = s.seq := rfl
@[simp] theorem State.put_tlb (s : State) (k : CrewKey) (w : Workgroup) (c : Crew) : (s.put k w c).tlb = s.tlb := rfl
@[simp] theorem State.put_tables (s : State) (k : CrewKey) (w : Workgroup) (c : Crew) :
    (s.put k w c).tables = s.tables := rfl
@[simp] theorem State.put_owed (s : State) (k : CrewKey) (w : Workgroup) (c : Crew) :
    (s.put k w c).owed = s.owed := rfl
@[simp] theorem State.put_shootdowns (s : State) (k : CrewKey) (w : Workgroup) (c : Crew) :
    (s.put k w c).shootdowns = s.shootdowns := rfl
@[simp] theorem State.put_moves (s : State) (k : CrewKey) (w : Workgroup) (c : Crew) :
    (s.put k w c).moves = s.moves := rfl
@[simp] theorem State.put_ladders (s : State) (k : CrewKey) (w : Workgroup) (c : Crew) :
    (s.put k w c).ladders = s.ladders := rfl
@[simp] theorem State.put_pools (s : State) (k : CrewKey) (w : Workgroup) (c : Crew) :
    (s.put k w c).pools = s.pools := rfl
@[simp] theorem State.put_resumeReg (s : State) (k : CrewKey) (w : Workgroup) (c : Crew) :
    (s.put k w c).resumeReg = s.resumeReg := rfl
@[simp] theorem State.put_regions (s : State) (k : CrewKey) (w : Workgroup) (c : Crew) :
    (s.put k w c).regions = s.regions := rfl
@[simp] theorem State.put_regionHold (s : State) (k : CrewKey) (w : Workgroup) (c : Crew) :
    (s.put k w c).regionHold = s.regionHold := rfl
@[simp] theorem State.put_secureCores (s : State) (k : CrewKey) (w : Workgroup) (c : Crew) :
    (s.put k w c).secureCores = s.secureCores := rfl
@[simp] theorem State.put_keys (s : State) (k : CrewKey) (w : Workgroup) (c : Crew) :
    (s.put k w c).keys = s.keys := rfl
@[simp] theorem State.put_apertures (s : State) (k : CrewKey) (w : Workgroup) (c : Crew) :
    (s.put k w c).apertures = s.apertures := rfl
@[simp] theorem State.put_fabric (s : State) (k : CrewKey) (w : Workgroup) (c : Crew) :
    (s.put k w c).fabric = s.fabric := rfl
@[simp] theorem State.put_errors (s : State) (k : CrewKey) (w : Workgroup) (c : Crew) :
    (s.put k w c).errors = s.errors := rfl
@[simp] theorem State.put_windowMs (s : State) (k : CrewKey) (w : Workgroup) (c : Crew) :
    (s.put k w c).windowMs = s.windowMs := rfl
@[simp] theorem State.put_thresh (s : State) (k : CrewKey) (w : Workgroup) (c : Crew) :
    (s.put k w c).thresh = s.thresh := rfl
@[simp] theorem State.put_lasting (s : State) (k : CrewKey) (w : Workgroup) (c : Crew) :
    (s.put k w c).lasting = s.lasting := rfl
@[simp] theorem State.put_retired (s : State) (k : CrewKey) (w : Workgroup) (c : Crew) :
    (s.put k w c).retired = s.retired := rfl
@[simp] theorem State.put_partitions (s : State) (k : CrewKey) (w : Workgroup) (c : Crew) :
    (s.put k w c).partitions = s.partitions := rfl
@[simp] theorem State.put_stopped (s : State) (k : CrewKey) (w : Workgroup) (c : Crew) :
    (s.put k w c).stopped = s.stopped := rfl
@[simp] theorem State.put_windows (s : State) (k : CrewKey) (w : Workgroup) (c : Crew) :
    (s.put k w c).windows = s.windows := rfl
@[simp] theorem State.put_downLinks (s : State) (k : CrewKey) (w : Workgroup) (c : Crew) :
    (s.put k w c).downLinks = s.downLinks := rfl
@[simp] theorem State.put_hot (s : State) (k : CrewKey) (w : Workgroup) (c : Crew) : (s.put k w c).hot = s.hot := rfl
@[simp] theorem State.put_boot (s : State) (k : CrewKey) (w : Workgroup) (c : Crew) :
    (s.put k w c).boot = s.boot := rfl
@[simp] theorem State.put_images (s : State) (k : CrewKey) (w : Workgroup) (c : Crew) :
    (s.put k w c).images = s.images := rfl
@[simp] theorem State.put_keyHash (s : State) (k : CrewKey) (w : Workgroup) (c : Crew) :
    (s.put k w c).keyHash = s.keyHash := rfl
@[simp] theorem State.put_rollback (s : State) (k : CrewKey) (w : Workgroup) (c : Crew) :
    (s.put k w c).rollback = s.rollback := rfl
@[simp] theorem State.put_bootRom (s : State) (k : CrewKey) (w : Workgroup) (c : Crew) :
    (s.put k w c).bootRom = s.bootRom := rfl
@[simp] theorem State.put_cycles (s : State) (k : CrewKey) (w : Workgroup) (c : Crew) :
    (s.put k w c).cycles = s.cycles := rfl
@[simp] theorem State.put_out (s : State) (k : CrewKey) (w : Workgroup) (c : Crew) : (s.put k w c).out = s.out := rfl
@[simp] theorem State.send_out (s : State) (m : Message) : (s.send m).out = s.out ++ [m] := rfl
@[simp] theorem State.send_agenda (s : State) (m : Message) : (s.send m).agenda = s.agenda := rfl
@[simp] theorem State.send_cur (s : State) (m : Message) : (s.send m).cur = s.cur := rfl
@[simp] theorem State.send_beyondV (s : State) (m : Message) : (s.send m).beyondV = s.beyondV := rfl
@[simp] theorem State.send_beyondT (s : State) (m : Message) : (s.send m).beyondT = s.beyondT := rfl
@[simp] theorem State.send_tick (s : State) (m : Message) : (s.send m).tick = s.tick := rfl
@[simp] theorem State.send_nextWid (s : State) (m : Message) : (s.send m).nextWid = s.nextWid := rfl
@[simp] theorem State.send_mem (s : State) (m : Message) : (s.send m).mem = s.mem := rfl
@[simp] theorem State.send_lines (s : State) (m : Message) : (s.send m).lines = s.lines := rfl
@[simp] theorem State.send_sealed (s : State) (m : Message) : (s.send m).sealed = s.sealed := rfl
@[simp] theorem State.send_freed (s : State) (m : Message) : (s.send m).freed = s.freed := rfl
@[simp] theorem State.send_tags (s : State) (m : Message) : (s.send m).tags = s.tags := rfl
@[simp] theorem State.send_cxlBytes (s : State) (m : Message) : (s.send m).cxlBytes = s.cxlBytes := rfl
@[simp] theorem State.send_wgs (s : State) (m : Message) : (s.send m).wgs = s.wgs := rfl
@[simp] theorem State.send_grids (s : State) (m : Message) : (s.send m).grids = s.grids := rfl
@[simp] theorem State.send_ctxs (s : State) (m : Message) : (s.send m).ctxs = s.ctxs := rfl
@[simp] theorem State.send_queues (s : State) (m : Message) : (s.send m).queues = s.queues := rfl
@[simp] theorem State.send_seq (s : State) (m : Message) : (s.send m).seq = s.seq := rfl
@[simp] theorem State.send_tlb (s : State) (m : Message) : (s.send m).tlb = s.tlb := rfl
@[simp] theorem State.send_tables (s : State) (m : Message) : (s.send m).tables = s.tables := rfl
@[simp] theorem State.send_owed (s : State) (m : Message) : (s.send m).owed = s.owed := rfl
@[simp] theorem State.send_shootdowns (s : State) (m : Message) : (s.send m).shootdowns = s.shootdowns := rfl
@[simp] theorem State.send_moves (s : State) (m : Message) : (s.send m).moves = s.moves := rfl
@[simp] theorem State.send_ladders (s : State) (m : Message) : (s.send m).ladders = s.ladders := rfl
@[simp] theorem State.send_pools (s : State) (m : Message) : (s.send m).pools = s.pools := rfl
@[simp] theorem State.send_resumeReg (s : State) (m : Message) : (s.send m).resumeReg = s.resumeReg := rfl
@[simp] theorem State.send_regions (s : State) (m : Message) : (s.send m).regions = s.regions := rfl
@[simp] theorem State.send_regionHold (s : State) (m : Message) : (s.send m).regionHold = s.regionHold := rfl
@[simp] theorem State.send_secureCores (s : State) (m : Message) : (s.send m).secureCores = s.secureCores := rfl
@[simp] theorem State.send_keys (s : State) (m : Message) : (s.send m).keys = s.keys := rfl
@[simp] theorem State.send_apertures (s : State) (m : Message) : (s.send m).apertures = s.apertures := rfl
@[simp] theorem State.send_fabric (s : State) (m : Message) : (s.send m).fabric = s.fabric := rfl
@[simp] theorem State.send_errors (s : State) (m : Message) : (s.send m).errors = s.errors := rfl
@[simp] theorem State.send_windowMs (s : State) (m : Message) : (s.send m).windowMs = s.windowMs := rfl
@[simp] theorem State.send_thresh (s : State) (m : Message) : (s.send m).thresh = s.thresh := rfl
@[simp] theorem State.send_lasting (s : State) (m : Message) : (s.send m).lasting = s.lasting := rfl
@[simp] theorem State.send_retired (s : State) (m : Message) : (s.send m).retired = s.retired := rfl
@[simp] theorem State.send_partitions (s : State) (m : Message) : (s.send m).partitions = s.partitions := rfl
@[simp] theorem State.send_stopped (s : State) (m : Message) : (s.send m).stopped = s.stopped := rfl
@[simp] theorem State.send_windows (s : State) (m : Message) : (s.send m).windows = s.windows := rfl
@[simp] theorem State.send_downLinks (s : State) (m : Message) : (s.send m).downLinks = s.downLinks := rfl
@[simp] theorem State.send_hot (s : State) (m : Message) : (s.send m).hot = s.hot := rfl
@[simp] theorem State.send_boot (s : State) (m : Message) : (s.send m).boot = s.boot := rfl
@[simp] theorem State.send_images (s : State) (m : Message) : (s.send m).images = s.images := rfl
@[simp] theorem State.send_keyHash (s : State) (m : Message) : (s.send m).keyHash = s.keyHash := rfl
@[simp] theorem State.send_rollback (s : State) (m : Message) : (s.send m).rollback = s.rollback := rfl
@[simp] theorem State.send_bootRom (s : State) (m : Message) : (s.send m).bootRom = s.bootRom := rfl
@[simp] theorem State.send_cycles (s : State) (m : Message) : (s.send m).cycles = s.cycles := rfl

/-! Workgroups. -/

@[simp] theorem Workgroup.putCrew_crews (w : Workgroup) (n : Nat) (c : Crew) :
    (w.putCrew n c).crews = w.crews.insert n c := rfl
@[simp] theorem Workgroup.putCrew_ctx (w : Workgroup) (n : Nat) (c : Crew) : (w.putCrew n c).ctx = w.ctx := rfl
@[simp] theorem Workgroup.putCrew_seq (w : Workgroup) (n : Nat) (c : Crew) : (w.putCrew n c).seq = w.seq := rfl
@[simp] theorem Workgroup.putCrew_index (w : Workgroup) (n : Nat) (c : Crew) : (w.putCrew n c).index = w.index := rfl
@[simp] theorem Workgroup.putCrew_die (w : Workgroup) (n : Nat) (c : Crew) : (w.putCrew n c).die = w.die := rfl
@[simp] theorem Workgroup.putCrew_core (w : Workgroup) (n : Nat) (c : Crew) : (w.putCrew n c).core = w.core := rfl
@[simp] theorem Workgroup.putCrew_share (w : Workgroup) (n : Nat) (c : Crew) : (w.putCrew n c).share = w.share := rfl
@[simp] theorem Workgroup.putCrew_admitted (w : Workgroup) (n : Nat) (c : Crew) :
    (w.putCrew n c).admitted = w.admitted := rfl
@[simp] theorem Workgroup.putCrew_parked (w : Workgroup) (n : Nat) (c : Crew) :
    (w.putCrew n c).parked = w.parked := rfl
@[simp] theorem Workgroup.putCrew_children (w : Workgroup) (n : Nat) (c : Crew) :
    (w.putCrew n c).children = w.children := rfl
@[simp] theorem Workgroup.putCrew_launched (w : Workgroup) (n : Nat) (c : Crew) :
    (w.putCrew n c).launched = w.launched := rfl
@[simp] theorem Workgroup.putCrew_idem (w : Workgroup) (n : Nat) (c : Crew) : (w.putCrew n c).idem = w.idem := rfl
@[simp] theorem Workgroup.putCrew_tiles (w : Workgroup) (n : Nat) (c : Crew) : (w.putCrew n c).tiles = w.tiles := rfl
@[simp] theorem Workgroup.putCrew_accs (w : Workgroup) (n : Nat) (c : Crew) : (w.putCrew n c).accs = w.accs := rfl
@[simp] theorem Workgroup.putCrew_bars (w : Workgroup) (n : Nat) (c : Crew) : (w.putCrew n c).bars = w.bars := rfl
@[simp] theorem Workgroup.putCrew_scratch (w : Workgroup) (n : Nat) (c : Crew) :
    (w.putCrew n c).scratch = w.scratch := rfl
@[simp] theorem Workgroup.putCrew_tags (w : Workgroup) (n : Nat) (c : Crew) : (w.putCrew n c).tags = w.tags := rfl
@[simp] theorem Workgroup.putCrew_books (w : Workgroup) (n : Nat) (c : Crew) : (w.putCrew n c).books = w.books := rfl
@[simp] theorem Workgroup.putCrew_jcur (w : Workgroup) (n : Nat) (c : Crew) : (w.putCrew n c).jcur = w.jcur := rfl
@[simp] theorem Workgroup.putCrew_handles (w : Workgroup) (n : Nat) (c : Crew) :
    (w.putCrew n c).handles = w.handles := rfl
@[simp] theorem Workgroup.putBar_bars (w : Workgroup) (n : Nat) (b : Barrier) :
    (w.putBar n b).bars = w.bars.put n b := rfl
@[simp] theorem Workgroup.putBar_ctx (w : Workgroup) (n : Nat) (b : Barrier) : (w.putBar n b).ctx = w.ctx := rfl
@[simp] theorem Workgroup.putBar_seq (w : Workgroup) (n : Nat) (b : Barrier) : (w.putBar n b).seq = w.seq := rfl
@[simp] theorem Workgroup.putBar_index (w : Workgroup) (n : Nat) (b : Barrier) : (w.putBar n b).index = w.index := rfl
@[simp] theorem Workgroup.putBar_die (w : Workgroup) (n : Nat) (b : Barrier) : (w.putBar n b).die = w.die := rfl
@[simp] theorem Workgroup.putBar_core (w : Workgroup) (n : Nat) (b : Barrier) : (w.putBar n b).core = w.core := rfl
@[simp] theorem Workgroup.putBar_share (w : Workgroup) (n : Nat) (b : Barrier) : (w.putBar n b).share = w.share := rfl
@[simp] theorem Workgroup.putBar_admitted (w : Workgroup) (n : Nat) (b : Barrier) :
    (w.putBar n b).admitted = w.admitted := rfl
@[simp] theorem Workgroup.putBar_parked (w : Workgroup) (n : Nat) (b : Barrier) :
    (w.putBar n b).parked = w.parked := rfl
@[simp] theorem Workgroup.putBar_children (w : Workgroup) (n : Nat) (b : Barrier) :
    (w.putBar n b).children = w.children := rfl
@[simp] theorem Workgroup.putBar_launched (w : Workgroup) (n : Nat) (b : Barrier) :
    (w.putBar n b).launched = w.launched := rfl
@[simp] theorem Workgroup.putBar_idem (w : Workgroup) (n : Nat) (b : Barrier) : (w.putBar n b).idem = w.idem := rfl
@[simp] theorem Workgroup.putBar_tiles (w : Workgroup) (n : Nat) (b : Barrier) : (w.putBar n b).tiles = w.tiles := rfl
@[simp] theorem Workgroup.putBar_accs (w : Workgroup) (n : Nat) (b : Barrier) : (w.putBar n b).accs = w.accs := rfl
@[simp] theorem Workgroup.putBar_scratch (w : Workgroup) (n : Nat) (b : Barrier) :
    (w.putBar n b).scratch = w.scratch := rfl
@[simp] theorem Workgroup.putBar_tags (w : Workgroup) (n : Nat) (b : Barrier) : (w.putBar n b).tags = w.tags := rfl
@[simp] theorem Workgroup.putBar_books (w : Workgroup) (n : Nat) (b : Barrier) : (w.putBar n b).books = w.books := rfl
@[simp] theorem Workgroup.putBar_jcur (w : Workgroup) (n : Nat) (b : Barrier) : (w.putBar n b).jcur = w.jcur := rfl
@[simp] theorem Workgroup.putBar_handles (w : Workgroup) (n : Nat) (b : Barrier) :
    (w.putBar n b).handles = w.handles := rfl
@[simp] theorem Workgroup.putBar_crews (w : Workgroup) (n : Nat) (b : Barrier) :
    (w.putBar n b).crews = SMap.mapVals w.crews (Crew.observe n b) := rfl
@[simp] theorem Workgroup.spoil_idem (w : Workgroup) : w.spoil.idem = false := rfl
@[simp] theorem Workgroup.spoil_ctx (w : Workgroup) : (w.spoil).ctx = w.ctx := rfl
@[simp] theorem Workgroup.spoil_seq (w : Workgroup) : (w.spoil).seq = w.seq := rfl
@[simp] theorem Workgroup.spoil_index (w : Workgroup) : (w.spoil).index = w.index := rfl
@[simp] theorem Workgroup.spoil_die (w : Workgroup) : (w.spoil).die = w.die := rfl
@[simp] theorem Workgroup.spoil_core (w : Workgroup) : (w.spoil).core = w.core := rfl
@[simp] theorem Workgroup.spoil_share (w : Workgroup) : (w.spoil).share = w.share := rfl
@[simp] theorem Workgroup.spoil_admitted (w : Workgroup) : (w.spoil).admitted = w.admitted := rfl
@[simp] theorem Workgroup.spoil_parked (w : Workgroup) : (w.spoil).parked = w.parked := rfl
@[simp] theorem Workgroup.spoil_children (w : Workgroup) : (w.spoil).children = w.children := rfl
@[simp] theorem Workgroup.spoil_launched (w : Workgroup) : (w.spoil).launched = w.launched := rfl
@[simp] theorem Workgroup.spoil_crews (w : Workgroup) : (w.spoil).crews = w.crews := rfl
@[simp] theorem Workgroup.spoil_tiles (w : Workgroup) : (w.spoil).tiles = w.tiles := rfl
@[simp] theorem Workgroup.spoil_accs (w : Workgroup) : (w.spoil).accs = w.accs := rfl
@[simp] theorem Workgroup.spoil_bars (w : Workgroup) : (w.spoil).bars = w.bars := rfl
@[simp] theorem Workgroup.spoil_scratch (w : Workgroup) : (w.spoil).scratch = w.scratch := rfl
@[simp] theorem Workgroup.spoil_tags (w : Workgroup) : (w.spoil).tags = w.tags := rfl
@[simp] theorem Workgroup.spoil_books (w : Workgroup) : (w.spoil).books = w.books := rfl
@[simp] theorem Workgroup.spoil_jcur (w : Workgroup) : (w.spoil).jcur = w.jcur := rfl
@[simp] theorem Workgroup.spoil_handles (w : Workgroup) : (w.spoil).handles = w.handles := rfl

/-! Crews. -/

@[simp] theorem Crew.advance_pc (c : Crew) (n : Nat) : (c.advance n).pc = c.pc + BitVec.ofNat 52 n := rfl
@[simp] theorem Crew.advance_role (c : Crew) (n : Nat) : (c.advance n).role = c.role := rfl
@[simp] theorem Crew.advance_number (c : Crew) (n : Nat) : (c.advance n).number = c.number := rfl
@[simp] theorem Crew.advance_status (c : Crew) (n : Nat) : (c.advance n).status = c.status := rfl
@[simp] theorem Crew.advance_live (c : Crew) (n : Nat) : (c.advance n).live = c.live := rfl
@[simp] theorem Crew.advance_sreg (c : Crew) (n : Nat) : (c.advance n).sreg = c.sreg := rfl
@[simp] theorem Crew.advance_sTag (c : Crew) (n : Nat) : (c.advance n).sTag = c.sTag := rfl
@[simp] theorem Crew.advance_vreg (c : Crew) (n : Nat) : (c.advance n).vreg = c.vreg := rfl
@[simp] theorem Crew.advance_vTag (c : Crew) (n : Nat) : (c.advance n).vTag = c.vTag := rfl
@[simp] theorem Crew.advance_preds (c : Crew) (n : Nat) : (c.advance n).preds = c.preds := rfl
@[simp] theorem Crew.advance_xreg (c : Crew) (n : Nat) : (c.advance n).xreg = c.xreg := rfl
@[simp] theorem Crew.advance_cursors (c : Crew) (n : Nat) : (c.advance n).cursors = c.cursors := rfl
@[simp] theorem Crew.advance_queue (c : Crew) (n : Nat) : (c.advance n).queue = c.queue := rfl
@[simp] theorem Crew.advance_prog (c : Crew) (n : Nat) : (c.advance n).prog = c.prog := rfl
@[simp] theorem Crew.advance_flying (c : Crew) (n : Nat) : (c.advance n).flying = c.flying := rfl
@[simp] theorem Crew.advance_bias (c : Crew) (n : Nat) : (c.advance n).bias = c.bias := rfl
@[simp] theorem Crew.advance_nextId (c : Crew) (n : Nat) : (c.advance n).nextId = c.nextId := rfl
@[simp] theorem Crew.advance_orderS (c : Crew) (n : Nat) : (c.advance n).orderS = c.orderS := rfl
@[simp] theorem Crew.advance_orderL (c : Crew) (n : Nat) : (c.advance n).orderL = c.orderL := rfl
@[simp] theorem Crew.advance_orderW (c : Crew) (n : Nat) : (c.advance n).orderW = c.orderW := rfl
@[simp] theorem Crew.advance_orderX (c : Crew) (n : Nat) : (c.advance n).orderX = c.orderX := rfl
@[simp] theorem Crew.advance_nextBatch (c : Crew) (n : Nat) : (c.advance n).nextBatch = c.nextBatch := rfl
@[simp] theorem Crew.advance_batches (c : Crew) (n : Nat) : (c.advance n).batches = c.batches := rfl
@[simp] theorem Crew.advance_mma (c : Crew) (n : Nat) : (c.advance n).mma = c.mma := rfl
@[simp] theorem Crew.advance_pending (c : Crew) (n : Nat) : (c.advance n).pending = c.pending := rfl
@[simp] theorem Crew.advance_waitBar (c : Crew) (n : Nat) : (c.advance n).waitBar = c.waitBar := rfl
@[simp] theorem Crew.advance_waitGrow (c : Crew) (n : Nat) : (c.advance n).waitGrow = c.waitGrow := rfl
@[simp] theorem Crew.advance_freeing (c : Crew) (n : Nat) : (c.advance n).freeing = c.freeing := rfl
@[simp] theorem Crew.advance_waitKids (c : Crew) (n : Nat) : (c.advance n).waitKids = c.waitKids := rfl
@[simp] theorem Crew.advance_fetchHeld (c : Crew) (n : Nat) : (c.advance n).fetchHeld = c.fetchHeld := rfl
@[simp] theorem Crew.advance_walking (c : Crew) (n : Nat) : (c.advance n).walking = c.walking := rfl
@[simp] theorem Crew.advance_joint (c : Crew) (n : Nat) : (c.advance n).joint = c.joint := rfl
@[simp] theorem Crew.advance_place (c : Crew) (n : Nat) : (c.advance n).place = c.place := rfl
@[simp] theorem Crew.setS_role (c : Crew) (r : Reg) (x : Word) : (c.setS r x).role = c.role := by
  unfold Crew.setS; split <;> rfl
@[simp] theorem Crew.setS_number (c : Crew) (r : Reg) (x : Word) : (c.setS r x).number = c.number := by
  unfold Crew.setS; split <;> rfl
@[simp] theorem Crew.setS_status (c : Crew) (r : Reg) (x : Word) : (c.setS r x).status = c.status := by
  unfold Crew.setS; split <;> rfl
@[simp] theorem Crew.setS_live (c : Crew) (r : Reg) (x : Word) : (c.setS r x).live = c.live := by
  unfold Crew.setS; split <;> rfl
@[simp] theorem Crew.setS_pc (c : Crew) (r : Reg) (x : Word) : (c.setS r x).pc = c.pc := by
  unfold Crew.setS; split <;> rfl
@[simp] theorem Crew.setS_vreg (c : Crew) (r : Reg) (x : Word) : (c.setS r x).vreg = c.vreg := by
  unfold Crew.setS; split <;> rfl
@[simp] theorem Crew.setS_vTag (c : Crew) (r : Reg) (x : Word) : (c.setS r x).vTag = c.vTag := by
  unfold Crew.setS; split <;> rfl
@[simp] theorem Crew.setS_preds (c : Crew) (r : Reg) (x : Word) : (c.setS r x).preds = c.preds := by
  unfold Crew.setS; split <;> rfl
@[simp] theorem Crew.setS_xreg (c : Crew) (r : Reg) (x : Word) : (c.setS r x).xreg = c.xreg := by
  unfold Crew.setS; split <;> rfl
@[simp] theorem Crew.setS_cursors (c : Crew) (r : Reg) (x : Word) : (c.setS r x).cursors = c.cursors := by
  unfold Crew.setS; split <;> rfl
@[simp] theorem Crew.setS_queue (c : Crew) (r : Reg) (x : Word) : (c.setS r x).queue = c.queue := by
  unfold Crew.setS; split <;> rfl
@[simp] theorem Crew.setS_prog (c : Crew) (r : Reg) (x : Word) : (c.setS r x).prog = c.prog := by
  unfold Crew.setS; split <;> rfl
@[simp] theorem Crew.setS_flying (c : Crew) (r : Reg) (x : Word) : (c.setS r x).flying = c.flying := by
  unfold Crew.setS; split <;> rfl
@[simp] theorem Crew.setS_bias (c : Crew) (r : Reg) (x : Word) : (c.setS r x).bias = c.bias := by
  unfold Crew.setS; split <;> rfl
@[simp] theorem Crew.setS_nextId (c : Crew) (r : Reg) (x : Word) : (c.setS r x).nextId = c.nextId := by
  unfold Crew.setS; split <;> rfl
@[simp] theorem Crew.setS_orderS (c : Crew) (r : Reg) (x : Word) : (c.setS r x).orderS = c.orderS := by
  unfold Crew.setS; split <;> rfl
@[simp] theorem Crew.setS_orderL (c : Crew) (r : Reg) (x : Word) : (c.setS r x).orderL = c.orderL := by
  unfold Crew.setS; split <;> rfl
@[simp] theorem Crew.setS_orderW (c : Crew) (r : Reg) (x : Word) : (c.setS r x).orderW = c.orderW := by
  unfold Crew.setS; split <;> rfl
@[simp] theorem Crew.setS_orderX (c : Crew) (r : Reg) (x : Word) : (c.setS r x).orderX = c.orderX := by
  unfold Crew.setS; split <;> rfl
@[simp] theorem Crew.setS_nextBatch (c : Crew) (r : Reg) (x : Word) : (c.setS r x).nextBatch = c.nextBatch := by
  unfold Crew.setS; split <;> rfl
@[simp] theorem Crew.setS_batches (c : Crew) (r : Reg) (x : Word) : (c.setS r x).batches = c.batches := by
  unfold Crew.setS; split <;> rfl
@[simp] theorem Crew.setS_mma (c : Crew) (r : Reg) (x : Word) : (c.setS r x).mma = c.mma := by
  unfold Crew.setS; split <;> rfl
@[simp] theorem Crew.setS_pending (c : Crew) (r : Reg) (x : Word) : (c.setS r x).pending = c.pending := by
  unfold Crew.setS; split <;> rfl
@[simp] theorem Crew.setS_waitBar (c : Crew) (r : Reg) (x : Word) : (c.setS r x).waitBar = c.waitBar := by
  unfold Crew.setS; split <;> rfl
@[simp] theorem Crew.setS_waitGrow (c : Crew) (r : Reg) (x : Word) : (c.setS r x).waitGrow = c.waitGrow := by
  unfold Crew.setS; split <;> rfl
@[simp] theorem Crew.setS_freeing (c : Crew) (r : Reg) (x : Word) : (c.setS r x).freeing = c.freeing := by
  unfold Crew.setS; split <;> rfl
@[simp] theorem Crew.setS_waitKids (c : Crew) (r : Reg) (x : Word) : (c.setS r x).waitKids = c.waitKids := by
  unfold Crew.setS; split <;> rfl
@[simp] theorem Crew.setS_fetchHeld (c : Crew) (r : Reg) (x : Word) : (c.setS r x).fetchHeld = c.fetchHeld := by
  unfold Crew.setS; split <;> rfl
@[simp] theorem Crew.setS_walking (c : Crew) (r : Reg) (x : Word) : (c.setS r x).walking = c.walking := by
  unfold Crew.setS; split <;> rfl
@[simp] theorem Crew.setS_joint (c : Crew) (r : Reg) (x : Word) : (c.setS r x).joint = c.joint := by
  unfold Crew.setS; split <;> rfl
@[simp] theorem Crew.setS_place (c : Crew) (r : Reg) (x : Word) : (c.setS r x).place = c.place := by
  unfold Crew.setS; split <;> rfl
@[simp] theorem Crew.awaitS_role (c : Crew) (r : Reg) (t : Nat) : (c.awaitS r t).role = c.role := by
  unfold Crew.awaitS; split <;> rfl
@[simp] theorem Crew.awaitS_number (c : Crew) (r : Reg) (t : Nat) : (c.awaitS r t).number = c.number := by
  unfold Crew.awaitS; split <;> rfl
@[simp] theorem Crew.awaitS_status (c : Crew) (r : Reg) (t : Nat) : (c.awaitS r t).status = c.status := by
  unfold Crew.awaitS; split <;> rfl
@[simp] theorem Crew.awaitS_live (c : Crew) (r : Reg) (t : Nat) : (c.awaitS r t).live = c.live := by
  unfold Crew.awaitS; split <;> rfl
@[simp] theorem Crew.awaitS_pc (c : Crew) (r : Reg) (t : Nat) : (c.awaitS r t).pc = c.pc := by
  unfold Crew.awaitS; split <;> rfl
@[simp] theorem Crew.awaitS_sreg (c : Crew) (r : Reg) (t : Nat) : (c.awaitS r t).sreg = c.sreg := by
  unfold Crew.awaitS; split <;> rfl
@[simp] theorem Crew.awaitS_vreg (c : Crew) (r : Reg) (t : Nat) : (c.awaitS r t).vreg = c.vreg := by
  unfold Crew.awaitS; split <;> rfl
@[simp] theorem Crew.awaitS_vTag (c : Crew) (r : Reg) (t : Nat) : (c.awaitS r t).vTag = c.vTag := by
  unfold Crew.awaitS; split <;> rfl
@[simp] theorem Crew.awaitS_preds (c : Crew) (r : Reg) (t : Nat) : (c.awaitS r t).preds = c.preds := by
  unfold Crew.awaitS; split <;> rfl
@[simp] theorem Crew.awaitS_xreg (c : Crew) (r : Reg) (t : Nat) : (c.awaitS r t).xreg = c.xreg := by
  unfold Crew.awaitS; split <;> rfl
@[simp] theorem Crew.awaitS_cursors (c : Crew) (r : Reg) (t : Nat) : (c.awaitS r t).cursors = c.cursors := by
  unfold Crew.awaitS; split <;> rfl
@[simp] theorem Crew.awaitS_queue (c : Crew) (r : Reg) (t : Nat) : (c.awaitS r t).queue = c.queue := by
  unfold Crew.awaitS; split <;> rfl
@[simp] theorem Crew.awaitS_prog (c : Crew) (r : Reg) (t : Nat) : (c.awaitS r t).prog = c.prog := by
  unfold Crew.awaitS; split <;> rfl
@[simp] theorem Crew.awaitS_flying (c : Crew) (r : Reg) (t : Nat) : (c.awaitS r t).flying = c.flying := by
  unfold Crew.awaitS; split <;> rfl
@[simp] theorem Crew.awaitS_bias (c : Crew) (r : Reg) (t : Nat) : (c.awaitS r t).bias = c.bias := by
  unfold Crew.awaitS; split <;> rfl
@[simp] theorem Crew.awaitS_nextId (c : Crew) (r : Reg) (t : Nat) : (c.awaitS r t).nextId = c.nextId := by
  unfold Crew.awaitS; split <;> rfl
@[simp] theorem Crew.awaitS_orderS (c : Crew) (r : Reg) (t : Nat) : (c.awaitS r t).orderS = c.orderS := by
  unfold Crew.awaitS; split <;> rfl
@[simp] theorem Crew.awaitS_orderL (c : Crew) (r : Reg) (t : Nat) : (c.awaitS r t).orderL = c.orderL := by
  unfold Crew.awaitS; split <;> rfl
@[simp] theorem Crew.awaitS_orderW (c : Crew) (r : Reg) (t : Nat) : (c.awaitS r t).orderW = c.orderW := by
  unfold Crew.awaitS; split <;> rfl
@[simp] theorem Crew.awaitS_orderX (c : Crew) (r : Reg) (t : Nat) : (c.awaitS r t).orderX = c.orderX := by
  unfold Crew.awaitS; split <;> rfl
@[simp] theorem Crew.awaitS_nextBatch (c : Crew) (r : Reg) (t : Nat) : (c.awaitS r t).nextBatch = c.nextBatch := by
  unfold Crew.awaitS; split <;> rfl
@[simp] theorem Crew.awaitS_batches (c : Crew) (r : Reg) (t : Nat) : (c.awaitS r t).batches = c.batches := by
  unfold Crew.awaitS; split <;> rfl
@[simp] theorem Crew.awaitS_mma (c : Crew) (r : Reg) (t : Nat) : (c.awaitS r t).mma = c.mma := by
  unfold Crew.awaitS; split <;> rfl
@[simp] theorem Crew.awaitS_pending (c : Crew) (r : Reg) (t : Nat) : (c.awaitS r t).pending = c.pending := by
  unfold Crew.awaitS; split <;> rfl
@[simp] theorem Crew.awaitS_waitBar (c : Crew) (r : Reg) (t : Nat) : (c.awaitS r t).waitBar = c.waitBar := by
  unfold Crew.awaitS; split <;> rfl
@[simp] theorem Crew.awaitS_waitGrow (c : Crew) (r : Reg) (t : Nat) : (c.awaitS r t).waitGrow = c.waitGrow := by
  unfold Crew.awaitS; split <;> rfl
@[simp] theorem Crew.awaitS_freeing (c : Crew) (r : Reg) (t : Nat) : (c.awaitS r t).freeing = c.freeing := by
  unfold Crew.awaitS; split <;> rfl
@[simp] theorem Crew.awaitS_waitKids (c : Crew) (r : Reg) (t : Nat) : (c.awaitS r t).waitKids = c.waitKids := by
  unfold Crew.awaitS; split <;> rfl
@[simp] theorem Crew.awaitS_fetchHeld (c : Crew) (r : Reg) (t : Nat) : (c.awaitS r t).fetchHeld = c.fetchHeld := by
  unfold Crew.awaitS; split <;> rfl
@[simp] theorem Crew.awaitS_walking (c : Crew) (r : Reg) (t : Nat) : (c.awaitS r t).walking = c.walking := by
  unfold Crew.awaitS; split <;> rfl
@[simp] theorem Crew.awaitS_joint (c : Crew) (r : Reg) (t : Nat) : (c.awaitS r t).joint = c.joint := by
  unfold Crew.awaitS; split <;> rfl
@[simp] theorem Crew.awaitS_place (c : Crew) (r : Reg) (t : Nat) : (c.awaitS r t).place = c.place := by
  unfold Crew.awaitS; split <;> rfl
@[simp] theorem Crew.setV_role (c : Crew) (r l : Nat) (x : Word) : (c.setV r l x).role = c.role := rfl
@[simp] theorem Crew.setV_number (c : Crew) (r l : Nat) (x : Word) : (c.setV r l x).number = c.number := rfl
@[simp] theorem Crew.setV_status (c : Crew) (r l : Nat) (x : Word) : (c.setV r l x).status = c.status := rfl
@[simp] theorem Crew.setV_live (c : Crew) (r l : Nat) (x : Word) : (c.setV r l x).live = c.live := rfl
@[simp] theorem Crew.setV_pc (c : Crew) (r l : Nat) (x : Word) : (c.setV r l x).pc = c.pc := rfl
@[simp] theorem Crew.setV_sreg (c : Crew) (r l : Nat) (x : Word) : (c.setV r l x).sreg = c.sreg := rfl
@[simp] theorem Crew.setV_sTag (c : Crew) (r l : Nat) (x : Word) : (c.setV r l x).sTag = c.sTag := rfl
@[simp] theorem Crew.setV_preds (c : Crew) (r l : Nat) (x : Word) : (c.setV r l x).preds = c.preds := rfl
@[simp] theorem Crew.setV_xreg (c : Crew) (r l : Nat) (x : Word) : (c.setV r l x).xreg = c.xreg := rfl
@[simp] theorem Crew.setV_cursors (c : Crew) (r l : Nat) (x : Word) : (c.setV r l x).cursors = c.cursors := rfl
@[simp] theorem Crew.setV_queue (c : Crew) (r l : Nat) (x : Word) : (c.setV r l x).queue = c.queue := rfl
@[simp] theorem Crew.setV_prog (c : Crew) (r l : Nat) (x : Word) : (c.setV r l x).prog = c.prog := rfl
@[simp] theorem Crew.setV_flying (c : Crew) (r l : Nat) (x : Word) : (c.setV r l x).flying = c.flying := rfl
@[simp] theorem Crew.setV_bias (c : Crew) (r l : Nat) (x : Word) : (c.setV r l x).bias = c.bias := rfl
@[simp] theorem Crew.setV_nextId (c : Crew) (r l : Nat) (x : Word) : (c.setV r l x).nextId = c.nextId := rfl
@[simp] theorem Crew.setV_orderS (c : Crew) (r l : Nat) (x : Word) : (c.setV r l x).orderS = c.orderS := rfl
@[simp] theorem Crew.setV_orderL (c : Crew) (r l : Nat) (x : Word) : (c.setV r l x).orderL = c.orderL := rfl
@[simp] theorem Crew.setV_orderW (c : Crew) (r l : Nat) (x : Word) : (c.setV r l x).orderW = c.orderW := rfl
@[simp] theorem Crew.setV_orderX (c : Crew) (r l : Nat) (x : Word) : (c.setV r l x).orderX = c.orderX := rfl
@[simp] theorem Crew.setV_nextBatch (c : Crew) (r l : Nat) (x : Word) : (c.setV r l x).nextBatch = c.nextBatch := rfl
@[simp] theorem Crew.setV_batches (c : Crew) (r l : Nat) (x : Word) : (c.setV r l x).batches = c.batches := rfl
@[simp] theorem Crew.setV_mma (c : Crew) (r l : Nat) (x : Word) : (c.setV r l x).mma = c.mma := rfl
@[simp] theorem Crew.setV_pending (c : Crew) (r l : Nat) (x : Word) : (c.setV r l x).pending = c.pending := rfl
@[simp] theorem Crew.setV_waitBar (c : Crew) (r l : Nat) (x : Word) : (c.setV r l x).waitBar = c.waitBar := rfl
@[simp] theorem Crew.setV_waitGrow (c : Crew) (r l : Nat) (x : Word) : (c.setV r l x).waitGrow = c.waitGrow := rfl
@[simp] theorem Crew.setV_freeing (c : Crew) (r l : Nat) (x : Word) : (c.setV r l x).freeing = c.freeing := rfl
@[simp] theorem Crew.setV_waitKids (c : Crew) (r l : Nat) (x : Word) : (c.setV r l x).waitKids = c.waitKids := rfl
@[simp] theorem Crew.setV_fetchHeld (c : Crew) (r l : Nat) (x : Word) : (c.setV r l x).fetchHeld = c.fetchHeld := rfl
@[simp] theorem Crew.setV_walking (c : Crew) (r l : Nat) (x : Word) : (c.setV r l x).walking = c.walking := rfl
@[simp] theorem Crew.setV_joint (c : Crew) (r l : Nat) (x : Word) : (c.setV r l x).joint = c.joint := rfl
@[simp] theorem Crew.setV_place (c : Crew) (r l : Nat) (x : Word) : (c.setV r l x).place = c.place := rfl
@[simp] theorem Crew.awaitV_role (c : Crew) (r l t : Nat) : (c.awaitV r l t).role = c.role := rfl
@[simp] theorem Crew.awaitV_number (c : Crew) (r l t : Nat) : (c.awaitV r l t).number = c.number := rfl
@[simp] theorem Crew.awaitV_status (c : Crew) (r l t : Nat) : (c.awaitV r l t).status = c.status := rfl
@[simp] theorem Crew.awaitV_live (c : Crew) (r l t : Nat) : (c.awaitV r l t).live = c.live := rfl
@[simp] theorem Crew.awaitV_pc (c : Crew) (r l t : Nat) : (c.awaitV r l t).pc = c.pc := rfl
@[simp] theorem Crew.awaitV_sreg (c : Crew) (r l t : Nat) : (c.awaitV r l t).sreg = c.sreg := rfl
@[simp] theorem Crew.awaitV_sTag (c : Crew) (r l t : Nat) : (c.awaitV r l t).sTag = c.sTag := rfl
@[simp] theorem Crew.awaitV_vreg (c : Crew) (r l t : Nat) : (c.awaitV r l t).vreg = c.vreg := rfl
@[simp] theorem Crew.awaitV_preds (c : Crew) (r l t : Nat) : (c.awaitV r l t).preds = c.preds := rfl
@[simp] theorem Crew.awaitV_xreg (c : Crew) (r l t : Nat) : (c.awaitV r l t).xreg = c.xreg := rfl
@[simp] theorem Crew.awaitV_cursors (c : Crew) (r l t : Nat) : (c.awaitV r l t).cursors = c.cursors := rfl
@[simp] theorem Crew.awaitV_queue (c : Crew) (r l t : Nat) : (c.awaitV r l t).queue = c.queue := rfl
@[simp] theorem Crew.awaitV_prog (c : Crew) (r l t : Nat) : (c.awaitV r l t).prog = c.prog := rfl
@[simp] theorem Crew.awaitV_flying (c : Crew) (r l t : Nat) : (c.awaitV r l t).flying = c.flying := rfl
@[simp] theorem Crew.awaitV_bias (c : Crew) (r l t : Nat) : (c.awaitV r l t).bias = c.bias := rfl
@[simp] theorem Crew.awaitV_nextId (c : Crew) (r l t : Nat) : (c.awaitV r l t).nextId = c.nextId := rfl
@[simp] theorem Crew.awaitV_orderS (c : Crew) (r l t : Nat) : (c.awaitV r l t).orderS = c.orderS := rfl
@[simp] theorem Crew.awaitV_orderL (c : Crew) (r l t : Nat) : (c.awaitV r l t).orderL = c.orderL := rfl
@[simp] theorem Crew.awaitV_orderW (c : Crew) (r l t : Nat) : (c.awaitV r l t).orderW = c.orderW := rfl
@[simp] theorem Crew.awaitV_orderX (c : Crew) (r l t : Nat) : (c.awaitV r l t).orderX = c.orderX := rfl
@[simp] theorem Crew.awaitV_nextBatch (c : Crew) (r l t : Nat) : (c.awaitV r l t).nextBatch = c.nextBatch := rfl
@[simp] theorem Crew.awaitV_batches (c : Crew) (r l t : Nat) : (c.awaitV r l t).batches = c.batches := rfl
@[simp] theorem Crew.awaitV_mma (c : Crew) (r l t : Nat) : (c.awaitV r l t).mma = c.mma := rfl
@[simp] theorem Crew.awaitV_pending (c : Crew) (r l t : Nat) : (c.awaitV r l t).pending = c.pending := rfl
@[simp] theorem Crew.awaitV_waitBar (c : Crew) (r l t : Nat) : (c.awaitV r l t).waitBar = c.waitBar := rfl
@[simp] theorem Crew.awaitV_waitGrow (c : Crew) (r l t : Nat) : (c.awaitV r l t).waitGrow = c.waitGrow := rfl
@[simp] theorem Crew.awaitV_freeing (c : Crew) (r l t : Nat) : (c.awaitV r l t).freeing = c.freeing := rfl
@[simp] theorem Crew.awaitV_waitKids (c : Crew) (r l t : Nat) : (c.awaitV r l t).waitKids = c.waitKids := rfl
@[simp] theorem Crew.awaitV_fetchHeld (c : Crew) (r l t : Nat) : (c.awaitV r l t).fetchHeld = c.fetchHeld := rfl
@[simp] theorem Crew.awaitV_walking (c : Crew) (r l t : Nat) : (c.awaitV r l t).walking = c.walking := rfl
@[simp] theorem Crew.awaitV_joint (c : Crew) (r l t : Nat) : (c.awaitV r l t).joint = c.joint := rfl
@[simp] theorem Crew.awaitV_place (c : Crew) (r l t : Nat) : (c.awaitV r l t).place = c.place := rfl
@[simp] theorem Crew.setPred_role (c : Crew) (p : Nat) (lanes x : Mask) : (c.setPred p lanes x).role = c.role := by
  unfold Crew.setPred; split <;> rfl
@[simp] theorem Crew.setPred_number (c : Crew) (p : Nat) (lanes x : Mask) :
    (c.setPred p lanes x).number = c.number := by
  unfold Crew.setPred; split <;> rfl
@[simp] theorem Crew.setPred_status (c : Crew) (p : Nat) (lanes x : Mask) :
    (c.setPred p lanes x).status = c.status := by
  unfold Crew.setPred; split <;> rfl
@[simp] theorem Crew.setPred_live (c : Crew) (p : Nat) (lanes x : Mask) : (c.setPred p lanes x).live = c.live := by
  unfold Crew.setPred; split <;> rfl
@[simp] theorem Crew.setPred_pc (c : Crew) (p : Nat) (lanes x : Mask) : (c.setPred p lanes x).pc = c.pc := by
  unfold Crew.setPred; split <;> rfl
@[simp] theorem Crew.setPred_sreg (c : Crew) (p : Nat) (lanes x : Mask) : (c.setPred p lanes x).sreg = c.sreg := by
  unfold Crew.setPred; split <;> rfl
@[simp] theorem Crew.setPred_sTag (c : Crew) (p : Nat) (lanes x : Mask) : (c.setPred p lanes x).sTag = c.sTag := by
  unfold Crew.setPred; split <;> rfl
@[simp] theorem Crew.setPred_vreg (c : Crew) (p : Nat) (lanes x : Mask) : (c.setPred p lanes x).vreg = c.vreg := by
  unfold Crew.setPred; split <;> rfl
@[simp] theorem Crew.setPred_vTag (c : Crew) (p : Nat) (lanes x : Mask) : (c.setPred p lanes x).vTag = c.vTag := by
  unfold Crew.setPred; split <;> rfl
@[simp] theorem Crew.setPred_xreg (c : Crew) (p : Nat) (lanes x : Mask) : (c.setPred p lanes x).xreg = c.xreg := by
  unfold Crew.setPred; split <;> rfl
@[simp] theorem Crew.setPred_cursors (c : Crew) (p : Nat) (lanes x : Mask) :
    (c.setPred p lanes x).cursors = c.cursors := by
  unfold Crew.setPred; split <;> rfl
@[simp] theorem Crew.setPred_queue (c : Crew) (p : Nat) (lanes x : Mask) : (c.setPred p lanes x).queue = c.queue := by
  unfold Crew.setPred; split <;> rfl
@[simp] theorem Crew.setPred_prog (c : Crew) (p : Nat) (lanes x : Mask) : (c.setPred p lanes x).prog = c.prog := by
  unfold Crew.setPred; split <;> rfl
@[simp] theorem Crew.setPred_flying (c : Crew) (p : Nat) (lanes x : Mask) :
    (c.setPred p lanes x).flying = c.flying := by
  unfold Crew.setPred; split <;> rfl
@[simp] theorem Crew.setPred_bias (c : Crew) (p : Nat) (lanes x : Mask) : (c.setPred p lanes x).bias = c.bias := by
  unfold Crew.setPred; split <;> rfl
@[simp] theorem Crew.setPred_nextId (c : Crew) (p : Nat) (lanes x : Mask) :
    (c.setPred p lanes x).nextId = c.nextId := by
  unfold Crew.setPred; split <;> rfl
@[simp] theorem Crew.setPred_orderS (c : Crew) (p : Nat) (lanes x : Mask) :
    (c.setPred p lanes x).orderS = c.orderS := by
  unfold Crew.setPred; split <;> rfl
@[simp] theorem Crew.setPred_orderL (c : Crew) (p : Nat) (lanes x : Mask) :
    (c.setPred p lanes x).orderL = c.orderL := by
  unfold Crew.setPred; split <;> rfl
@[simp] theorem Crew.setPred_orderW (c : Crew) (p : Nat) (lanes x : Mask) :
    (c.setPred p lanes x).orderW = c.orderW := by
  unfold Crew.setPred; split <;> rfl
@[simp] theorem Crew.setPred_orderX (c : Crew) (p : Nat) (lanes x : Mask) :
    (c.setPred p lanes x).orderX = c.orderX := by
  unfold Crew.setPred; split <;> rfl
@[simp] theorem Crew.setPred_nextBatch (c : Crew) (p : Nat) (lanes x : Mask) :
    (c.setPred p lanes x).nextBatch = c.nextBatch := by
  unfold Crew.setPred; split <;> rfl
@[simp] theorem Crew.setPred_batches (c : Crew) (p : Nat) (lanes x : Mask) :
    (c.setPred p lanes x).batches = c.batches := by
  unfold Crew.setPred; split <;> rfl
@[simp] theorem Crew.setPred_mma (c : Crew) (p : Nat) (lanes x : Mask) : (c.setPred p lanes x).mma = c.mma := by
  unfold Crew.setPred; split <;> rfl
@[simp] theorem Crew.setPred_pending (c : Crew) (p : Nat) (lanes x : Mask) :
    (c.setPred p lanes x).pending = c.pending := by
  unfold Crew.setPred; split <;> rfl
@[simp] theorem Crew.setPred_waitBar (c : Crew) (p : Nat) (lanes x : Mask) :
    (c.setPred p lanes x).waitBar = c.waitBar := by
  unfold Crew.setPred; split <;> rfl
@[simp] theorem Crew.setPred_waitGrow (c : Crew) (p : Nat) (lanes x : Mask) :
    (c.setPred p lanes x).waitGrow = c.waitGrow := by
  unfold Crew.setPred; split <;> rfl
@[simp] theorem Crew.setPred_freeing (c : Crew) (p : Nat) (lanes x : Mask) :
    (c.setPred p lanes x).freeing = c.freeing := by
  unfold Crew.setPred; split <;> rfl
@[simp] theorem Crew.setPred_waitKids (c : Crew) (p : Nat) (lanes x : Mask) :
    (c.setPred p lanes x).waitKids = c.waitKids := by
  unfold Crew.setPred; split <;> rfl
@[simp] theorem Crew.setPred_fetchHeld (c : Crew) (p : Nat) (lanes x : Mask) :
    (c.setPred p lanes x).fetchHeld = c.fetchHeld := by
  unfold Crew.setPred; split <;> rfl
@[simp] theorem Crew.setPred_walking (c : Crew) (p : Nat) (lanes x : Mask) :
    (c.setPred p lanes x).walking = c.walking := by
  unfold Crew.setPred; split <;> rfl
@[simp] theorem Crew.setPred_joint (c : Crew) (p : Nat) (lanes x : Mask) : (c.setPred p lanes x).joint = c.joint := by
  unfold Crew.setPred; split <;> rfl
@[simp] theorem Crew.setPred_place (c : Crew) (p : Nat) (lanes x : Mask) : (c.setPred p lanes x).place = c.place := by
  unfold Crew.setPred; split <;> rfl
@[simp] theorem Crew.setX_role (c : Crew) (n l : Nat) (x : Word) : (c.setX n l x).role = c.role := rfl
@[simp] theorem Crew.setX_number (c : Crew) (n l : Nat) (x : Word) : (c.setX n l x).number = c.number := rfl
@[simp] theorem Crew.setX_status (c : Crew) (n l : Nat) (x : Word) : (c.setX n l x).status = c.status := rfl
@[simp] theorem Crew.setX_live (c : Crew) (n l : Nat) (x : Word) : (c.setX n l x).live = c.live := rfl
@[simp] theorem Crew.setX_pc (c : Crew) (n l : Nat) (x : Word) : (c.setX n l x).pc = c.pc := rfl
@[simp] theorem Crew.setX_sreg (c : Crew) (n l : Nat) (x : Word) : (c.setX n l x).sreg = c.sreg := rfl
@[simp] theorem Crew.setX_sTag (c : Crew) (n l : Nat) (x : Word) : (c.setX n l x).sTag = c.sTag := rfl
@[simp] theorem Crew.setX_vreg (c : Crew) (n l : Nat) (x : Word) : (c.setX n l x).vreg = c.vreg := rfl
@[simp] theorem Crew.setX_vTag (c : Crew) (n l : Nat) (x : Word) : (c.setX n l x).vTag = c.vTag := rfl
@[simp] theorem Crew.setX_preds (c : Crew) (n l : Nat) (x : Word) : (c.setX n l x).preds = c.preds := rfl
@[simp] theorem Crew.setX_cursors (c : Crew) (n l : Nat) (x : Word) : (c.setX n l x).cursors = c.cursors := rfl
@[simp] theorem Crew.setX_queue (c : Crew) (n l : Nat) (x : Word) : (c.setX n l x).queue = c.queue := rfl
@[simp] theorem Crew.setX_prog (c : Crew) (n l : Nat) (x : Word) : (c.setX n l x).prog = c.prog := rfl
@[simp] theorem Crew.setX_flying (c : Crew) (n l : Nat) (x : Word) : (c.setX n l x).flying = c.flying := rfl
@[simp] theorem Crew.setX_bias (c : Crew) (n l : Nat) (x : Word) : (c.setX n l x).bias = c.bias := rfl
@[simp] theorem Crew.setX_nextId (c : Crew) (n l : Nat) (x : Word) : (c.setX n l x).nextId = c.nextId := rfl
@[simp] theorem Crew.setX_orderS (c : Crew) (n l : Nat) (x : Word) : (c.setX n l x).orderS = c.orderS := rfl
@[simp] theorem Crew.setX_orderL (c : Crew) (n l : Nat) (x : Word) : (c.setX n l x).orderL = c.orderL := rfl
@[simp] theorem Crew.setX_orderW (c : Crew) (n l : Nat) (x : Word) : (c.setX n l x).orderW = c.orderW := rfl
@[simp] theorem Crew.setX_orderX (c : Crew) (n l : Nat) (x : Word) : (c.setX n l x).orderX = c.orderX := rfl
@[simp] theorem Crew.setX_nextBatch (c : Crew) (n l : Nat) (x : Word) : (c.setX n l x).nextBatch = c.nextBatch := rfl
@[simp] theorem Crew.setX_batches (c : Crew) (n l : Nat) (x : Word) : (c.setX n l x).batches = c.batches := rfl
@[simp] theorem Crew.setX_mma (c : Crew) (n l : Nat) (x : Word) : (c.setX n l x).mma = c.mma := rfl
@[simp] theorem Crew.setX_pending (c : Crew) (n l : Nat) (x : Word) : (c.setX n l x).pending = c.pending := rfl
@[simp] theorem Crew.setX_waitBar (c : Crew) (n l : Nat) (x : Word) : (c.setX n l x).waitBar = c.waitBar := rfl
@[simp] theorem Crew.setX_waitGrow (c : Crew) (n l : Nat) (x : Word) : (c.setX n l x).waitGrow = c.waitGrow := rfl
@[simp] theorem Crew.setX_freeing (c : Crew) (n l : Nat) (x : Word) : (c.setX n l x).freeing = c.freeing := rfl
@[simp] theorem Crew.setX_waitKids (c : Crew) (n l : Nat) (x : Word) : (c.setX n l x).waitKids = c.waitKids := rfl
@[simp] theorem Crew.setX_fetchHeld (c : Crew) (n l : Nat) (x : Word) : (c.setX n l x).fetchHeld = c.fetchHeld := rfl
@[simp] theorem Crew.setX_walking (c : Crew) (n l : Nat) (x : Word) : (c.setX n l x).walking = c.walking := rfl
@[simp] theorem Crew.setX_joint (c : Crew) (n l : Nat) (x : Word) : (c.setX n l x).joint = c.joint := rfl
@[simp] theorem Crew.setX_place (c : Crew) (n l : Nat) (x : Word) : (c.setX n l x).place = c.place := rfl
@[simp] theorem Crew.issue_nextId (c : Crew) (a : Access) : (c.issue a).nextId = c.nextId + 1 := rfl
@[simp] theorem Crew.issue_role (c : Crew) (a : Access) : (c.issue a).role = c.role := rfl
@[simp] theorem Crew.issue_number (c : Crew) (a : Access) : (c.issue a).number = c.number := rfl
@[simp] theorem Crew.issue_status (c : Crew) (a : Access) : (c.issue a).status = c.status := rfl
@[simp] theorem Crew.issue_live (c : Crew) (a : Access) : (c.issue a).live = c.live := rfl
@[simp] theorem Crew.issue_pc (c : Crew) (a : Access) : (c.issue a).pc = c.pc := rfl
@[simp] theorem Crew.issue_sreg (c : Crew) (a : Access) : (c.issue a).sreg = c.sreg := rfl
@[simp] theorem Crew.issue_sTag (c : Crew) (a : Access) : (c.issue a).sTag = c.sTag := rfl
@[simp] theorem Crew.issue_vreg (c : Crew) (a : Access) : (c.issue a).vreg = c.vreg := rfl
@[simp] theorem Crew.issue_vTag (c : Crew) (a : Access) : (c.issue a).vTag = c.vTag := rfl
@[simp] theorem Crew.issue_preds (c : Crew) (a : Access) : (c.issue a).preds = c.preds := rfl
@[simp] theorem Crew.issue_xreg (c : Crew) (a : Access) : (c.issue a).xreg = c.xreg := rfl
@[simp] theorem Crew.issue_cursors (c : Crew) (a : Access) : (c.issue a).cursors = c.cursors := rfl
@[simp] theorem Crew.issue_queue (c : Crew) (a : Access) : (c.issue a).queue = c.queue := rfl
@[simp] theorem Crew.issue_prog (c : Crew) (a : Access) : (c.issue a).prog = c.prog := rfl
@[simp] theorem Crew.issue_bias (c : Crew) (a : Access) : (c.issue a).bias = c.bias := rfl
@[simp] theorem Crew.issue_orderS (c : Crew) (a : Access) : (c.issue a).orderS = c.orderS := rfl
@[simp] theorem Crew.issue_orderL (c : Crew) (a : Access) : (c.issue a).orderL = c.orderL := rfl
@[simp] theorem Crew.issue_orderW (c : Crew) (a : Access) : (c.issue a).orderW = c.orderW := rfl
@[simp] theorem Crew.issue_orderX (c : Crew) (a : Access) : (c.issue a).orderX = c.orderX := rfl
@[simp] theorem Crew.issue_nextBatch (c : Crew) (a : Access) : (c.issue a).nextBatch = c.nextBatch := rfl
@[simp] theorem Crew.issue_batches (c : Crew) (a : Access) : (c.issue a).batches = c.batches := rfl
@[simp] theorem Crew.issue_mma (c : Crew) (a : Access) : (c.issue a).mma = c.mma := rfl
@[simp] theorem Crew.issue_pending (c : Crew) (a : Access) : (c.issue a).pending = c.pending := rfl
@[simp] theorem Crew.issue_waitBar (c : Crew) (a : Access) : (c.issue a).waitBar = c.waitBar := rfl
@[simp] theorem Crew.issue_waitGrow (c : Crew) (a : Access) : (c.issue a).waitGrow = c.waitGrow := rfl
@[simp] theorem Crew.issue_freeing (c : Crew) (a : Access) : (c.issue a).freeing = c.freeing := rfl
@[simp] theorem Crew.issue_waitKids (c : Crew) (a : Access) : (c.issue a).waitKids = c.waitKids := rfl
@[simp] theorem Crew.issue_fetchHeld (c : Crew) (a : Access) : (c.issue a).fetchHeld = c.fetchHeld := rfl
@[simp] theorem Crew.issue_walking (c : Crew) (a : Access) : (c.issue a).walking = c.walking := rfl
@[simp] theorem Crew.issue_joint (c : Crew) (a : Access) : (c.issue a).joint = c.joint := rfl
@[simp] theorem Crew.issue_place (c : Crew) (a : Access) : (c.issue a).place = c.place := rfl
@[simp] theorem Crew.putAccess_role (c : Crew) (a : Access) : (c.putAccess a).role = c.role := rfl
@[simp] theorem Crew.putAccess_number (c : Crew) (a : Access) : (c.putAccess a).number = c.number := rfl
@[simp] theorem Crew.putAccess_status (c : Crew) (a : Access) : (c.putAccess a).status = c.status := rfl
@[simp] theorem Crew.putAccess_live (c : Crew) (a : Access) : (c.putAccess a).live = c.live := rfl
@[simp] theorem Crew.putAccess_pc (c : Crew) (a : Access) : (c.putAccess a).pc = c.pc := rfl
@[simp] theorem Crew.putAccess_sreg (c : Crew) (a : Access) : (c.putAccess a).sreg = c.sreg := rfl
@[simp] theorem Crew.putAccess_sTag (c : Crew) (a : Access) : (c.putAccess a).sTag = c.sTag := rfl
@[simp] theorem Crew.putAccess_vreg (c : Crew) (a : Access) : (c.putAccess a).vreg = c.vreg := rfl
@[simp] theorem Crew.putAccess_vTag (c : Crew) (a : Access) : (c.putAccess a).vTag = c.vTag := rfl
@[simp] theorem Crew.putAccess_preds (c : Crew) (a : Access) : (c.putAccess a).preds = c.preds := rfl
@[simp] theorem Crew.putAccess_xreg (c : Crew) (a : Access) : (c.putAccess a).xreg = c.xreg := rfl
@[simp] theorem Crew.putAccess_cursors (c : Crew) (a : Access) : (c.putAccess a).cursors = c.cursors := rfl
@[simp] theorem Crew.putAccess_queue (c : Crew) (a : Access) : (c.putAccess a).queue = c.queue := rfl
@[simp] theorem Crew.putAccess_prog (c : Crew) (a : Access) : (c.putAccess a).prog = c.prog := rfl
@[simp] theorem Crew.putAccess_bias (c : Crew) (a : Access) : (c.putAccess a).bias = c.bias := rfl
@[simp] theorem Crew.putAccess_nextId (c : Crew) (a : Access) : (c.putAccess a).nextId = c.nextId := rfl
@[simp] theorem Crew.putAccess_orderS (c : Crew) (a : Access) : (c.putAccess a).orderS = c.orderS := rfl
@[simp] theorem Crew.putAccess_orderL (c : Crew) (a : Access) : (c.putAccess a).orderL = c.orderL := rfl
@[simp] theorem Crew.putAccess_orderW (c : Crew) (a : Access) : (c.putAccess a).orderW = c.orderW := rfl
@[simp] theorem Crew.putAccess_orderX (c : Crew) (a : Access) : (c.putAccess a).orderX = c.orderX := rfl
@[simp] theorem Crew.putAccess_nextBatch (c : Crew) (a : Access) : (c.putAccess a).nextBatch = c.nextBatch := rfl
@[simp] theorem Crew.putAccess_batches (c : Crew) (a : Access) : (c.putAccess a).batches = c.batches := rfl
@[simp] theorem Crew.putAccess_mma (c : Crew) (a : Access) : (c.putAccess a).mma = c.mma := rfl
@[simp] theorem Crew.putAccess_pending (c : Crew) (a : Access) : (c.putAccess a).pending = c.pending := rfl
@[simp] theorem Crew.putAccess_waitBar (c : Crew) (a : Access) : (c.putAccess a).waitBar = c.waitBar := rfl
@[simp] theorem Crew.putAccess_waitGrow (c : Crew) (a : Access) : (c.putAccess a).waitGrow = c.waitGrow := rfl
@[simp] theorem Crew.putAccess_freeing (c : Crew) (a : Access) : (c.putAccess a).freeing = c.freeing := rfl
@[simp] theorem Crew.putAccess_waitKids (c : Crew) (a : Access) : (c.putAccess a).waitKids = c.waitKids := rfl
@[simp] theorem Crew.putAccess_fetchHeld (c : Crew) (a : Access) : (c.putAccess a).fetchHeld = c.fetchHeld := rfl
@[simp] theorem Crew.putAccess_walking (c : Crew) (a : Access) : (c.putAccess a).walking = c.walking := rfl
@[simp] theorem Crew.putAccess_joint (c : Crew) (a : Access) : (c.putAccess a).joint = c.joint := rfl
@[simp] theorem Crew.putAccess_place (c : Crew) (a : Access) : (c.putAccess a).place = c.place := rfl
@[simp] theorem Crew.resume_role (c : Crew) : (c.resume).role = c.role := rfl
@[simp] theorem Crew.resume_number (c : Crew) : (c.resume).number = c.number := rfl
@[simp] theorem Crew.resume_live (c : Crew) : (c.resume).live = c.live := rfl
@[simp] theorem Crew.resume_pc (c : Crew) : (c.resume).pc = c.pc := rfl
@[simp] theorem Crew.resume_sreg (c : Crew) : (c.resume).sreg = c.sreg := rfl
@[simp] theorem Crew.resume_sTag (c : Crew) : (c.resume).sTag = c.sTag := rfl
@[simp] theorem Crew.resume_vreg (c : Crew) : (c.resume).vreg = c.vreg := rfl
@[simp] theorem Crew.resume_vTag (c : Crew) : (c.resume).vTag = c.vTag := rfl
@[simp] theorem Crew.resume_preds (c : Crew) : (c.resume).preds = c.preds := rfl
@[simp] theorem Crew.resume_xreg (c : Crew) : (c.resume).xreg = c.xreg := rfl
@[simp] theorem Crew.resume_cursors (c : Crew) : (c.resume).cursors = c.cursors := rfl
@[simp] theorem Crew.resume_queue (c : Crew) : (c.resume).queue = c.queue := rfl
@[simp] theorem Crew.resume_prog (c : Crew) : (c.resume).prog = c.prog := rfl
@[simp] theorem Crew.resume_bias (c : Crew) : (c.resume).bias = c.bias := rfl
@[simp] theorem Crew.resume_nextId (c : Crew) : (c.resume).nextId = c.nextId := rfl
@[simp] theorem Crew.resume_orderS (c : Crew) : (c.resume).orderS = c.orderS := rfl
@[simp] theorem Crew.resume_orderL (c : Crew) : (c.resume).orderL = c.orderL := rfl
@[simp] theorem Crew.resume_orderW (c : Crew) : (c.resume).orderW = c.orderW := rfl
@[simp] theorem Crew.resume_orderX (c : Crew) : (c.resume).orderX = c.orderX := rfl
@[simp] theorem Crew.resume_nextBatch (c : Crew) : (c.resume).nextBatch = c.nextBatch := rfl
@[simp] theorem Crew.resume_batches (c : Crew) : (c.resume).batches = c.batches := rfl
@[simp] theorem Crew.resume_pending (c : Crew) : (c.resume).pending = c.pending := rfl
@[simp] theorem Crew.resume_waitBar (c : Crew) : (c.resume).waitBar = c.waitBar := rfl
@[simp] theorem Crew.resume_waitGrow (c : Crew) : (c.resume).waitGrow = c.waitGrow := rfl
@[simp] theorem Crew.resume_freeing (c : Crew) : (c.resume).freeing = c.freeing := rfl
@[simp] theorem Crew.resume_waitKids (c : Crew) : (c.resume).waitKids = c.waitKids := rfl
@[simp] theorem Crew.resume_place (c : Crew) : (c.resume).place = c.place := rfl

end Sys2Proof.Machine
end

