-- ==== Sys2Proof/Laws/Ops.lean ====
section
/-! SUPPORT. What the shared operations do, each said once: acting for the issuer, waiting and trapping, writing registers,
predicates and lanes, and keeping memory in its canonical form. -/

namespace Sys2Proof.Machine

/-! Acting for the issuer. -/

theorem acting_of {s : State} {w : Workgroup} {c : Crew} (h : Issuing s w c) (f : Workgroup → Crew → Result) :
    acting s f = f w c := by
  simp only [Issuing] at h
  simp only [acting, h]

theorem trap_of {s : State} {w : Workgroup} {c : Crew} (h : Issuing s w c) (code : FaultCode) (detail : DWord) :
    trap s code detail
      = .next (s.raise s.cur.key (c.sideOf s.cur.stream) code detail s.cur.stream false (c.at s.cur.stream)) := by
  simp only [Issuing] at h
  simp only [trap, h]

/-- Nothing traps where no condition holds. -/
theorem trapsThen_none {s : State} {run : Result} {ts : List (Bool × FaultCode × DWord)} (h : ∀ t ∈ ts, t.1 = false) :
    trapsThen s run ts = run := by
  induction ts with
  | nil => rfl
  | cons t ts ih =>
    obtain ⟨b, code, d⟩ := t
    have hb : b = false := h _ List.mem_cons_self
    simp only [trapsThen, hb]
    exact ih fun t ht => h t (List.mem_cons_of_mem _ ht)

/-- A list of conditions either traps with one of its codes or runs. -/
theorem trapsThen_cases (s : State) (run : Result) (ts : List (Bool × FaultCode × DWord)) :
    trapsThen s run ts = run ∨ ∃ t ∈ ts, t.1 = true ∧ trapsThen s run ts = trap s t.2.1 t.2.2 := by
  induction ts with
  | nil => exact .inl rfl
  | cons t ts ih =>
    obtain ⟨b, code, d⟩ := t
    cases b
    · rcases ih with h | ⟨t, ht, hb, h⟩
      · exact .inl h
      · exact .inr ⟨t, List.mem_cons_of_mem _ ht, hb, h⟩
    · exact .inr ⟨_, List.mem_cons_self, rfl, rfl⟩

/-- Nothing issues for a crew that is not there, and a crew that is acts or traps. -/
theorem acting_cases (s : State) (f : Workgroup → Crew → Result) :
    acting s f = .fault .noIssuer ∨ ∃ w c, Issuing s w c ∧ acting s f = f w c := by
  unfold acting Issuing
  split
  · exact .inl rfl
  · rename_i w c h; exact .inr ⟨w, c, h, rfl⟩

/-! Scalar registers. -/

@[simp] theorem Crew.s_zero (c : Crew) : c.s 0 = 0 := rfl
@[simp] theorem Crew.full_zero (c : Crew) : c.full 0 = true := rfl

theorem Crew.s_setS (c : Crew) (d r : Reg) (v : Word) : (c.setS d v).s r = if r = 0 then 0 else if r = d then v else c.s r := by
  unfold Crew.setS Crew.s
  by_cases hd : d = 0
  · subst d
    by_cases hr : r = 0
    · simp only [hr, if_true]
    · simp only [hr, if_true, if_false]
  · by_cases hr : r = 0
    · simp only [hr, if_true]
    · simp only [hd, hr, if_false, SMap.get_put]
      by_cases h : r = d
      · simp [h]
      · have : r.toNat ≠ d.toNat := fun e => h (BitVec.eq_of_toNat_eq e)
        simp [h, this]

theorem Crew.full_setS (c : Crew) (d r : Reg) (v : Word) : (c.setS d v).full r = (decide (r = d) || c.full r) := by
  unfold Crew.setS Crew.full
  by_cases hd : d = 0
  · subst d
    by_cases hr : r = 0#6
    · simp [hr]
    · simp [hr]
  · simp only [hd, if_false, SMap.find?_erase]
    by_cases h : r = d
    · simp [h]
    · have : r.toNat ≠ d.toNat := fun e => h (BitVec.eq_of_toNat_eq e)
      simp [h, this]

theorem Crew.full_awaitS (c : Crew) (d r : Reg) (t : Nat) :
    (c.awaitS d t).full r = if r = d ∧ d ≠ 0 then false else c.full r := by
  unfold Crew.awaitS Crew.full
  by_cases hd : d = 0
  · simp [hd]
  · simp only [hd, if_false, SMap.find?_insert]
    by_cases h : r = d
    · subst h
      have hd' : ¬ r = 0#6 := hd
      simp [hd']
    · have : r.toNat ≠ d.toNat := fun e => h (BitVec.eq_of_toNat_eq e)
      simp [h, this]

@[simp] theorem Crew.s_awaitS (c : Crew) (d r : Reg) (t : Nat) : (c.awaitS d t).s r = c.s r := by simp [Crew.s]

/-- Writing a scalar register writes it and nothing else. -/
theorem scalarWritten_setS (c : Crew) (d : Reg) (v : Word) : ScalarWritten c (c.setS d v) d v where
  value := by
    rw [Crew.s_setS]; by_cases h : d = 0 <;> simp [h]
  isFull := by simp [Crew.full_setS]
  others r h := by
    rw [Crew.s_setS, Crew.full_setS]
    refine ⟨?_, by simp [h]⟩
    by_cases hr : r = 0
    · subst hr; rfl
    · rw [if_neg hr, if_neg h]
  rest := by unfold Crew.setS; split <;> rfl

theorem allFull_eq (c : Crew) (rs : List Reg) : c.allFull rs = true ↔ ∀ r ∈ rs, c.full r = true := by
  simp [Crew.allFull, List.all_eq_true]

/-- A scalar instruction that completes before the next one becomes its effect once its sources are full, and waits before. -/
theorem simple_of {s : State} {w : Workgroup} {c : Crew} (h : Issuing s w c) (srcs : List Reg) (n : Nat) (f : Crew → Crew) :
    simple s srcs n f = if c.allFull srcs then .next (s.put s.cur.key w ((f c).advance n)) else .next s := by
  unfold simple; rw [acting_of h]

theorem alu_result {i : Instr} {d : Reg} {srcs : List Reg} {f g : Crew → Word}
    (hi : ∀ s, exec i s = alu s d srcs f) (hf : ∀ c, f c = g c) : ScalarResult i d srcs g := by
  intro s w c h
  simp only [Becomes, hi, alu, simple_of h]
  constructor
  · intro hs
    refine ⟨c.setS d (g c), scalarWritten_setS c d (g c), ?_⟩
    rw [if_pos ((allFull_eq c srcs).mpr hs), hf]
  · rintro ⟨r, hr, hn⟩
    rw [if_neg]
    intro ha
    rw [(allFull_eq c srcs).mp ha r hr] at hn
    cases hn

/-! Predicates. -/

theorem Crew.pred_setPred (c : Crew) (n m : Nat) (lanes x : Mask) : (c.setPred n lanes x).pred m
    = if m % 8 = 7 then BitVec.allOnes 64 else if m % 8 = n % 8 then (c.pred n &&& ~~~lanes) ||| (x &&& lanes) else c.pred m := by
  unfold Crew.setPred
  by_cases hn : n % 8 = 7
  · simp only [hn, if_true]
    by_cases hm : m % 8 = 7
    · simp [Crew.pred, hm]
    · simp [hm]
  · simp only [hn, if_false]
    by_cases hm : m % 8 = 7
    · simp [Crew.pred, hm]
    · simp only [Crew.pred, hm, if_false, SMap.get_put]

/-- Writing a predicate in the lanes of a mask writes it there and nothing else. -/
theorem predicateWritten_setPred (c : Crew) (e : Mask) (n : Nat) (x : Mask) (val : Nat → Bool)
    (hx : ∀ l, l < 64 → flag e l = true → flag x l = val l) : PredicateWritten c (c.setPred n e x) e n val where
  value l hl := by
    rw [Crew.pred_setPred]
    by_cases hn : n % 8 = 7
    · simp only [hn, if_true, flag, BitVec.getLsbD_allOnes, hl, decide_true]
    · simp only [hn, if_false, if_true]
      by_cases he : flag e l = true
      · have hx' := hx l hl he
        rw [if_pos he, ← hx']
        simp only [flag] at he ⊢
        rw [BitVec.getLsbD_or, BitVec.getLsbD_and, BitVec.getLsbD_and, BitVec.getLsbD_not, he]; simp
      · rw [if_neg he]
        simp only [flag, Bool.not_eq_true] at he ⊢
        rw [BitVec.getLsbD_or, BitVec.getLsbD_and, BitVec.getLsbD_and, BitVec.getLsbD_not, he]; simp [hl]
  others m hm := by
    rw [Crew.pred_setPred]
    by_cases h7 : m % 8 = 7
    · simp [Crew.pred, h7]
    · simp [h7, hm]
  rest := by unfold Crew.setPred; split <;> rfl

/-! Lanes. -/

theorem laneKey_inj {r q l m : Nat} (hl : l < 64) (hm : m < 64) : laneKey r l = laneKey q m ↔ r = q ∧ l = m := by
  simp only [laneKey]; omega

theorem Crew.v_setV (c : Crew) (r l : Nat) (x : Word) (q m : Nat) (hl : l < 64) (hm : m < 64) :
    (c.setV r l x).v q m = if q = r ∧ m = l then x else c.v q m := by
  simp only [Crew.setV, Crew.v, SMap.get_put, laneKey_inj hm hl]

theorem Crew.vFull_setV (c : Crew) (r l : Nat) (x : Word) (q m : Nat) (hl : l < 64) (hm : m < 64) :
    (c.setV r l x).vFull q m = (decide (q = r ∧ m = l) || c.vFull q m) := by
  simp only [Crew.setV, Crew.vFull, SMap.find?_erase, laneKey_inj hm hl]
  by_cases h : q = r ∧ m = l <;> simp [h]

theorem mem_lanesOf {e : Mask} {l : Nat} : l ∈ lanesOf e ↔ flag e l = true := by
  simp only [lanesOf, List.mem_filter, List.mem_range, flag]
  exact ⟨fun h => h.2, fun h => ⟨BitVec.lt_of_getLsbD h, h⟩⟩

/-- Writing lane after lane: each lane that was written holds its value. -/
theorem foldl_setV (dst : Nat → Nat) (val : Nat → Word) :
    ∀ (ls : List Nat) (c : Crew), (∀ l ∈ ls, l < 64) → ls.Nodup →
      let c' := ls.foldl (fun x l => x.setV (dst l) l (val l)) c
      (∀ l ∈ ls, c'.v (dst l) l = val l ∧ c'.vFull (dst l) l = true)
      ∧ (∀ r l, l < 64 → (l ∉ ls ∨ r ≠ dst l) → c'.v r l = c.v r l ∧ c'.vFull r l = c.vFull r l)
      ∧ { c' with vreg := c.vreg, vTag := c.vTag } = c := by
  intro ls
  induction ls with
  | nil => intro c _ _; simp
  | cons a ls ih =>
    intro c hlt hnd
    have ha : a < 64 := hlt a List.mem_cons_self
    have hnd' := List.nodup_cons.mp hnd
    obtain ⟨h1, h2, h3⟩ := ih (c.setV (dst a) a (val a)) (fun l hl => hlt l (List.mem_cons_of_mem _ hl)) hnd'.2
    refine ⟨fun l hl => ?_, fun r l hl hn => ?_, ?_⟩
    · rcases List.mem_cons.mp hl with rfl | hl
      · have := h2 (dst l) l ha (.inl hnd'.1)
        simp only [List.foldl_cons]
        rw [this.1, this.2, Crew.v_setV _ _ _ _ _ _ ha ha, Crew.vFull_setV _ _ _ _ _ _ ha ha]
        simp
      · exact h1 l hl
    · have hn' : l ∉ ls ∨ r ≠ dst l := hn.imp (fun h h' => h (List.mem_cons_of_mem _ h')) id
      have := h2 r l hl hn'
      simp only [List.foldl_cons]
      rw [this.1, this.2, Crew.v_setV _ _ _ _ _ _ ha hl, Crew.vFull_setV _ _ _ _ _ _ ha hl]
      have hne : ¬ (r = dst a ∧ l = a) := by
        rintro ⟨rfl, rfl⟩
        rcases hn with h | h
        · exact h List.mem_cons_self
        · exact h rfl
      simp [hne]
    · simp only [List.foldl_cons]
      have e : c = { (c.setV (dst a) a (val a)) with vreg := c.vreg, vTag := c.vTag } := rfl
      conv => rhs; rw [e, ← h3]

/-- Writing the lanes of a mask writes them and nothing else. -/
theorem lanesWritten_writeLanes (c : Crew) (e : Mask) (dst : Nat → Nat) (val : Nat → Word) :
    LanesWritten c (c.writeLanes e dst val) e dst val := by
  have h := foldl_setV dst val (lanesOf e) c (fun l hl => BitVec.lt_of_getLsbD (mem_lanesOf.mp hl))
    (List.nodup_range.filter _)
  refine ⟨fun l hl => h.1 l (mem_lanesOf.mpr hl), fun r l hl hn => h.2.1 r l hl (hn.imp_left ?_), h.2.2⟩
  intro hf hm
  rw [mem_lanesOf.mp hm] at hf
  cases hf

/-- A lane-to-scalar result is held by the run. -/
theorem resultHeld_result (c : Crew) (r : Nat) (v : Word) : ResultHeld c (c.result r v) r v := by
  unfold ResultHeld Crew.result
  by_cases h : r = 0
  · simp [h]
  · simp only [h, if_false]
    refine ⟨rfl, ?_, fun q hq => ?_⟩
    · simp [Crew.run]
    · simp [Crew.run, SMap.get_put, hq]

/-! Memory. -/

theorem Memory.wf_write {m : Memory} (h : Memory.wf m) (a : Nat) (b : Byte) : Memory.wf (m.write a b) :=
  SMap.wf_put (α := Byte) h a b

theorem Memory.wf_writeList {m : Memory} (h : Memory.wf m) (a : Nat) (bs : List Byte) : Memory.wf (m.writeList a bs) := by
  induction bs generalizing m a with
  | nil => exact h
  | cons b bs ih => exact ih (Memory.wf_write h a b) (a + 1)

theorem Memory.read_write (m : Memory) (a : Nat) (b : Byte) (x : Nat) :
    (m.write a b).read x = if x = a then b else m.read x :=
  SMap.get_put (α := Byte) m a b x

theorem Memory.read_writeList (m : Memory) (a : Nat) (bs : List Byte) (x : Nat) :
    (m.writeList a bs).read x = if a ≤ x ∧ x < a + bs.length then bs.getD (x - a) 0 else m.read x := by
  induction bs generalizing m a with
  | nil =>
    have : ¬ (a ≤ x ∧ x < a + 0) := by omega
    simp only [Memory.writeList, List.length_nil, this, if_false]
  | cons b bs ih =>
    rw [Memory.writeList, ih, Memory.read_write]
    simp only [List.length_cons]
    by_cases h : x = a
    · subst h
      have h1 : ¬ (x + 1 ≤ x) := by omega
      simp [h1]
    · by_cases h1 : a + 1 ≤ x ∧ x < a + 1 + bs.length
      · have h2 : a ≤ x ∧ x < a + (bs.length + 1) := by omega
        have h3 : x - a = (x - (a + 1)) + 1 := by omega
        rw [if_pos h1, if_pos h2, h3]; rfl
      · have h2 : ¬ (a ≤ x ∧ x < a + (bs.length + 1)) := by omega
        rw [if_neg h1, if_neg h2, if_neg h]

theorem Memory.wf_sealBlock {m : Memory} (h : Memory.wf m) (key : BitVec 512) (base : Nat) (bytes : Cells 8) (j : Nat) :
    Memory.wf (m.sealBlock key base bytes j) :=
  Memory.wf_writeList h _ _

theorem Memory.wf_sealLine {m : Memory} (h : Memory.wf m) (key : BitVec 512) (base : Nat) (bytes : Cells 8) :
    Memory.wf (m.sealLine key base bytes) := by
  unfold Memory.sealLine
  generalize List.range 16 = l
  induction l generalizing m with
  | nil => exact h
  | cons j l ih => exact ih (Memory.wf_sealBlock h key base bytes j)

theorem State.wf_evict {s : State} (h : Memory.wf s.mem) (n : Nat) : Memory.wf (s.evict n).mem := by
  unfold State.evict
  split
  · exact h
  · dsimp only
    split
    · exact Memory.wf_sealLine h _ _ _
    · exact h

theorem State.wf_bring {s : State} (h : Memory.wf s.mem) (o : Owner) (a : Nat) : Memory.wf (s.bring o a).mem := by
  unfold State.bring
  dsimp only
  split
  · split
    · exact h
    · exact State.wf_evict h _
  · exact h

theorem State.wf_touch {s : State} (h : Memory.wf s.mem) (o : Owner) (alloc : Bool) (a : Nat) :
    Memory.wf (s.touch o alloc a).mem := by
  unfold State.touch
  split
  · exact State.wf_bring h o a
  · exact h

theorem State.wf_touchRange {s : State} (h : Memory.wf s.mem) (o : Owner) (alloc : Bool) (a n : Nat) :
    Memory.wf (s.touchRange o alloc a n).mem := by
  unfold State.touchRange
  generalize List.range n = l
  induction l generalizing s with
  | nil => exact h
  | cons i l ih => exact ih (State.wf_touch h o alloc (a + i))

theorem State.wf_writeAs {s : State} (h : Memory.wf s.mem) (o : Owner) (alloc : Bool) (a : Nat) (b : Byte) :
    Memory.wf (s.writeAs o alloc a b).mem := by
  unfold State.writeAs
  split
  · split
    · exact Memory.wf_writeList h _ _
    · exact State.wf_bring h o a
  · exact Memory.wf_write h a b

theorem State.wf_writeByte {s : State} (h : Memory.wf s.mem) (c a : Nat) (b : Byte) : Memory.wf (s.writeByte c a b).mem :=
  State.wf_writeAs h _ _ _ _

theorem State.wf_writeBytes {s : State} (h : Memory.wf s.mem) (c a : Nat) (bs : List Byte) :
    Memory.wf (s.writeBytes c a bs).mem := by
  induction bs generalizing s a with
  | nil => exact h
  | cons b bs ih => exact ih (State.wf_writeByte h c a b) (a + 1)

theorem State.wf_writeMasked {s : State} (h : Memory.wf s.mem) (c : Nat) (alloc : Bool) (a : Nat) (m : BitVec 16) (i : Nat)
    (bs : List Byte) : Memory.wf (s.writeMasked c alloc a m i bs).mem := by
  induction bs generalizing s i with
  | nil => exact h
  | cons b bs ih =>
    refine ih ?_ (i + 1)
    split
    · exact State.wf_writeAs h _ _ _ b
    · exact h

theorem State.wf_ownPut {s : State} (h : Memory.wf s.mem) (o : Owner) (a : Nat) (b : Byte) : Memory.wf (s.ownPut o a b).mem := by
  unfold State.ownPut
  split
  · exact h
  · exact State.wf_writeAs h _ _ _ b

theorem State.wf_ownWrite {s : State} (h : Memory.wf s.mem) (o : Owner) (a : Nat) (bs : List Byte) :
    Memory.wf (s.ownWrite o a bs).mem := by
  induction bs generalizing s a with
  | nil => exact h
  | cons b bs ih =>
    refine ih ?_ (a + 1)
    split
    · exact State.wf_ownPut h _ _ b
    · exact h

theorem State.wf_fwWrite {s : State} (h : Memory.wf s.mem) (a : Nat) (bs : List Byte) : Memory.wf (s.fwWrite a bs).mem :=
  State.wf_ownWrite h _ a bs

theorem State.wf_vwrite {s : State} (h : Memory.wf s.mem) (c va : Nat) (bs : List Byte) : Memory.wf (s.vwrite c va bs).mem := by
  induction bs generalizing s va with
  | nil => exact h
  | cons b bs ih =>
    unfold State.vwrite
    split
    · exact ih (State.wf_writeByte h c _ b) (va + 1)
    · exact ih h (va + 1)

theorem State.wf_reset : Memory.wf State.reset.mem := by decide

/-! What writing memory leaves. -/

/-- Only memory, the die cache, the keys under which lines stand off chip and the writes that wait differ. -/
def OnlyMemory (s t : State) : Prop := t = { s with mem := t.mem, lines := t.lines, sealed := t.sealed, owed := t.owed }

theorem OnlyMemory.refl (s : State) : OnlyMemory s s := rfl

theorem OnlyMemory.trans {s t u : State} (h : OnlyMemory s t) (g : OnlyMemory t u) : OnlyMemory s u := by
  unfold OnlyMemory at *
  rw [g, h]

theorem onlyMemory_evict (s : State) (n : Nat) : OnlyMemory s (s.evict n) := by
  unfold State.evict
  split
  · exact .refl s
  · dsimp only
    split <;> rfl

theorem onlyMemory_bring (s : State) (o : Owner) (a : Nat) : OnlyMemory s (s.bring o a) := by
  unfold State.bring
  dsimp only
  split
  · split
    · exact .refl s
    · exact (onlyMemory_evict s _).trans rfl
  · rfl

theorem onlyMemory_writeAs (s : State) (o : Owner) (alloc : Bool) (a : Nat) (b : Byte) :
    OnlyMemory s (s.writeAs o alloc a b) := by
  unfold State.writeAs
  split
  · split
    · rfl
    · exact (onlyMemory_bring s o a).trans rfl
  · rfl

theorem onlyMemory_writeMasked (s : State) (c : Nat) (alloc : Bool) (a : Nat) (m : BitVec 16) (i : Nat) (bs : List Byte) :
    OnlyMemory s (s.writeMasked c alloc a m i bs) := by
  induction bs generalizing s i with
  | nil => exact .refl s
  | cons b bs ih =>
    unfold State.writeMasked
    split
    · exact (onlyMemory_writeAs s _ _ _ b).trans (ih _ _)
    · exact ih _ _

theorem onlyMemory_lastWrite (s : State) (x : LastPart) : OnlyMemory s (s.lastWrite x) := by
  unfold State.lastWrite
  dsimp only
  split
  · exact .refl s
  · split
    · exact onlyMemory_writeMasked _ _ _ _ _ _ _
    · split <;> rfl
    · exact .refl s

/-- Discarding workgroups changes them, memory with its lines and the writes that wait, and nothing else. -/
theorem discard_rest (s : State) (p : Workgroup → Bool) :
    s.discard p = { s with
      wgs := s.wgs.keep (fun w => !p w), freed := s.freed ++ s.roomOf p, mem := (s.discard p).mem, lines := (s.discard p).lines, sealed := (s.discard p).sealed,
      owed := (s.discard p).owed } := by
  have h : ∀ (l : List LastPart) (s : State), OnlyMemory s (l.foldl State.lastWrite s) := by
    intro l
    induction l with
    | nil => exact fun s => .refl s
    | cons x l ih => exact fun s => (onlyMemory_lastWrite s x).trans (ih _)
  have e := h (s.partsOf p) s
  unfold OnlyMemory at e
  unfold State.discard
  dsimp only
  rw [e]

end Sys2Proof.Machine
end

