-- ==== Sys2Proof/Laws/Kept.lean ====
section
/-! SUPPORT. What no step of the machine breaks, and what no crew can change: for each shared operation one lemma that it
keeps memory canonical, the population of CXL memory, acceptance numbers below the next one, everything sent out before, and
the tables of the system. -/

namespace Sys2Proof.Machine

/-- From `s` to `t` memory stays canonical, acceptance numbers stay below the next one and nothing sent is withdrawn. -/
structure Kept (s t : State) : Prop where
  mem : Memory.wf s.mem → Memory.wf t.mem
  populated : t.cxlBytes = s.cxlBytes
  numbers : NumbersBelow s → NumbersBelow t
  out : ∃ ms, t.out = s.out ++ ms

/-- The same, and the tables of the system stay as they are. -/
structure Tame (s t : State) : Prop where
  kept : Kept s t
  system : SystemKept s t

theorem Kept.refl (s : State) : Kept s s := ⟨id, rfl, id, [], (List.append_nil _).symm⟩

theorem Kept.trans {s t u : State} (h : Kept s t) (g : Kept t u) : Kept s u where
  mem := g.mem ∘ h.mem
  populated := g.populated.trans h.populated
  numbers := g.numbers ∘ h.numbers
  out := by
    obtain ⟨a, ha⟩ := h.out
    obtain ⟨b, hb⟩ := g.out
    exact ⟨a ++ b, by rw [hb, ha, List.append_assoc]⟩

theorem systemKept_trans {s t u : State} (h : SystemKept s t) (g : SystemKept t u) : SystemKept s u :=
  ⟨g.regions.trans h.regions, g.keys.trans h.keys, g.cores.trans h.cores, g.apertures.trans h.apertures,
    g.fabric.trans h.fabric, g.windows.trans h.windows, g.images.trans h.images, g.fused.1.trans h.fused.1,
    g.fused.2.1.trans h.fused.2.1, g.fused.2.2.trans h.fused.2.2⟩

theorem Tame.trans {s t u : State} (h : Tame s t) (g : Tame t u) : Tame s u := ⟨h.kept.trans g.kept, systemKept_trans h.system g.system⟩

/-- The tables of the system. -/
def State.system (s : State) :=
  (s.regions, s.keys, s.secureCores, s.apertures, s.fabric, s.windows, s.images, s.keyHash, s.rollback, s.bootRom)

theorem systemKept_of {s t : State} (h : t.system = s.system) : SystemKept s t where
  regions := congrArg (·.1) h
  keys := congrArg (·.2.1) h
  cores := congrArg (·.2.2.1) h
  apertures := congrArg (·.2.2.2.1) h
  fabric := congrArg (·.2.2.2.2.1) h
  windows := congrArg (·.2.2.2.2.2.1) h
  images := congrArg (·.2.2.2.2.2.2.1) h
  fused := ⟨congrArg (·.2.2.2.2.2.2.2.1) h, congrArg (·.2.2.2.2.2.2.2.2.1) h, congrArg (·.2.2.2.2.2.2.2.2.2) h⟩

theorem Tame.refl (s : State) : Tame s s := ⟨.refl s, systemKept_of rfl⟩

/-- The parts of the state that Kept speaks of. -/
def State.ledger (s : State) := (s.mem, s.cxlBytes, s.grids, s.seq, s.out)

theorem Kept.same {s t : State} (h : t.ledger = s.ledger) : Kept s t := by
  simp only [State.ledger, Prod.mk.injEq] at h
  obtain ⟨hm, hc, hg, hs, ho⟩ := h
  refine ⟨fun w => hm ▸ w, hc, fun n => ?_, [], by rw [ho, List.append_nil]⟩
  unfold NumbersBelow
  rw [hg, hs]
  exact n

theorem Tame.same {s t : State} (h : t.ledger = s.ledger) (g : t.system = s.system) : Tame s t := ⟨.same h, systemKept_of g⟩

/-- What changes nothing of these, before what keeps them. -/
theorem Tame.after {s t u : State} (h : Tame t u) (hl : t.ledger = s.ledger) (hg : t.system = s.system) : Tame s u :=
  Tame.trans (.same hl hg) h

/-- Only memory differs, and it stays canonical. -/
theorem Tame.onlyMem {s t : State} (hm : Memory.wf s.mem → Memory.wf t.mem)
    (h : t.ledger.2 = s.ledger.2) (g : t.system = s.system) : Tame s t := by
  simp only [State.ledger, Prod.mk.injEq] at h
  obtain ⟨hc, hg, hs, ho⟩ := h
  refine ⟨⟨hm, hc, fun n => ?_, [], by rw [ho, List.append_nil]⟩, systemKept_of g⟩
  unfold NumbersBelow
  rw [hg, hs]
  exact n

/-- Only messages are added. -/
theorem Tame.onlyOut {s t : State} (ms : List Message) (ho : t.out = s.out ++ ms)
    (h : (t.mem, t.cxlBytes, t.grids, t.seq) = (s.mem, s.cxlBytes, s.grids, s.seq)) (g : t.system = s.system) : Tame s t := by
  simp only [Prod.mk.injEq] at h
  obtain ⟨hm, hc, hg, hs⟩ := h
  refine ⟨⟨fun w => hm ▸ w, hc, fun n => ?_, ms, ho⟩, systemKept_of g⟩
  unfold NumbersBelow
  rw [hg, hs]
  exact n

theorem Tame.foldl {α : Type} {f : State → α → State} (h : ∀ s x, Tame s (f s x)) (l : List α) (s : State) :
    Tame s (l.foldl f s) := by
  induction l generalizing s with
  | nil => exact .refl s
  | cons a l ih => exact (h s a).trans (ih _)

/-! Grids. -/

/-- A listed grid is replaced by one with the same consumer. -/
theorem NumbersBelow.replace {s : State} {n : Nat} {g g' : Grid} (hf : s.grids.find? n = some g) (he : g'.fused = g.fused)
    (h : NumbersBelow s) : NumbersBelow { s with grids := s.grids.insert n g' } := by
  refine ⟨SMap.sorted_insert h.1 n g', fun e hm => ?_⟩
  rcases SMap.mem_insert hm with rfl | hm
  · have := h.2 _ (SMap.mem_of_find? hf)
    exact ⟨this.1, fun f hf' => this.2 f (he ▸ hf')⟩
  · exact h.2 e hm

theorem NumbersBelow.erase {s : State} (n : Nat) (h : NumbersBelow s) : NumbersBelow { s with grids := s.grids.erase n } :=
  ⟨SMap.sorted_erase h.1 n, fun e hm => h.2 e (SMap.mem_erase.mp hm).1⟩

theorem NumbersBelow.congr {s t : State} (hg : t.grids = s.grids) (hs : t.seq = s.seq) (h : NumbersBelow s) :
    NumbersBelow t := by
  unfold NumbersBelow
  rw [hg, hs]
  exact h

/-- The grids and the next number change so that numbers stay below it. -/
theorem Tame.onlyGrids {s t : State} (hn : NumbersBelow s → NumbersBelow t)
    (h : (t.mem, t.cxlBytes, t.out) = (s.mem, s.cxlBytes, s.out)) (g : t.system = s.system) : Tame s t := by
  simp only [Prod.mk.injEq] at h
  obtain ⟨hm, hc, ho⟩ := h
  exact ⟨⟨fun w => hm ▸ w, hc, hn, [], by rw [ho, List.append_nil]⟩, systemKept_of g⟩

/-! Memory. -/

theorem tame_putWg (s : State) (n : Nat) (w : Workgroup) : Tame s (s.putWg n w) := .same rfl rfl
theorem tame_put (s : State) (k : CrewKey) (w : Workgroup) (c : Crew) : Tame s (s.put k w c) := .same rfl rfl
theorem tame_send (s : State) (m : Message) : Tame s (s.send m) := .onlyOut [m] rfl rfl rfl
theorem tame_report (s : State) (r : Report) : Tame s (s.report r) := tame_send _ _

/-- What writes only memory and keeps it canonical is tame. -/
theorem Tame.ofMemory {s t : State} (h : OnlyMemory s t) (hm : Memory.wf s.mem → Memory.wf t.mem) : Tame s t :=
  .onlyMem hm (by rw [h]; rfl) (by rw [h]; rfl)

theorem tame_bring (s : State) (o : Owner) (a : Nat) : Tame s (s.bring o a) :=
  .ofMemory (onlyMemory_bring s o a) fun w => State.wf_bring w o a

theorem tame_touch (s : State) (o : Owner) (alloc : Bool) (a : Nat) : Tame s (s.touch o alloc a) := by
  unfold State.touch
  split
  · exact tame_bring _ _ _
  · exact .refl s

theorem tame_touchRange (s : State) (o : Owner) (alloc : Bool) (a n : Nat) : Tame s (s.touchRange o alloc a n) :=
  .foldl (fun s _ => tame_touch s _ _ _) _ s

theorem tame_writeAs (s : State) (o : Owner) (alloc : Bool) (a : Nat) (b : Byte) : Tame s (s.writeAs o alloc a b) :=
  .ofMemory (onlyMemory_writeAs s o alloc a b) fun w => State.wf_writeAs w o alloc a b

theorem tame_writeByte (s : State) (c a : Nat) (b : Byte) : Tame s (s.writeByte c a b) := tame_writeAs s _ _ _ b

theorem tame_writeBytes (s : State) (c a : Nat) (bs : List Byte) : Tame s (s.writeBytes c a bs) := by
  induction bs generalizing s a with
  | nil => exact .refl s
  | cons b bs ih => exact (tame_writeByte s c a b).trans (ih _ _)

theorem tame_writeMasked (s : State) (c : Nat) (alloc : Bool) (a : Nat) (m : BitVec 16) (i : Nat) (bs : List Byte) :
    Tame s (s.writeMasked c alloc a m i bs) :=
  .ofMemory (onlyMemory_writeMasked s c alloc a m i bs) fun w => State.wf_writeMasked w c alloc a m i bs

theorem tame_ownPut (s : State) (o : Owner) (a : Nat) (b : Byte) : Tame s (s.ownPut o a b) := by
  unfold State.ownPut
  split
  · exact .same rfl rfl
  · exact tame_writeAs s _ _ _ b

theorem tame_ownWrite (s : State) (o : Owner) (a : Nat) (bs : List Byte) : Tame s (s.ownWrite o a bs) := by
  induction bs generalizing s a with
  | nil => exact .refl s
  | cons b bs ih =>
    unfold State.ownWrite
    split
    · exact (tame_ownPut s _ _ b).trans (ih _ _)
    · exact ih _ _

theorem tame_fwWrite (s : State) (a : Nat) (bs : List Byte) : Tame s (s.fwWrite a bs) := tame_ownWrite s _ a bs

theorem tame_vwrite (s : State) (c va : Nat) (bs : List Byte) : Tame s (s.vwrite c va bs) := by
  induction bs generalizing s va with
  | nil => exact .refl s
  | cons b bs ih =>
    unfold State.vwrite
    split
    · exact (tame_writeByte s c _ b).trans (ih _ _)
    · exact ih _ _

theorem tame_walkFor (s : State) (die c : Nat) (need : Need) (va : Nat) : Tame s (s.walkFor die c need va).1 := by
  unfold State.walkFor
  dsimp only
  split <;> exact .same rfl rfl

/-! Writes of the Kazlet. -/

theorem tame_subtract (s : State) (c f addr : Nat) : Tame s (s.subtract c f addr) := by
  unfold State.subtract
  split
  · dsimp only
    split
    · exact (tame_vwrite _ _ _ _).trans (tame_send _ _)
    · exact tame_vwrite _ _ _ _
  · exact .refl s

theorem tame_settle (s : State) (o : Owed) : Tame s (s.settle o) := by
  unfold State.settle
  dsimp only
  split
  · split
    · exact tame_report _ _
    · exact tame_report _ _
    · exact .refl s
  · split
    · exact tame_vwrite _ _ _ _
    · exact tame_subtract _ _ _ _

theorem tame_post (s : State) (o : Owed) : Tame s (s.post o) := by
  unfold State.post
  split
  · exact .same rfl rfl
  · exact tame_settle _ _

theorem tame_settleAll (l : List Owed) (s : State) : Tame s (State.settleAll l s) := by
  induction l generalizing s with
  | nil => exact .same rfl rfl
  | cons o l ih =>
    unfold State.settleAll
    split
    · exact .same rfl rfl
    · exact (tame_settle s o).trans (ih _)

/-! The end of grids and contexts. -/

theorem tame_decrement (s : State) (c f addr kid : Nat) : Tame s (s.decrement c f addr kid) := by
  unfold State.decrement
  split
  · exact .refl s
  · exact tame_post _ _

theorem tame_complete (s : State) (c : Nat) (copy : LaunchCopy) (x : Completion) : Tame s (s.complete c copy x) := by
  unfold State.complete
  refine Tame.trans ?_ (tame_decrement _ _ _ _ _)
  split
  · exact .refl s
  · exact tame_post _ _

theorem tame_advance (s : State) (q read : Nat) : Tame s (s.advance q read) := (tame_post _ _).after rfl rfl

theorem tame_leaveHead (s : State) (g : Grid) : Tame s (s.leaveHead g) := by
  unfold State.leaveHead
  split
  · exact tame_advance _ _ _
  · exact .same rfl rfl
  · exact .refl s

theorem tame_childDone (s : State) (p : Option Parent) : Tame s (s.childDone p) := by
  unfold State.childDone
  split
  · exact .same rfl rfl
  · exact .refl s

theorem tame_retireGrid (s : State) (seq result : Nat) (fault : BitVec 384) : Tame s (s.retireGrid seq result fault) := by
  unfold State.retireGrid
  split
  · exact .refl s
  · have e : Tame s { s with grids := s.grids.erase seq } := .onlyGrids (NumbersBelow.erase seq) rfl rfl
    dsimp only
    split
    · exact (e.trans (tame_complete _ _ _ _)).trans (tame_childDone _ _)
    · exact (((e.trans (tame_complete _ _ _ _)).trans (tame_childDone _ _)).trans (tame_complete _ _ _ _)).trans
        (tame_childDone _ _)

theorem tame_lastWrite (s : State) (x : LastPart) : Tame s (s.lastWrite x) := by
  unfold State.lastWrite
  dsimp only
  split
  · exact .refl s
  · split
    · exact tame_writeMasked _ _ _ _ _ _ _
    · split
      · exact .same rfl rfl
      · exact .refl s
    · exact .refl s

theorem tame_discard (s : State) (p : Workgroup → Bool) : Tame s (s.discard p) :=
  (Tame.foldl tame_lastWrite _ s).trans (.same rfl rfl)
theorem tame_poolStatus (s : State) (p code : Nat) : Tame s (s.poolStatus p code) := tame_fwWrite _ _ _
theorem tame_ladderEnd (s : State) (p code n : Nat) : Tame s (s.ladderEnd p code n) := tame_fwWrite _ _ _
theorem tame_stopContext (s : State) (c : Nat) : Tame s (s.stopContext c) := (tame_discard s _).trans (.same rfl rfl)

theorem tame_resetLadders (s : State) (c : Nat) : Tame s (s.resetLadders c) :=
  ((Tame.foldl (fun s _ => tame_ladderEnd s _ _ _) _ s).trans (Tame.foldl (fun s _ => tame_poolStatus s _ _) _ _)).trans
    (.same rfl rfl)

theorem tame_resetRung (s : State) (c : Nat) (r : Report) (o : Option Nat) : Tame s (s.resetRung c r o) :=
  ((tame_stopContext s c).trans (Tame.foldl (fun s _ => tame_retireGrid s _ _ _) _ _)).trans (tame_resetLadders _ _)

theorem tame_poolsDone (s : State) : Tame s s.poolsDone :=
  (Tame.foldl (fun s _ => tame_poolStatus s _ _) _ s).trans (.same rfl rfl)

theorem tame_dropAreas (s : State) (seq : Nat) : Tame s (s.dropAreas seq) :=
  (tame_poolsDone _).after rfl rfl

theorem tame_drained (s : State) : Tame s s.drained :=
  (Tame.foldl (fun s _ => tame_ladderEnd s _ _ _) _ s).trans (.same rfl rfl)

theorem tame_endGrid (s : State) (seq : Nat) (r : Report) : Tame s (s.endGrid seq r) :=
  (((tame_discard s _).trans (tame_retireGrid _ _ _ _)).trans (tame_dropAreas _ _)).trans (tame_drained _)

/-! Exceptions. -/

theorem tame_halt (s : State) (ks : List CrewKey) : Tame s (s.halt ks) := by
  induction ks generalizing s with
  | nil => exact .refl s
  | cons k ks ih =>
    unfold State.halt
    split
    · exact (tame_put _ _ _ _).trans (ih _)
    · exact ih _

theorem tame_afterFault (s : State) (w : Workgroup) (ks : List CrewKey) (r : Report) : Tame s (s.afterFault w ks r) := by
  unfold State.afterFault
  split
  · exact tame_endGrid _ _ _
  · split
    · exact tame_halt _ _
    · exact tame_resetRung _ _ _ _

theorem tame_raise (s : State) (k : CrewKey) (side : Side) (code : FaultCode) (detail : DWord) (stream : Stream)
    (inflight : Bool) (pc : Addr) : Tame s (s.raise k side code detail stream inflight pc) := by
  unfold State.raise
  split
  · exact .refl s
  · exact (tame_report _ _).trans (tame_afterFault _ _ _ _)

theorem tame_raiseWait (s : State) (k : CrewKey) : Tame s (s.raiseWait k) := by
  unfold State.raiseWait
  split
  · split
    · split
      · exact (tame_put _ _ _ _).trans (tame_raise _ _ _ _ _ _ _ _)
      · exact .refl s
    · exact .refl s
  · exact .refl s

theorem tame_raiseWaits (s : State) (wid : Nat) : Tame s (s.raiseWaits wid) := by
  unfold State.raiseWaits
  split
  · exact .foldl (fun s _ => tame_raiseWait s _) _ s
  · exact .refl s

/-! Results. -/

/-- For an issuer that is there, the result is a next state that keeps what no crew can change. -/
def Good (s : State) (r : Result) : Prop := ∀ w c, Issuing s w c → ∃ t, r = .next t ∧ Tame s t

theorem Good.next {s t : State} (h : Tame s t) : Good s (.next t) := fun _ _ _ => ⟨t, rfl, h⟩
theorem Good.stay (s : State) : Good s (.next s) := .next (.refl s)
theorem Good.put (s : State) (k : CrewKey) (w : Workgroup) (c : Crew) : Good s (.next (s.put k w c)) := .next (tame_put _ _ _ _)

theorem Good.putRaise (s : State) (k : CrewKey) (w : Workgroup) (c : Crew) (wid : Nat) :
    Good s (.next ((s.put k w c).raiseWaits wid)) := .next ((tame_put _ _ _ _).trans (tame_raiseWaits _ _))

theorem Good.acting {s : State} {f : Workgroup → Crew → Result} (h : ∀ w c, Good s (f w c)) : Good s (acting s f) := by
  intro w c hi
  rw [acting_of hi]
  exact h w c w c hi

theorem Good.trap (s : State) (code : FaultCode) (detail : DWord) : Good s (trap s code detail) := by
  intro w c hi
  rw [trap_of hi]
  exact ⟨_, rfl, tame_raise _ _ _ _ _ _ _ _⟩

theorem Good.trapsThen {s : State} {run : Result} (ts : List (Bool × FaultCode × DWord)) (h : Good s run) :
    Good s (trapsThen s run ts) := by
  induction ts with
  | nil => exact h
  | cons t ts ih =>
    obtain ⟨b, code, d⟩ := t
    cases b
    · exact ih
    · exact .trap s code d

theorem Good.ite {s : State} {p : Prop} [Decidable p] {a b : Result} (ha : Good s a) (hb : Good s b) :
    Good s (if p then a else b) := by
  split
  · exact ha
  · exact hb

end Sys2Proof.Machine
end

