-- ==== Sys2Proof/Laws/KeptScalar.lean ====
section
/-! SUPPORT. For an issuer that is there, each scalar instruction gives a next state that keeps what no crew can change. -/


namespace Sys2Proof.Machine

/-! Shared operations. -/

theorem good_simple (s : State) (srcs : List Reg) (n : Nat) (f : Crew → Crew) : Good s (simple s srcs n f) :=
  .acting fun _ _ => .ite (.put _ _ _ _) (.stay _)

theorem good_alu (s : State) (d : Reg) (srcs : List Reg) (f : Crew → Word) : Good s (alu s d srcs f) := good_simple _ _ _ _

theorem good_control (s : State) (srcs : List Reg) (f : Crew → Crew) : Good s (Machine.control s srcs f) :=
  .acting fun _ _ => .ite (.put _ _ _ _) (.stay _)

theorem good_waitFor (s : State) (srcs : List Reg) (f : Crew → Bool) : Good s (waitFor s srcs f) :=
  .acting fun _ _ => .ite (.put _ _ _ _) (.stay _)

theorem tame_holdAt (s : State) (k : CrewKey) (st : Stream) (joint : Bool) (code : FaultCode) (va : Nat) :
    Tame s (s.holdAt k st joint code va) := by
  unfold State.holdAt
  split
  · exact .refl s
  · exact (tame_put _ _ _ _).trans (tame_report _ _)

theorem tame_holdFetch (s : State) (k : CrewKey) (st : Stream) (code : FaultCode) (va : Nat) :
    Tame s (s.holdFetch k st code va) := tame_holdAt _ _ _ _ _ _

/-- The issuer of a state whose issuing crew has been replaced is the crew that replaced it. -/
theorem issuing_put {s : State} (w : Workgroup) (c : Crew) :
    Issuing (s.put s.cur.key w c) (w.putCrew s.cur.key.slot c) c := by
  simp only [Issuing, State.issuer, State.find, State.put, State.putWg, Workgroup.putCrew, SMap.find?_insert, if_true]

/-- Trapping once the issuing crew has been replaced. -/
theorem Good.trapPut (s : State) (w : Workgroup) (c : Crew) (code : FaultCode) (detail : DWord) :
    Good s (Machine.trap (s.put s.cur.key w c) code detail) := by
  intro _ _ _
  obtain ⟨t, e, h⟩ := Good.trap (s.put s.cur.key w c) code detail _ _ (issuing_put w c)
  exact ⟨t, e, (tame_put _ _ _ _).trans h⟩

theorem tame_walkShared (s : State) (but : Option (CrewKey × Nat)) (die c : Nat) (need : Need) (va : Nat) :
    Tame s (s.walkShared but die c need va).1 := by
  unfold State.walkShared
  have h := tame_walkFor s die c need va
  split
  · rename_i t code e; rw [e] at h; exact h.trans (.same rfl rfl)
  · rename_i t pa e; rw [e] at h; exact h.trans (.same rfl rfl)
  · exact h

theorem tame_standAt (s : State) (k : CrewKey) (st : Stream) (joint : Bool) (need : Need) (va : Nat) :
    Tame s (s.standAt k st joint need va) := by
  unfold State.standAt
  split
  · exact .refl s
  · rename_i w c _
    dsimp only
    split
    · exact tame_put _ _ _ _
    · have h := tame_walkShared (s.put k w { c with walking := c.walking.filter (fun x => decide (x.stream ≠ st)) }) none w.die w.ctx need va
      split
      · rename_i t code e; rw [e] at h; exact ((tame_put _ _ _ _).trans h).trans (tame_holdAt _ _ _ _ _ _)
      · rename_i t pa e; rw [e] at h; exact (tame_put _ _ _ _).trans h
      · exact .same rfl rfl

theorem tame_issueMiss (s : State) (k : CrewKey) (st : Stream) (need : Need) (va : Nat) : Tame s (s.issueMiss k st need va) :=
  tame_standAt _ _ _ _ _ _

theorem good_issueScalar (s : State) (w : Workgroup) (c : Crew) (a : Access) (n : Nat) (mark : Crew → Nat → Crew) :
    Good s (issueScalar s w c a n mark) := .ite (.put _ _ _ _) (.stay _)

theorem good_issueGated (s : State) (w : Workgroup) (c : Crew) (a : Access) (p : Part) (mark : Crew → Nat → Crew) :
    Good s (issueGated s w c a p mark) := by
  unfold issueGated
  split
  · exact .next (tame_issueMiss _ _ _ _ _)
  · exact .stay _
  · exact .next (tame_holdFetch _ _ _ _ _)
  · exact good_issueScalar _ _ _ _ _ _

/-! Control flow. -/

theorem good_jr (d a : Reg) (s : State) : Good s (execJr d a s) :=
  .acting fun _ _ => .ite (.stay _) (.ite (.trap _ _ _) (.put _ _ _ _))

/-! Memory, fences and waits. -/

theorem good_sld (d a : Reg) (off : BitVec 7) (cls : MemClass) (sc : Scope) (sz : BitVec 2) (s : State) :
    Good s (execSld d a off cls sc sz s) :=
  .acting fun _ _ => .ite (.stay _) (.trapsThen _ (good_issueGated _ _ _ _ _ _))

theorem good_sst (d a : Reg) (off : BitVec 7) (cls : MemClass) (sc : Scope) (sz : BitVec 2) (s : State) :
    Good s (execSst d a off cls sc sz s) :=
  .acting fun _ _ => .ite (.stay _) (.trapsThen _ (good_issueGated _ _ _ _ _ _))

theorem good_ldk (d a : Reg) (i : BitVec 14) (s : State) : Good s (execLdk d a i s) :=
  .acting fun _ _ => .ite (.stay _) (.trapsThen _ (good_issueScalar _ _ _ _ _ _))

theorem good_satom (d a b : Reg) (op : AtomOp) (sc : Scope) (wide : Bool) (s : State) :
    Good s (execSatom d a b op sc wide s) :=
  .acting fun _ _ => .ite (.stay _) (.trapsThen _ (good_issueGated _ _ _ _ _ _))

theorem good_fence (k : FenceKind) (sc : Scope) (s : State) : Good s (execFence k sc s) :=
  .acting fun _ _ => .ite (.put _ _ _ _) (.stay _)

theorem good_lsync (s : State) : Good s (execLsync s) := .acting fun _ _ => .ite (.put _ _ _ _) (.stay _)

theorem good_cpseal (d : Reg) (bar : Option (BitVec 4)) (s : State) : Good s (execCpseal d bar s) :=
  .acting fun _ _ => .ite (.trap _ _ _) (.ite (.stay _) (.ite (.trap _ _ _) (.ite (.stay _)
    (.ite (.put _ _ _ _) (.put _ _ _ _)))))

theorem good_cpwait (a : Reg) (n : BitVec 8) (s : State) : Good s (execCpwait a n s) :=
  .acting fun _ _ => .ite (.stay _) (.ite (.trap _ _ _) (.ite (.stay _) (.put _ _ _ _)))

theorem good_binit (o : BitVec 4) (a : Reg) (s : State) : Good s (execBinit o a s) :=
  .acting fun _ _ => .ite (.stay _) (.trapsThen _ (.put _ _ _ _))

theorem good_bexp (o : BitVec 4) (a b : Reg) (s : State) : Good s (execBexp o a b s) :=
  .acting fun _ _ => .ite (.stay _) (.trapsThen _ (.putRaise _ _ _ _ _))

theorem good_barr (o : BitVec 4) (s : State) : Good s (execBarr o s) :=
  .acting fun _ _ => .ite (.stay _) (.trapsThen _ (.put _ _ _ _))

theorem good_bwait (o : BitVec 4) (par : Bool) (s : State) : Good s (execBwait o par s) := by
  refine .acting fun w c => ?_
  dsimp only
  split
  · exact .ite (.trapPut _ _ _ _ _) (.ite (.put _ _ _ _) (.stay _))
  · exact .trapsThen _ (.ite (.put _ _ _ _) (.put _ _ _ _))

theorem good_btry (d : Reg) (o : BitVec 4) (par : Bool) (s : State) : Good s (execBtry d o par s) :=
  .acting fun _ _ => .trapsThen _ (.put _ _ _ _)

/-! Engines. -/

theorem good_tileIssue (s : State) (t : BitVec 4) (a b z : Reg) (m : BitVec 5) (bar : Option (BitVec 4)) (off : BitVec 16)
    (still : Grid → Crew → Bool) {run : Workgroup → Crew → List Formed → Result} (h : ∀ w c rows, Good s (run w c rows)) :
    Good s (tileIssue s t a b z m bar off still run) :=
  .acting fun _ _ => .ite (.stay _) (.trapsThen _ (h _ _ _))

theorem good_tload (t : BitVec 4) (a b z : Reg) (m : BitVec 5) (bar : Option (BitVec 4)) (off : BitVec 16) (s : State) :
    Good s (execTload t a b z m bar off s) :=
  good_tileIssue _ _ _ _ _ _ _ _ _ fun _ _ _ => .ite (.putRaise _ _ _ _ _) (good_issueScalar _ _ _ _ _ _)

theorem good_tstore (t : BitVec 4) (a b z : Reg) (m : BitVec 5) (off : BitVec 16) (s : State) :
    Good s (execTstore t a b z m off s) :=
  good_tileIssue _ _ _ _ _ _ _ _ _ fun _ _ _ => .ite (.put _ _ _ _) (good_issueScalar _ _ _ _ _ _)

theorem good_cbload (cb : BitVec 3) (a : Reg) (e : BitVec 2) (s : State) : Good s (execCbload cb a e s) :=
  .acting fun _ _ => .ite (.stay _) (.trapsThen _ (.ite (good_issueScalar _ _ _ _ _ _) (.stay _)))

theorem good_tagIssue (s : State) (srcs : List Reg) (a : Reg) (bad : Grid → Crew → Nat → Bool)
    {run : Grid → Workgroup → Crew → Nat → TagSet → Result} (h : ∀ g w c n t, Good s (run g w c n t)) :
    Good s (tagIssue s srcs a bad run) :=
  .acting fun _ _ => .ite (.stay _) (.trapsThen _ (h _ _ _ _ _))

theorem good_tlook (d a : Reg) (s : State) : Good s (execTlook d a s) := by
  refine good_tagIssue _ _ _ _ fun _ _ _ _ _ => ?_
  split <;> exact .put _ _ _ _

theorem good_tfill (d a b : Reg) (s : State) : Good s (execTfill d a b s) := by
  refine good_tagIssue _ _ _ _ fun _ _ _ _ _ => ?_
  dsimp only
  split <;> exact .put _ _ _ _

theorem good_tdrop (a : Reg) (s : State) : Good s (execTdrop a s) := good_tagIssue _ _ _ _ fun _ _ _ _ _ => .put _ _ _ _

theorem tame_mark (s : State) (w : Workgroup) (ls : List ArrayLine) : Tame s (s.mark w ls) := .same rfl rfl

theorem tame_bindAcc (s : State) (k : CrewKey) (w : Workgroup) (h : Nat) (pool : Bool) (c : Crew) :
    Tame s (s.bindAcc k w h pool c) := (tame_mark _ _ _).trans (tame_put _ _ _ _)

theorem good_aalloc (h : BitVec 5) (s : State) : Good s (execAalloc h s) :=
  .acting fun _ _ => .trapsThen _ (.next (tame_bindAcc _ _ _ _ _ _))

theorem good_agrow (d : Reg) (h : BitVec 5) (s : State) : Good s (execAgrow d h s) :=
  .acting fun _ _ => .trapsThen _ (.ite (.next (tame_bindAcc _ _ _ _ _ _)) (.put _ _ _ _))

theorem tame_endGrow (s : State) (k : CrewKey) (b : Bool) : Tame s (s.endGrow k b) := by
  unfold State.endGrow
  split
  · split
    · dsimp only
      split
      · exact tame_bindAcc _ _ _ _ _ _
      · exact tame_put _ _ _ _
    · exact .refl s
  · exact .refl s

theorem tame_offerBlocks (n : Nat) (s : State) (die core : Nat) : Tame s (State.offerBlocks n s die core) := by
  induction n generalizing s with
  | zero => exact .refl s
  | succ n ih =>
    unfold State.offerBlocks
    split
    · exact .refl s
    · split
      · exact (tame_endGrow _ _ _).trans (ih _)
      · exact .refl s

theorem tame_endContext (s : State) (c : Nat) (code : FaultCode) : Tame s (s.endContext c code) :=
  (tame_report _ _).trans (tame_resetRung _ _ _ _)

theorem tame_restore (s : State) (e : Area × Nat × Nat) : Tame s (s.restore e) := by
  unfold State.restore
  dsimp only
  split
  · exact .refl s
  · exact tame_endContext _ _ _
  · split
    · exact .same rfl rfl
    · exact .same rfl rfl

theorem tame_admitOn {s : State} {seq : Nat} {g : Grid} (h : s.grids.find? seq = some g) (die index core : Nat) :
    Tame s (s.admitOn seq g die index core) :=
  .onlyGrids (NumbersBelow.replace h rfl) rfl rfl

theorem tame_admitNext (s : State) (seq die : Nat) : Tame s (s.admitNext seq die) := by
  unfold State.admitNext
  split
  · exact .refl s
  · rename_i g h
    split
    · exact tame_admitOn h _ _ _
    · exact .refl s

theorem tame_offerSaved (s : State) (die core : Nat) : Tame s (s.offerSaved die core) := by
  refine Tame.trans (Tame.foldl (fun s e => ?_) _ s) (tame_poolsDone _)
  split
  · split
    · exact .foldl tame_restore _ _
    · exact .refl s
  · exact .refl s

theorem tame_offerIndex (die core : Nat) (s : State) (seq : Nat) : Tame s (State.offerIndex die core s seq) := by
  unfold State.offerIndex
  dsimp only
  split
  · exact tame_admitNext _ _ _
  · exact .refl s

/-- A core's offer changes neither memory's form nor what no crew can change. -/
theorem tame_offer (s : State) (die core : Nat) : Tame s (s.offer die core) :=
  ((tame_offerBlocks _ _ _ _).trans (tame_offerSaved _ _ _)).trans (.foldl (tame_offerIndex die core) _ _)

theorem good_afree (h : BitVec 5) (s : State) : Good s (execAfree h s) :=
  .acting fun _ _ => .ite (.trap _ _ _) (.ite (.put _ _ _ _) (.trapsThen _ (.next ((tame_put _ _ _ _).trans (tame_offer _ _ _)))))

/-! Control, launches and the system instructions. -/

theorem good_lrun (a : Reg) (off : Word) (s : State) : Good s (execLrun a off s) := by
  exact .acting fun _ _ => .ite (.stay _) (.put _ _ _ _)

theorem tame_setClock (s : State) (w : Workgroup) (v : DWord) : Tame s (s.setClock w v) := .same rfl rfl

theorem good_gets (d : Reg) (sp : Special) (s : State) : Good s (execGets d sp s) := by
  refine .acting fun w c => ?_
  split
  · exact .next ((tame_setClock _ _ _).trans (tame_put _ _ _ _))
  · exact .put _ _ _ _
  · exact .put _ _ _ _

theorem tame_devPublish (s : State) (ctx : Nat) (slot : DevSlot) : Tame s (s.devPublish ctx slot) :=
  (tame_post _ _).after rfl rfl

theorem good_launch (d a : Reg) (s : State) : Good s (execLaunch d a s) := by
  refine .acting fun w c => .ite (.stay _) (.trapsThen _ (.ite (.stay _) (.ite (.put _ _ _ _) ?_)))
  dsimp only
  split
  · exact .stay _
  · exact .next ((tame_devPublish _ _ _).trans (tame_put _ _ _ _))
  · exact .next ((tame_devPublish _ _ _).trans (tame_put _ _ _ _))

theorem good_exit (s : State) : Good s (execExit s) := by
  refine .acting fun w c => .ite (.stay _) ?_
  split <;> exact .put _ _ _ _

theorem good_cwait (s : State) : Good s (execCwait s) := .acting fun _ _ => .ite (.put _ _ _ _) (.put _ _ _ _)
theorem good_nop (s : State) : Good s (execNop s) := .acting fun _ _ => .put _ _ _ _

theorem good_bkpt (s : State) : Good s (execBkpt s) :=
  .acting fun _ _ => .ite (.next ((tame_report _ _).trans (tame_put _ _ _ _))) (.put _ _ _ _)

/-! Burrow. -/

theorem good_burrow (s : State) (d : Reg) (srcs : List Reg) (perm reserved : Workgroup → Crew → Context → Bool) (spoils : Bool)
    (run : Workgroup → Crew → Context → BurrowEnd) : Good s (burrow s d srcs perm reserved spoils run) := by
  refine .acting fun w c => .ite (.stay _) (.ite (.trap _ _ _) (.ite (.trap _ _ _) (.ite (.stay _) ?_)))
  split
  · exact .trap _ _ _
  · exact .put _ _ _ _
  · exact .next ((tame_put _ _ _ _).after rfl rfl)

/-! Key-value instructions. -/

theorem good_kvIssue {α : Type} (s : State) (r : KvRead α) {run : α → Result} (h : ∀ x, Good s (run x)) :
    Good s (kvIssue s r run) := by
  unfold kvIssue
  split
  · exact .next (tame_issueMiss _ _ _ _ _)
  · exact .stay _
  · exact .trap _ _ _
  · exact .next (tame_holdFetch _ _ _ _ _)
  · exact h _

theorem tame_touchAt (s : State) (w : Workgroup) (alloc : Bool) (reads : List (Nat × Nat)) :
    Tame s (s.touchAt w alloc reads) := by
  refine .foldl (fun s r => ?_) _ s
  split
  · exact tame_touchRange _ _ _ _ _
  · exact .refl s

/-- Issuing in a state in which lines have been read. -/
theorem good_issueAfter {s t : State} (h : Tame s t) (w : Workgroup) (c : Crew) (a : Access) (n : Nat)
    (mark : Crew → Nat → Crew) : Good s (issueScalar t w c a n mark) :=
  .ite (.next (h.trans (tame_put _ _ _ _))) (.next h)

theorem good_kvld (d a b r : Reg) (t : BitVec 4) (m : BitVec 5) (s : State) : Good s (execKvld d a b r t m s) :=
  .acting fun _ _ => .ite (.stay _) (.trapsThen _ (.ite (.stay _) (good_kvIssue _ _ fun _ =>
    good_issueAfter (tame_touchAt _ _ _ _) _ _ _ _ _)))

theorem good_kvapp (d a b r : Reg) (t : BitVec 4) (m : BitVec 5) (s : State) : Good s (execKvapp d a b r t m s) :=
  .acting fun _ _ => .ite (.stay _) (.trapsThen _ (.ite (.stay _) (.ite (.trap _ _ _) (good_kvIssue _ _ fun _ =>
    good_kvIssue _ _ fun _ => good_issueAfter (tame_touchAt _ _ _ _) _ _ _ _ _))))

theorem good_kvField (s : State) (srcs : List Reg) (a : Reg) (m : BitVec 5) (need : Need) (off : Nat) (data : Word)
    {run : Workgroup → Crew → Nat → List Part → Result} (h : ∀ w c n ps, Good s (run w c n ps)) :
    Good s (kvField s srcs a m need off data run) :=
  .acting fun _ _ => .ite (.stay _) (.trapsThen _ (good_kvIssue _ _ fun _ => h _ _ _ _))

theorem good_kvtrunc (a b : Reg) (m : BitVec 5) (s : State) : Good s (execKvtrunc a b m s) :=
  .acting fun _ _ => good_kvField _ _ _ _ _ _ _ fun _ _ _ _ => good_issueScalar _ _ _ _ _ _

theorem good_kvstep (d a : Reg) (m : BitVec 5) (s : State) : Good s (execKvstep d a m s) :=
  good_kvField _ _ _ _ _ _ _ fun _ _ _ _ => good_issueScalar _ _ _ _ _ _

end Sys2Proof.Machine
end

