-- ==== Sys2Proof/Laws/Lane.lean ====
section
/-! SUPPORT. What the frame of a lane instruction does when nothing keeps the instruction from acting, and what the shared
operations over it then write. -/

namespace Sys2Proof.Machine

/-- Ready, a lane instruction acts in its executing set. -/
theorem laneIssue_of {s : State} {p : LaneSpec} {f : LaneFields} {w : Workgroup} {c : Crew} (h : LaneReady s p f w c)
    (run : Workgroup → Crew → Mask → Result) : laneIssue s p f run = run w c (c.executing f) := by
  have hr : ([0, 1, 2, 3].any fun n => (operandAt p.instr f n).outOfRegs (s.regsOf w c) (p.group n)) = false := by
    simpa [List.any_eq_false] using h.inRange
  have hw : ([0, 1, 2, 3].any fun n => (operandAt p.instr f n).outOfWindow c (c.executing f) (p.group n)) = false := by
    simpa [List.any_eq_false] using h.inWindow
  have hs : ∀ n ∈ (if p.readsDest = true then [0, 1, 2, 3] else [1, 2, 3]),
      (operandAt p.instr f n).empty c (c.executing f) (p.group n) = false := by
    intro n hn
    split at hn
    · rename_i hd
      rcases List.mem_cons.mp hn with rfl | hn
      · exact h.destFull hd
      · exact h.sourcesFull n hn
    · exact h.sourcesFull n hn
  have he : ((if p.readsDest = true then [0, 1, 2, 3] else [1, 2, 3]).any fun n =>
      (operandAt p.instr f n).empty c (c.executing f) (p.group n)) = false :=
    List.any_eq_false.mpr fun n hn => by rw [hs n hn]; exact Bool.false_ne_true
  have ht : ((if p.readsDest = true then [0, 1, 2, 3] else [1, 2, 3]).any fun n =>
      (n != 0 && flag f.pol (n - 1)) && (operandAt p.instr f n).empty c (c.executing f) (p.group n)) = false :=
    List.any_eq_false.mpr fun n hn => by rw [hs n hn, Bool.and_false]; exact Bool.false_ne_true
  have hc : (p.collective && c.executing f != laneMask (s.width w)) = false := by
    cases hp : p.collective
    · rfl
    · simp [h.whole hp]
  unfold laneIssue
  rw [acting_of h.issuer]
  simp only [h.role, h.direct, hr, hw, he, ht, hc, h.active, Bool.or_self, if_false, Bool.false_eq_true]

/-- Passing on is that state, whether or not a structure is left open. -/
theorem passOn_eq (s : State) (w : Workgroup) (c : Crew) (f : LaneFields) : passOn s w c f = .next (Passed s w c f) := by
  unfold passOn Passed
  cases f.eor <;> cases hf : c.run.frames <;> simp [hf]

/-- An instruction that writes one value to each lane of its executing set, and does nothing else. -/
theorem laneMapL_result {con : LaneFields → Instr} {g : State → LaneFields → Workgroup → Crew → Nat → Word → Word → Word → Word}
    {val : State → Workgroup → Crew → LaneFields → Nat → Word}
    (hi : ∀ f s, exec (con f) s = laneMapL s (con f) f (g s f))
    (hv : ∀ s w c f l, g s f w c l ((operandAt (con f) f 1).value c l) ((sourceB (con f) f).value c l)
      ((operandAt (con f) f 3).value c l) = val s w c f l) : LaneResult con val := by
  intro s f w c h
  refine ⟨c.writeLanes (c.executing f) (destination (con f) f c) (val s w c f), lanesWritten_writeLanes _ _ _ _, ?_⟩
  rw [hi, laneMapL, laneIssue_of h]
  dsimp only
  rw [passOn_eq]
  congr 2
  exact congrArg _ (funext fun l => hv s w c f l)

/-- A comparison writes its predicate in the executing set. -/
theorem laneTest_result {con : LaneFields → Instr} {g : LaneFields → Word → Word → Bool} {val : Crew → LaneFields → Nat → Bool}
    (hi : ∀ f s, exec (con f) s = laneTest s (con f) f (g f))
    (hv : ∀ c f l, g f ((operandAt (con f) f 1).value c l) ((sourceB (con f) f).value c l) = val c f l) :
    PredicateResult con val := by
  intro s f w c h
  have bit : ∀ (p : Nat → Bool) (n l : Nat), l < n →
      flag (BitVec.ofNat 64 (((List.range n).map fun l => if p l then 2 ^ l else 0).sum)) l = (p l && decide (l < 64)) := by
    intro p n l hl
    have key : ∀ n, (((List.range n).map fun l => if p l then 2 ^ l else 0).sum < 2 ^ n)
        ∧ ∀ l, l < n → Nat.testBit (((List.range n).map fun l => if p l then 2 ^ l else 0).sum) l = p l := by
      intro n
      induction n with
      | zero => exact ⟨by simp, fun l hl => absurd hl (Nat.not_lt_zero l)⟩
      | succ n ih =>
        have e : ((List.range (n + 1)).map fun l => if p l then 2 ^ l else 0).sum
            = ((List.range n).map fun l => if p l then 2 ^ l else 0).sum + if p n then 2 ^ n else 0 := by
          rw [List.range_succ, List.map_append, List.sum_append]; simp
        rw [e]
        have hn : 2 ^ (n + 1) = 2 ^ n + 2 ^ n := by rw [Nat.pow_succ]; omega
        cases hp : p n
        · refine ⟨by simp only [Bool.false_eq_true, if_false]; omega, fun l hl => ?_⟩
          simp only [Bool.false_eq_true, if_false, Nat.add_zero]
          by_cases h : l = n
          · rw [h, hp]; exact Nat.testBit_lt_two_pow ih.1
          · exact ih.2 l (by omega)
        · refine ⟨by simp only [if_true]; omega, fun l hl => ?_⟩
          simp only [if_true]
          rw [Nat.add_comm]
          by_cases h : l = n
          · rw [h, hp, Nat.testBit_two_pow_add_eq, Nat.testBit_lt_two_pow ih.1]; rfl
          · rw [Nat.testBit_two_pow_add_gt (by omega : l < n)]; exact ih.2 l (by omega)
    rw [flag, BitVec.getLsbD_ofNat, (key n).2 l hl, Bool.and_comm]
  refine ⟨c.setPred f.dest.toNat (c.executing f) (BitVec.ofNat 64 (((List.range 64).map fun l =>
      if g f ((operandAt (con f) f 1).value c l) ((sourceB (con f) f).value c l) then 2 ^ l else 0).sum)),
    predicateWritten_setPred c (c.executing f) f.dest.toNat _ (val c f) (fun l hl _ => ?_), ?_⟩
  rotate_left
  · rw [hi, laneTest, laneIssue_of h]
    dsimp only
    rw [passOn_eq]
  · rw [bit _ 64 l hl, hv, decide_eq_true hl, Bool.and_true]

end Sys2Proof.Machine
end

