-- ==== Sys2Proof/Laws/Shared.lean ====
section
/-! SUPPORT. What the operations that several instructions and events share leave alone, and what they find: orders after a fence, shares
of a core's arrays, walks that end for all that wait for them, rows beyond the address space. -/

namespace Sys2Proof.Machine

/-! Orders. -/

theorem Crew.fencedOrder_rest (c : Crew) :
    { c.fencedOrder with orderS := c.orderS, orderL := c.orderL, orderW := c.orderW, orderX := c.orderX } = c := rfl

theorem Crew.mem_keepOrder {c : Crew} {old : List Nat} {p : Access → Bool} {id : Nat} :
    id ∈ c.keepOrder old p ↔ ∃ a ∈ c.flying, a.id = id ∧ a.done = false ∧ (p a = true ∨ id ∈ old) := by
  simp only [Crew.keepOrder, Crew.open_, List.mem_map, List.mem_filter, Bool.and_eq_true, Bool.not_eq_true', Bool.or_eq_true,
    List.contains_iff_mem]
  constructor
  · rintro ⟨a, ⟨ha, hd, hp⟩, rfl⟩; exact ⟨a, ha, rfl, hd, hp⟩
  · rintro ⟨a, ha, rfl, hd, hp⟩; exact ⟨a, ⟨ha, hd, hp⟩, rfl⟩

/-! Rows. -/

theorem farAddr_iff (a : DWord) : farAddr a = true ↔ 2 ^ 52 ≤ a.toNat := by
  simp only [farAddr, nfld, bne_iff_ne, ne_eq, BitVec.extractLsb'_toNat]
  omega

theorem Formed.farRow_iff (r : Formed) :
    r.farRow = true ↔ 2 ^ 52 ≤ r.addr.toNat ∨ ∃ i < 128, r.accessed i = true ∧ 2 ^ 52 ≤ r.addr.toNat + i := by
  simp [Formed.farRow, farAddr_iff]

/-! Lines of a core's arrays (R290). -/

theorem State.mark_rest (s : State) (w : Workgroup) (ls : List ArrayLine) : { s.mark w ls with tags := s.tags } = s := rfl

/-- After lines are marked, each of them carries the tag of the workgroup's context, and every other line the tag that it had. -/
theorem State.mark_tags (s : State) (w : Workgroup) (ls : List ArrayLine) (key : Nat) :
    (s.mark w ls).tags.find? key
      = if key ∈ ls.map w.lineKey then some ⟨w.ctx, (s.ctx w.ctx).secure⟩ else s.tags.find? key := by
  suffices h : ∀ m : SMap Tag, (ls.foldl (fun (m : SMap Tag) l => m.insert (w.lineKey l) ⟨w.ctx, (s.ctx w.ctx).secure⟩) m).find? key
      = if key ∈ ls.map w.lineKey then some ⟨w.ctx, (s.ctx w.ctx).secure⟩ else m.find? key from h s.tags
  induction ls with
  | nil => simp
  | cons l ls ih =>
    intro m
    rw [List.foldl_cons, ih, SMap.find?_insert]
    by_cases h1 : key ∈ ls.map w.lineKey <;> by_cases h2 : key = w.lineKey l <;> simp_all

theorem State.fillLine_rest (s : State) (wid line : Nat) : { s.fillLine wid line with tags := s.tags } = s := by
  unfold State.fillLine
  split
  · split <;> rfl
  · rfl

theorem State.freeShare_eq (s : State) (wid die core : Nat) :
    s.freeShare wid die core = ((List.range 512).find? (fun i =>
        !((s.residents die core).map (·.share)).contains (((Config.share s.tick wid).val + i) % 512))).elim 0
      (fun i => ((Config.share s.tick wid).val + i) % 512) := rfl

theorem State.freeShare_lt (s : State) (wid die core : Nat) : s.freeShare wid die core < 512 := by
  rw [State.freeShare_eq]
  generalize (List.range 512).find? _ = o
  cases o with
  | none => exact Nat.zero_lt_succ 511
  | some i => exact Nat.mod_lt _ (Nat.zero_lt_succ 511)

/-- Fewer than 512 numbers leave one below 512 free, counted from any place on. -/
theorem exists_free {held : List Nat} (h : held.length < 512) (b : Nat) : ∃ i < 512, (b + i) % 512 ∉ held := by
  by_contra! hn
  have hs : ((Finset.range 512).image (fun i => (b + i) % 512)) ⊆ held.toFinset := by
    intro x hx
    obtain ⟨i, hi, rfl⟩ := Finset.mem_image.1 hx
    exact List.mem_toFinset.2 (hn i (Finset.mem_range.1 hi))
  have hi : Set.InjOn (fun i => (b + i) % 512) (Finset.range 512) := by
    intro x hx y hy he
    simp only [Finset.coe_range, Set.mem_Iio] at hx hy he
    omega
  have := (Finset.card_le_card hs).trans held.toFinset_card_le
  rw [Finset.card_image_of_injOn hi, Finset.card_range] at this
  omega

/-- A core with fewer than 512 residents has a share for one more that none of them holds. -/
theorem State.freeShare_free {s : State} {wid die core : Nat} (h : (s.residents die core).length < 512) :
    ∀ w ∈ s.residents die core, w.share ≠ s.freeShare wid die core := by
  intro w hw
  rw [State.freeShare_eq]
  obtain ⟨i, hi, hfree⟩ := exists_free (held := (s.residents die core).map (·.share)) (by simpa using h) (Config.share s.tick wid).val
  cases hf : (List.range 512).find? (fun i => !((s.residents die core).map (·.share)).contains (((Config.share s.tick wid).val + i) % 512)) with
  | none => exact absurd (List.find?_eq_none.1 hf i (List.mem_range.2 hi)) (by simpa using hfree)
  | some j =>
    have hj := List.find?_some hf
    simp only [Bool.not_eq_true', List.contains_eq_mem, decide_eq_false_iff_not] at hj
    exact fun he => hj (List.mem_map.2 ⟨w, hw, he⟩)

/-! Walks that are shared (R326). -/

theorem find?_crewsOn (die c : Nat) (f : CrewKey → Workgroup → Crew → Crew) (wgs : SMap Workgroup) (k : Nat) :
    (crewsOn die c f wgs).find? k = (wgs.find? k).map (fun w =>
      if w.die = die ∧ w.ctx = c then { w with crews := w.crews.map (fun x => (x.1, f ⟨k, x.1⟩ w x.2)) } else w) := by
  induction wgs with
  | nil => rfl
  | cons e wgs ih =>
    obtain ⟨a, w⟩ := e
    simp only [crewsOn, List.map_cons] at ih ⊢
    by_cases ha : a = k
    · subst ha
      split <;> simp_all [SMap.find?]
    · split <;> simp_all [SMap.find?]

theorem State.walkShared_gives (s : State) (but : Option (CrewKey × Nat)) (die c : Nat) (need : Need) (va : Nat) :
    (s.walkShared but die c need va).2 = (s.walkFor die c need va).2 := by
  unfold State.walkShared
  split <;> simp_all

end Sys2Proof.Machine
end

