-- ==== Sys2Proof/Laws/Steps.lean ====
section
/-! SUPPORT. What a turn reads or waits for first (06 R137, 05 R109), and what the end of a step does (20 R318, 22 R350): the offers of
what it has freed. -/

namespace Sys2Proof.Machine

theorem tame_offerFreed (n : Nat) (s : State) : Tame s (s.offerFreed n) := by
  induction n generalizing s with
  | zero => exact .refl s
  | succ n ih =>
    unfold State.offerFreed
    split
    · exact .refl s
    · rename_i die core rest _
      have h : Tame s { s with freed := rest } := .same rfl rfl
      exact (h.trans (tame_offer _ die core)).trans (ih _)

theorem State.offerFreed_none (n : Nat) {s : State} (h : s.freed = []) : s.offerFreed n = s := by
  cases n with
  | zero => rfl
  | succ n => simp [State.offerFreed, h]

/-- A step that has freed nothing ends as its turn does. -/
theorem offered_none {s : State} (h : s.freed = []) : offered (.next s) = .next s := by
  rw [offered, State.offerFreed_none _ h]
  simp only [← h]

/-- After a turn nothing that it has freed is left to be offered. -/
theorem offered_freed {r : Result} {t : State} (h : offered r = .next t) : t.freed = [] := by
  cases r <;> simp only [offered] at h <;> cases h
  rfl

theorem good_offered {s : State} {r : Result} (h : Good s r) : Good s (offered r) := by
  intro w c hi
  obtain ⟨t, rfl, ht⟩ := h w c hi
  exact ⟨_, rfl, (ht.trans (tame_offerFreed _ _)).trans (.same rfl rfl)⟩

/-- A crew all of whose runs have been read has nothing to read on. -/
theorem Crew.readRun_none {g : Side → Nat → CodeWord} {form : Instr → Instr} {c : Crew} (h : ∀ r ∈ c.queue, r.rest = none) :
    c.readRun g form = c := by
  have hf : c.queue.find? (fun r => r.rest.isSome) = none := List.find?_eq_none.mpr fun r hr => by simp [h r hr]
  rw [Crew.readRun, hf]

/-- Marking a destination late touches that register and its tag alone. -/
theorem Crew.awaitLate_rest (c : Crew) (r : Run) (d : Nat) :
    { c.awaitLate r d with sreg := c.sreg, sTag := c.sTag } = c := by
  unfold Crew.awaitLate Crew.awaitS
  split <;> split <;> rfl

/-- An access of a crew waits for nothing that an order has put before it once that has been performed (R109). -/
theorem Crew.caughtUp_iff (c : Crew) (writes : Bool) : c.caughtUp writes = true
    ↔ ∀ a ∈ c.flying, a.done = true ∨ (a.id ∉ c.orderS ∧ (writes = true → a.id ∉ c.orderW)) := by
  unfold Crew.caughtUp Crew.open_
  rw [List.isEmpty_iff, List.map_eq_nil_iff, List.filter_eq_nil_iff]
  refine forall₂_congr fun a _ => ?_
  cases a.done <;> cases writes <;> simp

end Sys2Proof.Machine
end

