-- ==== Sys2Proof/Tests/Slice0.lean ====
section
/-! SUPPORT. Tests: words of the spec's encodings and what they decode to, terms that are not well formed, and for each
statement with hypotheses a small state and operands that meet them. -/

namespace Sys2Proof.Tests

set_option Elab.async false

open Machine

/-! Decoding. -/

/-- Lane fields under no guard, in an instruction that does not end its run. -/
def fields (dest : BitVec 8) (type subop : BitVec 4) (srcc srcb srca : BitVec 8) (p2 : Word) : LaneFields where
  dest := dest
  type := type
  sat := false
  pol := 0
  reuse := false
  eor := false
  gneg := false
  guard := 7
  subop := subop
  ixreg := 0
  isel := 0
  srcc := srcc
  srcb := srcb
  srca := srca
  p2 := p2

/-- Words composed from the tables of R124, R125. -/
theorem test_decode_alu :
    decodeWords [0x05428C00] = .ok (.add 20 10 12)
    ∧ decodeWords [0x05428C01] = .ok (.sub 20 10 12)
    ∧ decodeWords [0x05428C02] = .ok (.mul 20 10 12)
    ∧ decodeWords [0x05428C03] = .ok (.mulh 20 10 12)
    ∧ decodeWords [0x05428C04] = .ok (.mulhu 20 10 12)
    ∧ decodeWords [0x05428C05] = .ok (.div 20 10 12)
    ∧ decodeWords [0x05428C06] = .ok (.divu 20 10 12)
    ∧ decodeWords [0x05428C07] = .ok (.rem 20 10 12)
    ∧ decodeWords [0x05428C08] = .ok (.remu 20 10 12)
    ∧ decodeWords [0x05428C09] = .ok (.andR 20 10 12)
    ∧ decodeWords [0x05428C0A] = .ok (.orR 20 10 12)
    ∧ decodeWords [0x05428C0B] = .ok (.xorR 20 10 12)
    ∧ decodeWords [0x05428C0C] = .ok (.shl 20 10 12)
    ∧ decodeWords [0x05428C0D] = .ok (.shr 20 10 12)
    ∧ decodeWords [0x05428C0E] = .ok (.sra 20 10 12)
    ∧ decodeWords [0x05428C0F] = .ok (.min 20 10 12)
    ∧ decodeWords [0x05428C10] = .ok (.max 20 10 12)
    ∧ decodeWords [0x05428C11] = .ok (.minu 20 10 12)
    ∧ decodeWords [0x05428C12] = .ok (.maxu 20 10 12)
    ∧ decodeWords [0x05428C13] = .ok (.slt 20 10 12)
    ∧ decodeWords [0x05428C14] = .ok (.sltu 20 10 12)
    ∧ decodeWords [0x05428C15] = .ok (.seq 20 10 12)
    ∧ decodeWords [0x05428016] = .ok (.clz 20 10)
    ∧ decodeWords [0x05428017] = .ok (.popc 20 10)
    ∧ decodeWords [0x05428018] = .ok (.mov 20 10)
    ∧ decodeWords [0x05428C19] = .ok (.add64 20 10 12) := by
  and_intros <;> rfl

/-- Words composed from the tables of R124, R128. -/
theorem test_decode_immediate :
    decodeWords [0x0942BFFD] = .ok (.addi 20 10 0x3FFD)
    ∧ decodeWords [0x0D42BFFD] = .ok (.andi 20 10 0x3FFD)
    ∧ decodeWords [0x1142BFFD] = .ok (.ori 20 10 0x3FFD)
    ∧ decodeWords [0x1542BFFD] = .ok (.xori 20 10 0x3FFD)
    ∧ decodeWords [0x19428011] = .ok (.shli 20 10 17)
    ∧ decodeWords [0x1D428011] = .ok (.shri 20 10 17)
    ∧ decodeWords [0x21428011] = .ok (.srai 20 10 17)
    ∧ decodeWords [0x254ABCDE] = .ok (.lui 20 0xABCDE)
    ∧ decodeWords [0x29400000, 0x89ABCDEF] = .ok (.li 20 0x89ABCDEF)
    ∧ decodeWords [0x2D428C1C] = .ok (.sel 20 10 12 7)
    ∧ decodeWords [0x31428C05] = .ok (.lea 20 10 12 5) := by
  and_intros <;> rfl

/-- Words composed from the tables of R124, R128. -/
theorem test_decode_control :
    decodeWords [0x40A303FC] = .ok (.bcond .eq 10 12 0x3FC)
    ∧ decodeWords [0x40A307FC] = .ok (.bcond .ne 10 12 0x3FC)
    ∧ decodeWords [0x40A30BFC] = .ok (.bcond .lt 10 12 0x3FC)
    ∧ decodeWords [0x40A30FFC] = .ok (.bcond .ge 10 12 0x3FC)
    ∧ decodeWords [0x40A313FC] = .ok (.bcond .ltu 10 12 0x3FC)
    ∧ decodeWords [0x40A317FC] = .ok (.bcond .geu 10 12 0x3FC)
    ∧ decodeWords [0x46000001] = .ok (.jmp 0x2000001)
    ∧ decodeWords [0x48000005] = .ok (.jal 5)
    ∧ decodeWords [0x4C128000] = .ok (.jr 1 10)
    ∧ decodeWords [0x509003FC] = .ok (.loop 9 0x3FC)
    ∧ decodeWords [0x60020000, 0x00000012] = .ok (.lrun 8 0x12) := by
  and_intros <;> rfl

/-- Words composed from the tables of R54, R124, R126. -/
theorem test_decode_system :
    decodeWords [0x64400002] = .ok (.gets 4 .crew)
    ∧ decodeWords [0x64400006] = .ok (.gets 4 .wgx)
    ∧ decodeWords [0x6440000F] = .ok (.gets 4 .cycles)
    ∧ decodeWords [0x64400010] = .ok (.gets 4 .jcur)
    ∧ decodeWords [0x68000004] = .ok (.fence .rel .dev)
    ∧ decodeWords [0x68000014] = .ok (.fence .acq .dev)
    ∧ decodeWords [0x68000024] = .ok (.fence .ar .dev)
    ∧ decodeWords [0x68000046] = .ok (.drain .sys)
    ∧ decodeWords [0xFC000000] = .ok (.nop)
    ∧ decodeWords [0xFC000001] = .ok (.lsync)
    ∧ decodeWords [0xFC000002] = .ok (.exit)
    ∧ decodeWords [0xFC000003] = .ok (.cwait)
    ∧ decodeWords [0xFC000004] = .ok (.bkpt)
    ∧ decodeWords [0xF8000123] = .ok (.trap 0x123)
    ∧ decodeWords [0xDC430000] = .ok (.launch 4 12)
    ∧ decodeWords [0xB8028000] = .ok (.waitc .ld 10)
    ∧ decodeWords [0xB8028001] = .ok (.waitc .st 10)
    ∧ decodeWords [0xB8028002] = .ok (.waitc .cp 10)
    ∧ decodeWords [0xB8028003] = .ok (.waitc .tl 10)
    ∧ decodeWords [0xB8028004] = .ok (.waitc .ft 10) := by
  and_intros <;> rfl

/-- Words composed from the tables of R124, R127. -/
theorem test_decode_scalar_memory :
    decodeWords [0x81433FB2] = .ok (.sld 20 12 0x7F .strong .dev 2)
    ∧ decodeWords [0x854300C3] = .ok (.sst 20 12 1 .nt .crew 3)
    ∧ decodeWords [0x8942B001] = .ok (.ldk 20 10 0x3001)
    ∧ decodeWords [0x8D430308] = .ok (.satom 20 12 3 .add .dev false)
    ∧ decodeWords [0x8D430318] = .ok (.satom 20 12 3 .fadd .dev false)
    ∧ decodeWords [0x8D430328] = .ok (.satom 20 12 3 .min .dev false)
    ∧ decodeWords [0x8D430338] = .ok (.satom 20 12 3 .max .dev false)
    ∧ decodeWords [0x8D430348] = .ok (.satom 20 12 3 .minu .dev false)
    ∧ decodeWords [0x8D430358] = .ok (.satom 20 12 3 .maxu .dev false)
    ∧ decodeWords [0x8D430368] = .ok (.satom 20 12 3 .and .dev false)
    ∧ decodeWords [0x8D430378] = .ok (.satom 20 12 3 .or .dev false)
    ∧ decodeWords [0x8D430388] = .ok (.satom 20 12 3 .xor .dev false)
    ∧ decodeWords [0x8D430398] = .ok (.satom 20 12 3 .xchg .dev false)
    ∧ decodeWords [0x8D4303A8] = .ok (.satom 20 12 3 .cas .dev false) := by
  and_intros <;> rfl

/-- Words composed from the tables of R126, R128. -/
theorem test_decode_workgroup :
    decodeWords [0xA0028003] = .ok (.binit 3 10)
    ∧ decodeWords [0xA0028C23] = .ok (.bexp 3 10 12)
    ∧ decodeWords [0xA000004F] = .ok (.barr 15)
    ∧ decodeWords [0xA0000073] = .ok (.bwait 3 true)
    ∧ decodeWords [0xA1400083] = .ok (.btry 20 3 false)
    ∧ decodeWords [0xA4310510, 0x88C0FFFE] = .ok (.tload 3 4 5 6 2 (some 1) 0xFFFE)
    ∧ decodeWords [0xA8310510, 0x00C00001] = .ok (.tstore 3 4 5 6 2 1)
    ∧ decodeWords [0xAC900012] = .ok (.cpseal 9 (some 2))
    ∧ decodeWords [0xB00280FE] = .ok (.cpwait 10 0xFE)
    ∧ decodeWords [0xB4028015] = .ok (.cbload 5 10 2)
    ∧ decodeWords [0xC1428000] = .ok (.tlook 20 10)
    ∧ decodeWords [0xC1428C01] = .ok (.tfill 20 10 12)
    ∧ decodeWords [0xC0028002] = .ok (.tdrop 10)
    ∧ decodeWords [0xC400001F] = .ok (.aalloc 31)
    ∧ decodeWords [0xC5400051] = .ok (.agrow 20 17)
    ∧ decodeWords [0xC4000081] = .ok (.afree 1) := by
  and_intros <;> rfl

/-- Words composed from the tables of R126, R128. -/
theorem test_decode_population_and_sequences :
    decodeWords [0xC8028001] = .ok (.group 10 true)
    ∧ decodeWords [0xCC028033] = .ok (.join 19 true 10)
    ∧ decodeWords [0xD0028003] = .ok (.joinc 3 false 10)
    ∧ decodeWords [0xD5428C00] = .ok (.ssopen 20 10 12)
    ∧ decodeWords [0xD5428C60] = .ok (.sssnap 20 10 12)
    ∧ decodeWords [0xD5428C80] = .ok (.ssroll 20 10 12)
    ∧ decodeWords [0xD5428CA0] = .ok (.ssfork 20 10 12)
    ∧ decodeWords [0xD5428CC0] = .ok (.sscommit 20 10 12)
    ∧ decodeWords [0xD5428C29] = .ok (.ssld 20 10 12 9)
    ∧ decodeWords [0xD5428C49] = .ok (.ssst 20 10 12 9)
    ∧ decodeWords [0xD54280E0] = .ok (.ssclose 20 10)
    ∧ decodeWords [0xD9428C2A, 0x91C00000] = .ok (.kvld 20 10 12 7 9 21)
    ∧ decodeWords [0xD9428C6A, 0x91C00000] = .ok (.kvapp 20 10 12 7 9 21)
    ∧ decodeWords [0xD8028CAA, 0x00000000] = .ok (.kvtrunc 10 12 21)
    ∧ decodeWords [0xD94280EA, 0x00000000] = .ok (.kvstep 20 10 21) := by
  and_intros <;> rfl

/-- Words composed from the tables of R129, R133. -/
theorem test_decode_lane_integer :
    decodeWords [0x42101C01, 0x00002115, 0x00000000] = .ok (.iadd (fields 0x42 1 0 0 33 21 0x0))
    ∧ decodeWords [0x42101E01, 0x00000015, 0x80000001] = .ok (.iaddI (fields 0x42 1 0 0 0 21 0x80000001))
    ∧ decodeWords [0x42101C02, 0x00002115, 0x00000000] = .ok (.isub (fields 0x42 1 0 0 33 21 0x0))
    ∧ decodeWords [0x42101E02, 0x00000015, 0x80000001] = .ok (.isubI (fields 0x42 1 0 0 0 21 0x80000001))
    ∧ decodeWords [0x42101C03, 0x00002115, 0x00000000] = .ok (.imul (fields 0x42 1 0 0 33 21 0x0))
    ∧ decodeWords [0x42101E03, 0x00000015, 0x80000001] = .ok (.imulI (fields 0x42 1 0 0 0 21 0x80000001))
    ∧ decodeWords [0x42101C04, 0x00002115, 0x00000000] = .ok (.imulh (fields 0x42 1 0 0 33 21 0x0))
    ∧ decodeWords [0x42101E04, 0x00000015, 0x80000001] = .ok (.imulhI (fields 0x42 1 0 0 0 21 0x80000001))
    ∧ decodeWords [0x42101C05, 0x002C2115, 0x00000000] = .ok (.imad (fields 0x42 1 0 44 33 21 0x0))
    ∧ decodeWords [0x42001C06, 0x00002115, 0x00000000] = .ok (.imin (fields 0x42 0 0 0 33 21 0x0))
    ∧ decodeWords [0x42001E06, 0x00000015, 0x80000001] = .ok (.iminI (fields 0x42 0 0 0 0 21 0x80000001))
    ∧ decodeWords [0x42001C07, 0x00002115, 0x00000000] = .ok (.imax (fields 0x42 0 0 0 33 21 0x0))
    ∧ decodeWords [0x42001E07, 0x00000015, 0x80000001] = .ok (.imaxI (fields 0x42 0 0 0 0 21 0x80000001))
    ∧ decodeWords [0x42101C08, 0x00000015, 0x00000000] = .ok (.iabs (fields 0x42 1 0 0 0 21 0x0))
    ∧ decodeWords [0x42101C09, 0x00000015, 0x00000000] = .ok (.ineg (fields 0x42 1 0 0 0 21 0x0))
    ∧ decodeWords [0x05101C0A, 0x30002115, 0x00000000] = .ok (.iset (fields 0x5 1 3 0 33 21 0x0))
    ∧ decodeWords [0x05101E0A, 0x30000015, 0x80000001] = .ok (.isetI (fields 0x5 1 3 0 0 21 0x80000001)) := by
  and_intros <;> rfl

/-- Words composed from the tables of R129, R132, R133. -/
theorem test_decode_lane_logic :
    decodeWords [0x42001C10, 0x00002115, 0x00000000] = .ok (.land (fields 0x42 0 0 0 33 21 0x0))
    ∧ decodeWords [0x42001E10, 0x00000015, 0x80000001] = .ok (.landI (fields 0x42 0 0 0 0 21 0x80000001))
    ∧ decodeWords [0x42001C11, 0x00002115, 0x00000000] = .ok (.lor (fields 0x42 0 0 0 33 21 0x0))
    ∧ decodeWords [0x42001E11, 0x00000015, 0x80000001] = .ok (.lorI (fields 0x42 0 0 0 0 21 0x80000001))
    ∧ decodeWords [0x42001C12, 0x00002115, 0x00000000] = .ok (.lxor (fields 0x42 0 0 0 33 21 0x0))
    ∧ decodeWords [0x42001E12, 0x00000015, 0x80000001] = .ok (.lxorI (fields 0x42 0 0 0 0 21 0x80000001))
    ∧ decodeWords [0x42001C13, 0x00000015, 0x00000000] = .ok (.lnot (fields 0x42 0 0 0 0 21 0x0))
    ∧ decodeWords [0x42001C14, 0x00002115, 0x00000000] = .ok (.andn (fields 0x42 0 0 0 33 21 0x0))
    ∧ decodeWords [0x42001E14, 0x00000015, 0x80000001] = .ok (.andnI (fields 0x42 0 0 0 0 21 0x80000001))
    ∧ decodeWords [0x42001C15, 0x002C2115, 0x000000CA] = .ok (.lop (fields 0x42 0 0 44 33 21 0xca))
    ∧ decodeWords [0x42001C16, 0x00002115, 0x00000000] = .ok (.lshl (fields 0x42 0 0 0 33 21 0x0))
    ∧ decodeWords [0x42001E16, 0x00000015, 0x80000001] = .ok (.lshlI (fields 0x42 0 0 0 0 21 0x80000001))
    ∧ decodeWords [0x42001C17, 0x00002115, 0x00000000] = .ok (.lshr (fields 0x42 0 0 0 33 21 0x0))
    ∧ decodeWords [0x42001E17, 0x00000015, 0x80000001] = .ok (.lshrI (fields 0x42 0 0 0 0 21 0x80000001))
    ∧ decodeWords [0x42001C18, 0x00002115, 0x00000000] = .ok (.lsra (fields 0x42 0 0 0 33 21 0x0))
    ∧ decodeWords [0x42001E18, 0x00000015, 0x80000001] = .ok (.lsraI (fields 0x42 0 0 0 0 21 0x80000001))
    ∧ decodeWords [0x42001C19, 0x00002115, 0x00000000] = .ok (.rotl (fields 0x42 0 0 0 33 21 0x0))
    ∧ decodeWords [0x42001E19, 0x00000015, 0x80000001] = .ok (.rotlI (fields 0x42 0 0 0 0 21 0x80000001))
    ∧ decodeWords [0x42001C1A, 0x00000015, 0x00000000] = .ok (.lpopc (fields 0x42 0 0 0 0 21 0x0))
    ∧ decodeWords [0x42001C1B, 0x00000015, 0x00000000] = .ok (.lclz (fields 0x42 0 0 0 0 21 0x0))
    ∧ decodeWords [0x42001C1C, 0x00000015, 0x00000000] = .ok (.brev (fields 0x42 0 0 0 0 21 0x0))
    ∧ decodeWords [0x42001C1D, 0x002C2115, 0x00000000] = .ok (.bfe (fields 0x42 0 0 44 33 21 0x0))
    ∧ decodeWords [0x42001C1E, 0x002C2115, 0x00000000] = .ok (.bfi (fields 0x42 0 0 44 33 21 0x0))
    ∧ decodeWords [0x42001C1F, 0xF0002115, 0x00000000] = .ok (.llea (fields 0x42 0 15 0 33 21 0x0))
    ∧ decodeWords [0x42001E1F, 0xF0000015, 0x80000001] = .ok (.lleaI (fields 0x42 0 15 0 0 21 0x80000001))
    ∧ decodeWords [0x42001C20, 0x00032115, 0x00000000] = .ok (.lsel (fields 0x42 0 0 3 33 21 0x0))
    ∧ decodeWords [0x42001C21, 0x00000015, 0x00000000] = .ok (.lmov (fields 0x42 0 0 0 0 21 0x0))
    ∧ decodeWords [0x42001E22, 0x00000000, 0x12345678] = .ok (.movi (fields 0x42 0 0 0 0 0 0x12345678)) := by
  and_intros <;> rfl

/-- Words composed from the tables of R129, R132, R133. -/
theorem test_decode_lane_float :
    decodeWords [0x42201C30, 0x00002115, 0x00000000] = .ok (.fadd (fields 0x42 2 0 0 33 21 0x0))
    ∧ decodeWords [0x42201E30, 0x00000015, 0x80000001] = .ok (.faddI (fields 0x42 2 0 0 0 21 0x80000001))
    ∧ decodeWords [0x42201C31, 0x00002115, 0x00000000] = .ok (.fsub (fields 0x42 2 0 0 33 21 0x0))
    ∧ decodeWords [0x42201E31, 0x00000015, 0x80000001] = .ok (.fsubI (fields 0x42 2 0 0 0 21 0x80000001))
    ∧ decodeWords [0x42201C32, 0x00002115, 0x00000000] = .ok (.fmul (fields 0x42 2 0 0 33 21 0x0))
    ∧ decodeWords [0x42201E32, 0x00000015, 0x80000001] = .ok (.fmulI (fields 0x42 2 0 0 0 21 0x80000001))
    ∧ decodeWords [0x42201C33, 0x002C2115, 0x00000000] = .ok (.ffma (fields 0x42 2 0 44 33 21 0x0))
    ∧ decodeWords [0x42201C34, 0x00002115, 0x00000000] = .ok (.fmin (fields 0x42 2 0 0 33 21 0x0))
    ∧ decodeWords [0x42201E34, 0x00000015, 0x80000001] = .ok (.fminI (fields 0x42 2 0 0 0 21 0x80000001))
    ∧ decodeWords [0x42201C35, 0x00002115, 0x00000000] = .ok (.fmax (fields 0x42 2 0 0 33 21 0x0))
    ∧ decodeWords [0x42201E35, 0x00000015, 0x80000001] = .ok (.fmaxI (fields 0x42 2 0 0 0 21 0x80000001))
    ∧ decodeWords [0x05201C36, 0x20002115, 0x00000000] = .ok (.fset (fields 0x5 2 2 0 33 21 0x0))
    ∧ decodeWords [0x05201E36, 0x20000015, 0x80000001] = .ok (.fsetI (fields 0x5 2 2 0 0 21 0x80000001))
    ∧ decodeWords [0x42201C37, 0x00000015, 0x00000000] = .ok (.frcp (fields 0x42 2 0 0 0 21 0x0))
    ∧ decodeWords [0x42201C38, 0x00000015, 0x00000000] = .ok (.frsq (fields 0x42 2 0 0 0 21 0x0))
    ∧ decodeWords [0x42201C39, 0x00000015, 0x00000000] = .ok (.fsqrt (fields 0x42 2 0 0 0 21 0x0))
    ∧ decodeWords [0x42201C3A, 0x00000015, 0x00000000] = .ok (.fexp2 (fields 0x42 2 0 0 0 21 0x0))
    ∧ decodeWords [0x42201C3B, 0x00000015, 0x00000000] = .ok (.flog2 (fields 0x42 2 0 0 0 21 0x0))
    ∧ decodeWords [0x42201C3C, 0x00000015, 0x00000000] = .ok (.fclass (fields 0x42 2 0 0 0 21 0x0))
    ∧ decodeWords [0x42301C40, 0x00002115, 0x00000000] = .ok (.hadd2 (fields 0x42 3 0 0 33 21 0x0))
    ∧ decodeWords [0x42301E40, 0x00000015, 0x80000001] = .ok (.hadd2I (fields 0x42 3 0 0 0 21 0x80000001))
    ∧ decodeWords [0x42301C41, 0x00002115, 0x00000000] = .ok (.hmul2 (fields 0x42 3 0 0 33 21 0x0))
    ∧ decodeWords [0x42301E41, 0x00000015, 0x80000001] = .ok (.hmul2I (fields 0x42 3 0 0 0 21 0x80000001))
    ∧ decodeWords [0x42401C42, 0x002C2115, 0x00000000] = .ok (.hfma2 (fields 0x42 4 0 44 33 21 0x0))
    ∧ decodeWords [0x42201C48, 0x90000015, 0x0000000B] = .ok (.cvt (fields 0x42 2 9 0 0 21 0xb))
    ∧ decodeWords [0x42001C49, 0x10000015, 0x00000005] = .ok (.qnt (fields 0x42 0 1 0 0 21 0x5))
    ∧ decodeWords [0x42001C4A, 0x10000015, 0x00000005] = .ok (.dqt (fields 0x42 0 1 0 0 21 0x5)) := by
  and_intros <;> rfl

/-- Words composed from the tables of R129, R132, R133. -/
theorem test_decode_lane_cross :
    decodeWords [0x42001C50, 0x10002115, 0x00000000] = .ok (.route (fields 0x42 0 1 0 33 21 0x0))
    ∧ decodeWords [0x42001E50, 0x10000015, 0x80000001] = .ok (.routeI (fields 0x42 0 1 0 0 21 0x80000001))
    ∧ decodeWords [0x25001C51, 0x10000001, 0x00000000] = .ok (.vote (fields 0x25 0 1 0 0 1 0x0))
    ∧ decodeWords [0x25201C52, 0x00000015, 0x00000000] = .ok (.redux (fields 0x25 2 0 0 0 21 0x0))
    ∧ decodeWords [0x42001C53, 0x00000015, 0x00000000] = .ok (.scan (fields 0x42 0 0 0 0 21 0x0))
    ∧ decodeWords [0x42001C54, 0x00000015, 0x00000000] = .ok (.matchL (fields 0x42 0 0 0 0 21 0x0))
    ∧ decodeWords [0x05001C58, 0x00030201, 0x000000CA] = .ok (.plop (fields 0x5 0 0 3 2 1 0xca))
    ∧ decodeWords [0x03001C59, 0x00000015, 0x00000000] = .ok (.xset (fields 0x3 0 0 0 0 21 0x0))
    ∧ decodeWords [0x03001E59, 0x00000000, 0x80000001] = .ok (.xsetI (fields 0x3 0 0 0 0 0 0x80000001))
    ∧ decodeWords [0x03001C5A, 0x00000015, 0x00000000] = .ok (.xadd (fields 0x3 0 0 0 0 21 0x0))
    ∧ decodeWords [0x03001E5A, 0x00000000, 0x80000001] = .ok (.xaddI (fields 0x3 0 0 0 0 0 0x80000001))
    ∧ decodeWords [0x42001C5B, 0x00000002, 0x00000000] = .ok (.xget (fields 0x42 0 0 0 0 2 0x0))
    ∧ decodeWords [0x42001C5C, 0x0000000F, 0x00000000] = .ok (.getl (fields 0x42 0 0 0 0 15 0x0))
    ∧ decodeWords [0x42001C78, 0x00002115, 0x00250000] = .ok (.isect (fields 0x42 0 0 0 33 21 0x250000))
    ∧ decodeWords [0x42001C79, 0x00000000, 0x0000FFFF] = .ok (.rand (fields 0x42 0 0 0 0 0 0xffff))
    ∧ decodeWords [0x25201C7A, 0x002C2115, 0x00000004] = .ok (.sample (fields 0x25 2 0 44 33 21 0x4))
    ∧ decodeWords [0x42201C7B, 0x00000015, 0x00000005] = .ok (.topk (fields 0x42 2 0 0 0 21 0x5))
    ∧ decodeWords [0x25001C7C, 0x00002115, 0x00000000] = .ok (.accept (fields 0x25 0 0 0 33 21 0x0)) := by
  and_intros <;> rfl

/-- Words composed from the tables of R132, R134. -/
theorem test_decode_lane_memory :
    decodeWords [0x42301C60, 0x602C2115, 0x04FFF0AA] = .ok (.ld (fields 0x42 3 6 44 33 21 0x4fff0aa))
    ∧ decodeWords [0x42201C61, 0x40002115, 0x04FFF0AA] = .ok (.st (fields 0x42 2 4 0 33 21 0x4fff0aa))
    ∧ decodeWords [0x42201C62, 0xA02C2115, 0x040000A8] = .ok (.atom (fields 0x42 2 10 44 33 21 0x40000a8))
    ∧ decodeWords [0x42301C63, 0x202C2115, 0xA8FFF0A8] = .ok (.cpy (fields 0x42 3 2 44 33 21 0xa8fff0a8))
    ∧ decodeWords [0x42201C64, 0x00002115, 0x00FFF0A8] = .ok (.fetch (fields 0x42 2 0 0 33 21 0xfff0a8)) := by
  and_intros <;> rfl

/-- Words composed from the tables of R132, R133. -/
theorem test_decode_lane_control :
    decodeWords [0x00001C68, 0x10000001, 0x00000000] = .ok (.ifL (fields 0x0 0 1 0 0 1 0x0))
    ∧ decodeWords [0x00001C69, 0x00000000, 0x00000000] = .ok (.elseL (fields 0x0 0 0 0 0 0 0x0))
    ∧ decodeWords [0x00001C6A, 0x00000000, 0x00000000] = .ok (.fi (fields 0x0 0 0 0 0 0 0x0))
    ∧ decodeWords [0x00001C6B, 0x00000000, 0x00000000] = .ok (.doL (fields 0x0 0 0 0 0 0 0x0))
    ∧ decodeWords [0x00001C6C, 0x00000001, 0x00000000] = .ok (.whileL (fields 0x0 0 0 0 0 1 0x0))
    ∧ decodeWords [0x00001C6D, 0x00000001, 0x00000000] = .ok (.brk (fields 0x0 0 0 0 0 1 0x0))
    ∧ decodeWords [0x1E001C70, 0x10000302, 0x00000702] = .ok (.mma (fields 0x1e 0 1 0 3 2 0x702))
    ∧ decodeWords [0x1E001C71, 0x00000000, 0x00000000] = .ok (.accz (fields 0x1e 0 0 0 0 0 0x0))
    ∧ decodeWords [0x42001C72, 0x60000009, 0x00000000] = .ok (.accrd (fields 0x42 0 6 0 0 9 0x0))
    ∧ decodeWords [0x1E001C73, 0x50000015, 0x00000000] = .ok (.accwr (fields 0x1e 0 5 0 0 21 0x0))
    ∧ decodeWords [0x04001C74, 0x00000009, 0x00000003] = .ok (.acccvt (fields 0x4 0 0 0 0 9 0x3))
    ∧ decodeWords [0x00001C7F, 0x00000000, 0x00000000] = .ok (.lnop (fields 0x0 0 0 0 0 0 0x0)) := by
  and_intros <;> rfl

/-- The other fields of parcels 0 and 1 (R129), and IXE, IXOFF, KNUM and KSRC of parcel 2 (R132). -/
theorem test_decode_lane_header :
    decodeWords [0x421E7405, 0x06210000, 0xCC400000] = .ok (.imad
      { fields 0x42 1 0 0x21 0 0 0xCC400000 with sat := true, pol := 6, eor := true, gneg := true, guard := 5, ixreg := 1,
                                                 isel := 2 }) := rfl

/-- Words that R124, R125, R133 and R136 leave out, a reserved field and a code that is not defined. -/
theorem test_words_rejected :
    decodeWords [0] = .reject .unassigned ∧ decodeWords [0x0400001A] = .reject .unassigned
    ∧ decodeWords [0x04000116] = .reject .reserved ∧ decodeWords [0x40001800] = .reject .badCode
    ∧ decodeWords [0x04100019] = .reject .operand ∧ decodeWords [0x00001C00, 0, 0] = .reject .unassigned
    ∧ decodeWords [0x00001E05, 0, 0] = .reject .unassigned ∧ decodeWords [0x00281C0A, 0, 0] = .reject .operand
    ∧ decodeWords [0xA4310510, 0x08C00000] = .reject .reserved ∧ decodeWords [0xA4310510, 0x00C00000] = .ok (.tload 3 4 5 6 2 none 0) := by
  and_intros <;> rfl

/-! Terms that are not well formed: each operand limit of R42, R54, R127, R145, R146 and R163, and each check of R129 to R136. -/

theorem test_ill_formed_scalar :
    (Instr.add64 1 2 4).wf = false ∧ (Instr.add64 0 2 4).wf = false ∧ (Instr.add64 2 3 4).wf = false
    ∧ (Instr.add64 2 4 3).wf = false ∧ (Instr.sld 2 3 0 .weak .crew 2).wf = false ∧ (Instr.sld 3 2 0 .weak .crew 3).wf = false
    ∧ (Instr.sst 2 3 0 .weak .crew 2).wf = false ∧ (Instr.sst 3 2 0 .weak .crew 3).wf = false
    ∧ (Instr.satom 2 3 4 .add .dev false).wf = false ∧ (Instr.satom 3 2 4 .add .dev true).wf = false
    ∧ (Instr.satom 2 2 3 .add .dev true).wf = false ∧ (Instr.satom 2 2 4 .fadd .dev true).wf = false
    ∧ (Instr.gets 2 .tid).wf = false ∧ (Instr.gets 2 .lane).wf = false ∧ (Instr.gets 3 .cycles).wf = false
    ∧ (Instr.gets 0 .jcur).wf = false ∧ (Instr.loop 0 1).wf = false ∧ (Instr.lrun 57 0).wf = false
    ∧ (Instr.tlook 3 2).wf = false ∧ (Instr.tlook 2 3).wf = false ∧ (Instr.tfill 3 2 1).wf = false
    ∧ (Instr.tfill 2 3 1).wf = false ∧ (Instr.tdrop 3).wf = false ∧ (Instr.cbload 0 3 0).wf = false
    ∧ (Instr.group 3 false).wf = false ∧ (Instr.join 0 false 3).wf = false ∧ (Instr.joinc 0 false 3).wf = false
    ∧ (Instr.launch 0 3).wf = false ∧ (Instr.kvld 3 0 0 0 0 0).wf = false ∧ (Instr.kill 0).wf = false := by
  and_intros <;> rfl

theorem test_ill_formed_lane :
    (Instr.iadd (fields 1 2 0 0 3 2 0)).wf = false                                        -- TYPE
    ∧ (Instr.imulh { fields 1 0 0 0 3 2 0 with sat := true }).wf = false                  -- SAT
    ∧ (Instr.iadd { fields 1 0 0 0 3 2 0 with reuse := true }).wf = false                 -- REUSE
    ∧ (Instr.iadd (fields 1 0 1 0 3 2 0)).wf = false                                      -- SUBOP
    ∧ (Instr.iset (fields 8 0 0 0 3 2 0)).wf = false                                      -- reserved bits of a P destination
    ∧ (Instr.lnop (fields 1 0 0 0 0 0 0)).wf = false                                      -- an unused destination
    ∧ (Instr.iadd (fields 1 0 0 1 3 2 0)).wf = false                                      -- an unused source
    ∧ (Instr.plop { fields 1 0 0 3 2 1 0 with pol := 1 }).wf = false                      -- POL of a source that is no V
    ∧ (Instr.iadd { fields 1 0 0 0 3 2 0 with ixreg := 1 }).wf = false                    -- IXREG without IXE
    ∧ (Instr.iadd { fields 1 0 0 0 3 2 0x80000000 with isel := 3 }).wf = false            -- ISEL of an unused source
    ∧ (Instr.iadd (fields 1 0 0 0 3 0 0x00C00000)).wf = false                             -- KSRC of an unused source
    ∧ (Instr.iadd (fields 1 0 0 0 3 2 0x01000000)).wf = false                             -- KNUM without KSRC
    ∧ (Instr.iadd (fields 1 0 0 0 3 2 1)).wf = false                                      -- LUT of no truth table
    ∧ (Instr.ld (fields 1 0 4 0 0 2 0)).wf = false                                        -- NC of 0
    ∧ (Instr.ld (fields 1 1 7 0 0 2 0)).wf = false                                        -- a size that is not defined
    ∧ (Instr.ld (fields 1 1 4 0 0 2 0x07000000)).wf = false                               -- SCOPE 7
    ∧ (Instr.ld (fields 1 1 4 0 0 2 6)).wf = false                                        -- CLASS 3
    ∧ (Instr.cpy (fields 1 1 7 0 0 2 0)).wf = false                                       -- .cb towards global memory
    ∧ (Instr.ifL { fields 0 0 0 0 0 1 0 with guard := 1 }).wf = false                     -- a guarded IF
    ∧ (Instr.cvt (fields 1 2 13 0 0 2 0)).wf = false                                      -- a destination type above 12
    ∧ (Instr.cvt (fields 1 2 0 0 0 2 0x100)).wf = false := by                             -- FB outside MMA
  decide

/-! Small machines: one crew of a unified role, 4 live lanes of 32, in a context whose first 64 KiB are translated. -/

/-- A live crew at address 0, everything empty. -/
def solo : Crew := { (default : Crew) with role := 3, status := .live, live := 0xF, nextId := 1 }

/-- The crew with three scalar registers written: s2 = 8, s3 = 0, s4 = 1. -/
def soloRegs : Crew := { solo with sreg := [(2, 8), (4, 1)] }

/-- Its workgroup. -/
def home (c : Crew) : Workgroup := { (default : Workgroup) with idem := true, crews := [(0, c)] }

/-- The machine in which a stream of the crew acts. -/
def small (stream : Stream) (c : Crew) : State :=
  { State.reset.withCrew with cur := ⟨⟨0, 0⟩, stream⟩, wgs := [(0, home c)] }

theorem test_small_issuing (stream : Stream) (c : Crew) : Issuing (small stream c) (home c) c := rfl

theorem test_small_find (stream : Stream) (c : Crew) : (small stream c).find ⟨0, 0⟩ = some (home c, c) := rfl

/-- The grid of the small machine. -/
def smallGrid : Grid := { (default : Grid) with copy := { (default : LaunchCopy) with record := placedRecord } }

theorem small_grids (stream : Stream) (c : Crew) : (small stream c).grids = [(0, smallGrid)] := rfl

/-- One grid of number 0, and the next number 1. -/
theorem one_below {s : State} {g : Grid} (hg : s.grids = [(0, g)]) (hf : g.fused = none) (hs : s.seq = 1) : NumbersBelow s := by
  unfold NumbersBelow
  rw [hg]
  refine ⟨List.pairwise_singleton _ _, fun e he => ?_⟩
  rw [List.mem_singleton.mp he, hs]
  exact ⟨Nat.zero_lt_one, fun f h => absurd (hf.symm.trans h) (Option.some_ne_none f).symm⟩

/-! Witnesses for the statements about the machine as a whole. -/

/-- A step with its premises: MemoryStaysCanonical, AcceptanceNumbersStayBelow, MessagesAreNeverWithdrawn. -/
theorem test_meets_invariants :
    let s := { small .scalar solo with seq := 1, boot := .recovery, agenda := [.scalar ⟨0, 0⟩] }
    MemoryCanonical s ∧ WholeLines s ∧ NumbersBelow s ∧ ∃ t, step s = .next t :=
  ⟨⟨.nil, nofun⟩, rfl, one_below rfl rfl rfl, _, rfl⟩

theorem test_meets_CrewsCannotTouchSystemTables :
    Issued .nop ∧ ∃ t, exec .nop (small .scalar solo) = .next t := ⟨rfl, _, rfl⟩

theorem test_meets_DecodeReadsWhatEncodeWrites : (Instr.add 63 0 63).wf = true := rfl

/-- A NOP, an undecodable word, a long instruction and a lane instruction at address 0. -/
def fetching (w : Nat) (turn : Turn) (c : Crew) : State :=
  { (small .scalar c).placeBytes 12 w with agenda := [turn] }

theorem test_meets_StepRuns_short :
    let s := fetching 0xFC000000 (.scalar ⟨0, 0⟩) solo
    s.boot = .done ∧ s.find ⟨0, 0⟩ = some (home solo, solo) ∧ (s.gridOf (home solo)).fused = none
    ∧ s.mayIssue (home solo) solo .scalar = true ∧ solo.scalarBusy = false ∧ s.xlate 0 0 .ex solo.pc.toNat = .ok 0
    ∧ isLongMajor (wMajor (BitVec.ofNat 32 (leNat (s.readBytes 0 0 4)))).toNat = false
    ∧ decodeWords [BitVec.ofNat 32 (leNat (s.readBytes 0 0 4))] = .ok .nop := by
  decide

theorem test_meets_StepRuns_reject :
    let s := fetching 0 (.scalar ⟨0, 0⟩) solo
    s.mayIssue (home solo) solo .scalar = true ∧ s.xlate 0 0 .ex solo.pc.toNat = .ok 0
    ∧ decodeWords [BitVec.ofNat 32 (leNat (s.readBytes 0 0 4))] = .reject .unassigned := by
  decide

theorem test_meets_StepRuns_long :
    let s := fetching 0x0000002A28100000 (.scalar ⟨0, 0⟩) solo
    s.mayIssue (home solo) solo .scalar = true ∧ s.xlate 0 0 .ex solo.pc.toNat = .ok 0
    ∧ isLongMajor (wMajor (BitVec.ofNat 32 (leNat (s.readBytes 0 0 4)))).toNat = true ∧ s.xlate 0 0 .ex (solo.pc + 4).toNat = .ok 4
    ∧ decodeWords [BitVec.ofNat 32 (leNat (s.readBytes 0 0 4)), BitVec.ofNat 32 (leNat (s.readBytes 0 4 4))] = .ok (.li 1 42) := by
  decide

/-- SETP with a reserved bit, in two words. -/
theorem test_meets_StepRuns_long_reject :
    let s := fetching 0x0000002A28100001 (.scalar ⟨0, 0⟩) solo
    isLongMajor (wMajor (BitVec.ofNat 32 (leNat (s.readBytes 0 0 4)))).toNat = true
    ∧ ∃ r, decodeWords [BitVec.ofNat 32 (leNat (s.readBytes 0 0 4)), BitVec.ofNat 32 (leNat (s.readBytes 0 4 4))] = .reject r :=
  ⟨by decide, _, rfl⟩

/-- The crew with a run in progress at address 0, its four lanes active. -/
def running : Crew :=
  { solo with queue := [⟨0, List.replicate 8 0, 0, [], .producer, none, []⟩],
              prog := some { pc := 0, active := 0xF, frames := [], results := [], ended := false } }

/-- A crew with no run, one whose run has been read, and one whose run is read on; room given up in one core and in none. -/
theorem test_meets_StepRuns_read :
    let s := fetching 0xFC000000 (.scalar ⟨0, 0⟩) solo
    let u := ({ s with freed := [] }).offer 0 0
    solo.readRun (s.codeWord (home solo)) ((s.gridOf (home solo)).laneForm solo) = solo
    ∧ (∀ r ∈ running.queue, r.rest = none) ∧ (∃ r ∈ [(⟨0, [], 0, [], .producer, some 16, []⟩ : Run)], r.rest ≠ none)
    ∧ ({ s with freed := [(0, 0)] }).freed = [(0, 0)] ∧ u.freed = [] ∧ s.freed = [] ∧ ∃ t, step s = .next t :=
  ⟨rfl, by decide, by decide, rfl, by decide +kernel, rfl, _, rfl⟩

theorem test_meets_StepRuns_lane :
    let s := fetching 0x00005C7F (.lane ⟨0, 0⟩) running
    let word := fun (pa : Nat) => BitVec.ofNat 32 (leNat (s.readBytes 0 pa 4))
    s.mayIssue (home running) running .lane = true ∧ s.xlate 0 0 .ex 0 = .ok 0 ∧ s.xlate 0 0 .ex 4 = .ok 4
    ∧ s.xlate 0 0 .ex 8 = .ok 8 ∧ running.run.past = false ∧ running.run.pc.toNat + 12 ≤ 2 ^ 52
    ∧ ({ running.run with past := true }).past = true ∧ ∃ f, decodeWords ([0, 4, 8].map word) = .ok (.lnop f) :=
  ⟨by decide, by decide, by decide, by decide, rfl, by decide, rfl, _, rfl⟩

/-- Three parcels with an opcode that no row has. -/
theorem test_meets_StepRuns_lane_reject :
    let s := fetching 0x000000FF (.lane ⟨0, 0⟩) running
    ∃ r, decodeWords ([0, 4, 8].map (fun (pa : Nat) => BitVec.ofNat 32 (leNat (s.readBytes 0 pa 4)))) = .reject r := ⟨_, rfl⟩

/-- Two bytes of one line of HBM: its first and its last. -/
theorem test_meets_WritesAreReadByTheirContextAlone :
    WholeLines State.reset ∧ State.reset.secureAt 0 = false ∧ State.reset.isLocal 0 = true ∧ State.reset.isLocal 255 = true
    ∧ 255 / 256 = 0 / 256 ∧ (1 : Nat) ≠ 0 ∧ State.reset.takesLine (0 / 256) = true :=
  ⟨rfl, rfl, rfl, rfl, rfl, Nat.one_ne_zero, rfl⟩

/-- The last byte of a read in a secure region, and the first byte above HBM. -/
theorem test_meets_HostCannotReachTheSecureWorld :
    let s := { State.reset with regions := [(0, ⟨true, true, 0x10000, 0x1FFFF⟩)] }
    s.downLinks.contains 0 = false ∧ 3 < opBytes (.read 4) ∧ s.secureAt (0xFFFD + 3) = true ∧ s.secureAt (0xFFFC + 3) = false
    ∧ (isHost 0xFFFD && isHost (0xFFFD + opBytes (.read 4) - 1)) = false ∧ s.isLocal (hbmBytes - 3 + 3) = false ∧ s.isLocal (hbmBytes - 4 + 3) = true := by
  decide

/-! Scalar instructions. -/

/-- Full sources, an empty one, and the corners of R142. -/
theorem test_meets_scalar_results :
    (∀ r ∈ [(2 : Reg), 4], soloRegs.full r = true) ∧ (∃ r ∈ [(2 : Reg), 4], (soloRegs.awaitS 4 0).full r = false)
    ∧ soloRegs.s 3 = 0 ∧ soloRegs.s 2 ≠ 0 ∧ soloRegs.allFull (pairOf 2 ++ pairOf 0) = true := by
  decide

/-- R142: -2^31 / -1, and remainders by zero. -/
theorem test_division_corners :
    BitVec.ofInt 32 ((0x80000000 : Word).toInt.tdiv (0xFFFFFFFF : Word).toInt) = 0x80000000
    ∧ BitVec.ofInt 32 ((0x80000000 : Word).toInt.tmod (0xFFFFFFFF : Word).toInt) = 0
    ∧ (divS 0x80000000 0xFFFFFFFF, divS 7 0, remS 7 0, remS 0xFFFFFFF9 2) = (0x80000000, 0xFFFFFFFF, 7, 0xFFFFFFFF) := by
  decide

theorem test_meets_ControlFlow :
    soloRegs.full 2 = true ∧ soloRegs.full 4 = true ∧ (soloRegs.s 2).toNat % 4 = 0 ∧ (soloRegs.s 4).toNat % 4 ≠ 0
    ∧ soloRegs.s 4 = 1 ∧ condHolds .lt (soloRegs.s 4) (soloRegs.s 2) = true ∧ condHolds .lt (soloRegs.s 2) (soloRegs.s 4) = false := by
  decide

/-- A crew that has nothing to wait for; WAITC at a threshold of 0 and of 63; no children. -/
theorem test_meets_ScalarSystemInstructionsComplete :
    let c := { solo with sreg := [(2, 63)] }
    c.drained = true ∧ (∀ x ∈ c.flying, x.done = true ∨ x.fenced = false) ∧ (∀ x ∈ c.flying, x.done = true ∨ fenceWaits .acq x = false)
    ∧ (∀ x ∈ c.flying, x.done = false → x.cls ≠ .nt) ∧ c.waitKids = none
    ∧ (∃ n ∈ ({ home c with children := [2], launched := 3 }).children, n < 3)
    ∧ ((small .scalar c).ctx 0).debug = false ∧ (({ small .scalar c with ctxs := [(0, { (default : Context) with debug := true })] }).ctx 0).debug = true ∧ c.full 3 = true ∧ c.queue = [] ∧ c.counter .st ≤ (c.s 3).toNat
    ∧ 63 ≤ (c.s 2).toNat ∧ ((small .scalar c).gridOf (home c)).fused = none ∧ (home c).children = []
    ∧ Special.core ≠ .cycles ∧ Special.core ≠ .jcur := by
  decide

theorem test_meets_TrapsTakeTheirException :
    (small .scalar solo).cur.stream = .scalar ∧ (small .lane running).cur.stream = .lane ∧ running.prog = some running.run := ⟨rfl, rfl, rfl⟩

/-- With DEBUG 1, and a crew that has halted. -/
theorem test_meets_DebugHaltsACrew :
    let s := { small .scalar solo with ctxs := [(0, { (default : Context) with valid := true, debug := true })] }
    s.find ⟨0, 0⟩ = some (home solo, solo) ∧ (s.ctx 0).debug = true ∧ FaultCode.illop ≠ .stpoison
    ∧ (∀ joint, (small .scalar { solo with status := .halted, joint := joint }).find ⟨0, 0⟩ =
        some (home { solo with status := .halted, joint := joint }, { solo with status := .halted, joint := joint })) :=
  ⟨rfl, rfl, by decide, fun _ => rfl⟩

theorem test_meets_WithoutDebug :
    let e : Nat × Workgroup := (1, { home solo with ctx := 1, seq := 5 })
    let s := { small .scalar solo with seq := 1, wgs := [(0, home solo), e] }
    (s.ctx 0).debug = false ∧ NumbersBelow s ∧ e ∈ s.wgs ∧ e.2.ctx ≠ (home solo).ctx
    ∧ (∀ g ∈ s.grids, g.2.ctx = 0 → (∀ p, g.2.parent = some p → p.wid ≠ e.1)
        ∧ ∀ f p, g.2.fused = some f → f.parent = some p → p.wid ≠ e.1) := by
  intro e s
  have hs : s.grids = [(0, smallGrid)] := small_grids .scalar solo
  have hn : NumbersBelow s := one_below hs rfl rfl
  have hd : (s.ctx 0).debug = false := rfl
  refine ⟨hd, hn, .tail _ (.head _), Nat.one_ne_zero, fun g hg _ => ?_⟩
  rw [hs] at hg
  have hp : smallGrid.parent = none := rfl
  have hf : smallGrid.fused = none := rfl
  rw [List.mem_singleton.mp hg]
  exact ⟨fun p h => absurd (hp.symm.trans h) (Option.some_ne_none p).symm,
    fun f p h => absurd (hf.symm.trans h) (Option.some_ne_none f).symm⟩

/-! Scalar memory: the first and the last word of the page, a misaligned address, and one with bit 52. -/

/-- s2:s3 = 0x8, s4:s5 = 0xFFF8, s6:s7 = 1, s8:s9 = 2^52. -/
def pairs : Crew := { solo with sreg := [(2, 8), (4, 0xFFF8), (6, 1), (9, 0x100000)] }

theorem test_meets_ScalarAccesses_issue :
    let s := small .scalar pairs
    pairs.allFull (pairOf 2 ++ pairOf 10 ++ [12, 10]) = true ∧ (pairs.s2 2 + BitVec.ofInt 64 ((0x7E : BitVec 7).toInt * 2 ^ 2)).toNat = 0
    ∧ s.xlate 0 0 .rd 0 = .ok 0 ∧ s.xlate 0 0 .wr 0 = .ok 0 ∧ s.xlate 0 0 .rw 0 = .ok 0 ∧ pairs.roomOn (some .ld) = true
    ∧ pairs.roomOn (some .st) = true ∧ (2 : BitVec 2) ≠ 3
    ∧ (pairs.s2 4).toNat % 8 = 0 ∧ s.xlate 0 0 .rd (pairs.s2 4).toNat = .ok 0xFFF8 ∧ s.xlate 0 0 .rw (pairs.s2 4).toNat = .ok 0xFFF8
    ∧ (pairs.s2 4).toNat < 2 ^ 52 ∧ pairs.allFull (pairOf 4 ++ pairOf 10 ++ pairOf 12) = true ∧ (10 : Reg) ≠ 0 := by
  decide

/-- The last word of a 4-byte argument block. -/
theorem test_meets_ScalarAccesses_ldk :
    let g := { (default : Grid) with copy := { (default : LaunchCopy) with args := [1, 2, 3, 4] } }
    let s := { small .scalar pairs with grids := [(0, g)] }
    let o := (pairs.s 3).toNat + (0 : BitVec 14).toNat
    pairs.full 3 = true ∧ (s.gridOf (home pairs)).fused = none ∧ o % 4 = 0 ∧ o + 4 ≤ (s.gridOf (home pairs)).copy.args.length := by
  decide

theorem test_meets_ScalarAccesses_trap :
    pairs.allFull (pairOf 6 ++ pairOf 10 ++ [12, 10]) = true ∧ (pairs.s2 6).toNat % 2 ^ 2 ≠ 0
    ∧ (pairs.s2 8).toNat % 2 ^ 2 = 0 ∧ 2 ^ 52 ≤ (pairs.s2 8).toNat := by
  decide

/-! Accesses in flight. -/

/-- A part for a word at an address of the first page. -/
def wordPart (a : Nat) : Part := { onePart a 4 0 0 with pa := some a }

/-- A crew with one access in flight, of number 1. -/
def flies (k : AccessKind) (p : Part) : Crew :=
  { solo with flying := [{ scalarAccess solo k .weak .dev [p] with id := 1 }], nextId := 2 }

/-- The premises of landing, for a kind. -/
def lands (k : AccessKind) (more : List Part) : Prop :=
  let a := { scalarAccess solo k .weak .dev (wordPart 8 :: more) with id := 1 }
  let c := { solo with flying := [a], nextId := 2 }
  let s := small .scalar c
  c.access 1 = some a ∧ a.parts.find? (fun q => q.unit + 256 * q.half == 0) = some (wordPart 8) ∧ (wordPart 8).held = none
  ∧ a.replay = false ∧ (∀ q ∈ c.pending, q.tag ≠ 1) ∧ a.mayPerform (c.before 1) (wordPart 8) = true ∧ a.inOrder (wordPart 8) = true
  ∧ s.quiesced (home c) = false ∧ s.spot (home c) a (wordPart 8) = .at 8

/-- Kinds of one part; a codebook with a second piece; the first row of a KVAPP, its LEN while that row is in flight, and alone. -/
theorem test_meets_AccessesLandByTheirEvent :
    (∀ k ∈ [AccessKind.load 4, .sload 2 2, .satom 2 .add false, .satom 0 .add false, .store, .kvtrunc 8, .kvstep 8 2,
      .atom .add true, .copyIn none, .copyOut none, .copyBook 0 4 none, .tload 0 none [], .tstore 0 [] [], .kvapp 8 1, .kvapp 8 0],
      lands k []) ∧ lands (.cbload 1 0 []) [{ wordPart 16 with unit := 1 }]
    ∧ (let row := { wordPart 8 with unit := 0 }
       let len := { wordPart 16 with unit := 1 }
       let a := { scalarAccess solo (.kvapp 8 1) .strong .dev [row, len] with id := 1 }
       a.parts.filter (fun q => q.unit == row.unit) = [row] ∧ row.pa = some 8 ∧ (∃ q ∈ a.parts, q.unit ≠ 1)
       ∧ ∀ q ∈ ({ a with parts := [len] }).parts, q.unit = 1) := by
  refine ⟨fun k hk => ?_, ⟨rfl, rfl, rfl, rfl, nofun, rfl, rfl, rfl, rfl⟩, rfl, rfl, ⟨_, .head _, by decide⟩, by decide⟩
  simp only [List.mem_cons, List.not_mem_nil, or_false] at hk
  rcases hk with rfl | rfl | rfl | rfl | rfl | rfl | rfl | rfl | rfl | rfl | rfl | rfl | rfl | rfl | rfl <;>
    exact ⟨rfl, rfl, rfl, rfl, nofun, rfl, rfl, rfl, rfl⟩

theorem test_meets_LandingWritesExactlyItsBytes :
    let p := { wordPart 8 with bytes := 0xF }
    WholeLines (small .scalar solo) ∧ (scalarAccess solo .store .weak .dev [p]).scratch = false ∧ p.size = 4 ∧ p.size ≤ 16
    ∧ (scalarAccess solo (.kvapp 8 1) .weak .dev [p]).scratch = false ∧ ({ p with unit := 1 }).unit = 1 ∧ p.unit ≠ 1
    ∧ ({ scalarAccess solo .store .weak .dev [p] with scratch := true }).scratch = true
    ∧ (let book := { onePart 8 1 0 4 with bytes := 1 }
       let a := { scalarAccess solo (.copyBook 0 4 none) .weak .dev [book] with id := 1 }
       a.scratch = false ∧ book.half = 0 ∧ book.size ≤ 16 ∧ book ∈ a.parts ∧ ({ solo with flying := [a] }).access 1 = some a
       ∧ (⟨1, []⟩ : Codebook).code = 1 ∧ 4 ≤ entryBytes 1 ∧ 8 ≤ entryBytes 1 ∧ ({ book with half := 1 }).half ≠ 0)
    ∧ p.bytes = 0xF ∧ 8 ≤ 11 ∧ 11 < 8 + p.size ∧ flag p.bytes (11 - 8) = true := by
  refine ⟨rfl, rfl, rfl, by decide, rfl, rfl, by decide, rfl, ⟨rfl, rfl, by decide, .head _, rfl, rfl, by decide,
    by decide, by decide⟩, rfl, by decide, by decide, rfl⟩

/-- Loads of every size, each by a part with all of its bytes, and the parts of other shapes. -/
theorem test_meets_Landing_sizes :
    let part := fun (n : Nat) => { wordPart 8 with size := n, bytes := BitVec.ofNat 16 (2 ^ n - 1) }
    let a := scalarAccess solo (.sload 2 0) .weak .dev [part 1]
    (∀ n ∈ [1, 2, 4, 8], (part n).bytes = BitVec.ofNat 16 (2 ^ (part n).size - 1)) ∧ a.scratch = false
    ∧ (∀ code ∈ [(0 : BitVec 2), 1, 2], code ≠ 3 ∧ (part (2 ^ code.toNat)).size = 2 ^ code.toNat ∧ (part (2 ^ code.toNat)).size ≤ 4)
    ∧ (part 8).size = 8 ∧ (62 : Reg).toNat % 2 = 0 ∧ (62 : Reg) ≠ 0 ∧ (1 : BitVec 4).toNat < 2 ∧ (part 16).size = 16
    ∧ (part 1).size = 1 ∧ (part 2).size = 2 ∧ (part 4).size = 4 := by decide

theorem test_meets_LandingFillsTheYoungestRegister :
    let c := flies (.sload 2 2) { wordPart 8 with bytes := 0xF }
    let q : Pending := ⟨7, pairWrites 4 5, []⟩
    let d := { solo with pending := [q], sTag := [(4, 7), (5, 7)] }
    let e := flies (.ldk 2) { wordPart 8 with bytes := 0xF }
    let x := { scalarAccess solo (.atom .add true) .weak .dev [{ wordPart 8 with bytes := 0xF }] with id := 1, scratch := true }
    (small .scalar c).find ⟨0, 0⟩ = some (home c, c) ∧ c.batches = [] ∧ (small .scalar e).find ⟨0, 0⟩ = some (home e, e) ∧ x.scratch = true
    ∧ (∀ p ∈ x.parts, p.bytes = BitVec.ofNat 16 (2 ^ p.size - 1)) ∧ (2 : Reg) ≠ 0 ∧ ({ wordPart 8 with unit := 63 }).unit < 64
    ∧ d.pending = [q] ∧ q.regs = pairWrites 4 5 ∧ q.lanes = [] ∧ d.access q.tag = none ∧ (4 : Reg) ≠ 0 ∧ (4 : Reg).toNat % 2 = 0
    ∧ d.sTag.find? (4 : Reg).toNat = some q.tag ∧ d.sTag.find? (4 : Reg).odd.toNat = some q.tag :=
  ⟨rfl, rfl, rfl, rfl, by decide, by decide, by decide, rfl, rfl, rfl, rfl, by decide, rfl, rfl, rfl⟩

/-! Engines. -/

/-- Records of the grid below: 0 unchecked bytes in rows of 128 (R82), 1 a key-value handle with its sequence table at 0x200, its
map at 0x100 and its tags at 0x400 (R96), 2 a dense fetch handle of 4 x 4 words (R85), 3 a relation of two rows of 8 bytes (R215). -/
def records : List (BitVec 256) :=
  [BitVec.ofNat 256 (3 <<< 62 + 128 <<< 128),
   BitVec.ofNat 256 (0x1000 + 0x30 <<< 56 + 0x100 <<< 64 + 0x200 <<< 128 + 0x400 <<< 180 + 1 <<< 232 + 1 <<< 248),
   BitVec.ofNat 256 (0x38 <<< 56 + 4 <<< 64 + 4 <<< 96 + 16 <<< 128 + 1 <<< 176),
   BitVec.ofNat 256 (3 <<< 62 + 2 <<< 64 + 8 <<< 128)]

/-- The record of State.withCrew with format slots 0 to 4 of FP32, E4M3, BF16 and the block formats 0x10 and 0x12, and a tag table of 4 sets. -/
def equipped : LaunchCopy :=
  { (default : LaunchCopy) with
      record := placedRecord ||| BitVec.ofNat 4096 (4 <<< (8 * 0x028) + 0x01 <<< 2048 + 0x04 <<< 2304 + 0x03 <<< 2560 + 0x50 <<< 2816 + 0x52 <<< 3072),
      bufs := records }

/-- A grid of it, not nested. -/
def equippedGrid : Grid := { (default : Grid) with copy := equipped }

/-- The small machine with that grid, a workgroup, and given bytes in the page, which here is one of host memory. -/
def rich (stream : Stream) (w : Workgroup) (m : Memory) : State :=
  { small stream solo with
      grids := [(0, equippedGrid)], wgs := [(0, w)], mem := m.map (fun e => (hostBase + e.1, e.2)),
      tlb := [⟨0, 0, { va := 0, pa := hostBase, size := 65536, rd := true, wr := true, ex := true }⟩] }

theorem test_rich_issuing (stream : Stream) (c : Crew) (m : Memory) : Issuing (rich stream (home c) m) (home c) c := rfl

/-- A run that has issued its last instruction, and an MMA to commit. -/
theorem test_meets_RunsAndEngines_run :
    let r : Run := ⟨0, [], 7, [2], .producer, none, []⟩
    let p : Progress := { pc := 0, active := 0xF, frames := [], results := [], ended := true }
    let c := { solo with queue := [r], prog := some p, sTag := [(2, 7)] }
    c.queue = r :: [] ∧ c.prog = some p ∧ p.ended = true ∧ c.mma = none ∧ (∀ a ∈ c.flying, a.done = true ∨ a.kind.fillsLanes = false)
    ∧ (∀ q ∈ c.pending, q.lanes = []) ∧ (∀ d ∈ r.dests, d < 64) ∧ 2 ∈ r.dests ∧ c.sTag.find? 2 = some r.tag :=
  ⟨rfl, rfl, rfl, rfl, List.forall_mem_nil _, List.forall_mem_nil _, by decide, .head _, rfl⟩

theorem test_meets_RunsAndEngines_mma :
    let m : MmaImage := ⟨fields 0 0 0 0 0 0 0, 0, [], [], [], [], [], [], false, false, false⟩
    let w := { home { solo with mma := some m } with accs := [(0, ⟨false, []⟩)] }
    (rich .lane w []).find ⟨0, 0⟩ = some (w, { solo with mma := some m }) ∧ m.unbound = false ∧ m.trapped = false ∧ m.replay = false
    ∧ w.accs.find? m.f.dest.toNat = some ⟨false, []⟩ ∧ ({ m with unbound := true }).unbound = true ∧ ({ m with trapped := true }).trapped = true
    ∧ solo.status = .live
    ∧ (3 : Slot).valid = true ∧ (7 : Slot).valid = true ∧ mmaPair (3 : Slot) (3 : Slot) = true ∧ mmaPair (7 : Slot) (7 : Slot) = true
    ∧ mmaInteger (3 : Slot).fmt (3 : Slot).fmt = false ∧ mmaInteger (7 : Slot).fmt (7 : Slot).fmt = true
    ∧ flag m.f.subop 1 = false ∧ nfld m.f.subop 1 1 = 0 ∧ nfld m.f.subop 0 1 = 0 :=
  ⟨rfl, rfl, rfl, rfl, rfl, rfl, rfl, rfl, by decide +kernel, by decide +kernel, by decide +kernel, by decide +kernel, by decide +kernel,
    by decide +kernel, rfl, rfl, rfl⟩

/-- The first row above a fetch handle's last: a lane that knows its addresses, one that has yet to read what they depend on, and both. -/
theorem test_meets_RunsAndEngines_fetch :
    let p := { onePart 0 4 0 4 with unit := 3, key := some 0 }
    let late := { onePart 0 4 0 4 with unit := 5 }
    let a := { scalarAccess solo (.fetch 2) .weak .dev [p] with id := 1 }
    let c := { solo with flying := [a] }
    let s := rich .lane (home c) []
    let both := { a with parts := [p, late] }
    c.access 1 = some a ∧ a.parts.find? (fun q => q.unit == 3) = some p ∧ p.held = none ∧ (∀ b ∈ c.before 1, b.done = true ∨ a.waitsFor b p = false)
    ∧ (s.gridOf (home c)).buf 2 = records.getD 2 0 ∧ p.key = some 0
    ∧ (∀ q ∈ a.parts, q.key ≠ none ∨ q.held ≠ none) ∧ (∃ q ∈ both.parts, q.key = none ∧ q.held = none)
    ∧ (∃ o, s.fetchOut (home c) (a.mayRead (c.before 1)) (records.getD 2 0) (BufRec.fetchForm (records.getD 2 0)
        (fld p.data 0 64).toInt (fld p.cmp 0 32).toInt 0) = .got o)
    ∧ late.key = none ∧ both.parts.find? (fun q => q.unit == 5) = some late ∧ late.held = none
    ∧ ∃ q, s.fetchKey (home c) (both.mayRead (({ c with flying := [both] }).before 1)) (records.getD 2 0) 2 (fld late.data 0 64).toInt
        (fld late.cmp 0 32).toInt (c.cursors.get 5) = .got q
      ∧ ∀ va ∈ (BufRec.fetchForm (records.getD 2 0) (fld late.data 0 64).toInt (fld late.cmp 0 32).toInt q.key).addrs (records.getD 2 0), va < 2 ^ 52 :=
  ⟨rfl, rfl, rfl, List.forall_mem_nil _, rfl, rfl, by decide, by decide, ⟨_, rfl⟩, rfl, rfl, rfl, _, rfl, List.forall_mem_nil _⟩

theorem test_meets_RunsAndEngines_kvld :
    let p := onePart 0 0 0 0
    let a := { scalarAccess solo (.kvld 2 1 [] 5) .strong .dev [p] with id := 1 }
    ({ solo with flying := [a] }).access 1 = some a ∧ a.kind = .kvld 2 1 [] 5 ∧ a.parts = p :: [] := ⟨rfl, rfl, rfl⟩

/-- Its pieces at the page's start, each of which may be performed. -/
theorem test_meets_RunsAndEngines_cbload :
    let a := { scalarAccess solo (.cbload 1 0 []) .weak .dev (bookParts 0 (entryBytes 0)) with id := 1 }
    let s := rich .scalar (home { solo with flying := [a] }) []
    ({ solo with flying := [a] }).access 1 = some a ∧ ∀ p ∈ a.parts, a.mayPerform (({ solo with flying := [a] }).before 1) p = true
      ∧ s.spot (home { solo with flying := [a] }) a p = .at (hostBase + p.addr) :=
  ⟨rfl, by decide +kernel⟩

/-! Barriers, batches, tiles, codebooks, tags, accumulators. -/

/-- Expected counts of 1, 4095, 0 and 4096; an object in each phase, one not valid, one that overflowed. -/
theorem test_meets_BarrierObjects :
    let c := { solo with sreg := [(2, 1), (4, 4095), (6, 4096)] }
    let w := { home c with bars := [(0, ⟨0, 0, true, false, false, 1, 0⟩), (1, ⟨0, 0, true, false, true, 2, 0⟩), (3, ⟨0, 0, true, true, false, 1, 0⟩)] }
    c.full 2 = true ∧ c.full 4 = true ∧ 1 ≤ (c.s 2).toNat ∧ (c.s 4).toNat ≤ 4095 ∧ (c.s 3).toNat = 0 ∧ 4095 < (c.s 6).toNat
    ∧ c.drained = true ∧ c.fenced = true ∧ (w.bar 0).valid = true ∧ (w.bar 0).ovf = false
    ∧ (w.bar 0).phase = !true ∧ (w.bar 0).phase = false ∧ (w.bar 1).phase = !false ∧ (w.bar 1).phase = true
    ∧ (w.bar 0).expArr ≤ (w.bar 0).arr + 1 ∧ ¬ (w.bar 1).expArr ≤ (w.bar 1).arr + 1
    ∧ (w.bar 2).valid = false ∧ (w.bar 3).ovf = true ∧ c.waitBar = none
    ∧ (∀ passed failed, ({ c with waitBar := some ⟨0, true, passed, failed⟩ }).waitBar = some ⟨0, true, passed, failed⟩) := by
  decide

/-- A crew that waits at BWAIT on an object that has overflowed. -/
theorem test_meets_BarrierObjects_failed :
    let y : BarWait := ⟨0, true, false, true⟩
    let e := { solo with waitBar := some y }
    (small .scalar e).find ⟨0, 0⟩ = some (home e, e) ∧ e.waitBar = some y ∧ y.failed = true ∧ e.status = .live := ⟨rfl, rfl, rfl, rfl⟩

theorem test_meets_Copies :
    let b : Batch := ⟨0, 5, none⟩
    let c := { solo with batches := [b], sreg := [(2, 5), (4, 6)] }
    let w := { home c with bars := [(0, ⟨0, 0, true, false, false, 1, 0⟩)] }
    c.mayCopy = true ∧ c.drained = true ∧ (w.bar 0).valid = true ∧ (∀ b ∈ c.batches, b.number ≠ c.nextBatch)
    ∧ (∀ x ∈ c.flying, x.batch ≠ some c.nextId) ∧ (∀ x ∈ c.flying, x.kind.isCopy = true → x.batch = none → x.done = true)
    ∧ (let d := { c with flying := [scalarAccess solo (.copyIn none) .weak .dev [onePart 0 4 0 0]] }
       d.drained = true ∧ (∀ x ∈ d.flying, x.batch ≠ some d.nextId)
       ∧ ∃ x ∈ d.flying, x.kind.isCopy = true ∧ x.batch = none ∧ x.done = false) ∧ c.full 2 = true ∧ c.full 4 = true
    ∧ (∀ b ∈ c.batches, b.number ≠ (c.s 4).setWidth 8 + 0) ∧ (∃ b ∈ c.batches, b.number = (c.s 2).setWidth 8 + 0)
    ∧ ({ c with role := 1 }).role = 1 := by
  decide

theorem test_meets_Transfers :
    let s := rich .scalar (home solo) []
    let rec_ := (s.gridOf (home solo)).buf (0 : BitVec 5).toNat
    solo.mayCopy = true ∧ solo.allFull [0, 0, 0] = true ∧ (7 : BitVec 4).toNat < s.tileLimit (home solo) ∧ rec_.ordinary = true
    ∧ (∀ r ∈ tileRows rec_ 0 0 0 0, r.bounds = false ∧ r.addr.toNat % 16 = 0)
    ∧ (∀ r ∈ tileRows rec_ 0 0 0 0, r.addr.toNat < 2 ^ 52 ∧ ∀ i < 128, r.accessed i = true → r.addr.toNat + i < 2 ^ 52)
    ∧ solo.roomOn (some .tl) = true ∧ (s.gridOf (home solo)).forwards solo = false ∧ (s.gridOf (home solo)).elides solo = false
    ∧ (∀ o, none = some o → ((home solo).bar (o : BitVec 4).toNat).valid = true) := by
  decide +kernel

/-- A fused grid whose marked TLOAD and TSTORE stand at address 0 of role 0, the buffer transient, one record of the producer (R246, R247,
R249). -/
def fusedGrid : Grid :=
  { equippedGrid with
      copy := { equipped with splice := some (BitVec.ofNat 1408 (1 <<< 64 + 1 <<< 594)) },
      fused := some ⟨default, 0, 0, 0, none, [], [], 0, 0, [], []⟩ }

theorem test_meets_Transfers_spliced :
    let con := { solo with role := 0, place := .conBody }
    let pro := { solo with role := 0, place := .proBody }
    let s := { rich .scalar (home con) [] with grids := [(0, fusedGrid)] }
    let rec_ := (s.gridOf (home con)).buf (0 : BitVec 5).toNat
    con.mayCopy = true ∧ con.allFull [0, 0, 0] = true ∧ (0 : BitVec 4).toNat < s.tileLimit (home con) ∧ rec_.ordinary = true
    ∧ (∀ r ∈ tileRows rec_ 0 0 0 0, r.bounds = false ∧ r.addr.toNat % 16 = 0)
    ∧ (s.gridOf (home con)).forwards con = true ∧ (s.gridOf (home pro)).elides pro = true := by
  decide +kernel

/-- A record in mode 01 that starts 64 bytes below 2^52: with 64 bytes in bounds the row passes, with 80 its byte 64 is far. -/
theorem test_meets_Transfers_far :
    let record : Nat → BufRec := fun ext => BitVec.ofNat 256 (2 ^ 52 - 64 + 1 <<< 62 + ext <<< 64 + 1 <<< 96 + 1 <<< 112)
    let first := fun (ext : Nat) => (record ext).form 0 0 0 0 128
    (∀ ext, ∃ after, tileRows (record ext) 0 0 0 0 = [] ++ first ext :: after)
    ∧ (first 64).addr.toNat = 2 ^ 52 - 64 ∧ (∀ i < 128, (first 64).accessed i = true → (first 64).addr.toNat + i < 2 ^ 52)
    ∧ (first 80).accessed 64 = true ∧ ¬ (first 80).addr.toNat + 64 < 2 ^ 52 :=
  ⟨fun _ => ⟨_, rfl⟩, by decide +kernel, by decide +kernel, by decide +kernel, by decide +kernel⟩

/-- The last address at which the entries end at 2^52. -/
theorem test_meets_CodebookLoads :
    let c := { solo with sreg := [(2, 0xFFFFFC00), (3, 0xFFFFF)] }
    c.allFull (pairOf 2) = true ∧ (c.s2 2).toNat % entryBytes 0 = 0 ∧ (c.s2 2).toNat + 256 * entryBytes 0 = 2 ^ 52
    ∧ (rich .scalar (home c) []).bookFree 0 0 = true ∧ c.mayCopy = true ∧ ({ c with role := 2 }).role = 2 := by
  decide +kernel

/-- Set 1 of 4 holds the line of address 0x100 in way 0; the line of 0x500 is in none. -/
def tagged : Workgroup :=
  { home { solo with sreg := [(2, 0x100), (4, 0x500), (6, 8), (8, 15), (10, 16)] } with
      tags := [(1, { ways := [(0, 1#1 ++ 1#44)], tree := 0 })] }

theorem test_meets_TagTable :
    let c := { solo with sreg := [(2, 0x100), (4, 0x500), (6, 8), (8, 15), (10, 16)] }
    let g := (rich .scalar tagged []).gridOf tagged
    let t := tagged.tags.get 1
    c.allFull (pairOf 2 ++ [6]) = true ∧ c.allFull (pairOf 4 ++ [8]) = true ∧ g.tagSets = 4 ∧ (c.s2 2).toNat < 2 ^ 52
    ∧ (lineOf g (c.s2 2)).toNat % g.tagSets = 1 ∧ t.find (lineOf g (c.s2 2)) = some 0
    ∧ (lineOf g (c.s2 4)).toNat % g.tagSets = 1 ∧ t.find (lineOf g (c.s2 4)) = none ∧ slotValid (t.ways.get t.victim) = false
    ∧ (4 : Reg) ≠ 0 ∧ (4 : Reg).toNat % 2 = 0 ∧ (c.s 6).toNat / 8 = 1 ∧ (c.s 8).toNat / 8 = 1 ∧ (c.s 10).toNat / 8 ≠ 1 := by
  decide +kernel

/-- Room in the pool, and none: 16 floor accumulators and 16 more take all 64 blocks. -/
theorem test_meets_Accumulators :
    let s := rich .scalar (home solo) []
    let full := { home solo with accs := (List.range 16).map (fun n => (n, ⟨true, []⟩)) }
    let c := { solo with waitGrow := some (2, 20) }
    let waits := { full with crews := [(0, c)] }
    solo.mayMatrix = true ∧ (home solo).accs.find? 20 = none ∧ (home solo).floorBound < (s.gridOf (home solo)).floor
    ∧ 2 ≤ s.poolFree 0 0 ∧ s.growers 0 0 = [] ∧ (rich .scalar full []).poolFree 0 0 < 2
    ∧ (rich .scalar waits []).deadlocked 0 0 = true
    ∧ (extreme Grower.younger ((rich .scalar waits []).growers 0 0)).map (·.key) = some ⟨0, 0⟩
    ∧ solo.queue = [] ∧ solo.mma = none ∧ ({ solo with mma := some ⟨fields 0 0 0 0 0 0 0, 0, [], [], [], [], [], [], false, false, false⟩ }).mma.isSome = true ∧ (full.accs.find? 3).isSome = true ∧ ({ solo with role := 0 }).mayMatrix = false := by
  decide +kernel

/-! Launches and runs. -/

/-- Tables at 0x2000 that map the first GiB to host memory, readable, writable and executable (R323, R324), and a launch record at
0x4000 whose buffer records are outside it (R29). -/
def tables : Memory := [(0x2000, 0x01), (0x2001, 0x30), (0x2006, 0x04), (0x3000, 0x7B), (0x3006, 0x04), (0x4033, 0x40)]

/-- The small machine with the tables. -/
def mapped (c : Crew) : State :=
  { rich .scalar (home c) tables with ctxs := [(0, { (default : Context) with valid := true, ptroot := BitVec.ofNat 64 (hostBase + 0x2000), hcount := 16, arenaSz := 1 })] }

/-- Depth 12 and less; the last aligned record; a free device queue and a full one. -/
theorem test_meets_Launches :
    let c := { solo with sreg := [(2, 0x4000), (4, 32), (6, 0xFFFFFFC0), (7, 0xFFFFF)] }
    let s := mapped c
    let full : Context := { (default : Context) with devPut := 256 }
    c.allFull (pairOf 2) = true ∧ ({ equippedGrid with depth := 12 }).depth = 12 ∧ (s.gridOf (home c)).depth ≠ 12
    ∧ (c.s2 4).toNat % 64 ≠ 0 ∧ (c.s2 6).toNat % 64 = 0 ∧ (c.s2 6).toNat < 2 ^ 52 ∧ c.drained = true ∧ c.fenced = true
    ∧ full.devFree = false ∧ (s.ctx 0).devFree = true := by
  decide

/-! Reading through the tables. -/

theorem vread_bytes {s : State} {c : Nat} : ∀ {n va pa : Nat}, (∀ i < n, s.vtrans c .rd (va + i) = .ok (pa + i)) →
    s.vread c va n = .bytes (s.readBytes c pa n) := by
  intro n
  induction n with
  | zero => intro va pa _; rfl
  | succ n ih =>
    intro va pa h
    have h0 := h 0 n.succ_pos
    have ht := ih (va := va + 1) (pa := pa + 1) fun i hi => by
      have := h (i + 1) (Nat.succ_lt_succ hi)
      rwa [Nat.add_right_comm va 1 i, Nat.add_right_comm pa 1 i]
    simp only [Nat.add_zero] at h0
    simp only [State.vread, h0, ht, State.readBytes, List.range_succ_eq_map, List.map_cons, List.map_map, Nat.add_zero]
    congr 2
    refine List.map_congr_left fun i _ => ?_
    simp only [Function.comp, Nat.add_right_comm pa 1 i]
    rfl

/-- Tables whose first entries lead to one leaf of 1 GiB at the start of host memory, readable. -/
theorem vtrans_host {s : State} {e0 e1 : BitVec 64} {t : Nat} (ht : (s.ctx 0).ptroot.toNat = t) (hd : s.downLinks = []) (hr : s.regions = [])
    (h0 : s.entryAt t = some e0) (h1 : s.entryAt (nfld e0 8 44 * 256) = some e1)
    (hv0 : flag e0 0 = true ∧ flag e0 1 = false ∧ nfld e0 52 12 = 0 ∧ nfld e0 1 7 = 0)
    (hv1 : flag e1 0 = true ∧ flag e1 1 = true ∧ leafFrame e1 1 30 = some hostBase ∧ flag e1 55 = false ∧ flag e1 4 = true)
    {va : Nat} (hva : va < 2 ^ 30) : s.vtrans 0 .rd va = .ok (hostBase + va) := by
  obtain ⟨a1, a2, a3, a4⟩ := hv0
  obtain ⟨b1, b2, b3, b4, b5⟩ := hv1
  have q0 : va / 2 ^ 41 % 2 ^ 11 * 8 = 0 := by omega
  have q1 : va / 2 ^ 30 % 2 ^ 11 * 8 = 0 := by omega
  have q2 : va / 2 ^ 30 * 2 ^ 30 = 0 := by omega
  have hw : s.walk 0 va = .leaf { va := 0, pa := hostBase, size := 2 ^ 30, rd := true, wr := flag e1 5, ex := flag e1 6 } := by
    have : ¬ 2 ^ 52 ≤ va := by omega
    simp only [State.walk, State.walkOn, this, walkLevels, State.walkFrom, Option.bind_none, q0, q1, q2, Nat.add_zero, ht, h0, h1,
      a1, a2, a3, a4, b1, b2, b3, b4, b5, Bool.not_true, bne_self_eq_false, Bool.or_false, Bool.false_eq_true, ↓reduceIte]
  have hre : s.reachable (hostBase + va) = true := by
    have hh : isHost (hostBase + va) = true := by
      simp only [isHost, decide_eq_true_eq]
      unfold hostBase roldyBase
      omega
    unfold State.reachable
    rw [hh, hd]
    simp only [Bool.or_true, Bool.true_or, Bool.true_and]
    split <;> rfl
  have hse : s.secureAt (hostBase + va) = false := by
    unfold State.secureAt
    rw [hr]
    rfl
  simp only [State.vtrans, hw, State.checkLeaf, Nat.sub_zero, hre, hse, Bool.not_true, Bool.false_and, Bool.or_self, Bool.false_eq_true, ↓reduceIte]

/-- What acceptance reads of a launch record at an address of that GiB, with no splice image and no arguments: its buffer records too,
or not where they lie beyond. -/
theorem readLaunch_host {s : State} (h : ∀ va < 2 ^ 30, s.vtrans 0 .rd va = .ok (hostBase + va)) {va : Nat} (hva : va + 512 ≤ 2 ^ 30)
    {r : LaunchCopy} (hr : r = ⟨BitVec.ofNat 4096 (leNat (s.readBytes 0 (hostBase + va) 512)), [], [], none⟩) (hs : r.spliceAt = 0)
    (ha : r.argBytes = 0) :
    (r.bufTab + 1024 ≤ 2 ^ 30 →
      s.readLaunch 0 va = .copy { r with bufs := bufRecords (s.readBytes 0 (hostBase + r.bufTab) 1024), args := [] })
    ∧ (∀ code x, s.vread 0 r.bufTab 1024 = .fail code x → s.readLaunch 0 va = .copy r) := by
  have bytes : ∀ {a n : Nat}, a + n ≤ 2 ^ 30 → s.vread 0 a n = .bytes (s.readBytes 0 (hostBase + a) n) := fun {a n} hn =>
    vread_bytes fun i hi => by
      rw [h (a + i) (by omega), Nat.add_assoc]
  have none_ : ∀ a, s.vread 0 a 0 = .bytes [] := fun _ => rfl
  refine ⟨fun hb => ?_, fun code x hb => ?_⟩ <;>
    simp only [State.readLaunch, bytes hva, ← hr, hs, ha, none_, ↓reduceIte]
  · rw [bytes hb]
  · rw [hb]

/-- The tables of `mapped`: both entries. -/
theorem mapped_host {s : State} (ht : (s.ctx 0).ptroot = BitVec.ofNat 64 (hostBase + 0x2000)) (hd : s.downLinks = []) (hr : s.regions = [])
    (h0 : s.entryAt (hostBase + 0x2000) = some 0x4000000003001) (h1 : s.entryAt (hostBase + 0x3000) = some 0x400000000007B) :
    ∀ va < 2 ^ 30, s.vtrans 0 .rd va = .ok (hostBase + va) := fun _ hva =>
  vtrans_host (by rw [ht]; rfl) hd hr h0 h1 (by decide) (by decide) hva

theorem test_meets_Launches_read : ∃ r, (mapped solo).readLaunch 0 0x4000 = .copy r ∧ r.spliceAt = 0 ∧ r.cause 0 = some 1 := by
  have h := mapped_host (s := mapped solo) rfl rfl rfl (by decide +kernel) (by decide +kernel)
  exact ⟨_, (readLaunch_host h (va := 0x4000) (by decide) rfl (by decide +kernel) (by decide +kernel)).2 .xlat 0x40000000
    (by decide +kernel), by decide +kernel, by decide +kernel⟩

/-- Without page tables no record can be read. -/
theorem test_meets_Launches_unread : ∃ code va, (rich .scalar (home solo) []).readLaunch 0 0 = .fail code va := by
  refine ⟨.xlat, 0, ?_⟩
  decide +kernel

/-- A run of one REDUX at address 0 with destination s5, seven and eight runs queued; a machine that may not read the code; a run of which
all has yet to be read, behind one that has been read, in both machines. -/
theorem test_meets_LrunQueuesARun :
    let r : Run := ⟨0, [], 0, [], .producer, none, []⟩
    let half : Run := ⟨0, [], 7, [9], .producer, some 0, [(5, 1)]⟩
    let c := { solo with queue := List.replicate 7 r }
    let d := { solo with queue := [r, half] }
    let s := rich .scalar (home c) [(0, 0x52), (1, 0x5C), (3, 0x05)]
    let blind := { s with tlb := [⟨0, 0, { va := 0, pa := hostBase, size := 65536, rd := true, wr := true, ex := false }⟩] }
    let scan := fun (s : State) => scanRun (s.codeWord (home c) .producer) ((s.gridOf (home c)).laneForm c) runFuel 0
    c.queue.length < 8 ∧ (∀ n < 8, c.full (8 + BitVec.ofNat 6 n) = true) ∧ c.side = .producer
    ∧ runAddr ((s.gridOf (home c)).laneBaseFor c.side) 0 = 0 ∧ scan s = ⟨[5], none⟩ ∧ scan blind = ⟨[], some 0⟩
    ∧ 8 ≤ ({ c with queue := r :: c.queue }).queue.length
    ∧ d.queue = [r] ++ half :: [] ∧ (∀ q ∈ [r], q.rest = none) ∧ half.rest = some 0 ∧ (∀ q ∈ [r] ++ [], q.tag ≠ half.tag)
    ∧ (∀ n ∈ (scan s).dests, n < 64) ∧ ∀ n ∈ (scan blind).dests, n < 64 :=
  ⟨by decide, by decide, rfl, by decide +kernel, by decide +kernel, by decide +kernel, by decide, rfl, by decide, rfl, by decide, by decide +kernel,
    by decide +kernel⟩


/-! Populations, sequences, key-value sequences. -/

/-- GROUP s2, with no value entries and one key register v0, at addresses 0 and 4; its spec stands at 0x40 (R210, R212). -/
def grouping : Memory := [(1, 0x80), (3, 0xC8), (5, 0x80), (7, 0xC8), (0x40, 0x01)]

/-- Two crews of the role: the other stands at the same address, at another, or has a run queued. -/
def pairCrew : Crew := { solo with sreg := [(2, 0x40)] }
def other (c : Crew) : Crew := { c with number := 1 }
def two (c : Crew) : Workgroup := { home pairCrew with crews := [(0, pairCrew), (1, other c)] }

theorem test_meets_Population :
    let s := rich .scalar (two pairCrew) grouping
    let pa := hostBase + 0x40
    let apart := two { pairCrew with pc := 4 }
    let late := two { pairCrew with queue := [⟨0, [], 0, [], .producer, none, []⟩] }
    let spec : BitVec 256 := BitVec.ofNat 256 (leNat (s.readBytes 0 pa 32))
    (two pairCrew).participants 3 = (0, pairCrew) :: [(1, other pairCrew)]
    ∧ (∀ p ∈ (two pairCrew).participants 3, s.arrived (two pairCrew) p.2 = true ∧ p.2.pc = pairCrew.pc)
    ∧ (∃ p ∈ late.participants 3, (rich .scalar late grouping).arrived late p.2 = false)
    ∧ (∀ p ∈ apart.participants 3, (rich .scalar apart grouping).arrived apart p.2 = true)
    ∧ (∃ p ∈ apart.participants 3, p.2.pc ≠ pairCrew.pc)
    ∧ (pairCrew.s2 2).toNat % 32 = 0 ∧ (pairCrew.s2 2).toNat < 2 ^ 52 ∧ s.xlate 0 0 .rd (pairCrew.s2 2).toNat = .ok pa
    ∧ (pairCrew.stamp (scalarAccess pairCrew (.ldk 0) .weak .dev [])).mayTouch pairCrew.flying (readFeet [((pairCrew.s2 2).toNat, 32)]) = true
    ∧ ({ s with tlb := [⟨0, 0, { va := 0, pa := hostBase, size := 65536, rd := false, wr := true, ex := true }⟩] }).xlate 0 0 .rd 0x40 = .fail .perm
    ∧ SMap.Sorted (two pairCrew).crews
    ∧ groupBad spec (s.regsOf (two pairCrew) pairCrew) = false ∧ groupBad (spec ||| 4) 256 = true
    ∧ joinBad spec (records.getD 3 0) 256 = false ∧ BufRec.relationBad (records.getD 3 0) equippedGrid.spBytes = false
    ∧ (∀ e ∈ joinEntries spec, 4 * e.2 + 4 ≤ BufRec.strideY (records.getD 3 0)) ∧ jcurDone jcurIdle = true ∧ jcurDone 0 = false
    ∧ nfld spec 160 32 + jcurLcnt (jcurOf 0 2 0) * stashSize 256 ≤ equippedGrid.spBytes
    ∧ equippedGrid.spBytes < nfld spec 160 32 + jcurLcnt (jcurOf 0 64 0) * stashSize 256 := by
  decide +kernel

/-- Four threads whose keys no row of the relation holds, joined inner; a continued join with nothing left. -/
theorem test_meets_JoinsThatFit :
    let c := { pairCrew with vreg := (List.range 4).map (fun l => (laneKey 0 l, 7)) }
    let w := home c
    let s := rich .scalar w grouping
    let keyOf := fun (t : Thread) (n : Nat) => t.v.getD ((specKeys 1).getD n 256) 0
    let left := (popThreads (w.participants 3)).map (fun t => (w.crews.get t.1).thread (s.regsOf w c) t.2)
    (joinRows (fun t => matchesOf w (records.getD 3 0) (keyOf t 0) (keyOf t 1)) false ((s.gridOf w).copy.crewsMax 3 * s.width w)
      (left.drop 0) 0 0 []).2 = none
    ∧ nfld (1 : BitVec 256) 160 32 + jcurLcnt 0 * stashSize 256 ≤ (s.gridOf w).spBytes
    ∧ (joinRows (fun t => matchesOf w (records.getD 3 0) (keyOf t 0) (keyOf t 1)) false 32 ([].drop 0) 0 0 []).2 = none := by
  decide +kernel

/-- 17 and 32 threads of two matches each stop at 32 outputs: one row is left over, which fits the stash, or 16, which do not. -/
theorem test_meets_JoinsThatStop :
    let stops := fun (live : Mask) (kept : Nat) =>
      let c := { pairCrew with live := live }
      let left := (popThreads ((home c).participants 3)).map (fun t => ((home c).crews.get t.1).thread 256 t.2)
      (joinRows (fun t => matchesOf (home c) (records.getD 3 0) (t.v.getD 0 0) 0) false 32 left 0 0 []).2.map (fun x => (left.drop x.li).length)
        = some kept
    stops 0x1FFFF 1 ∧ stops 0xFFFFFFFF 16 ∧ 0 + 1 * stashSize 256 ≤ equippedGrid.spBytes ∧ equippedGrid.spBytes < 0 + 16 * stashSize 256 := by
  decide +kernel

/-- Handle 15, the last of the grant, and handle 16 outside it; a sequence with a snapshot at 3, its head at 5. -/
theorem test_meets_Sequences :
    let c := { solo with sreg := [(2, 15), (4, 16), (6, 3), (8, 0xFFFFFF), (10, 0xE000F), (12, 0xFFFF), (14, 4), (16, 0x1000003), (18, 0x1000005)] }
    let q : Seq := ⟨1, 1, [(0, 7)], 5, [(3, [(0, 7)])], some 3⟩
    let x : Context := { (default : Context) with valid := true, arenaSz := 1, hcount := 16, seqs := [(15, q)] }
    x.grants 15 = true ∧ x.grants 16 = false ∧ c.full 2 = true ∧ (c.s 2).toNat / 65536 = 0 ∧ (c.s 12).toNat < 65536 ∧ x.arenaSz ≠ 0
    ∧ ({ x with seqs := [] }).seqs.find? 15 = none ∧ x.seqs.find? 15 = some q ∧ (c.s 8).toNat < 2 ^ 24
    ∧ (c.s 6).toNat < q.hpos ∧ q.hpos ≤ (c.s 8).toNat ∧ q.ring.find? (c.s 14).toNat = none ∧ q.ring.find? (c.s 6).toNat = some [(0, 7)]
    ∧ (∀ p, q.cpos = some p → p ≤ (c.s 6).toNat)
    ∧ (c.s 10).toNat % 65536 = 15 ∧ x.grants ((c.s 10).toNat / 65536) = true ∧ x.seqs.find? ((c.s 10).toNat / 65536) = none
    ∧ x.grants ((c.s 4).toNat % 65536) = false ∧ q.cpos = some 3 ∧ (2 : Nat) < 3
    ∧ (c.s 16).toNat = 2 ^ 24 + (c.s 6).toNat ∧ (c.s 18).toNat = 2 ^ 24 + 5
    ∧ ({ x with seqs := [(14, q), (15, q)] }).seqs.find? ((c.s 10).toNat / 65536) = some q := by
  refine ⟨rfl, rfl, rfl, rfl, by decide, by decide, rfl, rfl, by decide, by decide, by decide, rfl, rfl, ?_, rfl, rfl, rfl, rfl,
    rfl, by decide, rfl, rfl, rfl⟩
  intro p h
  rw [← Option.some.inj h]
  decide

/-- A crew with a store in flight that a fence has put before what follows, before stores alone, and before nothing. -/
theorem test_meets_Sequences_order :
    let c := flies .store (wordPart 8)
    (∃ y ∈ ({ c with orderS := [1] }).flying, y.done = false ∧ y.id ∈ ({ c with orderS := [1] }).orderS)
    ∧ (∃ y ∈ ({ c with orderW := [1] }).flying, y.done = false ∧ y.id ∈ ({ c with orderW := [1] }).orderW)
    ∧ (∀ y ∈ ({ c with orderW := [1] }).flying, y.done = true ∨ y.id ∉ ({ c with orderW := [1] }).orderS)
    ∧ ∀ y ∈ c.flying, y.done = true ∨ (y.id ∉ c.orderS ∧ y.id ∉ c.orderW) :=
  ⟨⟨_, .head _, rfl, .head _⟩, ⟨_, .head _, rfl, .head _⟩, by decide, by decide⟩

/-- The last layer and leaf of a sequence: no leaf yet, a leaf, a poisoned one. -/
theorem test_meets_SequencePieces :
    let c := { solo with sreg := [(2, 15), (4, 0x0101)] }
    let q : Seq := ⟨2, 2, [], 0, [], none⟩
    let x : Context := { (default : Context) with valid := true, arenaSz := 1, hcount := 16, leaves := [(7, ⟨[], false, false⟩), (8, ⟨[], true, true⟩)] }
    c.full 2 = true ∧ c.full 4 = true ∧ (c.s 2).toNat < 65536 ∧ x.grants (c.s 2).toNat = true ∧ (c.s 4).toNat < 65536
    ∧ (7 : BitVec 4).toNat < equippedGrid.tileCount ∧ equippedGrid.tileCount ≤ (8 : BitVec 4).toNat ∧ (c.s 4).toNat % 256 < q.nlayer ∧ (c.s 4).toNat / 256 < q.leaves
    ∧ q.head.find? (256 * 1 + 1) = none ∧ ({ q with head := [(257, 7)] }).head.find? 257 = some 7
    ∧ (x.leaves.get 7).poisoned = false ∧ (x.leaves.get 8).poisoned = true ∧ x.leaves.length < x.arenaSz.toNat * 16384
    ∧ ¬ x.leaves.length < ({ x with arenaSz := 0 }).arenaSz.toNat * 16384 ∧ ({ x with seqs := [(15, { q with head := [(257, 7)] })] }).count 7 ≤ 1
    ∧ 1 < ({ x with seqs := [(15, { q with head := [(257, 7)], ring := [(0, [(257, 7)])] })] }).count 7 := by
  decide +kernel

/-- LEN 0 at 0x200, the block's map entry at 0x100 valid; 32 rows, the most of one append. -/
theorem test_meets_KeyValue :
    let c := { solo with sreg := [(2, 32)] }
    let w := home c
    let s := rich .scalar w [(0x103, 0x80)]
    let h := (s.gridOf w).buf (1 : BitVec 5).toNat
    c.allFull [4, 6, 8, 2] = true ∧ (c.s 4).toNat < 2 ^ 24 ∧ h.kvHandle = true ∧ (c.s 4).toNat / 65536 < h.nhead
    ∧ nfld h 128 52 + (c.s 4).toNat % 65536 * 16 = 0x200 ∧ s.xlate 0 0 .wr 0x200 = .ok (hostBase + 0x200) ∧ s.xlate 0 0 .rw 0x204 = .ok (hostBase + 0x204)
    ∧ c.roomOn (some .st) = true ∧ c.roomOn (some .tl) = true ∧ (7 : BitVec 4).toNat < s.tileLimit w ∧ (c.s 6).toNat % 32 = 0
    ∧ (c.s 2).toNat = 32 ∧ (c.s 6).toNat + (c.s 2).toNat ≤ h.positions
    ∧ (c.stamp (kvAccess c h (.kvapp 0x200 32) .strong [])).mayTouch c.flying (readFeet [(0x200, 4), (0x100, 4)]) = true
    ∧ s.kvNotResident w h 0 (kvBlocks 0 32) = false ∧ (rich .scalar w []).kvNotResident w h 0 (kvBlocks 0 32) = true := by
  decide +kernel

/-- What a reading found, if it was read and translated. -/
def found {α : Type} : KvRead α → Option α
  | .got x => some x
  | _ => none

theorem got_of {α : Type} {x : KvRead α} {p : α → Bool} (h : (found x).any p = true) : ∃ v, x = .got v ∧ p v = true := by
  cases x with
  | got v => exact ⟨v, rfl, h⟩
  | miss _ _ => cases h
  | wait => cases h
  | far _ => cases h
  | fail _ _ => cases h

theorem test_meets_KeyValue_reads :
    let w := home { solo with sreg := [(2, 32)] }
    let s := rich .scalar w [(0x103, 0x80)]
    let h : BufRec := records.getD 1 0
    let may := fun (k : AccessKind) (parts : List Part) => solo.mayRead (kvAccess solo h k .strong parts)
    (∃ block, s.kvBlock w (may (.kvld 2 7 [] 0) [onePart 0 0 0 0]) h 0 0 0 = .got block ∧ true = true)
    ∧ (∃ len, s.kvWord w (may (.kvapp 0x200 32) []) 0x200 = .got len ∧ true = true)
    ∧ (∀ x ∈ (0x200, 4) :: (kvBlocks 0 32).map (fun x => (h.mapAt 0 (32 * x), 4)), may (.kvapp 0x200 32) [] x.1 x.2 = true)
    ∧ ∃ es, s.kvEntries w (may (.kvapp 0x200 32) []) h 0 (kvBlocks 0 32) = .got es ∧ (es.values.all (fun e => decide (2 ^ 31 ≤ e))) = true :=
  ⟨got_of (p := fun _ => true) (by decide +kernel), got_of (p := fun _ => true) (by decide +kernel), by decide +kernel,
    got_of (p := fun es => (SMap.values es).all (fun e => decide (2 ^ 31 ≤ e))) (by decide +kernel)⟩

theorem test_meets_KeyValue_parts :
    let w := home { solo with sreg := [(2, 32)] }
    let s := rich .scalar w [(0x103, 0x80)]
    let h : BufRec := records.getD 1 0
    (∃ rs, s.kvParts w .wr ((List.range 32).map (kvRowParts h 0 [] [(0, 2 ^ 31)] 0 0)).flatten = .got rs ∧ true = true)
    ∧ ∃ l, s.kvParts w .rw [{ onePart 0x200 4 (BitVec.ofNat 128 32) 0 with unit := 32 }] = .got l ∧ true = true :=
  ⟨got_of (p := fun _ => true) (by decide +kernel), got_of (p := fun _ => true) (by decide +kernel)⟩

/-! Lane instructions. -/

/-- The checks of a lane instruction that is ready, in a form that can be decided. -/
abbrev ReadyChecks (s : State) (p : LaneSpec) (f : LaneFields) (w : Workgroup) (c : Crew) : Prop :=
  (p.badRole = false ∧ p.badDirect = false)
  ∧ ((p.collective = true → c.executing f = laneMask (s.width w)) ∧ c.executing f ≠ 0)
  ∧ (∀ n ∈ [0, 1, 2, 3], (operandAt p.instr f n).outOfRegs (s.regsOf w c) (p.group n) = false
      ∧ (operandAt p.instr f n).outOfWindow c (c.executing f) (p.group n) = false)
  ∧ (∀ n ∈ [1, 2, 3], (operandAt p.instr f n).empty c (c.executing f) (p.group n) = false)
  ∧ (p.readsDest = true → (operandAt p.instr f 0).empty c (c.executing f) (p.group 0) = false)

theorem ready_of {s : State} {p : LaneSpec} {f : LaneFields} {w : Workgroup} {c : Crew} (hi : Issuing s w c)
    (h : ReadyChecks s p f w c) : LaneReady s p f w c :=
  let ⟨may, lanes, regs, full, old⟩ := h
  { issuer := hi, role := may.1, direct := may.2, whole := lanes.1, active := lanes.2, inRange := fun n hn => (regs n hn).1,
    inWindow := fun n hn => (regs n hn).2, sourcesFull := full, destFull := old }

/-- The running crew with all 32 lanes, and its machine. -/
def whole : Crew :=
  { running with live := 0xFFFFFFFF, prog := some { pc := 0, active := 0xFFFFFFFF, frames := [], results := [], ended := false } }

def laneMachine : State := rich .lane (home whole) []

/-- Ready in the lane machine. -/
abbrev Ready (p : LaneSpec) (f : LaneFields) : Prop := LaneReady laneMachine p f (home whole) whole

/-- The highest registers of the crew, in an instruction that ends its run. -/
def threeRegs : LaneFields := { fields 255 0 0 254 253 252 0 with eor := true }

theorem test_meets_LaneArithmetic :
    (∀ con ∈ [Instr.iadd, .iaddI, .imad, .iabs, .land, .lop, .bfe, .lmov, .movi, .fadd, .ffma, .frcp, .hadd2, .hfma2],
      Ready (.plain (con threeRegs)) threeRegs) := by
  intro con hc
  refine ready_of rfl ?_
  simp only [List.mem_cons, List.not_mem_nil, or_false] at hc
  rcases hc with rfl | rfl | rfl | rfl | rfl | rfl | rfl | rfl | rfl | rfl | rfl | rfl | rfl | rfl <;> decide +kernel

/-- FCLASS meets every class: infinities, NaNs of both kinds, zeros, subnormals, normals. -/
theorem test_meets_LaneClasses :
    let ex := fun (x : Word) => nfld x 23 8
    Ready (.plain (.fclass threeRegs)) threeRegs
    ∧ (ex 0xFF800000 = 255 ∧ nfld (0xFF800000 : Word) 0 23 = 0) ∧ (ex 0x7FC00000 = 255 ∧ nfld (0x7FC00000 : Word) 0 23 ≠ 0)
    ∧ (flag (0x7FC00000 : Word) 22 = true ∧ flag (0x7F800001 : Word) 22 = false)
    ∧ (ex 0x80000000 = 0 ∧ nfld (0x80000000 : Word) 0 23 = 0) ∧ (ex 1 = 0 ∧ nfld (1 : Word) 0 23 ≠ 0)
    ∧ ex 0x3F800000 ≠ 0 ∧ ex 0x3F800000 ≠ 255 := ⟨ready_of rfl (by decide +kernel), by decide +kernel⟩

/-- A select, comparisons and PLOP: into p6, and into p7, which discards it, by the tables that copy pa and clear. -/
theorem test_meets_LanePredicates :
    (∀ con ∈ [Instr.lsel, .iset, .fset, .isetI, .fsetI], Ready (.plain (con (fields 6 0 0 1 2 3 0))) (fields 6 0 0 1 2 3 0))
    ∧ (∀ f ∈ [fields 6 0 0 3 2 1 0xF0, fields 7 0 0 3 2 1 0xF0, fields 6 0 0 3 2 1 0], Ready (.plain (.plop f)) f)
    ∧ (fields 7 0 0 3 2 1 0xF0).dest.toNat % 8 = 7 ∧ fld (fields 6 0 0 3 2 1 0xF0).p2 0 8 = 0xF0#8
    ∧ fld (fields 6 0 0 3 2 1 0).p2 0 8 = 0#8 := by
  refine ⟨fun con hc => ready_of rfl ?_, fun f hf => ready_of rfl ?_, rfl, rfl, rfl⟩
  · simp only [List.mem_cons, List.not_mem_nil, or_false] at hc
    rcases hc with rfl | rfl | rfl | rfl | rfl <;> decide +kernel
  · simp only [List.mem_cons, List.not_mem_nil, or_false] at hf
    rcases hf with rfl | rfl | rfl <;> decide +kernel

/-- Slot 1 holds a format of element mode; block mode on a crew of four lanes. -/
theorem test_meets_LaneConversions :
    let f := fields 5 0 0 0 0 3 1
    let g := fields 5 0 1 0 0 3 1
    let small4 := rich .lane (home running) []
    Ready (.plain (.cvt (fields 5 2 9 0 0 3 0))) (fields 5 2 9 0 0 3 0) ∧ (fields 5 2 9 0 0 3 0).use = false
    ∧ Ready (.plain (.qnt f)) f ∧ Ready (.plain (.dqt f)) f ∧ f.subop = 0 ∧ elementFormat (laneMachine.slot (home whole) f.fa.toNat).fmt = true
    ∧ Issuing small4 (home running) running ∧ g.subop = 1 ∧ running.executing g ≠ laneMask (small4.width (home running))
    ∧ (∀ n ∈ [0, 1, 2, 3], (operandAt (.qnt g) g n).outOfRegs (small4.regsOf (home running) running) 1 = false
        ∧ (operandAt (.dqt g) g n).outOfRegs (small4.regsOf (home running) running) 1 = false) :=
  ⟨ready_of rfl (by decide +kernel), rfl, ready_of rfl (by decide +kernel), ready_of rfl (by decide +kernel), rfl, by decide +kernel, rfl,
    rfl, by decide +kernel, by decide +kernel⟩

/-- Conversions between the pair types; conversions by slot 2 and by slot 9, which is not bound; block mode by slots 3 and 4 on a whole
crew, and the modes by a slot of the other one's format. -/
theorem test_meets_LaneConversions_slots :
    let ready := fun (f : LaneFields) => Ready (.plain (.cvt f)) f
    let block := fun (f : LaneFields) => f.subop = 1 ∧ Ready { LaneSpec.plain (.qnt f) with collective := true } f
      ∧ Ready { LaneSpec.plain (.dqt f) with collective := true } f
    let slot := fun (f : LaneFields) => laneMachine.slot (home whole) f.fa.toNat
    let five := fun (sub : BitVec 4) (p2 : Word) => fields 5 0 sub 0 0 3 p2
    ready (fields 5 3 4 0 0 3 0) ∧ ready (fields 5 4 3 0 0 3 0)
    ∧ ready (fields 5 2 9 0 0 3 0xA) ∧ (fields 5 2 9 0 0 3 0xA).use = true ∧ (slot (fields 5 2 9 0 0 3 0xA)).fmt ≠ 0
    ∧ ready (fields 5 2 9 0 0 3 0xD) ∧ (slot (fields 5 2 9 0 0 3 0xD)).fmt = 0
    ∧ (∀ p2 ∈ [(1 : Word), 3, 4], block (five 1 p2)) ∧ 32 ≤ laneMachine.width (home whole)
    ∧ blockFormat (slot (five 1 3)).fmt = true ∧ blockFormat (slot (five 1 4)).fmt = true ∧ blockFormat (slot (five 1 1)).fmt = false
    ∧ Ready (.plain (.qnt (five 0 3))) (five 0 3) ∧ Ready (.plain (.dqt (five 0 3))) (five 0 3)
    ∧ elementFormat (slot (five 0 3)).fmt = false := by
  refine ⟨ready_of rfl (by decide +kernel), ready_of rfl (by decide +kernel), ready_of rfl (by decide +kernel), rfl, by decide +kernel,
    ready_of rfl (by decide +kernel), by decide +kernel, fun p2 hp => ?_, by decide +kernel, by decide +kernel, by decide +kernel,
    by decide +kernel, ready_of rfl (by decide +kernel), ready_of rfl (by decide +kernel), by decide +kernel⟩
  simp only [List.mem_cons, List.not_mem_nil, or_false] at hp
  obtain rfl | rfl | rfl := hp <;> exact ⟨rfl, ready_of rfl (by decide +kernel), ready_of rfl (by decide +kernel)⟩

/-- Lane 0 holds a window that ends above REGS, or a step below IDX 0; immediates that fail in every lane. -/
theorem test_meets_IndexRegisters_traps :
    let at0 := fun (x : Word) => { whole with vreg := [(laneKey 1 0, x)] }
    let s := fun (x : Word) => rich .lane (home (at0 x)) []
    let f := fields 2 0 0 0 0 1 0
    let g := fields 2 0 0 0 0 1 0x04000000
    let h := fields 2 0 0 0 0 1 0x200
    LaneReady (s 0x00010100) (.plain (.xset f)) f (home (at0 0x00010100)) (at0 0x00010100)
    ∧ source (.xset f) f (at0 0x00010100) 1 0 = 0x00010100 ∧ flag ((at0 0x00010100).executing f) 0 = true
    ∧ LaneReady (s 0xFFFFFFFF) (.plain (.xadd f)) f (home (at0 0xFFFFFFFF)) (at0 0xFFFFFFFF)
    ∧ ((at0 0xFFFFFFFF).x 2 0).toNat / 2 ^ 17 % 512 + (source (.xadd f) f (at0 0xFFFFFFFF) 1 0).toInt < 0
    ∧ Ready (.plain (.xsetI g)) g ∧ ¬ g.p2.toNat < 2 ^ 26 ∧ Ready (.plain (.xaddI h)) h
    ∧ 511 < (whole.x 2 0).toNat / 2 ^ 17 % 512 + h.p2.toInt ∧ flag (whole.executing h) 0 = true :=
  ⟨ready_of rfl (by decide +kernel), by decide +kernel, by decide +kernel, ready_of rfl (by decide +kernel), by decide +kernel,
    ready_of rfl (by decide +kernel), by decide +kernel, ready_of rfl (by decide +kernel), by decide +kernel, by decide +kernel⟩

/-- Windows that end at REGS and one above; IDX moved to 0 and to 511, and beyond either. -/
theorem test_meets_IndexRegisters :
    let f := fields 2 0 0 0 0 1 0
    let good := fun (x : Word) => x.toNat < 2 ^ 26 ∧ x.toNat / 256 % 512 ≤ 256 ∧ x.toNat % 256 + x.toNat / 256 % 512 ≤ 256
    let moved := fun (idx : Word) (x : Word) => (idx.toNat / 2 ^ 17 % 512 : Int) + x.toInt
    (laneMachine.gridOf (home whole)).fused = none ∧ laneMachine.regsOf (home whole) whole = 256
    ∧ (∀ con ∈ [Instr.xset, .xsetI, .xadd, .xaddI], Ready (.plain (con f)) f) ∧ Ready (.plain (.xget (fields 5 0 0 0 0 2 0))) (fields 5 0 0 0 0 2 0)
    ∧ ¬ good 0x000101FF ∧ good 0x000001FF ∧ good 0x00010000 ∧ ¬ good 0x00010100 ∧ ¬ good 0x04000000
    ∧ moved 0x3FE0000 0 = 511 ∧ moved 0x3FE0000 0xFFFFFE01 = 0 ∧ moved 0x3FE0000 1 = 512 ∧ moved 0 0xFFFFFFFF = -1 := by
  refine ⟨rfl, by decide +kernel, fun con hc => ready_of rfl ?_, ready_of rfl (by decide +kernel), ?_⟩
  · simp only [List.mem_cons, List.not_mem_nil, or_false] at hc
    rcases hc with rfl | rfl | rfl | rfl <;> decide +kernel
  · decide +kernel

theorem test_meets_LaneSpecials :
    let f := fields 5 0 0 0 0 1 0
    let cycles := fields 254 0 0 0 0 15 0
    f.special ≠ .cycles ∧ Ready (.plain (.getl f)) f ∧ cycles.special = .cycles
    ∧ Ready { LaneSpec.plain (.getl cycles) with groups := (2, 1, 1, 1) } cycles
    ∧ (∀ con ∈ [Instr.route, .routeI, .scan], Ready (.plain (con (fields 5 0 2 3 2 1 0))) (fields 5 0 2 3 2 1 0)) := by
  refine ⟨by decide, ready_of rfl (by decide +kernel), rfl, ready_of rfl (by decide +kernel), fun con hc => ready_of rfl ?_⟩
  simp only [List.mem_cons, List.not_mem_nil, or_false] at hc
  rcases hc with rfl | rfl | rfl <;> decide +kernel

/-- SAMPLE of one register at temperature 0, every logit 0. -/
theorem test_meets_LaneToScalarResults :
    let f := fields 5 0 1 3 2 1 1
    Ready (.plain (.vote f)) f ∧ Ready (.plain (.redux f)) f ∧ f.subop.toNat < 6
    ∧ Ready { LaneSpec.plain (.accept f) with collective := true } f
    ∧ Ready { LaneSpec.plain (.sample f) with collective := true, groups := (1, max f.simm.toNat 1, 1, 1) } f
    ∧ laneMachine.width (home whole) = 32 ∧ f.simm.toNat ≠ 0 ∧ source (.sample f) f whole 2 0 = 0
    ∧ Ready { LaneSpec.plain (.isect f) with collective := true } f :=
  ⟨ready_of rfl (by decide +kernel), ready_of rfl (by decide +kernel), by decide, ready_of rfl (by decide +kernel),
    ready_of rfl (by decide +kernel), by decide +kernel, by decide, by decide +kernel, ready_of rfl (by decide +kernel)⟩

/-- SAMPLE of v1 at the temperature in v2, with lane registers written. -/
def sampling (regs : SMap Word) : Crew := { whole with vreg := regs }

/-- SAMPLE where every logit is a NaN, where one is +inf, and at temperatures +0, -0, -1, NaN, 1 and +inf. -/
theorem test_meets_LaneToScalarResults_sample :
    let f := fields 5 0 1 3 2 1 1
    let nans := (List.range 32).map (fun l => (laneKey 1 l, (0x7FC00000 : Word)))
    (∀ regs ∈ [nans, [(laneKey 1 3, 0x7F800000)], [(laneKey 2 0, 0x80000000)], [(laneKey 2 0, 0xBF800000)], [(laneKey 2 0, 0x7FC00000)],
        [(laneKey 2 0, 0x3F800000)], [(laneKey 2 0, 0x7F800000)]],
      LaneReady (rich .lane (home (sampling regs)) []) { LaneSpec.plain (.sample f) with collective := true, groups := (1, max f.simm.toNat 1, 1, 1) }
        f (home (sampling regs)) (sampling regs))
    ∧ (∀ l < 32, isNanWord ((sampling nans).v 1 l) = true) ∧ (sampling [(laneKey 1 3, 0x7F800000)]).v 1 3 = 0x7F800000
    ∧ (∀ x : Word, source (.sample f) f (sampling [(laneKey 2 0, x)]) 2 0 = x)
    ∧ (∀ l < 32, (sampling [(laneKey 2 0, 0x3F800000)]).v 1 l = 0) ∧ ofF32 0x3F800000 = .fin ⟨false, 2 ^ 23, -23⟩ ∧ ofF32 0xFF800000 = .inf true := by
  refine ⟨fun regs h => ready_of rfl ?_, by decide +kernel, by decide +kernel, fun _ => rfl, by decide +kernel, by decide +kernel,
    by decide +kernel⟩
  simp only [List.mem_cons, List.not_mem_nil, or_false] at h
  rcases h with rfl | rfl | rfl | rfl | rfl | rfl | rfl <;> decide +kernel

/-- REDUX .MINIDX and .MAXIDX into s4 and s5; of the four lanes 0 to 3 lane 0 holds the result. -/
theorem test_meets_LaneToScalarResults_index :
    (∀ f ∈ [fields 4 0 6 0 0 1 0, fields 4 2 7 0 0 1 0], Ready (.plain (.redux f)) f ∧ 6 ≤ f.subop.toNat ∧ f.dest ≠ 0
      ∧ source (.redux f) f whole 1 0 = combineAll (f.subop.toNat - 5) f.type.toNat [0, 0, 0, 0]) := by
  intro f hf
  simp only [List.mem_cons, List.not_mem_nil, or_false] at hf
  obtain rfl | rfl := hf <;> exact ⟨ready_of rfl (by decide +kernel), by decide, by decide, by decide +kernel⟩

theorem test_meets_LanesMatchRankAndDraw :
    let f := fields 252 0 0 0 0 1 5
    laneMachine.width (home whole) = 32 ∧ Ready { LaneSpec.plain (.matchL f) with collective := true, groups := (1, 1, 1, 1) } f
    ∧ Ready { LaneSpec.plain (.topk f) with collective := true, groups := (2, 1, 1, 1) } f
    ∧ Ready { LaneSpec.plain (.rand f) with groups := (4, 1, 1, 1) } f :=
  ⟨by decide +kernel, ready_of rfl (by decide +kernel), ready_of rfl (by decide +kernel), ready_of rfl (by decide +kernel)⟩

/-- Parts at addresses that pass: the last word of 4,096 bytes of scratchpad by OFF16, words through an unchecked record. -/
def goodAddrs (i : Instr) (f : LaneFields) (n : Nat) : Bool :=
  let m := (laneMachine.gridOf (home whole)).buf f.mslot.toNat
  (f.sp || m.ordinary) && (if f.sp then scratchAddrs whole (whole.executing f) (operandAt i f 1) f.off16.toNat 4096 n
    else recordAddrs whole (whole.executing f) i f m n).all (fun a => !a.bounds && a.addr.toNat % n == 0 && decide (a.addr.toNat < 2 ^ 52))

theorem test_meets_LaneMemory (p2 : Word) (h : p2 = 4092 <<< 8 + 1 ∨ p2 = 0) :
    let f := fields 5 1 4 0 0 2 p2
    whole.logging = false ∧ whole.logCount < 4 ∧ equippedGrid.spBytes = 4096 ∧ memBytes f.subop = 4
    ∧ Ready { LaneSpec.plain (.ld f) with groups := (memGroup (memBytes f.subop), 1, 1, 1) } f
    ∧ Ready { LaneSpec.plain (.st f) with groups := (memGroup (memBytes f.subop), 1, 1, 1), readsDest := true } f
    ∧ AtomOp.ofCode f.subop = some .minu ∧ Ready { LaneSpec.plain (.atom f) with readsDest := decide (AtomOp.minu = .cas) } f
    ∧ (∀ i ∈ [Instr.ld f, .st f, .atom f], goodAddrs i f 4 = true) ∧ whole.roomOn (some .ld) = true ∧ whole.roomOn (some .st) = true := by
  rcases h with rfl | rfl <;>
    exact ⟨by decide, by decide, by decide +kernel, rfl, ready_of rfl (by decide +kernel), ready_of rfl (by decide +kernel), rfl,
      ready_of rfl (by decide +kernel), by decide +kernel, by decide, by decide⟩

/-- A copy in and out of 16 bytes, one that tells barrier 2, and one of an entry of codebook 0, of 4 bytes. -/
theorem test_meets_LaneMemory_copies (subop : BitVec 4) (p2 : Word) (size k : Nat)
    (h : (subop, p2, size, k) ∈ [((2 : BitVec 4), (0 : Word), 16, 16), (6, 0, 16, 16), (2, 0x90000000, 16, 16), (3, 0, 4, 1)]) :
    let f := fields 5 1 subop 0 0 2 p2
    let w := { home whole with bars := [(2, ⟨0, 0, true, false, false, 1, 0⟩)], books := [(0, ⟨0, []⟩)] }
    let m := (laneMachine.gridOf (home whole)).buf f.mslot.toNat
    Ready { LaneSpec.plain (.cpy f) with badRole := !whole.mayCopy, readsDest := true } f ∧ f.cbnum.toNat = 0
    ∧ (f.ben = true → (w.bar f.bnum.toNat).valid = true) ∧ (w.books.find? 0).isSome = true ∧ entryBytes 0 = 4 ∧ m.ordinary = true
    ∧ (∀ x ∈ recordAddrs whole (whole.executing f) (.cpy f) f m k, x.bounds = false ∧ x.addr.toNat % k = 0 ∧ x.addr.toNat < 2 ^ 52)
    ∧ (∀ x ∈ scratchAddrs whole (whole.executing f) (operandAt (.cpy f) f 0) 0 4096 size, x.bounds = false ∧ x.addr.toNat % size = 0)
    ∧ whole.roomOn (some .cp) = true := by
  simp only [List.mem_cons, List.not_mem_nil, or_false, Prod.mk.injEq] at h
  obtain ⟨rfl, rfl, rfl, rfl⟩ | ⟨rfl, rfl, rfl, rfl⟩ | ⟨rfl, rfl, rfl, rfl⟩ | ⟨rfl, rfl, rfl, rfl⟩ := h <;>
    exact ⟨ready_of rfl (by decide +kernel), by decide, by decide +kernel, rfl, rfl, by decide +kernel, by decide +kernel,
      by decide +kernel, by decide⟩

/-- A CSR handle in the last page, its columns above 2^52, and the lane machine with that page, whose first row is entry 0 alone. -/
def farCsr : BufRec :=
  BitVec.ofNat 256 (2 ^ 52 - 65536 + 0x3A <<< 56 + 4 <<< 64 + 4 <<< 96 + 65536 <<< 128 + 1 <<< 176 + 65536 <<< 192)
def farMachine : State :=
  { laneMachine with
      grids := [(0, { equippedGrid with copy := { equipped with bufs := [0, 0, farCsr] } })], mem := [(hostBase + 4, 1)],
      tlb := [⟨0, 0, { va := 2 ^ 52 - 65536, pa := hostBase, size := 65536, rd := true, wr := true, ex := true }⟩] }

theorem test_meets_LaneMemory_fetch :
    let f := fields 5 1 0 0 0 2 (2 <<< 3)
    let m := (laneMachine.gridOf (home whole)).buf f.mslot.toNat
    Ready { LaneSpec.plain (.fetch f) with groups := (3, 1, 1, 1) } f ∧ BufRec.fetchHandle m = true ∧ BufRec.fetchMisaligned m = false
    ∧ (∀ va ∈ BufRec.fetchAddrs m 0 0, va < 2 ^ 52) ∧ (∀ l, (source (.fetch f) f whole 1 l).toInt + f.off16.toInt = 0)
    ∧ whole.roomOn (some .ft) = true :=
  ⟨ready_of rfl (by decide +kernel), by decide +kernel, by decide +kernel, by decide +kernel, fun _ => rfl, by decide⟩

/-- What is read is some key whose form has a property that can be decided. -/
theorem key_of {x : KvRead FetchKey} {m : BufRec} {c y : Int} {g : FetchForm → Bool}
    (h : (found x).any (fun q => g (m.fetchForm c y q.key)) = true) : ∃ q, x = .got q ∧ g (m.fetchForm c y q.key) = true := got_of h

/-- A reading that ends in a fault of the walk. -/
def fails {α : Type} : KvRead α → Bool
  | .fail _ _ => true
  | _ => false

theorem fail_of {α : Type} {x : KvRead α} (h : fails x = true) : ∃ code va, x = .fail code va := by
  cases x <;> first | exact ⟨_, _, rfl⟩ | cases h

/-- A dense element that nothing in flight changes; a CSR column whose address, formed from the row pointer that was read, is at 2^52 and
above, at issue and in flight; a row pointer that may not be read. -/
theorem test_meets_LaneMemory_fetch_reads :
    let f := fields 5 1 0 0 0 2 (2 <<< 3)
    let m := (laneMachine.gridOf (home whole)).buf 2
    let a := laneAccess whole f (.fetch 2) .weak .dev false m []
    let p := { onePart 0 4 0 0 with unit := 0 }
    let b := { laneAccess whole f (.fetch 2) .weak .dev false farCsr [p] with id := 1 }
    let c := { whole with flying := [b] }
    (∀ l < 64, ∃ q, laneMachine.fetchKey (home whole) (whole.mayRead a) m 2 0 0 (whole.cursors.get l) = .got q
      ∧ ((BufRec.fetchForm m 0 0 q.key).addrs m).all (fun va => decide (va < 2 ^ 52)) = true)
    ∧ (∃ q, farMachine.fetchKey (home whole) (whole.mayRead (laneAccess whole f (.fetch 2) .weak .dev false farCsr [])) farCsr 2 0 0
        (whole.cursors.get 0) = .got q
      ∧ (((BufRec.fetchForm farCsr 0 0 q.key).addrs farCsr).find? (fun va => decide (2 ^ 52 ≤ va)) == some (2 ^ 52)) = true)
    ∧ (∃ code va, { farMachine with tlb := [⟨0, 0, { va := 2 ^ 52 - 65536, pa := hostBase, size := 65536, rd := false, wr := true, ex := true }⟩] }.fetchKey
        (home whole) (fun _ _ => true) farCsr 2 0 0 default = .fail code va)
    ∧ LaneReady farMachine { LaneSpec.plain (.fetch f) with groups := (3, 1, 1, 1) } f (home whole) whole
    ∧ (farMachine.gridOf (home whole)).buf 2 = farCsr ∧ farCsr.fetchHandle = true ∧ farCsr.fetchMisaligned = false
    ∧ (∀ va ∈ farCsr.fetchAddrs 0 0, va < 2 ^ 52) ∧ flag (whole.executing f) 0 = true ∧ whole.flying = []
    ∧ c.access 1 = some b ∧ b.parts.find? (fun q => q.unit == 0) = some p ∧ p.held = none ∧ p.key = none ∧ c.before 1 = []
    ∧ c.status = .live ∧ (∃ q, farMachine.fetchKey (home c) (b.mayRead (c.before 1)) farCsr 2 0 0 (c.cursors.get 0) = .got q
      ∧ (((BufRec.fetchForm farCsr 0 0 q.key).addrs farCsr).find? (fun va => decide (2 ^ 52 ≤ va)) == some (2 ^ 52)) = true) :=
  ⟨fun l h => key_of (g := fun q => (q.addrs ((laneMachine.gridOf (home whole)).buf 2)).all (fun va => decide (va < 2 ^ 52)))
      ((by decide +kernel : ∀ l < 64, (found (laneMachine.fetchKey (home whole) (whole.mayRead (laneAccess whole
        (fields 5 1 0 0 0 2 (2 <<< 3)) (.fetch 2) .weak .dev false ((laneMachine.gridOf (home whole)).buf 2) []))
        ((laneMachine.gridOf (home whole)).buf 2) 2 0 0 (whole.cursors.get l))).any (fun q =>
          ((BufRec.fetchForm ((laneMachine.gridOf (home whole)).buf 2) 0 0 q.key).addrs ((laneMachine.gridOf (home whole)).buf 2)).all
            (fun va => decide (va < 2 ^ 52))) = true) l h),
    key_of (g := fun q => (q.addrs farCsr).find? (fun va => decide (2 ^ 52 ≤ va)) == some (2 ^ 52)) (by decide +kernel),
    fail_of (by decide +kernel), ready_of rfl (by decide +kernel), rfl, by decide +kernel, by decide +kernel,
    by decide +kernel, by decide +kernel, rfl, rfl, rfl, rfl, rfl, rfl, rfl,
    key_of (g := fun q => (q.addrs farCsr).find? (fun va => decide (2 ^ 52 ≤ va)) == some (2 ^ 52)) (by decide +kernel)⟩

/-- No structure, an IF, an IF after its ELSE, a loop that goes on and one that ends, and 15 and 16 structures. -/
theorem test_meets_StructuredControl :
    let p : Progress := { pc := 0, active := 0xF, frames := [], results := [], ended := false }
    let one := { p with frames := [.ifs 0xF 0xC false 0] }
    let loop := { p with frames := [.loop 0xF 0 0] }
    let many := { p with frames := List.replicate 16 (.ifs 0xF 0 true 0) }
    let k0 : Mask := ~~~(running.pred 7)
    Issuing (rich .lane (home running) []) (home running) running ∧ running.prog = some p ∧ p.frames.length < 16
    ∧ 16 ≤ many.frames.length ∧ (∃ entry rest mark fs, one.frames = .ifs entry rest false mark :: fs)
    ∧ (∃ entry rest mark fs, many.frames = .ifs entry rest true mark :: fs) ∧ (∃ entry body mark fs, loop.frames = .loop entry body mark :: fs)
    ∧ loop.active &&& k0 = 0 ∧ loop.active &&& running.pred 7 ≠ 0
    ∧ (let inside := [(0xF#64, 0xC#64, false, 3)]
       ({ p with frames := [.ifs 0xF 0xC false 3, .loop 0xF 0 0] }).frames =
        inside.map (fun x => .ifs x.1 x.2.1 x.2.2.1 x.2.2.2) ++ .loop 0xF 0 0 :: [])
    ∧ (∀ entry rest mark fs, many.frames ≠ .ifs entry rest false mark :: fs) ∧ (∀ entry rest elsed mark fs, loop.frames ≠ .ifs entry rest elsed mark :: fs)
    ∧ (∀ entry body mark fs, one.frames ≠ .loop entry body mark :: fs) ∧ (∀ entry body mark, .loop entry body mark ∉ one.frames) :=
  ⟨rfl, rfl, by decide, by decide, ⟨_, _, _, _, rfl⟩, ⟨_, _, _, _, rfl⟩, ⟨_, _, _, _, rfl⟩, by decide, by decide, rfl, nofun, nofun, nofun,
    fun _ _ _ h => by cases h with | tail _ h => cases h⟩

/-- Each way out of the checks: a role, a tile, a register at REGS, a partly live crew, an empty executing set, at the end of a run
inside an IF too, a window of no registers, an empty source with and without `!`. -/
theorem test_meets_LaneIssueTraps :
    let f := fields 5 0 0 0 2 1 0
    let never := { f with gneg := true }
    let w := home running
    let s := rich .lane w []
    let mask := BitVec.ofNat 4096 (0x1FF <<< (8 * 0x0B0 + 72))
    let eight := { equipped with record := equipped.record &&& ~~~mask ||| BitVec.ofNat 4096 (8 <<< (8 * 0x0B0 + 72)) }
    let t := { s with grids := [(0, { equippedGrid with copy := eight })] }
    let inside := { running with prog := some { pc := 0, active := 0xF, frames := [.ifs 0xF 0 true 0], results := [], ended := false } }
    let waits := { running with vTag := [(laneKey 1 3, 9)] }
    let spec := fun (i : Instr) => laneSpecOf s w running i
    let inRegs := fun (i : Instr) (f : LaneFields) => ∀ n ∈ [0, 1, 2, 3], (operandAt i f n).outOfRegs 256 1 = false
    Issuing s w running ∧ Issuing t w running ∧ Issuing (rich .lane (home inside) []) (home inside) inside ∧ inside.run.frames ≠ []
    ∧ s.regsOf w running = 256 ∧ t.regsOf w running = 8 ∧ laneFieldsOf (.iadd f) = some f ∧ inRegs (.iadd f) f ∧ inRegs (.accept f) f
    ∧ (spec (.iadd f)).map (fun p => (p.badRole, p.badDirect, p.collective)) = some (false, false, false)
    ∧ (spec (.accept f)).map (fun p => (p.badRole, p.badDirect, p.collective)) = some (false, false, true)
    ∧ (laneSpecOf s w { running with role := 0 } (.mma f)).map (·.badRole) = some true
    ∧ (spec (.mma { f with srca := 8 })).map (·.badDirect) = some true
    ∧ (∃ n ∈ [0, 1, 2, 3], (operandAt (.iadd (fields 5 0 0 0 2 8 0)) (fields 5 0 0 0 2 8 0) n).outOfRegs (t.regsOf w running) 1 = true)
    ∧ running.executing f ≠ laneMask (s.width w) ∧ running.executing f ≠ 0 ∧ running.executing never = 0
    ∧ (∃ n ∈ [0, 1, 2, 3], (operandAt (.iadd { f with isel := 1, srca := 0, p2 := 0x80000000 }) { f with isel := 1, srca := 0, p2 := 0x80000000 } n).outOfWindow running (running.executing f) 1 = true)
    ∧ (∀ n ∈ [0, 1, 2, 3], (operandAt (.iadd f) f n).outOfWindow waits (waits.executing f) 1 = false)
    ∧ (operandAt (.iadd f) f 1).empty waits (waits.executing f) 1 = true ∧ flag f.pol 0 = false ∧ flag { f with pol := 1 }.pol 0 = true := by
  refine ⟨rfl, rfl, rfl, ?_⟩
  decide +kernel

/-- Tiles 0 and 7, accumulator 0 bound; slots 0 to 2 hold FP32, E4M3 and BF16. -/
theorem test_meets_MatrixInstructions :
    let w := { home whole with accs := [(0, ⟨false, []⟩)] }
    let s := rich .lane w []
    let m := fields 0 0 0 0 7 0 0x101
    let ready := fun (i : Instr) (f : LaneFields) (ts : List Nat) (groups : Nat × Nat × Nat × Nat) => whole.mma = none ∧ LaneReady s
      { LaneSpec.plain i with badRole := !whole.mayMatrix, badDirect := ts.any (fun t => decide (s.tileLimit w ≤ t)),
                              collective := true, groups := groups } f w whole
    let x := fields 0 0 0 0 2 0 0x303
    ready (.mma m) m [m.srca.toNat, m.srcb.toNat] (1, 1, 1, 1) ∧ mmaPair (s.slot w m.fa.toNat) (s.slot w m.fb.toNat) = true
    ∧ badTile false (s.tileLimit w) 7 = false
    ∧ ready (.mma x) x [x.srca.toNat, x.srcb.toNat] (1, 1, 1, 1) ∧ mmaPair (s.slot w x.fa.toNat) (s.slot w x.fb.toNat) = true
    ∧ mmaScaled (s.slot w x.fa.toNat) (s.slot w x.fb.toNat) (s.slot w x.fa.toNat) = true ∧ badTile true (s.tileLimit w) 2 = false
    ∧ s.width w = 32 ∧ (w.accs.find? m.dest.toNat).isSome = true
    ∧ ready (.accz (fields 0 0 0 0 0 0 0)) (fields 0 0 0 0 0 0 0) [] (1, 1, 1, 1)
    ∧ ready (.accrd (fields 248 0 6 0 0 0 0)) (fields 248 0 6 0 0 0 0) [] (8, 1, 1, 1)
    ∧ ready (.accwr (fields 0 0 6 0 0 248 0)) (fields 0 0 6 0 0 248 0) [] (1, 8, 1, 1)
    ∧ ready (.acccvt (fields 7 0 0 0 0 0 0)) (fields 7 0 0 0 0 0 0) [7] (1, 1, 1, 1) ∧ (s.slot w 0).fmt = 0x01
    ∧ ready (.acccvt (fields 6 0 14 0 0 0 4)) (fields 6 0 14 0 0 0 4) [6] (1, 1, 1, 1) ∧ elemBits (s.slot w 4).fmt = 4
    ∧ 3 ≤ cvtParts (s.slot w 4).fmt ∧ blockFormat (s.slot w 4).fmt = true ∧ badTile true (s.tileLimit w) 6 = false
    ∧ ({ whole with role := 0 }).mayMatrix = false :=
  ⟨⟨rfl, ready_of rfl (by decide +kernel)⟩, by decide +kernel, by decide +kernel, ⟨rfl, ready_of rfl (by decide +kernel)⟩,
    by decide +kernel, by decide +kernel, by decide +kernel, by decide +kernel, rfl, ⟨rfl, ready_of rfl (by decide +kernel)⟩,
    ⟨rfl, ready_of rfl (by decide +kernel)⟩, ⟨rfl, ready_of rfl (by decide +kernel)⟩, ⟨rfl, ready_of rfl (by decide +kernel)⟩,
    by decide +kernel, ⟨rfl, ready_of rfl (by decide +kernel)⟩, by decide +kernel, by decide +kernel, by decide +kernel, by decide +kernel,
    rfl⟩

/-! Events. -/

/-- An active queue of 8 slots of function 2 and context 0, its packets at 0x8000 (R299). -/
def queue (read tail : DWord) : Queue :=
  { (default : Queue) with state := .active, func := 2, log2size := 3, ctx := 0, ring := 0x8000, mirror := 0x9000, read := read, tail := tail }

/-- The mapped machine with queue 7 and given memory beside the tables. -/
def queued (q : Queue) (m : Memory) : State :=
  { mapped solo with queues := [(7, q)], mem := (tables ++ m).map (fun e => (hostBase + e.1, e.2)) }

/-- TAIL moved as far as SIZE allows, one further, and back; another function's write; activation of SIZE 2^3, 2^16 and 2^2. -/
theorem test_meets_NotifyWrites :
    let q := queue 1 2
    let desc := fun (size : Nat) => BitVec.ofNat 320 (size <<< 32 + 8 <<< 256)
    let s := queued q []
    s.queues.get 7 = q ∧ s.downLinks.contains 0 = false ∧ ({ s with downLinks := [0] }).downLinks.contains 0 = true
    ∧ q.state = .active ∧ q.func.toNat = 2 ∧ ((9 : DWord) - q.read).toNat ≤ 2 ^ q.log2size.toNat ∧ q.tail < 9
    ∧ 2 ^ q.log2size.toNat < ((10 : DWord) - q.read).toNat ∧ q.func.toNat ≠ 3 ∧ (2 : DWord) ≤ q.tail
    ∧ ((2 : DWord) - q.read).toNat ≤ 2 ^ q.log2size.toNat
    ∧ s.queues.find? 7 = some q ∧ (s.queues.get 4095).state = .disabled
    ∧ (s.ctx (nfld (desc 3) 0 8)).valid = true ∧ 3 ≤ nfld (desc 3) 32 5 ∧ nfld (desc 3) 32 5 ≤ 16
    ∧ (fld (desc 3) 256 64 - fld (desc 3) 192 64 : DWord).toNat ≤ 2 ^ nfld (desc 3) 32 5
    ∧ nfld (desc 16) 32 5 = 16 ∧ ¬ 3 ≤ nfld (desc 2) 32 5
    ∧ (let g := { equippedGrid with queue := some 7, atHead := true, pktIndex := 1 }
       g.queue = some 7 ∧ g.atHead = true ∧ (g.reheaded 7 q q).left = false ∧ (g.reheaded 7 q (queue 2 2)).left = true) := by
  decide +kernel

/-- The queue's tenant is 0; the plug-in of tenant 0 runs, or has been stopped. -/
theorem test_meets_RegisterWrites :
    let s := queued (queue 0 1) []
    127 < 128 ∧ 63 < 64 ∧ 3 < 4 ∧ 1 ≤ (255 : BitVec 256).toNat % 2 ^ 32 ∧ (255 : BitVec 256).toNat % 2 ^ 32 ≤ 255
    ∧ s.stopped.contains (s.ctx (s.queues.get 7).ctx.toNat).tenant = false ∧ s.queues.find? 7 = some (queue 0 1)
    ∧ ¬ ({ s with stopped := [0] }).stopped.contains (s.ctx (s.queues.get 7).ctx.toNat).tenant = false := by
  decide +kernel

/-- A LAUNCH and a BARRIER ready at index 0 of the ring, and one with a reserved bit (R301); the bytes of a record that R32 admits at
0x4000, its buffer records at 0x6000. -/
def launchHead : Memory := [(0x8003, 1), (0x8004, 1), (0x8009, 0x40)]
def barrierHead : Memory := [(0x8003, 2), (0x8004, 1)]
def goodRecord : Memory :=
  (List.range 512).filterMap (fun i =>
    let b := fld (placedRecord ||| BitVec.ofNat 4096 (0x6000 <<< (8 * 0x030))) (8 * i) 8
    if b = 0 then none else some (0x4000 + i, b))

/-- The queued machine whose partition is core 0 of die 0. -/
def accepting (m : Memory) : State :=
  { queued (queue 0 1) [] with partitions := [(0, ⟨[(0, 0)], []⟩)], mem := m.map (fun e => (hostBase + e.1, e.2)) }

theorem test_meets_TheLaunchPath_heads :
    let s := queued (queue 0 1) launchHead
    let b := queued (queue 0 1) barrierHead
    let bad := queued (queue 0 1) [(0x8000, 1), (0x8003, 1), (0x8004, 1)]
    let lost := queued { queue 0 1 with ring := 0x40000000 } []
    bad.queues.find? 7 = some (queue 0 1) ∧ bad.headOf 7 = .bad ∧ lost.headOf 7 = .fail .xlat 0x40000000
    ∧ (lost.queues.get 7).reported = false ∧ ({ queue 0 1 with reported := true }).reported = true
    ∧ (b.startHead 7).any (fun p => p.type == 2) = true
    ∧ (s.startHead 7).any (fun p => p.type == 1 && p.lrec == 0x4000 && decide (s.headOf 7 = .ready p)) = true := by
  decide +kernel

/-- Whether a launch record cannot be read. -/
def isFail : LaunchRead → Bool
  | .fail .. => true
  | _ => false

theorem fails_of {x : LaunchRead} (h : isFail x = true) : ∃ code va, x = .fail code va := by
  cases x with
  | fail code va => exact ⟨code, va, rfl⟩
  | moving => cases h
  | copy _ => cases h

theorem test_meets_TheLaunchPath_acceptance :
    ∃ r, (accepting (tables.take 5 ++ goodRecord)).readLaunch 0 0x4000 = .copy r ∧ r.spliceAt = 0 ∧ r.cause 1 = none := by
  have h := mapped_host (s := accepting (tables.take 5 ++ goodRecord)) rfl rfl rfl (by decide +kernel) (by decide +kernel)
  exact ⟨_, (readLaunch_host h (va := 0x4000) (by decide) rfl (by decide +kernel) (by decide +kernel)).1 (by decide +kernel),
    by decide +kernel, by decide +kernel⟩

/-- The partition has one core; the record of `mapped` is refused (test_meets_Launches_read). -/
theorem test_meets_TheLaunchPath_cores : ((accepting []).coresOf 0).length = 1 ∧ ((mapped solo).coresOf 0).length = 0 := by
  decide +kernel

theorem test_meets_TheLaunchPath_unread : ∃ code va, (accepting []).readLaunch 0 0x4000 = .fail code va :=
  fails_of (by decide +kernel)

/-- The oldest slot of a device queue, with a copy and without; a fabric packet for the last free slot, and for a full queue. -/
theorem test_meets_TheLaunchPath_others :
    let d : DevSlot := { (default : DevSlot) with copy := some { equipped with record := placedRecord }, depth := 1 }
    let s := { queued (queue 0 0) launchHead with
                 ctxs := [(0, { (mapped solo).ctx 0 with devq := 0x8000, devPut := 1, devSlots := [(0, d)] })], partitions := [(0, ⟨[(0, 0)], []⟩)] }
    let q := queue 0 7
    let t := { queued q [] with fabric := [(0, BitVec.ofNat 64 (1 <<< 63 + 5 <<< 32 + 4 <<< 24 + 7 <<< 12))] }
    s.devReady 0 = true ∧ s.isFirst (ioOf 0) 0 (s.ctx 0).devSince = true ∧ (s.ctx 0).devSlots.find? (s.ctx 0).devTake = some d
    ∧ d.copy = some { equipped with record := placedRecord } ∧ (s.ctx 0).devSlots.find? ((s.ctx 0).devTake + 1) = none
    ∧ LaunchCopy.cause { equipped with record := placedRecord } (s.coresOf 0).length = none ∧ ({ d with copy := none }).copy = none
    ∧ t.downLinks.contains 5 = false ∧ t.fabricEntry 5 4 7 = true ∧ t.fabricEntry 5 4 6 = false
    ∧ ¬ t.stopped.contains (t.ctx q.ctx.toNat).tenant = true ∧ ({ t with stopped := [0] }).stopped.contains (t.ctx 0).tenant = true
    ∧ q.state = .active ∧ ({ q with state := .badpkt }).state ≠ .active
    ∧ ¬ 2 ^ q.log2size.toNat ≤ (q.tail - q.read).toNat ∧ 2 ^ (queue 0 8).log2size.toNat ≤ ((queue 0 8).tail - (queue 0 8).read).toNat
    ∧ (List.replicate 128 (0 : Byte)).length = 128 := by
  decide +kernel

/-! Dispatch: a grid of one workgroup in a context whose partition is core 0 of die 0. -/

def partitioned (gs : SMap Grid) (ws : SMap Workgroup) : State :=
  { State.reset with
      ctxs := [(0, { (default : Context) with valid := true })], partitions := [(0, ⟨[(0, 0)], []⟩)], grids := gs, wgs := ws, nextWid := 1 }

theorem test_meets_Grids_draw :
    let g := equippedGrid
    let s := partitioned [(0, g)] []
    let drawn := { g with counter := 1, drawn := [(0, 0)] }
    let t := partitioned [(0, drawn)] []
    s.grids.find? 0 = some g ∧ s.canDraw (0, g) 0 = true ∧ s.savedFirst 0 = false
    ∧ (∀ e ∈ s.grids, s.canAdmit e 0 = false ∧ (s.canDraw e 0 = false ∨ gridBefore e (0, g) = false))
    ∧ t.grids.find? 0 = some drawn ∧ t.canAdmit (0, drawn) 0 = true ∧ t.savedFirst 0 = false ∧ drawn.drawnOn 0 = some 0
    ∧ t.pickCore drawn 0 = some 0 ∧ (∀ e ∈ t.grids, t.canAdmit e 0 = false ∨ gridBefore e (0, drawn) = false) := by
  decide +kernel

/-- A co-resident grid at its queue's head, with room for its one workgroup, without, and behind saved work's like: an ordinary grid. -/
theorem test_meets_Grids_coresident :
    let co := { equipped with record := equipped.record ||| BitVec.ofNat 4096 (1 <<< 33) }
    let g := { equippedGrid with copy := co, atHead := true }
    let s := partitioned [(1, g)] []
    let t := partitioned [(0, equippedGrid), (1, g)] []
    let none_ := { s with partitions := [] }
    co.coresident = true ∧ s.fits (1, g) = some [(0, 1)] ∧ s.beforeShares (1, g) = false ∧ none_.fits (1, g) = none
    ∧ t.fits (1, g) = some [(0, 1)] ∧ t.beforeShares (1, g) = true := by
  decide +kernel

/-- The last workgroup of a grid, one before it, one whose crew still runs, one with children, before and after it is parked. -/
theorem test_meets_Grids_retirement :
    let two := { equipped with record := equipped.record ||| BitVec.ofNat 4096 (3 <<< (8 * 0x018)) }
    let w := home { solo with status := .retired }
    let s := partitioned [(0, { equippedGrid with copy := two })] [(0, w)]
    let kids := { w with children := [2] }
    s.wgs.find? 0 = some w ∧ w.seq = 0 ∧ s.frozen w = false ∧ w.finished = true ∧ w.children = [] ∧ 0 + 1 < two.total
    ∧ equipped.total ≤ 0 + 1 ∧ (home solo).finished = false ∧ kids.finished = true ∧ kids.children ≠ [] ∧ kids.parked = false
    ∧ ({ kids with parked := true }).finished = true := by
  decide +kernel

/-! Translation. -/

/-- An access of one part at an address that its die has not cached. -/
def untranslated (a : Nat) (h : Option Held) : Crew := flies (.load 4) { wordPart a with pa := none, bytes := 0xF, held := h }

def unmapped (c : Crew) (m : Memory) : State := { mapped c with tlb := [], mem := m.map (fun e => (hostBase + e.1, e.2)) }

/-- A leaf, an invalid entry, and one whose page is being moved. -/
theorem test_meets_Translations_walks :
    let c := untranslated 8 none
    let d := untranslated 0x40000000 none
    let leaf : Leafmap := { va := 0, pa := hostBase, size := 2 ^ 30, rd := true, wr := true, ex := true }
    let moving := unmapped c (tables.take 4 ++ [(0x3006, 0x84)])
    let walks := fun (s : State) (c : Crew) => (c.access 1).any (fun a => decide (a.parts.length = 1) && a.parts.all (fun p => s.walks (home c) a p))
    walks (unmapped c tables) c = true ∧ ((unmapped c tables).walkOn (some 0) 0 8).1 = .leaf leaf
    ∧ (unmapped c tables).checkLeaf 0 .rd leaf 8 = .ok (hostBase + 8)
    ∧ walks (unmapped d tables) d = true ∧ ((unmapped d tables).walkOn (some 0) 0 0x40000000).1 = .invalid
    ∧ walks moving c = true ∧ (moving.walkOn (some 0) 0 8).1 ≠ .invalid ∧ (moving.walkOn (some 0) 0 8).1 ≠ .leaf leaf := by
  decide +kernel

/-- Accesses of two crews that wait for the same invalid page; the scalar stream of the second stands for that page too. -/
theorem test_meets_Translations_shared :
    let c := untranslated 0x40000000 none
    let d := { untranslated 0x40000010 none with walking := [⟨.scalar, false, .ex, 0x4000FFFC⟩] }
    let w := { home c with crews := [(0, c), (1, d)] }
    let s := { unmapped c tables with wgs := [(0, w)] }
    s.find ⟨0, 0⟩ = some (w, c) ∧ s.find ⟨0, 1⟩ = some (w, d)
    ∧ (d.access 1).any (fun b => b.parts.all (fun q => s.walks w b q && q.addr / 65536 == 0x40000000 / 65536)) = true
    ∧ d.walking = [⟨.scalar, false, .ex, 0x4000FFFC⟩] ∧ (0x4000FFFC : Nat) / 65536 = 0x40000000 / 65536 := by
  decide +kernel

/-- An access, a codebook load and an instruction fetch that are held; one for the crews of a population instruction. -/
theorem test_meets_Translations_held :
    let h : Held := ⟨.xlat, 8⟩
    let c := untranslated 8 (some h)
    let b := flies (.cbload 1 0 []) { wordPart 8 with held := some h }
    let f := fun (joint : Bool) => { solo with fetchHeld := [⟨5, .scalar, joint, h⟩] }
    (∀ joint, (f joint).fetchHeld.find? (fun x => x.id == 5) = some ⟨5, .scalar, joint, h⟩)
    ∧ c.fetchHeld.find? (fun x => x.id == 1) = none
    ∧ (∃ a, c.access 1 = some a ∧ a.parts.findSome? (fun p => p.held) = some h ∧ ∀ book code got, a.kind ≠ .cbload book code got)
    ∧ (∃ a, b.access 1 = some a ∧ a.parts.findSome? (fun p => p.held) = some h ∧ a.kind = .cbload 1 0 []) ∧ (5 : Nat) ≠ 1 :=
  ⟨fun _ => rfl, rfl, ⟨_, rfl, rfl, nofun⟩, ⟨_, rfl, rfl, rfl⟩, by decide⟩

/-- A shootdown that waits for an access in flight, and one that waits for none. -/
theorem test_meets_Translations_shootdown :
    let d : Shootdown := ⟨1, 0, 0, 65536⟩
    let s := fun (c : Crew) => { mapped c with shootdowns := [d] }
    let used := fun (c : Crew) => (s c).flyingWhere (fun w a => w.ctx == d.ctx && a.usesPage d.va d.size)
    (s solo).shootdowns.find? (fun x => x.io == 1) = some d ∧ used solo = [] ∧ used (flies (.load 4) (wordPart 8)) ≠ [] := by
  decide +kernel

/-- A leaf in a line of the firmware's on chip, at 1 MiB, of a 64 KiB page of HBM; a move of it to CXL memory (R324, R330). -/
def leafLine (e : Nat) : State :=
  { mapped solo with
      cxlBytes := 0x10000000000,
      lines := [(4096, ⟨some .firmware, false, true, SMap.putList [] 0 (leBytes 8 e)⟩)] }

def pageLeaf : Nat := 3 + 7 <<< 4 + 1 <<< 16
def moveTo (dst : Nat) : BitVec 256 := BitVec.ofNat 256 (0x100000 + dst <<< 64 + (hostBase + 0x5000) <<< 128)

/-- A leaf pinned 126, 127 and 1 times, and one behind a link that is down. -/
theorem test_meets_Pins :
    let pins := fun (n : Nat) => nfld ((leafLine (n <<< 57)).leafAt 0x100000) 57 7
    WholeLines (leafLine pageLeaf) ∧ (leafLine pageLeaf).leafReachable 0x100000 = true
    ∧ ({ leafLine pageLeaf with downLinks := [0] }).leafReachable hostBase = false ∧ pins 126 < 127 ∧ pins 127 = 127 ∧ 1 ≤ pins 1 := by
  refine ⟨rfl, ?_⟩
  decide +kernel

/-- A command for a good leaf and DST, for one that is pinned, that is no leaf, whose frame cannot be reached, with a DST in HBM. -/
theorem test_meets_Moves_begin :
    let s := leafLine pageLeaf
    let cmd := moveTo cxlBase
    let far := { leafLine (pageLeaf + 0x4000000000000) with downLinks := [0] }
    moveLeaf cmd = 0x100000 ∧ s.leafReachable (moveLeaf cmd) = true ∧ s.moves.find? (fun x => x.io == 1 && x.cmd == cmd) = none ∧ (s.moves.filter (fun x => x.io == 1)).length < 64
    ∧ leafPage (s.leafAt (moveLeaf cmd)) = some (65536, 65536) ∧ s.pageReachable 65536 65536 = true
    ∧ nfld (s.leafAt (moveLeaf cmd)) 57 7 = 0 ∧ s.badDst 65536 65536 (moveDst cmd) = false ∧ s.badDst 65536 65536 (moveDst (moveTo 0x20000)) = true
    ∧ leafPage ((leafLine (pageLeaf + 1 <<< 57)).leafAt (moveLeaf cmd)) = some (65536, 65536)
    ∧ nfld ((leafLine (pageLeaf + 1 <<< 57)).leafAt (moveLeaf cmd)) 57 7 ≠ 0 ∧ leafPage ((leafLine 0).leafAt (moveLeaf cmd)) = none
    ∧ leafPage (far.leafAt (moveLeaf cmd)) = some (hostBase + 65536, 65536) ∧ far.pageReachable (hostBase + 65536) 65536 = false := by
  decide +kernel

/-- The move as it stands once begun and once the leaf is marked; an access in flight to the old frame; a leaf that has changed. -/
theorem test_meets_Moves_end :
    let cmd := moveTo cxlBase
    let m : Move := ⟨1, cmd, BitVec.ofNat 64 pageLeaf, false⟩
    let begun := { leafLine pageLeaf with moves := [m] }
    let e1 : BitVec 64 := setFld (setFld m.e0 55 1 1) 56 1 0
    let marked := { leafLine e1.toNat with moves := [{ m with marked := true }] }
    let lost := { leafLine pageLeaf with moves := [{ m with marked := true }] }
    let used := fun (s : State) => s.flyingWhere (fun _ a => a.usesFrame 65536 65536)
    let busy := { marked with wgs := [(0, home (flies (.load 4) { wordPart 8 with pa := some 65544 }))] }
    begun.moves.find? (fun x => x.io == 1 && x.cmd == cmd) = some m ∧ leafPage m.e0 = some (65536, 65536)
    ∧ begun.leafAt (moveLeaf cmd) = m.e0 ∧ marked.leafAt (moveLeaf cmd) ≠ m.e0
    ∧ marked.moves.find? (fun x => x.io == 1 && x.cmd == cmd) = some { m with marked := true } ∧ used marked = [] ∧ used busy ≠ []
    ∧ (marked.copyPage 65536 cxlBase 65536).leafAt (moveLeaf cmd) = e1 ∧ (lost.copyPage 65536 cxlBase 65536).leafAt (moveLeaf cmd) ≠ e1
    ∧ begun.leafReachable (moveLeaf cmd) = true ∧ ({ begun with downLinks := [0] }).leafReachable hostBase = false
    ∧ marked.pageReachable 65536 65536 = true ∧ marked.pageReachable cxlBase 65536 = true
    ∧ ({ marked with downLinks := [1] }).pageReachable cxlBase 65536 = false
    ∧ marked.owed = [] := by
  decide +kernel

/-- The first lines of both pages are local; the source line off chip, and dirty on chip for context 3. -/
theorem test_meets_Moves_lines :
    let s := leafLine pageLeaf
    let l : Line := ⟨some (.ctx 3), false, true, []⟩
    65536 % 256 = 0 ∧ cxlBase % 256 = 0 ∧ s.isLocal (65536 + 256 * 0) = true ∧ s.reachable (65536 + 256 * 0) = true ∧ s.isLocal (cxlBase + 256 * 0) = true ∧ 65536 ≠ cxlBase
    ∧ s.lines.find? ((65536 + 256 * 0) / 256) = none
    ∧ ({ s with lines := [(256, l)] }).lines.find? ((65536 + 256 * 0) / 256) = some l ∧ l.owner = some (.ctx 3) ∧ l.dirty = true := by
  decide +kernel

/-- An aperture for context 0 that allows reads alone, one for a secure context, and requests at both ends of its window. -/
theorem test_meets_OutsideAccesses :
    let e : BitVec 256 := BitVec.ofNat 256 (1 <<< 63 + 1 <<< 62 + 5 <<< 32 + 4 <<< 24 + 0x100 <<< 64 + 0x100 <<< 128 + 0x1000 <<< 192)
    let s := { mapped solo with apertures := [(3, e)] }
    let sec := { s with ctxs := [(0, { (default : Context) with valid := true, secure := true })] }
    let matches_ := fun (addr : Nat) => decide (flag e 63 = true ∧ nfld e 32 12 = 5 ∧ nfld e 24 8 = 4
      ∧ nfld e 64 39 ≤ addr ∧ addr < nfld e 64 39 + nfld e 128 39)
    s.downLinks.contains 0 = false ∧ s.openTo (hbmBytes - 4) 4 = true ∧ ({ s with downLinks := [0] }).downLinks.contains 0 = true
    ∧ isHost hostBase = true ∧ isHost (hostBase + opBytes (.read 4) - 1) = true ∧ (isHost 0 && isHost 3) = false ∧ s.isLocal 0 = true
    ∧ s.takesLine (0 / 256) = true ∧ s.downLinks.contains 5 = false ∧ ({ s with downLinks := [5] }).downLinks.contains 5 = true
    ∧ matches_ 0xFF = false ∧ matches_ 0x100 = true ∧ matches_ 0x1FF = true ∧ matches_ 0x200 = false
    ∧ SMap.Sorted s.apertures ∧ (∀ x ∈ s.apertures, ¬ x.1 < 3)
    ∧ flag e 62 = true ∧ flag e 61 = false ∧ (s.ctx (nfld e 248 8)).valid = true ∧ (s.ctx (nfld e 248 8)).secure = false
    ∧ s.openTo (nfld e 192 52 + (0x1FC - nfld e 64 39)) 4 = true ∧ (sec.ctx (nfld e 248 8)).secure = true := by
  decide +kernel

/-! The ladder. -/

/-- A command of a SCOPE for context 0 with a pool at 0x6000 of host memory and all limits 1. -/
def ladderCmd (scope save : Nat) : BitVec 256 :=
  BitVec.ofNat 256 (scope + 1 <<< 16 + 1 <<< 32 + save <<< 64 + (hostBase + 0x6000) <<< 192)

def poolAt : Nat := hostBase + 0x6000
def ladder (r : Rung) : Ladder := { ladderOf 0 (ladderCmd 0 1) 0 with rung := r, members := [0] }

theorem test_meets_Ladder_commands :
    let s := mapped solo
    let t := { s with ladders := [ladder .drain] }
    let u := { s with ladders := [ladder .save], wgs := [] }
    let masked := { s with mem := [(hostBase + 7, 1)] }
    3 ≤ nfld (ladderCmd 3 1) 0 8 ∧ nfld (ladderCmd 1 0) 64 32 = 0
    ∧ nfld (masked.coreMask (ladderCmd 2 1 + BitVec.ofNat 256 (hostBase <<< 128))) (64 * 0 + 56) 8 ≠ 0
    ∧ nfld (ladderCmd 0 1) 0 8 = 0 ∧ nfld (ladderCmd 0 1) 64 32 ≠ 0 ∧ nfld (ladderCmd 0 1) 32 32 ≠ 0 ∧ s.ladders = []
    ∧ (∃ e ∈ s.wgs, e.2.ctx = nfld (ladderCmd 0 1) 8 8 ∧ e.2.parked = false)
    ∧ t.ladder 0 poolAt = some (ladder .drain) ∧ (ladder .drain).rung = .drain ∧ (∃ e ∈ t.wgs, t.inScope (ladder .drain) e.2 = true)
    ∧ (ladder .drain).quiesceUs ≠ 0 ∧ u.ladder 0 poolAt = some (ladder .save) ∧ (ladder .save).rung ≠ .drain
    ∧ (∀ e ∈ ({ t with wgs := [] }).wgs, t.inScope (ladder .drain) e.2 = false)
    ∧ (∀ e ∈ ({ t with wgs := [(0, { home solo with parked := true })] }).wgs, e.2.parked = true) := by
  decide +kernel

/-- A workgroup in the scope that is quiet, one with an access in flight, one that may be flushed and one that may not; a pool of one
page, too small for its area. -/
theorem test_meets_Ladder_saves :
    let l := ladder .save
    let w := home solo
    let s := { mapped solo with ladders := [l] }
    s.ladder 0 poolAt = some l ∧ s.wgs.find? 0 = some w ∧ w.admitted ∈ l.members ∧ s.quiet w = true
    ∧ s.quiet (home (flies (.load 4) (wordPart 8))) = false ∧ s.mayFlush w = true ∧ s.mayFlush { w with idem := false } = false
    ∧ l.tooBig 8192 = false ∧ ({ l with poolSz := 1 }).tooBig 8192 = true := by
  decide +kernel

/-- A saved pool with one area, and a command that names another. -/
theorem test_meets_Ladder_resume :
    let a : Area := ⟨0x7000, 0, home solo, 0, false⟩
    let p : Pool := ⟨0, poolAt, 0, false, [a]⟩
    let s := { mapped solo with pools := [p], wgs := [], mem := [(poolAt, 1)] }
    let cmd : BitVec 128 := BitVec.ofNat 128 poolAt
    s.resumable 0 (cmd + 8) = none ∧ s.resumable 0 cmd = some p ∧ (∃ a ∈ p.areas, a.restored = false) ∧ s.pools = [p] := by
  decide +kernel

/-- A workgroup that is parked with a child, and the bytes of its save area. -/
def parked : Workgroup := { home solo with parked := true, crews := [], children := [4] }
def parkedArea (n : Nat) : Area := ⟨hostBase + n, n, parked, 1, false⟩

/-- Two save areas, of which the first is resumed: its image is what a save wrote, or nothing. -/
def resuming (bs : List Byte) : State :=
  { partitioned [(0, equippedGrid)] [] with
      pools := [⟨0, poolAt, 0, true, [parkedArea 0x7000, parkedArea 0x90000]⟩], mem := Memory.writeList [] (hostBase + 0x7000) bs }

theorem test_meets_Ladder_resumption :
    let a := parkedArea 0x7000
    let b := parkedArea 0x90000
    let s := resuming []
    a.restored = false ∧ s.savedAreas.find? (fun x => x.1.base == poolAt && x.1.areas[0]? == some x.2) = some (⟨0, poolAt, 0, true, [a, b]⟩, a)
    ∧ s.resumePlaces a 0 = some [(a, 0, 0)] ∧ s.resumePlaces a 1 = none
    ∧ s.pools = [⟨0, poolAt, 0, true, [a, b]⟩] ∧ (∃ x ∈ [a, b], x ≠ a ∧ x.restored = false)
    ∧ a.wg.loadChecked (s.grids.get a.wg.seq) (s.areaOf a) = none := by
  decide +kernel

theorem test_meets_Ladder_image :
    let a := parkedArea 0x7000
    let s := resuming (parked.areaBytes equippedGrid 1 (zeroBytes 4))
    (a.wg.loadChecked (s.grids.get a.wg.seq) (s.areaOf a)).isSome = true := by
  decide +kernel

/-! Contexts, resets, errors, bring-up. -/

theorem test_meets_Contexts :
    let d : BitVec 512 := BitVec.ofNat 512 (7 + 1 <<< 32 + 16 <<< 272)
    let s := { State.reset with keys := [(7, 5)] }
    let x : Context := { (default : Context) with valid := true, keySlot := 7 }
    let one := { s with ctxs := [(3, x)] }
    let sweeping : Context := { (default : Context) with sweeping := true }
    255 < 256 ∧ s.activationCause 255 d = 0 ∧ State.reset.activationCause 255 d ≠ 0
    ∧ one.ctxs.find? 3 = some x ∧ x.valid = true ∧ one.releasable 3 = true ∧ one.releasable 4 = false
    ∧ ({ s with ctxs := [(3, sweeping)] }).ctxs.find? 3 = some sweeping ∧ sweeping.sweeping = true
    ∧ 63 < 64 ∧ (s.regions.get 63).valid = false ∧ 511 < 512 ∧ (∀ e ∈ s.ctxs, e.2.valid = true → e.2.keySlot.toNat ≠ 511)
    ∧ (∃ e ∈ one.ctxs, e.2.valid = true ∧ e.2.keySlot.toNat = 7)
    ∧ (∃ e ∈ [(7, queue 0 1)], e.2.ctx.toNat ≠ 3) ∧ (∃ e ∈ [(7, { queue 0 1 with ctx := 3 })], e.2.ctx.toNat = 3)
    ∧ (∀ o ∈ [Owed.bytes 4 0 none []], o.span.1 ≠ 3) ∧ (∃ o ∈ [Owed.bytes 3 0 none []], o.span.1 = 3)
    ∧ 7 < 8 ∧ 55 < 56 ∧ (∀ e ∈ s.wgs, ¬ (e.2.die = 7 ∧ e.2.core = 55)) ∧ (∃ e ∈ (mapped solo).wgs, e.2.die = 0 ∧ e.2.core = 0) := by
  decide +kernel

/-- A valid region with and without an access in flight to it: translated, or on a leaf that the tables hold; a change that is held, and
another. -/
theorem test_meets_Regions :
    let r : Region := ⟨true, true, BitVec.ofNat 52 hostBase, BitVec.ofNat 52 (hostBase + 0xFFFF)⟩
    let size := r.limit.toNat + 1 - r.base.toNat
    let used := fun (c : Crew) => (mapped c).flyingWhere (fun w a => a.parts.any ((mapped c).leadsTo w a (r.base.toNat, size)))
    let hold : Nat × BitVec 128 := (0, 1)
    (mapped solo).regionHold = none ∧ ({ mapped solo with regionHold := some hold }).regionHold ≠ none ∧ hold ≠ (1, 1) ∧
    r.valid = true ∧ used solo = [] ∧ used (flies (.load 4) { wordPart 8 with pa := some (hostBase + 8) }) ≠ []
    ∧ used (flies (.load 4) { wordPart 8 with pa := none }) ≠ [] ∧ used (flies (.load 4) (wordPart 8)) = []
    ∧ (let m : Move := ⟨1, moveTo hostBase, BitVec.ofNat 64 pageLeaf, false⟩
       leafPage m.e0 = some (65536, 65536) ∧ moveDst m.cmd = hostBase ∧ r.base.toNat ≤ r.limit.toNat ∧ hostBase ≤ r.limit.toNat
       ∧ r.base.toNat < hostBase + 65536 ∧ ¬ r.base.toNat < 65536 + 65536) := by
  decide +kernel

/-- An image of version 5 with key 9, signed; the same with a signature that is one off, and one of version 4. -/
def signedImage (v : Byte) : FlashImage := { bytes := [v, 0, 0, 0], key := [9], signature := Config.sealOf [9] (Sha.hash [v, 0, 0, 0]) }
def forged : FlashImage := { signedImage 5 with signature := (signedImage 5).signature + 1 }

theorem forged_ne : forged.signature ≠ (signedImage 5).signature :=
  fun h => absurd (BitVec.add_right_eq_self.mp h) (by decide +kernel)

/-- A plug-in's image that is signed and not rolled back, one of an older version, one of another signer, a forged one, and none; its
window. -/
theorem test_meets_Plugins :
    let im := signedImage 5
    let s := { State.reset with images := [im, im, im], keyHash := Sha.hash [9], rollback := 5, windows := [(4 * 0 + 3, (4096, 4096))] }
    s.images[2 + 0]? = some im ∧ im.signature = Config.sealOf im.key (Sha.hash im.bytes)
    ∧ forged.signature ≠ Config.sealOf forged.key (Sha.hash forged.bytes) ∧ s.images[2 + 1]? = none
    ∧ Sha.hash im.key = s.keyHash ∧ s.rollback ≤ im.version ∧ ¬ ({ s with rollback := 6 }).rollback ≤ im.version
    ∧ ({ s with keyHash := 8 }).keyHash ≠ Sha.hash im.key
    ∧ s.windows.find? (4 * 0 + 3) = some (4096, 4096) ∧ 4096 ≤ 8191 ∧ 8191 < 4096 + 4096
    ∧ s.windows.find? (4 * 0 + 0) = none ∧ s.windows.find? (4 * 0 + 1) = none ∧ s.windows.find? (4 * 0 + 2) = none := by
  refine ⟨rfl, rfl, forged_ne, rfl, ?_⟩
  decide +kernel

/-- A partition whose one core is to leave, with a workgroup there and without; a core that is leaving. -/
theorem test_meets_Partitions :
    let s := partitioned [(0, equippedGrid)] [(0, home solo)]
    let leaving := (s.partitions.get 0).cores.filter (fun p => !([((7 : Nat), (55 : Nat))].contains p))
    (∀ p ∈ [((7 : Nat), (55 : Nat))], p.1 < 8 ∧ p.2 < 56) ∧ leaving = [(0, 0)] ∧ s.standsOn 0 leaving = true
    ∧ (partitioned [(0, equippedGrid)] []).standsOn 0 leaving = false
    ∧ (let named : List (Nat × Nat) := [(7, 55), (7, 55), (8, 0), (7, 54)]
       ((named.filter (fun p => decide (p.1 < 8 ∧ p.2 < 56) && !({ s with retired := [56 * 7 + 54] }).retired.contains (56 * p.1 + p.2))).eraseDups)
         = [(7, 55)])
    ∧ (0, 0) ∈ (({ s with partitions := [(0, ⟨[(7, 55), (0, 0)], [(0, 0)]⟩)] }).partitions.get ((s.ctx 0).part)).leaving := by
  decide +kernel

theorem test_meets_Limits :
    let s := { mapped solo with hot := [3] }
    s.hot ≠ [] ∧ s.downLinks.contains 0 = false ∧ (0, s.ctx 0) ∈ s.ctxs ∧ (s.ctx 0).valid = true ∧ s.ctxs.find? 0 = some (s.ctx 0)
    ∧ equipped.total ≠ 0 := by
  decide +kernel

/-- A dirty line and a clean one, a leaf, and counts below THRESH and at it; a tagged line of a tile register. -/
theorem test_meets_Errors :
    let x : Context := { (default : Context) with valid := true, leaves := [(4, ⟨[], false, true⟩)] }
    let l : Line := ⟨some (.ctx 3), false, true, []⟩
    let s := { State.reset with ctxs := [(3, x)], lines := [(9, l), (10, { l with dirty := false }), (11, ⟨none, false, false, []⟩)],
                                tags := [(tagKey (arrayCode .tiles) 7 55 2048, ⟨3, false⟩)], queues := [(4, { (default : Queue) with ctx := 3 })] }
    let key := regionKey .tiles 7 55 0
    let at_ := { s with errors := [(key, 15)] }
    s.lines.find? 9 = some l ∧ l.owner = some (.ctx 3) ∧ l.dirty = true ∧ s.lines.find? 10 = some { l with dirty := false }
    ∧ s.lines.find? 11 = some ⟨none, false, false, []⟩ ∧ s.ctxs.find? 3 = some x ∧ x.leaves.find? 4 = some ⟨[], false, true⟩ ∧ x.valid = true
    ∧ s.reachable (256 * 9) = true ∧ s.reachable (256 * 0x7FFFFFFFFF) = false
    ∧ (7 < 8 ∧ 55 < 56 ∧ 0 < regionCount .tiles ∧ s.standsIn .tiles 7 0 2048 = true) ∧ s.standsIn .tiles 7 0 0x100000 = false
    ∧ s.errors.get key + 1 < s.thresh ∧ at_.thresh ≤ at_.errors.get key + 1 ∧ at_.lasting.contains key = false
    ∧ ofCore .tiles = true ∧ SramArray.tiles ≠ .datapath ∧ SramArray.tiles ≠ .dieCache
    ∧ s.tagOf .tiles 7 55 2048 = some ⟨3, false⟩ ∧ s.tagOf .tiles 7 55 4095 = none
    ∧ (s.queues.find? 4).map (fun q => q.ctx.toNat) = some 3 ∧ (s.ctx 3).devBare = false
    ∧ (3 * 2 ^ 22 + 4) / 2 ^ 22 = 3 ∧ (3 * 2 ^ 22 + 4) % 2 ^ 22 = 4 ∧ s.lasting = [] ∧ (s.ctx 3).valid = true := by
  decide +kernel

/-- The region in which a line of the die cache or a leaf of Burrow stands. -/
theorem test_meets_Errors_regions (s : State) (line : Nat) :
    (∃ die region, die < 8 ∧ region < regionCount .dieCache ∧ s.standsIn .dieCache die region line = true)
    ∧ ∃ die region, die < 8 ∧ region < regionCount .burrow ∧ s.standsIn .burrow die region line = true := by
  have h := (Config.lineRegion line).isLt
  have g := (Config.leafRegion (burrowCtx line) (burrowLeaf line)).isLt
  refine ⟨⟨(Config.lineRegion line).val / 64, (Config.lineRegion line).val % 64, by omega, ?_, decide_eq_true (by omega)⟩,
    ⟨(Config.leafRegion (burrowCtx line) (burrowLeaf line)).val / 32, (Config.leafRegion (burrowCtx line) (burrowLeaf line)).val % 32,
      by omega, ?_, decide_eq_true (by omega)⟩⟩
  · exact Nat.mod_lt _ (by decide)
  · exact Nat.mod_lt _ (by decide)

/-- Two images that are good; beside one a forged one, one of another signer or one of an older version; one image alone. -/
theorem test_meets_BringUp :
    let im := signedImage 5
    let s := { State.reset with keyHash := Sha.hash [9], rollback := 5, agenda := [.scalar ⟨0, 0⟩] }
    (∀ x ∈ [im, im], x.signature = Config.sealOf x.key (Sha.hash x.bytes))
    ∧ (∃ x ∈ [im, forged], x.signature ≠ Config.sealOf x.key (Sha.hash x.bytes))
    ∧ (∀ x ∈ [im, im], Sha.hash x.key = s.keyHash ∧ s.rollback ≤ x.version) ∧ 2 ≤ [im, im].length ∧ [im].length < 2
    ∧ (∃ x ∈ [im, { im with key := [8] }], Sha.hash x.key ≠ s.keyHash) ∧ (∃ x ∈ [im, signedImage 4], ¬ s.rollback ≤ x.version)
    ∧ s.boot ≠ .done ∧ s.agenda = .scalar ⟨0, 0⟩ :: [] ∧ s.boot = .pending ∧ needsNoPackage (.kill 0) = false
    ∧ ({ s with boot := .recovery }).boot = .recovery ∧ inRecovery (.kill 0) = false
    ∧ s.downLinks.contains 0 = false ∧ ({ s with downLinks := [0] }).downLinks.contains 0 = true := by
  refine ⟨?_, ⟨forged, ?_, forged_ne⟩, ?_⟩
  · intro x hx
    simp only [List.mem_cons, List.not_mem_nil, or_false, or_self] at hx
    rw [hx]; rfl
  · exact List.mem_cons_of_mem _ (List.mem_singleton.mpr rfl)
  · decide +kernel

end Sys2Proof.Tests
end

section
/-! SUPPORT. A turn of a stream (01 R17, R19; 06 R128, R137): what it fetches in a grid that is not fused, that it runs what its words
decode to, and what stays of a crew when a queued run is read on. -/

namespace Sys2Proof.Machine

/-! Reading a run on. -/

/-- Marking destinations late, one after the other, touches scalar registers and their tags alone. -/
theorem Crew.foldl_awaitLate_rest (r : Run) (ds : List Nat) (c : Crew) :
    { ds.foldl (fun (c : Crew) d => c.awaitLate r d) c with sreg := c.sreg, sTag := c.sTag } = c := by
  induction ds generalizing c with
  | nil => rfl
  | cons d ds ih =>
    have h := congrArg (fun x : Crew => { x with sreg := c.sreg, sTag := c.sTag }) (ih (c.awaitLate r d))
    exact h.trans (Crew.awaitLate_rest c r d)

/-- Reading a run on touches scalar registers, their tags and the queue alone. -/
theorem Crew.readRun_rest (g : Side → Nat → CodeWord) (form : Instr → Instr) (c : Crew) :
    { c.readRun g form with sreg := c.sreg, sTag := c.sTag, queue := c.queue } = c := by
  unfold Crew.readRun
  split
  · rfl
  · next r _ =>
    exact congrArg (fun x : Crew => { x with queue := c.queue }) (Crew.foldl_awaitLate_rest r _ c)

@[simp] theorem Crew.readRun_prog (g : Side → Nat → CodeWord) (form : Instr → Instr) (c : Crew) :
    (c.readRun g form).prog = c.prog := by
  have h := congrArg Crew.prog (Crew.readRun_rest g form c)
  exact h

/-! Fetching in a grid that is not fused. -/

/-- The 32-bit word of code at a physical address, as the context of a workgroup reads it. -/
def State.wordAt (s : State) (w : Workgroup) (pa : Nat) : Word := BitVec.ofNat 32 (leNat (s.readBytes w.ctx pa 4))

theorem State.codeWord_of_xlate {s : State} {w : Workgroup} (hf : (s.gridOf w).fused = none) (side : Side) {va pa : Nat}
    (hx : s.xlate w.die w.ctx .ex va = .ok pa) : s.codeWord w side va = .word (s.wordAt w pa) := by
  have hh : (s.gridOf w).heldCode side = [] := by unfold Grid.heldCode; rw [hf]
  simp [State.codeWord, hh, SMap.find?, hx, State.wordAt]

theorem State.fetchScalar_short {s : State} {w : Workgroup} {side : Side} {pc : Addr} {w0 : Word}
    (h0 : s.codeWord w side pc.toNat = .word w0) (hl : isLongMajor (wMajor w0).toNat = false) :
    s.fetchScalar w side pc = .instr (decodedOr (decodeWords [w0]) w0 0 0) := by
  simp [State.fetchScalar, h0, hl, decodeWords]

theorem State.fetchScalar_long {s : State} {w : Workgroup} {side : Side} {pc : Addr} {w0 w1 : Word}
    (h0 : s.codeWord w side pc.toNat = .word w0) (hl : isLongMajor (wMajor w0).toNat = true)
    (h1 : s.codeWord w side (pc + 4).toNat = .word w1) :
    s.fetchScalar w side pc = .instr (decodedOr (decodeWords [w0, w1]) w0 w1 0) := by
  simp only [State.fetchScalar, h0, hl, h1, decodeWords, if_true]

theorem State.fetchLane_of {s : State} {w : Workgroup} {side : Side} {pc : Addr} {p0 p1 p2 : Word}
    (h0 : s.codeWord w side pc.toNat = .word p0) (h1 : s.codeWord w side (pc.toNat + 4) = .word p1)
    (h2 : s.codeWord w side (pc.toNat + 8) = .word p2) :
    s.fetchLane w side pc = .instr (decodedOr (decodeWords [p0, p1, p2]) p0 p1 p2) := by
  simp [State.fetchLane, laneAt, h0, h1, h2, decodeWords]

/-- In a grid that is not fused an instruction runs as it was fetched. -/
theorem State.runFetched_plain {s : State} {w : Workgroup} (hf : (s.gridOf w).fused = none) (c : Crew) (st : Stream) (i : Instr) :
    s.runFetched w c st i = exec i s := by
  have hb : (s.gridOf w).beyond c st i = (false, false) := by unfold Grid.beyond; rw [hf]
  have hi : (s.gridOf w).fusedForm c st i = i := by unfold Grid.fusedForm; rw [hf]
  simp only [State.runFetched, hb, hi]

/-- In a grid that is not fused no part leads to another. -/
theorem Grid.relocate_plain {g : Grid} (hf : g.fused = none) (c : Crew) : g.relocate c = c := by
  unfold Grid.relocate; rw [hf]

/-- A run in progress is not begun again. -/
theorem Crew.startRun_some {c : Crew} {p : Progress} (h : c.prog = some p) (base : Nat) : c.startRun base = c := by
  unfold Crew.startRun; rw [h]

/-- The parcels of a run that has not gone beyond 2^52 can be translated (R81). -/
theorem Progress.beyond_none {p : Progress} (hp : p.past = false) (h : p.pc.toNat + 12 ≤ 2 ^ 52) : p.beyond = none := by
  simp only [Progress.beyond, hp, Nat.not_lt.mpr h, Bool.false_eq_true, if_false]

/-! Turns. -/

/-- The state with its next turn taken from the agenda. -/
def State.turned (s : State) (rest : List Turn) : State := { s with agenda := rest, tick := s.tick + 1 }

/-- The state in which a stream of a crew runs its next instruction: the turn taken, the crew's queued run read on, the stream named. -/
def State.atTurn (s : State) (rest : List Turn) (k : CrewKey) (w : Workgroup) (c : Crew) (st : Stream) : State :=
  { (s.turned rest).put k w c with cur := ⟨k, st⟩ }

theorem step_of_agenda {s : State} {t : Turn} {rest : List Turn} (h : s.agenda = t :: rest) :
    step s = offered ((s.turned rest).turn t) := by
  simp only [step, State.nextTurn, h, State.turned]

/-- A scalar stream that may issue acts on what it fetches. -/
theorem step_scalar {s : State} {k : CrewKey} {w : Workgroup} {c : Crew} {rest : List Turn} (hb : s.boot = .done)
    (hk : s.find k = some (w, c)) (hf : (s.gridOf w).fused = none) (ha : s.agenda = .scalar k :: rest) :
    let read := c.readRun (s.codeWord w) ((s.gridOf w).laneForm c)
    s.mayIssue w read .scalar = true → read.scalarBusy = false → ∀ i, s.fetchScalar w read.side read.pc = .instr i →
      step s = offered (exec i (s.atTurn rest k w read .scalar)) := by
  intro read hm hs i hi
  have hb' : (s.turned rest).boot = .done := hb
  have hk' : (s.turned rest).find k = some (w, c) := hk
  have hf' : ((s.turned rest).gridOf w).fused = none := hf
  have hm' : (s.turned rest).mayIssue w read .scalar = true := hm
  have hi' : (s.turned rest).fetchScalar w read.side read.pc = .instr i := hi
  have hr : c.readRun ((s.turned rest).codeWord w) (((s.turned rest).gridOf w).laneForm c) = read := rfl
  have hp : ((s.atTurn rest k w read .scalar).gridOf w).fused = none := hf
  rw [step_of_agenda ha]
  simp only [State.turn, hb', if_true, State.scalarTurn, hk', Grid.relocate_plain hf', hr, hm', hs, hi', Bool.not_false,
    Bool.and_self, State.onFetched]
  exact congrArg offered (State.runFetched_plain hp read .scalar i)

/-- A lane stream with a run in progress that may issue raises XLAT beyond 2^52 and else acts on what it fetches. -/
theorem step_lane {s : State} {k : CrewKey} {w : Workgroup} {c : Crew} {rest : List Turn} {p : Progress} (hb : s.boot = .done)
    (hk : s.find k = some (w, c)) (hf : (s.gridOf w).fused = none) (ha : s.agenda = .lane k :: rest) (hc : c.prog = some p)
    (he : p.ended = false) :
    let read := c.readRun (s.codeWord w) ((s.gridOf w).laneForm c)
    s.mayIssue w read .lane = true →
      (∀ i, p.beyond = none → s.fetchLane w (read.sideOf .lane) p.pc = .instr i →
        step s = offered (exec i (s.atTurn rest k w read .lane)))
      ∧ (∀ va, p.beyond = some va → step s = offered (.next (((s.turned rest).put k w read).raise k (read.sideOf .lane) .xlat
          (BitVec.ofNat 64 va) .lane false p.pc))) := by
  intro read hm
  have hb' : (s.turned rest).boot = .done := hb
  have hk' : (s.turned rest).find k = some (w, c) := hk
  have hm' : (s.turned rest).mayIssue w read .lane = true := hm
  have hr : c.readRun ((s.turned rest).codeWord w) (((s.turned rest).gridOf w).laneForm c) = read := rfl
  have hrp : read.prog = some p := (Crew.readRun_prog _ _ c).trans hc
  have hp : ((s.atTurn rest k w read .lane).gridOf w).fused = none := hf
  rw [step_of_agenda ha]
  simp only [State.turn, hb', if_true, State.laneTurn, hk', Crew.startRun_some hc, hr, hrp, hm', he, Bool.not_true, Bool.or_self,
    Bool.false_eq_true, if_false]
  refine ⟨fun i hbe hi => ?_, fun va hbe => by rw [hbe]⟩
  have hi' : (s.turned rest).fetchLane w (read.sideOf .lane) p.pc = .instr i := hi
  rw [hbe]
  simp only [hi', State.onFetched]
  exact congrArg offered (State.runFetched_plain hp read .lane i)

theorem State.with_freed_nil {u : State} (h : u.freed = []) : { u with freed := [] } = u := by rw [← h]

/-- One core to be offered, whose offer frees no more: the step ends in that offer (R318, R350). -/
theorem offered_one {t : State} {die core : Nat} (h : t.freed = [(die, core)])
    (hu : (({ t with freed := [] } : State).offer die core).freed = []) :
    offered (.next t) = .next (({ t with freed := [] } : State).offer die core) := by
  have hn : t.freed.length + Config.dies * Config.cores * t.ctxs.length = Config.dies * Config.cores * t.ctxs.length + 1 := by
    rw [h]; exact Nat.add_comm _ _
  have ho : t.offerFreed (Config.dies * Config.cores * t.ctxs.length + 1) = ({ t with freed := [] } : State).offer die core := by
    rw [State.offerFreed, h]
    exact State.offerFreed_none _ hu
  rw [offered, hn, ho, State.with_freed_nil hu]

/-- Choosing the next turn frees nothing. -/
theorem State.nextTurn_freed (s : State) : s.nextTurn.2.freed = s.freed := by
  unfold State.nextTurn
  split <;> rfl

/-- A step leaves nothing to offer where nothing was. -/
theorem step_freed {s t : State} (hs : s.freed = []) (h : step s = .next t) : t.freed = [] := by
  unfold step at h
  split at h
  · exact offered_freed h
  · next u hu =>
    cases h
    rw [← hs, ← s.nextTurn_freed, hu]

/-- What runs for words that decode, and for words that do not (R136). -/
theorem decodedOr_runs {P : Instr → Prop} {d : Decoded} {w0 w1 w2 : Word} (h : P (decodedOr d w0 w1 w2)) :
    (∀ i, d = .ok i → P i) ∧ (∀ r, d = .reject r → P (.illop w0 w1 w2)) :=
  ⟨fun _ hi => by subst hi; exact h, fun _ hr => by subst hr; exact h⟩

/-- Settles O9: a turn acts on what it fetches (`step_scalar`, `step_lane`), and in a grid that is not fused its fetch is the decoding of
the words at its translated addresses. -/
theorem stepRunsTheDecodedInstruction : Obligations.StepRunsTheDecodedInstruction := by
  unfold Obligations.StepRunsTheDecodedInstruction
  refine ⟨fun s k w c rest hb hk hf => ?_, fun t => offered_none, fun t u die core ht hu hfr => ?_, fun s t => step_freed⟩
  · intro word read next taken
    refine ⟨fun pa ha hm hs hx => ?_, fun p ha hc he hm => ?_, Crew.readRun_none⟩
    · have runs := step_scalar hb hk hf ha hm hs
      have h0 := State.codeWord_of_xlate hf read.side hx
      refine ⟨fun hl => ?_, fun pa1 hl hx1 => ?_⟩
      · exact decodedOr_runs (P := fun i => step s = offered (exec i (taken .scalar))) (runs _ (State.fetchScalar_short h0 hl))
      · have h1 := State.codeWord_of_xlate hf read.side hx1
        exact decodedOr_runs (P := fun i => step s = offered (exec i (taken .scalar))) (runs _ (State.fetchScalar_long h0 hl h1))
    · obtain ⟨runs, far⟩ := step_lane hb hk hf ha hc he hm
      refine ⟨fun pa pa1 pa2 hp hpc hx hx1 hx2 => ?_, fun hp => far _ (by simp only [Progress.beyond, hp, if_true])⟩
      have at_ := fun {va pa} => State.codeWord_of_xlate (va := va) (pa := pa) hf (read.sideOf .lane)
      exact decodedOr_runs (P := fun i => step s = offered (exec i (taken .lane)))
        (runs _ (Progress.beyond_none hp hpc) (State.fetchLane_of (at_ hx) (at_ hx1) (at_ hx2)))
  · subst hu
    exact offered_one ht hfr

end Sys2Proof.Machine
end

section
/-! SUPPORT. Structured control of a run (08 R194, R195; 01 R21): what an instruction of it does when its structure is there, and that it
is ILLOP when not. -/

namespace Sys2Proof.Machine

theorem Crew.run_of {c : Crew} {p : Progress} (h : c.prog = some p) : c.run = p := by simp [Crew.run, h]

/-- BRK takes its lanes out of the IF frames above the innermost DO. -/
theorem breakFrames_loop (out : Mask) (ifs : List (Mask × Mask × Bool × Nat)) (entry : Mask) (body : Addr) (mark : Nat)
    (fs : List Frame) :
    breakFrames out (ifs.map (fun x => .ifs x.1 x.2.1 x.2.2.1 x.2.2.2) ++ .loop entry body mark :: fs)
      = some (ifs.map (fun x => .ifs (x.1 &&& ~~~out) (x.2.1 &&& ~~~out) x.2.2.1 x.2.2.2) ++ .loop entry body mark :: fs) := by
  induction ifs with
  | nil => rfl
  | cons x ifs ih => simp only [List.map_cons, List.cons_append, breakFrames, ih, Option.map_some]

/-- With no DO open there is nothing to break out of. -/
theorem breakFrames_none (out : Mask) {frames : List Frame} (h : ∀ entry body mark, .loop entry body mark ∉ frames) :
    breakFrames out frames = none := by
  induction frames with
  | nil => rfl
  | cons x frames ih =>
    cases x with
    | loop entry body mark => exact absurd List.mem_cons_self (h entry body mark)
    | ifs entry rest elsed mark =>
      rw [breakFrames, ih fun e b m hm => h e b m (List.mem_cons_of_mem _ hm), Option.map_none]

/-- `c'` is `c` with its run at an active mask and a list of open structures; no register, predicate or access differs. -/
structure RunMoved (c c' : Crew) (p : Progress) (act : Mask) (frames : List Frame) : Prop where
  prog : c'.prog = some { p with active := act, frames := frames }
  vreg : c'.vreg = c.vreg
  sreg : c'.sreg = c.sreg
  preds : c'.preds = c.preds
  flying : c'.flying = c.flying

/-- Moving the run of a crew whose order of accesses or next number alone differ. -/
theorem runMoved_setRun (c : Crew) (p : Progress) (order : List Nat) (n : Nat) (act : Mask) (frames : List Frame) :
    RunMoved c ({ c with orderL := order, nextId := n }.setRun { p with active := act, frames := frames }) p act frames :=
  ⟨rfl, rfl, rfl, rfl, rfl⟩

/-- The instruction moves the run of the issuing crew to `act` and `frames` and passes on. -/
def Goes (i : Instr) (f : LaneFields) (s : State) (w : Workgroup) (c : Crew) (p : Progress) (act : Mask) (frames : List Frame) : Prop :=
  ∃ c', exec i s = .next (Passed s w c' f) ∧ RunMoved c c' p act frames

section
variable {s : State} {f : LaneFields} {w : Workgroup} {c : Crew} {p : Progress} (h : Issuing s w c) (hp : c.prog = some p)
include h hp

/-- A structured-control instruction whose structure is there takes its effect and passes on. -/
theorem goes_of_control {i : Instr} {g : Crew → Progress → Option Crew} {c' : Crew} {act : Mask} {frames : List Frame}
    (hi : exec i s = laneControl s f g) (hg : g c p = some c') (hm : RunMoved c c' p act frames) : Goes i f s w c p act frames := by
  refine ⟨c', ?_, hm⟩
  simp only [hi, laneControl, acting_of h, Crew.run_of hp, hg, passOn_eq]

/-- One whose structure is not there is ILLOP. -/
theorem traps_of_control {i : Instr} {g : Crew → Progress → Option Crew} (hi : exec i s = laneControl s f g) (hg : g c p = none) :
    Traps i s .illop 0 := by
  simp only [Traps, hi, laneControl, acting_of h, Crew.run_of hp, hg]

theorem goes_ifL (hl : p.frames.length < 16) : Goes (.ifL f) f s w c p (p.active &&& c.cond f)
    (.ifs p.active (p.active &&& ~~~c.cond f) false c.nextId :: p.frames) := by
  have hi : exec (.ifL f) s = execIfL f s := rfl
  rw [execIfL] at hi
  refine goes_of_control h hp hi ?_ (runMoved_setRun c p c.orderL (c.nextId + 1) _ _)
  exact if_neg (Nat.not_le.mpr hl)

theorem goes_doL (hl : p.frames.length < 16) :
    Goes (.doL f) f s w c p p.active (.loop p.active (p.pc + 12) c.nextId :: p.frames) := by
  have hi : exec (.doL f) s = execDoL f s := rfl
  rw [execDoL] at hi
  refine goes_of_control h hp hi ?_ (runMoved_setRun c p c.orderL c.nextId _ _)
  exact if_neg (Nat.not_le.mpr hl)

/-- Sixteen structures are open: no more is opened. -/
theorem traps_opening (hl : 16 ≤ p.frames.length) : Traps (.ifL f) s .illop 0 ∧ Traps (.doL f) s .illop 0 := by
  constructor
  · have hi : exec (.ifL f) s = execIfL f s := rfl
    rw [execIfL] at hi
    refine traps_of_control h hp hi ?_
    exact if_pos hl
  · have hi : exec (.doL f) s = execDoL f s := rfl
    rw [execDoL] at hi
    refine traps_of_control h hp hi ?_
    exact if_pos hl

theorem goes_elseL {entry rest : Mask} {mark : Nat} {fs : List Frame} (hf : p.frames = .ifs entry rest false mark :: fs) :
    Goes (.elseL f) f s w c p rest (.ifs entry rest true mark :: fs) := by
  have hi : exec (.elseL f) s = execElseL f s := rfl
  rw [execElseL] at hi
  refine goes_of_control h hp hi ?_ (runMoved_setRun c p c.orderL c.nextId _ _)
  rw [hf]

theorem goes_fi {entry rest : Mask} {elsed : Bool} {mark : Nat} {fs : List Frame} (hf : p.frames = .ifs entry rest elsed mark :: fs) :
    Goes (.fi f) f s w c p entry fs := by
  have hi : exec (.fi f) s = execFi f s := rfl
  rw [execFi] at hi
  refine goes_of_control h hp hi ?_ (runMoved_setRun c p (c.joinSince mark).orderL c.nextId _ _)
  rw [hf]; rfl

theorem goes_brk {out : Mask} (ho : out = p.active &&& c.cond f) {ifs : List (Mask × Mask × Bool × Nat)} {entry : Mask}
    {body : Addr} {mark : Nat} {fs : List Frame}
    (hf : p.frames = ifs.map (fun x => .ifs x.1 x.2.1 x.2.2.1 x.2.2.2) ++ .loop entry body mark :: fs) :
    Goes (.brk f) f s w c p (p.active &&& ~~~out)
      (ifs.map (fun x => .ifs (x.1 &&& ~~~out) (x.2.1 &&& ~~~out) x.2.2.1 x.2.2.2) ++ .loop entry body mark :: fs) := by
  subst ho
  have hi : exec (.brk f) s = execBrk f s := rfl
  rw [execBrk] at hi
  refine goes_of_control h hp hi ?_ (runMoved_setRun c p c.orderL c.nextId _ _)
  simp only [hf, breakFrames_loop, Option.map_some]

omit hp in
/-- What WHILE does at the end of its DO: it ends the loop, or goes back to its body. -/
theorem exec_whileL {entry : Mask} {body : Addr} {mark : Nat} {fs : List Frame} (hf : c.run.frames = .loop entry body mark :: fs) :
    exec (.whileL f) s = if c.run.active &&& c.cond f = 0
      then .next (Passed s w ((c.joinSince mark).setRun { c.run with active := entry, frames := fs }) f)
      else .next (s.put s.cur.key w (c.setRun { c.run with active := c.run.active &&& c.cond f, pc := body })) := by
  show execWhileL f s = _
  rw [execWhileL, acting_of h]
  simp only [hf, passOn_eq]

theorem goes_whileL {entry : Mask} {body : Addr} {mark : Nat} {fs : List Frame} (hf : p.frames = .loop entry body mark :: fs)
    (h0 : p.active &&& c.cond f = 0) : Goes (.whileL f) f s w c p entry fs := by
  have hr := Crew.run_of hp
  refine ⟨_, ?_, runMoved_setRun c p (c.joinSince mark).orderL c.nextId _ _⟩
  rw [exec_whileL h (hr ▸ hf), hr, if_pos h0]; rfl

theorem repeats_whileL {entry : Mask} {body : Addr} {mark : Nat} {fs : List Frame} (hf : p.frames = .loop entry body mark :: fs)
    (h0 : p.active &&& c.cond f ≠ 0) : ∃ c', exec (.whileL f) s = .next (s.put s.cur.key w c')
      ∧ c'.prog = some { p with active := p.active &&& c.cond f, pc := body } ∧ c'.vreg = c.vreg := by
  have hr := Crew.run_of hp
  refine ⟨c.setRun { p with active := p.active &&& c.cond f, pc := body }, ?_, rfl, rfl⟩
  rw [exec_whileL h (hr ▸ hf), hr, if_neg h0]

theorem goes_lnop : Goes (.lnop f) f s w c p p.active p.frames := by
  refine ⟨c, ?_, ⟨by rw [hp], rfl, rfl, rfl, rfl⟩⟩
  show execLnop f s = _
  rw [execLnop, acting_of h, passOn_eq]

theorem traps_elseL (hn : ∀ entry rest mark fs, p.frames ≠ .ifs entry rest false mark :: fs) : Traps (.elseL f) s .illop 0 := by
  have hi : exec (.elseL f) s = execElseL f s := rfl
  rw [execElseL] at hi
  refine traps_of_control h hp hi ?_
  split
  · next e => exact absurd e (hn _ _ _ _)
  · rfl

theorem traps_fi (hn : ∀ entry rest elsed mark fs, p.frames ≠ .ifs entry rest elsed mark :: fs) : Traps (.fi f) s .illop 0 := by
  have hi : exec (.fi f) s = execFi f s := rfl
  rw [execFi] at hi
  refine traps_of_control h hp hi ?_
  split
  · next e => exact absurd e (hn _ _ _ _ _)
  · rfl

theorem traps_whileL (hn : ∀ entry body mark fs, p.frames ≠ .loop entry body mark :: fs) : Traps (.whileL f) s .illop 0 := by
  show execWhileL f s = _
  rw [execWhileL, acting_of h]
  dsimp only
  rw [Crew.run_of hp]
  split
  · next e => exact absurd e (hn _ _ _ _)
  · rfl

theorem traps_brk (hn : ∀ entry body mark, .loop entry body mark ∉ p.frames) : Traps (.brk f) s .illop 0 := by
  have hi : exec (.brk f) s = execBrk f s := rfl
  rw [execBrk] at hi
  refine traps_of_control h hp hi ?_
  simp only [breakFrames_none _ hn, Option.map_none]

end

/-- Settles O46: each clause is the rule of its instruction above, for the structures that are open. -/
theorem structuredControlSplitsAndJoins : Obligations.StructuredControlSplitsAndJoins := by
  unfold Obligations.StructuredControlSplitsAndJoins
  intro s f w c p h hp k goes
  have moved {i act frames} (hg : Goes i f s w c p act frames) : goes i act frames := by
    obtain ⟨c', he, hm⟩ := hg
    exact ⟨c', he, hm.prog, hm.vreg, hm.sreg, hm.preds, hm.flying⟩
  exact ⟨fun hl => moved (goes_ifL h hp hl), traps_opening h hp, fun _ _ _ _ hf => moved (goes_elseL h hp hf),
    fun _ _ _ _ _ hf => moved (goes_fi h hp hf), fun hl => moved (goes_doL h hp hl),
    fun _ _ _ _ hf => ⟨fun h0 => moved (goes_whileL h hp hf h0), repeats_whileL h hp hf⟩,
    fun _ _ _ _ _ hf => moved (goes_brk h hp rfl hf), moved (goes_lnop h hp), traps_elseL h hp, traps_fi h hp,
    traps_whileL h hp, traps_brk h hp⟩

end Sys2Proof.Machine
end

section
/-! SUPPORT. The frame of a lane instruction (08 R171, R173): that every lane instruction but those of structured control acts inside it,
and what its checks do, in their order. -/

namespace Sys2Proof.Machine

/-- What the issuer of a matrix instruction sees: the frame, with its role and tiles in it. -/
theorem matrixIssue_of {s : State} {w : Workgroup} {c : Crew} (h : Issuing s w c) (i : Instr) (f : LaneFields) (ts : List Nat)
    (groups : Nat × Nat × Nat × Nat) (run : Grid → Workgroup → Crew → Result) :
    matrixIssue s i f ts groups run = laneIssue s
      { LaneSpec.plain i with badRole := !c.mayMatrix, badDirect := ts.any (fun t => decide (s.tileLimit w ≤ t)), collective := true,
                              groups := groups } f
      (fun w c _ => if c.mma.isSome then .next s else run (s.gridOf w) w c) := by
  rw [matrixIssue, acting_of h]

/-- Block mode of QNT and DQT is what makes them crew-collective. -/
theorem quantise_frame (s : State) (i : Instr) (f : LaneFields) (val : Workgroup → Crew → Slot → (Nat → Word) → Nat → Word) :
    ∃ run, quantise s i f val = laneIssue s { LaneSpec.plain i with collective := decide (f.subop = 1) } f run := by
  have hb : (f.subop.toNat == 1) = decide (f.subop = 1) := by
    rw [Bool.eq_iff_iff, beq_iff_eq, decide_eq_true_iff, ← BitVec.toNat_inj]; rfl
  rw [quantise, hb]
  exact ⟨_, rfl⟩

/-- Every lane instruction but those of structured control acts inside the frame, as `laneSpecOf` says the frame sees it. -/
theorem exec_laneIssue {s : State} {i : Instr} {f : LaneFields} {p : LaneSpec} {w : Workgroup} {c : Crew} (h : Issuing s w c)
    (hf : laneFieldsOf i = some f) (hp : laneSpecOf s w c i = some p) : 
    p.instr = i ∧ ∃ run, exec i s = laneIssue s p f run := by
  cases i <;> cases hf
  case ifL => cases hp
  case elseL => cases hp
  case fi => cases hp
  case doL => cases hp
  case whileL => cases hp
  case brk => cases hp
  case lnop => cases hp
  case mma =>
    cases hp
    unfold exec
    simp only [execMma, matrixIssue_of h]
    exact ⟨rfl, _, rfl⟩
  case accz =>
    cases hp
    unfold exec
    simp only [execAccz, matrixIssue_of h]
    exact ⟨rfl, _, rfl⟩
  case accrd =>
    cases hp
    unfold exec
    simp only [execAccrd, matrixIssue_of h]
    exact ⟨rfl, _, rfl⟩
  case accwr =>
    cases hp
    unfold exec
    simp only [execAccwr, matrixIssue_of h]
    exact ⟨rfl, _, rfl⟩
  case acccvt =>
    cases hp
    unfold exec
    simp only [execAcccvt, matrixIssue_of h]
    exact ⟨rfl, _, rfl⟩
  case getl =>
    cases hp
    by_cases hc : f.special = .cycles
    · unfold exec
      simp only [execGetl, hc]
      exact ⟨rfl, _, rfl⟩
    · unfold exec
      simp only [execGetl, hc]
      exact ⟨rfl, _, rfl⟩
  case atom =>
    simp only [laneSpecOf, Option.map_eq_some_iff] at hp
    obtain ⟨op, ho, rfl⟩ := hp
    unfold exec
    simp only [execAtom, ho]
    exact ⟨rfl, _, rfl⟩
  case cpy =>
    cases hp
    unfold exec
    simp only [execCpy, acting_of h]
    exact ⟨rfl, _, rfl⟩
  case matchL =>
    cases hp
    have hi : s.issuer = some (w, c) := h
    unfold exec
    by_cases hw : s.width w = 64
    · simp only [execMatchL, hi, hw, if_true]
      exact ⟨rfl, _, rfl⟩
    · simp only [execMatchL, hi, hw, if_false]
      exact ⟨rfl, _, rfl⟩
  case qnt => cases hp; unfold exec; simp only [execQnt]; exact ⟨rfl, quantise_frame ..⟩
  case dqt => cases hp; unfold exec; simp only [execDqt]; exact ⟨rfl, quantise_frame ..⟩
  all_goals
    cases hp
    unfold exec
    simp only [laneTest, laneInt, laneMap, laneMapL, Machine.route, setIndex,
      execIadd, execIaddI, execIsub, execIsubI, execImul, execImulI, execImulh, execImulhI, execImad, execImin, execIminI,
      execImax, execImaxI, execIabs, execIneg, execIset, execIsetI, execLand, execLandI, execLor, execLorI, execLxor,
      execLxorI, execAndn, execAndnI, execLnot, execLop, execLshl, execLshlI, execLshr, execLshrI, execLsra, execLsraI,
      execRotl, execRotlI, execLpopc, execLclz, execBrev, execBfe, execBfi, execLlea, execLleaI, execLsel, execLmov,
      execMovi, execFadd, execFaddI, execFsub, execFsubI, execFmul, execFmulI, execFfma, execFmin, execFminI, execFmax,
      execFmaxI, execFset, execFsetI, execFrcp, execFrsq, execFsqrt, execFexp2, execFlog2, execFclass, execHadd2,
      execHadd2I, execHmul2, execHmul2I, execHfma2, execCvt, execRoute, execRouteI, execVote, execRedux,
      execScan, execPlop, execXset, execXsetI, execXadd, execXaddI, execXget, execLd, execSt, execFetch, execIsect,
      execRand, execSample, execTopk, execAccept]
    exact ⟨rfl, _, rfl⟩

/-! What the checks do, each once those before it have passed (R173 orders 1 to 5). -/

section
variable {s : State} {p : LaneSpec} {f : LaneFields} {w : Workgroup} {c : Crew} (h : Issuing s w c)
  (run : Workgroup → Crew → Mask → Result)
include h

theorem laneIssue_role (hr : p.badRole = true) : laneIssue s p f run = trap s .role 0 := by
  rw [laneIssue, acting_of h]
  simp only [hr, if_true]

variable (hr : p.badRole = false)
include hr

theorem laneIssue_direct (hd : p.badDirect = true ∨ ∃ n ∈ [0, 1, 2, 3], (operandAt p.instr f n).outOfRegs (s.regsOf w c) (p.group n) = true) :
    laneIssue s p f run = trap s .range 0 := by
  have ho : (p.badDirect || [0, 1, 2, 3].any fun n => (operandAt p.instr f n).outOfRegs (s.regsOf w c) (p.group n)) = true := by
    rw [Bool.or_eq_true, List.any_eq_true]; exact hd
  rw [laneIssue, acting_of h]
  simp only [hr, Bool.false_eq_true, if_false, ho, if_true]

variable (hd : p.badDirect = false)
  (ho : ¬ ∃ n ∈ [0, 1, 2, 3], (operandAt p.instr f n).outOfRegs (s.regsOf w c) (p.group n) = true)
include hd ho

omit h hr in
theorem direct_passed :
    (p.badDirect || [0, 1, 2, 3].any fun n => (operandAt p.instr f n).outOfRegs (s.regsOf w c) (p.group n)) = false := by
  rw [hd, Bool.false_or, Bool.eq_false_iff, ne_eq, List.any_eq_true]; exact ho

theorem laneIssue_partly (hc : p.collective = true) (he : c.executing f ≠ laneMask (s.width w)) :
    laneIssue s p f run = trap s .illconv 0 := by
  rw [laneIssue, acting_of h]
  simp only [hr, direct_passed hd ho, hc, bne_iff_ne.mpr he, Bool.and_self, Bool.false_eq_true, if_false, if_true]

theorem laneIssue_empty_set (hc : p.collective = false) (he : c.executing f = 0) :
    laneIssue s p f run = .next (Passed s w c f) := by
  rw [laneIssue, acting_of h]
  simp only [hr, direct_passed hd ho, hc, he, Bool.false_and, Bool.false_eq_true, if_false, if_true, passOn_eq]

variable (hc : p.collective = true → c.executing f = laneMask (s.width w)) (he : c.executing f ≠ 0)
include hc he

omit h hr hd ho he in
theorem whole_passed : (p.collective && c.executing f != laneMask (s.width w)) = false := by
  cases hp : p.collective
  · rfl
  · rw [hc hp, bne_self_eq_false, Bool.and_false]

theorem laneIssue_window (hw : ∃ n ∈ [0, 1, 2, 3], (operandAt p.instr f n).outOfWindow c (c.executing f) (p.group n) = true) :
    laneIssue s p f run = trap s .range 0 := by
  have hw' := List.any_eq_true.mpr hw
  rw [laneIssue, acting_of h]
  simp only [hr, direct_passed hd ho, whole_passed hc, he, hw', Bool.false_eq_true, if_false, if_true]

variable (hw : ¬ ∃ n ∈ [0, 1, 2, 3], (operandAt p.instr f n).outOfWindow c (c.executing f) (p.group n) = true)
include hw

/-- Past its window the instruction looks at its sources: an empty one whose policy bit is set traps, another is waited for (R46, R47). -/
theorem laneIssue_sources : laneIssue s p f run =
    let sources := if p.readsDest then [0, 1, 2, 3] else [1, 2, 3]
    let hungry := fun (n : Nat) => (operandAt p.instr f n).empty c (c.executing f) (p.group n)
    if sources.any (fun n => (n != 0 && flag f.pol (n - 1)) && hungry n) then trap s .empty 0
    else if sources.any hungry then .next s else run w c (c.executing f) := by
  have hw' := Bool.eq_false_iff.mpr (mt List.any_eq_true.mp hw)
  rw [laneIssue, acting_of h]
  simp only [hr, direct_passed hd ho, whole_passed hc, he, hw', Bool.false_eq_true, if_false]

end

/-- Settles O47: an instruction acts inside the frame (`exec_laneIssue`), whose checks are the rules above. -/
theorem laneIssueTrapsInOrder : Obligations.LaneIssueTrapsInOrder := by
  unfold Obligations.LaneIssueTrapsInOrder
  refine ⟨?_, ?_, fun _ _ _ _ => rfl⟩
  · intro s i f p w c h hf hp e at_ outside window sources hungry
    obtain ⟨rfl, run, hrun⟩ := exec_laneIssue h hf hp
    simp only [Traps, hrun]
    refine ⟨laneIssue_role h run, fun hr => ⟨laneIssue_direct h run hr, fun hd ho => ⟨laneIssue_partly h run hr hd ho,
      laneIssue_empty_set h run hr hd ho, fun hc he => ⟨laneIssue_window h run hr hd ho hc he, fun hw hs => ?_, fun hw hs hh => ?_⟩⟩⟩⟩
    · rw [laneIssue_sources h run hr hd ho hc he hw]
      refine if_pos (List.any_eq_true.mpr ?_)
      obtain ⟨n, hn, h0, hpol, he⟩ := hs
      exact ⟨n, hn, by rw [bne_iff_ne.mpr h0, hpol]; exact he⟩
    · rw [laneIssue_sources h run hr hd ho hc he hw]
      refine (if_neg fun ha => ?_).trans (if_pos (List.any_eq_true.mpr hh))
      obtain ⟨n, hn, ha⟩ := List.any_eq_true.mp ha
      simp only [Bool.and_eq_true, bne_iff_ne] at ha
      exact hs n hn ha.1.1 ha.1.2 ha.2
  · intro s f w c h
    show execLnop f s = _
    rw [execLnop, acting_of h, passOn_eq]

end Sys2Proof.Machine
end

section
/-! SUPPORT. Writes of the Kazlet (19 R302, R305, R307; 21 R331): what completion records, signals, MIRROR and device-queue slots leave
as it was. -/

namespace Sys2Proof.Machine

/-- From `s` to `t` only memory, the die cache, the keys under which lines stand off chip, the writes that wait and what has been sent
out differ. -/
def Posted (s t : State) : Prop :=
  t = { s with mem := t.mem, lines := t.lines, sealed := t.sealed, owed := t.owed, out := t.out }

namespace Posted
variable {s t u : State}

theorem refl (s : State) : Posted s s := rfl

theorem trans (h : Posted s t) (g : Posted t u) : Posted s u := by
  unfold Posted at *
  rw [g, h]

theorem ofMemory (h : OnlyMemory s t) : Posted s t := by
  unfold OnlyMemory at h
  unfold Posted
  rw [h]

theorem cur (h : Posted s t) : t.cur = s.cur := (congrArg State.cur h).trans rfl
theorem tick (h : Posted s t) : t.tick = s.tick := (congrArg State.tick h).trans rfl
theorem wgs (h : Posted s t) : t.wgs = s.wgs := (congrArg State.wgs h).trans rfl
theorem grids (h : Posted s t) : t.grids = s.grids := (congrArg State.grids h).trans rfl
theorem ctxs (h : Posted s t) : t.ctxs = s.ctxs := (congrArg State.ctxs h).trans rfl
theorem queues (h : Posted s t) : t.queues = s.queues := (congrArg State.queues h).trans rfl
theorem seq (h : Posted s t) : t.seq = s.seq := (congrArg State.seq h).trans rfl

end Posted

theorem onlyMemory_vwrite (s : State) (c va : Nat) (bs : List Byte) : OnlyMemory s (s.vwrite c va bs) := by
  induction bs generalizing s va with
  | nil => exact .refl s
  | cons b bs ih =>
    unfold State.vwrite
    split
    · exact (onlyMemory_writeAs s _ _ _ b).trans (ih _ _)
    · exact ih _ _

theorem posted_send (s : State) (m : Message) : Posted s (s.send m) := rfl
theorem posted_report (s : State) (r : Report) : Posted s (s.report r) := rfl

theorem posted_subtract (s : State) (c f addr : Nat) : Posted s (s.subtract c f addr) := by
  unfold State.subtract
  split
  · dsimp only
    split
    · exact (Posted.ofMemory (onlyMemory_vwrite _ _ _ _)).trans (posted_send _ _)
    · exact .ofMemory (onlyMemory_vwrite _ _ _ _)
  · exact .refl s

theorem posted_settle (s : State) (o : Owed) : Posted s (s.settle o) := by
  unfold State.settle
  dsimp only
  split
  · split
    · exact posted_report _ _
    · exact posted_report _ _
    · exact .refl s
  · split
    · exact .ofMemory (onlyMemory_vwrite _ _ _ _)
    · exact posted_subtract _ _ _ _

theorem posted_post (s : State) (o : Owed) : Posted s (s.post o) := by
  unfold State.post
  split
  · rfl
  · exact posted_settle s o

theorem posted_decrement (s : State) (c f addr kid : Nat) : Posted s (s.decrement c f addr kid) := by
  unfold State.decrement
  split
  · exact .refl s
  · exact posted_post s _

/-- A write that names no kernel is not reported where it fails, so that nothing is sent (R305, R308). -/
theorem State.post_silent_out (s : State) (c va : Nat) (bs : List Byte) : (s.post (.bytes c va none bs)).out = s.out := by
  unfold State.post
  split
  · rfl
  · unfold State.settle
    dsimp only
    split
    · rfl
    · exact (congrArg State.out (onlyMemory_vwrite s c va bs)).trans rfl

theorem State.report_out (s : State) (r : Report) : (s.report r).out = s.out ++ [.report (ioOf r.ctx) r.pack] := rfl

end Sys2Proof.Machine
end

section
/-! SUPPORT. LAUNCH (07 R167; 01 R34, R35; 19 R308): its checks in their order, and what its packet changes. -/

namespace Sys2Proof.Machine

theorem misaligned_iff (a : DWord) (n : Nat) : misaligned a n = true ↔ a.toNat % n ≠ 0 := bne_iff_ne

/-- Of a list of conditions the first that holds traps. -/
theorem trapsThen_first {s : State} {run : Result} {pre post : List (Bool × FaultCode × DWord)} {code : FaultCode} {detail : DWord}
    (h : ∀ t ∈ pre, t.1 = false) : trapsThen s run (pre ++ (true, code, detail) :: post) = trap s code detail := by
  induction pre with
  | nil => rfl
  | cons t pre ih =>
    obtain ⟨b, code', d⟩ := t
    have hb : b = false := h _ List.mem_cons_self
    simp only [List.cons_append, trapsThen, hb]
    exact ih fun t ht => h t (List.mem_cons_of_mem _ ht)

/-! The device queue. -/

/-- A context with one more packet in its device queue. -/
def Context.published (x : Context) (tick : Nat) (slot : DevSlot) : Context :=
  { x with devSlots := x.devSlots.insert x.devPut slot, devPut := x.devPut + 1,
           devSince := if x.devTake = x.devPut then tick else x.devSince, devBare := false }

/-- A packet in the device queue changes its context and what a write of the Kazlet may change, and nothing else. -/
theorem State.devPublish_posted (s : State) (n : Nat) (slot : DevSlot) :
    Posted { s with ctxs := s.ctxs.insert n ((s.ctx n).published s.tick slot) } (s.devPublish n slot) :=
  posted_post _ _

/-- The context after a packet has been put into its device queue. -/
theorem State.devPublish_ctx (s : State) (n : Nat) (slot : DevSlot) :
    (s.devPublish n slot).ctx n = (s.ctx n).published s.tick slot := by
  rw [State.ctx, (s.devPublish_posted n slot).ctxs, SMap.get_insert_self]

/-- Settles O28, its checks by the order of their list, its packet by what a write of the Kazlet leaves as it was. -/
theorem launchesEnterTheDeviceQueue : Obligations.LaunchesEnterTheDeviceQueue := by
  intro s w c h d a hfull
  have hi : exec (.launch d a) s = execLaunch d a s := rfl
  rw [execLaunch, acting_of h] at hi
  simp only [hfull, Bool.not_true, Bool.false_eq_true, if_false] at hi
  refine ⟨fun hdepth => ?_, fun hdepth hmis => ?_, fun hdepth hal hfar => ?_, fun hdepth hal hnear hdr hfe => ?_⟩
  · rw [beq_iff_eq.2 hdepth] at hi
    exact hi.trans (trapsThen_first (pre := []) (by simp))
  · rw [(misaligned_iff _ _).2 hmis] at hi
    exact hi.trans (trapsThen_first (pre := [_]) (by simp [hdepth]))
  · rw [(farAddr_iff _).2 hfar] at hi
    exact hi.trans (trapsThen_first (pre := [_, _]) (by simp [hdepth, misaligned, hal]))
  · rw [trapsThen_none (by simp [hdepth, misaligned, hal, ← Bool.not_eq_true, farAddr_iff]; omega)] at hi
    simp only [hdr, hfe, Bool.and_self, Bool.not_true, Bool.false_eq_true, if_false] at hi
    refine ⟨fun hno => ?_, fun copy hfree hcopy => ?_⟩
    · simpa only [hno, Bool.not_false, if_true] using hi
    · let slot : DevSlot := ⟨copy, (s.gridOf w).depthOf c.side + 1, some ⟨s.cur.key.wid, w.launched⟩, (c.s2 a).setWidth 52, 0⟩
      have hp := s.devPublish_posted w.ctx slot
      have hx := s.devPublish_ctx w.ctx slot
      refine ⟨s.devPublish w.ctx slot, { w.spoil with children := w.children ++ [w.launched], launched := w.launched + 1 },
        ?_, rfl, rfl, rfl, hp.wgs, hp.grids, congrArg Context.devPut hx, slot, ?_, rfl, rfl, rfl⟩
      · have hkey := congrArg Issuer.key hp.cur
        rw [hfree] at hi
        rcases hcopy with ⟨r, rfl, hr⟩ | ⟨rfl, code, va, hr⟩ <;> rw [hr] at hi <;>
          exact hi.trans (congrArg (fun k => Host.Outcome.next ((s.devPublish w.ctx slot).put k _ _)) hkey)
      · rw [hx]
        exact SMap.find?_insert_self _ _ _

end Sys2Proof.Machine
end

section
/-! SUPPORT. LRUN (07 R146; 01 R18): the registers that a run marks empty, and a run that is read on. -/

namespace Sys2Proof.Machine

/-! Registers marked one after another. -/

/-- Where every step marks one register as `awaitS` does, a register is full after them if it was and is none of them. -/
theorem Crew.full_foldl_of_awaitS {f : Crew → Nat → Crew} {tag : Nat}
    (hf : ∀ c d r, (f c d).full r = (c.awaitS (BitVec.ofNat 6 d) tag).full r) (ds : List Nat) (c : Crew) (r : Reg) :
    (ds.foldl f c).full r = true ↔ c.full r = true ∧ ∀ d ∈ ds, BitVec.ofNat 6 d = r → r = 0 := by
  induction ds generalizing c with
  | nil => simp
  | cons d ds ih =>
    rw [List.foldl_cons, ih, hf, Crew.full_awaitS, List.forall_mem_cons, ← and_assoc]
    refine and_congr_left fun _ => ?_
    by_cases hd : BitVec.ofNat 6 d = r
    · subst hd
      by_cases h0 : BitVec.ofNat 6 d = 0
      · rw [if_neg fun h => h.2 h0]
        exact ⟨fun h => ⟨h, fun _ => h0⟩, And.left⟩
      · rw [if_pos ⟨rfl, h0⟩]
        exact ⟨fun h => absurd h (by decide), fun h => absurd (h.2 rfl) h0⟩
    · rw [if_neg fun h => hd h.1.symm]
      exact ⟨fun h => ⟨h, fun e => absurd e hd⟩, And.left⟩

/-- Marking registers changes nothing but their tags. -/
theorem Crew.awaitAll_rest (c : Crew) (ds : List Nat) (tag : Nat) : { c.awaitAll ds tag with sTag := c.sTag } = c := by
  unfold Crew.awaitAll
  induction ds generalizing c with
  | nil => rfl
  | cons d ds ih =>
    have h := congrArg (fun x : Crew => { x with sTag := c.sTag }) (ih (c.awaitS (BitVec.ofNat 6 d) tag))
    refine h.trans ?_
    unfold Crew.awaitS
    split <;> rfl

theorem Crew.full_awaitAll (c : Crew) (ds : List Nat) (tag : Nat) (r : Reg) :
    (c.awaitAll ds tag).full r = true ↔ c.full r = true ∧ ∀ d ∈ ds, BitVec.ofNat 6 d = r → r = 0 :=
  Crew.full_foldl_of_awaitS (fun _ _ _ => rfl) ds c r

theorem mem_newDests (old ds : List Nat) (d : Nat) : d ∈ newDests old ds ↔ d ∈ ds ∧ d ≠ 0 ∧ d ∉ old := by
  simp [newDests, List.mem_eraseDups]

theorem Reg.ofNat_eq_iff {d : Nat} (hd : d < 64) (r : Reg) : BitVec.ofNat 6 d = r ↔ d = r.toNat := by
  constructor
  · rintro rfl; simp; omega
  · rintro rfl; simp

/-! A run that is read on. -/

theorem Crew.full_foldl_awaitLate (r : Run) (ds : List Nat) (c : Crew) (x : Reg) :
    (ds.foldl (fun (c : Crew) d => c.awaitLate r d) c).full x = true ↔ c.full x = true ∧ ∀ d ∈ ds, BitVec.ofNat 6 d = x → x = 0 :=
  Crew.full_foldl_of_awaitS (tag := r.tag) (fun c d x => by rw [Crew.awaitLate, Crew.full_awaitS, Crew.full_awaitS]; rfl) ds c x

theorem Crew.s_awaitLate (c : Crew) (r : Run) (d : Nat) (x : Reg) :
    (c.awaitLate r d).s x = if x ≠ 0 ∧ x.toNat = d then (r.kept.find? d).getD (c.s x) else c.s x := by
  rw [Crew.awaitLate, Crew.s_awaitS]
  unfold Crew.s
  by_cases hx : x = 0
  · rw [if_pos hx, if_pos hx, if_neg fun h => h.1 hx]
  · simp only [hx, if_false, not_false_eq_true, true_and, ne_eq]
    cases r.kept.find? d with
    | none => simp
    | some v => simp [SMap.get_put]

/-- A destination that is marked late holds what it held at the LRUN; every other register holds what it held. -/
theorem Crew.s_foldl_awaitLate (r : Run) (ds : List Nat) (c : Crew) (x : Reg) :
    (ds.foldl (fun (c : Crew) d => c.awaitLate r d) c).s x
      = if x ≠ 0 ∧ x.toNat ∈ ds then (r.kept.find? x.toNat).getD (c.s x) else c.s x := by
  induction ds generalizing c with
  | nil => simp
  | cons d ds ih =>
    rw [List.foldl_cons, ih, Crew.s_awaitLate]
    by_cases hx : x = 0
    · simp only [hx, ne_eq, not_true_eq_false, false_and, if_false]
    · simp only [hx, ne_eq, not_false_eq_true, true_and, List.mem_cons]
      by_cases hd : x.toNat = d
      · subst hd
        cases r.kept.find? x.toNat <;> simp
      · simp only [hd, if_false, false_or]

/-- The first run of a queue that is not read to its end. -/
theorem find?_unread {pre post : List Run} {r : Run} {pc : Nat} (hpre : ∀ q ∈ pre, q.rest = none) (hr : r.rest = some pc) :
    (pre ++ r :: post).find? (fun q => q.rest.isSome) = some r := by
  rw [List.find?_append, List.find?_eq_none.2 (fun q hq => by simp [hpre q hq])]
  simp [hr]

/-- Of a queue whose runs have tags of their own, one run alone is read on. -/
theorem map_readTo {pre post : List Run} {r : Run} (scan : RunScan) (htag : ∀ q ∈ pre ++ post, q.tag ≠ r.tag) :
    (pre ++ r :: post).map (fun x => if x.tag = r.tag then r.readTo scan else x) = pre ++ r.readTo scan :: post := by
  have keep : ∀ qs : List Run, (∀ q ∈ qs, q.tag ≠ r.tag) → qs.map (fun x => if x.tag = r.tag then r.readTo scan else x) = qs :=
    fun qs h => (List.map_congr_left fun q hq => if_neg (h q hq)).trans (List.map_id qs)
  simp only [List.mem_append] at htag
  rw [List.map_append, List.map_cons, keep pre fun q h => htag q (.inl h), keep post fun q h => htag q (.inr h), if_pos rfl]

theorem Crew.readRun_of {g : Side → Nat → CodeWord} {form : Instr → Instr} {c : Crew} {pre post : List Run} {r : Run} {pc : Nat}
    (hq : c.queue = pre ++ r :: post) (hpre : ∀ q ∈ pre, q.rest = none) (hr : r.rest = some pc)
    (htag : ∀ q ∈ pre ++ post, q.tag ≠ r.tag) :
    let scan := scanRun (g r.side) form runFuel pc
    c.readRun g form = { (newDests r.dests scan.dests).foldl (fun (c : Crew) d => c.awaitLate r d) c with
      queue := pre ++ r.readTo scan :: post } := by
  intro scan
  unfold Crew.readRun
  rw [hq, find?_unread hpre hr]
  simp only [hr, Option.getD_some]
  rw [map_readTo _ htag]

theorem execLrun_full {s : State} {w : Workgroup} {c : Crew} (h : Issuing s w c) (a : Reg) (off : Word) (hq : 8 ≤ c.queue.length) :
    exec (.lrun a off) s = .next s := by
  show execLrun a off s = _
  rw [execLrun, acting_of h]
  simp [hq]

theorem execLrun_queues {s : State} {w : Workgroup} {c : Crew} (h : Issuing s w c) (a : Reg) (off : Word) (hq : c.queue.length < 8)
    (hfull : ∀ n < 8, c.full (a + BitVec.ofNat 6 n) = true) :
    let scan := scanRun (s.codeWord w c.side) ((s.gridOf w).laneForm c) runFuel (runAddr ((s.gridOf w).laneBaseFor c.side) off)
    Becomes (.lrun a off) s w (({ c.awaitAll (newDests [] scan.dests) c.nextId with
      queue := c.queue ++ [⟨off, (lrunRegs a).map c.s, c.nextId, newDests [] scan.dests, c.side, scan.rest,
        if scan.rest.isSome then c.sTag.map (fun e => (e.1, c.sreg.get e.1)) else []⟩],
      nextId := c.nextId + 1 } : Crew).advance 8) := by
  intro scan
  have hall : c.allFull (lrunRegs a) = true := by simpa [Crew.allFull, lrunRegs] using hfull
  show execLrun a off s = _
  rw [execLrun, acting_of h]
  simp only [hall, Nat.not_le.2 hq, decide_false, Bool.not_true, Bool.or_self, Bool.false_eq_true, if_false]
  rfl

/-- Settles O29, by the registers that a run marks and by what reading it on adds to them. -/
theorem lrunQueuesARun : Obligations.LrunQueuesARun := by
  refine ⟨fun s w c h a off => ⟨fun hq hfull => ?_, execLrun_full h a off⟩, ?_⟩
  · set scan := scanRun (s.codeWord w c.side) ((s.gridOf w).laneForm c) runFuel (runAddr ((s.gridOf w).laneBaseFor c.side) off)
    have hrest := c.awaitAll_rest (newDests [] scan.dests) c.nextId
    have hmark := c.full_awaitAll (newDests [] scan.dests) c.nextId
    refine ⟨_, execLrun_queues h a off hq hfull, ?_, rfl, (congrArg Crew.sreg hrest).trans rfl,
      (congrArg Crew.vreg hrest).trans rfl, fun r hr0 hd => ?_, fun r hd => ?_⟩
    · have hdests : newDests [] scan.dests = (scan.dests.filter (fun d => d != 0)).eraseDups := by simp [newDests]
      have hk : (lrunRegs a).map c.s = (List.range 8).map (fun n => c.s (a + BitVec.ofNat 6 n)) := List.map_map
      cases hs : scan.rest <;> simp [hdests, hk, scan]
    · refine Bool.eq_false_iff.2 fun hf => hr0 (((hmark r).1 hf).2 r.toNat ?_ (by simp))
      exact (mem_newDests _ _ _).2 ⟨hd, fun h => hr0 (BitVec.eq_of_toNat_eq h), List.not_mem_nil⟩
    · refine Bool.eq_iff_iff.2 ((hmark r).trans ⟨And.left, fun hf => ⟨hf, fun d hd' he => ?_⟩⟩)
      exact absurd he (hd d ((mem_newDests _ _ _).1 hd').1)
  · intro g form c pre post r pc hq hpre hr htag scan c' hlt
    have hc' : c' = _ := Crew.readRun_of hq hpre hr htag
    have hnew := mem_newDests r.dests scan.dests
    have hs : ∀ d : Reg, c'.s d = _ := fun d =>
      (congrArg (Crew.s · d) hc').trans (Crew.s_foldl_awaitLate r (newDests r.dests scan.dests) c d)
    have hfull : ∀ d : Reg, c'.full d = true ↔ c.full d = true ∧ (d.toNat ∈ newDests r.dests scan.dests → d = 0) := fun d => by
      rw [hc']
      refine (Crew.full_foldl_awaitLate r (newDests r.dests scan.dests) c d).trans (and_congr_right fun _ => ⟨fun h hd => ?_, ?_⟩)
      · exact h _ hd (by simp)
      · intro h x hx he
        rw [Reg.ofNat_eq_iff (hlt x ((hnew x).1 hx).1)] at he
        exact h (he ▸ hx)
    refine ⟨⟨r.readTo scan, congrArg Crew.queue hc', rfl, rfl, fun d => ?_⟩, fun d hd0 hd hold => ⟨?_, ?_⟩, fun d hd => ?_, ?_,
      Crew.readRun_rest g form c⟩
    · simp only [Run.readTo, List.mem_append, hnew]
      tauto
    · have hin := (hnew _).2 ⟨hd, fun h => hd0 (BitVec.eq_of_toNat_eq h), hold⟩
      exact Bool.eq_false_iff.2 fun hf => hd0 (((hfull d).1 hf).2 hin)
    · have hin := (hnew _).2 ⟨hd, fun h => hd0 (BitVec.eq_of_toNat_eq h), hold⟩
      rw [hs, if_pos ⟨hd0, hin⟩]
    · have hout : d.toNat ∈ newDests r.dests scan.dests → d = 0 := fun hin => by
        obtain ⟨hin, h0, hnot⟩ := (hnew _).1 hin
        rcases hd with h | h | h
        · exact h
        · exact absurd hin h
        · exact absurd h hnot
      refine ⟨Bool.eq_iff_iff.2 ((hfull d).trans ⟨And.left, fun hf => ⟨hf, hout⟩⟩), ?_⟩
      rw [hs, if_neg fun h => h.1 (hout h.2)]
    · have : c.queue.any (fun r => r.rest.isSome) = true := by simp [hq, hr]
      simp only [Crew.scalarBusy, this, Bool.or_true, Bool.true_or]

end Sys2Proof.Machine
end

section
/-! SUPPORT. Copy batches (04 R93; 07 R159, R160), tile transfers (04 R94; 07 R157, R158; 12 R251, R252) and codebook loads (04 R92; 07
R161). -/

namespace Sys2Proof.Machine

/-! Roles. -/

theorem Crew.mayCopy_of_other {c : Crew} (h : c.role = 1 ∨ c.role = 2) : c.mayCopy = false := by
  rcases h with h | h <;> rw [Crew.mayCopy, h] <;> decide

/-! Copy batches. -/

/-- The copies issued since the last seal take its number. -/
theorem Crew.seal_eq (c : Crew) (n : Nat) :
    c.seal n = { c with
      flying := c.flying.map (fun x => if x.kind.isCopy = true ∧ x.batch = none then { x with batch := some n } else x) } := by
  simp only [Crew.seal, Bool.and_eq_true, Option.isNone_iff_eq_none]

/-- Where no access has the number yet, a batch with it is open if a copy issued since the last seal has not landed. -/
theorem Crew.batchOpen_seal {c : Crew} {n : Nat} (h : ∀ x ∈ c.flying, x.batch ≠ some n) :
    (c.seal n).batchOpen n = true ↔ ∃ x ∈ c.flying, x.kind.isCopy = true ∧ x.batch = none ∧ x.done = false := by
  simp only [Crew.seal_eq, Crew.batchOpen, List.any_map, List.any_eq_true, Function.comp_apply, Bool.and_eq_true, beq_iff_eq,
    Bool.not_eq_true']
  refine exists_congr fun x => and_congr_right fun hx => ?_
  split
  · next hc => exact ⟨fun hd => ⟨hc.1, hc.2, hd.2⟩, fun hd => ⟨rfl, hd.2.2⟩⟩
  · next hc => exact ⟨fun hd => absurd hd.1 (h x hx), fun hd => absurd ⟨hd.1, hd.2.1⟩ hc⟩

/-- The crew whose copies since the last seal are numbered. -/
def Crew.numbered (c : Crew) : Crew := { c.seal c.nextId with nextBatch := c.nextBatch + 1, nextId := c.nextId + 1 }

theorem Crew.numbered_setS (c : Crew) (d : Reg) (v : Word) : c.numbered.setS d v
    = { (c.seal c.nextId).setS d v with nextBatch := c.nextBatch + 1, nextId := c.nextId + 1 } := by
  unfold Crew.setS
  split <;> rfl

theorem execCpseal_role {s : State} {w : Workgroup} {c : Crew} (h : Issuing s w c) (hr : c.mayCopy = false) (d : Reg)
    (bar : Option (BitVec 4)) : Traps (.cpseal d bar) s .role 0 := by
  show execCpseal d bar s = _
  rw [execCpseal, acting_of h]
  simp only [hr, Bool.not_false, if_true]

theorem execCpwait_of {s : State} {w : Workgroup} {c : Crew} (h : Issuing s w c) (a : Reg) (n : BitVec 8) (hf : c.full a = true) :
    exec (.cpwait a n) s = if c.mayCopy = false then trap s .role 0
      else if ∃ b ∈ c.batches, b.number = (c.s a).setWidth 8 + n then .next s
      else .next (s.put s.cur.key w (c.advance 4)) := by
  have ha : c.allFull [a] = true := (allFull_eq c [a]).2 (by simpa using hf)
  show execCpwait a n s = _
  rw [execCpwait, acting_of h]
  simp only [ha, Bool.not_true, Bool.false_eq_true, if_false, Bool.not_eq_true', List.any_eq_true, beq_iff_eq]

/-- CPSEAL numbers the open copies and has them stand as a batch, or lets an empty batch land. -/
theorem execCpseal_of {s : State} {w : Workgroup} {c : Crew} (h : Issuing s w c) (d : Reg) (bar : Option (BitVec 4))
    (hr : c.mayCopy = true) (hd : c.drained = true) (hb : ∀ o, bar = some o → (w.bar o.toNat).valid = true)
    (hfree : ∀ b ∈ c.batches, b.number ≠ c.nextBatch) (hn : ∀ x ∈ c.flying, x.batch ≠ some c.nextId) :
    let c' := c.numbered.setS d (c.nextBatch.zeroExtend 32)
    exec (.cpseal d bar) s = if ∃ x ∈ c.flying, x.kind.isCopy = true ∧ x.batch = none ∧ x.done = false then
        .next (s.put s.cur.key w { c'.advance 4 with batches := c.batches ++ [⟨c.nextId, c.nextBatch, bar⟩] })
      else .next (s.put s.cur.key (w.arriveAt bar) (c'.advance 4)) := by
  intro c'
  have hused : c.batches.any (fun b => b.number == c.nextBatch) = false := by simpa using hfree
  have hopen : c'.batchOpen c.nextId = (c.seal c.nextId).batchOpen c.nextId := by
    rw [Crew.batchOpen, Crew.batchOpen, Crew.setS_flying]
    rfl
  have hbatches : ((c.seal c.nextId).setS d (c.nextBatch.zeroExtend 32)).batches = c.batches := Crew.setS_batches _ _ _
  have hc' : c' = _ := Crew.numbered_setS c d (c.nextBatch.zeroExtend 32)
  show execCpseal d bar s = _
  rw [execCpseal, acting_of h]
  simp only [hr, hd, hused, Bool.not_true, Bool.false_eq_true, if_false]
  rw [hc'] at hopen ⊢
  simp only [hbatches] at hopen ⊢
  simp only [hopen, Crew.batchOpen_seal hn]
  cases bar with
  | none => rfl
  | some o => simp only [hb o rfl]; rfl

/-! Rows of a tile transfer. -/

/-- A row that does not pass 2^52 with a byte that is accessed (R81). -/
theorem Formed.farRow_false_iff (r : Formed) : r.farRow = false
    ↔ r.addr.toNat < 2 ^ 52 ∧ ∀ i, i < 128 → r.accessed i = true → r.addr.toNat + i < 2 ^ 52 := by
  rw [← Bool.not_eq_true, Formed.farRow_iff]
  simp only [not_or, not_le, not_exists, not_and]

/-- The object that a transfer names is not valid. -/
def Workgroup.lacksObject (w : Workgroup) (bar : Option (BitVec 4)) : Bool := bar.any (fun o => !(w.bar o.toNat).valid)

theorem Workgroup.lacksObject_false {w : Workgroup} {bar : Option (BitVec 4)} (h : ∀ o, bar = some o → (w.bar o.toNat).valid = true) :
    w.lacksObject bar = false := by
  cases bar with
  | none => rfl
  | some o => simp [Workgroup.lacksObject, h o rfl]

/-- The checks of a tile transfer that come before its translation, in the order of R139. -/
def tileFirst (s : State) (w : Workgroup) (c : Crew) (t : BitVec 4) (bar : Option (BitVec 4)) (rec_ : BufRec) (rows : List Formed) :
    List (Bool × FaultCode × DWord) :=
  [(!c.mayCopy, .role, 0),
   (decide (s.tileLimit w ≤ t.toNat), .range, 0),
   (w.lacksObject bar, .range, 0),
   (!rec_.ordinary, .bounds, 0),
   (rows.any (fun r => misaligned r.addr 16), .align, 0),
   (rows.any (·.bounds), .bounds, 0)]

section
variable {s : State} {w : Workgroup} {c : Crew} {t : BitVec 4} {a b z : Reg} {m : BitVec 5} {bar : Option (BitVec 4)} {off : BitVec 16}
  {idle : Grid → Crew → Bool} {run : Workgroup → Crew → List Formed → Result}

/-- None of the first checks of a tile transfer traps. -/
def TilePasses (s : State) (w : Workgroup) (c : Crew) (t : BitVec 4) (bar : Option (BitVec 4)) (rec_ : BufRec) (rows : List Formed) :
    Prop := ∀ x ∈ tileFirst s w c t bar rec_ rows, x.1 = false

theorem tilePasses_of {rec_ : BufRec} {rows : List Formed} (hc : c.mayCopy = true) (ht : t.toNat < s.tileLimit w)
    (hb : ∀ o, bar = some o → (w.bar o.toNat).valid = true) (ho : rec_.ordinary = true)
    (hr : ∀ r ∈ rows, r.bounds = false ∧ r.addr.toNat % 16 = 0) : TilePasses s w c t bar rec_ rows := by
  have halign : rows.any (fun r => misaligned r.addr 16) = false := by
    simpa [misaligned] using fun r h => (hr r h).2
  have hbounds : rows.any (·.bounds) = false := by simpa using fun r h => (hr r h).1
  simp [TilePasses, tileFirst, hc, ht, ho, Workgroup.lacksObject_false hb, halign, hbounds]

/-- A tile transfer with its registers full takes its checks in order. -/
theorem tileIssue_of (h : Issuing s w c) (hfull : c.allFull [a, b, z] = true) :
    let rec_ := (s.gridOf w).buf m.toNat
    let rows := tileRows rec_ (c.s a) (c.s b) (c.s z) off
    let far := if idle (s.gridOf w) c then none else (rows.find? Formed.farRow).map (·.addr)
    tileIssue s t a b z m bar off idle run
      = trapsThen s (run w c rows) (tileFirst s w c t bar rec_ rows ++ [(far.isSome, .xlat, far.getD 0)]) := by
  intro rec_ rows far
  rw [tileIssue, acting_of h]
  simp only [hfull, Bool.not_true, Bool.false_eq_true, if_false]
  cases bar <;> rfl

theorem tileIssue_role (h : Issuing s w c) (hfull : c.allFull [a, b, z] = true) (hc : c.mayCopy = false) :
    tileIssue s t a b z m bar off idle run = trap s .role 0 := by
  rw [tileIssue_of h hfull]
  unfold tileFirst
  rw [hc]
  rfl

/-- A tile transfer that passes its checks, and has no row beyond 2^52 or is not translated, runs. -/
theorem tileIssue_runs (h : Issuing s w c) (hfull : c.allFull [a, b, z] = true)
    (hp : TilePasses s w c t bar ((s.gridOf w).buf m.toNat) (tileRows ((s.gridOf w).buf m.toNat) (c.s a) (c.s b) (c.s z) off))
    (hnear : idle (s.gridOf w) c = true
      ∨ ∀ r ∈ tileRows ((s.gridOf w).buf m.toNat) (c.s a) (c.s b) (c.s z) off, r.farRow = false) :
    tileIssue s t a b z m bar off idle run
      = run w c (tileRows ((s.gridOf w).buf m.toNat) (c.s a) (c.s b) (c.s z) off) := by
  rw [tileIssue_of h hfull]
  refine trapsThen_none fun x hx => ?_
  rcases List.mem_append.1 hx with hx | hx
  · exact hp x hx
  · rw [List.mem_singleton.1 hx]
    rcases hnear with hi | hn
    · simp only [hi, if_true, Option.isSome_none]
    · rw [List.find?_eq_none.2 fun r hr => by simp [hn r hr]]
      simp

/-- A tile transfer that is translated traps at its first row beyond 2^52. -/
theorem tileIssue_far (h : Issuing s w c) (hfull : c.allFull [a, b, z] = true) {before after : List Formed} {r : Formed}
    (hrows : tileRows ((s.gridOf w).buf m.toNat) (c.s a) (c.s b) (c.s z) off = before ++ r :: after)
    (hp : TilePasses s w c t bar ((s.gridOf w).buf m.toNat) (tileRows ((s.gridOf w).buf m.toNat) (c.s a) (c.s b) (c.s z) off))
    (hi : idle (s.gridOf w) c = false) (hb : ∀ x ∈ before, x.farRow = false) (hr : r.farRow = true) :
    tileIssue s t a b z m bar off idle run = trap s .xlat r.addr := by
  have hfind : (tileRows ((s.gridOf w).buf m.toNat) (c.s a) (c.s b) (c.s z) off).find? Formed.farRow = some r := by
    rw [hrows, List.find?_append, List.find?_eq_none.2 (fun x hx => by simp [hb x hx])]
    simp [hr]
  rw [tileIssue_of h hfull, hfind, hi]
  exact trapsThen_first hp

end

/-! Codebooks. -/

theorem entryBytes_pos (e : BitVec 2) : 0 < entryBytes e := by simp [entryBytes]

theorem entryBytes_le (e : BitVec 2) : entryBytes e ≤ 32 := by revert e; decide

/-- The entries of a codebook pass 2^52. -/
theorem farBook_iff (x : DWord) (e : BitVec 2) :
    (farAddr (x + BitVec.ofNat 64 (256 * entryBytes e - 1)) || farAddr x) = true ↔ 2 ^ 52 < x.toNat + 256 * entryBytes e := by
  have h0 := entryBytes_pos e
  have h1 := entryBytes_le e
  rw [Bool.or_eq_true, farAddr_iff, farAddr_iff, BitVec.toNat_add, BitVec.toNat_ofNat]
  omega

theorem execCbload_of {s : State} {w : Workgroup} {c : Crew} (h : Issuing s w c) (cb : BitVec 3) (a : Reg) (e : BitVec 2)
    (hfull : c.allFull (pairOf a) = true) : exec (.cbload cb a e) s = trapsThen s
      (if (w.books.find? cb.toNat).isSome || s.bookFree w.die w.core then
        issueScalar s w c (scalarAccess c (.cbload cb.toNat e []) .weak .dev (bookParts (c.s2 a).toNat (entryBytes e))) 0 (fun c _ => c)
       else .next s)
      [(!c.mayCopy, .role, 0), (misaligned (c.s2 a) (entryBytes e), .align, 0),
       (farAddr (c.s2 a + BitVec.ofNat 64 (256 * entryBytes e - 1)) || farAddr (c.s2 a), .xlat, c.s2 a)] := by
  show execCbload cb a e s = _
  rw [execCbload, acting_of h]
  simp only [hfull, Bool.not_true, Bool.false_eq_true, if_false]

theorem execCbload_role {s : State} {w : Workgroup} {c : Crew} (h : Issuing s w c) {cb : BitVec 3} {a : Reg} {e : BitVec 2}
    (hfull : c.allFull (pairOf a) = true) (hc : c.mayCopy = false) : Traps (.cbload cb a e) s .role 0 := by
  rw [Traps, execCbload_of h cb a e hfull, hc]
  rfl

/-- Settles O25, each instruction by the order of its checks. -/
theorem copiesAndTransfersIssueSealAndWait : Obligations.CopiesAndTransfersIssueSealAndWait := by
  refine ⟨fun s w c h d a bar n => ⟨fun hc hd hb hfree hn => ?_, fun hc hf hno => ?_, fun hc hf hb => ?_,
      fun hr => ⟨?_, fun hf => ?_⟩⟩,
    fun s w c h t a b z m bar off cb e => ?_⟩
  · have hi := execCpseal_of h d bar hc hd hb hfree hn
    refine ⟨c.numbered.setS d (c.nextBatch.zeroExtend 32), ?_, fun hopen => ?_, fun hdone => ?_⟩
    · have hs := scalarWritten_setS c.numbered d (c.nextBatch.zeroExtend 32)
      rw [Crew.numbered, Crew.seal_eq] at hs ⊢
      exact hs
    · exact hi.trans (if_pos hopen)
    · refine hi.trans (if_neg ?_)
      rintro ⟨x, hx, hcopy, hnone, hopen⟩
      exact absurd (hdone x hx hcopy hnone) (by simp [hopen])
  · rw [Becomes, execCpwait_of h a n hf, if_neg (by simp [hc]), if_neg (by simpa using hno)]
  · rw [execCpwait_of h a n hf, if_neg (by simp [hc]), if_pos hb]
  · exact execCpseal_role h (Crew.mayCopy_of_other hr) d bar
  · rw [Traps, execCpwait_of h a n hf, if_pos (Crew.mayCopy_of_other hr)]
  · intro rec_ rows transfer near
    have hnear : ∀ r : Formed, near r ↔ r.farRow = false := fun r => (Formed.farRow_false_iff r).symm
    have hfar : ∀ r : Formed, ¬ near r → r.farRow = true := fun r hr => by rwa [hnear, Bool.not_eq_false] at hr
    have hl : exec (.tload t a b z m bar off) s = execTload t a b z m bar off s := rfl
    have hs : exec (.tstore t a b z m off) s = execTstore t a b z m off s := rfl
    unfold Becomes Traps
    rw [hl, hs, execTload, execTstore]
    refine ⟨fun hc hfull ht ho hr => ?_, fun hc hfull hal hbig => ?_, fun hc hfull hal hle hroom => ?_,
      fun hr => ⟨fun hf => ⟨tileIssue_role h hf (Crew.mayCopy_of_other hr), tileIssue_role h hf (Crew.mayCopy_of_other hr)⟩,
        fun hf => execCbload_role h hf (Crew.mayCopy_of_other hr)⟩⟩
    · have hp := fun (bar : Option (BitVec 4)) hb => tilePasses_of (bar := bar) hc ht hb ho hr
      have hp0 := hp none (by simp)
      refine ⟨fun hn hroom => ⟨fun hfw hb => ?_, fun hel => ?_⟩, fun hfw hb => ?_, fun hel => ?_,
        fun before r after hrows hbe hr => ?_⟩
      · rw [tileIssue_runs h hfull (hp bar hb) (.inr fun r hr => (hnear r).1 (hn r hr)), if_neg (by simp [hfw])]
        exact if_pos hroom
      · rw [tileIssue_runs h hfull hp0 (.inr fun r hr => (hnear r).1 (hn r hr)), if_neg (by simp [hel])]
        exact if_pos hroom
      · rw [tileIssue_runs h hfull (hp bar hb) (.inl hfw), if_pos hfw]
      · rw [tileIssue_runs h hfull hp0 (.inl hel), if_pos hel]
      · have hbefore := fun x hx => (hnear x).1 (hbe x hx)
        exact ⟨fun hfw hb => tileIssue_far h hfull hrows (hp bar hb) hfw hbefore (hfar r hr),
          fun hel => tileIssue_far h hfull hrows hp0 hel hbefore (hfar r hr)⟩
    · rw [execCbload_of h cb a e hfull, (farBook_iff _ _).2 hbig]
      exact trapsThen_first (pre := [_, _]) (by simp [hc, misaligned, hal])
    · have hsmall := mt (farBook_iff (c.s2 a) e).1 (by omega)
      rw [execCbload_of h cb a e hfull, trapsThen_none (by simp [hc, misaligned, hal]; simpa using hsmall),
        if_pos (by simpa using hroom)]
      rfl

end Sys2Proof.Machine
end

section
/-! SUPPORT. The launch path (19 R301 to R309; 20 R311): heads that fail, acceptance of a launch that has no partner, device queues and
fabric packets. -/

namespace Sys2Proof

/-! Entries of a sparse map that are listed. -/

theorem SMap.get_of_find? {α : Type} [Inhabited α] {m : SMap α} {k : Nat} {v : α} (h : m.find? k = some v) : m.get k = v := by
  rw [SMap.get, h]
  rfl

theorem SMap.get_modify_of_find? {α : Type} [Inhabited α] {m : SMap α} {k : Nat} {v : α} (f : α → α) (h : m.find? k = some v) :
    (m.modify k f).get k = f v := by
  rw [SMap.modify, h]
  exact SMap.get_insert_self m k (f v)

/-! Little-endian bytes. -/

theorem length_leBytes (n x : Nat) : (leBytes n x).length = n := by
  induction n generalizing x with
  | zero => rfl
  | succ n ih => rw [leBytes, List.length_cons, ih]

theorem leNat_leBytes (n x : Nat) : leNat (leBytes n x) = x % 256 ^ n := by
  induction n generalizing x with
  | zero => rw [leBytes, leNat, pow_zero, Nat.mod_one]
  | succ n ih => rw [leBytes, leNat, ih, BitVec.toNat_ofNat, pow_succ' 256 n, Nat.mod_mul]

end Sys2Proof

namespace Sys2Proof.Machine

/-! Reports (R333). -/

theorem Report.pack_code (r : Report) : fld r.pack 0 8 = r.code.code := by
  rw [Report.pack, Laws.fld_append_low _ _ _ _ (by decide), Laws.fld_whole]

theorem Report.pack_detail (r : Report) : fld r.pack 128 64 = r.detail := by
  unfold Report.pack
  iterate 12 rw [Laws.fld_append_high _ _ _ _ (by decide)]
  rw [Laws.fld_append_low _ _ _ _ (by decide), Laws.fld_whole]

/-! Heads. -/

/-- A queue whose head cannot be read, once that is reported. -/
theorem State.reportHead_first {s : State} {n : Nat} {code : FaultCode} {va : Nat} (h : (s.queues.get n).reported = false) :
    s.reportHead n code va = ({ s with queues := s.queues.insert n { s.queues.get n with reported := true } } : State).report
      (.plain code (s.queues.get n).ctx.toNat (BitVec.ofNat 64 va)) := by
  rw [State.reportHead, h]
  rfl

/-! READ moves on. -/

/-- The queue after its READ has become `read`. -/
def Queue.readOn (q : Queue) (read tick : Nat) : Queue := { q with read := BitVec.ofNat 64 read, reported := false, since := tick }

theorem State.advance_posted (s : State) (n read : Nat) :
    Posted { s with queues := s.queues.insert n ((s.queues.get n).readOn read s.tick) } (s.advance n read) :=
  posted_post _ _

theorem State.advance_grids (s : State) (n read : Nat) : (s.advance n read).grids = s.grids := (s.advance_posted n read).grids
theorem State.advance_seq (s : State) (n read : Nat) : (s.advance n read).seq = s.seq := (s.advance_posted n read).seq
theorem State.advance_out (s : State) (n read : Nat) : (s.advance n read).out = s.out := State.post_silent_out _ _ _ _

theorem State.advance_read (s : State) (n read : Nat) : ((s.advance n read).queues.get n).read = BitVec.ofNat 64 read := by
  rw [(s.advance_posted n read).queues, SMap.get_insert_self]
  rfl

/-! Acceptance of a launch that Stoat does not fuse. -/

/-- The grid of a launch that is accepted alone. -/
def Launching.grid (l : Launching) (home : Nat) : Grid :=
  { ctx := l.ctx, queue := l.queue, pktIndex := l.index, pri := l.pri, copy := l.copy, depth := l.depth, parent := l.parent,
    counter := 0, home := home, drawn := [], done := 0, atHead := l.copy.coresident, spliceInfo := l.note, fused := none }

theorem State.acceptWith_refused {s : State} {l : Launching} {n : Option Partner} {cause : Nat}
    (h : l.copy.cause (s.coresOf l.ctx).length = some cause) : s.acceptWith l n (.refuse 0)
      = some ⟨({ s with seq := s.seq + 1 } : State).refuseLaunch l.ctx l.copy cause l.queue s.seq l.note l.parent, l.index + 1, false,
          none⟩ := by
  have h' : l.copy.cause (({ s with seq := s.seq + 1 } : State).coresOf l.ctx).length = some cause := h
  simp only [State.acceptWith, h', if_true]

theorem State.acceptWith_alone {s : State} {l : Launching} {n : Option Partner} (h : l.copy.cause (s.coresOf l.ctx).length = none) :
    s.acceptWith l n (.refuse 0)
      = some ⟨{ s with seq := s.seq + 1, grids := s.grids.insert s.seq (l.grid (s.homeOf l.ctx s.seq)) }, l.index + 1,
          l.copy.coresident, none⟩ := by
  have h' : l.copy.cause (({ s with seq := s.seq + 1 } : State).coresOf l.ctx).length = none := h
  simp only [State.acceptWith, h', if_true]
  rfl

theorem State.examineWith_none (s : State) (c : Nat) (r : LaunchCopy) : s.examineWith c r .none = .refuse 0 := rfl

/-- SPLICEINFO that an earlier examination as consumer has left for the packet at READ (R254). -/
def Queue.noteAtHead (q : Queue) : BitVec 16 :=
  match q.note with | some (j, v) => if j = q.read.toNat then v else 0 | none => 0

/-- The launch at the head of a user queue. -/
def Queue.launching (q : Queue) (n : Nat) (r : LaunchCopy) : Launching :=
  { ctx := q.ctx.toNat, queue := some n, index := q.read.toNat, pri := q.level, copy := r, depth := 0, parent := none,
    note := q.noteAtHead }

/-- A launch that asks for no splice is accepted, or refused, by itself. -/
theorem State.acceptUser_of {s : State} {n : Nat} {p : Packet} {r : LaunchCopy}
    (hr : s.readLaunch (s.queues.get n).ctx.toNat p.lrec = .copy r) (hs : r.spliceAt = 0) {a : Accepted} (ha : a.note = none)
    (h : s.acceptWith ((s.queues.get n).launching n r) none (.refuse 0) = some a) :
    s.acceptUser n p = if a.held then a.state else a.state.advance n a.next := by
  unfold State.acceptUser
  simp only [hr, hs, if_true, PartnerView.partner, State.examineWith_none]
  change (match s.acceptWith ((s.queues.get n).launching n r) none (.refuse 0) with | none => _ | some a => _) = _
  rw [h]
  simp only [ha]

/-- A launch that its cause refuses leaves its record, and its packet is passed. -/
theorem State.acceptUser_refused {s : State} {n : Nat} {p : Packet} {r : LaunchCopy} {cause : Nat}
    (hr : s.readLaunch (s.queues.get n).ctx.toNat p.lrec = .copy r) (hs : r.spliceAt = 0)
    (hc : r.cause (s.coresOf (s.queues.get n).ctx.toNat).length = some cause) :
    s.acceptUser n p = (({ s with seq := s.seq + 1 } : State).complete (s.queues.get n).ctx.toNat r
      ⟨1, cause, some n, (s.queues.get n).noteAtHead, s.seq, 0, 0⟩).advance n ((s.queues.get n).read.toNat + 1) := by
  rw [State.acceptUser_of hr hs rfl (State.acceptWith_refused hc)]
  rfl

/-- A launch with no cause against it becomes a grid, and its packet is passed unless the grid is co-resident. -/
theorem State.acceptUser_alone {s : State} {n : Nat} {p : Packet} {r : LaunchCopy}
    (hr : s.readLaunch (s.queues.get n).ctx.toNat p.lrec = .copy r) (hs : r.spliceAt = 0)
    (hc : r.cause (s.coresOf (s.queues.get n).ctx.toNat).length = none) :
    let t : State := { s with
      seq := s.seq + 1,
      grids := s.grids.insert s.seq (((s.queues.get n).launching n r).grid (s.homeOf (s.queues.get n).ctx.toNat s.seq)) }
    s.acceptUser n p = if r.coresident then t else t.advance n ((s.queues.get n).read.toNat + 1) := by
  rw [State.acceptUser_of hr hs rfl (State.acceptWith_alone hc)]
  rfl

/-- A launch whose record cannot be read takes its number, is reported, and its packet is passed. -/
theorem State.acceptUser_unread {s : State} {n : Nat} {p : Packet} {code : FaultCode} {va : Nat}
    (hr : s.readLaunch (s.queues.get n).ctx.toNat p.lrec = .fail code va) :
    s.acceptUser n p = (s.reportRecord (s.queues.get n).ctx.toNat p.lrec).advance n ((s.queues.get n).read.toNat + 1) := by
  simp only [State.acceptUser, hr]

/-! Device queues. -/

theorem State.devHead_of_devReady {s : State} {c : Nat} (h : s.devReady c = true) : ∃ p, s.devHead c = .ready p := by
  unfold State.devReady at h
  split at h
  · next p hp => exact ⟨p, hp⟩
  · exact absurd h (by decide)

/-- A context whose device queue holds a packet is listed. -/
theorem State.ctx_listed {s : State} {c i : Nat} {d : DevSlot} (h : (s.ctx c).devSlots.find? i = some d) :
    s.ctxs.find? c = some (s.ctx c) := by
  rw [State.ctx, SMap.get] at h ⊢
  cases hc : s.ctxs.find? c with
  | some x => rfl
  | none => rw [hc] at h; cases h

theorem State.devPartner_none {s : State} {c i : Nat} (h : (s.ctx c).devSlots.find? (i + 1) = none) : s.devPartner c i = .none := by
  unfold State.devPartner
  rw [h]

/-- The launch in a slot of a device queue. -/
def DevSlot.launching (d : DevSlot) (c i : Nat) (r : LaunchCopy) : Launching :=
  { ctx := c, queue := none, index := i, pri := 0, copy := r, depth := d.depth, parent := d.parent, note := d.note }

/-- The oldest packet of a device queue with none behind it becomes a grid where there is no cause against it. -/
theorem State.takeDev_alone {s : State} {c : Nat} {d : DevSlot} {r : LaunchCopy}
    (hd : (s.ctx c).devSlots.find? (s.ctx c).devTake = some d) (hr : d.copy = some r)
    (hn : (s.ctx c).devSlots.find? ((s.ctx c).devTake + 1) = none) (hc : r.cause (s.coresOf c).length = none) :
    s.takeDev c = { s with
      seq := s.seq + 1, grids := s.grids.insert s.seq ((d.launching c (s.ctx c).devTake r).grid (s.homeOf c s.seq)),
      ctxs := s.ctxs.modify c (fun x => x.taken ((s.ctx c).devTake + 1) s.tick) } := by
  have ha := State.acceptWith_alone (l := d.launching c (s.ctx c).devTake r) (n := none) hc
  unfold State.takeDev
  simp only [hd, hr, State.devPartner_none hn, ite_self, PartnerView.partner, State.examineWith_none]
  change (match s.acceptWith (d.launching c (s.ctx c).devTake r) none (.refuse 0) with | none => _ | some a => _) = _
  rw [ha]
  rfl

theorem State.childDone_seq (s : State) (p : Option Parent) : (s.childDone p).seq = s.seq := by cases p <;> rfl
theorem State.childDone_grids (s : State) (p : Option Parent) : (s.childDone p).grids = s.grids := by cases p <;> rfl
theorem State.childDone_ctxs (s : State) (p : Option Parent) : (s.childDone p).ctxs = s.ctxs := by cases p <;> rfl

/-- The oldest packet of a device queue whose record could not be read at its LAUNCH is reported. -/
theorem State.takeDev_unread {s : State} {c : Nat} {d : DevSlot} (hd : (s.ctx c).devSlots.find? (s.ctx c).devTake = some d)
    (hr : d.copy = none) :
    s.takeDev c = (({ s with ctxs := s.ctxs.insert c ((s.ctx c).taken ((s.ctx c).devTake + 1) s.tick) } : State).reportRecord c
      d.lrec.toNat).childDone d.parent := by
  simp only [State.takeDev, hd, hr]

/-! Fabric packets. -/

theorem publishedAt_eq (i : Nat) {pk : List Byte} (h : pk.length = 128) :
    publishedAt i pk = pk.take 4 ++ (leBytes 4 ((i + 1) % 2 ^ 32) ++ pk.drop 8) := by
  rw [publishedAt, List.append_assoc, List.take_of_length_le]
  simp [length_leBytes, h]

theorem length_publishedAt (i : Nat) {pk : List Byte} (h : pk.length = 128) : (publishedAt i pk).length = 128 := by
  simp [publishedAt_eq i h, length_leBytes, h]

/-- READY of a published packet is that of its index (R301). -/
theorem ready_publishedAt (i : Nat) {pk : List Byte} (h : pk.length = 128) :
    leNat (((publishedAt i pk).drop 4).take 4) = (i + 1) % 2 ^ 32 := by
  rw [publishedAt_eq i h, List.drop_left' (by simp [h]), List.take_left' (length_leBytes _ _), leNat_leBytes]
  exact Nat.mod_mod _ _

/-- The other bytes of a published packet are its own. -/
theorem getElem?_publishedAt (i : Nat) {pk : List Byte} (h : pk.length = 128) {j : Nat} (hj : j < 4 ∨ 8 ≤ j) :
    (publishedAt i pk)[j]? = pk[j]? := by
  have hlow : (pk.take 4).length = 4 := by simp [h]
  rw [publishedAt_eq i h]
  rcases hj with hj | hj
  · rw [List.getElem?_append_left (by omega), List.getElem?_take_of_lt hj]
  · rw [List.getElem?_append_right (by omega), List.getElem?_append_right (by rw [length_leBytes]; omega), List.getElem?_drop,
      length_leBytes, hlow]
    congr 1
    omega

/-! The events. -/

theorem launchAcceptance_bad {s : State} {n : Nat} {x : Queue} (hx : s.queues.find? n = some x) (hh : s.headOf n = .bad) :
    ∃ t, exec (.launchAcceptance n) s = .next t ∧ (t.queues.get n).state = .badpkt ∧ (t.queues.get n).read = (s.queues.get n).read
      ∧ t.grids = s.grids := by
  have hi : exec (.launchAcceptance n) s = execLaunchAcceptance n s := rfl
  rw [execLaunchAcceptance, hh] at hi
  have hq := SMap.get_modify_of_find? (fun q : Queue => { q with state := .badpkt }) hx
  exact ⟨_, hi, congrArg Queue.state hq, (congrArg Queue.read hq).trans (congrArg Queue.read (SMap.get_of_find? hx)).symm, rfl⟩

theorem launchAcceptance_starts {s : State} {n : Nat} {p : Packet} (hp : s.startHead n = some p) (ht : p.type = 1)
    (hh : s.headOf n = .ready p) : exec (.launchAcceptance n) s = .next (s.acceptUser n p) := by
  show execLaunchAcceptance n s = _
  rw [execLaunchAcceptance, hh]
  simp only [hp, ht, if_true]

theorem barrierPacketStart_starts {s : State} {n : Nat} {p : Packet} (hp : s.startHead n = some p) (ht : p.type = 2) :
    exec (.barrierPacketStart n) s = .next ((s.decrement (s.queues.get n).ctx.toNat (s.queues.get n).func.toNat p.bsig 0).advance n
      ((s.queues.get n).read.toNat + 1)) := by
  show execBarrierPacketStart n s = _
  rw [execBarrierPacketStart, hp]
  simp only [ht, if_true]

theorem deviceQueueTake_takes {s : State} {c : Nat} (hr : s.devReady c = true)
    (hf : s.isFirst (ioOf c) 0 (s.ctx c).devSince = true) : exec (.deviceQueueTake c) s = .next (s.takeDev c) := by
  obtain ⟨p, hp⟩ := State.devHead_of_devReady hr
  show execDeviceQueueTake c s = _
  rw [execDeviceQueueTake, hp]
  simp only [hr, hf, Bool.and_self, if_true]

/-- A head that cannot be read, met by either event of its queue. -/
theorem headFails {s : State} {n : Nat} {code : FaultCode} {va : Nat} (hh : s.headOf n = .fail code va) :
    exec (.dependenceRecheck n) s = .next (s.reportHead n code va)
      ∧ exec (.launchAcceptance n) s = .next (s.reportHead n code va) := by
  constructor
  · show execDependenceRecheck n s = _
    rw [execDependenceRecheck, hh]
  · show execLaunchAcceptance n s = _
    rw [execLaunchAcceptance, hh]

/-- The packet written at TAIL, which moves on. -/
def State.published (s : State) (n : Nat) (pk : List Byte) : State :=
  let q := s.queues.get n
  let t := s.post (.bytes q.ctx.toNat (q.ring.toNat + 128 * (q.tail.toNat % q.size)) none (publishedAt q.tail.toNat pk))
  { t with queues := t.queues.insert n { q with tail := q.tail + 1, since := if q.read = q.tail then t.tick else q.since } }

theorem State.published_out (s : State) (n : Nat) (pk : List Byte) : (s.published n pk).out = s.out := State.post_silent_out _ _ _ _

theorem State.published_grids (s : State) (n : Nat) (pk : List Byte) : (s.published n pk).grids = s.grids := (posted_post s _).grids

theorem State.published_tail (s : State) (n : Nat) (pk : List Byte) :
    ((s.published n pk).queues.get n).tail = (s.queues.get n).tail + 1 := congrArg Queue.tail (SMap.get_insert_self _ _ _)

theorem State.published_read (s : State) (n : Nat) (pk : List Byte) :
    ((s.published n pk).queues.get n).read = (s.queues.get n).read :=
  (congrArg Queue.read (SMap.get_insert_self _ _ _)).trans rfl

/-- A packet of the fabric is refused by the first of R309's conditions that holds, or published at TAIL. -/
theorem fabricLaunchPacket_of {s : State} (hd : s.downLinks.contains 5 = false) (pkg src n : Nat) (ok : Bool) (pk : List Byte) :
    exec (.fabricLaunchPacket pkg src n ok pk) s =
      if s.fabricEntry pkg src n = false then .next (s.send (.fabric pkg (some 0)))
      else if ok = false ∨ s.stopped.contains (s.ctx (s.queues.get n).ctx.toNat).tenant = true then .next (s.send (.fabric pkg (some 1)))
      else if (s.queues.get n).state ≠ .active ∨ (s.ctx (s.queues.get n).ctx.toNat).valid = false then
        .next (s.send (.fabric pkg (some 2)))
      else if (s.queues.get n).size ≤ ((s.queues.get n).tail - (s.queues.get n).read).toNat then .next (s.send (.fabric pkg (some 3)))
      else .next ((s.published n pk).send (.fabric pkg none)) := by
  show execFabricLaunchPacket pkg src n ok pk s = _
  unfold execFabricLaunchPacket
  simp only [hd, Bool.false_eq_true, if_false, Bool.not_eq_true', Bool.or_eq_true]
  rfl

/-- Settles O51, each clause by what its event does to the head that it finds. -/
theorem theLaunchPathMoves : Obligations.TheLaunchPathMoves := by
  intro s n q ctx
  refine ⟨fun x hx hh => launchAcceptance_bad hx hh, fun code va hh hq => ?_, fun code va hh hq => ?_, fun p hp ht => ?_,
    fun p hp ht hh => launchAcceptance_starts hp ht hh, fun p r hr hs => ⟨fun cause hc => ?_, fun hc => ?_⟩,
    fun p code va hr => ?_, fun c hr hf => deviceQueueTake_takes hr hf, fun c d hd => ⟨fun r hr hn hc => ?_, fun hr => ?_⟩,
    fun pkg src ok pk hdown => ?_,
    fun i pk hl => ⟨length_publishedAt i hl, ready_publishedAt i hl, fun j hj => getElem?_publishedAt i hl hj⟩⟩
  · obtain ⟨hrecheck, haccept⟩ := headFails hh
    rw [State.reportHead_first hq] at hrecheck haccept
    exact ⟨_, _, hrecheck, State.report_out _ _, Report.pack_code _, congrArg Queue.reported (SMap.get_insert_self _ _ _), haccept⟩
  · rw [(headFails hh).1, State.reportHead, hq]
    rfl
  · have hp' := posted_decrement s ctx q.func.toNat p.bsig 0
    exact ⟨_, rfl, barrierPacketStart_starts hp ht, State.advance_read _ _ _, (State.advance_grids _ _ _).trans hp'.grids,
      (State.advance_seq _ _ _).trans hp'.seq⟩
  · exact ⟨_, rfl, rfl, rfl, rfl, rfl, State.acceptUser_refused hr hs hc⟩
  · have ht := State.acceptUser_alone hr hs hc
    refine ⟨(q.launching n r).grid (s.homeOf ctx s.seq), ?_, ?_, rfl, rfl, rfl, rfl, rfl, rfl, rfl, rfl, fun hco => ?_, fun hco => ?_⟩
    · rw [ht]
      split
      · rfl
      · exact State.advance_seq _ _ _
    · rw [ht]
      split
      · rfl
      · exact State.advance_grids _ _ _
    · rw [ht, hco]
      exact State.advance_read _ _ _
    · rw [ht, hco]
      rfl
  · rw [State.acceptUser_unread hr]
    exact ⟨_, State.advance_out _ _ _, Report.pack_code _,
      (congrArg BitVec.toNat (Report.pack_detail _)).trans (BitVec.toNat_ofNat _ _), State.advance_seq _ _ _,
      State.advance_grids _ _ _, State.advance_read _ _ _⟩
  · rw [State.takeDev_alone hd hr hn hc]
    exact ⟨_, rfl, rfl, rfl, rfl, rfl, congrArg Context.devTake (SMap.get_modify_of_find? _ (State.ctx_listed hd)), rfl⟩
  · rw [State.takeDev_unread hd hr]
    refine ⟨State.childDone_seq _ _, State.childDone_grids _ _, ?_⟩
    rw [State.ctx, State.childDone_ctxs]
    exact congrArg Context.devTake (SMap.get_insert_self _ _ _)
  · have hi := fabricLaunchPacket_of hdown pkg src n ok pk
    refine ⟨fun hr => hi.trans (if_pos hr), fun hentry => ?_⟩
    rw [if_neg (by simp [hentry])] at hi
    refine ⟨fun hr => hi.trans (if_pos hr), fun hok hruns => ?_⟩
    rw [if_neg (by simpa [hok] using hruns)] at hi
    refine ⟨fun hr => hi.trans (if_pos hr), fun hactive hvalid => ?_⟩
    rw [if_neg (not_or.2 ⟨not_not.2 hactive, fun h => absurd (hvalid.symm.trans h) (by decide)⟩)] at hi
    refine ⟨fun hr => hi.trans (if_pos hr), fun hroom => ?_⟩
    exact ⟨_, hi.trans (if_neg hroom), congrArg (· ++ [_]) (s.published_out n pk), rfl, s.published_tail n pk, s.published_read n pk,
      s.published_grids n pk⟩

end Sys2Proof.Machine
end

section
/-! SUPPORT. Instructions of the scalar stream that order, wait, read a special or end a crew (05 R109, R111; 07 R148, R152, R153, R162,
R168, R169), where they have nothing to wait for. -/

namespace Sys2Proof.Machine

/-! Fences and waits. -/

/-- No open access meets a condition where each has been performed or does not meet it. -/
theorem Crew.open_nil {c : Crew} {p : Access → Bool} (h : ∀ x ∈ c.flying, x.done = true ∨ p x = false) : c.open_ p = [] := by
  rw [Crew.open_, List.map_eq_nil_iff, List.filter_eq_nil_iff]
  intro x hx
  rcases h x hx with h | h <;> simp [h]

theorem execFence_of {s : State} {w : Workgroup} {c : Crew} (h : Issuing s w c) (k : FenceKind) (sc : Scope) (hd : c.drained = true)
    (hw : ∀ x ∈ c.flying, x.done = true ∨ fenceWaits k x = false) : Becomes (.fence k sc) s w (c.fencedOrder.advance 4) := by
  show execFence k sc s = _
  rw [execFence, acting_of h, hd, Crew.open_nil hw]
  rfl

/-- An instruction that waits for a condition on its crew passes on where its sources are full and the condition holds. -/
theorem waitFor_of {s : State} {w : Workgroup} {c : Crew} (h : Issuing s w c) {srcs : List Reg} {ready : Crew → Bool}
    (hs : c.allFull srcs = true) (hr : ready c = true) : waitFor s srcs ready = .next (s.put s.cur.key w (c.advance 4)) := by
  rw [waitFor, acting_of h, hs, hr]
  rfl

theorem Crew.ntDone_of {c : Crew} (h : ∀ x ∈ c.flying, x.done = false → x.cls ≠ .nt) : c.ntDone = true := by
  refine List.all_eq_true.2 fun x hx => ?_
  cases hd : x.done
  · simp [h x hx hd]
  · rfl

/-- WAITC of a crew without runs passes on once its counter has fallen, or at once for 63 and above. -/
theorem execWaitc_of {s : State} {w : Workgroup} {c : Crew} (h : Issuing s w c) {p : Path} {a : Reg} (hf : c.full a = true)
    (hq : c.queue = []) (hn : 63 ≤ (c.s a).toNat ∨ c.counter p ≤ (c.s a).toNat) : Becomes (.waitc p a) s w (c.advance 4) := by
  show execWaitc p a s = _
  refine waitFor_of h ((allFull_eq c [a]).2 (by simpa using hf)) ?_
  rw [Crew.runsIssued, hq]
  simpa using hn

/-! Ends. -/

/-- In a grid that is not fused no code follows an EXIT. -/
theorem Grid.afterExit_plain {g : Grid} (hf : g.fused = none) (c : Crew) : g.afterExit c = none := by
  rw [Grid.afterExit, hf]

theorem execExit_of {s : State} {w : Workgroup} {c : Crew} (h : Issuing s w c) (hd : c.drained = true)
    (hf : (s.gridOf w).fused = none) : Becomes .exit s w { c.cancel with status := .retired } := by
  show execExit s = _
  rw [execExit, acting_of h, hd, Grid.afterExit_plain hf]
  rfl

/-- CWAIT goes on waiting while a child launched before it is outstanding, and passes on once none is. -/
theorem execCwait_of {s : State} {w : Workgroup} {c : Crew} (h : Issuing s w c) :
    exec .cwait s = if ∃ n ∈ w.children, n < c.waitKids.getD w.launched
      then .next (s.put s.cur.key w { c with waitKids := some (c.waitKids.getD w.launched) })
      else .next (s.put s.cur.key w ({ c with waitKids := none }.advance 4)) := by
  show execCwait s = _
  rw [execCwait, acting_of h]
  simp only [List.any_eq_true, decide_eq_true_eq]

theorem execBkpt_of {s : State} {w : Workgroup} {c : Crew} (h : Issuing s w c) : exec .bkpt s = if (s.ctx w.ctx).debug
    then .next ((s.report (s.reportOf w c c.side .breakpoint 0 .scalar false c.pc)).put s.cur.key w { c.advance 4 with status := .halted })
    else .next (s.put s.cur.key w (c.advance 4)) := by
  show execBkpt s = _
  rw [execBkpt, acting_of h]

/-! Fields of a report (R333). -/

theorem Report.pack_inflight (r : Report) : flag r.pack 10 = r.inflight := by
  unfold Report.pack
  simp (disch := decide) only [Laws.flag_append_high, Laws.flag_append_low, Nat.reduceSub, Laws.flag_bit]

theorem Report.pack_ctx (r : Report) : nfld r.pack 16 8 = r.ctx % 256 := by
  rw [Laws.nfld_eq_toNat_fld]
  unfold Report.pack
  simp (disch := decide) only [Laws.fld_append_high, Laws.fld_append_low, Nat.reduceSub, Laws.fld_whole]
  exact BitVec.toNat_ofNat _ _

theorem Report.pack_pc (r : Report) : fld r.pack 64 52 = r.pc := by
  unfold Report.pack
  simp (disch := decide) only [Laws.fld_append_high, Laws.fld_append_low, Nat.reduceSub, Laws.fld_whole]

/-! Specials. -/

/-- GETS of a special of 32 bits writes it to its register. -/
theorem execGets_special {s : State} {w : Workgroup} {c : Crew} (h : Issuing s w c) (d : Reg) {sp : Special} (h1 : sp ≠ .cycles)
    (h2 : sp ≠ .jcur) : Becomes (.gets d sp) s w ((c.setS d (BitVec.ofNat 32 (s.special w c c.side sp))).advance 4) := by
  show execGets d sp s = _
  rw [execGets, acting_of h]
  cases sp
  case cycles => exact absurd rfl h1
  case jcur => exact absurd rfl h2
  all_goals rfl

theorem execGets_jcur {s : State} {w : Workgroup} {c : Crew} (h : Issuing s w c) (d : Reg) :
    Becomes (.gets d .jcur) s w ((c.setS2 d (w.jcur.get c.role.toNat)).advance 4) := by
  show execGets d .jcur s = _
  rw [execGets, acting_of h]

theorem execGets_cycles {s : State} {w : Workgroup} {c : Crew} (h : Issuing s w c) (d : Reg) :
    exec (.gets d .cycles) s = .next ((s.setClock w (s.clock w)).put s.cur.key w ((c.setS2 d (s.clock w)).advance 4)) := by
  show execGets d .cycles s = _
  rw [execGets, acting_of h]

/-- Settles O15, each instruction by its rule above. -/
theorem scalarSystemInstructionsComplete : Obligations.ScalarSystemInstructionsComplete := by
  intro s w c h d a sp p sc
  refine ⟨?nop, fun hd => ?_, fun hd => ?_, fun hd => ?lsync, ⟨fun hd => ?_, fun hd hw => ?_, fun hd hw => ?_⟩, fun hd hn => ?drain,
    fun hf hq hn => execWaitc_of h hf hq (.inr hn), fun hf hq hn => execWaitc_of h hf hq (.inl hn), fun hd hf => ?exit, fun hc => ?_,
    fun hk hc => ?_, fun h1 h2 => ?special, execGets_jcur h d, s.clock w, rfl, execGets_cycles h d⟩
  case nop =>
    show execNop s = _
    rw [execNop, acting_of h]
  · rw [Becomes, execBkpt_of h, hd]
    rfl
  · refine ⟨(s.reportOf w c c.side .breakpoint 0 .scalar false c.pc).pack, ?_, Report.pack_code _, Report.pack_inflight _,
      Report.pack_pc _, Report.pack_ctx _⟩
    rw [execBkpt_of h, hd]
    rfl
  case lsync =>
    show execLsync s = _
    rw [execLsync, acting_of h, hd]
    rfl
  · exact execFence_of h .rel sc hd fun _ _ => .inr rfl
  · exact execFence_of h .ar sc hd hw
  · exact execFence_of h .acq sc hd hw
  case drain =>
    show execDrain sc s = _
    exact waitFor_of h rfl (by rw [hd, Crew.ntDone_of hn]; rfl)
  case exit => exact ⟨_, execExit_of h hd hf, rfl, rfl, rfl, rfl, rfl, rfl, rfl⟩
  · rw [Becomes, execCwait_of h, if_neg (by simp [hc])]
  · rw [Becomes, execCwait_of h, hk]
    exact if_pos hc
  case special => exact ⟨_, scalarWritten_setS c d _, execGets_special h d h1 h2⟩

end Sys2Proof.Machine
end

section
/-! SUPPORT. Index registers (02 R44, R45; 08 R184): what XSET and XADD check in every lane before they write any, and what they write. -/

namespace Sys2Proof.Machine

/-! Index registers. -/

theorem Crew.x_setX (c : Crew) (n l : Nat) (v : Word) (m k : Nat) (hl : l < 64) (hk : k < 64) :
    (c.setX n l v).x m k = if m = n ∧ k = l then v else c.x m k := by
  simp only [Crew.setX, Crew.x, SMap.get_put, laneKey_inj hk hl]

/-- `c'` is `c` with `val l` in index register n of every lane l of a list; nothing else changes. -/
def IndexWritten (c c' : Crew) (ls : List Nat) (n : Nat) (val : Nat → Word) : Prop :=
  { c' with xreg := c.xreg } = c ∧ ∀ m l, l < 64 → c'.x m l = if m = n ∧ l ∈ ls then val l else c.x m l

theorem indexWritten_foldl (n : Nat) (val : Nat → Word) (ls : List Nat) (hls : ∀ l ∈ ls, l < 64) (c : Crew) :
    IndexWritten c (ls.foldl (fun (x : Crew) l => x.setX n l (val l)) c) ls n val := by
  induction ls generalizing c with
  | nil => exact ⟨rfl, fun m l _ => by simp⟩
  | cons a ls ih =>
    obtain ⟨hrest, hx⟩ := ih (fun l h => hls l (List.mem_cons_of_mem _ h)) (c.setX n a (val a))
    refine ⟨congrArg (fun x : Crew => { x with xreg := c.xreg }) hrest, fun m l hl => ?_⟩
    rw [List.foldl_cons, hx m l hl, Crew.x_setX _ _ _ _ _ _ (hls a List.mem_cons_self) hl]
    simp only [List.mem_cons]
    by_cases ha : l = a
    · subst ha
      by_cases hm : m = n <;> simp [hm]
    · simp only [ha, false_or, and_false, if_false]

theorem indexWritten_writeX (c : Crew) (e : Mask) (n : Nat) (val : Nat → Word) :
    IndexWritten c (c.writeX e n val) (lanesOf e) n val :=
  indexWritten_foldl n val (lanesOf e) (fun _ h => BitVec.lt_of_getLsbD (mem_lanesOf.1 h)) c

/-! XSET and XADD. -/

section
variable {s : State} {i : Instr} {f : LaneFields} {w : Workgroup} {c : Crew} (h : LaneReady s (.plain i) f w c) {imm : Bool}
  {bad : Workgroup → Crew → Nat → Word → Bool} {word : Workgroup → Crew → Nat → Word → Word} {src : Nat → Word}
  (hsrc : ∀ l, (if imm then Operand.imm f.p2 else operandAt i f 1).value c l = src l)
include h hsrc

/-- Where a lane of the executing set fails the check nothing is written. -/
theorem setIndex_traps (hb : ∃ l, flag (c.executing f) l = true ∧ bad w c l (src l) = true) :
    setIndex s i f imm bad word = trap s .range 0 := by
  obtain ⟨l, hl, hb⟩ := hb
  rw [setIndex, laneIssue_of h]
  refine if_pos (List.any_eq_true.2 ⟨l, mem_lanesOf.2 hl, ?_⟩)
  rw [hsrc, hb]

/-- Where every lane passes the check each takes its word. -/
theorem setIndex_writes {val : Nat → Word} (hb : ∀ l, flag (c.executing f) l = true → bad w c l (src l) = false)
    (hv : ∀ l, flag (c.executing f) l = true → word w c l (src l) = val l) : ∃ c',
      ({ c' with xreg := c.xreg } = c
        ∧ (∀ l, l < 64 → c'.x f.dest.toNat l = if flag (c.executing f) l then val l else c.x f.dest.toNat l)
        ∧ ∀ m l, l < 64 → m ≠ f.dest.toNat → c'.x m l = c.x m l)
      ∧ setIndex s i f imm bad word = .next (Passed s w c' f) := by
  obtain ⟨hrest, hx⟩ := indexWritten_writeX c (c.executing f) f.dest.toNat (fun l => word w c l (src l))
  refine ⟨_, ⟨hrest, fun l hl => ?_, fun m l hl hm => ?_⟩, ?_⟩
  · rw [hx _ _ hl]
    by_cases he : flag (c.executing f) l = true
    · rw [if_pos ⟨rfl, mem_lanesOf.2 he⟩, if_pos he]
      exact hv l he
    · rw [if_neg fun hm => he (mem_lanesOf.1 hm.2), if_neg he]
  · rw [hx _ _ hl, if_neg fun hm' => hm hm'.1]
  · rw [setIndex, laneIssue_of h, trapsThen_none, passOn_eq]
    · simp only [hsrc]
    · simp only [List.mem_singleton, forall_eq, List.any_eq_false]
      intro l hl
      rw [hsrc, hb l (mem_lanesOf.1 hl)]
      exact Bool.false_ne_true

end

/-! Words (R44). -/

theorem xBase_eq (x : Word) : xBase x = x.toNat % 256 := by
  rw [xBase, nfld, BitVec.extractLsb'_toNat, Nat.shiftRight_zero]

theorem xLen_eq (x : Word) : xLen x = x.toNat / 256 % 512 := by
  rw [xLen, nfld, BitVec.extractLsb'_toNat, Nat.shiftRight_eq_div_pow]

theorem xIdx_eq (x : Word) : xIdx x = x.toNat / 2 ^ 17 % 512 := by
  rw [xIdx, nfld, BitVec.extractLsb'_toNat, Nat.shiftRight_eq_div_pow]

/-- BASE and LEN are bits 16:0. -/
theorem xBase_add_xLen (x : Word) : xBase x + xLen x * 2 ^ 8 = x.toNat % 2 ^ 17 := by
  rw [xBase_eq, xLen_eq]
  omega

/-- The fields of a word put together are its bits 25:0. -/
theorem xWord_fields (x : Word) : xWord (xBase x) (xLen x) (xIdx x) = BitVec.ofNat 32 (x.toNat % 2 ^ 26) := by
  rw [xWord, xBase_add_xLen, xIdx_eq]
  congr 1
  omega

/-- In a grid that is not fused no window is moved. -/
theorem State.xBias_plain {s : State} {w : Workgroup} (hf : (s.gridOf w).fused = none) (c : Crew) : s.xBias w c = 0 := by
  rw [State.xBias, hf]

/-- What XSET asks of a word in a grid that is not fused (R184). -/
def State.windowFits (s : State) (w : Workgroup) (c : Crew) (x : Word) : Prop :=
  x.toNat < 2 ^ 26 ∧ x.toNat / 256 % 512 ≤ 256 ∧ x.toNat % 256 + x.toNat / 256 % 512 ≤ s.regsOf w c

section
variable {s : State} {w : Workgroup} {c : Crew} (hf : (s.gridOf w).fused = none)
include hf

theorem State.badWindow_eq_false_iff (l : Nat) (x : Word) : s.badWindow w c l x = false ↔ s.windowFits w c x := by
  have hx := x.isLt
  rw [State.badWindow, State.xBias_plain hf, nfld, BitVec.extractLsb'_toNat, Nat.shiftRight_eq_div_pow, xLen_eq, xBase_eq,
    State.windowFits]
  simp only [Bool.or_eq_false_iff, bne_eq_false_iff_eq, decide_eq_false_iff_not]
  omega

theorem State.badWindow_eq_true (l : Nat) {x : Word} (h : ¬ s.windowFits w c x) : s.badWindow w c l x = true := by
  rwa [← Bool.not_eq_false, State.badWindow_eq_false_iff hf]

/-- A word whose reserved bits are zero is set as it is. -/
theorem State.newWindow_eq (l : Nat) {x : Word} (h : s.windowFits w c x) : s.newWindow w c l x = x := by
  have hb : xBase x % 256 = xBase x := by rw [xBase_eq, Nat.mod_mod]
  rw [State.newWindow, State.xBias_plain hf, Nat.add_zero, hb, xWord_fields, Nat.mod_eq_of_lt h.1]
  exact BitVec.ofNat_toNat 32 x

end

theorem badIndex_eq_true {n : Nat} {w : Workgroup} {c : Crew} {l : Nat} {x : Word}
    (h : movedIndex c n l x < 0 ∨ 511 < movedIndex c n l x) : badIndex n w c l x = true := decide_eq_true h

theorem badIndex_eq_false {n : Nat} {w : Workgroup} {c : Crew} {l : Nat} {x : Word}
    (h : 0 ≤ movedIndex c n l x ∧ movedIndex c n l x ≤ 511) : badIndex n w c l x = false := decide_eq_false (by omega)

theorem newIndex_eq (n : Nat) (w : Workgroup) (c : Crew) (l : Nat) (x : Word) :
    newIndex n w c l x = BitVec.ofNat 32 ((c.x n l).toNat % 2 ^ 17 + (movedIndex c n l x).toNat * 2 ^ 17) := by
  rw [newIndex, xWord, xBase_add_xLen]

/-- Ready, an ordinary lane operation writes its value to each lane of its executing set, and does nothing else. -/
theorem laneMapL_of {s : State} {i : Instr} {f : LaneFields} {w : Workgroup} {c : Crew} (h : LaneReady s (.plain i) f w c)
    {g : Workgroup → Crew → Nat → Word → Word → Word → Word} {val : Nat → Word}
    (hv : ∀ l, g w c l (source i f c 1 l) ((sourceB i f).value c l) (source i f c 3 l) = val l) : ∃ c',
      LanesWritten c c' (c.executing f) (destination i f c) val ∧ laneMapL s i f g = .next (Passed s w c' f) := by
  refine ⟨c.writeLanes (c.executing f) (destination i f c) val, lanesWritten_writeLanes _ _ _ _, ?_⟩
  rw [laneMapL, laneIssue_of h]
  dsimp only
  rw [passOn_eq, ← funext hv]
  rfl

/-- Settles O41: the four that set are one operation with its check and its word, and XGET puts the fields of a word together. -/
theorem indexRegistersMoveWithinTheirWindows : Obligations.IndexRegistersMoveWithinTheirWindows := by
  intro s f w c hf e n written good moved
  have hmoved : ∀ l x, moved l x = movedIndex c n l x := fun l x => by
    rw [movedIndex, xIdx_eq]
    rfl
  simp only [hmoved]
  have hx : exec (.xset f) s = execXset f s := rfl
  have hxi : exec (.xsetI f) s = execXsetI f s := rfl
  have ha : exec (.xadd f) s = execXadd f s := rfl
  have hai : exec (.xaddI f) s = execXaddI f s := rfl
  have hg : exec (.xget f) s = execXget f s := rfl
  unfold Traps
  rw [hx, hxi, ha, hai, hg, execXset, execXsetI, execXadd, execXaddI, execXget]
  have fits := State.badWindow_eq_false_iff (c := c) hf
  have some_lane {i : Instr} (h : LaneReady s (.plain i) f w c) : ∃ l, flag e l = true := by
    by_contra! hn
    exact h.active (BitVec.eq_of_getLsbD_eq fun l _ => by simpa [flag] using hn l)
  refine ⟨fun h hg => ?_, fun h ⟨l, hl, hg⟩ => ?_, fun h hg => ?_, fun h hg => ?_, fun h hb => ?_, fun h hb => ?_, fun h hg => ?_,
    fun h hg => ?_, fun h => ?_⟩
  · exact setIndex_writes h (fun _ => rfl) (fun l hl => (fits l _).2 (hg l hl)) fun l hl => State.newWindow_eq hf l (hg l hl)
  · exact setIndex_traps h (fun _ => rfl) ⟨l, hl, State.badWindow_eq_true hf l hg⟩
  · exact setIndex_writes h (fun _ => rfl) (fun l _ => (fits l _).2 hg) fun l _ => State.newWindow_eq hf l hg
  · obtain ⟨l, hl⟩ := some_lane h
    exact setIndex_traps h (fun _ => rfl) ⟨l, hl, State.badWindow_eq_true hf l hg⟩
  · exact setIndex_traps h (fun _ => rfl) (hb.imp fun l hl => ⟨hl.1, badIndex_eq_true hl.2⟩)
  · exact setIndex_traps h (fun _ => rfl) (hb.imp fun l hl => ⟨hl.1, badIndex_eq_true hl.2⟩)
  · exact setIndex_writes h (fun _ => rfl) (fun l hl => badIndex_eq_false (hg l hl)) fun l _ => newIndex_eq n w c l _
  · exact setIndex_writes h (fun _ => rfl) (fun l hl => badIndex_eq_false (hg l hl)) fun l _ => newIndex_eq n w c l _
  · refine laneMapL_of h fun l => ?_
    dsimp only
    rw [← xWord_fields, State.xBias_plain hf, Nat.sub_zero, Nat.add_mod_right, xBase_eq, Nat.mod_mod]

end Sys2Proof.Machine
end

section
/-! SUPPORT. Lane specials, ROUTE and SCAN (08 R185, R186, R189). -/

namespace Sys2Proof.Machine

/-! Promised results (R46). -/

/-- Keys marked with one tag hold it, and every other key what it held. -/
theorem find?_foldl_mark (tag : Nat) (ls : List (Nat × Word)) (m : SMap Nat) (k : Nat) :
    (ls.foldl (fun (m : SMap Nat) l => m.insert l.1 tag) m).find? k = if k ∈ ls.map (·.1) then some tag else m.find? k := by
  induction ls generalizing m with
  | nil => rfl
  | cons x ls ih =>
    rw [List.foldl_cons, ih, SMap.find?_insert]
    by_cases h1 : k ∈ ls.map (·.1)
    · simp [h1]
    · simp only [h1, if_false, List.map_cons, List.mem_cons, or_false]

/-- A lane of a register that is promised a value is empty, every other one as it was. -/
theorem Crew.vFull_promise (c : Crew) (ls : List (Nat × Word)) (r l : Nat) :
    (c.promise [] ls).vFull r l = (c.vFull r l && !decide (laneKey r l ∈ ls.map (·.1))) := by
  show Option.isNone (SMap.find? (ls.foldl _ c.vTag) _) = _
  rw [find?_foldl_mark]
  by_cases h : laneKey r l ∈ ls.map (·.1) <;> simp [h, Crew.vFull]

/-- The writes of a count to a pair of registers in every lane of a mask. -/
def clockWrites (e : Mask) (d : Nat) (v : DWord) : List (Nat × Word) :=
  (lanesOf e).flatMap (fun l => [(laneKey d l, fld v 0 32), (laneKey (d + 1) l, fld v 32 32)])

theorem mem_clockWrites {e : Mask} {d : Nat} {v : DWord} {r l : Nat} (hl : l < 64) :
    laneKey r l ∈ (clockWrites e d v).map (·.1) ↔ flag e l = true ∧ (r = d ∨ r = d + 1) := by
  simp only [clockWrites, List.map_flatMap, List.map_cons, List.map_nil, List.mem_flatMap, List.mem_cons, List.not_mem_nil, or_false,
    mem_lanesOf]
  constructor
  · rintro ⟨m, hm, h⟩
    have hm64 : m < 64 := BitVec.lt_of_getLsbD hm
    rw [laneKey_inj hl hm64, laneKey_inj hl hm64] at h
    rcases h with ⟨hr, rfl⟩ | ⟨hr, rfl⟩
    · exact ⟨hm, .inl hr⟩
    · exact ⟨hm, .inr hr⟩
  · rintro ⟨hm, rfl | rfl⟩
    · exact ⟨l, hm, .inl rfl⟩
    · exact ⟨l, hm, .inr rfl⟩

/-! The instructions. -/

theorem execGetl_plain {f : LaneFields} (hc : f.special ≠ .cycles) (s : State) : exec (.getl f) s = laneMapL s (.getl f) f
    (fun w c l _ _ _ => match f.special with
      | .tid => BitVec.ofNat 32 (w.tid c l)
      | .lane => BitVec.ofNat 32 l
      | sp => BitVec.ofNat 32 (s.special w c (c.sideOf .lane) sp)) := by
  show execGetl f s = _
  unfold execGetl
  split
  · next h => exact absurd h hc
  · rfl

theorem execGetl_cycles {s : State} {f : LaneFields} {w : Workgroup} {c : Crew} (hc : f.special = .cycles)
    (h : LaneReady s { LaneSpec.plain (.getl f) with groups := (2, 1, 1, 1) } f w c) : exec (.getl f) s
      = .next (Passed (s.setClock w (s.clock w)) w (c.promise [] (clockWrites (c.executing f) f.dest.toNat (s.clock w))) f) := by
  show execGetl f s = _
  rw [execGetl, hc]
  exact (laneIssue_of h _).trans (passOn_eq _ _ _ _)

/-- The lanes of a mask up to a bound are those of the crew's lanes that are in it and up to the bound. -/
theorem filter_lanesOf (e : Mask) (p : Nat → Bool) : (lanesOf e).filter p = (List.range 64).filter (fun j => flag e j && p j) := by
  rw [lanesOf, List.filter_filter]
  exact List.filter_congr fun j _ => Bool.and_comm _ _

/-- Settles O42: GETL and ROUTE write one value to each lane, SCAN the combination of the lanes below it. -/
theorem laneSpecialsRouteAndScan : Obligations.LaneSpecialsRouteAndScan := by
  refine ⟨fun s f w c hc h => ?_, fun s f w c hc h => ?_, fun s f w c h => ?_, fun s f w c h => ?_, fun s f w c h => ?_⟩
  · rw [execGetl_plain hc]
    exact laneMapL_of h fun l => by cases f.special <;> rfl
  · refine ⟨c.promise [] (clockWrites (c.executing f) f.dest.toNat (s.clock w)), execGetl_cycles hc h, rfl, rfl, fun r l hl => ?_⟩
    rw [Crew.vFull_promise]
    congr 2
    rw [Bool.eq_iff_iff]
    simp [mem_clockWrites hl]
  · show ∃ c', _ ∧ route s (.route f) f = _
    rw [route]
    exact laneMapL_of h fun l => rfl
  · show ∃ c', _ ∧ route s (.routeI f) f = _
    rw [route]
    exact laneMapL_of h fun l => rfl
  · refine ⟨_, lanesWritten_writeLanes _ _ _ _, ?_⟩
    show execScan f s = _
    rw [execScan, laneIssue_of h]
    dsimp only
    rw [passOn_eq]
    simp only [filter_lanesOf]
    rfl

end Sys2Proof.Machine
end

section
/-! SUPPORT. Barrier objects (02 R51 to R53; 07 R155, R156): their transitions, and the instructions that name them. -/

namespace Sys2Proof.Machine

/-! Objects. -/

/-- An object of one arrival or more is initialised in a phase that is open. -/
theorem Barrier.init_eq {n : Nat} (h1 : 1 ≤ n) (h2 : n ≤ 4095) :
    Barrier.init n = ⟨0, 0, true, false, false, BitVec.ofNat 12 n, 0⟩ := by
  have hn : ¬ BitVec.ofNat 12 n ≤ 0 := by
    rw [BitVec.le_def, BitVec.toNat_ofNat]
    simp only [BitVec.ofNat_eq_ofNat, BitVec.toNat_ofNat]
    omega
  simp only [Barrier.init, Barrier.settle, hn, decide_false, Bool.and_false, Bool.false_and, Bool.false_eq_true, if_false]

/-- An arrival completes the phase if it is the last one expected and no bytes are missing. -/
theorem Barrier.arrive_eq {x : Barrier} (hv : x.valid = true) (ho : x.ovf = false) :
    x.arrive = if x.expArr ≤ x.arr + 1 ∧ x.expBytes ≤ x.recv
      then { x with recv := x.recv - x.expBytes, expBytes := 0, arr := 0, phase := !x.phase }
      else { x with arr := x.arr + 1 } := by
  simp only [Barrier.arrive, Barrier.settle, hv, ho, Bool.true_and, Bool.not_false, Bool.and_true, Bool.and_eq_true, decide_eq_true_eq]

theorem Barrier.bad_eq_false {x : Barrier} (hv : x.valid = true) (ho : x.ovf = false) : x.bad = false := by
  rw [Barrier.bad, hv, ho]
  rfl

theorem Barrier.bad_eq_true {x : Barrier} (h : x.valid = false ∨ x.ovf = true) : x.bad = true := by
  rcases h with h | h <;> simp [Barrier.bad, h]

theorem boolWord_bne (p q : Bool) : boolWord (p != q) = if p = !q then 1 else 0 := by cases p <;> cases q <;> rfl

/-! What a waiting crew observes. -/

/-- A waiting BWAIT that has observed nothing yet observes an overflow first, or else the completion it waits for. -/
theorem BarWait.observe_first {y : BarWait} (hp : y.passed = false) (hf : y.failed = false) (z : Barrier) :
    (y.observe z).failed = z.ovf ∧ (y.observe z).passed = (z.phase != y.par && !z.ovf) := by
  simp [BarWait.observe, hp, hf]

theorem Crew.observe_waitBar {c : Crew} {y : BarWait} (hy : c.waitBar = some y) (z : Barrier) :
    (c.observe y.bar.toNat z).waitBar = some (y.observe z) := by
  simp [Crew.observe, hy]

/-- A live crew that has observed an overflow traps. -/
theorem State.raiseWait_failed {s : State} {k : CrewKey} {v : Workgroup} {e : Crew} {y : BarWait} (hk : s.find k = some (v, e))
    (hy : e.waitBar = some y) (hf : y.failed = true) (hl : e.status = .live) :
    s.raiseWait k = (s.put k v { e with waitBar := none }).raise k e.side .range 0 .scalar false e.pc := by
  simp only [State.raiseWait, hk, hy, hf, hl, decide_true, Bool.and_self, if_true]

/-! The instructions. -/

section
variable {s : State} {w : Workgroup} {c : Crew} (h : Issuing s w c) {o : BitVec 4} {a b d : Reg} {par : Bool}
include h

theorem execBinit_of (hf : c.full a = true) : exec (.binit o a) s = if (c.s a).toNat = 0 ∨ 4095 < (c.s a).toNat then trap s .range 0
    else .next (s.put s.cur.key (w.putBar o.toNat (Barrier.init (c.s a).toNat)) (c.advance 4)) := by
  have ha : c.allFull [a] = true := (allFull_eq c [a]).2 (by simpa using hf)
  show execBinit o a s = _
  rw [execBinit, acting_of h]
  simp only [ha, Bool.not_true, Bool.false_eq_true, if_false, trapsThen, decide_eq_true_eq]

theorem execBarr_of (hd : c.drained = true) (hc : c.fenced = true) (hx : (w.bar o.toNat).bad = false) :
    exec (.barr o) s = .next (s.put s.cur.key (w.putBar o.toNat (w.bar o.toNat).arrive) (c.advance 4)) := by
  show execBarr o s = _
  rw [execBarr, acting_of h]
  simp only [hd, hc, hx, Bool.and_self, Bool.not_true, Bool.false_eq_true, if_false, trapsThen]

theorem execBexp_of (ha : c.full a = true) (hb : c.full b = true) (hn : (c.s a).toNat ≤ 4095) (hx : (w.bar o.toNat).bad = false) :
    exec (.bexp o a b) s = .next ((s.put s.cur.key (w.putBar o.toNat ((w.bar o.toNat).expect (c.s a).toNat (c.s b).toNat))
      (c.advance 4)).raiseWaits s.cur.key.wid) := by
  have hab : c.allFull [a, b] = true := (allFull_eq c [a, b]).2 (by simp [ha, hb])
  show execBexp o a b s = _
  rw [execBexp, acting_of h]
  simp only [hab, hx, Nat.not_lt.2 hn, decide_false, Bool.or_self, Bool.not_true, Bool.false_eq_true, if_false, trapsThen]

/-- BWAIT that has not begun to wait looks at its object. -/
theorem execBwait_first (hc : c.waitBar = none) : exec (.bwait o par) s =
    if (w.bar o.toNat).bad then trap s .range 0
    else if (w.bar o.toNat).phase != par then .next (s.put s.cur.key w (c.advance 4))
    else .next (s.put s.cur.key w { c with waitBar := some ⟨o, par, false, false⟩ }) := by
  show execBwait o par s = _
  rw [execBwait, acting_of h]
  simp only [hc]
  rfl

/-- BWAIT that waits goes by what it has observed. -/
theorem execBwait_waiting {y : BarWait} (hc : c.waitBar = some y) : exec (.bwait o par) s =
    if y.failed then trap (s.put s.cur.key w { c with waitBar := none }) .range 0
    else if y.passed then .next (s.put s.cur.key w ({ c with waitBar := none }.advance 4))
    else .next s := by
  show execBwait o par s = _
  rw [execBwait, acting_of h]
  simp only [hc]

theorem execBtry_of : exec (.btry d o par) s = if (w.bar o.toNat).bad then trap s .range 0
    else .next (s.put s.cur.key w ((c.setS d (boolWord ((w.bar o.toNat).phase != par))).advance 4)) := by
  show execBtry d o par s = _
  rw [execBtry, acting_of h]
  rfl

end

/-- Settles O24, each instruction by its rule above. -/
theorem barrierObjectsCountAndFlip : Obligations.BarrierObjectsCountAndFlip := by
  intro s w c h o a b d par x
  refine ⟨fun hf h1 h2 => ?_, fun hf hn => ?_, fun hd hc hv ho => ?_, fun ha hb hn hv ho => ?_, fun k v e y => State.raiseWait_failed,
    fun hc hv ho hp => ?_, fun hc hv ho hp => ?_, fun y hc hp hf => ?_, fun y hc hp hf => ?_, fun y hc hf => ?_,
    fun y z hc hb hp hf => ?_, fun hv ho => ?_, fun hx => ⟨fun hc => ?_, ?_⟩⟩
  · rw [execBinit_of h hf, if_neg (by omega), Barrier.init_eq h1 h2]
  · rw [Traps, execBinit_of h hf, if_pos hn]
  · rw [execBarr_of h hd hc (Barrier.bad_eq_false hv ho), Barrier.arrive_eq hv ho]
  · exact execBexp_of h ha hb hn (Barrier.bad_eq_false hv ho)
  · rw [Becomes, execBwait_first h hc, Barrier.bad_eq_false hv ho, hp]
    cases par <;> rfl
  · rw [Becomes, execBwait_first h hc, Barrier.bad_eq_false hv ho, hp]
    cases par <;> rfl
  · rw [Becomes, execBwait_waiting h hc, hf, hp]
    rfl
  · rw [execBwait_waiting h hc, hf, hp]
    rfl
  · rw [execBwait_waiting h hc, hf]
    rfl
  · subst hb
    obtain ⟨hfail, hpass⟩ := BarWait.observe_first hp hf z
    exact ⟨y.observe z, Crew.observe_waitBar hc z, by rw [hfail], by rw [hpass]; cases z.phase <;> cases y.par <;> simp, rfl, rfl⟩
  · refine ⟨_, scalarWritten_setS c d _, ?_⟩
    rw [Becomes, execBtry_of h, Barrier.bad_eq_false hv ho, boolWord_bne]
    rfl
  · rw [Traps, execBwait_first h hc, Barrier.bad_eq_true hx]
    rfl
  · rw [Traps, execBtry_of h, Barrier.bad_eq_true hx]
    rfl

end Sys2Proof.Machine
end

section
/-! SUPPORT. The tag table (04 R88 to R90; 07 R163): a set with a line put in or taken out, and the pair that is promised (02 R46). -/

namespace Sys2Proof.Machine

/-! Sets. -/

/-- A list with one element that meets a condition finds that one. -/
theorem find?_only {α : Type} {l : List α} {p : α → Bool} {a : α} (ha : a ∈ l) (hp : ∀ x ∈ l, p x = true ↔ x = a) :
    l.find? p = some a := by
  cases hf : l.find? p with
  | none => exact absurd ((hp a ha).2 rfl) (List.find?_eq_none.1 hf a ha)
  | some x => rw [(hp x (List.mem_of_find?_eq_some hf)).1 (List.find?_some hf)]

theorem slotValid_filled (line : BitVec 44) : slotValid (1#1 ++ line) = true := by
  rw [slotValid, Laws.flag_append_high _ _ _ (le_refl 44)]
  rfl

theorem slotLine_filled (line : BitVec 44) : slotLine (1#1 ++ line) = line := by
  rw [slotLine, Laws.fld_append_low _ _ _ _ (le_refl 44), Laws.fld_whole]

theorem slotValid_dropped (x : BitVec 45) : slotValid (x &&& ~~~(BitVec.twoPow 45 44)) = false := by
  simp [slotValid, flag]

/-- The set in which a way holds a line, turned away from it. -/
def TagSet.filled (t : TagSet) (way : Nat) (line : BitVec 44) : TagSet :=
  { ways := t.ways.put way (1#1 ++ line), tree := touchTree t.tree way }

/-- The set in which a way holds no line. -/
def TagSet.dropped (t : TagSet) (way : Nat) : TagSet :=
  { t with ways := t.ways.put way (t.ways.get way &&& ~~~(BitVec.twoPow 45 44)) }

/-- A line that no way held is found in the way that it is put into. -/
theorem TagSet.find_filled {t : TagSet} {way : Nat} {line : BitVec 44} (hw : way < 8) (h : t.find line = none) :
    (t.filled way line).find line = some way := by
  refine find?_only (List.mem_range.2 hw) fun x hx => ?_
  rw [TagSet.filled, SMap.get_put]
  by_cases hx' : x = way
  · simp [hx', slotValid_filled, slotLine_filled]
  · have := List.find?_eq_none.1 h x hx
    simpa [hx'] using this

/-- Filling or dropping a way leaves every other way as it was. -/
theorem TagSet.get_put_other {t : TagSet} {slot way : Nat} (v : BitVec 45) (h : way ≠ slot) :
    (t.ways.put slot v).get way = t.ways.get way := by
  rw [SMap.get_put, if_neg h]

/-- A workgroup with one set of its tag table as given. -/
def Workgroup.putSet (w : Workgroup) (n : Nat) (t : TagSet) : Workgroup := { w with tags := w.tags.put n t }

@[simp] theorem Workgroup.putSet_get (w : Workgroup) (n : Nat) (t : TagSet) : (w.putSet n t).tags.get n = t := SMap.get_put_self _ _ _

theorem Workgroup.putSet_other {w : Workgroup} {n m : Nat} (t : TagSet) (h : m ≠ n) : (w.putSet n t).tags.get m = w.tags.get m := by
  rw [Workgroup.putSet, SMap.get_put, if_neg h]

/-! Promised pairs (R46). -/

theorem Reg.odd_ne_zero (d : Reg) : d.odd ≠ 0 := by revert d; decide

/-- A promised pair is empty, every other register as it was, and its values are on their way. -/
theorem Crew.promise_pair (c : Crew) {d : Reg} (hd : d ≠ 0) (v : DWord) :
    let c' := c.promise (pairWrites d v) []
    c'.full d = false ∧ c'.full d.odd = false ∧ (∀ r, r ≠ d → r ≠ d.odd → c'.full r = c.full r) ∧ c'.sreg = c.sreg
      ∧ c'.pending = c.pending ++ [⟨c.nextId, pairWrites d v, []⟩] := by
  intro c'
  have hfull : ∀ r, c'.full r = ((c.awaitS d c.nextId).awaitS d.odd c.nextId).full r := fun _ => rfl
  refine ⟨?_, ?_, fun r h1 h2 => ?_, ?_, rfl⟩
  · rw [hfull, Crew.full_awaitS, Crew.full_awaitS, if_pos (⟨rfl, hd⟩ : d = d ∧ d ≠ 0), ite_self]
  · rw [hfull, Crew.full_awaitS, if_pos ⟨rfl, Reg.odd_ne_zero d⟩]
  · rw [hfull, Crew.full_awaitS, Crew.full_awaitS, if_neg fun h => h2 h.1, if_neg fun h => h1 h.1]
  · exact (Crew.awaitS_sreg _ _ _).trans (Crew.awaitS_sreg _ _ _)

/-! The instructions. -/

/-- With a table, its registers full and an address below 2^52 a tag operation acts on the set of the address, or traps for its own
reason. -/
theorem tagIssue_of {s : State} {w : Workgroup} {c : Crew} (h : Issuing s w c) {srcs : List Reg} {a : Reg}
    {bad : Grid → Crew → Nat → Bool} {run : Grid → Workgroup → Crew → Nat → TagSet → Result} (hf : c.allFull srcs = true)
    (hg : (s.gridOf w).tagSets ≠ 0) (ha : (c.s2 a).toNat < 2 ^ 52) :
    let set := (lineOf (s.gridOf w) (c.s2 a)).toNat % (s.gridOf w).tagSets
    tagIssue s srcs a bad run = if bad (s.gridOf w) c set then trap s .range 0 else run (s.gridOf w) w c set (w.tags.get set) := by
  have hfar : farAddr (c.s2 a) = false := by
    rw [← Bool.not_eq_true, farAddr_iff]
    omega
  rw [tagIssue, acting_of h]
  simp only [hf, hfar, beq_eq_false_iff_ne.2 hg, Bool.false_or, Bool.not_true, Bool.false_eq_true, if_false, trapsThen]

/-- Settles O26, by what a set with a line put in or taken out holds. -/
theorem tagTableLooksFillsAndDrops : Obligations.TagTableLooksFillsAndDrops := by
  intro s w c h d a b g line set t hab hg ha answers others
  have hpair : c.allFull (pairOf a) = true := (allFull_eq _ _).2 fun r hr => (allFull_eq _ _).1 hab r (List.mem_append_left _ hr)
  have hlook : exec (.tlook d a) s = execTlook d a s := rfl
  have hfill : exec (.tfill d a b) s = execTfill d a b s := rfl
  have hdrop : exec (.tdrop a) s = execTdrop a s := rfl
  rw [execTlook, tagIssue_of h hpair hg ha] at hlook
  rw [execTfill, tagIssue_of h hab hg ha] at hfill
  rw [execTdrop, tagIssue_of h hpair hg ha] at hdrop
  simp only [Bool.false_eq_true, if_false] at hlook hdrop
  have fills (hb : (c.s b).toNat / 8 = set) := hfill.trans (if_neg (by simpa using hb))
  refine ⟨fun way hway => ⟨?_, fun hb => (fills hb).trans ?_⟩, fun hno => ?_, fun hno hb => ?_, fun v hd _ => Crew.promise_pair c hd v,
    fun hb => ?_, ?_⟩
  · rw [hlook, hway]
  · dsimp only
    rw [hway]
  · rw [hlook, hno]
  · refine ⟨w.putSet set (t.filled ((c.s b).toNat % 8) line), (fills hb).trans ?_, ?_, rfl, ?_, fun way hw => ?_,
      fun n hn => Workgroup.putSet_other _ hn⟩
    · dsimp only
      rw [hno]
      rfl
    · rw [Workgroup.putSet_get]
      exact TagSet.find_filled (Nat.mod_lt _ (by decide)) hno
    · rw [Workgroup.putSet_get]
      rfl
    · rw [Workgroup.putSet_get]
      exact TagSet.get_put_other _ hw
  · exact hfill.trans (if_pos (by simpa using hb))
  · cases hway : t.find line with
    | none => exact ⟨w, by rw [hdrop, hway], rfl, by simp, fun _ => rfl⟩
    | some way =>
      refine ⟨w.putSet set (t.dropped way), by rw [hdrop, hway]; rfl, rfl, fun way' hw => ?_, by simp⟩
      obtain rfl : way = way' := Option.some.inj hw
      rw [Workgroup.putSet_get]
      refine ⟨?_, rfl, fun way' hw => ?_, fun n hn => Workgroup.putSet_other _ hn⟩
      · rw [TagSet.dropped, SMap.get_put_self]
        exact slotValid_dropped _
      · rw [Workgroup.putSet_get]
        exact TagSet.get_put_other _ hw

end Sys2Proof.Machine
end

section
/-! SUPPORT. Events that perform parts of accesses (02 R48, R50; 04 R91, R94; 05 R103, R106, R119): one that is free to be performed is,
by the event of its kind alone. -/

namespace Sys2Proof.Machine

/-- Part p of access a of a crew, numbered n, may be performed at pa: it is not held, its earlier accesses on common bytes have been
performed, and it is translated. -/
structure Landable (s : State) (k : CrewKey) (w : Workgroup) (c : Crew) (id : Nat) (a : Access) (p : Part) (n pa : Nat) : Prop where
  crew : s.find k = some (w, c)
  access : c.access id = some a
  part : a.parts.find? (fun q => q.unit + 256 * q.half == n) = some p
  free : p.held = none
  fresh : a.replay = false
  may : a.mayPerform (c.before id) p = true
  inOrder : a.inOrder p = true
  running : s.quiesced w = false
  spot : s.spot w a p = .at pa

/-- What is left of a codebook load that only its completion performs: one part (R161). -/
def Access.lastPiece (a : Access) : Bool := match a.kind with | .cbload .. => a.parts.length == 1 | _ => false

/-- No event lands a result that no instruction has promised. -/
theorem State.landPending_none {s : State} {k : CrewKey} {w : Workgroup} {c : Crew} {id : Nat} (hk : s.find k = some (w, c))
    (h : ∀ q ∈ c.pending, q.tag ≠ id) : s.landPending k id = s := by
  have hf : c.pending.filter (fun q => q.tag == id) = [] := List.filter_eq_nil_iff.2 fun q hq => by simpa using h q hq
  simp only [State.landPending, hk, hf]

section
variable {s : State} {k : CrewKey} {w : Workgroup} {c : Crew} {id : Nat} {a : Access} {p : Part} {n pa : Nat}
  (h : Landable s k w c id a p n pa)
include h

/-- A part that may be performed is, and those that wait on an object that it tells observe it. -/
theorem Landable.landOne (hl : a.lastPiece = false) : s.landOne k id n
    = if a.kind.receives then (s.landPart k w c a p pa).raiseWaits k.wid else s.landPart k w c a p pa := by
  simp only [State.landOne, h.crew, h.access, h.part, h.free, h.fresh, h.may, h.inOrder, h.running, h.spot]
  simp only [Bool.and_false, Bool.false_and, Bool.not_true, Bool.or_self, Option.isSome_none, Bool.or_false, Bool.false_or]
  exact if_neg (ne_true_of_eq_false hl)

/-- An event of the part's kind performs it. -/
theorem Landable.landUnits {kinds : AccessKind → Bool} (hk : kinds a.kind = true) (hl : a.lastPiece = false) :
    landUnits s k id [n] kinds
      = .next (if a.kind.receives then (s.landPart k w c a p pa).raiseWaits k.wid else s.landPart k w c a p pa) := by
  simp only [Machine.landUnits, h.crew, h.access, hk, if_true, List.foldl_cons, List.foldl_nil, h.landOne hl]

/-- An event of another kind changes nothing. -/
theorem Landable.landUnits_other {kinds : AccessKind → Bool} (hk : kinds a.kind = false) (units : List Nat) :
    Machine.landUnits s k id units kinds = .next s := by
  simp only [Machine.landUnits, h.crew, h.access, hk, Bool.false_eq_true, if_false]

/-- The one part of a unit of a KVAPP is performed, that which raises LEN after every row. -/
theorem Landable.landRow {x rows : Nat} (hx : a.kind = .kvapp x rows) (hone : a.parts.filter (fun q => q.unit == p.unit) = [p])
    (hlast : p.unit = rows → ∀ q ∈ a.parts, q.unit = rows) : s.landRow k id p.unit = s.landPart k w c a p pa := by
  have hearly : (p.unit == rows && a.parts.any (fun q => q.unit != rows)) = false := by
    by_cases hu : p.unit = rows
    · simpa [hu] using hlast hu
    · simp [hu]
  have hplaced : s.placed w a p = true := by rw [State.placed, h.spot]
  simp only [State.landRow, h.crew, h.access, hx, hearly, hone, h.free, h.may, hplaced, h.spot, List.any_cons, List.any_nil, Bool.not_true,
    Option.isSome_none, Bool.or_self, Bool.false_eq_true, if_false, List.find?_cons, List.find?_nil, List.foldl_cons, List.foldl_nil]

/-- LEN of a KVAPP waits for its rows (R119). -/
theorem Landable.landRow_early {x rows : Nat} (hx : a.kind = .kvapp x rows) (hq : ∃ q ∈ a.parts, q.unit ≠ rows) :
    s.landRow k id rows = s := by
  have hany : a.parts.any (fun q => q.unit != rows) = true := by simpa using hq
  simp only [State.landRow, h.crew, h.access, hx, hany, beq_self_eq_true, Bool.and_self, Bool.true_or, if_true]

theorem Landable.storePerformed_kvapp {x rows : Nat} (hx : a.kind = .kvapp x rows) (u : Nat) :
    exec (.storePerformed k id [u]) s = .next (s.landRow k id u) := by
  show execStorePerformed k id [u] s = _
  simp only [execStorePerformed, h.crew, h.access, hx, List.foldl_cons, List.foldl_nil]

end

/-- The accesses that LOAD_LANDS performs. -/
def AccessKind.byLoad : AccessKind → Bool
  | .load _ | .atom .. | .sload .. | .ldk _ | .cbload .. => true
  | .satom d _ _ => d != 0
  | _ => false

/-- The accesses that STORE_PERFORMED performs one part at a time. -/
def AccessKind.byStore : AccessKind → Bool
  | .store | .kvtrunc _ | .kvstep .. => true
  | .satom d _ _ => d == 0
  | _ => false

theorem execLoadLands_eq (k : CrewKey) (id : Nat) (units : List Nat) (s : State) :
    exec (.loadLands k id units) s = landUnits (s.landPending k id) k id units AccessKind.byLoad := by
  show execLoadLands k id units s = _
  rw [execLoadLands]
  exact congrArg (landUnits _ k id units) (funext fun kd => by cases kd <;> rfl)

/-- STORE_PERFORMED of an access that is no KVAPP. -/
theorem execStorePerformed_eq {s : State} {k : CrewKey} {w : Workgroup} {c : Crew} {id : Nat} {a : Access} (hk : s.find k = some (w, c))
    (ha : c.access id = some a) (hb : a.kind.byStore = true) (units : List Nat) :
    exec (.storePerformed k id units) s = landUnits s k id units AccessKind.byStore := by
  show execStorePerformed k id units s = _
  simp only [execStorePerformed, hk, ha]
  cases hkind : a.kind
  case kvapp => rw [hkind] at hb; cases hb
  all_goals exact congrArg (landUnits s k id units) (funext fun kd => by cases kd <;> rfl)

/-- Settles O20: each kind's event performs the part (`Landable.landUnits`, `Landable.landRow`), another changes nothing
(`Landable.landUnits_other`). -/
theorem accessesLandByTheirEvent : Obligations.AccessesLandByTheirEvent := by
  intro s k w c id a p n pa hk ha hpart hheld hreplay hpend hmay hord hq hspot
  have h : Landable s k w c id a p n pa := ⟨hk, ha, hpart, hheld, hreplay, hmay, hord, hq, hspot⟩
  have hload : ∀ us, exec (.loadLands k id us) s = _ := fun us =>
    (execLoadLands_eq k id us s).trans (by rw [State.landPending_none hk hpend])
  have lands {kinds : AccessKind → Bool} (hkinds : kinds a.kind = true) (hl : a.lastPiece = false) (hr : a.kind.receives = false) :
      landUnits s k id [n] kinds = .next (s.landPart k w c a p pa) := (h.landUnits hkinds hl).trans (by rw [hr]; rfl)
  have tells {kinds : AccessKind → Bool} (hkinds : kinds a.kind = true) (hl : a.lastPiece = false) (hr : a.kind.receives = true) :
      landUnits s k id [n] kinds = .next ((s.landPart k w c a p pa).raiseWaits k.wid) := (h.landUnits hkinds hl).trans (by rw [hr]; rfl)
  refine ⟨fun hkind => ?_, fun hkind => ?_, fun x rows hx hone hpa hlast => ?_, fun x rows hx hrows => ?_, fun hc => ?_,
    fun t b r hx => ?_, fun t i r hx => ?_⟩
  · obtain ⟨hb, hl, hr, hcopy⟩ : a.kind.byLoad = true ∧ a.lastPiece = false ∧ a.kind.receives = false ∧ a.kind.isCopy = false := by
      rcases hkind with ⟨_, hx⟩ | ⟨_, _, hx⟩ | ⟨_, _, hx⟩ | ⟨_, hx⟩ | ⟨_, _, _, hx, hd⟩ | ⟨_, _, _, hx, hone⟩
      case inr.inr.inr.inr.inl => simpa [Access.lastPiece, hx, AccessKind.byLoad, AccessKind.receives, AccessKind.isCopy] using hd
      case inr.inr.inr.inr.inr => simpa [Access.lastPiece, hx, AccessKind.byLoad, AccessKind.receives, AccessKind.isCopy] using hone
      all_goals rw [Access.lastPiece, hx]; exact ⟨rfl, rfl, rfl, rfl⟩
    exact ⟨(hload [n]).trans (lands hb hl hr), h.landUnits_other hcopy [n]⟩
  · obtain ⟨hb, hl, hr, hload'⟩ : a.kind.byStore = true ∧ a.lastPiece = false ∧ a.kind.receives = false ∧ a.kind.byLoad = false := by
      rcases hkind with hx | ⟨_, hx⟩ | ⟨_, _, hx⟩ | ⟨_, _, hx⟩ <;> rw [Access.lastPiece, hx] <;> exact ⟨rfl, rfl, rfl, rfl⟩
    exact ⟨(execStorePerformed_eq hk ha hb [n]).trans (lands hb hl hr), (hload [n]).trans (h.landUnits_other hload' [n])⟩
  · rw [h.storePerformed_kvapp hx, h.landRow hx hone hlast]
  · rw [h.storePerformed_kvapp hx, h.landRow_early hx hrows]
  · obtain ⟨hl, hr⟩ : a.lastPiece = false ∧ a.kind.receives = true := by
      cases hx : a.kind <;> rw [hx] at hc <;> cases hc <;> rw [Access.lastPiece, hx] <;> exact ⟨rfl, rfl⟩
    exact tells hc hl hr
  · show execTloadPieceLands k id [n] s = _
    rw [execTloadPieceLands]
    exact tells (by rw [hx]) (by rw [Access.lastPiece, hx]) (by rw [hx]; rfl)
  · show execTstorePerformed k id [n] s = _
    rw [execTstorePerformed]
    exact lands (by rw [hx]) (by rw [Access.lastPiece, hx]) (by rw [hx]; rfl)

end Sys2Proof.Machine
end

section
/-! SUPPORT. What landing does to registers (02 R46, R48; 05 R103; 07 R149 to R151; 08 R191, R192): values that land unless a younger
write has taken the register over, the crew after a part has been performed, and promised results. -/

namespace Sys2Proof.Machine

/-! Crews. -/

theorem State.find_put (s : State) (k : CrewKey) (w : Workgroup) (c : Crew) : (s.put k w c).find k = some (w.putCrew k.slot c, c) := by
  simp [State.find, Workgroup.putCrew]

theorem State.crew_of_find {s : State} {k : CrewKey} {w : Workgroup} {c : Crew} (h : s.find k = some (w, c)) :
    w.crews.find? k.slot = some c := by
  unfold State.find at h
  split at h
  · cases h
  · split at h
    · cases h
    · next hc => cases h; exact hc

/-- Only registers and their tags differ. -/
def RegistersOnly (c c' : Crew) : Prop := { c' with sreg := c.sreg, sTag := c.sTag, vreg := c.vreg, vTag := c.vTag } = c

theorem RegistersOnly.refl (c : Crew) : RegistersOnly c c := rfl

theorem RegistersOnly.trans {c d e : Crew} (h : RegistersOnly c d) (g : RegistersOnly d e) : RegistersOnly c e := by
  have hg := congrArg (fun x : Crew => { x with sreg := c.sreg, sTag := c.sTag, vreg := c.vreg, vTag := c.vTag }) g
  exact hg.trans h

/-! Values that land in registers (R48). -/

/-- The odd half of a pair is another register. -/
theorem Reg.odd_ne {d : Reg} (h : d.toNat % 2 = 0) : d.odd ≠ d := by revert h; revert d; decide

theorem registersOnly_landS (c : Crew) (d : Reg) (t : Nat) (v : Word) : RegistersOnly c (c.landS d t v) := by
  unfold Crew.landS Crew.setS
  split
  · split <;> rfl
  · rfl

theorem Crew.s_landS {c : Crew} {d : Reg} (hd : d ≠ 0) (t : Nat) (v : Word) (r : Reg) :
    (c.landS d t v).s r = if r = d ∧ c.sTag.find? d.toNat = some t then v else c.s r := by
  unfold Crew.landS
  by_cases h0 : r = 0
  · subst h0
    exact (if_neg fun h => hd h.1.symm).symm
  · by_cases hy : c.sTag.find? d.toNat = some t
    · rw [if_pos hy, Crew.s_setS, if_neg h0]
      simp only [hy, and_true]
    · rw [if_neg hy, if_neg fun h => hy h.2]

theorem Crew.full_landS (c : Crew) (d : Reg) (t : Nat) (v : Word) (r : Reg) :
    (c.landS d t v).full r = (c.full r || decide (r = d ∧ c.sTag.find? d.toNat = some t)) := by
  unfold Crew.landS
  by_cases hy : c.sTag.find? d.toNat = some t
  · rw [if_pos hy, Crew.full_setS, Bool.or_comm]
    simp only [hy, and_true]
  · simp [hy]

/-- What lands in one register leaves the tag of every other. -/
theorem Crew.sTag_landS {c : Crew} {d r : Reg} (h : r ≠ d) (t : Nat) (v : Word) :
    (c.landS d t v).sTag.find? r.toNat = c.sTag.find? r.toNat := by
  unfold Crew.landS Crew.setS
  split
  · split
    · rfl
    · rw [SMap.find?_erase, if_neg fun e => h (BitVec.eq_of_toNat_eq e)]
  · rfl

/-- `c'` holds what a write of tag t with `v` leaves in scalar register d: `v`, unless a younger write has taken it over. -/
def ScalarLanded (c c' : Crew) (d : Reg) (t : Nat) (v : Word) : Prop :=
  c'.s d = (if c.sTag.find? d.toNat = some t then v else c.s d) ∧ c'.full d = (c.full d || decide (c.sTag.find? d.toNat = some t))

theorem scalarLanded_landS (c : Crew) {d : Reg} (hd : d ≠ 0) (t : Nat) (v : Word) : ScalarLanded c (c.landS d t v) d t v := by
  refine ⟨(Crew.s_landS hd t v d).trans ?_, (Crew.full_landS c d t v d).trans ?_⟩ <;> simp

theorem landS_others (c : Crew) {d : Reg} (hd : d ≠ 0) (t : Nat) (v : Word) (r : Reg) (hr : r ≠ d) :
    (c.landS d t v).s r = c.s r ∧ (c.landS d t v).full r = c.full r := by
  rw [Crew.s_landS hd, Crew.full_landS, if_neg fun h => hr h.1]
  simp [hr]

/-- A value lands in a pair half by half, and in no other register. -/
theorem landS_pair (c : Crew) {d : Reg} (hd : d ≠ 0) (he : d.toNat % 2 = 0) (t : Nat) (lo hi : Word) :
    let c' := (c.landS d t lo).landS d.odd t hi
    ScalarLanded c c' d t lo ∧ ScalarLanded c c' d.odd t hi ∧ ∀ r, r ≠ d → r ≠ d.odd → c'.s r = c.s r ∧ c'.full r = c.full r := by
  intro c'
  have ho := Reg.odd_ne he
  have h0 := Reg.odd_ne_zero d
  have kept := fun r hr => landS_others (c.landS d t lo) h0 t hi r hr
  obtain ⟨hs, hf⟩ := scalarLanded_landS (c.landS d t lo) h0 t hi
  obtain ⟨ks, kf⟩ := landS_others c hd t lo d.odd ho
  refine ⟨⟨(kept d ho.symm).1.trans (scalarLanded_landS c hd t lo).1, (kept d ho.symm).2.trans (scalarLanded_landS c hd t lo).2⟩,
    ⟨?_, ?_⟩, fun r h1 h2 => ⟨(kept r h2).1.trans (landS_others c hd t lo r h1).1, (kept r h2).2.trans (landS_others c hd t lo r h1).2⟩⟩
  · rw [hs, ks]
    rw [Crew.sTag_landS ho]
  · rw [hf, kf, Crew.sTag_landS ho]

theorem registersOnly_landV (c : Crew) (r l t : Nat) (x : Word) : RegistersOnly c (c.landV r l t x) := by
  unfold Crew.landV
  split <;> rfl

theorem Crew.v_landV (c : Crew) (r l t : Nat) (x : Word) {q m : Nat} (hl : l < 64) (hm : m < 64) :
    (c.landV r l t x).v q m = if (q = r ∧ m = l) ∧ c.vTag.find? (laneKey r l) = some t then x else c.v q m := by
  unfold Crew.landV
  by_cases hy : c.vTag.find? (laneKey r l) = some t
  · rw [if_pos hy, Crew.v_setV _ _ _ _ _ _ hl hm]
    simp only [hy, and_true]
  · rw [if_neg hy, if_neg fun h => hy h.2]

theorem Crew.vFull_landV (c : Crew) (r l t : Nat) (x : Word) {q m : Nat} (hl : l < 64) (hm : m < 64) :
    (c.landV r l t x).vFull q m = (c.vFull q m || decide ((q = r ∧ m = l) ∧ c.vTag.find? (laneKey r l) = some t)) := by
  unfold Crew.landV
  by_cases hy : c.vTag.find? (laneKey r l) = some t
  · rw [if_pos hy, Crew.vFull_setV _ _ _ _ _ _ hl hm, Bool.or_comm]
    simp only [hy, and_true]
  · simp [hy]

/-- What lands in a lane of one register leaves the tag of that lane in every other. -/
theorem Crew.vTag_landV {c : Crew} {r q l : Nat} (hl : l < 64) (h : q ≠ r) (t : Nat) (x : Word) :
    (c.landV r l t x).vTag.find? (laneKey q l) = c.vTag.find? (laneKey q l) := by
  unfold Crew.landV Crew.setV
  split
  · rw [SMap.find?_erase, if_neg fun e => h ((laneKey_inj hl hl).1 e).1]
  · rfl

/-- The same of lane l of lane register r. -/
def LaneLanded (c c' : Crew) (r l t : Nat) (v : Word) : Prop :=
  c'.v r l = (if c.vTag.find? (laneKey r l) = some t then v else c.v r l)
    ∧ c'.vFull r l = (c.vFull r l || decide (c.vTag.find? (laneKey r l) = some t))

theorem laneLanded_landV (c : Crew) (r : Nat) {l : Nat} (hl : l < 64) (t : Nat) (v : Word) : LaneLanded c (c.landV r l t v) r l t v := by
  refine ⟨(Crew.v_landV c r l t v hl hl).trans ?_, (Crew.vFull_landV c r l t v hl hl).trans ?_⟩ <;> simp

theorem landV_others (c : Crew) (r : Nat) {l : Nat} (hl : l < 64) (t : Nat) (v : Word) (q m : Nat) (hm : m < 64) (h : q ≠ r ∨ m ≠ l) :
    (c.landV r l t v).v q m = c.v q m ∧ (c.landV r l t v).vFull q m = c.vFull q m := by
  have hne : ¬ (q = r ∧ m = l) := by omega
  rw [Crew.v_landV _ _ _ _ _ hl hm, Crew.vFull_landV _ _ _ _ _ hl hm]
  simp [hne]

/-- A value lands in a lane of two registers half by half, and in no other. -/
theorem landV_pair (c : Crew) (r : Nat) {l : Nat} (hl : l < 64) (t : Nat) (lo hi : Word) :
    let c' := (c.landV r l t lo).landV (r + 1) l t hi
    LaneLanded c c' r l t lo ∧ LaneLanded c c' (r + 1) l t hi
      ∧ ∀ q m, m < 64 → (q ≠ r ∧ q ≠ r + 1 ∨ m ≠ l) → c'.v q m = c.v q m ∧ c'.vFull q m = c.vFull q m := by
  intro c'
  have ho : r + 1 ≠ r := Nat.succ_ne_self r
  have kept := landV_others (c.landV r l t lo) (r + 1) hl t hi
  obtain ⟨hv, hf⟩ := laneLanded_landV (c.landV r l t lo) (r + 1) hl t hi
  obtain ⟨kv, kf⟩ := landV_others c r hl t lo (r + 1) l hl (.inl ho)
  obtain ⟨lv, lf⟩ := kept r l hl (.inl ho.symm)
  refine ⟨⟨lv.trans (laneLanded_landV c r hl t lo).1, lf.trans (laneLanded_landV c r hl t lo).2⟩, ⟨?_, ?_⟩, fun q m hm h => ?_⟩
  · rw [hv, kv]
    rw [Crew.vTag_landV hl ho]
  · rw [hf, kf, Crew.vTag_landV hl ho]
  · obtain ⟨h1, h2⟩ := kept q m hm (h.imp And.right id)
    obtain ⟨h3, h4⟩ := landV_others c r hl t lo q m hm (h.imp And.left id)
    exact ⟨h1.trans h3, h2.trans h4⟩

/-! Accesses in flight (R48, R50). -/

theorem mem_of_mem_dropDone {o : List (Option Path)} {as : List Access} {x : Access} (h : x ∈ dropDone o as) : x ∈ as := by
  induction as generalizing o with
  | nil => exact h
  | cons a as ih =>
    unfold dropDone at h
    split at h
    · exact List.mem_cons_of_mem _ (ih h)
    · rcases List.mem_cons.1 h with rfl | h
      · exact List.mem_cons_self
      · exact List.mem_cons_of_mem _ (ih h)

/-- What is still open stays. -/
theorem mem_dropDone {o : List (Option Path)} {as : List Access} {x : Access} (h : x ∈ as) (hx : x.done = false) : x ∈ dropDone o as := by
  induction as generalizing o with
  | nil => exact h
  | cons a as ih =>
    unfold dropDone
    rcases List.mem_cons.1 h with rfl | h
    · rw [hx]
      exact List.mem_cons_self
    · split
      · exact ih h
      · exact List.mem_cons_of_mem _ (ih h)

theorem Crew.putAccess_self {c : Crew} {a b : Access} (hb : b ∈ (c.putAccess a).flying) (h : b.id = a.id) : b = a := by
  obtain ⟨x, -, hx⟩ := List.mem_map.1 (mem_of_mem_dropDone hb)
  split at hx
  · exact hx.symm
  · next hne => subst hx; exact absurd (beq_iff_eq.2 h) hne

theorem Crew.putAccess_other {c : Crew} {a b : Access} (hb : b ∈ c.flying) (h : b.id ≠ a.id) (hd : b.done = false) :
    b ∈ (c.putAccess a).flying :=
  mem_dropDone (List.mem_map.2 ⟨b, hb, if_neg fun e => h (beq_iff_eq.1 e)⟩) hd

/-! A part that is performed. -/

/-- Without batches a part that has been performed leaves the crew with its new registers and the access without the part. -/
theorem State.partDone_of {s : State} {k : CrewKey} {w w' : Workgroup} {c c' : Crew} {a : Access} {p : Part}
    (hk : w.crews.find? k.slot = some c) (hb : c.batches = []) (hr : RegistersOnly c c') (hw : w'.crews = w.crews) :
    s.partDone k w' c' a p = s.put k w' (c'.putAccess (a.without p)) := by
  have hb' : c'.batches = [] := (congrArg Crew.batches hr).trans hb
  have hwait : c'.waitBar = c.waitBar := (congrArg Crew.waitBar hr).trans rfl
  have hset : settleBatches w' (c'.putAccess (a.without p)) = (w', c'.putAccess (a.without p)) := by
    simp only [settleBatches, Crew.putAccess_batches, hb', List.filter_nil, List.foldl_nil]
    rw [← hb']
    rfl
  rw [State.partDone, hset, Crew.watched, hw, hk]
  dsimp only
  rw [← hwait]
  rfl

/-- The bytes of a part all of whose bytes are accessed. -/
theorem State.partBytes_whole (s : State) (w : Workgroup) (a : Access) (pa : Nat) {p : Part} (hn : p.size ≤ 16)
    (hp : p.bytes = BitVec.ofNat 16 (2 ^ p.size - 1)) : s.partBytes w a p pa
      = if a.scratch then SMap.slice w.scratch p.addr p.size else s.readBytes w.ctx pa p.size := by
  have hflag : ∀ i < p.size, flag p.bytes i = true := fun i hi => by
    rw [flag, hp, BitVec.getLsbD_ofNat, Nat.testBit_two_pow_sub_one]
    simp [hi]
    omega
  unfold State.partBytes SMap.slice State.readBytes
  cases a.scratch <;> refine List.map_congr_left fun i hi => ?_
  · rw [hflag i (List.mem_range.1 hi)]
    rfl
  · rw [hflag i (List.mem_range.1 hi)]
    rfl

/-- Writing a part's bytes touches scratchpad alone of its workgroup, and that for a scratchpad access alone. -/
theorem State.writePart_rest (s : State) (w : Workgroup) (a : Access) (p : Part) (pa : Nat) (bs : List Byte) :
    { (s.writePart w a p pa bs).2 with scratch := w.scratch } = w ∧ (a.scratch = false → (s.writePart w a p pa bs).2 = w)
      ∧ (s.writePart w a p pa bs).2.crews = w.crews := by
  unfold State.writePart
  cases a.scratch
  · exact ⟨rfl, fun _ => rfl, rfl⟩
  · exact ⟨rfl, nofun, rfl⟩

/-- What a load, an atomic or an LDK that finds the bytes of value x leaves in the crew's registers (R149 to R151, R191, R192). -/
def Crew.landed (c : Crew) (a : Access) (p : Part) (args : List Byte) (x : Nat) : Crew :=
  match a.kind with
  | .load code => c.landLoad a.id p code x
  | .atom .. => c.landV p.dst p.unit a.id (BitVec.ofNat 32 x)
  | .sload d size => c.landPair d a.id (size == 3) (BitVec.ofNat 64 x)
  | .satom d _ wide => c.landPair d a.id wide (BitVec.ofNat 64 x)
  | .ldk d => c.landS d a.id (BitVec.ofNat 32 (leNat ((args.drop p.addr).take 4)))
  | _ => c

/-- The accesses whose parts fill registers. -/
def AccessKind.fills : AccessKind → Bool
  | .load _ | .atom .. | .sload .. | .satom .. | .ldk _ => true
  | _ => false

theorem registersOnly_landPair (c : Crew) (d : Reg) (t : Nat) (wide : Bool) (v : DWord) : RegistersOnly c (c.landPair d t wide v) := by
  unfold Crew.landPair
  split
  · exact (registersOnly_landS _ _ _ _).trans (registersOnly_landS _ _ _ _)
  · exact registersOnly_landS _ _ _ _

theorem registersOnly_landLoad (c : Crew) (t : Nat) (p : Part) (code : BitVec 4) (x : Nat) : RegistersOnly c (c.landLoad t p code x) := by
  unfold Crew.landLoad
  dsimp only
  split
  · exact (registersOnly_landV _ _ _ _ _).trans (registersOnly_landV _ _ _ _ _)
  · exact registersOnly_landV _ _ _ _ _

theorem registersOnly_landed (c : Crew) (a : Access) (p : Part) (args : List Byte) (x : Nat) : RegistersOnly c (c.landed a p args x) := by
  unfold Crew.landed
  split
  · exact registersOnly_landLoad _ _ _ _ _
  · exact registersOnly_landV _ _ _ _ _
  · exact registersOnly_landPair _ _ _ _ _
  · exact registersOnly_landPair _ _ _ _ _
  · exact registersOnly_landS _ _ _ _
  · exact .refl c

/-- An LDK reads no memory. -/
theorem State.touchPart_ldk {a : Access} {d : Reg} (h : a.kind = .ldk d) (s : State) (w : Workgroup) (p : Part) (pa : Nat) :
    s.touchPart w a p pa = s := by
  have hg : a.global p = false := by simp [Access.global, h]
  rw [State.touchPart, hg]
  rfl

/-- Performing a part that fills registers is a write of its bytes, of which a load has none, and the end of the part. -/
theorem State.landPart_fills {s : State} {k : CrewKey} {w : Workgroup} {c : Crew} {a : Access} {p : Part} {pa : Nat}
    (ha : a.kind.fills = true) : ∃ (t : State) (w' : Workgroup),
      { w' with scratch := w.scratch } = w ∧ (a.scratch = false → w' = w) ∧ w'.crews = w.crews
      ∧ s.landPart k w c a p pa = t.partDone k w' (c.landed a p (s.gridOf w).args (leNat (s.partBytes w a p pa))) a p := by
  have hwrite := fun (t : State) bs => t.writePart_rest w a p pa bs
  unfold State.landPart Crew.landed
  cases hk : a.kind <;> rw [hk] at ha <;> cases ha
  case load code => exact ⟨_, w, rfl, fun _ => rfl, rfl, rfl⟩
  case sload d size => exact ⟨_, w, rfl, fun _ => rfl, rfl, rfl⟩
  case ldk d =>
    refine ⟨s, w, rfl, fun _ => rfl, rfl, ?_⟩
    rw [State.touchPart_ldk hk, ite_self]
  case atom op r => exact ⟨_, _, (hwrite _ _).1, (hwrite _ _).2.1, (hwrite _ _).2.2, rfl⟩
  case satom d op wide => exact ⟨_, _, (hwrite _ _).1, (hwrite _ _).2.1, (hwrite _ _).2.2, rfl⟩

/-- The crew of the part becomes `c'`, of whose workgroup scratchpad alone may differ; the access is left without the part, and every
other that is open stays. -/
def LeavesCrew (t : State) (k : CrewKey) (w : Workgroup) (c : Crew) (a : Access) (p : Part) (c' : Crew) : Prop :=
  (∃ w', t.find k = some (Workgroup.putCrew w' k.slot c', c') ∧ { w' with scratch := w.scratch } = w ∧ (a.scratch = false → w' = w))
    ∧ (∀ b ∈ c'.flying, b.id = a.id → b = { a with parts := a.parts.erase p })
    ∧ ∀ b ∈ c.flying, b.id ≠ a.id → b.done = false → b ∈ c'.flying

/-- A part that fills registers leaves the crew with them, and without the part. -/
theorem State.landPart_leaves {s : State} {k : CrewKey} {w : Workgroup} {c c1 : Crew} {a : Access} {p : Part} {pa : Nat}
    (hk : s.find k = some (w, c)) (hb : c.batches = []) (ha : a.kind.fills = true)
    (hl : c.landed a p (s.gridOf w).args (leNat (s.partBytes w a p pa)) = c1) :
    LeavesCrew (s.landPart k w c a p pa) k w c a p (c1.putAccess (a.without p)) := by
  obtain ⟨t, w', hscratch, hsame, hcrews, ht⟩ := State.landPart_fills (s := s) (k := k) (w := w) (c := c) (p := p) (pa := pa) ha
  have hreg := registersOnly_landed c a p (s.gridOf w).args (leNat (s.partBytes w a p pa))
  rw [hl] at hreg ht
  have hfly : c1.flying = c.flying := (congrArg Crew.flying hreg).trans rfl
  rw [ht, State.partDone_of (State.crew_of_find hk) hb hreg hcrews]
  refine ⟨⟨w', State.find_put _ _ _ _, hscratch, hsame⟩, fun b hb' hid => Crew.putAccess_self hb' hid, fun b hb' hid hd => ?_⟩
  exact Crew.putAccess_other (hfly ▸ hb') hid hd

/-! Values (R149, R191). -/

theorem fld_ofNat_low (x : Nat) : fld (BitVec.ofNat 64 x) 0 32 = BitVec.ofNat 32 x := by
  apply BitVec.eq_of_toNat_eq
  simp only [fld, BitVec.extractLsb'_toNat, BitVec.toNat_ofNat]
  omega

theorem fld_ofNat_high (x : Nat) : fld (BitVec.ofNat 64 x) 32 32 = BitVec.ofNat 32 (x / 2 ^ 32) := by
  apply BitVec.eq_of_toNat_eq
  simp only [fld, BitVec.extractLsb'_toNat, BitVec.toNat_ofNat, Nat.shiftRight_eq_div_pow]
  omega

theorem Crew.landPair_narrow (c : Crew) (d : Reg) (t x : Nat) :
    c.landPair d t false (BitVec.ofNat 64 x) = c.landS d t (BitVec.ofNat 32 x) := by
  simp only [Crew.landPair, fld_ofNat_low, Bool.false_eq_true, if_false]

theorem Crew.landPair_wide (c : Crew) (d : Reg) (t x : Nat) : c.landPair d t true (BitVec.ofNat 64 x)
    = (c.landS d t (BitVec.ofNat 32 x)).landS d.odd t (BitVec.ofNat 32 (x / 2 ^ 32)) := by
  simp only [Crew.landPair, fld_ofNat_low, fld_ofNat_high, if_true]

theorem Crew.landLoad_narrow (c : Crew) (t : Nat) {p : Part} (code : BitVec 4) (x : Nat) (h : p.size ≠ 8) :
    c.landLoad t p code x = c.landV p.dst p.unit t (loadWord code x) := if_neg h

theorem Crew.landLoad_wide (c : Crew) (t : Nat) {p : Part} {code : BitVec 4} (hc : code = 5 ∨ code = 6) (x : Nat) (h : p.size = 8) :
    c.landLoad t p code x
      = (c.landV p.dst p.unit t (BitVec.ofNat 32 x)).landV (p.dst + 1) p.unit t (BitVec.ofNat 32 (x / 2 ^ 32)) := by
  rcases hc with rfl | rfl <;> exact if_pos h

theorem loadWord_eq (code : BitVec 4) (x : Nat) : loadWord code x = if code = 1 then (BitVec.ofNat 8 x).signExtend 32
    else if code = 3 then (BitVec.ofNat 16 x).signExtend 32 else BitVec.ofNat 32 x := by
  unfold loadWord
  split
  · next h => rw [if_pos (BitVec.eq_of_toNat_eq h)]
  · next h =>
    obtain rfl : code = 3 := BitVec.eq_of_toNat_eq h
    rfl
  · next h1 h3 => rw [if_neg fun h => h1 (congrArg BitVec.toNat h), if_neg fun h => h3 (congrArg BitVec.toNat h)]

/-! What the accesses that fill registers leave in them, by kind and size. -/

section
variable {a : Access} (c : Crew) (p : Part) (args : List Byte) (x : Nat)

theorem Crew.landed_scalar {d : Reg} {code : BitVec 2} (h : (a.kind = .sload d code ∧ code ≠ 3) ∨ ∃ op, a.kind = .satom d op false) :
    a.kind.fills = true ∧ c.landed a p args x = c.landS d a.id (BitVec.ofNat 32 x) := by
  rw [← c.landPair_narrow]
  rcases h with ⟨h, hc⟩ | ⟨op, h⟩ <;> rw [Crew.landed, h]
  · exact ⟨rfl, congrArg (fun wide => c.landPair d a.id wide (BitVec.ofNat 64 x)) (beq_eq_false_iff_ne.2 hc)⟩
  · exact ⟨rfl, rfl⟩

theorem Crew.landed_pair {d : Reg} (h : a.kind = .sload d 3 ∨ ∃ op, a.kind = .satom d op true) :
    a.kind.fills = true ∧ c.landed a p args x
      = (c.landS d a.id (BitVec.ofNat 32 x)).landS d.odd a.id (BitVec.ofNat 32 (x / 2 ^ 32)) := by
  rw [← c.landPair_wide]
  rcases h with h | ⟨op, h⟩ <;> rw [Crew.landed, h] <;> exact ⟨rfl, rfl⟩

theorem Crew.landed_ldk {d : Reg} (h : a.kind = .ldk d) : a.kind.fills = true
    ∧ c.landed a p args x = c.landS d a.id (BitVec.ofNat 32 (leNat ((args.drop p.addr).take 4))) := by
  rw [Crew.landed, h]
  exact ⟨rfl, rfl⟩

variable {p}

theorem Crew.landed_lane {code : BitVec 4} (h : (a.kind = .load code ∧ p.size ≠ 8) ∨ (code = 4 ∧ ∃ op r, a.kind = .atom op r)) :
    a.kind.fills = true ∧ c.landed a p args x = c.landV p.dst p.unit a.id (loadWord code x) := by
  rcases h with ⟨h, hs⟩ | ⟨rfl, op, r, h⟩ <;> rw [Crew.landed, h]
  · exact ⟨rfl, c.landLoad_narrow a.id code x hs⟩
  · exact ⟨rfl, rfl⟩

theorem Crew.landed_lanes {code : BitVec 4} (hc : code = 5 ∨ code = 6) (h : a.kind = .load code) (hs : p.size = 8) :
    a.kind.fills = true ∧ c.landed a p args x
      = (c.landV p.dst p.unit a.id (BitVec.ofNat 32 x)).landV (p.dst + 1) p.unit a.id (BitVec.ofNat 32 (x / 2 ^ 32)) := by
  rw [Crew.landed, h]
  exact ⟨rfl, c.landLoad_wide a.id hc x hs⟩

end

/-! Promised results. -/

theorem landUnits_nil (s : State) (k : CrewKey) (id : Nat) (kinds : AccessKind → Bool) : landUnits s k id [] kinds = .next s := by
  unfold landUnits
  split
  · split
    · exact ite_self _
    · rfl
  · rfl

theorem Crew.s2_eq (c : Crew) {d : Reg} (hd : d ≠ 0) : c.s2 d = c.s d.odd ++ c.s d := by
  rw [Crew.s2, Crew.s, Crew.s, if_neg hd, if_neg hd, if_neg (Reg.odd_ne_zero d)]

theorem fld_halves (v : DWord) : (fld v 32 32 ++ fld v 0 32 : DWord) = v := by
  have h := BitVec.extractLsb'_append_extractLsb'_eq_extractLsb' (x := v) (start₁ := 0) (start₂ := 32) (len₁ := 32) (len₂ := 32) rfl
  exact h.trans BitVec.extractLsb'_eq_self

theorem loadLands_pending {s : State} {k : CrewKey} {w : Workgroup} {c : Crew} {q : Pending} (hk : s.find k = some (w, c))
    (hp : c.pending = [q]) : exec (.loadLands k q.tag []) s = .next (s.put k w (c.keep q)) := by
  have hl : s.landPending k q.tag = s.put k w (c.keep q) := by
    simp [State.landPending, hk, hp]
  rw [execLoadLands_eq, hl, landUnits_nil]

/-- A promised pair lands whole in its two registers, and in no other. -/
theorem Crew.keep_pair {c : Crew} {q : Pending} {d : Reg} {v : DWord} (hp : c.pending = [q]) (hr : q.regs = pairWrites d v)
    (hl : q.lanes = []) (hd : d ≠ 0) (he : d.toNat % 2 = 0) (hlo : c.sTag.find? d.toNat = some q.tag)
    (hhi : c.sTag.find? d.odd.toNat = some q.tag) :
    (c.keep q).s2 d = v ∧ (c.keep q).full d = true ∧ (c.keep q).full d.odd = true ∧ (c.keep q).pending = []
      ∧ ∀ r, r ≠ d → r ≠ d.odd → (c.keep q).s r = c.s r ∧ (c.keep q).full r = c.full r := by
  have hk : c.keep q = { (c.landS d q.tag (fld v 0 32)).landS d.odd q.tag (fld v 32 32) with pending := [] } := by
    have hpend := (congrArg Crew.pending ((registersOnly_landS c d q.tag (fld v 0 32)).trans
      (registersOnly_landS _ d.odd q.tag (fld v 32 32)))).trans hp
    simp only [Crew.keep, hr, hl, pairWrites, List.foldl_cons, List.foldl_nil]
    rw [hpend]
    simp
  rw [hk]
  obtain ⟨⟨s1, f1⟩, ⟨s2, f2⟩, others⟩ := landS_pair c hd he q.tag (fld v 0 32) (fld v 32 32)
  rw [if_pos hlo] at s1
  rw [if_pos hhi] at s2
  refine ⟨?_, f1.trans (by simp [hlo]), f2.trans (by simp [hhi]), rfl, others⟩
  rw [Crew.s2_eq _ hd]
  exact (congrArg₂ (· ++ ·) s2 s1).trans (fld_halves v)

/-- Settles O22: a part that fills registers leaves the crew with them (`State.landPart_leaves`), of one or two registers by its kind and
size, and a promised pair lands whole. -/
theorem landingFillsTheYoungestRegister : Obligations.LandingFillsTheYoungestRegister := by
  refine ⟨fun s k w c a p pa hk hb hp => ?_, fun p hp => ⟨_, _, if_pos hp, rfl, rfl, rfl, rfl, rfl, rfl, rfl, rfl⟩,
    fun s k w c q d v hk hp hr hl _ hd he hlo hhi => ⟨c.keep q, loadLands_pending hk hp, Crew.keep_pair hp hr hl hd he hlo hhi⟩⟩
  intro n x lands scalar lane
  have leaves {c1 : Crew}
      (h : a.kind.fills = true ∧ c.landed a p (s.gridOf w).args (leNat (s.partBytes w a p pa)) = c1) :
      lands (c1.putAccess (a.without p)) := State.landPart_leaves hk hb h.1 h.2
  have filled {c1 : Crew} (hn : n ≤ 16) (h : a.kind.fills = true ∧ c.landed a p (s.gridOf w).args x = c1) :
      lands (c1.putAccess (a.without p)) := leaves (by rwa [s.partBytes_whole w a pa hn hp])
  refine ⟨fun d code hd hn hkind => ?_, fun d hd hkind => ?_, fun d hd he hn hkind => ?_, fun code hu hkind => ?_, fun hu hn hkind => ?_⟩
  · have hland := c.landed_scalar p (s.gridOf w).args x (hkind.imp (fun h => ⟨h.1, h.2.1⟩) And.right)
    exact ⟨_, filled (by omega) hland, scalarLanded_landS c hd a.id _, landS_others c hd a.id _⟩
  · exact ⟨_, leaves (c.landed_ldk p _ _ hkind), scalarLanded_landS c hd a.id _, landS_others c hd a.id _⟩
  · exact ⟨_, filled (by omega) (c.landed_pair p _ x hkind), landS_pair c hd he a.id _ _⟩
  · have hland := c.landed_lane (s.gridOf w).args x (hkind.imp (fun h => ⟨h.1, (by omega : p.size ≠ 8)⟩) fun h => ⟨h.1, h.2.2⟩)
    rw [loadWord_eq] at hland
    exact ⟨_, filled (by omega) hland, laneLanded_landV c p.dst hu a.id _, landV_others c p.dst hu a.id _⟩
  · have hland : a.kind.fills = true ∧ c.landed a p (s.gridOf w).args x
        = (c.landV p.dst p.unit a.id (BitVec.ofNat 32 x)).landV (p.dst + 1) p.unit a.id (BitVec.ofNat 32 (x / 2 ^ 32)) :=
      hkind.elim (c.landed_lanes _ x (.inl rfl) · hn) (c.landed_lanes _ x (.inr rfl) · hn)
    exact ⟨_, filled (by omega) hland, landV_pair c p.dst hu a.id _ _⟩

end Sys2Proof.Machine
end

section
/-! SUPPORT. Dyadic numbers as real numbers: the model's order, sums, products and floors are those of the values. -/

namespace Sys2Proof

/-- The magnitude of a dyadic number. -/
noncomputable def Dy.mag (x : Dy) : ℝ := x.m * 2 ^ x.e

/-- The value of a dyadic number. -/
noncomputable def Dy.real (x : Dy) : ℝ := if x.neg then -x.mag else x.mag

theorem Dy.mag_nonneg (x : Dy) : 0 ≤ x.mag := by unfold Dy.mag; positivity

theorem Dy.mag_pos {x : Dy} (h : x.m ≠ 0) : 0 < x.mag := by
  have : (0 : ℝ) < x.m := by exact_mod_cast Nat.pos_of_ne_zero h
  unfold Dy.mag; positivity

theorem Dy.real_of_pos {x : Dy} (h : x.neg = false) : x.real = x.mag := by simp [Dy.real, h]

theorem Dy.real_of_neg {x : Dy} (h : x.neg = true) : x.real = -x.mag := by simp [Dy.real, h]

theorem Dy.mag_eq_abs (x : Dy) : x.mag = |x.real| := by
  cases h : x.neg
  · rw [Dy.real_of_pos h, abs_of_nonneg x.mag_nonneg]
  · rw [Dy.real_of_neg h, abs_neg, abs_of_nonneg x.mag_nonneg]

/-- An exponent that is no less splits into whole steps of the lesser one. -/
theorem two_zpow_split {a b : Int} (h : a ≤ b) : (2 : ℝ) ^ b = 2 ^ (b - a).toNat * 2 ^ a := by
  rw [← zpow_natCast, ← zpow_add₀ two_ne_zero, Int.toNat_of_nonneg (Int.sub_nonneg.2 h), Int.sub_add_cancel]

theorem Dy.steps_mul (x : Dy) {e : Int} (h : e ≤ x.e) : (x.steps e : ℝ) * 2 ^ e = x.real := by
  have hm : ((x.m : ℝ) * 2 ^ (x.e - e).toNat) * 2 ^ e = x.mag := by rw [Dy.mag, two_zpow_split h, mul_assoc]
  cases hn : x.neg
  · rw [Dy.real_of_pos hn, ← hm]; simp [Dy.steps, hn]
  · rw [Dy.real_of_neg hn, ← hm]; simp [Dy.steps, hn]

theorem Dy.lt_iff (x y : Dy) : x.lt y = true ↔ x.real < y.real := by
  rw [← x.steps_mul (min_le_left x.e y.e), ← y.steps_mul (min_le_right x.e y.e), mul_lt_mul_iff_left₀ (by positivity)]
  simp [Dy.lt]

theorem Dy.le_iff (x y : Dy) : x.le y = true ↔ x.real ≤ y.real := by
  rw [← not_lt, ← Dy.lt_iff]; simp [Dy.le]

theorem Dy.mag_mul (x y : Dy) : (x.mul y).mag = x.mag * y.mag := by
  simp only [Dy.mag, Dy.mul, Nat.cast_mul, zpow_add₀ (two_ne_zero (α := ℝ))]; ring

theorem Dy.real_mul (x y : Dy) : (x.mul y).real = x.real * y.real := by
  have hs : (x.mul y).neg = (x.neg != y.neg) := rfl
  simp only [Dy.real, Dy.mag_mul, hs]
  cases x.neg <;> cases y.neg <;> simp

theorem Dy.real_abs (x : Dy) : x.abs.real = x.mag := rfl

theorem Dy.real_flip (x : Dy) : x.flip.real = -x.real := by
  have hm : x.flip.mag = x.mag := rfl
  have hs : x.flip.neg = !x.neg := rfl
  simp only [Dy.real, hm, hs]
  cases x.neg <;> simp

theorem Dy.real_of_steps (t : Int) (e : Int) : (⟨decide (t < 0), t.natAbs, e⟩ : Dy).real = t * 2 ^ e := by
  have h : ((t.natAbs : ℕ) : ℝ) = |(t : ℝ)| := by rw [Nat.cast_natAbs, Int.cast_abs]
  by_cases ht : t < 0
  · have : (t : ℝ) < 0 := by exact_mod_cast ht
    simp [Dy.real, Dy.mag, ht, abs_of_neg this]
  · have : (0 : ℝ) ≤ t := by exact_mod_cast not_lt.1 ht
    simp [Dy.real, Dy.mag, ht, abs_of_nonneg this]

theorem Dy.real_ofInt (k : Int) : (Dy.ofInt k).real = k := by
  rw [Dy.ofInt, Dy.real_of_steps, zpow_zero, mul_one]

theorem Dy.real_sum_pair (x y : Dy) : (Dy.sum [x, y]).real = x.real + y.real := by
  have he : Dy.leastExp [x, y] = min x.e y.e := rfl
  rw [Dy.sum, Dy.real_of_steps, he, ← x.steps_mul (min_le_left x.e y.e), ← y.steps_mul (min_le_right x.e y.e)]
  simp [add_mul]

theorem Dy.real_sub (x y : Dy) : (x.sub y).real = x.real - y.real := by
  rw [Dy.sub, Dy.real_sum_pair, Dy.real_flip, sub_eq_add_neg]

theorem Dy.isZero_iff (x : Dy) : x.isZero = true ↔ x.real = 0 := by
  rw [← abs_eq_zero, ← Dy.mag_eq_abs, Dy.mag, Dy.isZero, beq_iff_eq]
  simp [zpow_ne_zero]

theorem Dy.isZero_eq_false {x : Dy} (h : x.m ≠ 0) : x.isZero = false := by simpa [Dy.isZero] using h

theorem Dy.log2_bounds {x : Dy} (h : x.m ≠ 0) : (2 : ℝ) ^ x.log2 ≤ x.mag ∧ x.mag < 2 ^ (x.log2 + 1) := by
  have he : (0 : ℝ) < 2 ^ x.e := by positivity
  have h1 : ((2 ^ Nat.log2 x.m : ℕ) : ℝ) ≤ x.m := by exact_mod_cast Nat.log2_self_le h
  have h2 : (x.m : ℝ) < ((2 ^ (Nat.log2 x.m + 1) : ℕ) : ℝ) := by exact_mod_cast Nat.lt_log2_self
  push_cast at h1 h2
  constructor
  · rw [Dy.log2, zpow_add₀ two_ne_zero, zpow_natCast, Dy.mag]
    exact mul_le_mul_of_nonneg_right h1 he.le
  · rw [Dy.log2, show (Nat.log2 x.m : Int) + x.e + 1 = ((Nat.log2 x.m + 1 : ℕ) : Int) + x.e by push_cast; ring,
      zpow_add₀ two_ne_zero, zpow_natCast, Dy.mag]
    exact mul_lt_mul_of_pos_right h2 he

/-- The steps of 2^q in a magnitude, and the rest of them. -/
theorem Dy.floorAt_bounds (x : Dy) (q : Int) : (x.floorAt q : ℝ) * 2 ^ q ≤ x.mag ∧ x.mag < (x.floorAt q + 1) * 2 ^ q := by
  have hq : (0 : ℝ) < 2 ^ q := by positivity
  by_cases h : q ≤ x.e
  · have hm : (x.floorAt q : ℝ) * 2 ^ q = x.mag := by
      rw [Dy.floorAt, if_pos h, Dy.mag, two_zpow_split h]; push_cast; ring
    exact ⟨hm.le, by rw [add_mul, hm]; linarith⟩
  · have he : (0 : ℝ) < 2 ^ x.e := by positivity
    have hs := two_zpow_split (not_le.1 h).le
    rw [Dy.floorAt, if_neg h, hs, Dy.mag, ← mul_assoc, ← mul_assoc]
    constructor
    · refine mul_le_mul_of_nonneg_right ?_ he.le
      exact_mod_cast Nat.div_mul_le_self x.m (2 ^ (q - x.e).toNat)
    · refine mul_lt_mul_of_pos_right ?_ he
      exact_mod_cast Nat.lt_mul_of_div_lt (Nat.lt_succ_self _) (by positivity)

end Sys2Proof
end

section
/-! SUPPORT. Rounding into FP32 to nearest even (03 R58, R65): what a value, known exactly or but for its last bits, rounds to is the
magnitude nearest to it, which settles it and rises with it. -/

namespace Sys2Proof

open Machine

/-! The magnitudes of FP32 and what lies nearest to one of them. -/

/-- The value of magnitude code n of FP32, on the grid continued above the largest finite value (R65). -/
noncomputable def gridVal (n : Nat) : ℝ := (fp32.magnitude false n).real

theorem magnitude_pos (n : Nat) : (fp32.magnitude false n).neg = false := by
  unfold FFmt.magnitude
  dsimp only
  split <;> rfl

theorem gridVal_subnormal {n : Nat} (h : n < 2 ^ 23) : gridVal n = n * 2 ^ (-149 : Int) := by
  have hx : fp32.magnitude false n = ⟨false, n % 2 ^ 23, -149⟩ := if_pos (Nat.div_eq_of_lt h)
  rw [gridVal, Dy.real_of_pos (magnitude_pos n), hx, Dy.mag, Nat.mod_eq_of_lt h]

theorem gridVal_normal {n : Nat} (h : n / 2 ^ 23 ≠ 0) :
    gridVal n = ((2 ^ 23 + n % 2 ^ 23 : ℕ) : ℝ) * 2 ^ (-149 + ((n / 2 ^ 23 : ℕ) : Int) - 1) := by
  have hx : fp32.magnitude false n = ⟨false, 2 ^ 23 + n % 2 ^ 23, -149 + ((n / 2 ^ 23 : ℕ) : Int) - 1⟩ := if_neg h
  rw [gridVal, Dy.real_of_pos (magnitude_pos n), hx, Dy.mag]

/-- Within a binade, whose exponent is j steps above the least, the codes count the steps of the grid. -/
theorem gridVal_binade {j g : Nat} (hg : g ≤ 2 ^ 24) (hj : j = 0 ∨ 2 ^ 23 ≤ g) :
    gridVal (j * 2 ^ 23 + g) = g * 2 ^ ((j : Int) - 149) := by
  rcases Nat.lt_or_ge g (2 ^ 23) with hlt | hge
  · have h0 : j = 0 := hj.resolve_right (by omega)
    rw [h0, Nat.zero_mul, Nat.zero_add, gridVal_subnormal hlt]
    rfl
  · rw [gridVal_normal (by omega)]
    rcases eq_or_lt_of_le hg with h24 | h24
    · have h1 : (j * 2 ^ 23 + g) / 2 ^ 23 = j + 2 := by omega
      have h2 : ((2 ^ 23 + (j * 2 ^ 23 + g) % 2 ^ 23 : ℕ) : ℝ) * 2 = g := by exact_mod_cast (by omega)
      rw [h1, ← h2, show (-149 + ((j + 2 : ℕ) : Int) - 1 : Int) = (j : Int) - 149 + 1 by push_cast; ring, zpow_add_one₀ two_ne_zero]
      ring
    · have h1 : (j * 2 ^ 23 + g) / 2 ^ 23 = j + 1 := by omega
      have h2 : 2 ^ 23 + (j * 2 ^ 23 + g) % 2 ^ 23 = g := by omega
      rw [h1, h2, show (-149 + ((j + 1 : ℕ) : Int) - 1 : Int) = (j : Int) - 149 by push_cast; ring]

theorem exists_binade (n : Nat) : ∃ j g, n = j * 2 ^ 23 + g ∧ g < 2 ^ 24 ∧ (j = 0 ∨ 2 ^ 23 ≤ g) := by
  rcases Nat.lt_or_ge n (2 ^ 23) with h | h
  · exact ⟨0, n, by omega, by omega, .inl rfl⟩
  · exact ⟨n / 2 ^ 23 - 1, 2 ^ 23 + n % 2 ^ 23, by omega, by omega, .inr (by omega)⟩

theorem gridVal_strictMono : StrictMono gridVal := by
  refine strictMono_nat_of_lt_succ fun n => ?_
  obtain ⟨j, g, rfl, hg, hj⟩ := exists_binade n
  rw [gridVal_binade hg.le hj, Nat.add_assoc, gridVal_binade (by omega) (hj.imp_right (by omega))]
  exact mul_lt_mul_of_pos_right (by exact_mod_cast g.lt_succ_self) (by positivity)

theorem gridVal_nonneg (n : Nat) : 0 ≤ gridVal n := by
  rw [gridVal, Dy.real_of_pos (magnitude_pos n)]
  exact Dy.mag_nonneg _

/-- Code r is nearest to v, the even one of two equally near: v lies between the middles of the steps below and above r, and on one
of them only for even r. -/
structure NearestCode (r : Nat) (v : ℝ) : Prop where
  below : r ≠ 0 → gridVal (r - 1) + gridVal r ≤ 2 * v
  belowOdd : r % 2 = 1 → gridVal (r - 1) + gridVal r < 2 * v
  above : 2 * v ≤ gridVal r + gridVal (r + 1)
  aboveOdd : r % 2 = 1 → 2 * v < gridVal r + gridVal (r + 1)

/-- Rounding to nearest is monotone. -/
theorem NearestCode.mono {r t : Nat} {v u : ℝ} (hr : NearestCode r v) (ht : NearestCode t u) (h : v ≤ u) : r ≤ t := by
  by_contra! hlt
  have h1 : gridVal t ≤ gridVal (r - 1) := gridVal_strictMono.monotone (by omega)
  have h2 : gridVal (t + 1) ≤ gridVal r := gridVal_strictMono.monotone hlt
  rcases eq_or_lt_of_le (Nat.succ_le_of_lt hlt) with heq | hgt
  · rcases Nat.mod_two_eq_zero_or_one r with he | ho
    · linarith [hr.below (by omega), ht.aboveOdd (by omega)]
    · linarith [hr.belowOdd ho, ht.above]
  · linarith [hr.below (by omega), ht.above, gridVal_strictMono (show t < r - 1 by omega)]

/-- In the lower half of a step its lower code is nearest. -/
theorem NearestCode.lower {c : Nat} {v : ℝ} (hc : gridVal c ≤ v) (ha : 2 * v ≤ gridVal c + gridVal (c + 1))
    (ho : c % 2 = 1 → 2 * v < gridVal c + gridVal (c + 1)) : NearestCode c v :=
  have hlt (h : c ≠ 0) : gridVal (c - 1) < gridVal c := gridVal_strictMono (by omega)
  ⟨fun h => by linarith [hlt h], fun h => by linarith [hlt (by omega)], ha, ho⟩

/-- In the upper half of a step its upper code is nearest. -/
theorem NearestCode.upper {c : Nat} {v : ℝ} (hc : v ≤ gridVal (c + 1)) (hb : gridVal c + gridVal (c + 1) ≤ 2 * v)
    (ho : c % 2 = 0 → gridVal c + gridVal (c + 1) < 2 * v) : NearestCode (c + 1) v :=
  have hlt : gridVal (c + 1) < gridVal (c + 1 + 1) := gridVal_strictMono (Nat.lt_succ_self _)
  ⟨fun _ => hb, fun h => ho (by omega), by linarith, fun _ => by linarith⟩

/-! Rounding (R65). -/

/-- x stands for the magnitude v: it is v, or with `sticky` v lies strictly between x and the next magnitude of its exponent, which is
below the grid's. -/
def Dy.StandsFor (x : Dy) (sticky : Bool) (v : ℝ) : Prop :=
  if sticky then x.mag < v ∧ v < x.mag + 2 ^ x.e ∧ x.e < fp32.quantum x else v = x.mag

theorem Dy.standsFor_self (x : Dy) : x.StandsFor false x.mag := rfl

theorem quantum_zero {x : Dy} (h : x.m = 0) : fp32.quantum x = -149 := if_pos (by simp [Dy.isZero, h])

theorem quantum_of_ne_zero {x : Dy} (h : x.m ≠ 0) : fp32.quantum x = max (-149) (x.log2 - 23) :=
  if_neg (by simp [Dy.isZero_eq_false h])

/-- The binade of a magnitude: its grid step, and how many of those steps it holds. -/
theorem quantum_binade (x : Dy) : ∃ j : Nat, fp32.quantum x = (j : Int) - 149 ∧ x.floorAt (fp32.quantum x) < 2 ^ 24
    ∧ (j = 0 ∨ 2 ^ 23 ≤ x.floorAt (fp32.quantum x)) := by
  obtain ⟨hlo, hhi⟩ := x.floorAt_bounds (fp32.quantum x)
  have hp : (0 : ℝ) < 2 ^ fp32.quantum x := by positivity
  by_cases hz : x.m = 0
  · have hmag : x.mag = 0 := by simp [Dy.mag, hz]
    refine ⟨0, quantum_zero hz, ?_, .inl rfl⟩
    have : (x.floorAt (fp32.quantum x) : ℝ) ≤ 0 := by
      rw [hmag] at hlo
      exact nonpos_of_mul_nonpos_left hlo hp
    have : x.floorAt (fp32.quantum x) ≤ 0 := by exact_mod_cast this
    omega
  · have hq := quantum_of_ne_zero hz
    obtain ⟨h1, h2⟩ := Dy.log2_bounds hz
    refine ⟨(fp32.quantum x + 149).toNat, by omega, ?_, ?_⟩
    · have : (x.floorAt (fp32.quantum x) : ℝ) * 2 ^ fp32.quantum x < 2 ^ 24 * 2 ^ fp32.quantum x := by
        refine (hlo.trans_lt h2).trans_le ?_
        rw [← zpow_natCast, ← zpow_add₀ two_ne_zero]
        exact zpow_le_zpow_right₀ one_le_two (by push_cast; omega)
      exact_mod_cast lt_of_mul_lt_mul_right this hp.le
    · rcases eq_or_lt_of_le (show -149 ≤ fp32.quantum x by omega) with he | hgt
      · exact .inl (by omega)
      · right
        have : (2 : ℝ) ^ 23 * 2 ^ fp32.quantum x < (x.floorAt (fp32.quantum x) + 1) * 2 ^ fp32.quantum x := by
          refine (le_trans ?_ h1).trans_lt hhi
          rw [← zpow_natCast, ← zpow_add₀ two_ne_zero]
          exact zpow_le_zpow_right₀ one_le_two (by push_cast; omega)
        have : (2 : ℝ) ^ 23 < x.floorAt (fp32.quantum x) + 1 := lt_of_mul_lt_mul_right this hp.le
        exact Nat.lt_succ_iff.1 (by exact_mod_cast this)

/-- What x stands for lies a part t of a step of x's own exponent above x. -/
theorem Dy.StandsFor.exists_part {x : Dy} {sticky : Bool} {v : ℝ} (h : x.StandsFor sticky v) : ∃ t : ℝ, v = (x.m + t) * 2 ^ x.e
    ∧ 0 ≤ t ∧ t < 1 ∧ (sticky = false → t = 0) ∧ (sticky = true → 0 < t ∧ x.e < fp32.quantum x) := by
  have he : (0 : ℝ) < 2 ^ x.e := by positivity
  cases sticky
  · obtain rfl : v = x.mag := h
    exact ⟨0, by rw [Dy.mag, add_zero], le_rfl, one_pos, fun _ => rfl, fun h => absurd h Bool.false_ne_true⟩
  · obtain ⟨h1, h2, hq⟩ : x.mag < v ∧ v < x.mag + 2 ^ x.e ∧ x.e < fp32.quantum x := h
    have ht0 : 0 < (v - x.mag) / 2 ^ x.e := div_pos (by linarith) he
    refine ⟨(v - x.mag) / 2 ^ x.e, ?_, ht0.le, (div_lt_one he).2 (by linarith), fun h => absurd h.symm Bool.false_ne_true,
      fun _ => ⟨ht0, hq⟩⟩
    rw [add_mul, div_mul_cancel₀ _ he.ne', Dy.mag]
    ring

/-- v lies in step g of a grid of the given step, and r is its end that is nearer to v, of two equally near the even one. -/
structure RoundsTo (g : Nat) (step v : ℝ) (r : Nat) : Prop where
  lower : g * step ≤ v
  upper : v ≤ (g + 1) * step
  nearer : (r = g ∧ 2 * v ≤ (2 * g + 1) * step ∧ (g % 2 = 1 → 2 * v < (2 * g + 1) * step))
    ∨ (r = g + 1 ∧ (2 * g + 1) * step ≤ 2 * v ∧ (g % 2 = 0 → (2 * g + 1) * step < 2 * v))

theorem RoundsTo.scale {g r : Nat} {step v : ℝ} (h : RoundsTo g step v r) {k : ℝ} (hk : 0 < k) : RoundsTo g (step * k) (v * k) r := by
  have hle {a b : ℝ} (h : a ≤ b) : a * k ≤ b * k := mul_le_mul_of_nonneg_right h hk.le
  have hlt {a b : ℝ} (h : a < b) : a * k < b * k := mul_lt_mul_of_pos_right h hk
  refine ⟨by linarith [hle h.lower], by linarith [hle h.upper], h.nearer.imp ?_ ?_⟩
  · rintro ⟨hr, ha, ho⟩
    exact ⟨hr, by linarith [hle ha], fun hg => by linarith [hlt (ho hg)]⟩
  · rintro ⟨hr, hb, ho⟩
    exact ⟨hr, by linarith [hle hb], fun hg => by linarith [hlt (ho hg)]⟩

/-- Rounding at the middle of a step of 2 w units, from g steps, `rest` whole units and a part t of one more. -/
theorem roundsTo_of_rest {g w rest : Nat} {t : ℝ} {sticky : Bool} (hrest : rest < 2 * w) (h0 : 0 ≤ t) (h1 : t < 1)
    (hexact : sticky = false → t = 0) (hsticky : sticky = true → 0 < t) : RoundsTo g (2 * w) (g * (2 * w) + rest + t)
      (if (decide (2 * w < 2 * rest) || (2 * rest == 2 * w && (sticky || g % 2 == 1))) = true then g + 1 else g) := by
  have hin : (rest : ℝ) + 1 ≤ 2 * w := by exact_mod_cast hrest
  refine ⟨by linarith [rest.cast_nonneg (α := ℝ)], by linarith, ?_⟩
  rcases lt_trichotomy rest w with hlt | heq | hgt
  · have : (rest : ℝ) + 1 ≤ w := by exact_mod_cast hlt
    rw [if_neg (by simp; omega)]
    exact .inl ⟨rfl, by linarith, fun _ => by linarith⟩
  · have : (rest : ℝ) = w := by exact_mod_cast heq
    cases sticky
    · rw [hexact rfl]
      rcases Nat.mod_two_eq_zero_or_one g with hg | hg
      · rw [if_neg (by simp [hg]; omega)]
        exact .inl ⟨rfl, by linarith, fun h => absurd h (by omega)⟩
      · rw [if_pos (by simp [hg]; omega)]
        exact .inr ⟨rfl, by linarith, fun h => absurd h (by omega)⟩
    · have := hsticky rfl
      rw [if_pos (by simp; omega)]
      exact .inr ⟨rfl, by linarith, fun _ => by linarith⟩
  · have : (w : ℝ) + 1 ≤ rest := by exact_mod_cast hgt
    rw [if_pos (by simp; omega)]
    exact .inr ⟨rfl, by linarith, fun _ => by linarith⟩

/-- Rounding takes what x stands for to the nearer end of its step of the grid. -/
theorem Dy.StandsFor.roundsTo {x : Dy} {sticky : Bool} {v : ℝ} (h : x.StandsFor sticky v) {q : Int} (hq : fp32.quantum x = q) :
    RoundsTo (x.floorAt q) (2 ^ q) v (x.round .rne 0 sticky q) := by
  obtain ⟨t, rfl, ht0, ht1, hexact, hsticky⟩ := h.exists_part
  rcases le_or_gt q x.e with hle | hgt
  · have hp : (0 : ℝ) < 2 ^ q := by positivity
    obtain rfl : t = 0 := hexact (Bool.eq_false_iff.2 fun hs => absurd (hsticky hs).2 (by omega))
    have hv : (x.m + 0) * 2 ^ x.e = (x.floorAt q : ℝ) * 2 ^ q := by
      rw [Dy.floorAt, if_pos hle, two_zpow_split hle]; push_cast; ring
    rw [hv]
    exact ⟨le_rfl, by linarith, .inl ⟨if_pos hle, by linarith, fun _ => by linarith⟩⟩
  · obtain ⟨k, hk⟩ : ∃ k, (q - x.e).toNat = k + 1 := ⟨(q - x.e).toNat - 1, by omega⟩
    have hpow : 2 ^ (q - x.e).toNat = 2 * 2 ^ k := by rw [hk, pow_succ, mul_comm]
    have hfloor : x.floorAt q = x.m / (2 * 2 ^ k) := by rw [Dy.floorAt, if_neg (by omega), hpow]
    have hround := roundsTo_of_rest (g := x.floorAt q) (w := 2 ^ k) (Nat.mod_lt x.m (by positivity)) ht0 ht1 hexact fun hs => (hsticky hs).1
    have hm : (x.floorAt q * (2 * (2 ^ k : ℕ)) + (x.m % (2 * 2 ^ k) : ℕ) : ℝ) = x.m := by
      rw [hfloor]; exact_mod_cast Nat.div_add_mod' x.m (2 * 2 ^ k)
    have hstep : (2 : ℝ) ^ q = 2 * (2 ^ k : ℕ) * 2 ^ x.e := by rw [two_zpow_split hgt.le, hk]; push_cast; ring
    rw [hm] at hround
    rw [Dy.round, if_neg (by omega), hpow, hstep]
    exact hround.scale (by positivity)

theorem nearestCode_roundMag {x : Dy} {sticky : Bool} {v : ℝ} (h : x.StandsFor sticky v) :
    NearestCode (fp32.roundMag .rne 0 sticky x) v := by
  obtain ⟨j, hq, hlt, hj⟩ := quantum_binade x
  obtain ⟨hlo, hhi, hnear⟩ := h.roundsTo rfl
  have hmag : fp32.roundMag .rne 0 sticky x = j * 2 ^ 23 + x.round .rne 0 sticky (fp32.quantum x) := by
    have hj' : (fp32.quantum x - fp32.qmin).toNat = j := by rw [hq, show fp32.qmin = -149 from rfl]; omega
    rw [FFmt.roundMag, hj']
    rfl
  rw [hmag]
  generalize x.floorAt (fp32.quantum x) = g at *
  obtain ⟨c, hc⟩ : ∃ c, c = j * 2 ^ 23 + g := ⟨_, rfl⟩
  have hpar : c % 2 = g % 2 := by omega
  have h0 : gridVal c = g * 2 ^ fp32.quantum x := by rw [hc, gridVal_binade hlt.le hj, hq]
  have h1 : gridVal (c + 1) = (g + 1) * 2 ^ fp32.quantum x := by
    rw [hc, Nat.add_assoc, gridVal_binade hlt (hj.imp_right (by omega)), hq]; push_cast; rfl
  rcases hnear with ⟨hr, ha, ho⟩ | ⟨hr, hb, ho⟩
  · rw [hr, ← hc]
    exact .lower (by rwa [h0]) (by rw [h0, h1]; linarith) fun hodd => by rw [h0, h1]; linarith [ho (by omega)]
  · rw [hr, ← Nat.add_assoc, ← hc]
    exact .upper (by rwa [h1]) (by rw [h0, h1]; linarith) fun heven => by rw [h0, h1]; linarith [ho (by omega)]

/-! What FP32 makes of a rounded value. -/

/-- The magnitude code that x rounds to, infinity's from the end of the finite ones on (R66). -/
def f32Mag (sticky : Bool) (x : Dy) : Nat := min (fp32.roundMag .rne 0 sticky x) 0x7F800000

theorem f32Mag_le (sticky : Bool) (x : Dy) : f32Mag sticky x ≤ 0x7F800000 := min_le_right _ _

theorem toF32Sticky_eq (x : Dy) (sticky : Bool) : toF32Sticky x sticky = BitVec.ofNat 32 (fp32.code x.neg (f32Mag sticky x)) := by
  have he : fp32.encode .rne false 0 sticky (.fin x) = if fp32.roundMag .rne 0 sticky x ≤ 0x7F7FFFFF
      then fp32.code x.neg (fp32.roundMag .rne 0 sticky x) else fp32.code x.neg 0x7F800000 := rfl
  rw [toF32Sticky, he, f32Mag]
  split
  · rw [min_eq_left (by omega)]
  · rw [min_eq_right (by omega)]

theorem toNat_f32 (neg : Bool) {c : Nat} (h : c ≤ 0x7F800000) :
    (BitVec.ofNat 32 (fp32.code neg c)).toNat = (if neg then 2 ^ 31 else 0) + c := by
  rw [BitVec.toNat_ofNat]
  cases neg
  · exact (Nat.mod_eq_of_lt (show c < 2 ^ 32 by omega)).trans (Nat.zero_add c).symm
  · exact Nat.mod_eq_of_lt (show 2 ^ 31 + c < 2 ^ 32 by omega)

theorem toNat_toF32Sticky {x : Dy} (h : x.neg = false) (sticky : Bool) : (toF32Sticky x sticky).toNat = f32Mag sticky x := by
  rw [toF32Sticky_eq, toNat_f32 _ (f32Mag_le _ _), h]
  exact Nat.zero_add _

theorem flag_toF32Sticky (x : Dy) (sticky : Bool) : flag (toF32Sticky x sticky) 31 = x.neg := by
  have hc := f32Mag_le sticky x
  have hn := toNat_f32 x.neg hc
  rw [toF32Sticky_eq, flag, BitVec.getLsbD, hn, Nat.testBit_eq_decide_div_mod_eq]
  cases x.neg
  · exact decide_eq_false (by simp; omega)
  · exact decide_eq_true (by simp; omega)

theorem nfld_toF32Sticky (x : Dy) (sticky : Bool) : nfld (toF32Sticky x sticky) 0 31 = f32Mag sticky x := by
  have hc := f32Mag_le sticky x
  have hn := toNat_f32 x.neg hc
  rw [toF32Sticky_eq, nfld, BitVec.extractLsb'_toNat, hn, Nat.shiftRight_zero]
  cases x.neg
  · simp; omega
  · simp; omega

theorem fkey_toF32Sticky (x : Dy) (sticky : Bool) :
    fkey (toF32Sticky x sticky) = if x.neg then -(f32Mag sticky x : Int) - 1 else f32Mag sticky x := by
  rw [fkey, flag_toF32Sticky, nfld_toF32Sticky]

theorem f32Mag_mono {x y : Dy} {s t : Bool} {v u : ℝ} (hx : x.StandsFor s v) (hy : y.StandsFor t u) (h : v ≤ u) :
    f32Mag s x ≤ f32Mag t y :=
  min_le_min_right _ ((nearestCode_roundMag hx).mono (nearestCode_roundMag hy) h)

/-- The sum of a magnitude with its upper neighbour, twice the middle between them. -/
def twiceMiddle (n : Nat) : Dy := Dy.sum [fp32.magnitude false n, fp32.magnitude false (n + 1)]

theorem real_twiceMiddle (n : Nat) : (twiceMiddle n).real = gridVal n + gridVal (n + 1) := Dy.real_sum_pair _ _

/-- Code r is the FP32 magnitude nearest to an exact one that `cmp` compares twice middles with: the middles below r compare as not
above it, those above r as not below it, and none as equal to it for odd r. -/
def ComparesNearest (r : Nat) (cmp : Dy → Dy × Dy) : Prop := r ≤ 0x7F800000
  ∧ (r ≠ 0 → (cmp (twiceMiddle (r - 1))).1.le (cmp (twiceMiddle (r - 1))).2 = true
      ∧ (r % 2 = 1 → (cmp (twiceMiddle (r - 1))).1.lt (cmp (twiceMiddle (r - 1))).2 = true))
  ∧ (r < 0x7F800000 → (cmp (twiceMiddle r)).2.le (cmp (twiceMiddle r)).1 = true
      ∧ (r % 2 = 1 → (cmp (twiceMiddle r)).2.lt (cmp (twiceMiddle r)).1 = true))

/-- Rounding finds the nearest magnitude by every comparison that orders twice middles around twice the exact value. -/
theorem comparesNearest_f32Mag {x : Dy} {sticky : Bool} {v : ℝ} (h : x.StandsFor sticky v) {cmp : Dy → Dy × Dy}
    (hlt : ∀ m : Dy, 0 ≤ m.real → ((cmp m).1.real < (cmp m).2.real ↔ m.real < 2 * v))
    (hgt : ∀ m : Dy, 0 ≤ m.real → ((cmp m).2.real < (cmp m).1.real ↔ 2 * v < m.real)) :
    ComparesNearest (f32Mag sticky x) cmp := by
  have hr := nearestCode_roundMag h
  have hpos (n : Nat) : 0 ≤ (twiceMiddle n).real := by
    rw [real_twiceMiddle]; exact add_nonneg (gridVal_nonneg _) (gridVal_nonneg _)
  have hle (n : Nat) : (cmp (twiceMiddle n)).1.real ≤ (cmp (twiceMiddle n)).2.real ↔ (twiceMiddle n).real ≤ 2 * v := by
    rw [← not_lt, ← not_lt, hgt _ (hpos n)]
  have hge (n : Nat) : (cmp (twiceMiddle n)).2.real ≤ (cmp (twiceMiddle n)).1.real ↔ 2 * v ≤ (twiceMiddle n).real := by
    rw [← not_lt, ← not_lt, hlt _ (hpos n)]
  simp only [ComparesNearest, Dy.le_iff, Dy.lt_iff, hle, hge, hlt _ (hpos _), hgt _ (hpos _), real_twiceMiddle]
  refine ⟨f32Mag_le _ _, fun h0 => ?_, fun hfin => ?_⟩
  · rw [Nat.sub_add_cancel (Nat.pos_of_ne_zero h0)]
    rcases le_or_gt (fp32.roundMag .rne 0 sticky x) 0x7F800000 with hc | hc
    · rw [f32Mag, min_eq_left hc] at h0 ⊢
      exact ⟨hr.below h0, hr.belowOdd⟩
    · rw [f32Mag, min_eq_right hc.le]
      have h1 := gridVal_strictMono.monotone (show 0x7F800000 - 1 ≤ fp32.roundMag .rne 0 sticky x - 1 by omega)
      have h2 := gridVal_strictMono.monotone hc.le
      exact ⟨by linarith [hr.below (by omega)], fun ho => absurd ho (by decide)⟩
  · have hc : f32Mag sticky x = fp32.roundMag .rne 0 sticky x := min_eq_left (by unfold f32Mag at hfin; omega)
    rw [hc]
    exact ⟨hr.above, hr.aboveOdd⟩

end Sys2Proof
end

section
/-! SUPPORT. The functions of R76: quotients and roots round what stands for the exact one; the fixed-point exponential and
logarithm stay between two powers. -/

namespace Sys2Proof

open Machine

/-! The correctly rounded functions (R76). -/

theorem decode_fin_m {code : Nat} {x : Dy} (h : fp32.decode code = .fin x) : x.m < 2 ^ 24 := by
  have hmag (neg : Bool) (c : Nat) : (fp32.magnitude neg c).m < 2 ^ 24 := by
    have hr : c % 2 ^ 23 < 2 ^ 23 := Nat.mod_lt _ (by decide)
    rw [FFmt.magnitude]
    split
    · exact hr.trans (by decide)
    · exact show 2 ^ 23 + c % 2 ^ 23 < 2 ^ 24 by omega
  have hd : fp32.decode code = if code % 2 ^ 31 ≤ 0x7F7FFFFF then .fin (fp32.magnitude (code / 2 ^ 31 % 2 == 1) (code % 2 ^ 31))
      else if code % 2 ^ 31 = 0x7F800000 then .inf (code / 2 ^ 31 % 2 == 1) else .nan := rfl
  rw [hd] at h
  split at h
  · exact Num.fin.inj h ▸ hmag _ _
  · split at h <;> exact Num.noConfusion h

theorem le_quantum (x : Dy) : -149 ≤ fp32.quantum x := by
  obtain ⟨j, hq, -⟩ := quantum_binade x
  omega

/-- The step of the grid is beyond the last place of what has 25 bits or more. -/
theorem lt_quantum {x : Dy} (h : 2 ^ 24 ≤ x.m) : x.e < fp32.quantum x := by
  have hz : x.m ≠ 0 := by omega
  have hl : 24 ≤ Nat.log2 x.m := (Nat.le_log2 hz).2 h
  rw [quantum_of_ne_zero hz, Dy.log2]
  omega

/-- A quotient or root u cut to whole steps of an exponent stands for the exact one, with `sticky` told whether it is exact. -/
theorem Dy.standsFor_of_floor {x : Dy} {sticky : Bool} {u v : ℝ} (hv : v = u * 2 ^ x.e) (hlo : x.m ≤ u) (hhi : u < x.m + 1)
    (hexact : sticky = false → u = x.m) (hsticky : sticky = true → u ≠ x.m ∧ x.e < fp32.quantum x) : x.StandsFor sticky v := by
  have he : (0 : ℝ) < 2 ^ x.e := by positivity
  rw [hv]
  cases sticky
  · rw [hexact rfl]; exact rfl
  · obtain ⟨hne, hq⟩ := hsticky rfl
    have h1 := mul_lt_mul_of_pos_right (lt_of_le_of_ne hlo hne.symm) he
    have h2 := mul_lt_mul_of_pos_right hhi he
    exact ⟨h1, by rw [Dy.mag]; linarith, hq⟩

/-- The quotient that division rounds. -/
def quotient (x y : Dy) : Dy := ⟨x.neg != y.neg, x.m * 2 ^ 100 / y.m, x.e - y.e - 100⟩

theorem divF32_fin {x y : Dy} (hy : y.m ≠ 0) :
    divF32 (.fin x) (.fin y) = toF32Sticky (quotient x y) (x.m * 2 ^ 100 % y.m != 0) := by
  rw [divF32, Dy.isZero_eq_false hy]
  rfl

theorem standsFor_quotient (x : Dy) {y : Dy} (hy : y.m ≠ 0) (hy24 : y.m < 2 ^ 24) :
    (quotient x y).StandsFor (x.m * 2 ^ 100 % y.m != 0) (x.mag / y.mag) := by
  have hpos : (0 : ℝ) < y.m := by exact_mod_cast Nat.pos_of_ne_zero hy
  obtain ⟨n, hn⟩ : ∃ n, n = x.m * 2 ^ 100 := ⟨_, rfl⟩
  have hq : (quotient x y).m = n / y.m := by rw [hn]; rfl
  rw [← hn]
  refine Dy.standsFor_of_floor (u := n / y.m) ?_ ?_ ?_ (fun hs => ?_) (fun hs => ?_)
  · have he : (quotient x y).e = x.e - y.e - 100 := rfl
    rw [he, hn, Dy.mag, Dy.mag, zpow_sub₀ two_ne_zero, zpow_sub₀ two_ne_zero]
    push_cast
    field_simp
    norm_cast
  · rw [hq]; exact Nat.cast_div_le
  · rw [hq, div_lt_iff₀ hpos]
    exact_mod_cast Nat.lt_mul_of_div_lt (Nat.lt_succ_self _) (Nat.pos_of_ne_zero hy)
  · have hdvd : y.m ∣ n := Nat.dvd_of_mod_eq_zero (by simpa using hs)
    rw [hq, Nat.cast_div hdvd hpos.ne']
  · have hmod : n % y.m ≠ 0 := by simpa using hs
    refine ⟨fun heq => hmod ?_, lt_quantum ?_⟩
    · rw [div_eq_iff hpos.ne', hq] at heq
      have : n = n / y.m * y.m := by exact_mod_cast heq
      rw [this]; exact Nat.mul_mod_left _ _
    · have hx : x.m ≠ 0 := fun h0 => hmod (by rw [hn, h0, Nat.zero_mul, Nat.zero_mod])
      rw [hq, Nat.le_div_iff_mul_le (Nat.pos_of_ne_zero hy), hn]
      calc 2 ^ 24 * y.m ≤ 2 ^ 24 * 2 ^ 24 := Nat.mul_le_mul_left _ hy24.le
        _ ≤ 1 * 2 ^ 100 := by decide
        _ ≤ x.m * 2 ^ 100 := Nat.mul_le_mul_right _ (Nat.pos_of_ne_zero hx)

/-- The model's root is the library's. -/
theorem isqrt_eq {k n : Nat} (h : n < 4 ^ k) : isqrt k n = Nat.sqrt n := by
  induction k generalizing n with
  | zero =>
    rw [show n = 0 by simpa using h]
    rfl
  | succ k ih =>
    have hk : n / 4 < 4 ^ k := by rw [Nat.div_lt_iff_lt_mul (by decide), ← pow_succ]; exact h
    have h1 := Nat.sqrt_le (n / 4)
    have h2 := Nat.lt_succ_sqrt (n / 4)
    rw [isqrt, ih hk, Nat.eq_sqrt]
    generalize Nat.sqrt (n / 4) = r at *
    have hlo : 2 * r * (2 * r) = 4 * (r * r) := by ring
    have hhi : (2 * r + 1 + 1) * (2 * r + 1 + 1) = 4 * ((r + 1) * (r + 1)) := by ring
    have h2 : n / 4 + 1 ≤ (r + 1) * (r + 1) := h2
    split
    · next hle => exact ⟨hle, by omega⟩
    · next hgt => exact ⟨by omega, by omega⟩

theorem sqrt_mul_two_zpow (a : ℝ) (k : Int) : √(a * 2 ^ (2 * k)) = √a * 2 ^ k := by
  rw [mul_comm 2 k, zpow_mul, zpow_two, ← pow_two, Real.sqrt_mul' _ (by positivity), Real.sqrt_sq (by positivity)]

/-- An even exponent at most the given one, by a doubling of the magnitude where the given one is odd. -/
theorem evenExp_spec {x : Dy} (h0 : x.m ≠ 0) (h24 : x.m < 2 ^ 24) : ∃ k : Int, (evenExp x).e = 2 * k ∧ (evenExp x).mag = x.mag
    ∧ 0 < (evenExp x).m ∧ (evenExp x).m < 2 ^ 25 := by
  rw [evenExp]
  split
  · next h => exact ⟨x.e / 2, by omega, rfl, by omega, by omega⟩
  · next h =>
    refine ⟨(x.e - 1) / 2, by dsimp only; omega, ?_, by dsimp only; omega, by dsimp only; omega⟩
    simp only [Dy.mag, zpow_sub_one₀ (two_ne_zero (α := ℝ))]
    push_cast
    ring

/-- The floor of a square root, with whether it is less than the root, stands for the root. -/
theorem Dy.standsFor_sqrt {x : Dy} {b : Bool} {u : ℝ} (hlo : x.m * x.m ≤ u) (hhi : u < (x.m + 1) * (x.m + 1))
    (hb : b = true ↔ u ≠ x.m * x.m) (h24 : 2 ^ 24 ≤ x.m) : x.StandsFor b (√u * 2 ^ x.e) := by
  have hm : (0 : ℝ) ≤ x.m := Nat.cast_nonneg _
  have heq : √u = x.m ↔ u = x.m * x.m := by rw [Real.sqrt_eq_iff_mul_self_eq ((mul_nonneg hm hm).trans hlo) hm, eq_comm]
  refine Dy.standsFor_of_floor rfl (Real.le_sqrt_of_sq_le (by rwa [sq])) ?_ (fun hs => ?_) (fun hs => ?_)
  · rw [Real.sqrt_lt' (by positivity), sq]; exact hhi
  · exact heq.2 (not_ne_iff.1 fun h => by rw [hb.2 h] at hs; exact Bool.noConfusion hs)
  · exact ⟨fun h => hb.1 hs (heq.1 h), lt_quantum h24⟩

/-- The root that FSQRT rounds. -/
def rootOf (x : Dy) : Dy := ⟨false, Nat.sqrt ((evenExp x).m * 2 ^ 128), (evenExp x).e / 2 - 64⟩

theorem standsFor_rootOf {x : Dy} (h0 : x.m ≠ 0) (h24 : x.m < 2 ^ 24) :
    (rootOf x).StandsFor ((rootOf x).m * (rootOf x).m != (evenExp x).m * 2 ^ 128) √x.mag := by
  obtain ⟨k, he, hmag, hpos, hlt⟩ := evenExp_spec h0 h24
  obtain ⟨n, hn⟩ : ∃ n, n = (evenExp x).m * 2 ^ 128 := ⟨_, rfl⟩
  have hm : (rootOf x).m = Nat.sqrt n := by rw [hn]; rfl
  have hv : √x.mag = √(n : ℝ) * 2 ^ (rootOf x).e := by
    have hre : (rootOf x).e = k - 64 := by show (evenExp x).e / 2 - 64 = _; omega
    rw [hre, ← sqrt_mul_two_zpow, ← hmag, Dy.mag, he, hn, mul_sub, zpow_sub₀ two_ne_zero]
    push_cast
    congr 1
    field_simp
    norm_cast
  rw [hv, ← hn, hm]
  refine Dy.standsFor_sqrt ?_ ?_ ?_ ?_ <;> rw [hm]
  · exact_mod_cast Nat.sqrt_le n
  · exact_mod_cast Nat.lt_succ_sqrt n
  · rw [bne_iff_ne, ne_comm]; exact_mod_cast Iff.rfl
  · rw [Nat.le_sqrt, hn]
    calc 2 ^ 24 * 2 ^ 24 ≤ 1 * 2 ^ 128 := by decide
      _ ≤ (evenExp x).m * 2 ^ 128 := Nat.mul_le_mul_right _ hpos

theorem fsqrt_pos {a : Word} {x : Dy} (h : ofF32 a = .fin x) (h0 : x.m ≠ 0) (hn : x.neg = false) (h24 : x.m < 2 ^ 24) :
    fsqrt a = toF32Sticky (rootOf x) ((rootOf x).m * (rootOf x).m != (evenExp x).m * 2 ^ 128) := by
  obtain ⟨-, -, -, -, hlt⟩ := evenExp_spec h0 h24
  have hr : isqrt 96 ((evenExp x).m * 2 ^ 128) = (rootOf x).m := isqrt_eq (by
    calc (evenExp x).m * 2 ^ 128 < 2 ^ 25 * 2 ^ 128 := Nat.mul_lt_mul_of_pos_right hlt (by decide)
      _ ≤ 4 ^ 96 := by decide)
  have hz := Dy.isZero_eq_false h0
  simp only [fsqrt, h, hz, hn, hr, Bool.false_eq_true, if_false]
  rfl

/-- The reciprocal root that FRSQ rounds. -/
def recipRootOf (x : Dy) : Dy := ⟨false, Nat.sqrt (2 ^ 192 / (evenExp x).m), -96 - (evenExp x).e / 2⟩

theorem standsFor_recipRootOf {x : Dy} (h0 : x.m ≠ 0) (h24 : x.m < 2 ^ 24) :
    (recipRootOf x).StandsFor ((recipRootOf x).m * (recipRootOf x).m * (evenExp x).m != 2 ^ 192) (1 / √x.mag) := by
  obtain ⟨k, he, hmag, hpos, hlt⟩ := evenExp_spec h0 h24
  obtain ⟨r, hr⟩ : ∃ r, r = (recipRootOf x).m := ⟨_, rfl⟩
  have hm : r = Nat.sqrt (2 ^ 192 / (evenExp x).m) := hr
  have hposR : (0 : ℝ) < (evenExp x).m := by exact_mod_cast hpos
  have hv : 1 / √x.mag = √(2 ^ 192 / (evenExp x).m) * 2 ^ (recipRootOf x).e := by
    have hre : (recipRootOf x).e = -96 - k := by show -96 - (evenExp x).e / 2 = _; omega
    rw [hre, ← sqrt_mul_two_zpow, ← hmag, Dy.mag, he, one_div, ← Real.sqrt_inv, mul_sub, zpow_sub₀ two_ne_zero]
    congr 1
    field_simp
    norm_num
  rw [hv, ← hr]
  refine Dy.standsFor_sqrt ?_ ?_ ?_ ?_ <;> rw [← hr]
  · rw [le_div_iff₀ hposR]
    have := (Nat.le_div_iff_mul_le hpos).1 (hm ▸ Nat.sqrt_le (2 ^ 192 / (evenExp x).m))
    exact_mod_cast this
  · rw [div_lt_iff₀ hposR]
    have := (Nat.div_lt_iff_lt_mul hpos).1 (hm ▸ Nat.lt_succ_sqrt (2 ^ 192 / (evenExp x).m))
    exact_mod_cast this
  · rw [bne_iff_ne, ne_eq, ne_eq, div_eq_iff hposR.ne', eq_comm]; exact_mod_cast Iff.rfl
  · rw [hm, Nat.le_sqrt, Nat.le_div_iff_mul_le hpos]
    calc 2 ^ 24 * 2 ^ 24 * (evenExp x).m ≤ 2 ^ 24 * 2 ^ 24 * 2 ^ 25 := Nat.mul_le_mul_left _ hlt.le
      _ ≤ 2 ^ 192 := by decide

theorem frsq_pos {a : Word} {x : Dy} (h : ofF32 a = .fin x) (h0 : x.m ≠ 0) (hn : x.neg = false) :
    frsq a = toF32Sticky (recipRootOf x) ((recipRootOf x).m * (recipRootOf x).m * (evenExp x).m != 2 ^ 192) := by
  have hr : isqrt 100 (2 ^ 192 / (evenExp x).m) = (recipRootOf x).m :=
    isqrt_eq ((Nat.div_le_self _ _).trans_lt (by decide))
  have hz := Dy.isZero_eq_false h0
  simp only [frsq, h, hz, hn, hr, Bool.false_eq_true, if_false]
  rfl

/-! The reciprocal and the roots are the nearest magnitudes. -/

/-- A quotient of FP32 values is rounded to the nearest magnitude: y m is compared with 2 x. -/
theorem divF32_nearest (x : Dy) {y : Dy} (hy : y.m ≠ 0) (hy24 : y.m < 2 ^ 24) :
    flag (divF32 (.fin x) (.fin y)) 31 = (x.neg != y.neg)
    ∧ ComparesNearest (nfld (divF32 (.fin x) (.fin y)) 0 31) (fun m => (y.abs.mul m, x.abs.mul ⟨false, 2, 0⟩)) := by
  have hp : 0 < y.mag := Dy.mag_pos hy
  have htwo : (x.abs.mul ⟨false, 2, 0⟩).real = 2 * x.mag := by
    rw [Dy.real_mul, Dy.real_abs, mul_comm]
    simp [Dy.real, Dy.mag]
  rw [divF32_fin hy, nfld_toF32Sticky, flag_toF32Sticky]
  refine ⟨rfl, comparesNearest_f32Mag (standsFor_quotient x hy hy24) (fun m _ => ?_) (fun m _ => ?_)⟩
  · rw [htwo, Dy.real_mul, Dy.real_abs, ← mul_div_assoc, lt_div_iff₀ hp, mul_comm y.mag]
  · rw [htwo, Dy.real_mul, Dy.real_abs, ← mul_div_assoc, div_lt_iff₀ hp, mul_comm y.mag]

theorem frcp_nearest {a : Word} {x : Dy} (h : ofF32 a = .fin x) (h0 : x.m ≠ 0) :
    flag (frcp a) 31 = x.neg ∧ ComparesNearest (nfld (frcp a) 0 31) (fun m => (x.abs.mul m, ⟨false, 2, 0⟩)) := by
  obtain ⟨hsign, hnear⟩ := divF32_nearest Dy.one h0 (decode_fin_m h)
  rw [frcp, h]
  exact ⟨hsign.trans (Bool.false_bne x.neg), hnear⟩

theorem fsqrt_nearest {a : Word} {x : Dy} (h : ofF32 a = .fin x) (h0 : x.m ≠ 0) (hn : x.neg = false) :
    ComparesNearest (fsqrt a).toNat (fun m => (m.mul m, x.mul ⟨false, 4, 0⟩)) := by
  have h24 := decode_fin_m h
  have hfour : (x.mul ⟨false, 4, 0⟩).real = (2 * √x.mag) * (2 * √x.mag) := by
    rw [Dy.real_mul, Dy.real_of_pos hn, mul_mul_mul_comm, Real.mul_self_sqrt x.mag_nonneg, mul_comm]
    norm_num [Dy.real, Dy.mag]
  rw [fsqrt_pos h h0 hn h24, toNat_toF32Sticky rfl]
  refine comparesNearest_f32Mag (standsFor_rootOf h0 h24) (fun m hm => ?_) (fun m hm => ?_)
  · rw [hfour, Dy.real_mul, ← mul_self_lt_mul_self_iff hm (by positivity)]
  · rw [hfour, Dy.real_mul, ← mul_self_lt_mul_self_iff (by positivity) hm]

theorem frsq_nearest {a : Word} {x : Dy} (h : ofF32 a = .fin x) (h0 : x.m ≠ 0) (hn : x.neg = false) :
    ComparesNearest (frsq a).toNat (fun m => (x.mul (m.mul m), ⟨false, 4, 0⟩)) := by
  have hp : 0 < x.mag := Dy.mag_pos h0
  have hfour : (⟨false, 4, 0⟩ : Dy).real = x.mag * ((2 * (1 / √x.mag)) * (2 * (1 / √x.mag))) := by
    rw [mul_mul_mul_comm, one_div_mul_one_div, Real.mul_self_sqrt hp.le]
    have : (⟨false, 4, 0⟩ : Dy).real = 4 := by simp [Dy.real, Dy.mag]
    rw [this]; field_simp; norm_num
  rw [frsq_pos h h0 hn, toNat_toF32Sticky rfl]
  refine comparesNearest_f32Mag (standsFor_recipRootOf h0 (decode_fin_m h)) (fun m hm => ?_) (fun m hm => ?_)
  · rw [hfour, Dy.real_mul, Dy.real_of_pos hn, Dy.real_mul, mul_lt_mul_iff_right₀ hp, ← mul_self_lt_mul_self_iff hm (by positivity)]
  · rw [hfour, Dy.real_mul, Dy.real_of_pos hn, Dy.real_mul, mul_lt_mul_iff_right₀ hp, ← mul_self_lt_mul_self_iff (by positivity) hm]

/-! Powers of two in FP32. -/

/-- 2^k. -/
def Dy.twoPow (k : Int) : Dy := ⟨false, 1, k⟩

theorem Dy.mag_twoPow (k : Int) : (Dy.twoPow k).mag = 2 ^ k := by simp [Dy.twoPow, Dy.mag]

theorem Dy.standsFor_twoPow (k : Int) : (Dy.twoPow k).StandsFor false (2 ^ k) := (Dy.mag_twoPow k).symm

theorem nearestCode_gridVal (n : Nat) : NearestCode n (gridVal n) :=
  have h : gridVal n < gridVal (n + 1) := gridVal_strictMono n.lt_succ_self
  .lower le_rfl (by linarith) fun _ => by linarith

theorem NearestCode.unique {r t : Nat} {v : ℝ} (hr : NearestCode r v) (ht : NearestCode t v) : r = t :=
  le_antisymm (hr.mono ht le_rfl) (ht.mono hr le_rfl)

theorem gridVal_two_pow {n : Nat} (h : n ≠ 0) : gridVal (n * 2 ^ 23) = 2 ^ ((n : Int) - 127) := by
  have h0 : n * 2 ^ 23 % 2 ^ 23 = 0 := Nat.mul_mod_left n _
  have h1 : n * 2 ^ 23 / 2 ^ 23 = n := Nat.mul_div_cancel n (by decide)
  rw [gridVal_normal (by rwa [h1]), h1, h0, show (n : Int) - 127 = (23 : ℕ) + (-149 + (n : Int) - 1) by push_cast; ring,
    zpow_add₀ two_ne_zero, zpow_natCast]
  push_cast
  ring

/-- The codes of the powers that are normal numbers. -/
theorem f32Mag_twoPow {k : Int} (hlo : -126 ≤ k) (hhi : k ≤ 127) : (f32Mag false (.twoPow k) : Int) = (k + 127) * 2 ^ 23 := by
  obtain ⟨n, hn⟩ : ∃ n : Nat, (n : Int) = k + 127 := ⟨(k + 127).toNat, by omega⟩
  have hv : gridVal (n * 2 ^ 23) = 2 ^ k := by rw [gridVal_two_pow (by omega), hn, add_sub_cancel_right]
  have hr := (nearestCode_roundMag (Dy.standsFor_twoPow k)).unique (hv ▸ nearestCode_gridVal _)
  rw [f32Mag, hr]
  omega

/-- Powers below half of the least subnormal, and that half itself, round to zero. -/
theorem f32Mag_twoPow_low {k : Int} (h : k ≤ -150) : f32Mag false (.twoPow k) = 0 := by
  have h0 : gridVal 0 = 0 := by simp [gridVal_subnormal]
  have h1 : gridVal (0 + 1) = 2 ^ (-149 : Int) := by simp [gridVal_subnormal]
  have hk : (2 : ℝ) ^ k ≤ 2 ^ (-150 : Int) := zpow_le_zpow_right₀ one_le_two h
  have h2 : (2 : ℝ) ^ (-149 : Int) = 2 ^ (-150 : Int) * 2 := zpow_add_one₀ two_ne_zero (-150)
  have hz : NearestCode 0 ((2 : ℝ) ^ k) := .lower (by rw [h0]; positivity) (by rw [h0, h1, h2]; linarith) fun h => absurd h (by decide)
  rw [f32Mag, (nearestCode_roundMag (Dy.standsFor_twoPow k)).unique hz]
  rfl

/-- Powers beyond the largest finite number round to infinity. -/
theorem f32Mag_twoPow_high {k : Int} (h : 128 ≤ k) : f32Mag false (.twoPow k) = 0x7F800000 := by
  have hv : gridVal (255 * 2 ^ 23) = 2 ^ (128 : Int) := gridVal_two_pow (by decide)
  have hle : gridVal (255 * 2 ^ 23) ≤ 2 ^ k := hv ▸ zpow_le_zpow_right₀ one_le_two h
  exact min_eq_right ((nearestCode_gridVal _).mono (nearestCode_roundMag (Dy.standsFor_twoPow k)) hle)

/-! FEXP2 between the powers of two. -/

theorem expSum_mono {y z : Nat} (hy : y ≤ z) (n k : Nat) {t u : Nat} (ht : t ≤ u) : expSum y n k t ≤ expSum z n k u := by
  induction n generalizing k t u with
  | zero => exact le_rfl
  | succ n ih => exact Nat.add_le_add ht (ih _ (Nat.div_le_div_right (Nat.mul_le_mul ht hy)))

theorem ln2Fix_le : ln2Fix ≤ 2 ^ fixBits := by decide +kernel

/-- The exponential of a part of ln 2 is from one up to less than two. -/
theorem expFix_bounds {f : Nat} (h : f < 2 ^ fixBits) :
    2 ^ fixBits ≤ expFix (f * ln2Fix / 2 ^ fixBits) ∧ expFix (f * ln2Fix / 2 ^ fixBits) < 2 ^ (fixBits + 1) := by
  have hf : f * ln2Fix / 2 ^ fixBits ≤ ln2Fix :=
    Nat.div_le_of_le_mul (Nat.mul_le_mul_right _ h.le)
  have hmax : expFix ln2Fix < 2 ^ (fixBits + 1) := by decide +kernel
  exact ⟨Nat.le_add_right _ _, (expSum_mono hf _ _ le_rfl).trans_lt hmax⟩

/-- The whole part that FEXP2 takes is the floor. -/
theorem whole_eq {x : Dy} {k : Int} (hlo : k ≤ x.real) (hhi : x.real < k + 1) :
    x.steps (min x.e 0) / 2 ^ (-(min x.e 0)).toNat = k := by
  have hs := x.steps_mul (min_le_left x.e 0)
  have hp : (0 : ℝ) < 2 ^ min x.e 0 := by positivity
  obtain ⟨n, hn⟩ : ∃ n : Nat, min x.e 0 = -(n : Int) := ⟨(-(min x.e 0)).toNat, by omega⟩
  have hw : (2 : ℝ) ^ n * 2 ^ min x.e 0 = 1 := by rw [hn, zpow_neg, zpow_natCast]; exact mul_inv_cancel₀ (by positivity)
  rw [show (-(min x.e 0)).toNat = n by omega, Int.ediv_eq_iff_of_pos (by positivity)]
  constructor
  · have : (k * 2 ^ n : ℝ) * 2 ^ min x.e 0 ≤ x.steps (min x.e 0) * 2 ^ min x.e 0 := by rw [mul_assoc, hw, hs, mul_one]; exact hlo
    have := le_of_mul_le_mul_right this hp
    exact_mod_cast this
  · have : (x.steps (min x.e 0) : ℝ) * 2 ^ min x.e 0 < ((k + 1) * 2 ^ n) * 2 ^ min x.e 0 := by rw [mul_assoc, hw, hs, mul_one]; exact hhi
    have := lt_of_mul_lt_mul_right this hp.le
    rw [← add_one_mul]
    exact_mod_cast this

/-- The part of the argument above its floor, of which FEXP2 takes 192 bits. -/
theorem expFix_part_lt {x : Dy} {k : Int} (hlo : k ≤ x.real) (hhi : x.real < k + 1) :
    (x.sub (Dy.ofInt k)).floorAt (-(fixBits : Int)) < 2 ^ fixBits := by
  obtain ⟨h, -⟩ := (x.sub (Dy.ofInt k)).floorAt_bounds (-(fixBits : Int))
  rw [Dy.mag_eq_abs, Dy.real_sub, Dy.real_ofInt, abs_of_nonneg (by linarith), zpow_neg, ← div_eq_mul_inv,
    div_le_iff₀ (by positivity), zpow_natCast] at h
  have : ((x.sub (Dy.ofInt k)).floorAt (-(fixBits : Int)) : ℝ) < 2 ^ fixBits := by
    refine h.trans_lt ?_
    have hp : (0 : ℝ) < 2 ^ fixBits := by positivity
    nlinarith
  exact_mod_cast this

/-- What 2^x is, by where x lies: one end of the FP32 numbers, exactly a power, or the value of a sum that stands for one between two
powers. -/
theorem exp2F32_cases {x : Dy} {k : Int} (h0 : x.m ≠ 0) (hlo : k ≤ x.real) (hhi : x.real < k + 1) :
    (k < -150 ∧ exp2F32 x = 0) ∨ (128 ≤ k ∧ exp2F32 x = 0x7F800000) ∨ exp2F32 x = toF32 (.fin (.twoPow k))
    ∨ (x.real ≠ k ∧ ∃ d v, d.neg = false ∧ exp2F32 x = toF32Sticky d true ∧ d.StandsFor true v
      ∧ 2 ^ k ≤ v ∧ v ≤ (2 : ℝ) ^ (k + 1)) := by
  have hz := Dy.isZero_eq_false h0
  rcases le_or_gt 8 x.log2 with h8 | h8
  · have hbig : (256 : ℝ) ≤ x.mag := by
      have := (zpow_le_zpow_right₀ (one_le_two (α := ℝ)) h8).trans (Dy.log2_bounds h0).1
      norm_num at this; exact this
    cases hn : x.neg
    · refine .inr (.inl ⟨?_, by rw [exp2F32, hz, if_neg Bool.false_ne_true, if_pos h8, hn]; rfl⟩)
      rw [Dy.real_of_pos hn] at hhi
      have : (255 : ℝ) < k := by linarith
      have : (255 : Int) < k := by exact_mod_cast this
      omega
    · refine .inl ⟨?_, by rw [exp2F32, hz, if_neg Bool.false_ne_true, if_pos h8, hn]; rfl⟩
      rw [Dy.real_of_neg hn] at hlo
      have : (k : ℝ) ≤ -256 := by linarith
      have : k ≤ -256 := by exact_mod_cast this
      omega
  · right; right
    have hexp : exp2F32 x = if (x.sub (Dy.ofInt k)).isZero then toF32 (.fin (.twoPow k))
        else toF32Sticky ⟨false, expFix ((x.sub (Dy.ofInt k)).floorAt (-(fixBits : Int)) * ln2Fix / 2 ^ fixBits), k - fixBits⟩ true := by
      rw [exp2F32, hz, if_neg Bool.false_ne_true, if_neg (not_le.2 h8), whole_eq hlo hhi]
      rfl
    by_cases hx : x.real = k
    · exact .inl (hexp.trans (if_pos ((Dy.isZero_iff _).2 (by rw [Dy.real_sub, Dy.real_ofInt, hx, sub_self]))))
    · have hpart : (x.sub (Dy.ofInt k)).isZero ≠ true := by
        rw [ne_eq, Dy.isZero_iff, Dy.real_sub, Dy.real_ofInt, sub_eq_zero]; exact hx
      obtain ⟨h1, h2⟩ := expFix_bounds (expFix_part_lt hlo hhi)
      rw [if_neg hpart] at hexp
      generalize expFix _ = m at h1 h2 hexp
      refine .inr ⟨hx, ⟨false, m, k - fixBits⟩, (m + 1 / 2) * 2 ^ (k - fixBits : Int), rfl, hexp, ?_, ?_, ?_⟩
      · have hp : (0 : ℝ) < 2 ^ (k - fixBits : Int) := by positivity
        refine ⟨?_, ?_, lt_quantum (le_trans (by decide) h1)⟩
        · rw [Dy.mag]; dsimp only; linarith
        · rw [Dy.mag]; dsimp only; linarith
      · have h1 : (2 : ℝ) ^ fixBits ≤ m := by exact_mod_cast h1
        rw [two_zpow_split (show k - fixBits ≤ k by omega), show (k - (k - fixBits : Int)).toNat = fixBits by omega]
        exact mul_le_mul_of_nonneg_right (by linarith) (by positivity)
      · have h2 : (m : ℝ) + 1 ≤ 2 ^ (fixBits + 1) := by exact_mod_cast h2
        rw [two_zpow_split (show k - fixBits ≤ k + 1 by omega), show (k + 1 - (k - fixBits : Int)).toNat = fixBits + 1 by omega]
        exact mul_le_mul_of_nonneg_right (by linarith) (by positivity)

theorem toNat_twoPow (k : Int) : (toF32 (.fin (.twoPow k))).toNat = f32Mag false (.twoPow k) := toNat_toF32Sticky rfl false

/-- FEXP2 is between the powers of the integers next to its argument, and exact at an integer. -/
theorem exp2F32_between {x : Dy} {k : Int} (h0 : x.m ≠ 0) (hlo : k ≤ x.real) (hhi : x.real < k + 1) :
    f32Mag false (.twoPow k) ≤ (exp2F32 x).toNat ∧ (exp2F32 x).toNat ≤ f32Mag false (.twoPow (k + 1))
    ∧ (x.real ≤ k → exp2F32 x = toF32 (.fin (.twoPow k))) := by
  have hmono : f32Mag false (.twoPow k) ≤ f32Mag false (.twoPow (k + 1)) :=
    f32Mag_mono (Dy.standsFor_twoPow k) (Dy.standsFor_twoPow (k + 1)) (zpow_le_zpow_right₀ one_le_two (by omega))
  rcases exp2F32_cases h0 hlo hhi with ⟨hk, he⟩ | ⟨hk, he⟩ | he | ⟨hne, d, v, hd, he, hv, hvlo, hvhi⟩
  · have hz := f32Mag_twoPow_low hk.le
    exact ⟨by rw [hz]; exact Nat.zero_le _, by rw [he]; exact Nat.zero_le _,
      fun _ => by rw [he]; exact BitVec.eq_of_toNat_eq (by rw [toNat_twoPow, hz]; rfl)⟩
  · have hi := f32Mag_twoPow_high hk
    have hi1 := f32Mag_twoPow_high (show 128 ≤ k + 1 by omega)
    exact ⟨by rw [hi, he]; rfl, by rw [hi1, he]; rfl,
      fun _ => by rw [he]; exact BitVec.eq_of_toNat_eq (by rw [toNat_twoPow, hi]; rfl)⟩
  · rw [he, toNat_twoPow]
    exact ⟨le_rfl, hmono, fun _ => rfl⟩
  · rw [he, toNat_toF32Sticky hd]
    exact ⟨f32Mag_mono (Dy.standsFor_twoPow k) hv hvlo, f32Mag_mono hv (Dy.standsFor_twoPow (k + 1)) hvhi,
      fun h => absurd (le_antisymm h hlo) hne⟩

/-! FLOG2 between the logarithms of powers of two. -/

theorem artanhSum_mono {s u : Nat} (hs : s ≤ u) (n k : Nat) {p q : Nat} (hp : p ≤ q) : artanhSum s n k p ≤ artanhSum u n k q := by
  induction n generalizing k p q with
  | zero => exact le_rfl
  | succ n ih => exact Nat.add_le_add (Nat.div_le_div_right hp) (ih _ (Nat.div_le_div_right (Nat.mul_le_mul hp hs)))

/-- The argument (z - 1) / (z + 1) of the series for ln z, z = m / 2^k. -/
def artanhArg (m k : Nat) : Nat := (m - 2 ^ k) * 2 ^ fixBits / (m + 2 ^ k)

theorem lnFix_mono {m k n j : Nat} (h : artanhArg m k ≤ artanhArg n j) : lnFix m k ≤ lnFix n j :=
  Nat.mul_le_mul_left 2 (artanhSum_mono (Nat.div_le_div_right (Nat.mul_le_mul h h)) 70 0 h)

/-- The argument of a significand of 24 bits is at most that of the greatest. -/
theorem artanhArg_le {m k : Nat} (hk : k ≤ 23) (hlo : 2 ^ k ≤ m) (hhi : m < 2 ^ (k + 1)) : artanhArg m k ≤ artanhArg (2 ^ 24 - 1) 23 := by
  have hp : 2 ^ k ≤ 2 ^ 23 := Nat.pow_le_pow_right (by decide) hk
  rw [pow_succ] at hhi
  rw [artanhArg, artanhArg, Nat.le_div_iff_mul_le (by decide)]
  generalize 2 ^ k = p at *
  generalize 2 ^ fixBits = F
  obtain ⟨d, rfl⟩ : ∃ d, m = p + d := ⟨m - p, by omega⟩
  rw [Nat.add_sub_cancel_left]
  have hcross : d * (2 ^ 24 - 1 + 2 ^ 23) ≤ (2 ^ 24 - 1 - 2 ^ 23) * (p + d + p) := by omega
  have hpos : 0 < p + d + p := by omega
  refine Nat.le_of_mul_le_mul_right ?_ hpos
  calc d * F / (p + d + p) * (2 ^ 24 - 1 + 2 ^ 23) * (p + d + p)
      = d * F / (p + d + p) * (p + d + p) * (2 ^ 24 - 1 + 2 ^ 23) := Nat.mul_right_comm _ _ _
    _ ≤ d * F * (2 ^ 24 - 1 + 2 ^ 23) := Nat.mul_le_mul_right _ (Nat.div_mul_le_self _ _)
    _ = d * (2 ^ 24 - 1 + 2 ^ 23) * F := Nat.mul_right_comm _ _ _
    _ ≤ (2 ^ 24 - 1 - 2 ^ 23) * (p + d + p) * F := Nat.mul_le_mul_right _ hcross
    _ = (2 ^ 24 - 1 - 2 ^ 23) * F * (p + d + p) := Nat.mul_right_comm _ _ _

/-- The logarithm of a significand that is no power of two is more than zero and less than that of two. -/
theorem lnFix_bounds {m k : Nat} (hk : k ≤ 23) (hlo : 2 ^ k < m) (hhi : m < 2 ^ (k + 1)) : 0 < lnFix m k ∧ lnFix m k < ln2Fix := by
  have hmax : lnFix (2 ^ 24 - 1) 23 < ln2Fix := by decide +kernel
  refine ⟨?_, (lnFix_mono (artanhArg_le hk hlo.le hhi)).trans_lt hmax⟩
  have harg : 0 < artanhArg m k := by
    rw [pow_succ] at hhi
    have hp : 2 ^ k ≤ 2 ^ 23 := Nat.pow_le_pow_right (by decide) hk
    refine Nat.div_pos ?_ (by omega)
    calc m + 2 ^ k ≤ 1 * 2 ^ 25 := by omega
      _ ≤ (m - 2 ^ k) * 2 ^ fixBits := Nat.mul_le_mul (by omega) (by decide)
  have hsum : artanhArg m k / (2 * 0 + 1) ≤ artanhSum (artanhArg m k * artanhArg m k / 2 ^ fixBits) 70 0 (artanhArg m k) :=
    Nat.le_add_right _ _
  rw [Nat.mul_zero, Nat.zero_add, Nat.div_one] at hsum
  exact Nat.mul_pos (by decide) (harg.trans_le hsum)

/-- The part of the logarithm above its floor, of 192 bits. -/
def log2Part (x : Dy) : Nat := lnFix x.m (Nat.log2 x.m) * 2 ^ fixBits / ln2Fix

theorem log2Part_bounds {x : Dy} (h0 : x.m ≠ 0) (h24 : x.m < 2 ^ 24) (hne : x.m ≠ 2 ^ Nat.log2 x.m) :
    0 < log2Part x ∧ log2Part x < 2 ^ fixBits := by
  have hk : Nat.log2 x.m < 24 := (Nat.log2_lt h0).2 h24
  obtain ⟨hpos, hlt⟩ := lnFix_bounds (by omega) (lt_of_le_of_ne (Nat.log2_self_le h0) hne.symm) Nat.lt_log2_self
  refine ⟨Nat.div_pos ?_ (hpos.trans hlt), Nat.div_lt_of_lt_mul ?_⟩
  · exact ln2Fix_le.trans (Nat.le_mul_of_pos_left _ hpos)
  · exact Nat.mul_lt_mul_of_pos_right hlt (Nat.two_pow_pos _)

/-- A magnitude with the sign of x. -/
def Dy.signed (x : Dy) (v : ℝ) : ℝ := if x.neg then -v else v

/-- The order of rounded values follows that of the values they stand for, where the greater is not the one with the sign. -/
theorem fkey_mono {x y : Dy} {s t : Bool} {v u : ℝ} (hx : x.StandsFor s v) (hy : y.StandsFor t u)
    (hneg : y.neg = true → x.neg = true) (h : x.signed v ≤ y.signed u) : fkey (toF32Sticky x s) ≤ fkey (toF32Sticky y t) := by
  rw [Dy.signed, Dy.signed] at h
  rw [fkey_toF32Sticky, fkey_toF32Sticky]
  cases hxn : x.neg <;> cases hyn : y.neg <;> simp only [hxn, hyn, if_true, if_false, Bool.false_eq_true] at h ⊢
  · exact_mod_cast f32Mag_mono hx hy h
  · exact absurd (hneg hyn) (by rw [hxn]; exact Bool.false_ne_true)
  · omega
  · have := f32Mag_mono hy hx (neg_le_neg_iff.1 h)
    omega

theorem Dy.signed_ofInt (k : Int) : (Dy.ofInt k).signed (Dy.ofInt k).mag = k := Dy.real_ofInt k

theorem Dy.neg_ofInt (k : Int) : (Dy.ofInt k).neg = true ↔ k < 0 := decide_eq_true_iff

/-- The sum that FLOG2 rounds. -/
def log2Sum (x : Dy) : Dy := Dy.sum [Dy.ofInt x.log2, ⟨false, log2Part x, -(fixBits : Int)⟩]

/-- That sum stands for a value between the whole logarithms. It has the sign only above a negative one, and has it below one. -/
theorem log2Sum_between {x : Dy} (hpos : 0 < log2Part x) (hlt : log2Part x < 2 ^ fixBits) : ∃ v, (log2Sum x).StandsFor true v
    ∧ x.log2 ≤ (log2Sum x).signed v ∧ (log2Sum x).signed v ≤ x.log2 + 1
    ∧ ((log2Sum x).neg = true → x.log2 < 0) ∧ (x.log2 + 1 < 0 → (log2Sum x).neg = true) := by
  have hreal : (log2Sum x).real = x.log2 + log2Part x * 2 ^ (-(fixBits : Int)) := by
    rw [log2Sum, Dy.real_sum_pair, Dy.real_ofInt]; rfl
  have he : (log2Sum x).e = -(fixBits : Int) := rfl
  have hunit : (0 : ℝ) < 2 ^ (-(fixBits : Int)) := by positivity
  have hlo : (2 : ℝ) ^ (-(fixBits : Int)) ≤ log2Part x * 2 ^ (-(fixBits : Int)) :=
    le_mul_of_one_le_left hunit.le (by exact_mod_cast hpos)
  have hhi : log2Part x * 2 ^ (-(fixBits : Int)) + (2 : ℝ) ^ (-(fixBits : Int)) ≤ 1 := by
    have h1 : (log2Part x : ℝ) + 1 ≤ 2 ^ fixBits := by exact_mod_cast hlt
    rw [← add_one_mul, zpow_neg, zpow_natCast, ← div_eq_mul_inv, div_le_one (by positivity)]
    exact h1
  have hs : (log2Sum x).StandsFor true ((log2Sum x).mag + 2 ^ (-(fixBits : Int)) / 2) := by
    refine ⟨by linarith, by rw [he]; linarith, ?_⟩
    have hq := le_quantum (log2Sum x)
    rw [he, show (fixBits : Int) = 192 from rfl]
    omega
  have hmag := (log2Sum x).mag_nonneg
  refine ⟨_, hs, ?_⟩
  rw [Dy.signed]
  cases hn : (log2Sum x).neg
  · rw [Dy.real_of_pos hn] at hreal
    rw [if_neg Bool.false_ne_true]
    refine ⟨by linarith, by linarith, fun h => absurd h Bool.false_ne_true, fun h => ?_⟩
    have h : (x.log2 : ℝ) + 1 < 0 := by exact_mod_cast h
    linarith
  · rw [Dy.real_of_neg hn] at hreal
    rw [if_pos rfl]
    refine ⟨by linarith, by linarith, fun _ => ?_, fun _ => rfl⟩
    have h : (x.log2 : ℝ) < 0 := by linarith
    exact_mod_cast h

theorem flog2_pos {a : Word} {x : Dy} (h : ofF32 a = .fin x) (h0 : x.m ≠ 0) (hn : x.neg = false) : flog2 a
    = if x.m = 2 ^ Nat.log2 x.m then toF32 (.fin (Dy.ofInt x.log2)) else toF32Sticky (log2Sum x) true := by
  have hz := Dy.isZero_eq_false h0
  simp only [flog2, h, hz, hn, Bool.false_eq_true, if_false]
  rfl

/-- FLOG2 is between the logarithms of the powers of two next to its argument, and exact at one of them. -/
theorem flog2_between {a : Word} {x : Dy} (h : ofF32 a = .fin x) (h0 : x.m ≠ 0) (hn : x.neg = false) :
    fkey (toF32 (.fin (Dy.ofInt x.log2))) ≤ fkey (flog2 a)
    ∧ fkey (flog2 a) ≤ fkey (toF32 (.fin (Dy.ofInt (x.log2 + 1))))
    ∧ (x.m = 2 ^ Nat.log2 x.m → flog2 a = toF32 (.fin (Dy.ofInt x.log2))) := by
  have hself (k : Int) := Dy.standsFor_self (Dy.ofInt k)
  rw [flog2_pos h h0 hn]
  by_cases hpow : x.m = 2 ^ Nat.log2 x.m
  · rw [if_pos hpow]
    refine ⟨le_rfl, fkey_mono (hself _) (hself _) (fun hneg => ?_) ?_, fun _ => rfl⟩
    · rw [Dy.neg_ofInt] at *; omega
    · rw [Dy.signed_ofInt, Dy.signed_ofInt]; exact_mod_cast (lt_add_one x.log2).le
  · obtain ⟨hpos, hlt⟩ := log2Part_bounds h0 (decode_fin_m h) hpow
    obtain ⟨v, hv, hlo, hhi, hneg, hsign⟩ := log2Sum_between hpos hlt
    rw [if_neg hpow]
    refine ⟨fkey_mono (hself _) hv (fun hn => (Dy.neg_ofInt _).2 (hneg hn)) ?_,
      fkey_mono hv (hself _) (fun hn => hsign ((Dy.neg_ofInt _).1 hn)) ?_, fun hp => absurd hp hpow⟩
    · rw [Dy.signed_ofInt]; exact hlo
    · rw [Dy.signed_ofInt]; exact_mod_cast hhi

end Sys2Proof
end

section
/-! SUPPORT. Lane FP32 arithmetic (08 R178, R180). -/

namespace Sys2Proof.Machine

/-! The special inputs (R76). -/

theorem eq_nan_of_isNan {a : Word} (h : (ofF32 a).isNan = true) : ofF32 a = .nan := by
  cases hx : ofF32 a with
  | nan => rfl
  | inf n => rw [hx] at h; exact Bool.noConfusion h
  | fin x => rw [hx] at h; exact Bool.noConfusion h

theorem functions_nan {a : Word} (h : (ofF32 a).isNan = true) : ∀ g ∈ [frcp, frsq, fsqrt, fexp2, flog2], g a = 0x7FC00000 := by
  have hc : toF32 .nan = 0x7FC00000 := rfl
  simp [frcp, frsq, fsqrt, fexp2, flog2, divF32, eq_nan_of_isNan h, hc]

theorem functions_negative {a : Word} {x : Dy} (h : ofF32 a = .fin x) (h0 : x.m ≠ 0) (hn : x.neg = true) :
    fsqrt a = 0x7FC00000 ∧ frsq a = 0x7FC00000 ∧ flog2 a = 0x7FC00000 := by
  have hz := Dy.isZero_eq_false h0
  have hc : toF32 .nan = 0x7FC00000 := rfl
  simp [fsqrt, frsq, flog2, h, hz, hn, hc]

theorem functions_special : [0, 0x80000000, 0x7F800000, 0xFF800000].map frcp = [0x7F800000, 0xFF800000, 0, 0x80000000]
    ∧ [0, 0x80000000, 0x7F800000, 0xFF800000].map frsq = [0x7F800000, 0xFF800000, 0, 0x7FC00000]
    ∧ [0, 0x80000000, 0x7F800000, 0xFF800000].map fsqrt = [0, 0x80000000, 0x7F800000, 0x7FC00000]
    ∧ [0, 0x80000000, 0x7F800000, 0xFF800000].map fexp2 = [0x3F800000, 0x3F800000, 0x7F800000, 0]
    ∧ [0, 0x80000000, 0x7F800000, 0xFF800000].map flog2 = [0xFF800000, 0xFF800000, 0x7F800000, 0x7FC00000] :=
  ⟨by decide +kernel, by decide +kernel, by decide +kernel, by decide +kernel, by decide +kernel⟩

/-! FMIN, FMAX and FCLASS (R178, R180). -/

theorem fpick_nan (greater : Bool) {a b : Word} (ha : (ofF32 a).isNan = true) (hb : (ofF32 b).isNan = true) :
    fpick greater a b = 0x7FC00000 := by
  rw [fpick, isNanWord, isNanWord, if_pos ha, if_pos hb]; rfl

theorem fpick_number (greater : Bool) {a b : Word} (ha : (ofF32 a).isNan = true) (hb : (ofF32 b).isNan = false) :
    fpick greater a b = b ∧ fpick greater b a = b := by simp [fpick, isNanWord, ha, hb]

theorem fpick_lesser {a b : Word} (ha : (ofF32 a).isNan = false) (hb : (ofF32 b).isNan = false) :
    (fpick false a b = a ∨ fpick false a b = b) ∧ fkey (fpick false a b) ≤ fkey a ∧ fkey (fpick false a b) ≤ fkey b := by
  have hpick : fpick false a b = if fkey b < fkey a then b else a := by simp [fpick, isNanWord, ha, hb]
  rw [hpick]
  split
  · next h => exact ⟨.inr rfl, h.le, le_rfl⟩
  · next h => exact ⟨.inl rfl, le_rfl, not_lt.1 h⟩

theorem fpick_greater {a b : Word} (ha : (ofF32 a).isNan = false) (hb : (ofF32 b).isNan = false) :
    (fpick true a b = a ∨ fpick true a b = b) ∧ fkey a ≤ fkey (fpick true a b) ∧ fkey b ≤ fkey (fpick true a b) := by
  have hpick : fpick true a b = if fkey a < fkey b then b else a := by simp [fpick, isNanWord, ha, hb]
  rw [hpick]
  split
  · next h => exact ⟨.inr rfl, h.le, le_rfl⟩
  · next h => exact ⟨.inl rfl, le_rfl, not_lt.1 h⟩

/-- The class of an FP32 pattern: the bit that FCLASS (`floatClass`) sets. -/
def classIndex (a : Word) : Nat :=
  if nfld a 23 8 = 255 then (if nfld a 0 23 = 0 then (if flag a 31 then 0 else 7) else if flag a 22 then 9 else 8)
  else if nfld a 23 8 = 0 then (if nfld a 0 23 = 0 then (if flag a 31 then 3 else 4) else if flag a 31 then 2 else 5)
  else if flag a 31 then 1 else 6

/-! The instructions. -/

theorem laneComputes_of {con : LaneFields → Instr} {g : LaneFields → Word → Word → Word → Word}
    (hi : ∀ f s, exec (con f) s = laneMap s (con f) f (g f) := by intros; rfl)
    (hb : ∀ f, sourceB (con f) f = operandAt (con f) f 2 := by intros; rfl) : LaneComputes con g := fun s f w c h => by
  rw [hi]
  exact laneMapL_of h fun l => by rw [hb]; rfl

theorem laneComputesImm_of {con : LaneFields → Instr} {g : LaneFields → Word → Word → Word}
    (hi : ∀ f s, exec (con f) s = laneMap s (con f) f (fun a b _ => g f a b) := by intros; rfl)
    (hb : ∀ f, sourceB (con f) f = .imm f.p2 := by intros; rfl) : LaneComputesImm con g := fun s f w c h => by
  rw [hi]
  exact laneMapL_of h fun l => by rw [hb]; rfl

/-- Settles O37: the instructions map their function over the lanes. Its reciprocal and roots round what stands for the exact value to the
nearest magnitude; the exponential and the logarithm round what lies between the two powers, and rounding is monotone. -/
theorem laneFloatArithmetic : Obligations.LaneFloatArithmetic := by
  unfold Obligations.LaneFloatArithmetic
  intro once twice nearest
  refine ⟨⟨laneComputes_of, laneComputesImm_of⟩, ⟨laneComputes_of, laneComputesImm_of⟩, ⟨laneComputes_of, laneComputesImm_of⟩,
    laneComputes_of, ⟨fpick false, fpick true, ⟨laneComputes_of, laneComputesImm_of⟩, ⟨laneComputes_of, laneComputesImm_of⟩,
      fun a b ha hb => ?_, fun a b ha hb => ?_, fun a b ha hb => ?_⟩,
    laneComputes_of, laneComputes_of, laneComputes_of, laneComputes_of, laneComputes_of, fun a x hx h0 => ?_, ?_,
    classIndex, laneComputes_of, fun x => ?_⟩
  · exact ⟨fpick_nan _ ha hb, fpick_nan _ ha hb⟩
  · exact ⟨(fpick_number _ ha hb).1, (fpick_number _ ha hb).1, (fpick_number _ ha hb).2, (fpick_number _ ha hb).2⟩
  · obtain ⟨hlo, hloa, hlob⟩ := fpick_lesser ha hb
    obtain ⟨hhi, hhia, hhib⟩ := fpick_greater ha hb
    exact ⟨hlo, hhi, hloa, hlob, hhia, hhib⟩
  · have hexp : fexp2 a = exp2F32 x := by rw [fexp2, show ofF32 a = .fin x from hx]
    have between {k : Int} (hlo : (Dy.ofInt k).le x = true) (hhi : x.lt (Dy.ofInt (k + 1)) = true) :
        f32Mag false (.twoPow k) ≤ (fexp2 a).toNat ∧ (fexp2 a).toNat ≤ f32Mag false (.twoPow (k + 1))
          ∧ (x.le (Dy.ofInt k) = true → fexp2 a = toF32 (.fin (.twoPow k))) := by
      rw [Dy.le_iff, Dy.real_ofInt] at hlo
      rw [Dy.lt_iff, Dy.real_ofInt, Int.cast_add, Int.cast_one] at hhi
      rw [Dy.le_iff, Dy.real_ofInt, hexp]
      exact exp2F32_between h0 hlo hhi
    refine ⟨frcp_nearest hx h0, fun hn => ⟨fsqrt_nearest hx h0 hn, frsq_nearest hx h0 hn⟩, functions_negative hx h0,
      fun k h1 h2 hlo hhi => ?_, fun k hlo hhi => ?_, flog2_between hx h0⟩
    · obtain ⟨h3, h4, h5⟩ := between hlo hhi
      have hk := f32Mag_twoPow h1 (by omega : k ≤ 127)
      have hk1 := f32Mag_twoPow (by omega : -126 ≤ k + 1) (by omega)
      refine ⟨by omega, by omega, fun h => ?_⟩
      rw [h5 h, toNat_twoPow, hk]
    · obtain ⟨h3, h4, h5⟩ := between hlo hhi
      exact ⟨(toNat_twoPow k).trans_le h3, h4.trans_eq (toNat_twoPow (k + 1)).symm, h5⟩
  · obtain ⟨h1, h2, h3, h4, h5⟩ := functions_special
    exact ⟨h1, h2, h3, h4, h5, fun a => functions_nan⟩
  · refine ⟨fun h1 h2 => ?_, fun h1 h2 => ?_, fun h1 h2 => ?_, fun h1 h2 => ?_, fun h1 h2 => ?_⟩ <;> simp [classIndex, h1, h2]

end Sys2Proof.Machine
end

section
/-! SUPPORT. Pieces of a sequence (04 R101, R102; 11 R228, R231; 24 R358): how a Burrow instruction that is in order ends, and what a
stored leaf changes. -/

namespace Sys2Proof.Machine

/-! The frame of the instructions. -/

/-- What the crew that issues a Burrow instruction becomes by the way in which that ends. -/
def State.burrowEnds (s : State) (w : Workgroup) (c : Crew) (d : Reg) : BurrowEnd → Result
  | .trap code detail => trap s code detail
  | .status n => .next (s.put s.cur.key w ((c.setS d (BitVec.ofNat 32 n)).advance 4))
  | .ok x h t =>
    let w := match h with | some h => { w with handles := (h :: w.handles.erase h) } | none => w
    let w := match t with | some (n, img) => { w with tiles := w.tiles.put n img } | none => w
    .next (State.put { s with ctxs := s.ctxs.insert w.ctx x } s.cur.key w ((c.setS d 0).advance 4))

/-- With its handle in the grant and its fields in order, a Burrow instruction waits for what it must follow and then ends by its own tests. -/
theorem burrow_of {s : State} {w : Workgroup} {c : Crew} (h : Issuing s w c) {d : Reg} {srcs : List Reg}
    {perm reserved : Workgroup → Crew → Context → Bool} {spoils : Bool} {run : Workgroup → Crew → Context → BurrowEnd}
    (hf : c.allFull srcs = true) (hp : ∀ v, perm v c (s.ctx w.ctx) = false) (hr : ∀ v, reserved v c (s.ctx w.ctx) = false) :
    burrow s d srcs perm reserved spoils run = if c.caughtUp spoils then
      let v := if spoils then w.spoil else w
      s.burrowEnds v c d (run v c (s.ctx w.ctx)) else .next s := by
  rw [burrow, acting_of h]
  simp only [hf, hp, hr, Bool.not_true, Bool.false_eq_true, if_false]
  cases c.caughtUp spoils
  · rfl
  · simp only [Bool.not_true, Bool.false_eq_true, if_false, if_true]
    cases run (if spoils = true then w.spoil else w) c (s.ctx w.ctx) <;> rfl

/-! Leaves. -/

theorem SMap.find?_filter {α : Type} (m : SMap α) (p : Nat → Bool) (k : Nat) :
    SMap.find? (m.filter (fun e => p e.1)) k = if p k then m.find? k else none := by
  induction m with
  | nil => simp [SMap.find?]
  | cons e m ih =>
    obtain ⟨a, x⟩ := e
    by_cases hk : a = k
    · subst hk
      cases hp : p a <;> simp [hp, SMap.find?, ih]
    · cases hp : p a <;> simp [hp, hk, SMap.find?, ih]

theorem SMap.find?_isNone_iff {α : Type} (m : SMap α) (k : Nat) : m.find? k = none ↔ k ∉ m.keys := by
  induction m with
  | nil => simp [SMap.find?, SMap.keys]
  | cons e m ih =>
    obtain ⟨a, x⟩ := e
    by_cases hk : a = k <;> simp_all [SMap.find?, SMap.keys, eq_comm]

/-- What a key finds is one of the listed values. -/
theorem SMap.mem_values {α : Type} {m : SMap α} {k : Nat} {v : α} (h : m.find? k = some v) : v ∈ m.values :=
  List.mem_map.2 ⟨(k, v), SMap.mem_of_find? h, rfl⟩

/-- No leaf is listed under the number that the context takes next. -/
theorem Context.freshLeaf_free (x : Context) : x.leaves.find? x.freshLeaf = none := by
  have hex : ∃ n ∈ List.range (x.leaves.length + 1), n ∉ x.leaves.keys := by
    by_contra! hall
    have hs := (List.nodup_range (n := x.leaves.length + 1)).subperm hall
    have := hs.length_le
    simp [SMap.keys] at this
  rw [SMap.find?_isNone_iff]
  unfold Context.freshLeaf
  cases hf : (List.range (x.leaves.length + 1)).find? (fun n => !x.leaves.keys.contains n) with
  | none =>
    obtain ⟨n, hn, hk⟩ := hex
    exact absurd (List.find?_eq_none.1 hf n hn) (by simpa using hk)
  | some n => simpa using List.find?_some hf

theorem Context.hasFree_iff (x : Context) : x.hasFree = true ↔ x.leaves.length < x.arenaSz.toNat * 16384 := decide_eq_true_iff

/-- A leaf that a head names is referred to. -/
theorem Context.mem_refs {x : Context} {h p l : Nat} {q : Seq} (hq : x.seqs.find? h = some q) (hl : q.head.find? p = some l) :
    l ∈ x.refs := by
  refine List.mem_flatten.2 ⟨q.refs, List.mem_map.2 ⟨q, SMap.mem_values hq, rfl⟩, ?_⟩
  exact List.mem_append_left _ (SMap.mem_values hl)

/-- A leaf that some head still names keeps its bytes when a sequence is replaced. -/
theorem Context.putSeq_leaf {x : Context} {h : Nat} {q r : Seq} {n p l : Nat} (hr : (x.putSeq h q).seqs.find? n = some r)
    (hl : r.head.find? p = some l) : (x.putSeq h q).leaves.find? l = x.leaves.find? l := by
  have hmem : l ∈ ({ x with seqs := x.seqs.insert h q } : Context).refs := Context.mem_refs hr hl
  exact (SMap.find?_filter x.leaves (fun k => ({ x with seqs := x.seqs.insert h q } : Context).refs.contains k) l).trans
    (if_pos (List.contains_iff_mem.2 hmem))

/-- The leaf that holds a stored tile. -/
def storedLeaf (takes : Nat → Bool) (tile : Tile) (l : Nat) : Leaf := { bytes := tile, poisoned := false, dirty := takes l }

/-- The context with a tile stored for a piece in a fresh leaf. -/
def Context.storedFresh (x : Context) (takes : Nat → Bool) (h : Nat) (q : Seq) (key : Nat) (tile : Tile) : Context :=
  Context.putSeq { x with leaves := x.leaves.insert x.freshLeaf (storedLeaf takes tile x.freshLeaf) } h
    { q with head := q.head.insert key x.freshLeaf }

section
variable {x : Context} {q : Seq} {key : Nat} (takes : Nat → Bool) (h : Nat) (tile : Tile)

/-- A piece without a leaf of its own takes a fresh one, if one is free. -/
theorem Context.storeLeaf_shared (hs : ∀ l, q.head.find? key = some l → 1 < x.count l) : x.storeLeaf takes h q key tile
    = if x.hasFree then .ok (x.storedFresh takes h q key tile) (some h) none else .status ssFull := by
  unfold Context.storeLeaf
  cases hf : q.head.find? key with
  | none => cases x.hasFree <;> rfl
  | some l =>
    simp only [hs l hf, if_true]
    cases x.hasFree <;> rfl

/-- A piece that alone refers to its leaf is stored there. -/
theorem Context.storeLeaf_alone {l : Nat} (hl : q.head.find? key = some l) (hc : x.count l ≤ 1) : x.storeLeaf takes h q key tile
    = .ok { x with leaves := x.leaves.insert l (storedLeaf takes tile l) } (some h) none := by
  unfold Context.storeLeaf
  rw [hl]
  exact if_neg (by omega)

theorem Context.storedFresh_seqs (n : Nat) : (x.storedFresh takes h q key tile).seqs.find? n
    = if n = h then some { q with head := q.head.insert key x.freshLeaf } else x.seqs.find? n := SMap.find?_insert _ _ _ _

/-- The fresh leaf holds the tile. -/
theorem Context.storedFresh_leaf :
    (x.storedFresh takes h q key tile).leaves.find? x.freshLeaf = some (storedLeaf takes tile x.freshLeaf) := by
  have hseq := (Context.storedFresh_seqs (x := x) (q := q) (key := key) takes h tile h).trans (if_pos rfl)
  rw [Context.storedFresh, Context.putSeq_leaf hseq (SMap.find?_insert_self _ key _)]
  exact SMap.find?_insert_self _ _ _

/-- A listed leaf of any other piece keeps its bytes. -/
theorem Context.storedFresh_others (hq : x.seqs.find? h = some q) {n p m : Nat} {r : Seq} (hr : x.seqs.find? n = some r)
    (hm : r.head.find? p = some m) (hne : n ≠ h ∨ p ≠ key) (hlisted : (x.leaves.find? m).isSome = true) :
    (x.storedFresh takes h q key tile).leaves.find? m = x.leaves.find? m := by
  have hnew := (SMap.find?_insert x.leaves x.freshLeaf (storedLeaf takes tile x.freshLeaf) m).trans (if_neg fun he => by
    rw [he, Context.freshLeaf_free] at hlisted
    cases hlisted)
  by_cases hn : n = h
  · subst hn
    obtain rfl : q = r := Option.some.inj (hq.symm.trans hr)
    have hp : p ≠ key := hne.resolve_left (fun h => h rfl)
    have hseq := (Context.storedFresh_seqs (x := x) (q := q) (key := key) takes n tile n).trans (if_pos rfl)
    exact (Context.putSeq_leaf hseq ((SMap.find?_insert _ _ _ p).trans ((if_neg hp).trans hm))).trans hnew
  · have hseq := (Context.storedFresh_seqs (x := x) (q := q) (key := key) takes h tile n).trans ((if_neg hn).trans hr)
    exact (Context.putSeq_leaf hseq hm).trans hnew

end

/-- How SSLD of a piece ends: with its leaf's bytes, zeros where it has none, or a trap where the leaf is poisoned (R231, R358). -/
def Context.loadLeaf (x : Context) (h : Nat) (q : Seq) (key tile : Nat) : BurrowEnd :=
  match q.head.find? key with
  | none => .ok x none (some (tile, []))
  | some l =>
    if (x.leaves.get l).poisoned then .trap .stpoison (BitVec.ofNat 64 h) else .ok x none (some (tile, (x.leaves.get l).bytes))

theorem Context.loadLeaf_poisoned {x : Context} {q : Seq} {key l : Nat} (hl : q.head.find? key = some l)
    (hp : (x.leaves.get l).poisoned = true) (h tile : Nat) : x.loadLeaf h q key tile = .trap .stpoison (BitVec.ofNat 64 h) := by
  rw [Context.loadLeaf, hl]
  exact if_pos hp

theorem Context.loadLeaf_of {x : Context} {q : Seq} {key : Nat} {bytes : Tile} (hb : (q.head.find? key = none ∧ bytes = [])
    ∨ ∃ l, q.head.find? key = some l ∧ (x.leaves.get l).poisoned = false ∧ bytes = (x.leaves.get l).bytes) (h tile : Nat) :
    x.loadLeaf h q key tile = .ok x none (some (tile, bytes)) := by
  rw [Context.loadLeaf]
  rcases hb with ⟨hnone, rfl⟩ | ⟨l, hl, hp, rfl⟩
  · rw [hnone]
  · rw [hl]
    exact if_neg (ne_true_of_eq_false hp)

/-! SSLD and SSST of a handle in the grant. -/

theorem handleOf_eq {c : Crew} {a : Reg} (ha : (c.s a).toNat < 65536) : handleOf c a = (c.s a).toNat := by
  rw [handleOf, nfld, BitVec.extractLsb'_toNat, Nat.shiftRight_zero]
  exact Nat.mod_eq_of_lt ha

theorem pieceKey_eq {c : Crew} {b : Reg} (hb : (c.s b).toNat < 65536) :
    pieceKey c b = 256 * ((c.s b).toNat % 256) + (c.s b).toNat / 256 := by
  simp only [pieceKey, nfld, BitVec.extractLsb'_toNat, Nat.shiftRight_eq_div_pow]
  omega

theorem pieceIn_iff {c : Crew} {b : Reg} (hb : (c.s b).toNat < 65536) (q : Seq) :
    pieceIn c b q = true ↔ (c.s b).toNat % 256 < q.nlayer ∧ (c.s b).toNat / 256 < q.leaves := by
  simp only [pieceIn, nfld, BitVec.extractLsb'_toNat, Nat.shiftRight_eq_div_pow, decide_eq_true_iff]
  omega

section
variable {s : State} {w : Workgroup} {c : Crew} (hi : Issuing s w c) {a b : Reg} (d : Reg) (t : BitVec 4) (hfull : c.allFull [a, b] = true)
  (ha : (c.s a).toNat < 65536) (hb : (c.s b).toNat < 65536) (hg : (s.ctx w.ctx).grants (c.s a).toNat = true)
include ha hb

theorem burrowFields_clear : (highHalf c a != 0 || highHalf c b != 0) = false := by
  have high (r : Reg) (hr : (c.s r).toNat < 65536) : highHalf c r = 0 := by
    rw [highHalf, nfld, BitVec.extractLsb'_toNat, Nat.shiftRight_eq_div_pow]
    omega
  rw [high a ha, high b hb]
  rfl

include hi hfull hg

/-- How SSLD ends, once what it must follow is performed. -/
theorem exec_ssld : exec (.ssld d a b t) s = if c.caughtUp false then
    s.burrowEnds w c d (if s.tileLimit w ≤ t.toNat then .trap .range 0
      else onSeq (s.ctx w.ctx) (c.s a).toNat fun q => if !pieceIn c b q then .trap .range 0
        else (s.ctx w.ctx).loadLeaf (c.s a).toNat q (pieceKey c b) t.toNat) else .next s := by
  show execSsld d a b t s = _
  have hh := handleOf_eq ha
  rw [execSsld, burrow_of hi hfull (fun _ => by rw [hh, hg]; rfl) (fun _ => burrowFields_clear ha hb)]
  simp only [hh]
  rfl

/-- How SSST ends, once what it must follow is performed. -/
theorem exec_ssst : exec (.ssst d a b t) s = if c.caughtUp true then
    s.burrowEnds w.spoil c d (if s.tileLimit w ≤ t.toNat then .trap .range 0
      else onSeq (s.ctx w.ctx) (c.s a).toNat fun q => if !pieceIn c b q then .trap .range 0
        else (s.ctx w.ctx).storeLeaf (s.takesLeaf w.ctx) (c.s a).toNat q (pieceKey c b) (w.tiles.get t.toNat)) else .next s := by
  show execSsst d a b t s = _
  have hh := handleOf_eq ha
  rw [execSsst, burrow_of hi hfull (fun _ => by rw [hh, hg]; rfl) (fun _ => burrowFields_clear ha hb)]
  simp only [hh]
  rfl

end

/-- Settles O33: SSLD and SSST wait, then end by their tests in order (`exec_ssld`, `exec_ssst`); a fresh leaf takes the tile and leaves
those of the other pieces alone (`Context.storedFresh_leaf`, `Context.storedFresh_others`). -/
theorem sequencePiecesLoadAndStore : Obligations.SequencePiecesLoadAndStore := by
  intro s w c hi d a b t q x h layer leaf piece shared stored after free hfa hfb hh hg hb
  have hfull : c.allFull [a, b] = true := (allFull_eq _ _).2 (by simp [hfa, hfb])
  have hload := exec_ssld hi d t hfull hh hb hg
  have hstore := exec_ssst hi d t hfull hh hb hg
  have hpiece : pieceKey c b = piece := pieceKey_eq hb
  refine ⟨fun ⟨y, hy, hd, ho⟩ => hload.trans (if_neg ?_), fun ⟨y, hy, hd, ho⟩ => hstore.trans (if_neg ?_), fun hs => ?_⟩
  · rw [Crew.caughtUp_iff]
    intro hall
    exact (hall y hy).elim (by simp [hd]) fun h => h.1 ho
  · rw [Crew.caughtUp_iff]
    intro hall
    exact (hall y hy).elim (by simp [hd]) fun h => ho.elim h.1 (h.2 rfl)
  have loads := hload.trans (if_pos (c.caughtUp_iff false |>.2 fun y hy => (hs y hy).imp_right fun h => ⟨h, nofun⟩))
  have stores (ha : after) := hstore.trans (if_pos (c.caughtUp_iff true |>.2 fun y hy =>
    (hs y hy).elim .inl fun h => (ha y hy).imp_right fun h' => ⟨h, fun _ => h'⟩))
  refine ⟨fun ht => ⟨?_, fun ha => ?_⟩, fun ht hq => ⟨?_, fun ha => ?_⟩, fun ht hq => ?_⟩
  · rw [Traps, loads, if_pos ht]
    rfl
  · rw [Traps, stores ha, if_pos ht]
    rfl
  · refine ⟨_, scalarWritten_setS c d 1, ?_⟩
    rw [Becomes, loads, if_neg (Nat.not_le.2 ht), onSeq, hq]
    rfl
  · refine ⟨_, scalarWritten_setS c d 1, ?_⟩
    rw [Becomes, stores ha, if_neg (Nat.not_le.2 ht), onSeq, hq]
    rfl
  simp only [if_neg (Nat.not_le.2 ht), onSeq, show (s.ctx w.ctx).seqs.find? (c.s a).toNat = some q from hq] at loads stores
  refine ⟨fun hout => ?_, fun hlayer hleaf => ?_⟩
  · have hout' : ¬ pieceIn c b q = true := by
      rw [pieceIn_iff hb]
      omega
    rw [Bool.not_eq_true] at hout'
    rw [hout'] at loads stores
    exact ⟨loads, stores⟩
  rw [(pieceIn_iff hb q).2 ⟨hlayer, hleaf⟩, hpiece] at loads stores
  simp only [Bool.not_true, Bool.false_eq_true, if_false] at loads stores
  refine ⟨fun bytes hbytes => ⟨_, _, scalarWritten_setS c d 0, ?_, rfl⟩, fun l hl hpois => ?_, fun ha hsh hfree => ?_, fun ha hsh hfree => ?_,
    fun l hl hcount ha => ?_⟩
  · rw [loads, Context.loadLeaf_of hbytes]
    rfl
  · rw [Traps, loads, Context.loadLeaf_poisoned hl hpois]
    rfl
  · have hend := stores ha
    rw [Context.storeLeaf_shared _ _ _ hsh, if_pos (x.hasFree_iff.2 hfree)] at hend
    refine ⟨_, _, { q with head := q.head.insert piece x.freshLeaf }, x.freshLeaf, scalarWritten_setS c d 0, hend, ?_,
      SMap.find?_insert_self _ _ _, fun p hp => (SMap.find?_insert _ _ _ _).trans (if_neg hp), rfl, rfl, rfl, x.freshLeaf_free,
      Context.storedFresh_leaf _ _ _, fun n hn => ?_, fun n r p m hr hm hne hlisted => Context.storedFresh_others _ _ _ hq hr hm hne hlisted⟩
    · exact (Context.storedFresh_seqs _ _ _ _).trans (if_pos rfl)
    · exact (Context.storedFresh_seqs _ _ _ _).trans (if_neg hn)
  · have hend := stores ha
    rw [Context.storeLeaf_shared _ _ _ hsh, if_neg fun hf => hfree (x.hasFree_iff.1 hf)] at hend
    exact ⟨_, scalarWritten_setS c d 4, hend⟩
  · have hend := stores ha
    rw [Context.storeLeaf_alone _ _ _ hl hcount] at hend
    exact ⟨_, _, scalarWritten_setS c d 0, hend, rfl, SMap.find?_insert_self _ _ _, fun m hm => (SMap.find?_insert _ _ _ _).trans (if_neg hm)⟩

end Sys2Proof.Machine
end

section
/-! SUPPORT. The issue of key-value instructions (04 R96, R97; 11 R237 to R240): what their selector names, that the reads of an issue
change memory's lines alone, and what each issues. -/

namespace Sys2Proof.Machine

/-! Reads that leave lines in the die cache. -/

theorem OnlyMemory.foldl {α : Type} {f : State → α → State} (h : ∀ s x, OnlyMemory s (f s x)) (l : List α) (s : State) :
    OnlyMemory s (l.foldl f s) := by
  induction l generalizing s with
  | nil => exact .refl s
  | cons x l ih => exact (h s x).trans (ih _)

theorem onlyMemory_touch (s : State) (o : Owner) (alloc : Bool) (a : Nat) : OnlyMemory s (s.touch o alloc a) := by
  unfold State.touch
  split
  · exact onlyMemory_bring s o a
  · exact .refl s

theorem onlyMemory_touchAt (s : State) (w : Workgroup) (alloc : Bool) (reads : List (Nat × Nat)) :
    OnlyMemory s (s.touchAt w alloc reads) :=
  .foldl (fun t r => by
    split
    · exact .foldl (fun u i => onlyMemory_touch u _ _ _) _ _
    · exact .refl t) reads s

@[simp] theorem State.touchAt_cur (s : State) (w : Workgroup) (alloc : Bool) (reads : List (Nat × Nat)) :
    (s.touchAt w alloc reads).cur = s.cur :=
  (congrArg State.cur (onlyMemory_touchAt s w alloc reads)).trans rfl

/-! What the selector names (R96, R97, R237). -/

theorem BufRec.seqAt_eq (m : BufRec) (sel : Word) : m.seqAt sel = nfld m 128 52 + sel.toNat % 65536 * 16 := by
  rw [BufRec.seqAt, kvSeq, nfld, nfld, BitVec.extractLsb'_toNat, BitVec.extractLsb'_toNat, Nat.shiftRight_zero, BufRec.seqBase, nfld,
    BitVec.extractLsb'_toNat]

/-- The selector has no reserved bit set and names a head of the handle, which is well formed (R96, R237). -/
structure KvNames (h : BufRec) (sel : Word) : Prop where
  handle : h.kvHandle = true
  reserved : kvReserved sel = false
  head : kvHead sel < h.nhead

theorem kvNames_of {h : BufRec} {sel : Word} (hh : h.kvHandle = true) (hs : sel.toNat < 2 ^ 24) (hn : sel.toNat / 65536 < h.nhead) :
    KvNames h sel := by
  have hhi : nfld sel 24 8 = 0 := by
    rw [nfld, BitVec.extractLsb'_toNat, Nat.shiftRight_eq_div_pow]
    omega
  have hhead : kvHead sel = sel.toNat / 65536 := by
    rw [kvHead, nfld, BitVec.extractLsb'_toNat, Nat.shiftRight_eq_div_pow]
    omega
  exact ⟨hh, by rw [kvReserved, hhi]; rfl, hhead ▸ hn⟩

/-! Issue. -/

theorem State.kvPa_of {s : State} {w : Workgroup} {need : Need} {va pa : Nat} (h52 : va < 2 ^ 52) (hx : s.xlate w.die w.ctx need va = .ok pa) :
    s.kvPa w need va = .got pa := by
  rw [State.kvPa, if_neg (Nat.not_le.2 h52), hx]

theorem State.kvParts_one {s : State} {w : Workgroup} {need : Need} {p : Part} {pa : Nat} (h52 : p.addr < 2 ^ 52)
    (hx : s.xlate w.die w.ctx need p.addr = .ok pa) : s.kvParts w need [p] = .got [{ p with pa := some pa }] := by
  rw [State.kvParts, State.kvPa_of h52 hx]
  rfl

/-- With room on its path a scalar access issues. -/
theorem issueScalar_room {s : State} {w : Workgroup} {c : Crew} {a : Access} (hr : c.roomOn a.kind.path = true) (n : Nat)
    (mark : Crew → Nat → Crew) : issueScalar s w c a n mark = .next (s.put s.cur.key w ((mark (c.issue a) c.nextId).advance n)) :=
  if_pos hr

/-- The same after the reads of its issue. -/
theorem issueScalar_touched {s : State} {w v : Workgroup} {c : Crew} {a : Access} (hr : c.roomOn a.kind.path = true) (alloc : Bool)
    (reads : List (Nat × Nat)) (n : Nat) (mark : Crew → Nat → Crew) : issueScalar (s.touchAt w alloc reads) v c a n mark
      = .next ((s.touchAt w alloc reads).put s.cur.key v ((mark (c.issue a) c.nextId).advance n)) := by
  rw [issueScalar_room hr, State.touchAt_cur]

section
variable {s : State} {w : Workgroup} {c : Crew} (h : Issuing s w c) {a : Reg} {m : BitVec 5}
  (hk : KvNames ((s.gridOf w).buf m.toNat) (c.s a))
include h hk

/-- KVTRUNC and KVSTEP act on the word of the sequence entry, once that is translated. -/
theorem kvField_of {srcs : List Reg} {need : Need} {off pa : Nat} (data : Word) (run : Workgroup → Crew → Nat → List Part → Result)
    (hf : c.allFull srcs = true) (h52 : ((s.gridOf w).buf m.toNat).seqAt (c.s a) + off < 2 ^ 52)
    (hx : s.xlate w.die w.ctx need (((s.gridOf w).buf m.toNat).seqAt (c.s a) + off) = .ok pa) :
    kvField s srcs a m need off data run = run w c (((s.gridOf w).buf m.toNat).seqAt (c.s a))
      [{ onePart (((s.gridOf w).buf m.toNat).seqAt (c.s a) + off) 4 (data.zeroExtend 128) 0 with pa := some pa }] := by
  rw [kvField, acting_of h]
  simp only [hf, Bool.not_true, Bool.false_eq_true, if_false]
  rw [State.kvParts_one h52 hx, trapsThen_none (by simp [hk.reserved, hk.handle, hk.head])]
  rfl

/-- KVLD issues its access with the block that it has read. -/
theorem execKvld_of {d b r : Reg} {t : BitVec 4} {block : KvBlock} (hf : c.allFull [a, b, r] = true) (ht : t.toNat < s.tileLimit w)
    (hb : (c.s b).toNat % 32 = 0) (hr : c.roomOn (some .tl) = true)
    (hread : s.kvBlock w (c.mayRead (kvAccess c ((s.gridOf w).buf m.toNat) (.kvld d t.toNat [] 0) .strong [onePart 0 0 0 0]))
      ((s.gridOf w).buf m.toNat) (c.s a) (c.s b).toNat (c.s r).toNat = .got block) :
    execKvld d a b r t m s = issueScalar
      (s.touchAt w ((s.gridOf w).buf m.toNat).allocates (block.reads ((s.gridOf w).buf m.toNat) (c.s a) (c.s b).toNat)) w c
      (kvAccess c ((s.gridOf w).buf m.toNat) (.kvld d t.toNat (SMap.putList [] 0 (block.rows.flatMap (·.1))) block.status) .strong
        [onePart 0 0 0 0]) 8 (fun c tag => (c.awaitS d tag).awaitS d.odd tag) := by
  rw [execKvld, acting_of h]
  simp only [hf, hr, Bool.not_true, Bool.false_eq_true, if_false]
  rw [trapsThen_none (by simp [hk.reserved, hk.handle, hk.head, hb, ht]), hread]
  rfl

/-- KVAPP, its first checks passed, looks whether its blocks are resident, then reads the map and translates its parts. -/
theorem execKvapp_of {d b r : Reg} {t : BitVec 4} (hf : c.allFull [d, a, b, r] = true) (ht : t.toNat < s.tileLimit w)
    (hn : 1 ≤ (c.s d).toNat ∧ (c.s d).toNat ≤ 32)
    (hp : (c.s b).toNat + (c.s d).toNat ≤ ((s.gridOf w).buf m.toNat).positions) (hr : c.roomOn (some .st) = true) :
    let g := (s.gridOf w).buf m.toNat
    let sel := c.s a
    let n := (c.s d).toNat
    let p := (c.s b).toNat
    let reads := (g.seqAt sel, 4) :: (kvBlocks p n).map (fun b => (g.mapAt sel (32 * b), 4))
    let access := kvAccess c g (.kvapp (g.seqAt sel) n) .strong
    let may := c.mayRead (access [])
    (∀ x ∈ reads, may x.1 x.2 = true) → execKvapp d a b r t m s =
      if s.kvNotResident w g sel (kvBlocks p n) then trap s .bounds 0
      else kvIssue s ((s.kvWord w may (g.seqAt sel)).bind fun _ => s.kvEntries w may g sel (kvBlocks p n)) fun es =>
        kvIssue s ((s.kvParts w .wr ((List.range n).map (kvRowParts g sel (w.tiles.get t.toNat) es p (c.s r).toNat)).flatten).bind fun rs =>
          (s.kvParts w .rw [{ onePart (g.seqAt sel) 4 (BitVec.ofNat 128 (p + n)) 0 with unit := n }]).bind fun l => .got (rs ++ l)) fun parts =>
          issueScalar (s.touchAt w g.allocates reads) w.spoil c (access parts) 8 (fun c _ => c) := by
  intro g sel n p reads access may hmay
  have hall : reads.all (fun x => may x.1 x.2) = true := List.all_eq_true.2 hmay
  have hn0 : ¬ (g.nhead ≤ kvHead sel ∨ n = 0 ∨ 32 < n) := by
    have hhead : kvHead sel < g.nhead := hk.head
    omega
  have hp' : ¬ g.positions < p + n := Nat.not_lt.2 hp
  rw [execKvapp, acting_of h]
  simp only [hf, hr, Bool.not_true, Bool.false_eq_true, if_false, Bool.false_or]
  rw [trapsThen_none (by simp [hk.reserved, hk.handle, ht]; exact ⟨by simpa using hn0, by simpa using hp'⟩)]
  exact if_neg (by rw [hall]; exact Bool.false_ne_true)

end

/-- Settles O34: the checks of each instruction pass in their order (`kvField_of`, `execKvld_of`, `execKvapp_of`), and its access issues
with the parts that its addresses give. -/
theorem keyValueInstructionsIssue : Obligations.KeyValueInstructionsIssue := by
  intro s w c hi d a b r t m h sel at_ may hfull hsel hhandle hhead h52
  have hk : KvNames h sel := kvNames_of hhandle hsel hhead
  have hat : h.seqAt sel = at_ := h.seqAt_eq sel
  have full (rs : List Reg) (hrs : ∀ x ∈ rs, x ∈ [a, b, r, d]) : c.allFull rs = true :=
    (allFull_eq _ _).2 fun x hx => (allFull_eq _ _).1 hfull x (hrs x hx)
  clear_value at_
  subst hat
  refine ⟨fun pa hx hroom => ?_, fun pa hx => ?_, fun block ht hb hroom hread => ?_, fun len es rs l => ?_⟩
  · show execKvtrunc a b m s = _
    rw [execKvtrunc, acting_of hi, kvField_of hi hk _ _ (full _ (by simp)) (by show h.seqAt sel + 0 < _; omega) hx, issueScalar_room hroom]
    rfl
  · show execKvstep d a m s = _
    rw [execKvstep, kvField_of hi hk _ _ (full _ (by simp)) (by show h.seqAt sel + 4 < _; omega) hx, issueScalar_room rfl]
    rfl
  · show execKvld d a b r t m s = _
    rw [execKvld_of hi hk (full _ (by simp)) ht hb hroom hread, issueScalar_touched hroom]
  · intro n p reads ht hn1 hn hp hroom hmay
    have happ := execKvapp_of hi hk (full [d, a, b, r] (by simp)) ht ⟨hn1, hn⟩ hp hroom hmay
    refine ⟨fun hres => happ.trans (if_pos hres), fun hres hlen hes hrs hl => (happ.trans (if_neg (ne_true_of_eq_false hres))).trans ?_⟩
    have hmap : ((s.kvWord w (may (.kvapp (h.seqAt sel) n) []) (h.seqAt sel)).bind fun _ =>
        s.kvEntries w (may (.kvapp (h.seqAt sel) n) []) h sel (kvBlocks p n)) = .got es := by
      rw [hlen]
      exact hes
    refine (congrArg (fun x => kvIssue s x _) hmap).trans ?_
    show kvIssue s ((s.kvParts w .wr ((List.range n).map (kvRowParts h sel (w.tiles.get t.toNat) es p (c.s r).toNat)).flatten).bind fun rs =>
      (s.kvParts w .rw [{ onePart (h.seqAt sel) 4 (BitVec.ofNat 128 (p + n)) 0 with unit := n }]).bind fun l => .got (rs ++ l)) _ = _
    rw [hrs, hl]
    show issueScalar (s.touchAt w h.allocates reads) w.spoil c (kvAccess c h (.kvapp (h.seqAt sel) n) .strong (rs ++ l)) 8 (fun c _ => c) = _
    exact issueScalar_touched hroom _ _ _ _

end Sys2Proof.Machine
end

section
/-! SUPPORT. A store that lands where its context does not reach (05 R103; 18 R290, R292). -/

namespace Sys2Proof.Machine

/-- A machine whose first line lies in a secure region, and whose contexts are all of the non-secure world. -/
def State.securedLow : State := { State.reset with regions := [(0, ⟨true, true, 0, 0xFFFF⟩)] }

/-- The byte 1, stored at address 0. -/
def lowByte : Part := onePart 0 1 1 0

/-- A store of it by a context of the non-secure world. -/
def lowStore : Access := scalarAccess default .store .weak .dev [lowByte]

/-- The line takes the world bit of its region, so that the context that has stored reads zero there (R292). -/
theorem lowStore_unread :
    (State.securedLow.landPart ⟨0, 0⟩ default default lowStore lowByte 0).readByte 0 0 = 0 := rfl

/-- Refutes O21: nothing in the statement says that the context reaches the world of the address. A store of the byte 1 by a context of
the non-secure world to a line of a secure region lands, and its context reads 0 there. -/
theorem not_landingWritesExactlyItsBytes : ¬ Obligations.LandingWritesExactlyItsBytes := by
  intro h
  have hplain := (h State.securedLow _ ⟨0, 0⟩ default default lowStore lowByte 0 rfl rfl).1 rfl (by decide)
  have hstored := hplain.2.1 rfl 0
  rw [if_pos (by decide)] at hstored
  exact absurd (lowStore_unread.symm.trans hstored) (by decide)

end Sys2Proof.Machine
end

section
/-! SUPPORT. A line of the die cache written back (18 R290, R294): what stands in memory after it, and what its owner deciphers there. -/

namespace Sys2Proof.Aes

theorem Block.length_bytes (x : Block) : x.bytes.length = 16 := rfl

/-- A block is that of its bytes. -/
theorem Block.of_bytes (x : Block) : Block.of (fun i => x.bytes.getD i 0) = x := rfl

theorem Block.getD_bytes_of (f : Nat → Byte) {i : Nat} (h : i < 16) : (Block.of f).bytes.getD i 0 = f i := by
  interval_cases i <;> rfl

theorem Block.of_congr {f g : Nat → Byte} (h : ∀ i < 16, f i = g i) : Block.of f = Block.of g := by
  simp only [Block.of]
  congr 2 <;> exact h _ (by decide)

end Sys2Proof.Aes

namespace Sys2Proof.Machine

/-- What a key deciphers at an address depends on the sixteen bytes of its block alone. -/
theorem Memory.clear_congr {m n : Memory} {a : Nat} (h : ∀ i < 16, m.read (a / 16 * 16 + i) = n.read (a / 16 * 16 + i)) (key : BitVec 512) :
    m.clear key a = n.clear key a := by
  rw [Memory.clear, Memory.clear, Memory.block, Memory.block, Aes.Block.of_congr h]

/-- What stands enciphered in the block of an address is deciphered there. -/
theorem Memory.clear_of_enciphered {m : Memory} {key : BitVec 512} {a : Nat} {f : Nat → Byte}
    (h : ∀ i < 16, m.read (a / 16 * 16 + i)
      = (Aes.encipher key (lineBase a) (a % 256 / 16) (Aes.Block.of f)).bytes.getD i 0) : m.clear key a = f (a % 16) := by
  rw [Memory.clear, Memory.block, Aes.Block.of_congr h, Aes.Block.of_bytes, Aes.decipher_encipher,
    Aes.Block.getD_bytes_of _ (Nat.mod_lt a (by decide))]

/-- The block of a line that stands at block `j` of its ciphertext. -/
def cipherBlock (key : BitVec 512) (base : Nat) (bytes : Cells 8) (j : Nat) : Aes.Block :=
  Aes.encipher key base j (Aes.Block.of (fun i => bytes.get (16 * j + i)))

theorem Memory.read_sealBlock (m : Memory) (key : BitVec 512) (base : Nat) (bytes : Cells 8) (j x : Nat) :
    (m.sealBlock key base bytes j).read x = if base + 16 * j ≤ x ∧ x < base + 16 * j + 16
      then (cipherBlock key base bytes j).bytes.getD (x - (base + 16 * j)) 0 else m.read x :=
  Memory.read_writeList m (base + 16 * j) (cipherBlock key base bytes j).bytes x

/-- Sealing a line writes its ciphertext over its 256 bytes and nothing else. -/
theorem Memory.read_sealLine (m : Memory) (key : BitVec 512) (base : Nat) (bytes : Cells 8) (x : Nat) :
    (m.sealLine key base bytes).read x = if base ≤ x ∧ x < base + 256
      then (cipherBlock key base bytes ((x - base) / 16)).bytes.getD ((x - base) % 16) 0 else m.read x := by
  suffices h : ∀ k, ((List.range k).foldl (fun (m : Memory) j => m.sealBlock key base bytes j) m).read x = if base ≤ x ∧ x < base + 16 * k
      then (cipherBlock key base bytes ((x - base) / 16)).bytes.getD ((x - base) % 16) 0 else m.read x from h 16
  intro k
  induction k with
  | zero => rw [if_neg (by omega)]; rfl
  | succ k ih =>
    rw [List.range_succ, List.foldl_concat, Memory.read_sealBlock, ih]
    by_cases hk : base + 16 * k ≤ x ∧ x < base + 16 * k + 16
    · have hblock : (x - base) / 16 = k := by omega
      have hbyte : (x - base) % 16 = x - (base + 16 * k) := by omega
      rw [if_pos hk, if_pos (by omega), hblock, hbyte]
    · rw [if_neg hk]
      by_cases hx : base ≤ x ∧ x < base + 16 * k
      · rw [if_pos hx, if_pos (by omega)]
      · rw [if_neg hx, if_neg (by omega)]

/-- A sealed line reads under its key as it was on chip. -/
theorem Memory.clear_sealLine (m : Memory) (key : BitVec 512) (n : Nat) (bytes : Cells 8) {j : Nat} (hj : j < 256) :
    (m.sealLine key (256 * n) bytes).clear key (256 * n + j) = bytes.get j := by
  have hblock : (256 * n + j) % 256 / 16 = j / 16 := by omega
  have hline : lineBase (256 * n + j) = 256 * n := by rw [lineBase]; omega
  have hbyte : 16 * (j / 16) + (256 * n + j) % 16 = j := by omega
  refine (Memory.clear_of_enciphered (f := fun i => bytes.get (16 * (j / 16) + i)) fun i hi => ?_).trans (congrArg bytes.get hbyte)
  rw [Memory.read_sealLine, if_pos (by omega), hblock, hline]
  have h1 : ((256 * n + j) / 16 * 16 + i - 256 * n) / 16 = j / 16 := by omega
  have h2 : ((256 * n + j) / 16 * 16 + i - 256 * n) % 16 = i := by omega
  rw [h1, h2, cipherBlock]

/-- A dirty line with an owner whose memory is reached is sealed under its owner's key as it leaves. -/
theorem State.evict_dirty {s : State} {n : Nat} {l : Line} {o : Owner} (hl : s.lines.find? n = some l) (ho : l.owner = some o)
    (hd : l.dirty = true) (hr : s.reachable (256 * n) = true) : s.evict n = { s with
      lines := s.lines.erase n, mem := s.mem.sealLine (s.keyOf o) (256 * n) l.bytes, sealed := s.sealed.insert n (s.slotOf o) } := by
  simp only [State.evict, hl, ho, hd, hr, Bool.and_self]

/-- Any other line is dropped. -/
theorem State.evict_dropped {s : State} {n : Nat} {l : Line} (hl : s.lines.find? n = some l)
    (h : l.owner = none ∨ l.dirty = false ∨ s.reachable (256 * n) = false) : s.evict n = { s with lines := s.lines.erase n } := by
  have hd : l.owner = none ∨ (l.dirty && s.reachable (256 * n)) = false := by rwa [Bool.and_eq_false_iff]
  simp only [State.evict, hl]
  rcases hd with ho | hd
  · rw [ho]
  · rw [hd]
    cases l.owner <;> rfl

/-- A line that leaves takes no other line with it, and brings none. -/
theorem State.evict_lines (s : State) (n m : Nat) : (s.evict n).lines.find? m = if m = n then none else s.lines.find? m := by
  unfold State.evict
  split
  · next hn =>
    split
    · next h => rw [h, hn]
    · rfl
  · dsimp only
    split <;> exact SMap.find?_erase _ _ _

end Sys2Proof.Machine
end

section
/-! SUPPORT. The reset rung leaves a context no work (22 R342): what the end of a grid leaves, and what stopping a context and ending its
grids and ladders comes to. -/

namespace Sys2Proof.Machine

theorem SMap.not_mem_of_find?_none {α : Type} {m : SMap α} {k : Nat} (h : m.find? k = none) : ∀ e ∈ m, e.1 ≠ k :=
  fun _ he hk => (SMap.find?_isNone_iff m k).1 h (hk ▸ List.mem_map_of_mem he)

theorem SMap.mem_modify {α : Type} {m : SMap α} {k : Nat} {f : α → α} {e : Nat × α} (h : e ∈ m.modify k f) :
    e ∈ m ∨ ∃ x, (k, x) ∈ m ∧ e = (k, f x) := by
  unfold SMap.modify at h
  split at h
  · next x hx => exact (SMap.mem_insert h).elim (fun he => .inr ⟨x, SMap.mem_of_find? hx, he⟩) .inl
  · exact .inl h

/-! Writes that change memory alone, or post what waits. -/

theorem onlyMemory_ownWrite (s : State) (o : Owner) (a : Nat) (bs : List Byte) : OnlyMemory s (s.ownWrite o a bs) := by
  induction bs generalizing s a with
  | nil => exact .refl s
  | cons b bs ih =>
    refine OnlyMemory.trans ?_ (ih _ (a + 1))
    split
    · unfold State.ownPut
      split
      · rfl
      · exact onlyMemory_writeAs _ _ _ _ _
    · exact .refl s

theorem onlyMemory_fwWrite (s : State) (a : Nat) (bs : List Byte) : OnlyMemory s (s.fwWrite a bs) := onlyMemory_ownWrite s _ a bs

theorem posted_complete (s : State) (c : Nat) (copy : LaunchCopy) (x : Completion) : Posted s (s.complete c copy x) := by
  unfold State.complete
  dsimp only
  split
  · exact posted_decrement _ _ _ _ _
  · exact (posted_post _ _).trans (posted_decrement _ _ _ _ _)

/-! No work is added. -/

/-- From `s` to `t` no workgroup and no grid is added, every workgroup keeps its context, and the queues and contexts stay as they are. -/
structure Ending (s t : State) : Prop where
  wgs : ∀ e ∈ t.wgs, ∃ v ∈ s.wgs, v.2.ctx = e.2.ctx
  grids : ∀ e ∈ t.grids, e ∈ s.grids
  queues : t.queues = s.queues
  ctxs : t.ctxs = s.ctxs

theorem Ending.refl (s : State) : Ending s s := ⟨fun e he => ⟨e, he, rfl⟩, fun _ he => he, rfl, rfl⟩

theorem Ending.trans {s t u : State} (h : Ending s t) (g : Ending t u) : Ending s u where
  wgs e he := by
    obtain ⟨v, hv, hc⟩ := g.wgs e he
    obtain ⟨v', hv', hc'⟩ := h.wgs v hv
    exact ⟨v', hv', hc'.trans hc⟩
  grids e he := h.grids e (g.grids e he)
  queues := g.queues.trans h.queues
  ctxs := g.ctxs.trans h.ctxs

theorem Ending.ofPosted {s t : State} (h : Posted s t) : Ending s t where
  wgs e he := ⟨e, h.wgs ▸ he, rfl⟩
  grids _ he := h.grids ▸ he
  queues := h.queues
  ctxs := h.ctxs

theorem ending_childDone (s : State) (p : Option Parent) : Ending s (s.childDone p) := by
  unfold State.childDone
  split
  · refine ⟨fun e he => ?_, fun _ he => he, rfl, rfl⟩
    rcases SMap.mem_modify he with he | ⟨x, hx, rfl⟩
    · exact ⟨e, he, rfl⟩
    · exact ⟨_, hx, rfl⟩
  · exact .refl s

/-- A grid that retires is gone, and no work is added. -/
theorem ending_retireGrid (s : State) (seq result : Nat) (fault : BitVec 384) :
    Ending s (s.retireGrid seq result fault) ∧ ∀ e ∈ (s.retireGrid seq result fault).grids, e.1 ≠ seq := by
  unfold State.retireGrid
  split
  · next hf => exact ⟨.refl s, SMap.not_mem_of_find?_none hf⟩
  · next g hf =>
    have hgone : Ending s { s with grids := s.grids.erase seq } :=
      ⟨fun e he => ⟨e, he, rfl⟩, fun e he => (SMap.mem_erase.1 he).1, rfl, rfl⟩
    have hends {u : State} (h : Ending { s with grids := s.grids.erase seq } u) : Ending s u ∧ ∀ e ∈ u.grids, e.1 ≠ seq :=
      ⟨hgone.trans h, fun e he => (SMap.mem_erase.1 (h.grids e he)).2⟩
    have hone {u : State} (c : Nat) (copy : LaunchCopy) (x : Completion) (p : Option Parent) :
        Ending u ((u.complete c copy x).childDone p) := (Ending.ofPosted (posted_complete _ _ _ _)).trans (ending_childDone _ _)
    dsimp only
    split
    · exact hends (hone _ _ _ _)
    · exact hends ((hone _ _ _ _).trans (hone _ _ _ _))

/-- Grids that retire in turn are gone, and no work is added. -/
theorem ending_retireGrids (result : Nat) (fault : Nat → BitVec 384) (seqs : List Nat) (s : State) :
    Ending s (seqs.foldl (fun (s : State) q => s.retireGrid q result (fault q)) s)
      ∧ ∀ e ∈ (seqs.foldl (fun (s : State) q => s.retireGrid q result (fault q)) s).grids, e.1 ∉ seqs := by
  induction seqs generalizing s with
  | nil => exact ⟨.refl s, fun _ _ => List.not_mem_nil⟩
  | cons q qs ih =>
    obtain ⟨hfirst, hgone⟩ := ending_retireGrid s q result (fault q)
    obtain ⟨hrest, hothers⟩ := ih (s.retireGrid q result (fault q))
    refine ⟨hfirst.trans hrest, fun e he hm => ?_⟩
    rcases List.mem_cons.1 hm with h | h
    · exact hgone e (hrest.grids e he) h
    · exact hothers e he h

/-! Stopping. -/

theorem State.resetLadders_posted (s : State) (c : Nat) : ∃ u, OnlyMemory s u ∧ (s.resetLadders c).ladders = u.ladders.filter (fun l => !(l.ctx == c))
    ∧ Ending u (s.resetLadders c) := by
  refine ⟨_, (OnlyMemory.foldl (f := fun (s : State) (l : Ladder) => s.ladderEnd l.pool 2 l.areas.length)
    (fun s l => onlyMemory_fwWrite _ _ _) _ s).trans (OnlyMemory.foldl (f := fun (s : State) (p : Pool) => s.poolStatus p.base 2)
    (fun s l => onlyMemory_fwWrite _ _ _) _ _), rfl, ?_⟩
  exact ⟨fun e he => ⟨e, he, rfl⟩, fun _ he => he, rfl, rfl⟩

/-- What stands after a context has been stopped: none of its workgroups, its queues DISABLED and its device queue off. -/
theorem State.stopContext_stops (s : State) (c : Nat) :
    (∀ e ∈ (s.stopContext c).wgs, e.2.ctx ≠ c) ∧ (s.stopContext c).grids = s.grids
      ∧ (∀ e ∈ (s.stopContext c).queues, e.2.ctx.toNat = c → e.2.state = .disabled)
      ∧ (((s.stopContext c).ctxs.find? c).isSome = true → ((s.stopContext c).ctx c).devOff = true) := by
  unfold State.stopContext
  rw [discard_rest]
  refine ⟨fun e he => ?_, rfl, fun e he hc => ?_, fun hs => ?_⟩
  · simpa using (List.mem_filter.1 he).2
  · obtain ⟨b, hb, rfl⟩ := List.mem_map.1 he
    dsimp only at hc ⊢
    split at hc
    · next h => rw [if_pos h]
    · next h => exact absurd (by simpa using hc) h
  · show (SMap.get (SMap.modify s.ctxs c _) c).devOff = true
    cases hf : s.ctxs.find? c with
    | none =>
      simp only [SMap.modify, hf] at hs
      cases hs
    | some x => rw [SMap.get_modify_of_find? _ hf]

/-- The reset rung leaves a context no work. -/
theorem stopped_resetRung (s : State) (c : Nat) (r : Report) (origin : Option Nat) : Stopped (s.resetRung c r origin) c := by
  obtain ⟨hwgs, hgrids, hqueues, hdev⟩ := s.stopContext_stops c
  obtain ⟨hend, hgone⟩ := ending_retireGrids 2 (fun q => ({ r with origin := origin == some q } : Report).pack) (s.gridsOf c) (s.stopContext c)
  obtain ⟨u, hu, hladders, hlast⟩ := State.resetLadders_posted
    ((s.gridsOf c).foldl (fun (s : State) q => s.retireGrid q 2 ({ r with origin := origin == some q } : Report).pack) (s.stopContext c)) c
  have hall := (hend.trans (.ofPosted (.ofMemory hu))).trans hlast
  refine ⟨fun e he => ?_, fun e he hc => ?_, fun l hl => ?_, fun e he => hqueues e (hall.queues ▸ he), fun hs => ?_⟩
  · obtain ⟨v, hv, hvc⟩ := hall.wgs e he
    exact hvc ▸ hwgs v hv
  · have he' := ((Ending.ofPosted (.ofMemory hu)).trans hlast).grids e he
    refine hgone e he' (List.mem_map.2 ⟨e, List.mem_filter.2 ⟨hgrids ▸ hend.grids e he', ?_⟩, rfl⟩)
    simp [hc]
  · have hl' : l ∈ u.ladders.filter (fun l => !(l.ctx == c)) := hladders ▸ hl
    simpa using (List.mem_filter.1 hl').2
  · have hctx : (s.resetRung c r origin).ctxs = (s.stopContext c).ctxs := hall.ctxs
    rw [State.ctx, hctx]
    exact hdev (hctx ▸ hs)

theorem stopped_endContext (s : State) (c : Nat) (code : FaultCode) : Stopped (s.endContext c code) c := stopped_resetRung _ _ _ _

/-- What changes none of these parts leaves a context without work. -/
theorem stopped_congr {s t : State} {c : Nat} (h : Stopped s c) (hw : t.wgs = s.wgs) (hg : t.grids = s.grids) (hl : t.ladders = s.ladders)
    (hq : t.queues = s.queues) (hc : t.ctxs = s.ctxs) : Stopped t c where
  noWorkgroup := hw ▸ h.noWorkgroup
  noGrid := hg ▸ h.noGrid
  noLadder := hl ▸ h.noLadder
  queuesOff := hq ▸ h.queuesOff
  deviceOff := by
    rw [State.ctx, hc]
    exact h.deviceOff

end Sys2Proof.Machine
end

section
/-! SUPPORT. Errors (24 R355 to R361): the fields of a record, what counting an error changes, and what an uncorrectable one ends. -/

namespace Sys2Proof.Machine

/-! Records (R360). -/

theorem arrayCode_lt (a : SramArray) : arrayCode a < 256 := by cases a <;> decide

theorem nfld_append_high {v w : Nat} (x : BitVec v) (y : BitVec w) (lo len : Nat) (h : w ≤ lo) :
    nfld (x ++ y) lo len = nfld x (lo - w) len := congrArg BitVec.toNat (Laws.fld_append_high x y lo len h)

theorem nfld_append_whole {v w : Nat} (x : BitVec v) (y : BitVec w) : nfld (x ++ y) 0 w = y.toNat := by
  rw [Laws.nfld_eq_toNat_fld, Laws.fld_append_low _ _ _ _ (by omega), Laws.fld_whole]

section
variable (kind : Nat) (a : SramArray) (die core region count : Nat) (t : Tagged)

theorem errorRecord_kind : nfld (errorRecord kind a die core region count t) 0 8 = kind % 256 := by
  rw [errorRecord, nfld_append_whole, BitVec.toNat_ofNat]

theorem errorRecord_array : nfld (errorRecord kind a die core region count t) 8 8 = arrayCode a := by
  rw [errorRecord, nfld_append_high _ _ _ _ (by decide)]
  exact (nfld_append_whole _ _).trans (Nat.mod_eq_of_lt (arrayCode_lt a))

theorem errorRecord_die : nfld (errorRecord kind a die core region count t) 16 8 = die % 256 := by
  rw [errorRecord]
  iterate 2 rw [nfld_append_high _ _ _ _ (by decide)]
  exact nfld_append_whole _ _

theorem errorRecord_owner : nfld (errorRecord kind a die core region count t) 40 8 = t.owner.getD 0 % 256 := by
  rw [errorRecord]
  iterate 5 rw [nfld_append_high _ _ _ _ (by decide)]
  exact nfld_append_whole _ _

theorem errorRecord_world : flag (errorRecord kind a die core region count t) 48 = t.world := by
  rw [errorRecord]
  iterate 6 rw [Laws.flag_append_high _ _ _ (by decide)]
  exact (Laws.flag_append_low _ _ _ (by decide)).trans (Laws.flag_bit _)

theorem errorRecord_owned : flag (errorRecord kind a die core region count t) 50 = t.owner.isSome := by
  rw [errorRecord]
  iterate 8 rw [Laws.flag_append_high _ _ _ (by decide)]
  exact (Laws.flag_append_low _ _ _ (by decide)).trans (Laws.flag_bit _)

theorem errorRecord_count : nfld (errorRecord kind a die core region count t) 56 8 = min count 255 := by
  rw [errorRecord]
  iterate 10 rw [nfld_append_high _ _ _ _ (by decide)]
  exact (nfld_append_whole _ _).trans (Nat.mod_eq_of_lt (by omega))

theorem errorRecord_handle : nfld (errorRecord kind a die core region count t) 64 16 = t.handle % 2 ^ 16 := by
  rw [errorRecord]
  iterate 11 rw [nfld_append_high _ _ _ _ (by decide)]
  exact nfld_append_whole _ _

end

/-! Maps whose values change in place. -/

theorem SMap.find?_map {α : Type} (m : SMap α) (f : Nat → α → α) (k : Nat) :
    SMap.find? (m.map (fun e => (e.1, f e.1 e.2))) k = (m.find? k).map (f k) := by
  induction m with
  | nil => rfl
  | cons e m ih =>
    obtain ⟨a, x⟩ := e
    by_cases hk : a = k
    · subst hk
      simp [SMap.find?]
    · simpa [SMap.find?, hk] using ih

theorem SMap.modify_of_find? {α : Type} {m : SMap α} {k : Nat} {v : α} (f : α → α) (h : m.find? k = some v) :
    m.modify k f = m.insert k (f v) := by rw [SMap.modify, h]

/-! Lasting faults (R359, R361). -/

theorem onlyMemory_writeBackRegion (s : State) (region : Nat) : OnlyMemory s (s.writeBackRegion region) :=
  .foldl onlyMemory_evict _ s

/-- Writing a region back takes lines away and brings none. -/
theorem State.writeBackRegion_lines (s : State) (region n : Nat) :
    (s.writeBackRegion region).lines.find? n = none ∨ (s.writeBackRegion region).lines.find? n = s.lines.find? n := by
  unfold State.writeBackRegion
  generalize s.lines.keys.filter (fun n => (Config.lineRegion n).val = region) = ns
  induction ns generalizing s with
  | nil => exact .inr rfl
  | cons m ns ih =>
    rcases ih (s.evict m) with h | h
    · exact .inl h
    · rw [State.evict_lines] at h
      split at h
      · exact .inl h
      · exact .inr h

/-- Writing a region of Burrow back changes no leaf's bytes and no poison. -/
theorem Context.writeBackRegion_leaf (x : Context) (ctx region l : Nat) :
    ((x.writeBackRegion ctx region).leaves.get l).poisoned = (x.leaves.get l).poisoned
      ∧ ((x.writeBackRegion ctx region).leaves.get l).bytes = (x.leaves.get l).bytes := by
  simp only [SMap.get, Context.writeBackRegion]
  rw [SMap.find?_map x.leaves fun k v => if (Config.leafRegion ctx k).val = region then { v with dirty := false } else v]
  cases x.leaves.find? l with
  | none => exact ⟨rfl, rfl⟩
  | some v =>
    simp only [Option.map_some, Option.getD_some]
    split <;> exact ⟨rfl, rfl⟩

/-- From `s` to `t` errors are counted and recorded, regions and cores retired, and what stood in a region written back. -/
def Counted (s t : State) : Prop :=
  t = { s with mem := t.mem, lines := t.lines, sealed := t.sealed, owed := t.owed, ctxs := t.ctxs, errors := t.errors, out := t.out,
               lasting := t.lasting, retired := t.retired }

namespace Counted
variable {s t u : State}

theorem refl (s : State) : Counted s s := rfl

theorem trans (h : Counted s t) (g : Counted t u) : Counted s u := by
  unfold Counted at *
  rw [g, h]

theorem ofMemory (h : OnlyMemory s t) : Counted s t := by
  unfold OnlyMemory at h
  unfold Counted
  rw [h]

theorem wgs (h : Counted s t) : t.wgs = s.wgs := (congrArg State.wgs h).trans rfl
theorem grids (h : Counted s t) : t.grids = s.grids := (congrArg State.grids h).trans rfl
theorem ladders (h : Counted s t) : t.ladders = s.ladders := (congrArg State.ladders h).trans rfl
theorem queues (h : Counted s t) : t.queues = s.queues := (congrArg State.queues h).trans rfl
theorem tags (h : Counted s t) : t.tags = s.tags := (congrArg State.tags h).trans rfl

end Counted

section
variable (s : State) (a : SramArray) (die core region : Nat)

/-- The region is lasting. -/
def State.lastingAt : State := { s with lasting := regionKey a die core region :: s.lasting }

/-- What a lasting fault does beside: it writes a region of the die cache or of Burrow back, or may retire cores, of a core's array its core. -/
theorem State.markLasting_cases :
    (a = .dieCache ∧ s.markLasting a die core region = (s.lastingAt a die core region).writeBackRegion (64 * die + region))
    ∨ (a = .burrow ∧ s.markLasting a die core region = { s.lastingAt a die core region with
        ctxs := s.ctxs.map (fun e => (e.1, e.2.writeBackRegion e.1 (32 * die + region))) })
    ∨ (a ≠ .dieCache ∧ a ≠ .burrow ∧ ∃ cores, s.markLasting a die core region = { s.lastingAt a die core region with retired := cores }
        ∧ (ofCore a = true → coreKey die core ∈ cores)) := by
  have other (h : a ≠ .dieCache ∧ a ≠ .burrow ∧ ofCore a = false) (e : s.markLasting a die core region
      = if (s.lastingAt a die core region).noOtherLeft die
        then { s.lastingAt a die core region with retired := dieCores die ++ s.retired } else s.lastingAt a die core region) :
      a ≠ .dieCache ∧ a ≠ .burrow ∧ ∃ cores, s.markLasting a die core region = { s.lastingAt a die core region with retired := cores }
        ∧ (ofCore a = true → coreKey die core ∈ cores) := by
    refine ⟨h.1, h.2.1, ?_⟩
    rw [e, h.2.2]
    split
    · exact ⟨_, rfl, nofun⟩
    · exact ⟨s.retired, rfl, nofun⟩
  cases a
  case dieCache => exact .inl ⟨rfl, rfl⟩
  case burrow => exact .inr (.inl ⟨rfl, rfl⟩)
  case other => exact .inr (.inr (other (by decide) rfl))
  case translation => exact .inr (.inr (other (by decide) rfl))
  case firmware => exact .inr (.inr (other (by decide) rfl))
  all_goals exact .inr (.inr ⟨by decide, by decide, _, rfl, fun _ => List.mem_cons_self⟩)

theorem counted_markLasting : Counted s (s.markLasting a die core region) := by
  rcases s.markLasting_cases a die core region with ⟨-, h⟩ | ⟨-, h⟩ | ⟨-, -, cores, h, -⟩ <;> rw [h]
  · exact Counted.trans (t := s.lastingAt a die core region) rfl (.ofMemory (onlyMemory_writeBackRegion _ _))
  · rfl
  · rfl

/-- The region becomes lasting, and nothing is sent out by that. -/
theorem State.markLasting_region : (s.markLasting a die core region).lasting = regionKey a die core region :: s.lasting
    ∧ (s.markLasting a die core region).out = s.out := by
  rcases s.markLasting_cases a die core region with ⟨-, h⟩ | ⟨-, h⟩ | ⟨-, -, cores, h, -⟩ <;> rw [h]
  · have hm := onlyMemory_writeBackRegion (s.lastingAt a die core region) (64 * die + region)
    exact ⟨(congrArg State.lasting hm).trans rfl, (congrArg State.out hm).trans rfl⟩
  · exact ⟨rfl, rfl⟩
  · exact ⟨rfl, rfl⟩

theorem State.markLasting_retired (h : ofCore a = true) : coreKey die core ∈ (s.markLasting a die core region).retired := by
  rcases s.markLasting_cases a die core region with ⟨rfl, -⟩ | ⟨rfl, -⟩ | ⟨-, -, cores, he, hc⟩
  · cases h
  · cases h
  · rw [he]
    exact hc h

theorem State.markLasting_mem (h : a ≠ .dieCache) : (s.markLasting a die core region).mem = s.mem := by
  rcases s.markLasting_cases a die core region with ⟨ha, -⟩ | ⟨-, he⟩ | ⟨-, -, cores, he, -⟩
  · exact absurd ha h
  · rw [he]; rfl
  · rw [he]; rfl

theorem State.markLasting_ctxs (h : a ≠ .burrow) : (s.markLasting a die core region).ctxs = s.ctxs := by
  rcases s.markLasting_cases a die core region with ⟨-, he⟩ | ⟨ha, -⟩ | ⟨-, -, cores, he, -⟩
  · rw [he]
    exact (congrArg State.ctxs (onlyMemory_writeBackRegion _ _)).trans rfl
  · exact absurd ha h
  · rw [he]; rfl

/-- A lasting fault takes lines off the chip and brings none. -/
theorem State.markLasting_lines (n : Nat) : (s.markLasting a die core region).lines.find? n = none
    ∨ (s.markLasting a die core region).lines.find? n = s.lines.find? n := by
  rcases s.markLasting_cases a die core region with ⟨-, he⟩ | ⟨-, he⟩ | ⟨-, -, cores, he, -⟩ <;> rw [he]
  · exact (s.lastingAt a die core region).writeBackRegion_lines _ n
  · exact .inr rfl
  · exact .inr rfl

theorem State.markLasting_burrow_ctx (c : Nat) :
    (s.markLasting .burrow die core region).ctx c = (s.ctx c).writeBackRegion c (32 * die + region) := by
  have he : (s.markLasting .burrow die core region).ctxs = s.ctxs.map (fun e => (e.1, e.2.writeBackRegion e.1 (32 * die + region))) := rfl
  rw [State.ctx, State.ctx, he, SMap.get, SMap.get, SMap.find?_map s.ctxs fun k x => x.writeBackRegion k (32 * die + region)]
  cases s.ctxs.find? c <;> rfl

/-- A lasting fault leaves every leaf its bytes and its poison. -/
theorem State.markLasting_leaf (c l : Nat) :
    (((s.markLasting a die core region).ctx c).leaves.get l).poisoned = ((s.ctx c).leaves.get l).poisoned
      ∧ (((s.markLasting a die core region).ctx c).leaves.get l).bytes = ((s.ctx c).leaves.get l).bytes := by
  by_cases ha : a = .burrow
  · subst ha
    rw [State.markLasting_burrow_ctx]
    exact (s.ctx c).writeBackRegion_leaf c _ l
  · rw [State.ctx, s.markLasting_ctxs a die core region ha]
    exact ⟨rfl, rfl⟩

end

/-! Counting (R359, R360). -/

section
variable (s : State) (kind : Nat) (a : SramArray) (die core region : Nat) (t : Tagged)

/-- The error is counted and recorded. -/
def State.noted : State := { s with
  errors := s.errors.put (regionKey a die core region) (s.errors.get (regionKey a die core region) + 1)
  out := s.out ++ [.error (nearIo die) (errorRecord kind a die core region (s.errors.get (regionKey a die core region) + 1) t)] }

/-- The record that a region's fault is lasting. -/
def State.lastingRecord : BitVec 128 :=
  errorRecord 3 a die core region (s.errors.get (regionKey a die core region) + 1) { t with handle := 0 }

/-- At THRESH a region that is not lasting yet becomes so. -/
theorem State.countError_eq : s.countError kind a die core region t
    = if s.thresh ≤ s.errors.get (regionKey a die core region) + 1 ∧ !s.lasting.contains (regionKey a die core region)
      then ((s.noted kind a die core region t).markLasting a die core region).send (.error (nearIo die) (s.lastingRecord a die core region t))
      else s.noted kind a die core region t := rfl

theorem State.countError_cases : s.countError kind a die core region t = s.noted kind a die core region t
    ∨ s.countError kind a die core region t = ((s.noted kind a die core region t).markLasting a die core region).send
        (.error (nearIo die) (s.lastingRecord a die core region t)) := by
  rw [State.countError_eq]
  split
  · exact .inr rfl
  · exact .inl rfl

theorem counted_countError : Counted s (s.countError kind a die core region t) := by
  rcases s.countError_cases kind a die core region t with h | h <;> rw [h]
  · rfl
  · exact (Counted.trans (t := s.noted kind a die core region t) rfl (counted_markLasting _ a die core region)).trans rfl

theorem State.countError_ctxs (h : a ≠ .burrow) : (s.countError kind a die core region t).ctxs = s.ctxs := by
  rcases s.countError_cases kind a die core region t with he | he <;> rw [he]
  · rfl
  · exact State.markLasting_ctxs _ a die core region h

theorem State.countError_lines (n : Nat) : (s.countError kind a die core region t).lines.find? n = none
    ∨ (s.countError kind a die core region t).lines.find? n = s.lines.find? n := by
  rcases s.countError_cases kind a die core region t with he | he <;> rw [he]
  · exact .inr rfl
  · exact (s.noted kind a die core region t).markLasting_lines a die core region n

theorem State.countError_leaf (c l : Nat) :
    (((s.countError kind a die core region t).ctx c).leaves.get l).poisoned = ((s.ctx c).leaves.get l).poisoned
      ∧ (((s.countError kind a die core region t).ctx c).leaves.get l).bytes = ((s.ctx c).leaves.get l).bytes := by
  rcases s.countError_cases kind a die core region t with he | he <;> rw [he]
  · exact ⟨rfl, rfl⟩
  · exact (s.noted kind a die core region t).markLasting_leaf a die core region c l

/-- Counting an error gives a context that has been stopped no work. -/
theorem stopped_countError {s : State} {c : Nat} (h : Stopped s c) (ha : a ≠ .burrow) : Stopped (s.countError kind a die core region t) c :=
  have hc := counted_countError s kind a die core region t
  stopped_congr h hc.wgs hc.grids hc.ladders hc.queues (s.countError_ctxs kind a die core region t ha)

end

/-! Uncorrectable errors (R357, R358). -/

section
variable {s : State} {a : SramArray} {die core line : Nat}

theorem State.tagOf_core (hc : ofCore a = true) (hd : a ≠ .datapath) :
    s.tagOf a die core line = s.tags.find? (tagKey (arrayCode a) die core line) := by
  cases a
  case datapath => exact absurd rfl hd
  case dieCache | burrow | other | translation | firmware => cases hc
  all_goals rfl

/-- A line of a core's array that carries a tag ends its owner, and is cleared. -/
theorem State.breakLine_core (hc : ofCore a = true) (hd : a ≠ .datapath) (g : Tag) : s.breakLine a die core line (some g)
    = ⟨{ s.endOwner g.ctx with tags := (s.endOwner g.ctx).tags.erase (tagKey (arrayCode a) die core line) }, (s.ctx g.ctx).valid, 1, 0⟩ := by
  cases a
  case datapath => exact absurd rfl hd
  case dieCache | burrow | other | translation | firmware => cases hc
  all_goals rfl

/-- One that carries none ends nothing. -/
theorem State.breakLine_untagged (hc : ofCore a = true) : s.breakLine a die core line none = .kept s := by
  cases a
  case dieCache | burrow | other | translation | firmware => cases hc
  all_goals rfl

/-- A dirty line of the die cache that a context owns ends it, and is cleared. -/
theorem State.breakLine_dirty {l : Line} {c : Nat} (tag : Option Tag) (hl : s.lines.find? line = some l) (ho : l.owner = some (.ctx c))
    (hd : l.dirty = true) : s.breakLine .dieCache die core line tag
      = ⟨{ s.endOwner c with lines := (s.endOwner c).lines.insert line default }, (s.ctx c).valid, 1, 0⟩ := by
  simp only [State.breakLine, hl, ho, hd]

/-- A clean one is dropped, to be read again. -/
theorem State.breakLine_clean {l : Line} {c : Nat} (tag : Option Tag) (hl : s.lines.find? line = some l) (ho : l.owner = some (.ctx c))
    (hd : l.dirty = false) : s.breakLine .dieCache die core line tag = .kept { s with lines := s.lines.erase line } := by
  simp only [State.breakLine, hl, ho, hd]

theorem State.endOwner_valid {c : Nat} (h : (s.ctx c).valid = true) : s.endOwner c = s.endContext c .poison := if_pos h

/-- A dirty leaf that Burrow holds is poisoned. -/
theorem State.breakLine_leaf {l : Leaf} {g : Tag} (hg : g.ctx = burrowCtx line)
    (hl : (s.ctx (burrowCtx line)).leaves.find? (burrowLeaf line) = some l) (hd : l.dirty = true) :
    s.breakLine .burrow die core line (some g) = s.poisonLeaf (burrowCtx line) (burrowLeaf line) := by
  simp only [State.breakLine, hg, hl, hd, if_true]

/-- A leaf that is not poisoned, in a region that is not lasting, carries its context's tag. -/
theorem State.tagOf_leaf {region : Nat} {l : Leaf} (hr : region < 32) (hs : s.standsIn .burrow die region line = true)
    (hlast : s.lasting.contains (regionKey .burrow die core region) = false)
    (hl : (s.ctx (burrowCtx line)).leaves.find? (burrowLeaf line) = some l) (hp : l.poisoned = false) :
    s.tagOf .burrow die core line = some ⟨burrowCtx line, (s.ctx (burrowCtx line)).secure⟩ := by
  have hregion : (Config.leafRegion (burrowCtx line) (burrowLeaf line)).val = 32 * die + region := of_decide_eq_true hs
  have hdie : (32 * die + region) / 32 = die := by omega
  have hplace : (32 * die + region) % 32 = region := by omega
  have htakes : s.takesLeaf (burrowCtx line) (burrowLeaf line) = true := by
    rw [State.takesLeaf, hregion, hdie, hplace]
    exact congrArg not hlast
  simp only [State.tagOf, hl, hp, htakes, Bool.not_true, Bool.or_self, Bool.false_eq_true, if_false]

/-- The state of a queue carries the tag of its context until that is swept. -/
theorem State.tagOf_queue {c : Nat} (hq : s.queueOwner line = some c) :
    s.tagOf .other die core line = some ⟨c, (s.ctx c).secure⟩ := by
  simp only [State.tagOf, hq, Option.map_some]

theorem State.queueOwner_user {c : Nat} {q : Queue} (hc : (s.ctx c).valid = true ∨ (s.ctx c).sweeping = true) (hl : line < 4096)
    (hq : s.queues.find? line = some q) (he : q.ctx.toNat = c) : s.queueOwner line = some c := by
  simp [State.queueOwner, hl, hq, he, Option.filter, hc]

theorem State.queueOwner_device {c : Nat} (hc : (s.ctx c).valid = true ∨ (s.ctx c).sweeping = true) (hb : (s.ctx c).devBare = false) :
    s.queueOwner (4096 + c) = some c := by
  simp [State.queueOwner, hb, Option.filter, hc]

end

/-! Scrubbing. -/

/-- The line is one of those that a scrub of the region reads (R356, R359). -/
def State.Scrubbed (s : State) (a : SramArray) (die core region line : Nat) : Prop :=
  die < 8 ∧ core < 56 ∧ region < regionCount a ∧ s.standsIn a die region line = true

/-- What a record says of a line. -/
def State.told (s : State) (a : SramArray) (die core line : Nat) : Tagged :=
  { owner := (s.tagOf a die core line).map (·.ctx), world := s.worldAt a die core line, ended := false, handle := 0 }

section
variable {s : State} {a : SramArray} {die core region line : Nat}

theorem scrub_unplaced (h : ¬ s.Scrubbed a die core region line) (bad : Nat) : exec (.hedgehogScrub a die core region line bad) s = .next s := by
  refine if_pos (.inr ?_)
  by_contra! hn
  exact h ⟨hn.1, hn.2.1, hn.2.2.1, by simpa using hn.2.2.2⟩

theorem scrub_corrected (h : s.Scrubbed a die core region line) : exec (.hedgehogScrub a die core region line 1) s
    = .next (s.countError 0 a die core region (s.told a die core line)) := by
  obtain ⟨hd, hc, hr, hs⟩ := h
  refine (if_neg ?_).trans (if_pos rfl)
  rintro (h | h | h | h | h)
  · cases h
  · exact absurd hd (Nat.not_lt.2 h)
  · exact absurd hc (Nat.not_lt.2 h)
  · exact absurd hr (Nat.not_lt.2 h)
  · simp [hs] at h

theorem scrub_uncorrectable (h : s.Scrubbed a die core region line) : ∃ t : Tagged, exec (.hedgehogScrub a die core region line 2) s
    = .next ((s.breakLine a die core line (s.tagOf a die core line)).state.countError
        (s.breakLine a die core line (s.tagOf a die core line)).kind a die core region t) := by
  obtain ⟨hd, hc, hr, hs⟩ := h
  refine ⟨_, (if_neg ?_).trans (if_neg (by decide))⟩
  rintro (h | h | h | h | h)
  · cases h
  · exact absurd hd (Nat.not_lt.2 h)
  · exact absurd hc (Nat.not_lt.2 h)
  · exact absurd hr (Nat.not_lt.2 h)
  · simp [hs] at h

/-- The world bit of a tagged line is its tag's, but for a line of the die cache, which has its own. -/
theorem State.worldAt_tag {g : Tag} (ha : a ≠ .dieCache) (hg : s.tagOf a die core line = some g) : s.worldAt a die core line = g.secure := by
  cases a
  case dieCache => exact absurd rfl ha
  all_goals simp only [State.worldAt, hg]

end

/-- Settles O59: a line is sealed as it leaves (`State.evict_dirty`, `Memory.clear_sealLine`); an error is counted and recorded and marks its
region at THRESH (`State.countError_eq`); what breaks ends its owner (`State.breakLine_core`, `State.breakLine_dirty`, `stopped_endContext`). -/
theorem errorsAreCountedAndContained : Obligations.ErrorsAreCountedAndContained := by
  intro s a die core region line key scrub placed
  refine ⟨fun l o hl ho hd hr => ?_, fun l hl h => congrArg Host.Outcome.next (State.evict_dropped hl h), fun ctx x leaf l hx hl => ?_,
    fun hn bad => scrub_unplaced hn bad, fun hp hn => ?_, fun hp hn hlast => ?_, fun c x l hp ha hc hlast hx hl hd hpois => ?_,
    fun g hp hc hd hg hv => ?_, fun hp hc hg => ?_, fun l hc hd => State.tagOf_core hc hd, fun l c ha hc => ?_,
    fun c l hp ha hl ho => ⟨fun hd hv => ?_, fun hd => ?_⟩, fun io => ⟨_, rfl, fun e => ?_⟩⟩
  · refine ⟨_, congrArg Host.Outcome.next (State.evict_dirty hl ho hd hr), SMap.find?_erase_self _ _, SMap.find?_insert_self _ _ _,
      fun j hj => s.mem.clear_sealLine _ _ _ hj, fun x hx => ?_⟩
    exact (s.mem.read_sealLine _ _ _ x).trans (if_neg (by omega))
  · show Host.Outcome.next { s with ctxs := s.ctxs.modify ctx _ } = _
    rw [SMap.modify_of_find? _ hx, SMap.modify_of_find? _ hl]
  · refine ⟨errorRecord 0 a die core region (s.errors.get key + 1) (s.told a die core line), ?_, errorRecord_kind _ _ _ _ _ _ _,
      errorRecord_array _ _ _ _ _ _ _, ?_, errorRecord_count _ _ _ _ _ _ _, fun g hg => ⟨?_, ?_, fun ha => ?_⟩, fun hg => ⟨?_, ?_⟩,
      fun l ha hl => ?_⟩
    · show exec _ s = _
      rw [scrub_corrected hp, State.countError_eq, if_neg fun h => absurd hn (Nat.not_lt.2 h.1)]
      rfl
    · exact (errorRecord_die _ _ _ _ _ _ _).trans (Nat.mod_eq_of_lt (by have := hp.1; omega))
    · rw [errorRecord_owned, State.told, hg]
      rfl
    · rw [errorRecord_owner, State.told, hg]
      rfl
    · rw [errorRecord_world, State.told, State.worldAt_tag ha hg]
    · rw [errorRecord_owned, State.told, hg]
      rfl
    · rw [errorRecord_owner, State.told, hg]
      rfl
    · rw [errorRecord_world, State.told, ha, State.worldAt, SMap.get_of_find? hl]
  · have hnoted := (s.noted 0 a die core region (s.told a die core line)).markLasting_region a die core region
    have hscrub : scrub 1 = _ := (scrub_corrected hp).trans (congrArg Host.Outcome.next
      ((State.countError_eq ..).trans (if_pos ⟨hn, congrArg not hlast⟩)))
    refine ⟨_, errorRecord 0 a die core region (s.errors.get key + 1) (s.told a die core line), s.lastingRecord a die core region
      (s.told a die core line), hscrub, ?_, ?_, errorRecord_kind _ _ _ _ _ _ _, errorRecord_handle _ _ _ _ _ _ _, fun hc => ?_, fun ha => ?_⟩
    · rw [State.send_lasting, hnoted.1]
      exact List.contains_iff_mem.2 List.mem_cons_self
    · rw [State.send_out, hnoted.2]
      exact List.append_assoc _ _ _
    · exact List.contains_iff_mem.2 (State.markLasting_retired _ a die core region hc)
    · exact State.markLasting_mem _ a die core region ha
  · subst ha hc
    have hctx : s.ctx (burrowCtx line) = x := SMap.get_of_find? hx
    have hl' : (s.ctx (burrowCtx line)).leaves.find? (burrowLeaf line) = some l := hctx ▸ hl
    obtain ⟨t, ht⟩ := scrub_uncorrectable hp
    rw [State.tagOf_leaf hp.2.2.1 hp.2.2.2 hlast hl' hpois, State.breakLine_leaf rfl hl' hd] at ht
    have hleaf : ((s.poisonLeaf (burrowCtx line) (burrowLeaf line)).state.ctx (burrowCtx line)).leaves.get (burrowLeaf line)
        = { bytes := [], poisoned := true, dirty := false } := by
      rw [State.poisonLeaf, State.ctx, SMap.get_insert_self]
      exact SMap.get_insert_self _ _ _
    have hkept := State.countError_leaf (s.poisonLeaf (burrowCtx line) (burrowLeaf line)).state
      (s.poisonLeaf (burrowCtx line) (burrowLeaf line)).kind .burrow die core region t (burrowCtx line) (burrowLeaf line)
    rw [hleaf] at hkept
    exact ⟨_, ht, hkept.1, hkept.2, (counted_countError _ _ _ _ _ _ _).wgs⟩
  · obtain ⟨t, ht⟩ := scrub_uncorrectable hp
    rw [hg, State.breakLine_core hc hd, State.endOwner_valid hv] at ht
    refine ⟨_, ht, stopped_countError _ _ _ _ _ _ (stopped_congr (stopped_endContext s g.ctx .poison) rfl rfl rfl rfl rfl) ?_, ?_⟩
    · rintro rfl
      cases hc
    · rw [(counted_countError _ _ _ _ _ _ _).tags]
      exact SMap.find?_erase_self _ _
  · obtain ⟨t, ht⟩ := scrub_uncorrectable hp
    rw [hg, State.breakLine_untagged hc] at ht
    have hcount := counted_countError s 1 a die core region t
    refine ⟨_, ht, hcount.wgs, hcount.grids, State.countError_ctxs _ _ _ _ _ _ _ ?_, hcount.tags⟩
    rintro rfl
    cases hc
  · subst ha
    exact ⟨fun hl q hq he => State.tagOf_queue (State.queueOwner_user hc hl hq he),
      fun hl hb => hl ▸ State.tagOf_queue (State.queueOwner_device hc hb)⟩
  · subst ha
    obtain ⟨t, ht⟩ := scrub_uncorrectable hp
    rw [State.breakLine_dirty _ hl ho hd, State.endOwner_valid hv] at ht
    refine ⟨_, ht, stopped_countError _ _ _ _ _ _ (stopped_congr (stopped_endContext s c .poison) rfl rfl rfl rfl rfl) (by decide),
      fun x hx => ?_⟩
    rcases State.countError_lines _ 1 .dieCache die core region t line with h | h
    · exact absurd (h.symm.trans hx) (by simp)
    · exact Option.some.inj (hx.symm.trans (h.trans (SMap.find?_insert_self _ _ _)))
  · subst ha
    obtain ⟨t, ht⟩ := scrub_uncorrectable hp
    rw [State.breakLine_clean _ hl ho hd] at ht
    have hcount := counted_countError { s with lines := s.lines.erase line } 1 .dieCache die core region t
    refine ⟨_, ht, ?_, hcount.wgs, hcount.grids⟩
    rcases State.countError_lines { s with lines := s.lines.erase line } 1 .dieCache die core region t line with h | h
    · exact h
    · exact h.trans (SMap.find?_erase_self _ _)
  · simp

end Sys2Proof.Machine
end

section
/-! SUPPORT. A run ends: its destinations become full (O23, R19, R147). -/

namespace Sys2Proof.Machine

/-- The crew with a register no longer empty, its value as it was. -/
def Crew.filled (c : Crew) (n : Nat) : Crew := { c with sTag := c.sTag.erase n }

theorem Crew.fill_of_younger {c : Crew} {r : Run} {n : Nat} (results : Cells 33) (h : c.sTag.find? n ≠ some r.tag) :
    c.fill r results n = c := if_neg h

theorem Crew.fill_of_awaited {c : Crew} {r : Run} {n : Nat} (results : Cells 33) (h : c.sTag.find? n = some r.tag) :
    c.fill r results n = if flag (results.get n) 32 = true
      then (c.filled n).setS (BitVec.ofNat 6 n) (fld (results.get n) 0 32) else c.filled n := if_pos h

/-- The empty mark of a register after a destination of a run has been filled. -/
theorem Crew.fill_sTag (c : Crew) (r : Run) (results : Cells 33) {n : Nat} (hn : n < 64) (m : Nat) :
    (c.fill r results n).sTag.find? m
      = if m = n ∧ c.sTag.find? n = some r.tag then none else c.sTag.find? m := by
  have hto : (BitVec.ofNat 6 n).toNat = n := by
    rw [BitVec.toNat_ofNat]
    omega
  by_cases h : c.sTag.find? n = some r.tag
  · rw [Crew.fill_of_awaited results h]
    simp only [Crew.setS, Crew.filled, hto, h, and_true]
    split_ifs <;> simp_all [SMap.find?_erase]
  · simp [Crew.fill_of_younger results h, h]

/-- The value of a register after a destination of a run has been filled. -/
theorem Crew.fill_s (c : Crew) (r : Run) (results : Cells 33) {n : Nat} (hn : n < 64) {d : Reg} (hd : d ≠ 0) :
    (c.fill r results n).s d
      = if (d.toNat = n ∧ c.sTag.find? n = some r.tag) ∧ flag (results.get n) 32 = true then fld (results.get n) 0 32 else c.s d := by
  have hreg : d = BitVec.ofNat 6 n ↔ d.toNat = n := by
    rw [← BitVec.toNat_inj, BitVec.toNat_ofNat]
    omega
  have hfilled : (c.filled n).s d = c.s d := rfl
  by_cases h : c.sTag.find? n = some r.tag
  · rw [Crew.fill_of_awaited results h]
    by_cases hf : flag (results.get n) 32 = true
    · rw [if_pos hf, Crew.s_setS, if_neg hd]
      simp only [hreg, hfilled, h, hf, and_true]
    · rw [if_neg hf]
      simp only [hf, and_false, if_false, hfilled, Bool.false_eq_true]
  · simp [Crew.fill_of_younger results h, h]

theorem Crew.fill_vreg (c : Crew) (r : Run) (results : Cells 33) (n : Nat) : (c.fill r results n).vreg = c.vreg := by
  by_cases h : c.sTag.find? n = some r.tag
  · rw [Crew.fill_of_awaited results h]
    split_ifs <;> simp [Crew.filled]
  · rw [Crew.fill_of_younger results h]

/-- What a run that ends leaves in one register: filled once, with what the run last wrote to it, else as it was. -/
theorem Crew.fills_reg (r : Run) (results : Cells 33) {d : Reg} (hd : d ≠ 0) (ds : List Nat) (c : Crew) (hds : ∀ n ∈ ds, n < 64) :
    (ds.foldl (fun (c : Crew) n => c.fill r results n) c).sTag.find? d.toNat
        = (if d.toNat ∈ ds ∧ c.sTag.find? d.toNat = some r.tag then none else c.sTag.find? d.toNat)
      ∧ (ds.foldl (fun (c : Crew) n => c.fill r results n) c).s d
        = (if (d.toNat ∈ ds ∧ c.sTag.find? d.toNat = some r.tag) ∧ flag (results.get d.toNat) 32 = true
            then fld (results.get d.toNat) 0 32 else c.s d) := by
  induction ds generalizing c with
  | nil => simp
  | cons n ds ih =>
    obtain ⟨hn, hds⟩ := List.forall_mem_cons.mp hds
    obtain ⟨htag, hval⟩ := ih (c.fill r results n) hds
    rw [List.foldl_cons, htag, hval, Crew.fill_sTag c r results hn, Crew.fill_s c r results hn hd]
    by_cases hnd : d.toNat = n
    · subst hnd
      by_cases ht : c.sTag.find? d.toNat = some r.tag <;> simp [ht]
    · simp [hnd]

theorem Crew.fills_vreg (r : Run) (results : Cells 33) (ds : List Nat) (c : Crew) :
    (ds.foldl (fun (c : Crew) n => c.fill r results n) c).vreg = c.vreg := by
  induction ds generalizing c with
  | nil => rfl
  | cons n ds ih => rw [List.foldl_cons, ih, Crew.fill_vreg]

/-- R19, R147: the event by which a run ends. -/
theorem execRunComplete_of_ended {s : State} {k : CrewKey} {w : Workgroup} {c : Crew} (h : s.find k = some (w, c))
    {r : Run} {rest : List Run} {p : Progress} (hq : c.queue = r :: rest) (hp : c.prog = some p) (hended : p.ended = true)
    (hmma : c.mma = none) (hfly : ∀ a ∈ c.flying, a.done = true ∨ a.kind.fillsLanes = false)
    (hpend : ∀ q ∈ c.pending, q.lanes = []) :
    execRunComplete k s = .next (s.put k w
      { (r.dests.foldl (fun (c : Crew) d => c.fill r p.results d) c) with queue := rest, prog := none }) := by
  have hall : (p.ended && c.mma.isNone && c.flying.all (fun a => a.done || !a.kind.fillsLanes)
      && c.pending.all (fun q => q.lanes.isEmpty)) = true := by
    simp only [hended, hmma, Option.isNone_none, Bool.true_and, Bool.and_eq_true, List.all_eq_true, Bool.or_eq_true,
      Bool.not_eq_true', List.isEmpty_iff]
    exact ⟨hfly, hpend⟩
  simp only [execRunComplete, h, hq, hp, if_pos hall]

/-- R19, R147: a run ends, and each of its destinations is full. -/
theorem runComplete_fills {s : State} {k : CrewKey} {w : Workgroup} {c : Crew} (h : s.find k = some (w, c))
    {r : Run} {rest : List Run} {p : Progress} (hq : c.queue = r :: rest) (hp : c.prog = some p) (hended : p.ended = true)
    (hmma : c.mma = none) (hfly : ∀ a ∈ c.flying, a.done = true ∨ a.kind.fillsLanes = false)
    (hpend : ∀ q ∈ c.pending, q.lanes = []) (hds : ∀ d ∈ r.dests, d < 64) : ∃ c',
      exec (.runComplete k) s = .next (s.put k w c') ∧ c'.queue = rest ∧ c'.prog = none ∧ c'.vreg = c.vreg
      ∧ ∀ d : Reg, d ≠ 0 → if d.toNat ∈ r.dests ∧ c.sTag.find? d.toNat = some r.tag
          then c'.full d = true ∧ c'.s d = (if flag (p.results.get d.toNat) 32 then fld (p.results.get d.toNat) 0 32 else c.s d)
          else c'.full d = c.full d ∧ c'.s d = c.s d := by
  refine ⟨_, execRunComplete_of_ended h hq hp hended hmma hfly hpend, rfl, rfl, Crew.fills_vreg _ _ _ _, fun d hd => ?_⟩
  obtain ⟨htag, hval⟩ := Crew.fills_reg r p.results hd r.dests c hds
  have hval' := hval
  simp only [Crew.s, if_neg hd] at hval'
  by_cases hin : d.toNat ∈ r.dests ∧ c.sTag.find? d.toNat = some r.tag
  · rw [if_pos hin]
    rw [if_pos hin] at htag
    simp only [Crew.full, htag, Crew.s, if_neg hd, hval', hin, Option.isNone_none, Bool.or_true, true_and]
  · rw [if_neg hin]
    rw [if_neg hin] at htag
    simp [Crew.full, htag, Crew.s, hval', hin]

end Sys2Proof.Machine
end

section
/-! SUPPORT. An MMA commits, and KVLD and FETCH land (O23, R202, R225, R226, R238, R338). -/

namespace Sys2Proof.Machine

/-! MMA_COMMIT. -/

/-- R202: an MMA commits to its accumulator. -/
theorem mmaCommit_of_bound {s : State} {k : CrewKey} {w : Workgroup} {c : Crew} (h : s.find k = some (w, c)) {m : MmaImage}
    {acc : Accum} (hm : c.mma = some m) (hu : m.unbound = false) (ht : m.trapped = false) (hr : m.replay = false)
    (ha : w.accs.find? m.f.dest.toNat = some acc) :
    exec (.mmaCommit k) s = .next (s.put k { w with accs := w.accs.insert m.f.dest.toNat { acc with
      words := m.apply (s.slot w m.f.fa.toNat) (s.slot w m.f.fb.toNat) (s.width w) acc.words } } { c with mma := none }) := by
  change execMmaCommit k s = _
  simp [execMmaCommit, h, hm, hu, ht, hr, ha]

/-- R338: an MMA whose handle is no longer bound raises ACCNONE at its commit. -/
theorem mmaCommit_of_unbound {s : State} {k : CrewKey} {w : Workgroup} {c : Crew} (h : s.find k = some (w, c)) {m : MmaImage}
    (hm : c.mma = some m) (hu : m.unbound = true) (ht : m.trapped = false) (hr : m.replay = false) (hlive : c.status = .live) :
    exec (.mmaCommit k) s = .next ((s.put k w { c with mma := some { m with unbound := false, trapped := true } }).raise k
      (c.sideOf .lane) .accnone 0 .lane false m.pc) := by
  change execMmaCommit k s = _
  have himage : ({ m with replay := false, unbound := false, trapped := true } : MmaImage)
      = { m with unbound := false, trapped := true } := by rw [← hr]
  simp [execMmaCommit, h, hm, hu, ht, hr, hlive, himage]

/-- R338: an MMA that has raised its fault does nothing more. -/
theorem mmaCommit_of_trapped {s : State} {k : CrewKey} {w : Workgroup} {c : Crew} (h : s.find k = some (w, c)) {m : MmaImage}
    (hm : c.mma = some m) (ht : m.trapped = true) : exec (.mmaCommit k) s = .next s := by
  change execMmaCommit k s = _
  simp [execMmaCommit, h, hm, ht]

/-! KVLD. -/

/-- R238: the tile and the pair of a KVLD land. -/
theorem kvldLands_of_part {s : State} {k : CrewKey} {w : Workgroup} {c : Crew} (h : s.find k = some (w, c)) {id tile : Nat}
    {a : Access} {p : Part} {ps : List Part} {d : Reg} {rows : Tile} {status : DWord} (ha : c.access id = some a)
    (hk : a.kind = .kvld d tile rows status) (hps : a.parts = p :: ps) :
    exec (.kvldLands k id) s
      = .next (s.partDone k { w with tiles := w.tiles.put tile rows } (c.landPair d id true status) a p) := by
  change execKvldLands k id s = _
  simp only [execKvldLands, h, ha, hk, hps]

/-! FETCH. -/

/-- What a lane of a FETCH does with what it has read. -/
def State.fetchTake (s : State) (k : CrewKey) (w : Workgroup) (c : Crew) (a : Access) (p : Part) (id n : Nat) : FetchStep → State
  | .key q =>
    (s.touchAt w a.alloc q.reads).put k w ((c.loadCursors [(n, some q)]).putAccess
      { a with parts := a.parts.map (fun r => if r = p then { r with key := some q.key } else r) })
  | .out o =>
    if a.parts.any Part.unread then s
    else
      (s.touchAt w a.alloc o.reads).partDone k w
        (((c.landV p.dst n id o.value).landV (p.dst + 1) n id o.column).landV (p.dst + 2) n id o.status) a p

/-- R225: a lane of a FETCH whose part is not held and may proceed takes its step. -/
theorem fetchLands_of_ready {s : State} {k : CrewKey} {w : Workgroup} {c : Crew} (h : s.find k = some (w, c)) {id n : Nat}
    {a : Access} {p : Part} {slot : BitVec 5} (ha : c.access id = some a) (hk : a.kind = .fetch slot)
    (hp : a.parts.find? (fun q => q.unit == n) = some p) (hheld : p.held = none)
    (hbefore : ∀ b ∈ c.before id, b.done = true ∨ a.waitsFor b p = false) :
    exec (.fetchLands k id [n]) s
      = .next (s.kvHold k w c a p (s.fetchStep w c ((s.gridOf w).buf slot.toNat) slot (a.mayRead (c.before id)) p)
          (s.fetchTake k w c a p id n)) := by
  have hnowait : (c.before id).any (fun b => !b.done && a.waitsFor b p) = false := by
    rw [List.any_eq_false]
    intro b hb
    rcases hbefore b hb with hdone | hwait
    · simp [hdone]
    · simp [hwait]
  have hone : s.fetchOne k id n
      = s.kvHold k w c a p (s.fetchStep w c ((s.gridOf w).buf slot.toNat) slot (a.mayRead (c.before id)) p)
          (s.fetchTake k w c a p id n) := by
    simp only [State.fetchOne, h, ha, hk, hp, hheld, hnowait, Option.isSome_none, Bool.or_self, Bool.false_eq_true, if_false]
    congr 1
    funext o
    cases o <;> simp only [State.fetchTake, hk]
  exact congrArg Host.Outcome.next hone

/-- The unit of the part found for a lane. -/
theorem Part.unit_of_find? {ps : List Part} {n : Nat} {p : Part} (hp : ps.find? (fun q => q.unit == n) = some p) : p.unit = n := by
  simpa using List.find?_some hp

/-- A lane that knows its addresses reads its value next. -/
theorem State.fetchStep_of_key {s : State} {w : Workgroup} {c : Crew} {m : BufRec} {slot : BitVec 5} {may : MayRead} {p : Part}
    {key : DWord} {o : FetchOut} (hkey : p.key = some key)
    (hout : s.fetchOut w may m (m.fetchForm (fld p.data 0 64).toInt (fld p.cmp 0 32).toInt key) = .got o) :
    s.fetchStep w c m slot may p = .got (.out o) := by
  simp only [State.fetchStep, hkey, hout, KvRead.bind]

/-- A lane that does not know its addresses reads what they depend on. -/
theorem State.fetchStep_of_near {s : State} {w : Workgroup} {c : Crew} {m : BufRec} {slot : BitVec 5} {may : MayRead} {p : Part}
    {q : FetchKey} (hkey : p.key = none)
    (hread : s.fetchKey w may m slot (fld p.data 0 64).toInt (fld p.cmp 0 32).toInt (c.cursors.get p.unit) = .got q)
    (hnear : (m.fetchForm (fld p.data 0 64).toInt (fld p.cmp 0 32).toInt q.key).far m = none) :
    s.fetchStep w c m slot may p = .got (.key q) := by
  simp only [State.fetchStep, hkey, hread, KvRead.bind, hnear]

/-- R81: a lane that finds an address with a bit above 51 set. -/
theorem State.fetchStep_of_far {s : State} {w : Workgroup} {c : Crew} {m : BufRec} {slot : BitVec 5} {may : MayRead} {p : Part}
    {q : FetchKey} {va : Nat} (hkey : p.key = none)
    (hread : s.fetchKey w may m slot (fld p.data 0 64).toInt (fld p.cmp 0 32).toInt (c.cursors.get p.unit) = .got q)
    (hfar : (m.fetchForm (fld p.data 0 64).toInt (fld p.cmp 0 32).toInt q.key).far m = some va) :
    s.fetchStep w c m slot may p = .far va := by
  simp only [State.fetchStep, hkey, hread, KvRead.bind, hfar]

theorem FetchForm.far_eq_none_iff {m : BufRec} {form : FetchForm} : form.far m = none ↔ ∀ va ∈ form.addrs m, va < 2 ^ 52 := by
  simp [FetchForm.far]

theorem any_unread_iff {ps : List Part} : ps.any Part.unread = true ↔ ∃ q ∈ ps, q.key = none ∧ q.held = none := by
  simp [List.any_eq_true, Part.unread, Option.isNone_iff_eq_none]

/-- The cursors of a crew after one lane has loaded its own, or kept it. -/
theorem Crew.cursors_loadCursors_single (c : Crew) (n : Nat) (q : FetchKey) (l : Nat) :
    (c.loadCursors [(n, some q)]).cursors.get l = if l = n then q.cursor.getD (c.cursors.get n) else c.cursors.get l := by
  cases hq : q.cursor with
  | none => by_cases hl : l = n <;> simp [Crew.loadCursors, hq, hl]
  | some cur => simp [Crew.loadCursors, hq, SMap.get_put]

section FetchLane

variable {s : State} {k : CrewKey} {w : Workgroup} {c : Crew} (h : s.find k = some (w, c)) {id n : Nat} {a : Access} {p : Part}
  {slot : BitVec 5} (ha : c.access id = some a) (hk : a.kind = .fetch slot)
  (hp : a.parts.find? (fun q => q.unit == n) = some p) (hheld : p.held = none)
  (hbefore : ∀ b ∈ c.before id, b.done = true ∨ a.waitsFor b p = false)

include h ha hk hp hheld hbefore

/-- R225: a lane that has read its value lands, once no other is still to know its addresses. -/
theorem fetchLands_value {key : DWord} {o : FetchOut} (hkey : p.key = some key)
    (hout : s.fetchOut w (a.mayRead (c.before id)) ((s.gridOf w).buf slot.toNat) (((s.gridOf w).buf slot.toNat).fetchForm
      (fld p.data 0 64).toInt (fld p.cmp 0 32).toInt key) = .got o) :
    exec (.fetchLands k id [n]) s = .next (if a.parts.any Part.unread then s
      else (s.touchAt w a.alloc o.reads).partDone k w
        (((c.landV p.dst n id o.value).landV (p.dst + 1) n id o.column).landV (p.dst + 2) n id o.status) a p) := by
  rw [fetchLands_of_ready h ha hk hp hheld hbefore, State.fetchStep_of_key hkey hout]
  rfl

/-- R225, R226: a lane reads what its addresses depend on, and loads its cursor. -/
theorem fetchLands_key {q : FetchKey} (hkey : p.key = none)
    (hread : s.fetchKey w (a.mayRead (c.before id)) ((s.gridOf w).buf slot.toNat) slot (fld p.data 0 64).toInt (fld p.cmp 0 32).toInt
      (c.cursors.get n) = .got q)
    (hnear : ∀ va ∈ (((s.gridOf w).buf slot.toNat).fetchForm (fld p.data 0 64).toInt (fld p.cmp 0 32).toInt q.key).addrs
      ((s.gridOf w).buf slot.toNat), va < 2 ^ 52) :
    exec (.fetchLands k id [n]) s = .next ((s.touchAt w a.alloc q.reads).put k w ((c.loadCursors [(n, some q)]).putAccess
      { a with parts := a.parts.map (fun r => if r = p then { r with key := some q.key } else r) })) := by
  rw [← Part.unit_of_find? hp] at hread
  rw [fetchLands_of_ready h ha hk hp hheld hbefore,
    State.fetchStep_of_near hkey hread (FetchForm.far_eq_none_iff.mpr hnear)]
  rfl

/-- R81: a lane that finds an address with a bit above 51 set traps XLAT. -/
theorem fetchLands_far {q : FetchKey} {va : Nat} (hkey : p.key = none)
    (hread : s.fetchKey w (a.mayRead (c.before id)) ((s.gridOf w).buf slot.toNat) slot (fld p.data 0 64).toInt (fld p.cmp 0 32).toInt
      (c.cursors.get n) = .got q) (hlive : c.status = .live)
    (hfar : ((((s.gridOf w).buf slot.toNat).fetchForm (fld p.data 0 64).toInt (fld p.cmp 0 32).toInt q.key).addrs
      ((s.gridOf w).buf slot.toNat)).find? (fun va => decide (2 ^ 52 ≤ va)) = some va) :
    exec (.fetchLands k id [n]) s = .next (s.raise k a.side .xlat (BitVec.ofNat 64 va) a.stream true a.pc) := by
  rw [← Part.unit_of_find? hp] at hread
  rw [fetchLands_of_ready h ha hk hp hheld hbefore, State.fetchStep_of_far hkey hread hfar]
  exact congrArg Host.Outcome.next (if_pos hlive)

end FetchLane

end Sys2Proof.Machine
end

section
/-! SUPPORT. The words that an MMA commits (O23, R196, R197, R200, R201). -/

namespace Sys2Proof.Machine

/-! Elements and exponents of an operand tile. -/

/-- Formats of a pair that MMA accepts have one element width, and one of 16, 8 or 4 bits. -/
theorem elemBits_of_mmaPair {fa fb : Slot} (h : mmaPair fa fb = true) :
    elemBits fb.fmt = elemBits fa.fmt ∧ (elemBits fa.fmt = 16 ∨ elemBits fa.fmt = 8 ∨ elemBits fa.fmt = 4) := by
  unfold mmaPair at h
  split at h
  next hint =>
    simp only [mmaInteger, Bool.or_eq_true, Bool.and_eq_true, beq_iff_eq] at hint
    obtain ⟨ha | ha, hb | hb⟩ | ⟨ha, hb⟩ := hint <;> simp [ha, hb, elemBits]
  next =>
    simp only [Bool.and_eq_true, beq_iff_eq] at h
    obtain ⟨⟨ha, -⟩, hbits⟩ := h
    refine ⟨hbits.symm, ?_⟩
    simp only [mmaFloat, List.contains_eq_mem, List.mem_cons, List.not_mem_nil, or_false, decide_eq_true_eq] at ha
    obtain ha | ha | ha | ha | ha | ha | ha | ha | ha | ha := ha <;> simp [ha, elemBits]

/-- R57: element n of a row, of 4, 8 or 16 bits, as the statement of O23 reads it: out of two neighbouring bytes. -/
theorem tileElem_eq_two_bytes {bits : Nat} (hbits : bits = 16 ∨ bits = 8 ∨ bits = 4) (t : Tile) (r n : Nat) :
    tileElem t bits r n = ((SMap.get t (128 * r + n * bits / 8) : Byte).toNat
      + 256 * (SMap.get t (128 * r + n * bits / 8 + 1) : Byte).toNat) / 2 ^ (n * bits % 8) % 2 ^ bits := by
  have hlow := (SMap.get t (128 * r + n * bits / 8) : Byte).isLt
  obtain rfl | rfl | rfl := hbits
  · simp [tileElem, SMap.slice, leNat, List.range_succ]
  · simp only [tileElem, SMap.slice, leNat, List.range_succ, List.range_zero, List.map_cons, List.map_nil,
      List.nil_append, Nat.reduceAdd, Nat.reduceDiv, Nat.mul_mod_left, Nat.add_zero, Nat.mul_zero, pow_zero, Nat.div_one]
    omega
  · have hshift : n * 4 % 8 = 0 ∨ n * 4 % 8 = 4 := by omega
    simp only [tileElem, SMap.slice, leNat, List.range_succ, List.range_zero, List.map_cons, List.map_nil,
      List.nil_append, Nat.reduceAdd, Nat.reduceDiv, Nat.add_zero, Nat.mul_zero]
    obtain h | h := hshift <;> rw [h] <;> omega

/-- R68: the SCALE of a valid slot of a block format is the one of its format. -/
theorem Slot.scale_of_valid {f : Slot} (hv : f.valid = true) (hb : blockFormat f.fmt = true) : f.scale = formatScale f.fmt := by
  have hfmt : f.fmt ≠ 0 := by
    intro h
    rw [h] at hb
    exact absurd hb (by decide)
  simp only [Slot.valid, if_neg hfmt, Bool.and_eq_true, beq_iff_eq] at hv
  obtain ⟨⟨⟨⟨-, hscale⟩, -⟩, -⟩, -⟩ := hv
  exact hscale

/-! The words written. -/

/-- What writing a list of values leaves at a key whose writes all agree. -/
theorem SMap.get_foldl_put {α : Type} [Inhabited α] [DecidableEq α] {k : Nat} {v : α} (ws : List (Nat × α))
    (hv : ∀ p ∈ ws, p.1 = k → p.2 = v) (m : SMap α) :
    (ws.foldl (fun (x : SMap α) p => x.put p.1 p.2) m).get k = if ∃ p ∈ ws, p.1 = k then v else m.get k := by
  induction ws generalizing m with
  | nil => simp
  | cons p ws ih =>
    obtain ⟨hp, hws⟩ := List.forall_mem_cons.mp hv
    rw [List.foldl_cons, ih hws, SMap.get_put]
    by_cases hk : p.1 = k
    · simp [hk, hp hk]
    · rw [if_neg (Ne.symm hk)]
      have hcons : (∃ q ∈ p :: ws, q.1 = k) ↔ ∃ q ∈ ws, q.1 = k := by rw [List.exists_mem_cons_iff, or_iff_right hk]
      exact if_congr hcons.symm rfl rfl

/-- The word that an MMA commits at row i and column j of a quadrant whose rows are those of operand `h`, a half and its tiles. -/
def MmaImage.word (m : MmaImage) (fa fb : Slot) (acc : Cells 32) (h : Nat × Tile × Tile) (i j : Nat) : Word :=
  mmaWord (mmaInteger fa.fmt fb.fmt) m.f.sat (acc.get (accKey (32 * h.1 + i) (32 * nfld m.f.subop 0 1 + j)))
    (tileRow fa (mmaScaled fa fb fa) h.2.1 h.2.2 i) (tileRow fb (mmaScaled fa fb fb) m.b m.sb j)
    (tileInts fa.fmt h.2.1 i) (tileInts fb.fmt m.b j)

/-- The halves of an MMA with their operands. -/
def MmaImage.halves (m : MmaImage) (width : Nat) : List (Nat × Tile × Tile) :=
  (mmaHalves width m.f).zip [(m.a0, m.s0), (m.a1, m.s1)]

/-- The writes of an MMA, by key. -/
def MmaImage.writes (m : MmaImage) (fa fb : Slot) (width : Nat) (acc : Cells 32) : List (Nat × Word) :=
  (m.halves width).flatMap fun h => (List.range 32).flatMap fun i => (List.range 32).map fun j =>
    (accKey (32 * h.1 + i) (32 * nfld m.f.subop 0 1 + j), m.word fa fb acc h i j)

/-- R201: an MMA changes an accumulator by its writes. -/
theorem MmaImage.apply_eq_foldl_put (m : MmaImage) (fa fb : Slot) (width : Nat) (acc : Cells 32) :
    m.apply fa fb width acc = (m.writes fa fb width acc).foldl (fun (x : Cells 32) p => x.put p.1 p.2) acc := by
  have hzip : ∀ f : Nat → List Num × List Int, ((List.range 32).map f).zip (List.range 32) = (List.range 32).map fun j => (f j, j) :=
    fun f => by simpa using List.zip_map' (f := f) (g := id) (l := List.range 32)
  simp only [MmaImage.apply, hzip, List.map_map]
  rfl

theorem MmaImage.mem_writes {m : MmaImage} {fa fb : Slot} {width : Nat} {acc : Cells 32} {p : Nat × Word} :
    p ∈ m.writes fa fb width acc ↔ ∃ h ∈ m.halves width, ∃ i < 32, ∃ j < 32,
      p = (accKey (32 * h.1 + i) (32 * nfld m.f.subop 0 1 + j), m.word fa fb acc h i j) := by
  simp [MmaImage.writes, eq_comm]

/-- The operand of row i of an accumulator. -/
def MmaImage.operand (m : MmaImage) (width i : Nat) : Tile × Tile := if width = 64 ∧ 32 ≤ i then (m.a1, m.s1) else (m.a0, m.s0)

/-- R201: which halves an MMA writes, and from which operand. -/
theorem MmaImage.mem_halves {m : MmaImage} {width i : Nat} (hi : i < 64) {o : Tile × Tile} :
    (i / 32, o) ∈ m.halves width ↔ (width = 64 ∨ i / 32 = nfld m.f.subop 1 1) ∧ o = m.operand width i := by
  by_cases hw : width = 64
  · by_cases h32 : 32 ≤ i
    · have hhalf : i / 32 = 1 := by omega
      simp [MmaImage.halves, mmaHalves, hw, MmaImage.operand, h32, hhalf]
    · have hhalf : i / 32 = 0 := by omega
      simp [MmaImage.halves, mmaHalves, hw, MmaImage.operand, h32, hhalf]
  · simp [MmaImage.halves, mmaHalves, hw, MmaImage.operand]

/-- R198: the key of a word says its half, its row there and its column. -/
theorem accKey_eq_iff {h i j q x y : Nat} (hq : q < 2) (hi : i < 32) (hj : j < 32) (hy : y < 64) :
    accKey (32 * h + i) (32 * q + j) = accKey x y ↔ h = x / 32 ∧ i = x % 32 ∧ q = y / 32 ∧ j = y % 32 := by
  unfold accKey
  omega

/-- R201: word (i, j) of the accumulator after an MMA. -/
theorem MmaImage.get_apply (m : MmaImage) (fa fb : Slot) (width : Nat) (acc : Cells 32) {i j : Nat} (hi : i < 64) (hj : j < 64) :
    (m.apply fa fb width acc).get (accKey i j)
      = if (width = 64 ∨ i / 32 = nfld m.f.subop 1 1) ∧ j / 32 = nfld m.f.subop 0 1
        then m.word fa fb acc (i / 32, m.operand width i) (i % 32) (j % 32) else acc.get (accKey i j) := by
  have hq : nfld m.f.subop 0 1 < 2 := BitVec.isLt _
  rw [m.apply_eq_foldl_put, SMap.get_foldl_put (v := m.word fa fb acc (i / 32, m.operand width i) (i % 32) (j % 32))]
  · congr 1
    refine propext ⟨?_, ?_⟩
    · rintro ⟨p, hp, hkey⟩
      obtain ⟨h, hh, x, hx, y, hy, rfl⟩ := MmaImage.mem_writes.mp hp
      obtain ⟨hhalf, -, hcol, -⟩ := (accKey_eq_iff hq hx hy hj).mp hkey
      have hh' : (i / 32, h.2) ∈ m.halves width := by rw [← hhalf]; exact hh
      exact ⟨((MmaImage.mem_halves hi).mp hh').1, hcol.symm⟩
    · rintro ⟨hhalf, hcol⟩
      refine ⟨_, MmaImage.mem_writes.mpr ⟨(i / 32, m.operand width i), (MmaImage.mem_halves hi).mpr ⟨hhalf, rfl⟩, i % 32,
        Nat.mod_lt _ (by decide), j % 32, Nat.mod_lt _ (by decide), rfl⟩, ?_⟩
      exact (accKey_eq_iff hq (by omega) (by omega) hj).mpr ⟨rfl, rfl, hcol.symm, rfl⟩
  · rintro p hp hkey
    obtain ⟨h, hh, x, hx, y, hy, rfl⟩ := MmaImage.mem_writes.mp hp
    obtain ⟨hhalf, rfl, -, rfl⟩ := (accKey_eq_iff hq hx hy hj).mp hkey
    have hh' : (i / 32, h.2) ∈ m.halves width := by rw [← hhalf]; exact hh
    rw [← ((MmaImage.mem_halves hi).mp hh').2, ← hhalf]

/-! The value of a word. -/

/-- The value of element n of row r of an operand of a floating-point MMA (R71, R196, R197). -/
def operandValue (f : Slot) (t scales : Tile) (r n : Nat) : Num :=
  let x := if blockFormat f.fmt then tileScale scales (formatScale f.fmt) r (n / 32) else (127, 127)
  decSlot f (tileElem t (elemBits f.fmt) r n) x.1 x.2

/-- R197: the values of a row of an operand, as an MMA of floating-point formats reads them. -/
theorem tileRow_of_float {fa fb f : Slot} (hv : f.valid = true) (hfloat : mmaInteger fa.fmt fb.fmt = false) (t scales : Tile) (r : Nat) :
    tileRow f (mmaScaled fa fb f) t scales r = (List.range (rowElems f.fmt)).map (operandValue f t scales r) := by
  unfold tileRow operandValue mmaScaled
  by_cases hb : blockFormat f.fmt = true
  · simp [hb, hfloat, Slot.scale_of_valid hv hb]
  · simp [hb]

/-- R72, R73: a word of a floating-point MMA, its row one list of pairs of values. -/
theorem mmaWord_float (sat : Bool) (old : Word) (l : List Nat) (a b : Nat → Num) (ia ib : List Int) :
    mmaWord false sat old (l.map a) (l.map b) ia ib = BitVec.ofNat 32 (fp32.encode .rne false 0 false
      (Num.sum (fp32.decode old.toNat :: l.map (fun n => (a n).mul (b n))))) := by
  simp only [mmaWord, List.zip_map', List.map_map]
  rfl

theorem satInt_eq_max_min (x : Int) {lo hi : Int} (h : lo ≤ hi) : satInt x lo hi = max lo (min x hi) := by
  unfold satInt
  split_ifs <;> omega

/-- R200, R201: a word of an integer MMA, its row one list of pairs of elements. -/
theorem mmaWord_integer (sat : Bool) (old : Word) (a b : List Num) (l : List Nat) (ia ib : Nat → Int) :
    mmaWord true sat old a b (l.map ia) (l.map ib) =
      BitVec.ofInt 32 (if sat then max (-2 ^ 31) (min (old.toInt + (l.map (fun n => ia n * ib n)).sum) (2 ^ 31 - 1))
        else old.toInt + (l.map (fun n => ia n * ib n)).sum) := by
  have hsum : (l.map (fun n => ia n * ib n)).foldl (· + ·) old.toInt = old.toInt + (l.map (fun n => ia n * ib n)).sum := by
    rw [List.sum_eq_foldl, ← List.foldl_assoc (op := ((· + ·) : Int → Int → Int)), Int.add_zero]
  simp only [mmaWord, if_true, List.zip_map', List.map_map, Function.comp_def, hsum,
    satInt_eq_max_min _ (show (-2147483648 : Int) ≤ 2147483647 by decide)]
  rfl

/-- Element n of row r of a tile of elements of so many bits, read out of two neighbouring bytes. -/
def pairElem (bits : Nat) (t : Tile) (r n : Nat) : Nat :=
  ((SMap.get t (128 * r + n * bits / 8) : Byte).toNat
    + 256 * (SMap.get t (128 * r + n * bits / 8 + 1) : Byte).toNat) / 2 ^ (n * bits % 8) % 2 ^ bits

/-- The value of an element of an operand, its bytes and exponents read one by one. -/
def pairValue (bits : Nat) (f : Slot) (t scales : Tile) (r n : Nat) : Num :=
  let at_ := fun (x : Nat) => (SMap.get scales (32 * r + n / 32 * formatScale f.fmt + x) : Byte).toNat
  if blockFormat f.fmt then decSlot f (pairElem bits t r n) (at_ 0) (if formatScale f.fmt = 2 then at_ 1 else 127)
  else decSlot f (pairElem bits t r n) 127 127

theorem tileInts_eq_pairElem {fmt bits : Nat} (hbits : elemBits fmt = bits) (hsmall : bits = 16 ∨ bits = 8 ∨ bits = 4) (t : Tile)
    (r : Nat) : tileInts fmt t r = (List.range (1024 / bits)).map (fun n => signedOf bits (pairElem bits t r n)) := by
  subst hbits
  simp only [tileInts, rowElems, pairElem, tileElem_eq_two_bytes hsmall]

theorem operandValue_eq_pairValue {f : Slot} {bits : Nat} (hbits : elemBits f.fmt = bits)
    (hsmall : bits = 16 ∨ bits = 8 ∨ bits = 4) (t scales : Tile) (r : Nat) :
    operandValue f t scales r = pairValue bits f t scales r := by
  subst hbits
  funext n
  simp only [operandValue, pairValue, pairElem, tileElem_eq_two_bytes hsmall, tileScale, Nat.add_zero]
  split_ifs <;> rfl

/-- R72, R73, R201: a word that an MMA of floating-point formats commits. -/
theorem MmaImage.word_float {m : MmaImage} {fa fb : Slot} (ha : fa.valid = true) (hb : fb.valid = true)
    (hpair : mmaPair fa fb = true) (hfloat : mmaInteger fa.fmt fb.fmt = false) (acc : Cells 32) (h : Nat × Tile × Tile) (i j : Nat) :
    m.word fa fb acc h i j = BitVec.ofNat 32 (fp32.encode .rne false 0 false (Num.sum
      (fp32.decode (acc.get (accKey (32 * h.1 + i) (32 * nfld m.f.subop 0 1 + j))).toNat
        :: (List.range (1024 / elemBits fa.fmt)).map (fun n => (pairValue (elemBits fa.fmt) fa h.2.1 h.2.2 i n).mul
          (pairValue (elemBits fa.fmt) fb m.b m.sb j n))))) := by
  obtain ⟨hbits, hsmall⟩ := elemBits_of_mmaPair hpair
  rw [MmaImage.word, hfloat, tileRow_of_float ha hfloat, tileRow_of_float hb hfloat, operandValue_eq_pairValue rfl hsmall,
    operandValue_eq_pairValue hbits hsmall, rowElems, rowElems, hbits, mmaWord_float]

/-- R200, R201: a word that an MMA of integer formats commits. -/
theorem MmaImage.word_integer {m : MmaImage} {fa fb : Slot} (hpair : mmaPair fa fb = true)
    (hint : mmaInteger fa.fmt fb.fmt = true) (acc : Cells 32) (h : Nat × Tile × Tile) (i j : Nat) :
    let old := acc.get (accKey (32 * h.1 + i) (32 * nfld m.f.subop 0 1 + j))
    let v := old.toInt + ((List.range (1024 / elemBits fa.fmt)).map (fun n => signedOf (elemBits fa.fmt) (pairElem (elemBits fa.fmt) h.2.1 i n)
      * signedOf (elemBits fa.fmt) (pairElem (elemBits fa.fmt) m.b j n))).sum
    m.word fa fb acc h i j = BitVec.ofInt 32 (if m.f.sat then max (-2 ^ 31) (min v (2 ^ 31 - 1)) else v) := by
  obtain ⟨hbits, hsmall⟩ := elemBits_of_mmaPair hpair
  rw [MmaImage.word, hint, tileInts_eq_pairElem rfl hsmall, tileInts_eq_pairElem hbits hsmall, mmaWord_integer]

/-- The word of the accumulator that a written word starts from. -/
theorem accKey_of_written {i j q : Nat} (hcol : j / 32 = q) : accKey (32 * (i / 32) + i % 32) (32 * q + j % 32) = accKey i j := by
  unfold accKey
  omega

section Committed

variable {m : MmaImage} {fa fb : Slot} {width i j : Nat} (acc : Cells 32) (hi : i < 64) (hj : j < 64)

include hi hj

/-- R201: an MMA leaves the words outside its quadrant, or column half, as they were. -/
theorem MmaImage.get_apply_of_unwritten (hw : ¬((width = 64 ∨ i / 32 = nfld m.f.subop 1 1) ∧ j / 32 = nfld m.f.subop 0 1)) :
    (m.apply fa fb width acc).get (accKey i j) = acc.get (accKey i j) := by
  rw [m.get_apply fa fb width acc hi hj, if_neg hw]

/-- R72, R73, R201: a word of a floating-point MMA. -/
theorem MmaImage.get_apply_float (ha : fa.valid = true) (hb : fb.valid = true) (hpair : mmaPair fa fb = true)
    (hw : (width = 64 ∨ i / 32 = nfld m.f.subop 1 1) ∧ j / 32 = nfld m.f.subop 0 1) (hfloat : mmaInteger fa.fmt fb.fmt = false) :
    (m.apply fa fb width acc).get (accKey i j) = BitVec.ofNat 32 (fp32.encode .rne false 0 false (Num.sum
      (fp32.decode (acc.get (accKey i j)).toNat :: (List.range (1024 / elemBits fa.fmt)).map (fun n =>
        (pairValue (elemBits fa.fmt) fa (m.operand width i).1 (m.operand width i).2 (i % 32) n).mul
          (pairValue (elemBits fa.fmt) fb m.b m.sb (j % 32) n))))) := by
  rw [m.get_apply fa fb width acc hi hj, if_pos hw, MmaImage.word_float ha hb hpair hfloat, accKey_of_written hw.2]

/-- R200, R201: a word of an integer MMA. -/
theorem MmaImage.get_apply_integer (hpair : mmaPair fa fb = true)
    (hw : (width = 64 ∨ i / 32 = nfld m.f.subop 1 1) ∧ j / 32 = nfld m.f.subop 0 1) (hint : mmaInteger fa.fmt fb.fmt = true) :
    let v := (acc.get (accKey i j)).toInt + ((List.range (1024 / elemBits fa.fmt)).map (fun n =>
      signedOf (elemBits fa.fmt) (pairElem (elemBits fa.fmt) (m.operand width i).1 (i % 32) n)
        * signedOf (elemBits fa.fmt) (pairElem (elemBits fa.fmt) m.b (j % 32) n))).sum
    (m.apply fa fb width acc).get (accKey i j) = BitVec.ofInt 32 (if m.f.sat then max (-2 ^ 31) (min v (2 ^ 31 - 1)) else v) := by
  rw [m.get_apply fa fb width acc hi hj, if_pos hw, MmaImage.word_integer hpair hint, accKey_of_written hw.2]

end Committed

end Sys2Proof.Machine
end

section
/-! SUPPORT. CBLOAD completes: a codebook holds the entries as its crew reads them (O23, R92, R103, R161). -/

namespace Sys2Proof.Machine

/-! What a read brings into the die cache. -/

/-- The two states differ in the lines of the die cache alone. -/
def OnlyLines (s t : State) : Prop := t = { s with lines := t.lines }

theorem OnlyLines.refl (s : State) : OnlyLines s s := rfl

theorem OnlyLines.trans {s t u : State} (h : OnlyLines s t) (g : OnlyLines t u) : OnlyLines s u := by
  unfold OnlyLines at *
  rw [g, h]

theorem OnlyLines.foldl {α : Type} {f : State → α → State} (h : ∀ s x, OnlyLines s (f s x)) (l : List α) (s : State) :
    OnlyLines s (l.foldl f s) := by
  induction l generalizing s with
  | nil => exact .refl s
  | cons x l ih => exact (h s x).trans (ih _)

/-- R86: a read brings at most a line that stood in no other into the die cache. -/
theorem onlyLines_touch (s : State) (o : Owner) (alloc : Bool) (a : Nat) : OnlyLines s (s.touch o alloc a) := by
  unfold State.touch
  split
  next h =>
    simp only [Bool.and_eq_true, Option.isNone_iff_eq_none] at h
    obtain ⟨⟨-, hnone⟩, -⟩ := h
    simp only [State.bring, hnone]
    rfl
  next => exact .refl s

theorem onlyLines_touchPart (s : State) (w : Workgroup) (a : Access) (p : Part) (pa : Nat) : OnlyLines s (s.touchPart w a p pa) := by
  unfold State.touchPart
  split
  · exact onlyLines_touch s _ _ _
  · exact .refl s

/-! Lists of values written one after another. -/

/-- What writing a list of values leaves at a key. -/
theorem SMap.get_putList {α : Type} [Inhabited α] [DecidableEq α] (vs : List α) (m : SMap α) (k j : Nat) :
    (m.putList k vs).get j = if h : k ≤ j ∧ j < k + vs.length then vs[j - k]'(by omega) else m.get j := by
  induction vs generalizing m k with
  | nil =>
    rw [dif_neg (by simp)]
    rfl
  | cons v vs ih =>
    rw [SMap.putList, ih, SMap.get_put]
    by_cases hin : k + 1 ≤ j ∧ j < k + 1 + vs.length
    · have hj : j - k = j - (k + 1) + 1 := by omega
      rw [dif_pos hin, dif_pos (by simp only [List.length_cons]; omega)]
      simp only [hj, List.getElem_cons_succ]
    · rw [dif_neg hin]
      by_cases hjk : j = k
      · subst hjk
        simp
      · rw [if_neg hjk, dif_neg (by simp only [List.length_cons]; omega)]

/-- What writing pieces of z values, piece i from key z * i on, leaves at the keys of the pieces. -/
theorem SMap.get_foldl_putList {α : Type} [Inhabited α] [DecidableEq α] {z : Nat} (hz : 0 < z) (f : Nat → Nat → α) (m : SMap α)
    (N : Nat) {j : Nat} (hj : j < z * N) :
    ((List.range N).foldl (fun (m : SMap α) i => m.putList (z * i) ((List.range z).map (f i))) m).get j = f (j / z) (j % z) := by
  induction N with
  | zero => simp at hj
  | succ N ih =>
    rw [List.range_succ, List.foldl_append, List.foldl_cons, List.foldl_nil, SMap.get_putList]
    by_cases hlast : z * N ≤ j
    · have hdiv : j / z = N := by
        rw [Nat.div_eq_iff hz]
        rw [Nat.mul_succ] at hj
        rw [Nat.mul_comm N z]
        omega
      have hmod : j - z * N = j % z := by
        have := Nat.div_add_mod j z
        rw [hdiv] at this
        omega
      rw [dif_pos ⟨hlast, by simpa [Nat.mul_succ] using hj⟩]
      simp [hdiv, hmod]
    · rw [dif_neg (by omega), ih (by omega)]

/-! CBLOAD. -/

/-- R103, R161: the pieces of a codebook, each a part of its own. -/
theorem foldl_bookParts {β : Type} (addr n : Nat) (f : β → Part → β) (b : β) :
    (bookParts addr n).foldl f b = (List.range (256 * n / min n 8)).foldl (fun b i => f b
      { onePart (addr + min n 8 * i) (min n 8) 0 0 with unit := i, bytes := BitVec.allOnes 16 }) b := by
  rw [bookParts, List.foldl_map]

theorem held_of_mem_bookParts {addr n : Nat} {p : Part} (hp : p ∈ bookParts addr n) : p.held = none := by
  obtain ⟨i, -, rfl⟩ := List.mem_map.mp hp
  rfl

/-- One part of a codebook is read: its line comes into the die cache, and its bytes enter the entries. -/
def State.bookStep (s : State) (w : Workgroup) (a : Access) (pa : Nat → Nat) (r : State × Cells 8) (p : Part) : State × Cells 8 :=
  (r.1.touchPart w a p (pa p.unit), SMap.putList r.2 (p.size * p.unit) (s.readBytes w.ctx (pa p.unit) p.size))

/-- R92, R161: the event by which CBLOAD completes, once every part may be performed and is translated. -/
theorem cbloadCompletes_of_ready {s : State} {k : CrewKey} {w : Workgroup} {c : Crew} (h : s.find k = some (w, c)) {id book : Nat}
    {a : Access} {code : BitVec 2} {got : Cells 8} {pa : Nat → Nat} (ha : c.access id = some a) (hk : a.kind = .cbload book code got)
    (hparts : ∀ p ∈ a.parts, p.held = none ∧ a.mayPerform (c.before id) p = true ∧ s.spot w a p = .at (pa p.unit)) :
    exec (.cbloadCompletes k id) s = .next
      (((a.parts.foldl (s.bookStep w a pa) (s, got)).1.mark w [⟨5, book⟩]).put k
        { w with books := w.books.insert book ⟨code, (a.parts.foldl (s.bookStep w a pa) (s, got)).2⟩ }
        ((c.putAccess { a with parts := [] }).advance 4)) := by
  change execCbloadCompletes k id s = _
  simp only [execCbloadCompletes, h, ha, hk]
  rw [if_neg ?nowait, List.find?_eq_none.mpr ?noheld, List.foldl_ext _ (s.bookStep w a pa) _ ?steps]
  case nowait =>
    rw [Bool.not_eq_true, List.any_eq_false]
    intro p hp
    obtain ⟨hheld, hmay, hspot⟩ := hparts p hp
    simp [hheld, hmay, hspot]
  case noheld =>
    intro p hp
    simp [(hparts p hp).2.2]
  case steps =>
    intro r p hp
    simp only [(hparts p hp).2.2, State.bookStep]

theorem foldl_bookStep (s : State) (w : Workgroup) (a : Access) (pa : Nat → Nat) (ps : List Part) (r : State × Cells 8) :
    ps.foldl (s.bookStep w a pa) r = (ps.foldl (fun (t : State) p => t.touchPart w a p (pa p.unit)) r.1,
      ps.foldl (fun (m : Cells 8) p => SMap.putList m (p.size * p.unit) (s.readBytes w.ctx (pa p.unit) p.size)) r.2) := by
  induction ps generalizing r with
  | nil => rfl
  | cons p ps ih => exact ih _

/-- R161: the entries that a codebook holds after its load: byte n is byte n % z of the piece n / z, of z bytes. -/
theorem get_foldl_bookParts (s : State) (ctx addr e : Nat) (pa : Nat → Nat) (he : e = 4 ∨ e = 8 ∨ e = 16 ∨ e = 32) {n : Nat}
    (hn : n < 256 * e) :
    SMap.get ((bookParts addr e).foldl (fun (m : Cells 8) p => SMap.putList m (p.size * p.unit) (s.readBytes ctx (pa p.unit) p.size)) [])
      n = s.readByte ctx (pa (n / min e 8) + n % min e 8) := by
  rw [foldl_bookParts]
  refine SMap.get_foldl_putList (f := fun i j => s.readByte ctx (pa i + j)) (z := min e 8) (by omega) [] _ ?_
  obtain rfl | rfl | rfl | rfl := he <;> simpa using hn

theorem entryBytes_cases (code : BitVec 2) : entryBytes code = 4 ∨ entryBytes code = 8 ∨ entryBytes code = 16 ∨ entryBytes code = 32 := by
  revert code
  decide

/-- R290: the line of a codebook takes the tag of its context, in a state that differs from `s` in cached lines alone. -/
theorem OnlyLines.mark_book {s u : State} (h : OnlyLines s u) (w : Workgroup) (book : Nat) :
    u.mark w [⟨5, book⟩] = { s with
      lines := u.lines
      tags := s.tags.insert (tagKey 5 w.die w.core (2048 * w.share + book)) ⟨w.ctx, (s.ctx w.ctx).secure⟩ } := by
  rw [h]
  rfl

/-- R92, R161: a codebook is loaded: what changes, and what it holds. -/
theorem cbloadCompletes_loads {s : State} {k : CrewKey} {w : Workgroup} {c : Crew} (h : s.find k = some (w, c)) {id book addr : Nat}
    {a : Access} {code : BitVec 2} {pa : Nat → Nat} (ha : c.access id = some a) (hk : a.kind = .cbload book code [])
    (hbook : a.parts = bookParts addr (entryBytes code))
    (hparts : ∀ p ∈ a.parts, a.mayPerform (c.before id) p = true ∧ s.spot w a p = .at (pa p.unit)) : ∃ (t : State) (b : Codebook),
      exec (.cbloadCompletes k id) s = .next (t.put k { w with books := w.books.insert book b } ((c.putAccess { a with parts := [] }).advance 4))
      ∧ t = { s with lines := t.lines, tags := s.tags.insert (tagKey 5 w.die w.core (2048 * w.share + book)) ⟨w.ctx, (s.ctx w.ctx).secure⟩ }
      ∧ b.code = code
      ∧ ∀ n, n < 256 * entryBytes code →
          SMap.get b.bytes n = s.readByte w.ctx (pa (n / min (entryBytes code) 8) + n % min (entryBytes code) 8) := by
  have hheld : ∀ p ∈ a.parts, p.held = none := fun p hp => held_of_mem_bookParts (hbook ▸ hp)
  refine ⟨_, _, cbloadCompletes_of_ready h ha hk fun p hp => ⟨hheld p hp, hparts p hp⟩, ?_, rfl, fun n hn => ?_⟩
  · rw [foldl_bookStep, OnlyLines.mark_book (.foldl (fun t p => onlyLines_touchPart t w a p _) a.parts s)]
  · rw [foldl_bookStep, hbook]
    exact get_foldl_bookParts s w.ctx addr _ pa (entryBytes_cases code) hn

end Sys2Proof.Machine
end

section
/-! SUPPORT. Runs, FETCH, KVLD, CBLOAD and MMA come to their end (O23). -/

namespace Sys2Proof.Machine

/-- Settles O23: each event of an engine does what its rule says, from the lemmas on runs, the matrix unit, FETCH, KVLD and
CBLOAD above. -/
theorem runsAndEnginesComplete : Obligations.RunsAndEnginesComplete := by
  unfold Obligations.RunsAndEnginesComplete
  intro s k w c h
  refine ⟨?run, ?commit, ?words, ?unbound, ?trapped, ?fetch, ?kvld, ?cbload⟩
  case run => exact fun r rest p hq hp hended hmma hfly hpend hds => runComplete_fills h hq hp hended hmma hfly hpend hds
  case commit => exact fun m acc hm hu ht hr hacc => mmaCommit_of_bound h hm hu ht hr hacc
  case words =>
    intro m fa fb width i j acc ha hb hpair _ hi hj
    exact ⟨MmaImage.get_apply_of_unwritten acc hi hj, MmaImage.get_apply_float acc hi hj ha hb hpair,
      MmaImage.get_apply_integer acc hi hj hpair⟩
  case unbound => exact fun m hm hu ht hr hlive => mmaCommit_of_unbound h hm hu ht hr hlive
  case trapped => exact fun m hm ht => mmaCommit_of_trapped h hm ht
  case fetch =>
    intro id a p n slot ha hk hp hheld hbefore
    refine ⟨fun key o hkey hready hout => ?_, fun key hkey hunread o hout => ?_, fun q hkey hread hnear => ?_,
      fun q va hkey hread hlive hfar => fetchLands_far h ha hk hp hheld hbefore hkey hread hlive hfar⟩
    · have hread : ¬a.parts.any Part.unread = true := by
        rw [any_unread_iff]
        rintro ⟨q, hq, hnokey, hnoheld⟩
        exact (hready q hq).elim (fun h => h hnokey) (fun h => h hnoheld)
      exact (fetchLands_value h ha hk hp hheld hbefore hkey hout).trans (congrArg _ (if_neg hread))
    · exact (fetchLands_value h ha hk hp hheld hbefore hkey hout).trans (congrArg _ (if_pos (any_unread_iff.mpr hunread)))
    · exact ⟨c.loadCursors [(n, some q)], rfl, c.cursors_loadCursors_single n q,
        fetchLands_key h ha hk hp hheld hbefore hkey hread hnear⟩
  case kvld => exact fun id a p ps d tile rows status ha hk hps => kvldLands_of_part h ha hk hps
  case cbload => exact fun id a book code addr pa ha hk hbook hparts => cbloadCompletes_loads h ha hk hbook hparts

end Sys2Proof.Machine
end

section
/-! SUPPORT. Accesses of the host and of peers (18 R293, R296; 19 R300; 24 R362, R364): what a context has written its line's owner
reads, what a doorbell page gives, which aperture entry a request takes, and when an access is performed, refused or not brought. -/

namespace Sys2Proof.Machine

/-! A byte that a context has written (R290, R292). -/

theorem OnlyMemory.isLocal_eq {s t : State} (h : OnlyMemory s t) (a : Nat) : t.isLocal a = s.isLocal a := by
  rw [h]
  rfl

theorem OnlyMemory.secureAt_eq {s t : State} (h : OnlyMemory s t) (a : Nat) : t.secureAt a = s.secureAt a := by
  rw [h]
  rfl

/-- A line that is brought stands in the die cache as the owner's. -/
theorem State.bring_line (s : State) (o : Owner) (a : Nat) :
    ∃ l, (s.bring o a).lines.find? (a / 256) = some l ∧ l.owner = some o := by
  unfold State.bring
  dsimp only
  split
  next l hl =>
    split
    next htag =>
      simp only [State.tagged, Bool.and_eq_true, beq_iff_eq] at htag
      exact ⟨l, hl, htag.1⟩
    next => exact ⟨_, SMap.find?_insert_self _ _ _, rfl⟩
  next => exact ⟨_, SMap.find?_insert_self _ _ _, rfl⟩

/-- A write that may allocate, to a line that the die cache takes, leaves the byte there in a line of the owner's, which has the world
bit of its region. -/
theorem State.writeAs_line {s : State} {a : Nat} (hlocal : s.isLocal a = true) (htakes : s.takesLine (a / 256) = true) (o : Owner)
    (b : Byte) : ∃ l, (s.writeAs o true a b).lines.find? (a / 256) = some l ∧ l.owner = some o ∧ l.secure = s.secureAt a
      ∧ l.bytes.get (a % 256) = b := by
  obtain ⟨l, hl, ho⟩ := s.bring_line o a
  have hon : s.writeAs o true a b = (s.bring o a).writeOn a b := by simp [State.writeAs, hlocal, htakes]
  refine ⟨{ l with secure := (s.bring o a).secureAt a, dirty := true, bytes := l.bytes.put (a % 256) b }, ?_, ho,
    (onlyMemory_bring s o a).secureAt_eq a, SMap.get_put_self l.bytes _ b⟩
  simp only [hon, State.writeOn, SMap.modify, hl, SMap.find?_insert_self]

/-- The owner of a line of the non-secure world reads its bytes. -/
theorem State.readAs_of_line {s : State} {a : Nat} {l : Line} {o : Owner} (hlocal : s.isLocal a = true)
    (hl : s.lines.find? (a / 256) = some l) (ho : l.owner = some o) (hsecure : l.secure = false) :
    s.readAs o a = l.bytes.get (a % 256) := by
  simp [State.readAs, State.tagged, hlocal, hl, ho, hsecure]

/-- The host acts in the name of the owner of a line on chip. -/
theorem State.hostOwner_of_line {s : State} {a : Nat} {l : Line} {o : Owner} (hl : s.lines.find? (a / 256) = some l)
    (ho : l.owner = some o) (ctx : Option Nat) : s.hostOwner ctx a = o := by
  simp [State.hostOwner, State.ownerAt, hl, ho]

/-- The host reads what a context has written (log entry 19). -/
theorem State.host_reads_writeByte {s : State} {a : Nat} (hlocal : s.isLocal a = true) (hopen : s.secureAt a = false)
    (htakes : s.takesLine (a / 256) = true) (c : Nat) (b : Byte) (ctx : Option Nat) :
    (s.writeByte c a b).readOwned ((s.writeByte c a b).hostOwner ctx) a 1 = [b] := by
  obtain ⟨l, hl, ho, hsecure, hbyte⟩ := State.writeAs_line hlocal htakes (.ctx c) b
  have hstill : (s.writeByte c a b).isLocal a = true := ((onlyMemory_writeAs s _ _ a b).isLocal_eq a).trans hlocal
  have hread : (s.writeByte c a b).readAs (.ctx c) a = b :=
    (State.readAs_of_line hstill hl ho (hsecure.trans hopen)).trans hbyte
  have howner : (s.writeByte c a b).hostOwner ctx a = .ctx c := State.hostOwner_of_line hl ho ctx
  simp [State.readOwned, howner, hread]

/-! Accesses of the host. -/

/-- A request performed and answered with the bytes it gives. -/
def State.answered (s : State) (own : Nat → Owner) (m : Option (List Byte) → Message) (pa : Nat) (op : BusOp) : Result :=
  .next (((s.perform own pa op).1).send (m (some (s.perform own pa op).2)))

theorem exec_hostAccess (target : HostTarget) (op : BusOp) (s : State) :
    exec (.hostAccess target op) s = execHostAccess target op s := rfl

section
variable {s : State} {pa : Nat} {op : BusOp}

theorem hostAccess_own_memory (h : isHost pa = true) (h' : isHost (pa + opBytes op - 1) = true) (ctx : Option Nat) :
    exec (.hostAccess (.memory pa ctx) op) s = s.answered (s.hostOwner ctx) .host pa op := by
  simp only [exec_hostAccess, execHostAccess, h, h', Bool.and_self, if_true]
  rfl

theorem hostAccess_open (hup : s.downLinks.contains 0 = false) (hopen : s.openTo pa (opBytes op) = true) (ctx : Option Nat) :
    exec (.hostAccess (.memory pa ctx) op) s = s.answered (s.hostOwner ctx) .host pa op := by
  simp only [exec_hostAccess, execHostAccess, hup, hopen, Bool.false_eq_true, if_true, if_false, ite_self]
  rfl

theorem hostAccess_memory_down (hdown : s.downLinks.contains 0 = true)
    (hpackage : (isHost pa && isHost (pa + opBytes op - 1)) = false) (ctx : Option Nat) :
    exec (.hostAccess (.memory pa ctx) op) s = .next s := by
  simp only [exec_hostAccess, execHostAccess, hdown, hpackage, Bool.false_eq_true, if_true, if_false]

/-- A PCIe link that is down brings no access of what is not memory (R364). -/
theorem hostAccess_page_down (hdown : s.downLinks.contains 0 = true) {target : HostTarget} (hpage : ∀ pa ctx, target ≠ .memory pa ctx) :
    exec (.hostAccess target op) s = .next s := by
  cases target with
  | memory pa ctx => exact absurd rfl (hpage pa ctx)
  | doorbell queue offset => exact if_pos hdown
  | mailbox offset => exact if_pos hdown
  | config offset => exact if_pos hdown

/-- Beside its three fields a doorbell page reads as zero (R300). -/
theorem Queue.doorbell_other (q : Queue) {offset : Nat} (h0 : offset ≠ 0) (h8 : offset ≠ 8) (h16 : offset ≠ 16) :
    q.doorbell offset = 0 := by
  unfold Queue.doorbell
  split
  · exact absurd rfl h0
  · exact absurd rfl h8
  · exact absurd rfl h16
  · rfl

end

/-! The entry that a peer's request takes (R296). -/

/-- In a map whose keys rise, the search of its values ends at an entry that none of a lower key precedes. -/
theorem SMap.find?_values {α : Type} {m : SMap α} {p : α → Bool} {i : Nat} {v : α} (hsorted : SMap.Sorted m) (hmem : (i, v) ∈ m)
    (hv : p v = true) (hfirst : ∀ e ∈ m, e.1 < i → p e.2 = false) : m.values.find? p = some v := by
  induction m with
  | nil => cases hmem
  | cons e m ih =>
    obtain ⟨hlow, hrest⟩ := List.pairwise_cons.mp hsorted
    rcases List.mem_cons.mp hmem with rfl | hmem
    · exact List.find?_cons_of_pos hv
    · have he : p e.2 = false := hfirst e List.mem_cons_self (hlow _ hmem)
      exact (List.find?_cons_of_neg (by simp [he])).trans (ih hrest hmem fun x hx => hfirst x (List.mem_cons_of_mem _ hx))

/-- A request of context `src` of package `pkg` at `addr` matches a valid entry of that package and context, in its window. -/
def apMatches (pkg src addr : Nat) (e : BitVec 256) : Bool :=
  flag e 63 && nfld e 32 12 == pkg && nfld e 24 8 == src && decide (apWbase e ≤ addr ∧ addr < apWbase e + apWsize e)

theorem apMatches_iff {pkg src addr : Nat} {e : BitVec 256} : apMatches pkg src addr e = true ↔
    flag e 63 = true ∧ nfld e 32 12 = pkg ∧ nfld e 24 8 = src ∧ nfld e 64 39 ≤ addr ∧ addr < nfld e 64 39 + nfld e 128 39 := by
  simp only [apMatches, Bool.and_eq_true, beq_iff_eq, decide_eq_true_eq, and_assoc]
  rfl

theorem State.aperture_eq (s : State) (pkg src addr : Nat) :
    s.aperture pkg src addr = s.apertures.values.find? (apMatches pkg src addr) := rfl

section
variable {s : State} {pkg src addr : Nat} {op : BusOp}

theorem State.aperture_none (h : ∀ e ∈ s.apertures, ¬ apMatches pkg src addr e.2 = true) : s.aperture pkg src addr = none := by
  rw [State.aperture_eq, List.find?_eq_none]
  intro v hv
  obtain ⟨e, he, rfl⟩ := List.mem_map.mp hv
  exact h e he

/-! Accesses of peers. -/

theorem exec_peerAccess : exec (.peerAccess pkg src addr op) s = execPeerAccess pkg src addr op s := rfl

theorem peerAccess_down (h : s.downLinks.contains 5 = true) : exec (.peerAccess pkg src addr op) s = .next s := if_pos h

theorem peerAccess_unmatched (hup : s.downLinks.contains 5 = false) (h : s.aperture pkg src addr = none) :
    exec (.peerAccess pkg src addr op) s = .next (s.send (.peer pkg none)) := by
  simp only [exec_peerAccess, execPeerAccess, hup, h, Bool.false_eq_true, if_false]

/-- Through its entry a request is performed as an access of the entry's context where the entry allows it, the context is valid and
not secure and the memory is open; it is refused otherwise (R293, R296). -/
theorem peerAccess_matched (hup : s.downLinks.contains 5 = false) {e : BitVec 256} (h : s.aperture pkg src addr = some e) :
    exec (.peerAccess pkg src addr op) s =
      if apAllows e op = true ∧ (s.ctx (apLctx e)).valid = true ∧ (s.ctx (apLctx e)).secure = false
          ∧ s.openTo (apLbase e + (addr - apWbase e)) (opBytes op) = true
      then s.answered (fun _ => .ctx (apLctx e)) (.peer pkg) (apLbase e + (addr - apWbase e)) op
      else .next (s.send (.peer pkg none)) := by
  simp only [exec_peerAccess, execPeerAccess, hup, h, Bool.false_eq_true, if_false, Bool.and_eq_true, Bool.not_eq_true', and_assoc]
  rfl

end

/-- Settles O55: an access of the host is brought, performed or answered by its target (the `hostAccess` lemmas), a peer's by the entry
that it takes (`peerAccess_matched`), and the host reads a written byte as its line's owner (`State.host_reads_writeByte`). -/
theorem outsideAccessesAreCheckedAndAnswered : Obligations.OutsideAccessesAreCheckedAndAnswered := by
  unfold Obligations.OutsideAccessesAreCheckedAndAnswered
  intro s pa n pkg src addr ctx op bs aop b cmp
  refine ⟨fun own => ⟨rfl, rfl, rfl, rfl⟩, ?opened, ?hostMemory, ?written, ?memoryDown, ?pageDown, ?pages, ?peerDown, ?peer⟩
  case opened => exact fun ⟨hup, hopen⟩ => hostAccess_open hup hopen ctx
  case hostMemory => exact fun h h' => hostAccess_own_memory h h' ctx
  case written => exact fun c b hlocal hopen htakes => State.host_reads_writeByte hlocal hopen htakes c b ctx
  case memoryDown => exact fun hdown hpackage => hostAccess_memory_down hdown hpackage ctx
  case pageDown => exact fun target hpage hdown => hostAccess_page_down hdown hpage
  case pages =>
    intro hup queue offset
    have hup' : ¬ s.downLinks.contains 0 = true := Bool.eq_false_iff.mp hup
    refine ⟨?_, ⟨_, ?_, if_neg hup'⟩, ⟨_, ?_, if_neg hup'⟩, if_neg hup'⟩
    · refine (if_neg hup').trans (congrArg (fun v : DWord => Host.Outcome.next (s.send (.host (some (leBytes n v.toNat))))) ?_)
      split_ifs with h0 h8 h16
      · rw [h0]; rfl
      · rw [h8]; rfl
      · rw [h16]; rfl
      · exact Queue.doorbell_other _ h0 h8 h16
    · rw [List.length_map, List.length_range]
    · rw [List.length_map, List.length_range]
  case peerDown => exact peerAccess_down
  case peer =>
    intro hup
    refine ⟨fun hnone => peerAccess_unmatched hup (State.aperture_none fun e he h => hnone e he (apMatches_iff.mp h)), ?_⟩
    intro i e hmem hmatch hsorted hfirst
    have hentry : s.aperture pkg src addr = some e := SMap.find?_values hsorted hmem (apMatches_iff.mpr hmatch)
      fun x hx hi => Bool.eq_false_iff.mpr fun h => hfirst x hx hi (apMatches_iff.mp h)
    have hexec := peerAccess_matched (op := op) hup hentry
    intro allowed target good
    have hallowed : apAllows e op = true ↔ allowed := by
      cases op with
      | read n => exact Iff.rfl
      | write bs => exact Iff.rfl
      | atomic aop wide b cmp => exact Bool.and_eq_true_iff
    have hpasses : _ ↔ good := and_congr_left' hallowed
    exact ⟨fun hbad => hexec.trans (if_neg (mt hpasses.mp hbad)), fun hgood => hexec.trans (if_pos (hpasses.mpr hgood))⟩

end Sys2Proof.Machine
end

section
/-! SUPPORT. Decoding gives back what was encoded (06 R122 to R136): scalar words by their classes, lane parcels by the opcode of their
row. -/

namespace Sys2Proof.Laws

/-- The opcode that the row of a lane instruction gives it names that instruction (R133). -/
theorem laneOfOpcode_laneRow {i : Instr} {r : LaneRow} {f : LaneFields} (hr : laneRow i = some r) (hf : laneFieldsOf i = some f) :
    laneOfOpcode r.opc f = some i := by
  cases i <;> cases hf <;> cases hr <;> rfl

/-- Lane instructions differ in their opcode alone, so that one argument serves them all. -/
theorem roundtrip_lane {i : Instr} {r : LaneRow} {f : LaneFields} (hr : laneRow i = some r) (hf : laneFieldsOf i = some f) :
    Roundtrip.Statement i := by
  intro h
  rw [encode, hr, hf]
  exact decodeWords_encodeFields (laneOfOpcode_laneRow hr hf) h

/-- A scalar instruction decodes by the class of its word (R122). -/
theorem roundtrip_scalar {i : Instr} (hs : i.isScalar = true) : Roundtrip.Statement i := by
  cases i with
  | add => exact Roundtrip.add _ _ _ | sub => exact Roundtrip.sub _ _ _ | mul => exact Roundtrip.mul _ _ _
  | mulh => exact Roundtrip.mulh _ _ _ | mulhu => exact Roundtrip.mulhu _ _ _ | div => exact Roundtrip.div _ _ _
  | divu => exact Roundtrip.divu _ _ _ | rem => exact Roundtrip.rem _ _ _ | remu => exact Roundtrip.remu _ _ _
  | andR => exact Roundtrip.andR _ _ _ | orR => exact Roundtrip.orR _ _ _ | xorR => exact Roundtrip.xorR _ _ _
  | shl => exact Roundtrip.shl _ _ _ | shr => exact Roundtrip.shr _ _ _ | sra => exact Roundtrip.sra _ _ _
  | min => exact Roundtrip.min _ _ _ | max => exact Roundtrip.max _ _ _ | minu => exact Roundtrip.minu _ _ _
  | maxu => exact Roundtrip.maxu _ _ _ | slt => exact Roundtrip.slt _ _ _ | sltu => exact Roundtrip.sltu _ _ _
  | seq => exact Roundtrip.seq _ _ _ | clz => exact Roundtrip.clz _ _ | popc => exact Roundtrip.popc _ _
  | mov => exact Roundtrip.mov _ _ | add64 => exact Roundtrip.add64 _ _ _ | addi => exact Roundtrip.addi _ _ _
  | andi => exact Roundtrip.andi _ _ _ | ori => exact Roundtrip.ori _ _ _ | xori => exact Roundtrip.xori _ _ _
  | shli => exact Roundtrip.shli _ _ _ | shri => exact Roundtrip.shri _ _ _ | srai => exact Roundtrip.srai _ _ _
  | lui => exact Roundtrip.lui _ _ | li => exact Roundtrip.li _ _ | sel => exact Roundtrip.sel _ _ _ _
  | lea => exact Roundtrip.lea _ _ _ _ | bcond => exact Roundtrip.bcond _ _ _ _ | jmp => exact Roundtrip.jmp _
  | jal => exact Roundtrip.jal _ | jr => exact Roundtrip.jr _ _ | loop => exact Roundtrip.loop _ _
  | lrun => exact Roundtrip.lrun _ _ | gets => exact Roundtrip.gets _ _ | fence => exact Roundtrip.fence _ _
  | drain => exact Roundtrip.drain _ | sld => exact Roundtrip.sld _ _ _ _ _ _ | sst => exact Roundtrip.sst _ _ _ _ _ _
  | ldk => exact Roundtrip.ldk _ _ _ | satom => exact Roundtrip.satom _ _ _ _ _ _ | binit => exact Roundtrip.binit _ _
  | bexp => exact Roundtrip.bexp _ _ _ | barr => exact Roundtrip.barr _ | bwait => exact Roundtrip.bwait _ _
  | btry => exact Roundtrip.btry _ _ _ | tload => exact Roundtrip.tload _ _ _ _ _ _ _
  | tstore => exact Roundtrip.tstore _ _ _ _ _ _ | cpseal => exact Roundtrip.cpseal _ _
  | cpwait => exact Roundtrip.cpwait _ _ | cbload => exact Roundtrip.cbload _ _ _ | waitc => exact Roundtrip.waitc _ _
  | tlook => exact Roundtrip.tlook _ _ | tfill => exact Roundtrip.tfill _ _ _ | tdrop => exact Roundtrip.tdrop _
  | aalloc => exact Roundtrip.aalloc _ | agrow => exact Roundtrip.agrow _ _ | afree => exact Roundtrip.afree _
  | group => exact Roundtrip.group _ _ | join => exact Roundtrip.join _ _ _ | joinc => exact Roundtrip.joinc _ _ _
  | ssopen => exact Roundtrip.ssopen _ _ _ | ssld => exact Roundtrip.ssld _ _ _ _ | ssst => exact Roundtrip.ssst _ _ _ _
  | sssnap => exact Roundtrip.sssnap _ _ _ | ssroll => exact Roundtrip.ssroll _ _ _
  | ssfork => exact Roundtrip.ssfork _ _ _ | sscommit => exact Roundtrip.sscommit _ _ _
  | ssclose => exact Roundtrip.ssclose _ _ | kvld => exact Roundtrip.kvld _ _ _ _ _ _
  | kvapp => exact Roundtrip.kvapp _ _ _ _ _ _ | kvtrunc => exact Roundtrip.kvtrunc _ _ _
  | kvstep => exact Roundtrip.kvstep _ _ _ | launch => exact Roundtrip.launch _ _ | trap => exact Roundtrip.trap _
  | nop => exact Roundtrip.nop | lsync => exact Roundtrip.lsync | exit => exact Roundtrip.exit
  | cwait => exact Roundtrip.cwait | bkpt => exact Roundtrip.bkpt
  | _ => cases hs

theorem isScalar_of_wf {i : Instr} (h : i.wf = true) (hn : ∀ r f, laneRow i = some r → laneFieldsOf i ≠ some f) :
    i.isScalar = true := by
  unfold Instr.wf at h
  split at h
  · next r f hr hf => exact absurd hf (hn r f hr)
  · exact (Bool.and_eq_true_iff.mp h).1

/-- Settles O7: a lane instruction by its row, a scalar one by its class; an event is not well formed. -/
theorem decodeReadsWhatEncodeWrites : Obligations.DecodeReadsWhatEncodeWrites := by
  unfold Obligations.DecodeReadsWhatEncodeWrites
  intro i
  by_cases hl : ∃ r f, laneRow i = some r ∧ laneFieldsOf i = some f
  · obtain ⟨r, f, hr, hf⟩ := hl
    exact roundtrip_lane hr hf
  · intro h
    exact roundtrip_scalar (isScalar_of_wf h fun r f hr hf => hl ⟨r, f, hr, hf⟩) h

end Sys2Proof.Laws
end

section
/-! SUPPORT. Control flow of the scalar stream (06 R128; 07 R144, R145), and the exceptions of TRAP and of words that do not decode (06
R136; 07 R169; 22 R332 to R334). -/

namespace Sys2Proof.Machine

/-! Targets. -/

/-- Offsets count words, which are four bytes each (R128). -/
theorem target_eq {n : Nat} (pc : Addr) (off : BitVec n) : target pc off = pc + BitVec.ofInt 52 (4 * off.toInt) := by
  rw [target, Int.mul_comm, BitVec.ofInt_mul]
  rfl

/-- Bits 31:0 of the fall-through address (R144). -/
theorem Crew.link_eq (c : Crew) : c.link = BitVec.ofNat 32 (c.pc + 4).toNat := by
  apply BitVec.eq_of_toNat_eq
  simp [Crew.link, fld]

theorem within4G_eq (pc : Addr) (t : Word) : within4G pc t = BitVec.ofNat 52 (pc.toNat / 2 ^ 32 * 2 ^ 32 + t.toNat) := by
  apply BitVec.eq_of_toNat_eq
  rw [within4G, fld, BitVec.toNat_append, BitVec.extractLsb'_toNat, BitVec.toNat_ofNat, ← Nat.shiftLeft_add_eq_or_of_lt t.isLt,
    Nat.shiftLeft_eq, Nat.shiftRight_eq_div_pow]
  omega

theorem nfld_low_two (x : Word) : nfld x 0 2 = x.toNat % 4 := by simp [nfld]

/-! Control instructions. -/

section
variable {s : State} {w : Workgroup} {c : Crew} (h : Issuing s w c)
include h

/-- A control instruction whose sources are full makes of the crew what it says. -/
theorem control_of {srcs : List Reg} (hs : ∀ r ∈ srcs, c.full r = true) (f : Crew → Crew) :
    control s srcs f = .next (s.put s.cur.key w (f c)) := by
  rw [control, acting_of h, if_pos ((allFull_eq c srcs).mpr hs)]

theorem exec_bcond {a b : Reg} (ha : c.full a = true) (hb : c.full b = true) (cond : Cond) (off : BitVec 10) :
    exec (.bcond cond a b off) s = .next (s.put s.cur.key w { c with
      pc := if condHolds cond (c.s a) (c.s b) then c.pc + BitVec.ofInt 52 (4 * off.toInt) else c.pc + 4 }) := by
  show execBcond cond a b off s = _
  rw [execBcond, control_of h (by simp [ha, hb]), target_eq]
  split <;> rfl

theorem exec_jmp (off : BitVec 26) :
    exec (.jmp off) s = .next (s.put s.cur.key w { c with pc := c.pc + BitVec.ofInt 52 (4 * off.toInt) }) := by
  show execJmp off s = _
  rw [execJmp, control_of h (by simp), target_eq]
  rfl

theorem exec_jal (off : BitVec 26) : exec (.jal off) s = .next (s.put s.cur.key w
    { c.setS 1 (BitVec.ofNat 32 (c.pc + 4).toNat) with pc := c.pc + BitVec.ofInt 52 (4 * off.toInt) }) := by
  show execJal off s = _
  rw [execJal, control_of h (by simp), target_eq, Crew.link_eq]
  rfl

theorem exec_jr {a : Reg} (ha : c.full a = true) (h4 : (c.s a).toNat % 4 = 0) (d : Reg) : exec (.jr d a) s = .next (s.put s.cur.key w
    { c.setS d (BitVec.ofNat 32 (c.pc + 4).toNat) with pc := BitVec.ofNat 52 (c.pc.toNat / 2 ^ 32 * 2 ^ 32 + (c.s a).toNat) }) := by
  show execJr d a s = _
  rw [execJr, acting_of h]
  simp only [Crew.allFull, List.all_cons, List.all_nil, ha, nfld_low_two, h4, within4G_eq, Crew.link_eq]
  rfl

theorem traps_jr {a : Reg} (ha : c.full a = true) (h4 : (c.s a).toNat % 4 ≠ 0) (d : Reg) : Traps (.jr d a) s .align 0 := by
  show execJr d a s = _
  rw [execJr, acting_of h]
  simp [Crew.allFull, ha, nfld_low_two, h4]

theorem exec_loop {a : Reg} (ha : c.full a = true) (off : BitVec 10) : exec (.loop a off) s = .next (s.put s.cur.key w
    { c.setS a (c.s a - 1) with pc := if c.s a = 1 then c.pc + 4 else c.pc + BitVec.ofInt 52 (4 * off.toInt) }) := by
  have h1 : c.s a - 1 = 0 ↔ c.s a = 1 := sub_eq_zero
  have hpc : (c.setS a (c.s a - 1)).pc = c.pc := by unfold Crew.setS; split <;> rfl
  show execLoop a off s = _
  rw [execLoop, control_of h (by simp [ha])]
  simp only [h1, target_eq, hpc]
  split
  · rw [Crew.advance, hpc]; rfl
  · rfl

end

/-- Settles O14: each clause is the rule of its instruction, with the register that it writes. -/
theorem controlFlowGoesWhereTheRulesSay : Obligations.ControlFlowGoesWhereTheRulesSay := by
  unfold Obligations.ControlFlowGoesWhereTheRulesSay
  intro s w c h d a b o10 o26 cond
  exact ⟨fun ha hb => exec_bcond h ha hb cond o10, exec_jmp h o26, ⟨_, scalarWritten_setS c 1 _, exec_jal h o26⟩,
    fun ha h4 => ⟨_, scalarWritten_setS c d _, exec_jr h ha h4 d⟩, fun ha h4 => traps_jr h ha h4 d,
    fun ha => ⟨_, scalarWritten_setS c a _, exec_loop h ha o10⟩⟩

/-! Exceptions. -/

/-- Settles O16: TRAP and ILLOP are the exception that `trap` takes for the stream that runs; a run in progress gives the lane stream its
program counter. -/
theorem trapsTakeTheirException : Obligations.TrapsTakeTheirException := by
  unfold Obligations.TrapsTakeTheirException
  intro s w c h code w0 w1 w2
  have htrap : exec (.trap code) s = trap s .trap (code.zeroExtend 64) := rfl
  have hillop : exec (.illop w0 w1 w2) s = trap s .illop 0 := rfl
  rw [htrap, hillop, trap_of h, trap_of h]
  refine ⟨fun hs => ?_, fun p hs hp => ?_⟩
  · rw [hs]
    exact ⟨rfl, rfl⟩
  · have hat : c.at .lane = p.pc := by simp only [Crew.at, hp]
    rw [hs, hat]

end Sys2Proof.Machine
end

section
/-! SUPPORT. Lane integer arithmetic (08 R174): operands read by TYPE, an exact result, and its reduction or clamp. -/

namespace Sys2Proof.Machine

/-- A result is clamped to the range of its type with SAT, and reduced modulo 2^32 without. -/
theorem intResult_eq (signed sat : Bool) (r : Int) : intResult signed sat r =
    if sat then (if signed then BitVec.ofInt 32 (max (-2 ^ 31) (min r (2 ^ 31 - 1))) else BitVec.ofInt 32 (max 0 (min r (2 ^ 32 - 1))))
    else BitVec.ofInt 32 r := by
  rw [intResult, satInt_eq_max_min r (by decide), satInt_eq_max_min r (by decide)]
  cases sat <;> rfl

/-- An integer operation of three sources, once its exact result is formed and reduced as `g` says. -/
theorem laneComputes_int {con : LaneFields → Instr} {g : LaneFields → Word → Word → Word → Word} (op : Int → Int → Int → Int)
    (hg : ∀ f a b c, intResult f.signed f.sat (op (intVal f.signed a) (intVal f.signed b) (intVal f.signed c)) = g f a b c)
    (hi : ∀ f s, exec (con f) s = laneInt s (con f) f op := by intros; rfl)
    (hb : ∀ f, sourceB (con f) f = operandAt (con f) f 2 := by intros; rfl) : LaneComputes con g :=
  laneComputes_of (fun f s => by simp only [hi, laneInt, hg]) hb

/-- The same of both forms of an operation of two sources. -/
theorem laneComputes2_int {con conI : LaneFields → Instr} {g : LaneFields → Word → Word → Word} (op : Int → Int → Int)
    (hg : ∀ f a b, intResult f.signed f.sat (op (intVal f.signed a) (intVal f.signed b)) = g f a b)
    (hi : ∀ f s, exec (con f) s = laneInt s (con f) f (fun a b _ => op a b) := by intros; rfl)
    (hiI : ∀ f s, exec (conI f) s = laneInt s (conI f) f (fun a b _ => op a b) := by intros; rfl)
    (hb : ∀ f, sourceB (con f) f = operandAt (con f) f 2 := by intros; rfl)
    (hbI : ∀ f, sourceB (conI f) f = .imm f.p2 := by intros; rfl) : LaneComputes2 con conI g :=
  ⟨laneComputes_int (fun a b _ => op a b) (fun f a b _ => hg f a b) hi hb,
    laneComputesImm_of (fun f s => by simp only [hiI, laneInt, hg]) hbI⟩

theorem natAbs_eq_ite (a : Int) : (a.natAbs : Int) = if a < 0 then -a else a := by split <;> omega

/-- Settles O35: each operation is formed exactly over what `intVal` reads, and its result is what `intResult` makes of it. -/
theorem laneIntegerArithmetic : Obligations.LaneIntegerArithmetic := by
  unfold Obligations.LaneIntegerArithmetic
  intro val out
  have hout (f : LaneFields) (r : Int) : intResult f.signed f.sat r = out f r := intResult_eq f.signed f.sat r
  exact ⟨laneComputes2_int (fun a b => a + b) fun f _ _ => hout f _, laneComputes2_int (fun a b => a - b) fun f _ _ => hout f _,
    laneComputes2_int (fun a b => a * b) fun f _ _ => hout f _, laneComputes2_int (fun a b => a * b / 2 ^ 32) fun f _ _ => hout f _,
    laneComputes_int (fun a b c => a * b + c) fun f _ _ _ => hout f _,
    laneComputes2_int (fun a b => min a b) fun f _ _ => hout f _, laneComputes2_int (fun a b => max a b) fun f _ _ => hout f _,
    laneComputes_int (fun a _ _ => (a.natAbs : Int)) fun f a _ _ => natAbs_eq_ite (intVal f.signed a) ▸ hout f _,
    laneComputes_int (fun a _ _ => -a) fun f _ _ _ => hout f _⟩

end Sys2Proof.Machine
end

section
/-! SUPPORT. Every step has a next state (06 R136; 22 R334): an instruction acts for a crew that is there, because its turn names one, and
an event acts for none. -/

namespace Sys2Proof.Machine

/-- The result is a next state: neither a fault nor a refusal. -/
def Proceeds (r : Result) : Prop := ∃ t, r = .next t

/-- For an issuer that is there, the result is a next state. -/
def Answers (s : State) (r : Result) : Prop := ∀ w c, Issuing s w c → Proceeds r

theorem Answers.next (s t : State) : Answers s (.next t) := fun _ _ _ => ⟨t, rfl⟩

theorem Good.answers {s : State} {r : Result} (h : Good s r) : Answers s r := fun w c hi =>
  have ⟨t, ht, _⟩ := h w c hi
  ⟨t, ht⟩

theorem Answers.ite {s : State} {p : Prop} [Decidable p] {a b : Result} (ha : Answers s a) (hb : Answers s b) :
    Answers s (if p then a else b) := by
  split
  · exact ha
  · exact hb

theorem Answers.acting {s : State} {f : Workgroup → Crew → Result} (h : ∀ w c, Answers s (f w c)) : Answers s (acting s f) := by
  intro w c hi
  rw [acting_of hi]
  exact h w c w c hi

theorem Answers.trap (s : State) (code : FaultCode) (detail : DWord) : Answers s (trap s code detail) := (Good.trap _ _ _).answers

theorem Answers.trapsThen {s : State} {run : Result} (h : Answers s run) (ts : List (Bool × FaultCode × DWord)) :
    Answers s (trapsThen s run ts) := by
  rcases trapsThen_cases s run ts with e | ⟨t, -, -, e⟩
  · rw [e]; exact h
  · rw [e]; exact .trap s _ _

/-! The frame of a lane instruction, and what is shared inside it. -/

theorem answers_passOn (s t : State) (w : Workgroup) (c : Crew) (f : LaneFields) : Answers s (passOn t w c f) := by
  rw [passOn_eq]
  exact .next _ _

theorem answers_laneIssue (s : State) (p : LaneSpec) (f : LaneFields) {run : Workgroup → Crew → Mask → Result}
    (h : ∀ w c e, Answers s (run w c e)) : Answers s (laneIssue s p f run) :=
  .acting fun _ _ => .ite (.trap _ _ _) (.ite (.trap _ _ _) (.ite (.trap _ _ _) (.ite (answers_passOn _ _ _ _ _)
    (.ite (.trap _ _ _) (.ite (.trap _ _ _) (.ite (.next _ _) (h _ _ _)))))))

theorem answers_laneMapL (s : State) (i : Instr) (f : LaneFields)
    (g : Workgroup → Crew → Nat → Word → Word → Word → Word) : Answers s (laneMapL s i f g) :=
  answers_laneIssue _ _ _ fun _ _ _ => answers_passOn _ _ _ _ _

theorem answers_laneMap (s : State) (i : Instr) (f : LaneFields) (g : Word → Word → Word → Word) : Answers s (laneMap s i f g) :=
  answers_laneMapL _ _ _ _

theorem answers_laneInt (s : State) (i : Instr) (f : LaneFields) (g : Int → Int → Int → Int) : Answers s (laneInt s i f g) :=
  answers_laneMap _ _ _ _

theorem answers_route (s : State) (i : Instr) (f : LaneFields) : Answers s (Machine.route s i f) := answers_laneMapL _ _ _ _

theorem answers_laneTest (s : State) (i : Instr) (f : LaneFields) (g : Word → Word → Bool) : Answers s (laneTest s i f g) :=
  answers_laneIssue _ _ _ fun _ _ _ => answers_passOn _ _ _ _ _

theorem answers_quantise (s : State) (i : Instr) (f : LaneFields)
    (val : Workgroup → Crew → Slot → (Nat → Word) → Nat → Word) : Answers s (quantise s i f val) :=
  answers_laneIssue _ _ _ fun _ _ _ => .trapsThen (answers_passOn _ _ _ _ _) _

theorem answers_setIndex (s : State) (i : Instr) (f : LaneFields) (imm : Bool) (bad : Workgroup → Crew → Nat → Word → Bool)
    (word : Workgroup → Crew → Nat → Word → Word) : Answers s (setIndex s i f imm bad word) :=
  answers_laneIssue _ _ _ fun _ _ _ => .trapsThen (answers_passOn _ _ _ _ _) _

theorem answers_laneMem (s : State) (i : Instr) (f : LaneFields) (cls : MemClass) (w w' : Workgroup) (c : Crew) (e : Mask) (n : Nat)
    (kind : AccessKind) (dests : Nat) (part : LaneAddr → Part) : Answers s (laneMem s i f cls w w' c e n kind dests part) :=
  .ite (.next _ _) (.trapsThen (answers_passOn _ _ _ _ _) _)

theorem answers_matrixIssue (s : State) (i : Instr) (f : LaneFields) (ts : List Nat) (groups : Nat × Nat × Nat × Nat)
    {run : Grid → Workgroup → Crew → Result} (h : ∀ g w c, Answers s (run g w c)) :
    Answers s (matrixIssue s i f ts groups run) :=
  .acting fun _ _ => answers_laneIssue _ _ _ fun _ _ _ => .ite (.next _ _) (h _ _ _)

theorem answers_laneControl (s : State) (f : LaneFields) (g : Crew → Progress → Option Crew) : Answers s (laneControl s f g) := by
  refine .acting fun w c => ?_
  split
  · exact answers_passOn _ _ _ _ _
  · exact .trap _ _ _

theorem answers_kvIssue {α : Type} (s : State) (r : KvRead α) {run : α → Result} (h : ∀ x, Answers s (run x)) :
    Answers s (kvIssue s r run) := by
  unfold kvIssue
  split
  · exact .next _ _
  · exact .next _ _
  · exact .trap _ _ _
  · exact .next _ _
  · exact h _

/-! Lane instructions whose own part has cases. -/

theorem answers_getl (f : LaneFields) (s : State) : Answers s (execGetl f s) := by
  unfold execGetl
  split
  · exact answers_laneIssue _ _ _ fun _ _ _ => answers_passOn _ _ _ _ _
  · exact answers_laneMapL _ _ _ _

theorem answers_matchL (f : LaneFields) (s : State) : Answers s (execMatchL f s) := by
  intro w c hi
  have hs : s.issuer = some (w, c) := hi
  simp only [execMatchL, hs]
  exact answers_laneIssue _ _ _ (fun _ _ _ => answers_passOn _ _ _ _ _) w c hi

theorem answers_atom (f : LaneFields) (s : State) : Answers s (execAtom f s) := by
  unfold execAtom
  dsimp only
  split
  · exact .trap _ _ _
  · exact answers_laneIssue _ _ _ fun _ _ _ => answers_laneMem _ _ _ _ _ _ _ _ _ _ _ _

theorem answers_fetch (f : LaneFields) (s : State) : Answers s (execFetch f s) := by
  unfold execFetch
  exact answers_laneIssue _ _ _ fun _ _ _ => .ite (.next _ _) (.trapsThen (answers_kvIssue _ _ fun _ => answers_passOn _ _ _ _ _) _)

theorem answers_whileL (f : LaneFields) (s : State) : Answers s (execWhileL f s) := by
  refine .acting fun w c => ?_
  split
  · exact .ite (answers_passOn _ _ _ _ _) (.next _ _)
  · exact .trap _ _ _

/-- Every lane instruction acts in the frame of R173, or on the structures of its run. -/
theorem answers_lane {i : Instr} {f : LaneFields} (hf : laneFieldsOf i = some f) (s : State) : Answers s (exec i s) := by
  cases i <;> cases hf
  all_goals dsimp only [exec]
  case iset | isetI | fset | fsetI => exact answers_laneTest _ _ _ _
  case xset | xsetI | xadd | xaddI => exact answers_setIndex _ _ _ _ _ _
  case qnt | dqt => exact answers_quantise _ _ _ _
  case cvt | sample =>
    dsimp only [execCvt, execSample]
    exact answers_laneIssue _ _ _ fun _ _ _ => .trapsThen (answers_passOn _ _ _ _ _) _
  case redux =>
    dsimp only [execRedux]
    exact answers_laneIssue _ _ _ fun _ _ _ => .ite (answers_passOn _ _ _ _ _) (answers_passOn _ _ _ _ _)
  case plop | vote | scan | isect | rand | topk | accept =>
    dsimp only [execPlop, execVote, execScan, execIsect, execRand, execTopk, execAccept]
    exact answers_laneIssue _ _ _ fun _ _ _ => answers_passOn _ _ _ _ _
  case mma | accz | accrd | accwr | acccvt =>
    dsimp only [execMma, execAccz, execAccrd, execAccwr, execAcccvt]
    exact answers_matrixIssue _ _ _ _ _ fun _ _ _ => .trapsThen (answers_passOn _ _ _ _ _) _
  case ld | st =>
    dsimp only [execLd, execSt]
    exact answers_laneIssue _ _ _ fun _ _ _ => answers_laneMem _ _ _ _ _ _ _ _ _ _ _ _
  case cpy =>
    dsimp only [execCpy]
    exact .acting fun _ _ => answers_laneIssue _ _ _ fun _ _ _ => .ite (.next _ _) (.trapsThen (answers_passOn _ _ _ _ _) _)
  case ifL | elseL | fi | doL | brk => exact answers_laneControl _ _ _
  case lnop => exact .acting fun _ _ => answers_passOn _ _ _ _ _
  case whileL => exact answers_whileL _ _
  case iadd | iaddI | isub | isubI | imul | imulI | imulh | imulhI | imad | imin | iminI | imax | imaxI | iabs | ineg =>
    exact answers_laneInt _ _ _ _
  case lsel | xget => exact answers_laneMapL _ _ _ _
  case route | routeI => exact answers_route _ _ _
  case getl => exact answers_getl _ _
  case matchL => exact answers_matchL _ _
  case atom => exact answers_atom _ _
  case fetch => exact answers_fetch _ _
  all_goals exact answers_laneMap _ _ _ _

/-! Scalar instructions. -/

theorem answers_popIssue (s : State) (a : Reg) {run : State → Workgroup → List (Nat × Crew) → Crew → BitVec 256 → Result}
    (h : ∀ t w parts low spec, Answers s (run t w parts low spec)) : Answers s (popIssue s a run) := by
  refine .acting fun w c => .ite (.next _ _) (.ite (.next _ _) (.ite (.next _ _) (.ite (.next _ _) ?_)))
  split
  · exact h _ _ _ _ _
  · exact .next _ _
  · exact .next _ _
  · exact .next _ _

theorem answers_group (a : Reg) (pack : Bool) (s : State) : Answers s (execGroup a pack s) :=
  answers_popIssue _ _ fun _ _ _ _ _ => .ite (.next _ _) (.ite (.next _ _) (.next _ _))

theorem answers_joinRun (s t : State) (w : Workgroup) (parts : List (Nat × Crew)) (low : Crew) (spec : BitVec 256) (rel : BufRec)
    (outer again : Bool) : Answers s (joinRun t w parts low spec rel outer again) := by
  refine .ite (.next _ _) ?_
  split
  · exact .next _ _
  · exact .ite (.next _ _) (.ite (.next _ _) (.next _ _))

theorem answers_joinIssue (k : BitVec 5) (outer : Bool) (a : Reg) (again : Bool) (s : State) :
    Answers s (joinIssue k outer a again s) :=
  answers_popIssue _ _ fun _ _ _ _ _ => .ite (.next _ _) (.ite (.next _ _) (.ite (.next _ _) (.ite (.next _ _)
    (answers_joinRun _ _ _ _ _ _ _ _ _))))

/-- What a scalar instruction answers follows from what it keeps, but for the population instructions, which have no such lemma. -/
theorem answers_scalar {i : Instr} (hs : i.isScalar = true) (s : State) : Answers s (exec i s) := by
  cases i <;> cases hs
  all_goals dsimp only [exec]
  case li | add64 => exact (good_simple _ _ _ _).answers
  case bcond | jmp | jal | loop => exact (good_control _ _ _).answers
  case drain | waitc => exact (good_waitFor _ _ _).answers
  case ssopen | ssld | ssst | sssnap | ssroll | ssfork | sscommit | ssclose => exact (good_burrow _ _ _ _ _ _ _).answers
  case group => exact answers_group _ _ _
  case join | joinc => exact answers_joinIssue _ _ _ _ _
  case jr => exact (good_jr _ _ _).answers
  case lrun => exact (good_lrun _ _ _).answers
  case gets => exact (good_gets _ _ _).answers
  case fence => exact (good_fence _ _ _).answers
  case sld => exact (good_sld _ _ _ _ _ _ _).answers
  case sst => exact (good_sst _ _ _ _ _ _ _).answers
  case ldk => exact (good_ldk _ _ _ _).answers
  case satom => exact (good_satom _ _ _ _ _ _ _).answers
  case binit => exact (good_binit _ _ _).answers
  case bexp => exact (good_bexp _ _ _ _).answers
  case barr => exact (good_barr _ _).answers
  case bwait => exact (good_bwait _ _ _).answers
  case btry => exact (good_btry _ _ _ _).answers
  case tload => exact (good_tload _ _ _ _ _ _ _ _).answers
  case tstore => exact (good_tstore _ _ _ _ _ _ _).answers
  case cpseal => exact (good_cpseal _ _ _).answers
  case cpwait => exact (good_cpwait _ _ _).answers
  case cbload => exact (good_cbload _ _ _ _).answers
  case tlook => exact (good_tlook _ _ _).answers
  case tfill => exact (good_tfill _ _ _ _).answers
  case tdrop => exact (good_tdrop _ _).answers
  case aalloc => exact (good_aalloc _ _).answers
  case agrow => exact (good_agrow _ _ _).answers
  case afree => exact (good_afree _ _).answers
  case kvld => exact (good_kvld _ _ _ _ _ _ _).answers
  case kvapp => exact (good_kvapp _ _ _ _ _ _ _).answers
  case kvtrunc => exact (good_kvtrunc _ _ _ _).answers
  case kvstep => exact (good_kvstep _ _ _ _).answers
  case launch => exact (good_launch _ _ _).answers
  case trap => exact .trap _ _ _
  case nop => exact (good_nop _).answers
  case lsync => exact (good_lsync _).answers
  case exit => exact (good_exit _).answers
  case cwait => exact (good_cwait _).answers
  case bkpt => exact (good_bkpt _).answers
  all_goals exact (good_alu _ _ _ _).answers

/-! Events. -/

theorem Proceeds.next (t : State) : Proceeds (.next t) := ⟨t, rfl⟩

theorem Proceeds.ite {p : Prop} [Decidable p] {a b : Result} (ha : Proceeds a) (hb : Proceeds b) : Proceeds (if p then a else b) := by
  split
  · exact ha
  · exact hb

theorem proceeds_landUnits (s : State) (k : CrewKey) (id : Nat) (units : List Nat) (kinds : AccessKind → Bool) :
    Proceeds (landUnits s k id units kinds) := by
  unfold landUnits
  split
  · split
    · exact .ite (.next _) (.next _)
    · exact .next _
  · exact .next _

theorem proceeds_storePerformed (k : CrewKey) (id : Nat) (units : List Nat) (s : State) :
    Proceeds (execStorePerformed k id units s) := by
  unfold execStorePerformed
  split
  · split
    · split
      · exact .next _
      · exact proceeds_landUnits _ _ _ _ _
    · exact .next _
  · exact .next _

/-- An event reaches a next state on every path, whether or not it finds what it names: those that look nothing up have one path, and each
path of the others ends in a next state. -/
theorem proceeds_event {i : Instr} (h : isTurnEvent i = true) (s : State) : Proceeds (exec i s) := by
  cases i <;> cases h
  all_goals dsimp only [exec]
  case loadLands | copyLands | tloadPieceLands | tstorePerformed => exact proceeds_landUnits _ _ _ _ _
  case storePerformed => exact proceeds_storePerformed _ _ _ _
  case getVersion | getCapabilities | negotiateAlgorithms | getDigests | getCertificate | challenge | getMeasurements =>
    exact .ite (.next _) (.next _)
  case fetchLands | shootdown | functionLevelReset | packageReset | pluginTimeLimit | pluginRestart | errorWindowExpiry |
    thermalLimit | thermalCooled | linkTrainingFailure | queueDisable | dieCacheWriteBack | burrowWriteBack =>
    exact .next _
  all_goals
    dsimp only [execAgrowDenial, execRunComplete, execKvldLands, execCbloadCompletes, execMmaCommit, execNotifyWrite,
      execRegisterWrite, execLaunchAcceptance, execBarrierPacketStart, execDependenceRecheck, execDeviceQueueTake,
      execFabricLaunchPacket, execPeerAccess, execHostAccess, execDispatcherDraw, execWorkgroupAdmission,
      execCoresidentAdmission, execWorkgroupRetirement, execWalkComplete, execReplay, execDecline, execShootdownAcknowledge,
      execMoveCommand, execLadderCommand, execSaveRungStart, execQuiesceLimitExpiry, execSaveDeadlineExpiry,
      execResumeCommand, execWorkgroupResumption, execDebugCrewResume, execKill, execContextActivate, execContextChange,
      execContextRelease, execReleaseSweepDone, execRegionTableWrite, execKeySlotWrite, execQueueActivate,
      execHedgehogScrub, execPartitionResize, execCoreWorldChange, execPluginWindowViolation, execPin]
    repeat' split
  all_goals exact .next _

/-! Turns. -/

theorem laneRow_eq_none {i : Instr} (hf : laneFieldsOf i = none) : laneRow i = none := by
  cases i <;> cases hf <;> rfl

/-- What is neither a scalar instruction nor a lane instruction nor ILLOP is an event. -/
theorem isTurnEvent_of {i : Instr} (hs : i.isScalar = false) (hf : laneFieldsOf i = none)
    (hi : ∀ w0 w1 w2, i ≠ .illop w0 w1 w2) : isTurnEvent i = true := by
  simp only [isTurnEvent, Instr.isEvent, Instr.isLane, hs, laneRow_eq_none hf]
  rfl

/-- Whatever a crew that is there runs reaches a next state. -/
theorem proceeds_exec {s : State} {w : Workgroup} {c : Crew} (h : Issuing s w c) (i : Instr) : Proceeds (exec i s) := by
  by_cases hi : ∃ w0 w1 w2, i = .illop w0 w1 w2
  · obtain ⟨w0, w1, w2, rfl⟩ := hi
    exact Answers.trap s .illop 0 w c h
  · cases hs : i.isScalar with
    | true => exact answers_scalar hs s w c h
    | false =>
      cases hf : laneFieldsOf i with
      | some f => exact answers_lane hf s w c h
      | none => exact proceeds_event (isTurnEvent_of hs hf fun w0 w1 w2 e => hi ⟨w0, w1, w2, e⟩) s

theorem proceeds_runFetched {s : State} {w' : Workgroup} {c' : Crew} (h : Issuing s w' c') (w : Workgroup) (c : Crew) (st : Stream)
    (i : Instr) : Proceeds (s.runFetched w c st i) := by
  unfold State.runFetched
  dsimp only
  split
  · exact proceeds_exec h _
  · next v t _ _ =>
    have hb : Issuing { s with beyondV := v, beyondT := t } w' c' := h
    obtain ⟨u, hu⟩ := proceeds_exec hb ((s.gridOf w).fusedForm c st i)
    rw [hu]
    exact .next _

theorem proceeds_onFetched {s : State} {w' : Workgroup} {c' : Crew} (h : Issuing s w' c') (k : CrewKey) (w : Workgroup) (c : Crew)
    (st : Stream) (f : Fetched) : Proceeds (s.onFetched k w c st f) := by
  cases f with
  | instr i => exact proceeds_runFetched h w c st i
  | wait => exact .next _
  | miss va => exact .next _
  | held code va => exact .next _

/-- A stream that is named issues for the crew that its turn has put there. -/
theorem issuing_turn (s : State) (k : CrewKey) (w : Workgroup) (c : Crew) (st : Stream) :
    Issuing { s.put k w c with cur := ⟨k, st⟩ } (w.putCrew k.slot c) c := State.find_put s k w c

theorem proceeds_scalarTurn (s : State) (k : CrewKey) : Proceeds (s.scalarTurn k) := by
  unfold State.scalarTurn
  split
  · exact .next _
  · exact .ite (proceeds_onFetched (issuing_turn _ _ _ _ _) _ _ _ _ _) (.next _)

theorem proceeds_laneTurn (s : State) (k : CrewKey) : Proceeds (s.laneTurn k) := by
  unfold State.laneTurn
  split
  · exact .next _
  · dsimp only
    split
    · exact .next _
    · refine .ite (.next _) ?_
      split
      · exact .next _
      · exact proceeds_onFetched (issuing_turn _ _ _ _ _) _ _ _ _ _

theorem proceeds_turn (s : State) (t : Turn) : Proceeds (s.turn t) := by
  cases t with
  | scalar k => exact .ite (proceeds_scalarTurn s k) (.next _)
  | lane k => exact .ite (proceeds_laneTurn s k) (.next _)
  | event i =>
    show Proceeds (if isTurnEvent i && s.admits i then exec i s else .next s)
    split
    · next h => exact proceeds_event (Bool.and_eq_true_iff.mp h).1 s
    · exact .next _
  | line wid line => exact .next _

theorem Proceeds.offered {r : Result} (h : Proceeds r) : Proceeds (offered r) := by
  obtain ⟨t, rfl⟩ := h
  exact .next _

/-- Settles O5: a turn of a stream names a crew that is there, and an event needs none (`proceeds_turn`). -/
theorem everyStepGoesOn : Obligations.EveryStepGoesOn := by
  unfold Obligations.EveryStepGoesOn
  intro s
  show Proceeds (step s)
  unfold step
  split
  · exact (proceeds_turn _ _).offered
  · exact .next _

end Sys2Proof.Machine
end

section
/-! SUPPORT. Arithmetic and logic of the scalar stream (07 R141 to R143): the model's word operations as operations on integers. -/

namespace Sys2Proof.Machine

/-! Division (R142). -/

theorem divS_eq (a b : Word) : divS a b = if b = 0 then 0xFFFFFFFF#32 else BitVec.ofInt 32 (a.toInt.tdiv b.toInt) := by
  have hq : a.sdiv b = BitVec.ofInt 32 (a.toInt.tdiv b.toInt) :=
    BitVec.eq_of_toInt_eq (by rw [BitVec.toInt_sdiv, BitVec.toInt_ofInt])
  rw [divS, hq]
  rfl

theorem divU_eq (a b : Word) : divU a b = if b = 0 then 0xFFFFFFFF#32 else BitVec.ofNat 32 (a.toNat / b.toNat) := by
  rw [divU, ← BitVec.toNat_udiv, BitVec.ofNat_toNat, BitVec.setWidth_eq]
  rfl

theorem remS_eq (a b : Word) : remS a b = if b = 0 then a else BitVec.ofInt 32 (a.toInt.tmod b.toInt) := by
  rw [remS, ← BitVec.toInt_srem, BitVec.ofInt_toInt]

theorem remU_eq (a b : Word) : remU a b = if b = 0 then a else BitVec.ofNat 32 (a.toNat % b.toNat) := by
  rw [remU, ← BitVec.toNat_umod, BitVec.ofNat_toNat, BitVec.setWidth_eq]

/-- Settles O12: each instruction writes its function of the sources, and reads its registers for nothing else. -/
theorem divisionRoundsTowardZero : Obligations.DivisionRoundsTowardZero := by
  unfold Obligations.DivisionRoundsTowardZero
  intro d a b
  exact ⟨alu_result (fun _ => rfl) fun _ => divS_eq _ _, alu_result (fun _ => rfl) fun _ => divU_eq _ _,
    alu_result (fun _ => rfl) fun _ => remS_eq _ _, alu_result (fun _ => rfl) fun _ => remU_eq _ _⟩

/-! Products, shifts, comparisons and counts (R141). -/

theorem mulHigh_signed (a b : Word) : mulHigh true a b = BitVec.ofInt 32 (a.toInt * b.toInt / 2 ^ 32) := by
  have hp : a.signExtend 64 * b.signExtend 64 = BitVec.ofInt 64 (a.toInt * b.toInt) := (BitVec.ofInt_mul _ _).symm
  apply BitVec.eq_of_toNat_eq
  simp only [mulHigh, if_true, hp, fld, BitVec.extractLsb'_toNat, BitVec.toNat_ofInt, Nat.shiftRight_eq_div_pow]
  omega

theorem mulHigh_unsigned (a b : Word) : mulHigh false a b = BitVec.ofNat 32 (a.toNat * b.toNat / 2 ^ 32) := by
  apply BitVec.eq_of_toNat_eq
  simp only [mulHigh, Bool.false_eq_true, if_false, fld, BitVec.extractLsb'_toNat, BitVec.toNat_mul, BitVec.toNat_setWidth,
    BitVec.toNat_ofNat, Nat.shiftRight_eq_div_pow, Nat.mod_eq_of_lt (a.isLt.trans (by decide : 2 ^ 32 < 2 ^ 64)),
    Nat.mod_eq_of_lt (b.isLt.trans (by decide : 2 ^ 32 < 2 ^ 64))]
  omega

theorem shiftOf_eq (b : Word) : shiftOf b = b.toNat % 32 := by simp [shiftOf, nfld]

theorem minS_eq (a b : Word) : minS a b = if a.toInt < b.toInt then a else b := by simp [minS, BitVec.slt_iff_toInt_lt]

theorem maxS_eq (a b : Word) : maxS a b = if a.toInt < b.toInt then b else a := by simp [maxS, BitVec.slt_iff_toInt_lt]

theorem minU_eq (a b : Word) : minU a b = if a.toNat < b.toNat then a else b := by simp [minU, BitVec.ult]

theorem maxU_eq (a b : Word) : maxU a b = if a.toNat < b.toNat then b else a := by simp [maxU, BitVec.ult]

theorem boolWord_decide (p : Prop) [Decidable p] : boolWord (decide p) = if p then 1 else 0 := by simp [boolWord]

theorem popc32_eq (a : Word) : popc32 a = BitVec.ofNat 32 ((List.range 32).countP (fun n => flag a n)) := by
  rw [popc32, popNat, List.countP_eq_length_filter]
  rfl

theorem lui_eq (up : BitVec 20) : up.zeroExtend 32 <<< 12 = up ++ 0#12 := by
  apply BitVec.eq_of_toNat_eq
  have happ : (up ++ 0#12).toNat = up.toNat <<< 12 ||| 0 := BitVec.toNat_append up 0#12
  rw [happ, Nat.or_zero, Nat.shiftLeft_eq, BitVec.toNat_shiftLeft, BitVec.toNat_setWidth, Nat.shiftLeft_eq]
  omega

/-- The leading one bit of a word that is not zero stands just below its leading zeros. -/
theorem clzNat_bounds {x : Word} (h : x ≠ 0) :
    clzNat x < 32 ∧ 2 ^ (31 - clzNat x) ≤ x.toNat ∧ x.toNat < 2 ^ (32 - clzNat x) := by
  have hx : x.toNat ≠ 0 := fun e => h (BitVec.eq_of_toNat_eq e)
  have hlog : Nat.log2 x.toNat < 32 := (Nat.log2_lt hx).2 x.isLt
  have hc : clzNat x = 31 - Nat.log2 x.toNat := if_neg h
  rw [hc, show 31 - (31 - Nat.log2 x.toNat) = Nat.log2 x.toNat by omega,
    show 32 - (31 - Nat.log2 x.toNat) = Nat.log2 x.toNat + 1 by omega]
  exact ⟨by omega, Nat.log2_self_le hx, Nat.lt_log2_self⟩

/-- A scalar instruction of one result writes the function that it names. -/
theorem alu_computes {i : Instr} {d : Reg} {srcs : List Reg} {f : Crew → Word} (hi : ∀ s, exec i s = alu s d srcs f := by intros; rfl) :
    ScalarResult i d srcs f := alu_result hi fun _ => rfl

/-- Settles O13: each instruction writes its function of the sources; LI and ADD64 are the two of another shape. -/
theorem scalarResultsAreThoseOfTheTables : Obligations.ScalarResultsAreThoseOfTheTables := by
  unfold Obligations.ScalarResultsAreThoseOfTheTables
  intro d a b e imm sh
  refine ⟨alu_computes, alu_computes, alu_computes, alu_result (fun _ => rfl) fun _ => mulHigh_signed _ _,
    alu_result (fun _ => rfl) fun _ => mulHigh_unsigned _ _, alu_computes, alu_computes, alu_computes,
    alu_result (fun _ => rfl) fun _ => by rw [shiftOf_eq], alu_result (fun _ => rfl) fun _ => by rw [shiftOf_eq],
    alu_result (fun _ => rfl) fun _ => by rw [shiftOf_eq], alu_result (fun _ => rfl) fun _ => minS_eq _ _,
    alu_result (fun _ => rfl) fun _ => maxS_eq _ _, alu_result (fun _ => rfl) fun _ => minU_eq _ _,
    alu_result (fun _ => rfl) fun _ => maxU_eq _ _, alu_result (fun _ => rfl) fun _ => boolWord_decide _,
    alu_result (fun _ => rfl) fun _ => boolWord_decide _, alu_result (fun _ => rfl) fun _ => boolWord_decide _,
    alu_computes, alu_result (fun _ => rfl) fun _ => popc32_eq _, alu_computes, alu_computes, alu_computes, alu_computes, alu_computes,
    alu_computes, alu_computes, fun up => alu_result (fun _ => rfl) fun _ => lui_eq up, alu_computes, alu_computes,
    fun s w c v h => ⟨c.setS d v, scalarWritten_setS c d v, simple_of h [] 8 _⟩, fun s w c h hf => ?_,
    clzNat, rfl, fun x hx => clzNat_bounds hx, alu_computes⟩
  show execAdd64 d a b s = _
  rw [execAdd64, simple_of h, if_pos hf]
  rfl

end Sys2Proof.Machine
end

section
/-! SUPPORT. Scalar memory accesses (07 R149 to R151; 04 R81): their checks in their order, and what of the machine an access that
passes them changes as it issues. -/

namespace Sys2Proof.Machine

/-! Registers that an instruction waits for. -/

theorem Crew.allFull_append (c : Crew) (rs qs : List Reg) :
    c.allFull (rs ++ qs) = true ↔ c.allFull rs = true ∧ c.allFull qs = true := by
  rw [Crew.allFull, List.all_append, Bool.and_eq_true]
  rfl

theorem Crew.allFull_singleton (c : Crew) (r : Reg) : c.allFull [r] = true ↔ c.full r = true := by simp [Crew.allFull]

/-! The checks of an address: ALIGN, then XLAT above 52 bits (R81, R139). -/

/-- The traps of a scalar access to n bytes at an address. -/
def addressTraps (addr : DWord) (n : Nat) : List (Bool × FaultCode × DWord) :=
  [(misaligned addr n, .align, 0), (farAddr addr, .xlat, addr)]

theorem addressTraps_pass {s : State} {run : Result} {addr : DWord} {n : Nat} (ha : addr.toNat % n = 0) (h52 : addr.toNat < 2 ^ 52) :
    trapsThen s run (addressTraps addr n) = run := by
  have hm : misaligned addr n = false := by rw [← Bool.not_eq_true, misaligned_iff]; omega
  have hf : farAddr addr = false := by rw [← Bool.not_eq_true, farAddr_iff]; omega
  exact trapsThen_none (by simp [addressTraps, hm, hf])

theorem addressTraps_align {s : State} {run : Result} {addr : DWord} {n : Nat} (ha : addr.toNat % n ≠ 0) :
    trapsThen s run (addressTraps addr n) = trap s .align 0 := by
  rw [addressTraps, (misaligned_iff addr n).mpr ha]
  rfl

theorem addressTraps_xlat {s : State} {run : Result} {addr : DWord} {n : Nat} (ha : addr.toNat % n = 0) (h52 : 2 ^ 52 ≤ addr.toNat) :
    trapsThen s run (addressTraps addr n) = trap s .xlat addr := by
  have hm : misaligned addr n = false := by rw [← Bool.not_eq_true, misaligned_iff]; omega
  rw [addressTraps, hm, (farAddr_iff addr).mpr h52]
  rfl

/-! Issue. -/

/-- An access whose part is translated, with room on its path, is in flight with that part. -/
theorem issueGated_of {s : State} {w : Workgroup} {c : Crew} {a : Access} {p : Part} {pa : Nat}
    (hx : s.xlate w.die w.ctx a.kind.need p.addr = .ok pa) (hr : c.roomOn a.kind.path = true) (mark : Crew → Nat → Crew) :
    issueGated s w c a p mark
      = .next (s.put s.cur.key w ((mark (c.issue { a with parts := [{ p with pa := some pa }] }) c.nextId).advance 4)) := by
  rw [issueGated, hx]
  exact issueScalar_room (a := { a with parts := [{ p with pa := some pa }] }) hr 4 mark

theorem zeroExtend_through (x : Word) : (x.zeroExtend 64).zeroExtend 128 = x.zeroExtend 128 := by
  apply BitVec.eq_of_toNat_eq
  simp only [BitVec.toNat_setWidth]
  omega

/-- Offsets of memory-class accesses count elements of their size (R149). -/
theorem scalarAddr_eq (c : Crew) (a : Reg) (off : BitVec 7) (sz : BitVec 2) :
    scalarAddr c a off sz = c.s2 a + BitVec.ofInt 64 (off.toInt * 2 ^ sz.toNat) := by
  rw [scalarAddr, BitVec.ofInt_mul, sizeBytes, ← BitVec.ofInt_natCast]
  push_cast
  rfl

section
variable {s : State} {w : Workgroup} {c : Crew} (h : Issuing s w c) (d a b : Reg) (off : BitVec 7) (cls : MemClass) (sc : Scope)
  (sz : BitVec 2)
include h

theorem exec_sld (ha : c.allFull (pairOf a) = true) : exec (.sld d a off cls sc sz) s =
    let addr := c.s2 a + BitVec.ofInt 64 (off.toInt * 2 ^ sz.toNat)
    trapsThen s (issueGated s w c (scalarAccess c (.sload d sz) cls sc []) (onePart addr.toNat (2 ^ sz.toNat) 0 0)
      (fun c tag => if sz = 3 then (c.awaitS d tag).awaitS d.odd tag else c.awaitS d tag)) (addressTraps addr (2 ^ sz.toNat)) := by
  show execSld d a off cls sc sz s = _
  simp only [execSld, acting_of h, ha, scalarAddr_eq, Bool.not_true, Bool.false_eq_true, if_false]
  rfl

theorem exec_sst (ha : c.allFull (pairOf a) = true) (hd : c.allFull (if sz = 3 then pairOf d else [d]) = true) :
    exec (.sst d a off cls sc sz) s =
    let addr := c.s2 a + BitVec.ofInt 64 (off.toInt * 2 ^ sz.toNat)
    trapsThen s (issueGated s w.spoil c (scalarAccess c .store cls sc [])
      (onePart addr.toNat (2 ^ sz.toNat) ((sstData c d sz).zeroExtend 128) 0) (fun c _ => c)) (addressTraps addr (2 ^ sz.toNat)) := by
  have hf := (c.allFull_append _ _).mpr ⟨ha, hd⟩
  show execSst d a off cls sc sz s = _
  simp only [execSst, acting_of h, hf, scalarAddr_eq, Bool.not_true, Bool.false_eq_true, if_false]
  rfl

/-- SATOM waits for d too where it compares (R151); it is enough that all three are full. -/
theorem exec_satom (op : AtomOp) (wide : Bool) (ha : c.allFull (pairOf a) = true)
    (hb : c.allFull (if wide then pairOf b else [b]) = true) (hd : c.allFull (if wide then pairOf d else [d]) = true) :
    exec (.satom d a b op sc wide) s =
    let get := fun r => if wide then c.s2 r else (c.s r).zeroExtend 64
    trapsThen s (issueGated s w.spoil c (scalarAccess c (.satom d op wide) .strong sc [])
      (onePart (c.s2 a).toNat (if wide then 8 else 4) ((get b).zeroExtend 128) (get d))
      (fun c tag => if wide then (c.awaitS d tag).awaitS d.odd tag else c.awaitS d tag))
      (addressTraps (c.s2 a) (if wide then 8 else 4)) := by
  have hcmp : c.allFull (if op = .cas then (if wide then pairOf d else [d]) else []) = true := by
    split
    · exact hd
    · rfl
  have hf := (c.allFull_append _ _).mpr ⟨(c.allFull_append _ _).mpr ⟨ha, hb⟩, hcmp⟩
  show execSatom d a b op sc wide s = _
  simp only [execSatom, acting_of h, hf, Bool.not_true, Bool.false_eq_true, if_false]
  rfl

/-- LDK of a grid that is not fused: its own argument block, from the start (R150). -/
theorem exec_ldk (imm : BitVec 14) (hf : c.full a = true) (hg : (s.gridOf w).fused = none)
    (h4 : ((c.s a).toNat + imm.toNat) % 4 = 0) (hin : (c.s a).toNat + imm.toNat + 4 ≤ (s.gridOf w).copy.args.length) :
    exec (.ldk d a imm) s = issueScalar s w c
      (scalarAccess c (.ldk d) .weak .dev [onePart ((c.s a).toNat + imm.toNat) 4 0 0]) 4 (fun c tag => c.awaitS d tag) := by
  have hbias : (s.gridOf w).argBias c.side = 0 := by simp only [Grid.argBias, hg]
  have hargs : (s.gridOf w).args = (s.gridOf w).copy.args := by simp only [Grid.args, hg, List.append_nil]
  have hfull := (c.allFull_singleton a).mpr hf
  show execLdk d a imm s = _
  simp only [execLdk, acting_of h, hfull, hbias, hargs, Nat.add_zero, Bool.not_true, Bool.false_eq_true, if_false]
  exact trapsThen_none (by simp [h4, hin])

end

/-- Settles O19: an access acts once its sources are full (`exec_sld`, `exec_sst`, `exec_satom`, `exec_ldk`); its address passes its checks
in their order, and what passes is in flight (`issueGated_of`). -/
theorem scalarAccessesIssueOrTrap : Obligations.ScalarAccessesIssueOrTrap := by
  unfold Obligations.ScalarAccessesIssueOrTrap
  intro s w c h d a b off cls sc sz pa addr
  have full (hf : c.allFull (pairOf a ++ pairOf d ++ [b, d]) = true) : c.allFull (pairOf a) = true
      ∧ c.allFull (if sz = 3 then pairOf d else [d]) = true ∧ c.allFull [b] = true ∧ c.allFull [d] = true := by
    obtain ⟨hpairs, hbd⟩ := (c.allFull_append _ _).mp hf
    obtain ⟨ha, hpair⟩ := (c.allFull_append _ _).mp hpairs
    obtain ⟨hb, hd⟩ := (c.allFull_append [b] [d]).mp hbd
    refine ⟨ha, ?_, hb, hd⟩
    split
    · exact hpair
    · exact hd
  refine ⟨fun ha hal h52 hx hr hsz => ?_, fun ha hal h52 hx hr hsz => ?_, fun ha hd hal h52 hx hr hsz => ?_,
    fun hf hal h52 hx hr hsz => ?_, fun op hf hal h52 hx hr => ?_, fun op hf hal h52 hx hr hd0 => ?_, fun imm => ?_,
    fun hf hal => ?_, fun hf hal h52 => ?_, fun hf hal op => ?_⟩
  · rw [Becomes, exec_sld h d a off cls sc sz ha]
    refine (addressTraps_pass hal h52).trans ((issueGated_of hx hr _).trans ?_)
    rw [if_neg hsz]
    rfl
  · subst hsz
    rw [Becomes, exec_sld h d a off cls sc 3 ha]
    exact (addressTraps_pass hal h52).trans (issueGated_of hx hr _)
  · have hd' : c.allFull (if sz = 3 then pairOf d else [d]) = true := by rwa [if_neg hsz, Crew.allFull_singleton]
    rw [Becomes, exec_sst h d a off cls sc sz ha hd', sstData, if_neg hsz, zeroExtend_through]
    exact (addressTraps_pass hal h52).trans (issueGated_of hx hr _)
  · subst hsz
    obtain ⟨ha, hd⟩ := (c.allFull_append _ _).mp hf
    rw [Becomes, exec_sst h d a off cls sc 3 ha hd]
    exact (addressTraps_pass hal h52).trans (issueGated_of hx hr _)
  · obtain ⟨ha, hbd⟩ := (c.allFull_append _ _).mp hf
    obtain ⟨hb, hd⟩ := (c.allFull_append [b] [d]).mp hbd
    rw [Becomes, exec_satom h d a b sc op false ha hb hd, ← zeroExtend_through]
    exact (addressTraps_pass hal h52).trans (issueGated_of hx hr _)
  · obtain ⟨hab, hd⟩ := (c.allFull_append _ _).mp hf
    obtain ⟨ha, hb⟩ := (c.allFull_append _ _).mp hab
    rw [Becomes, exec_satom h d a b sc op true ha hb hd]
    exact (addressTraps_pass hal h52).trans (issueGated_of hx (by rwa [scalarAccess, AccessKind.path, if_neg hd0]) _)
  · intro o hf hg h4 hin hr
    rw [Becomes, exec_ldk h d a imm hf hg h4 hin]
    exact issueScalar_room hr 4 _
  · obtain ⟨ha, hd, -, -⟩ := full hf
    rw [Traps, Traps, exec_sld h d a off cls sc sz ha, exec_sst h d a off cls sc sz ha hd]
    exact ⟨addressTraps_align hal, addressTraps_align hal⟩
  · obtain ⟨ha, hd, -, -⟩ := full hf
    rw [Traps, Traps, exec_sld h d a off cls sc sz ha, exec_sst h d a off cls sc sz ha hd]
    exact ⟨addressTraps_xlat hal h52, addressTraps_xlat hal h52⟩
  · obtain ⟨ha, -, hb, hd⟩ := full hf
    rw [Traps, exec_satom h d a b sc op false ha hb hd]
    exact addressTraps_align hal

end Sys2Proof.Machine
end

section
/-! SUPPORT. Accumulators (07 R164 to R166): binding and freeing them, each once its checks have passed. -/

namespace Sys2Proof.Machine

theorem State.growsFirst_of_none {s : State} {die core : Nat} (hg : s.growers die core = []) (k : CrewKey) :
    s.growsFirst die core k = true := by
  rw [State.growsFirst, hg]
  rfl

section
variable {s : State} {w : Workgroup} {c : Crew} (h : Issuing s w c) (d : Reg) (n : BitVec 5)
include h

theorem aalloc_binds (hm : c.mayMatrix = true) (hn : w.accs.find? n.toNat = none) (hroom : w.floorBound < (s.gridOf w).floor) :
    exec (.aalloc n) s = .next (s.bindAcc s.cur.key w n.toNat false (c.advance 4)) := by
  show execAalloc n s = _
  rw [execAalloc, acting_of h]
  exact trapsThen_none (by simp [hm, hn, hroom])

/-- AGROW of an unbound handle binds it or waits. -/
theorem exec_agrow (hm : c.mayMatrix = true) (hn : w.accs.find? n.toNat = none) : exec (.agrow d n) s =
    if decide (2 ≤ s.poolFree w.die w.core) && s.growsFirst w.die w.core s.cur.key then
      .next (s.bindAcc s.cur.key w n.toNat true ({ c.setS d 1 with waitGrow := none }.advance 4))
    else .next (s.put s.cur.key w { c with waitGrow := some (d, n) }) := by
  show execAgrow d n s = _
  rw [execAgrow, acting_of h]
  exact trapsThen_none (by simp [hm, hn])

theorem endGrow_denied (hw : c.waitGrow = some (d, n)) :
    s.endGrow s.cur.key false = s.put s.cur.key w ({ c.setS d 0 with waitGrow := none }.advance 4) := by
  have hfind : s.find s.cur.key = some (w, c) := h
  simp only [State.endGrow, hfind, hw]
  rfl

theorem agrowDenial_denies (hdead : s.deadlocked w.die w.core = true)
    (hy : (extreme Grower.younger (s.growers w.die w.core)).map (·.key) = some s.cur.key) :
    exec (.agrowDenial s.cur.key) s = .next (s.endGrow s.cur.key false) := by
  have hfind : s.find s.cur.key = some (w, c) := h
  show execAgrowDenial s.cur.key s = _
  simp [execAgrowDenial, hfind, hdead, hy]

theorem exec_afree (hm : c.mayMatrix = true) : exec (.afree n) s =
    if !c.runsIssued || c.mma.isSome then .next (s.put s.cur.key w { c with freeing := some n })
    else trapsThen s (.next ((s.put s.cur.key (w.unbind n.toNat) ({ c with freeing := none }.advance 4)).offer w.die w.core))
      [((w.accs.find? n.toNat).isNone, .accnone, 0)] := by
  show execAfree n s = _
  rw [execAfree, acting_of h]
  simp [hm]

theorem accumulators_role (hm : c.mayMatrix = false) :
    Traps (.aalloc n) s .role 0 ∧ Traps (.agrow d n) s .role 0 ∧ Traps (.afree n) s .role 0 := by
  refine ⟨?_, ?_, ?_⟩
  · show execAalloc n s = _
    simp [execAalloc, acting_of h, hm, trapsThen]
  · show execAgrow d n s = _
    simp [execAgrow, acting_of h, hm, trapsThen]
  · show execAfree n s = _
    simp [execAfree, acting_of h, hm]

end

theorem Crew.setS_with_waitGrow (c : Crew) (d : Reg) (v : Word) (g : Option (Reg × BitVec 5)) :
    { c.setS d v with waitGrow := g } = ({ c with waitGrow := g } : Crew).setS d v := by
  unfold Crew.setS
  split <;> rfl

theorem Crew.runsIssued_of_empty {c : Crew} (hq : c.queue = []) : c.runsIssued = true := by
  rw [Crew.runsIssued, hq]

/-- Settles O27, each instruction by its rule above. -/
theorem accumulatorsBindAndFree : Obligations.AccumulatorsBindAndFree := by
  unfold Obligations.AccumulatorsBindAndFree
  intro s w c h d n owned
  refine ⟨aalloc_binds h n, fun hm hn h2 hg => ⟨_, scalarWritten_setS _ d 1, ?_⟩, fun hm hn h2 => ?_,
    fun hw hdead hy => ⟨_, scalarWritten_setS c d 0, ?_⟩, fun hm hq hmma hb => ⟨?_, ?_, fun m hmn => ?_⟩,
    fun hm hmma => ?_, fun hm hq hmma hn => ?_, accumulators_role h d n⟩
  · rw [exec_agrow h d n hm hn, State.growsFirst_of_none hg, decide_eq_true h2, Crew.setS_with_waitGrow]
    rfl
  · rw [Becomes, exec_agrow h d n hm hn, decide_eq_false (Nat.not_le.mpr h2)]
    rfl
  · rw [agrowDenial_denies h hdead hy, endGrow_denied h d n hw]
  · rw [exec_afree h n hm, Crew.runsIssued_of_empty hq, hmma]
    exact trapsThen_none (by simpa using hb)
  · rw [Workgroup.unbind, SMap.find?_erase, if_pos rfl]
  · rw [Workgroup.unbind, SMap.find?_erase, if_neg hmn]
  · rw [Becomes, exec_afree h n hm, hmma, Bool.or_true]
    rfl
  · rw [Traps, exec_afree h n hm, Crew.runsIssued_of_empty hq, hmma, hn]
    rfl

end Sys2Proof.Machine
end

section
/-! SUPPORT. Lane-to-scalar results (07 R147): the vote, reductions, matching lists and drafts (08 R187, R188; 10 R223; 11 R244), which the
run holds for its end. -/

namespace Sys2Proof.Machine

/-! First and last places of lists that rise. -/

theorem find?_least {l : List Nat} (hl : l.Pairwise (· < ·)) {p : Nat → Bool} {i : Nat} (h : l.find? p = some i) :
    i ∈ l ∧ p i = true ∧ ∀ j ∈ l, j < i → p j = false := by
  obtain ⟨hp, pre, post, rfl, hpre⟩ := List.find?_eq_some_iff_append.mp h
  obtain ⟨-, hpost, -⟩ := List.pairwise_append.mp hl
  refine ⟨by simp, hp, fun j hj hlt => ?_⟩
  rcases List.mem_append.mp hj with hj | hj
  · simpa using hpre j hj
  · rcases List.mem_cons.mp hj with rfl | hj
    · exact absurd hlt (Nat.lt_irrefl j)
    · exact absurd ((List.pairwise_cons.mp hpost).1 j hj) (Nat.lt_asymm hlt)

theorem getLast?_greatest {l : List Nat} (hl : l.Pairwise (· < ·)) {i : Nat} (h : l.getLast? = some i) :
    i ∈ l ∧ ∀ j ∈ l, j ≤ i := by
  obtain ⟨pre, rfl⟩ := List.getLast?_eq_some_iff.mp h
  obtain ⟨-, -, hpre⟩ := List.pairwise_append.mp hl
  refine ⟨by simp, fun j hj => ?_⟩
  rcases List.mem_append.mp hj with hj | hj
  · exact (hpre j hj i List.mem_cons_self).le
  · exact (List.mem_singleton.mp hj).le

/-! The instructions. -/

theorem sameValue_iff (type : BitVec 4) (a b : Word) :
    sameValue type.toNat a b = true ↔ a = b ∨ (type = 2 ∧ isNanWord a = true ∧ isNanWord b = true) := by
  have ht : type.toNat = 2 ↔ type = 2 := ⟨fun h => BitVec.eq_of_toNat_eq h, fun h => h ▸ rfl⟩
  simp [sameValue, ht, and_assoc]

/-- The lane that .MINIDX and .MAXIDX name for a value (R188). -/
def laneHolding (type : Nat) (a : Nat → Word) (v : Word) (e : Mask) : Nat :=
  ((lanesOf e).find? (fun l => sameValue type (a l) v)).getD 0

theorem laneHolding_least {type : BitVec 4} {a : Nat → Word} {v : Word} {e : Mask}
    (h : ∃ j ∈ lanesOf e, a j = v ∨ (type = 2 ∧ isNanWord (a j) = true ∧ isNanWord v = true)) :
    let l := laneHolding type.toNat a v e
    l ∈ lanesOf e ∧ (a l = v ∨ (type = 2 ∧ isNanWord (a l) = true ∧ isNanWord v = true))
      ∧ ∀ j ∈ lanesOf e, j < l → ¬ (a j = v ∨ (type = 2 ∧ isNanWord (a j) = true ∧ isNanWord v = true)) := by
  simp only [← sameValue_iff] at h ⊢
  obtain ⟨l, hl⟩ := Option.isSome_iff_exists.mp (List.find?_isSome.mpr h)
  obtain ⟨hmem, hv, hfirst⟩ := find?_least (List.pairwise_lt_range.filter _) hl
  rw [laneHolding, hl]
  exact ⟨hmem, hv, fun j hj hlt => by rw [Option.getD_some] at hlt; simp [hfirst j hj hlt]⟩

section
variable {s : State} {f : LaneFields} {w : Workgroup} {c : Crew}

/-- Ready, an instruction that only changes its crew leaves the crew changed. -/
theorem exec_passes {i : Instr} {p : LaneSpec} {g : Workgroup → Crew → Mask → Crew}
    (hi : exec i s = laneIssue s p f fun w c e => passOn s w (g w c e) f) (h : LaneReady s p f w c) :
    exec i s = .next (Passed s w (g w c (c.executing f)) f) := by
  rw [hi, laneIssue_of h, passOn_eq]

theorem vote_holds : ScalarFromLanes .vote (fun f => .plain (.vote f))
    (fun s w c f => voteWord f.subop.toNat (s.width w) (c.executing f) (c.pred f.srca.toNat)) :=
  fun s f _ c h => ⟨_, resultHeld_result c _ _,
    exec_passes (g := fun w c e => c.result f.dest.toNat (voteWord f.subop.toNat (s.width w) e (c.pred f.srca.toNat))) rfl h⟩

theorem redux_combines (h : LaneReady s (.plain (.redux f)) f w c) (hop : f.subop.toNat < 6) :
    exec (.redux f) s = .next (Passed s w (c.result f.dest.toNat (combineAll f.subop.toNat f.type.toNat
      ((lanesOf (c.executing f)).map (source (.redux f) f c 1)))) f) := by
  show execRedux f s = _
  rw [execRedux, laneIssue_of h]
  dsimp only
  rw [if_pos hop, passOn_eq]
  rfl

theorem redux_finds (h : LaneReady s (.plain (.redux f)) f w c) (hop : 6 ≤ f.subop.toNat) :
    let a := source (.redux f) f c 1
    let v := combineAll (f.subop.toNat - 5) f.type.toNat ((lanesOf (c.executing f)).map a)
    exec (.redux f) s = .next (Passed s w ((c.result f.dest.toNat v).result (f.dest.toNat + 1)
      (BitVec.ofNat 32 (laneHolding f.type.toNat a v (c.executing f)))) f) := by
  show execRedux f s = _
  rw [execRedux, laneIssue_of h]
  dsimp only
  rw [if_neg (Nat.not_lt.mpr hop), passOn_eq]
  rfl

theorem accept_holds : ScalarFromLanes .accept (fun f => { LaneSpec.plain (.accept f) with collective := true }) (fun s w c f =>
    BitVec.ofNat 32 (((List.range (s.width w)).find? (fun l => source (.accept f) f c 1 l != source (.accept f) f c 2 l)).getD
      (s.width w))) :=
  fun s f _ c h => ⟨_, resultHeld_result c _ _, exec_passes (g := fun w c _ => c.result f.dest.toNat (BitVec.ofNat 32
    (((List.range (s.width w)).find? (fun l => source (.accept f) f c 1 l != source (.accept f) f c 2 l)).getD (s.width w)))) rfl h⟩

/-- What ISECT leaves of a crew: the pairs of matching places, and their count with how far each list may be advanced (R223). -/
def intersected (f : LaneFields) (width : Nat) (e : Mask) (c : Crew) : Crew :=
  let a := source (.isect f) f c 1
  let b := source (.isect f) f c 2
  let pos := intersect a b width (2 * width) 0 0
  let m := min (a (width - 1)).toNat (b (width - 1)).toNat
  (c.writeLanes e (fun _ => f.dest.toNat) (fun l => match pos[l]? with
    | some p => BitVec.ofNat 32 (p.1 + p.2 * 65536)
    | none => 0xFFFFFFFF#32)).result f.xreg.toNat
      (BitVec.ofNat 32 (pos.length + advance a width m * 256 + advance b width m * 65536))

theorem exec_isect (h : LaneReady s { LaneSpec.plain (.isect f) with collective := true } f w c) :
    exec (.isect f) s = .next (Passed s w (intersected f (s.width w) (c.executing f) c) f) :=
  exec_passes (g := fun w c e => intersected f (s.width w) e c) rfl h

end

end Sys2Proof.Machine
end

section
/-! SUPPORT. Exact sums of dyadic numbers, and zeros in FP32. -/

namespace Sys2Proof

theorem Dy.leastExp_le : ∀ {l : List Dy} {x : Dy}, x ∈ l → Dy.leastExp l ≤ x.e
  | [y], x, h => by rw [List.mem_singleton.mp h]; exact le_rfl
  | y :: z :: l, x, h => by
    rcases List.mem_cons.mp h with rfl | h
    · exact min_le_left _ _
    · exact (min_le_right _ _).trans (Dy.leastExp_le h)

/-- The exact sum has the value of the sum. -/
theorem Dy.real_sum (l : List Dy) : (Dy.sum l).real = (l.map Dy.real).sum := by
  have hsteps : ∀ x ∈ l, (x.steps (Dy.leastExp l) : ℝ) * 2 ^ Dy.leastExp l = x.real := fun x hx => x.steps_mul (Dy.leastExp_le hx)
  rw [Dy.sum, Dy.real_of_steps, ← List.map_congr_left hsteps, List.sum_map_mul_right, Int.cast_list_sum, List.map_map]
  rfl

theorem Dy.real_sum_append (l m : List Dy) : (Dy.sum (l ++ m)).real = (Dy.sum l).real + (Dy.sum m).real := by
  simp only [Dy.real_sum, List.map_append, List.sum_append]

theorem Dy.real_zero : Dy.zero.real = 0 := by simp [Dy.zero, Dy.real, Dy.mag]

theorem nfld_magnitude (a : Word) : nfld a 0 31 = a.toNat % 2 ^ 31 := by simp [nfld]

theorem flag_sign (a : Word) : flag a 31 = decide (a.toNat / 2 ^ 31 % 2 = 1) := by
  rw [flag, BitVec.getLsbD, Nat.testBit_eq_decide_div_mod_eq]

/-- A word of FP32 as a value, by its sign and its magnitude. -/
theorem ofF32_eq (a : Word) : ofF32 a = if nfld a 0 31 ≤ 0x7F7FFFFF then .fin (fp32.magnitude (flag a 31) (nfld a 0 31))
    else if nfld a 0 31 = 0x7F800000 then .inf (flag a 31) else .nan := by
  rw [nfld_magnitude, flag_sign]
  rfl

theorem magnitude_m_eq_zero (neg : Bool) (n : Nat) : (fp32.magnitude neg n).m = 0 ↔ n = 0 := by
  unfold FFmt.magnitude
  dsimp only [fp32]
  split <;> dsimp only <;> omega

/-- A finite word is zero just where its magnitude is. -/
theorem m_eq_zero_iff {a : Word} {x : Dy} (h : ofF32 a = .fin x) : x.m = 0 ↔ nfld a 0 31 = 0 := by
  rw [ofF32_eq] at h
  split at h
  · rw [← Num.fin.inj h, magnitude_m_eq_zero]
  · split at h <;> exact Num.noConfusion h

theorem exists_fin_of_zero {a : Word} (h : nfld a 0 31 = 0) : ∃ x, ofF32 a = .fin x ∧ x.m = 0 := by
  rw [ofF32_eq, if_pos (by omega)]
  exact ⟨_, rfl, (magnitude_m_eq_zero _ _).mpr h⟩

theorem nfld_toF32_zero {x : Dy} (h : x.m = 0) : nfld (toF32Sticky x false) 0 31 = 0 := by
  have hv : x.mag = gridVal 0 := by
    rw [gridVal_subnormal (by decide), Dy.mag, h]
    simp
  have hr : fp32.roundMag .rne 0 false x = 0 :=
    (hv ▸ nearestCode_roundMag (Dy.standsFor_self x) : NearestCode _ (gridVal 0)).unique (nearestCode_gridVal 0)
  rw [nfld_toF32Sticky, f32Mag, hr]
  rfl

/-- A finite value less itself is zero. -/
theorem nfld_fsum_cancel (x : Dy) : nfld (fsum [.fin x, (Num.fin x).flip]) 0 31 = 0 := by
  have hz : (Dy.sum [x, x.flip]).isZero = true := by
    rw [Dy.isZero_iff, Dy.real_sum_pair, Dy.real_flip, add_neg_cancel]
  have hs : Num.sum [.fin x, (Num.fin x).flip]
      = .fin { Dy.sum [x, x.flip] with neg := [Num.fin x, (Num.fin x).flip].all Num.isNegZero } := if_pos hz
  rw [fsum, hs]
  exact nfld_toF32_zero (beq_iff_eq.mp hz)

theorem nfld_toF32_mul_zero {x : Dy} (h : x.m = 0) (y : Dy) : nfld (toF32 ((Num.fin x).mul (.fin y))) 0 31 = 0 :=
  nfld_toF32_zero (show x.m * y.m = 0 by rw [h, Nat.zero_mul])

theorem nfld_divF32_zero {x y : Dy} (hx : x.m = 0) (hy : y.m ≠ 0) : nfld (divF32 (.fin x) (.fin y)) 0 31 = 0 := by
  have hsticky : (x.m * 2 ^ 100 % y.m != 0) = false := by rw [hx, Nat.zero_mul, Nat.zero_mod]; rfl
  rw [divF32_fin hy, hsticky]
  exact nfld_toF32_zero (show x.m * 2 ^ 100 / y.m = 0 by rw [hx, Nat.zero_mul, Nat.zero_div])

theorem fexp2_zero {a : Word} (h : nfld a 0 31 = 0) : fexp2 a = 0x3F800000 := by
  obtain ⟨x, hx, hm⟩ := exists_fin_of_zero h
  have hz : x.isZero = true := beq_iff_eq.mpr hm
  rw [fexp2, hx]
  exact (if_pos hz).trans (by decide +kernel)

end Sys2Proof
end

section
/-! SUPPORT. SAMPLE (03 R79; 11 R243): the order of logits, their weights, and the running sum that first exceeds its share of their
total. -/

namespace Sys2Proof.Machine

/-! The order of logits. -/

theorem isNanWord_iff (a : Word) : isNanWord a = true ↔ 0x7F800000 < nfld a 0 31 := by
  rw [isNanWord, ofF32_eq]
  split
  · simp [Num.isNan]; omega
  · split <;> simp [Num.isNan] <;> omega

/-- A word is its sign and its magnitude. -/
theorem toNat_eq_sign_magnitude (a : Word) : a.toNat = (if flag a 31 then 2 ^ 31 else 0) + nfld a 0 31 := by
  have ha := a.isLt
  rw [nfld_magnitude, flag_sign]
  by_cases hs : a.toNat / 2 ^ 31 % 2 = 1
  · rw [decide_eq_true hs, if_pos rfl]
    omega
  · rw [decide_eq_false hs, if_neg Bool.false_ne_true]
    omega

theorem logitKey_eq (a : Word) : logitKey a = if 0x7F800000 < nfld a 0 31 then -0x80000000 else if nfld a 0 31 = 0 then 0
    else if flag a 31 then -(nfld a 0 31 : Int) - 1 else nfld a 0 31 := by
  rw [logitKey]
  simp only [isNanWord_iff]
  rfl

theorem logitKey_negInf : logitKey 0xFF800000#32 = -0x7F800001 := by decide +kernel

/-- Only a NaN and minus infinity are no greater than minus infinity. -/
theorem logitKey_le_negInf (a : Word) : logitKey a ≤ logitKey 0xFF800000#32 ↔ isNanWord a = true ∨ a = 0xFF800000#32 := by
  have hneg : (0xFF800000#32).toNat = 2 ^ 31 + 0x7F800000 := rfl
  rw [logitKey_negInf, isNanWord_iff, ← BitVec.toNat_inj, toNat_eq_sign_magnitude a, hneg, logitKey_eq]
  cases flag a 31 with
  | false =>
    simp only [Bool.false_eq_true, if_false]
    split_ifs <;> omega
  | true =>
    simp only [if_true]
    split_ifs <;> omega

theorem logitKey_posInf : logitKey 0x7F800000#32 = 0x7F800000 := by decide +kernel

/-- Plus infinity is the greatest, and alone in its place. -/
theorem logitKey_posInf_le (a : Word) :
    logitKey a ≤ logitKey 0x7F800000#32 ∧ (logitKey 0x7F800000#32 ≤ logitKey a ↔ a = 0x7F800000#32) := by
  have hpos : (0x7F800000#32).toNat = 0x7F800000 := rfl
  have hlt := a.isLt
  rw [logitKey_posInf, ← BitVec.toNat_inj, hpos, logitKey_eq]
  rw [toNat_eq_sign_magnitude a] at hlt ⊢
  cases hs : flag a 31 with
  | false =>
    simp only [hs, Bool.false_eq_true, if_false] at hlt ⊢
    split_ifs <;> omega
  | true =>
    simp only [hs, if_true] at hlt ⊢
    split_ifs <;> omega

/-- What is neither a NaN nor an infinity is finite. -/
theorem exists_fin {a : Word} (hn : isNanWord a = false) (hneg : a ≠ 0xFF800000#32) (hpos : a ≠ 0x7F800000#32) :
    ∃ x, ofF32 a = .fin x := by
  have ha := toNat_eq_sign_magnitude a
  have hn' : ¬ 0x7F800000 < nfld a 0 31 := by rw [← isNanWord_iff, hn]; exact Bool.false_ne_true
  have hinf : nfld a 0 31 ≠ 0x7F800000 := by
    intro h
    rw [h] at ha
    cases hs : flag a 31 <;> rw [hs] at ha
    · exact hpos (BitVec.eq_of_toNat_eq ha)
    · exact hneg (BitVec.eq_of_toNat_eq ha)
  exact ⟨_, by rw [ofF32_eq, if_pos (by omega)]⟩

/-! The largest logit and where it stands first (R79 step 1). -/

/-- The largest of a list of logits, minus infinity of none. -/
def topLogit (xs : List Word) : Word := xs.foldl (fun m x => if logitKey m < logitKey x then x else m) 0xFF800000#32

/-- Going through a list keeps the largest so far. -/
theorem foldl_larger (xs : List Word) (m : Word) :
    let r := xs.foldl (fun m x => if logitKey m < logitKey x then x else m) m
    (r = m ∨ r ∈ xs) ∧ logitKey m ≤ logitKey r ∧ ∀ x ∈ xs, logitKey x ≤ logitKey r := by
  induction xs generalizing m with
  | nil => simp
  | cons y ys ih =>
    obtain ⟨hr, hm, hys⟩ := ih (if logitKey m < logitKey y then y else m)
    rw [List.foldl_cons]
    refine ⟨?_, ?_, ?_⟩
    · rcases hr with hr | hr
      · rw [hr]; split <;> simp
      · exact .inr (List.mem_cons_of_mem _ hr)
    · refine le_trans ?_ hm
      split <;> omega
    · intro x hx
      rcases List.mem_cons.mp hx with rfl | hx
      · refine le_trans ?_ hm
        split <;> omega
      · exact hys x hx

theorem topLogit_of_le {xs : List Word} (h : ∀ x ∈ xs, logitKey x ≤ logitKey 0xFF800000#32) : topLogit xs = 0xFF800000#32 := by
  induction xs with
  | nil => rfl
  | cons y ys ih =>
    have hy : ¬ logitKey 0xFF800000#32 < logitKey y := not_lt.mpr (h y List.mem_cons_self)
    rw [topLogit, List.foldl_cons, if_neg hy]
    exact ih fun z hz => h z (List.mem_cons_of_mem _ hz)

/-- The place where a condition first holds in a list, 0 if nowhere. -/
def firstPlace (p : Word → Bool) (xs : List Word) : Nat := (xs.findIdx? p).getD 0

section
variable (x : Nat → Word) (n : Nat)

/-- Place i is the first of n that meets a condition. -/
def Least (p : Nat → Prop) (i : Nat) : Prop := i < n ∧ p i ∧ ∀ j < i, ¬ p j

/-- Place i holds a largest of n logits. -/
def IsTop (i : Nat) : Prop := ∀ j < n, logitKey (x j) ≤ logitKey (x i)

theorem firstPlace_least {p : Word → Bool} (h : ∃ j < n, p (x j) = true) :
    Least n (fun j => p (x j) = true) (firstPlace p ((List.range n).map x)) := by
  obtain ⟨j, hj, hp⟩ := h
  have hsome : (((List.range n).map x).findIdx? p).isSome = true := by
    rw [List.findIdx?_isSome, List.any_eq_true]
    exact ⟨x j, List.mem_map_of_mem (List.mem_range.mpr hj), hp⟩
  obtain ⟨i, hi⟩ := Option.isSome_iff_exists.mp hsome
  obtain ⟨hlt, hpi, hfirst⟩ := List.findIdx?_eq_some_iff_getElem.mp hi
  rw [firstPlace, hi]
  simp only [List.length_map, List.length_range, List.getElem_map, List.getElem_range] at hlt hpi hfirst
  exact ⟨hlt, hpi, hfirst⟩

theorem topLogit_out (h : ∀ j < n, isNanWord (x j) = true ∨ x j = 0xFF800000#32) : topLogit ((List.range n).map x) = 0xFF800000#32 := by
  refine topLogit_of_le fun y hy => ?_
  obtain ⟨j, hj, rfl⟩ := List.mem_map.mp hy
  exact (logitKey_le_negInf _).mpr (h j (List.mem_range.mp hj))

/-- Where a logit counts, the largest is one of those that count. -/
theorem topLogit_spec (h : ∃ j < n, ¬ (isNanWord (x j) = true ∨ x j = 0xFF800000#32)) :
    ∃ m < n, IsTop x n m ∧ topLogit ((List.range n).map x) = x m ∧ ¬ (isNanWord (x m) = true ∨ x m = 0xFF800000#32) := by
  obtain ⟨j, hj, hout⟩ := h
  obtain ⟨hr, -, hall⟩ := foldl_larger ((List.range n).map x) 0xFF800000#32
  have htop : ∀ i < n, logitKey (x i) ≤ logitKey (topLogit ((List.range n).map x)) := fun i hi =>
    hall _ (List.mem_map_of_mem (List.mem_range.mpr hi))
  have hlt : logitKey 0xFF800000#32 < logitKey (topLogit ((List.range n).map x)) :=
    lt_of_lt_of_le (not_le.mp (mt (logitKey_le_negInf _).mp hout)) (htop j hj)
  rcases hr with hr | hr
  · rw [topLogit, hr] at hlt
    exact absurd hlt (lt_irrefl _)
  · obtain ⟨m, hm, hx⟩ := List.mem_map.mp hr
    have hx' : topLogit ((List.range n).map x) = x m := hx.symm
    refine ⟨m, List.mem_range.mp hm, fun i hi => hx' ▸ htop i hi, hx', ?_⟩
    rw [← logitKey_le_negInf, not_le, ← hx']
    exact hlt

/-- The places of the logits that are as large as a largest one are the tops. -/
theorem isTop_iff {m : Nat} (hm : m < n) (ht : IsTop x n m) {i : Nat} (hi : i < n) :
    (logitKey (x i) == logitKey (x m)) = true ↔ IsTop x n i := by
  rw [beq_iff_eq]
  exact ⟨fun h j hj => h ▸ ht j hj, fun h => le_antisymm (ht i hi) (h m hm)⟩

theorem firstPlace_top {m : Nat} (hm : m < n) (ht : IsTop x n m) :
    Least n (IsTop x n) (firstPlace (fun y => logitKey y == logitKey (x m)) ((List.range n).map x)) := by
  obtain ⟨hlt, hp, hfirst⟩ := firstPlace_least x n (p := fun y => logitKey y == logitKey (x m)) ⟨m, hm, beq_iff_eq.mpr rfl⟩
  exact ⟨hlt, (isTop_iff x n hm ht hlt).mp hp, fun j hj htop => hfirst j hj ((isTop_iff x n hm ht (hj.trans hlt)).mpr htop)⟩

end

/-! Weights (R79 step 3). -/

theorem weight_eq (a top temp : Word) : weight a top temp =
    let d := fsum [ofF32 a, (ofF32 top).flip]
    let e := toF32 ((ofF32 d).mul (ofF32 0x3FB8AA3B#32))
    if isNanWord a = true ∨ a = 0xFF800000#32 then .fin Dy.zero
    else if temp = 0x7F800000#32 ∧ nfld d 23 8 ≠ 255 then ofF32 0x3F800000#32
    else ofF32 (fexp2 (divF32 (ofF32 e) (ofF32 temp))) := by
  simp only [weight, Bool.or_eq_true, Bool.and_eq_true, beq_iff_eq, bne_iff_ne]

/-- The weight of a largest logit is 1, at every temperature that is positive. -/
theorem weight_self {a temp : Word} {x : Dy} (ha : ofF32 a = .fin x) (hna : isNanWord a = false) (hneg : a ≠ 0xFF800000#32)
    (ht0 : nfld temp 0 31 ≠ 0) (htn : isNanWord temp = false) (hts : flag temp 31 = false) :
    weight a a temp = ofF32 0x3F800000#32 := by
  have hd := nfld_fsum_cancel x
  rw [← ha] at hd
  have hexp : nfld (fsum [ofF32 a, (ofF32 a).flip]) 23 8 ≠ 255 := by
    simp only [nfld, BitVec.extractLsb'_toNat] at hd ⊢
    omega
  obtain ⟨z, hz, hzm⟩ := exists_fin_of_zero hd
  obtain ⟨y, hy⟩ : ∃ y, ofF32 0x3FB8AA3B#32 = .fin y := ⟨_, rfl⟩
  have he := nfld_toF32_mul_zero hzm y
  obtain ⟨v, hv, hvm⟩ := exists_fin_of_zero he
  rw [weight, if_neg (by simp [hna, hneg])]
  by_cases hinf : temp = 0x7F800000#32
  · exact if_pos (by simp [hinf, hexp])
  · have hnegt : temp ≠ 0xFF800000#32 := by
      rintro rfl
      exact absurd hts (by decide)
    obtain ⟨t, ht⟩ := exists_fin htn hnegt hinf
    have htm : t.m ≠ 0 := mt (m_eq_zero_iff ht).mp ht0
    refine (if_neg (by simp [hinf])).trans ?_
    rw [hz, hy, hv, ht, fexp2_zero (nfld_divF32_zero hvm htm)]
    rfl

/-! Running sums (R79 steps 4 to 6). -/

section
variable (w : Nat → Dy) (n : Nat)

/-- The sum of the weights up to place j. -/
def sumUpTo (j : Nat) : Dy := Dy.sum ((List.range (j + 1)).map w)

/-- Place j has weight, and the sum up to it is above t. -/
def risesAbove (t : Dy) (j : Nat) : Bool := !(w j).isZero && t.lt (sumUpTo w j)

/-- The search goes through the places from j on, with the sum of those before. -/
theorem firstAbove_range' (t : Dy) (k j : Nat) {p : Dy} (hp : p.real = (Dy.sum ((List.range j).map w)).real) :
    firstAbove t p j ((List.range' j k).map w) = (List.range' j k).find? (risesAbove w t) := by
  induction k generalizing j p with
  | zero => rfl
  | succ k ih =>
    have hsum : (Dy.sum [p, w j]).real = (sumUpTo w j).real := by
      rw [sumUpTo, List.range_succ, List.map_append, Dy.real_sum_append, Dy.real_sum_pair, hp, List.map_singleton, Dy.real_sum [w j],
        List.map_singleton, List.sum_singleton]
    have hlt : t.lt (Dy.sum [p, w j]) = t.lt (sumUpTo w j) := by
      rw [Bool.eq_iff_iff, Dy.lt_iff, Dy.lt_iff, hsum]
    have hfirst : (!(w j).isZero && t.lt (Dy.sum [p, w j])) = risesAbove w t j := by rw [hlt, risesAbove]
    rw [List.range'_succ, List.map_cons, firstAbove, hfirst, List.find?_cons]
    cases risesAbove w t j
    · exact ih (j + 1) hsum
    · rfl

theorem firstAbove_eq (t : Dy) : firstAbove t Dy.zero 0 ((List.range n).map w) = (List.range n).find? (risesAbove w t) := by
  rw [List.range_eq_range', firstAbove_range' w t n 0 (by rw [Dy.real_zero, Dy.real_sum]; rfl)]

theorem lastWeight_eq : lastWeight ((List.range n).map w) = ((List.range n).filter (fun i => !(w i).isZero)).getLast?.getD 0 := by
  rw [lastWeight, List.length_map, List.length_range, ← List.map_prod_left_eq_zip, List.filter_map, List.getLast?_map, Option.map_map]
  change (Option.map id _).getD 0 = _
  rw [Option.map_id]
  rfl

/-- The last weight that is not zero, where there is one. -/
theorem lastWeight_spec (h : ∃ j < n, (w j).m ≠ 0) :
    let i := lastWeight ((List.range n).map w)
    i < n ∧ (w i).m ≠ 0 ∧ ∀ j, i < j → j < n → (w j).m = 0 := by
  have hmem (j : Nat) : j ∈ (List.range n).filter (fun i => !(w i).isZero) ↔ j < n ∧ (w j).m ≠ 0 := by
    simp [Dy.isZero]
  obtain ⟨j, hj⟩ := h
  have hne : (List.range n).filter (fun i => !(w i).isZero) ≠ [] := List.ne_nil_of_mem ((hmem j).mpr hj)
  obtain ⟨hi, hlast⟩ := getLast?_greatest (List.pairwise_lt_range.filter _) (List.getLast?_eq_some_getLast hne)
  rw [lastWeight_eq, List.getLast?_eq_some_getLast hne, Option.getD_some]
  refine ⟨((hmem _).mp hi).1, ((hmem _).mp hi).2, fun j hlt hj => ?_⟩
  by_contra hm
  exact absurd (hlast j ((hmem j).mpr ⟨hj, hm⟩)) (Nat.not_le.mpr hlt)

end

/-! The steps. -/

/-- What a random word takes of the total of the weights, as FP32 (R79 step 5). -/
def shareOf (total : Dy) (u : Word) : Dy := (ofF32 (toF32 (.fin (total.mul ⟨false, nfld u 8 24, -24⟩)))).dy

/-- The place that the weights and a random word choose (R79 steps 4 to 6). -/
def sampleWeighted (nums : List Num) (u : Word) : Nat × Bool :=
  let ws := nums.map Num.dy
  if nums.any (fun w => w == .nan) then (lastWeight ws, false)
  else ((firstAbove (shareOf (Dy.sum ws) u) Dy.zero 0 ws).getD (lastWeight ws), false)

/-- SAMPLE's index and DEGEN flag once the largest logit is known. -/
def sampleFrom (top : Word) (xs : List Word) (temp u : Word) : Nat × Bool :=
  if top == 0xFF800000#32 then (0, true)
  else if top == 0x7F800000#32 then (firstPlace (fun y => logitKey y == logitKey top) xs, true)
  else if nfld temp 0 31 = 0 then (firstPlace (fun y => logitKey y == logitKey top) xs, false)
  else if isNanWord temp || flag temp 31 then (firstPlace (fun y => logitKey y == logitKey top) xs, true)
  else sampleWeighted (xs.map (fun x => weight x top temp)) u

theorem sampleIndex_eq (xs : List Word) (temp u : Word) : sampleIndex xs temp u = sampleFrom (topLogit xs) xs temp u := rfl

section
variable (w : Nat → Num) (n : Nat) (u : Word)

/-- Place j takes the draw: its weight is not zero, and the sum up to it is above the share; no place does beside a NaN. -/
def Takes (j : Nat) : Prop :=
  (w j).dy.m ≠ 0 ∧ (shareOf (sumUpTo (fun j => (w j).dy) (n - 1)) u).lt (sumUpTo (fun j => (w j).dy) j) = true
    ∧ ∀ j < n, w j ≠ .nan

/-- Of weights of which one is not zero, the first place that takes the draw is chosen, and the last that is not zero where none does. -/
theorem sampleWeighted_spec (h : ∃ j < n, (w j).dy.m ≠ 0) :
    let r := sampleWeighted ((List.range n).map w) u
    r.2 = false ∧ ((∃ j < n, Takes w n u j) → Least n (Takes w n u) r.1)
      ∧ ((∀ j < n, ¬ Takes w n u j) → r.1 < n ∧ (w r.1).dy.m ≠ 0 ∧ ∀ j, r.1 < j → j < n → (w j).dy.m = 0) := by
  have hlast := lastWeight_spec (fun j => (w j).dy) n h
  have hws : ((List.range n).map w).map Num.dy = (List.range n).map (fun j => (w j).dy) := List.map_map
  have hn : n - 1 + 1 = n := by obtain ⟨j, hj, -⟩ := h; omega
  have hsum : Dy.sum ((List.range n).map (fun j => (w j).dy)) = sumUpTo (fun j => (w j).dy) (n - 1) := by rw [sumUpTo, hn]
  have hany : ((List.range n).map w).any (fun w => w == .nan) = true ↔ ∃ j < n, w j = .nan := by simp
  simp only [sampleWeighted, hws, hsum, firstAbove_eq]
  by_cases hnan : ∃ j < n, w j = .nan
  · rw [if_pos (hany.mpr hnan)]
    refine ⟨rfl, fun ⟨j, _, _, _, hno⟩ => ?_, fun _ => hlast⟩
    obtain ⟨k, hk, hw⟩ := hnan
    exact absurd hw (hno k hk)
  · rw [if_neg (mt hany.mp hnan)]
    have hno : ∀ j < n, w j ≠ .nan := fun j hj hw => hnan ⟨j, hj, hw⟩
    have htakes (j : Nat) : risesAbove (fun j => (w j).dy) (shareOf (sumUpTo (fun j => (w j).dy) (n - 1)) u) j = true
        ↔ Takes w n u j := by
      simp only [Takes, risesAbove, Dy.isZero, Bool.and_eq_true, Bool.not_eq_true', beq_eq_false_iff_ne]
      exact ⟨fun ⟨hm, ht⟩ => ⟨hm, ht, hno⟩, fun ⟨hm, ht, _⟩ => ⟨hm, ht⟩⟩
    cases hfind : (List.range n).find? (risesAbove (fun j => (w j).dy) (shareOf (sumUpTo (fun j => (w j).dy) (n - 1)) u)) with
    | none =>
      have hnone : ∀ j < n, ¬ Takes w n u j := fun j hj => by
        rw [← htakes]
        exact List.find?_eq_none.mp hfind j (List.mem_range.mpr hj)
      exact ⟨rfl, fun ⟨j, hj, ht⟩ => absurd ht (hnone j hj), fun _ => hlast⟩
    | some i =>
      obtain ⟨hi, htake, hfirst⟩ := find?_least List.pairwise_lt_range hfind
      have hi' := List.mem_range.mp hi
      refine ⟨rfl, fun _ => ⟨hi', (htakes i).mp htake, fun j hj => ?_⟩, fun hnone => absurd ((htakes i).mp htake) (hnone i hi')⟩
      rw [← htakes, hfirst j (List.mem_range.mpr (Nat.lt_trans hj hi')) hj]
      exact Bool.false_ne_true

end

section
variable (x : Nat → Word) (n : Nat) (temp u : Word)

/-- Without a logit that counts, the first place is given as degenerate (R79 step 1). -/
theorem sampleIndex_out (h : ∀ j < n, isNanWord (x j) = true ∨ x j = 0xFF800000#32) :
    sampleIndex ((List.range n).map x) temp u = (0, true) := by
  rw [sampleIndex_eq, topLogit_out x n h]
  rfl

/-- A logit of plus infinity is chosen, the first of them (R79 step 1). -/
theorem sampleIndex_infinite (h : ∃ j < n, x j = 0x7F800000#32) :
    ∃ i, sampleIndex ((List.range n).map x) temp u = (i, true) ∧ Least n (fun j => x j = 0x7F800000#32) i := by
  obtain ⟨j, hj, hx⟩ := h
  have hcounts : ¬ (isNanWord (x j) = true ∨ x j = 0xFF800000#32) := by
    rw [hx]
    decide +kernel
  obtain ⟨m, hm, htop, heq, -⟩ := topLogit_spec x n ⟨j, hj, hcounts⟩
  have hxm : x m = 0x7F800000#32 := (logitKey_posInf_le _).2.mp (hx ▸ htop j hj)
  have hiff (y : Word) : (logitKey y == logitKey (x m)) = true ↔ y = 0x7F800000#32 := by
    rw [hxm, beq_iff_eq, ← (logitKey_posInf_le y).2]
    exact ⟨ge_of_eq, fun h => le_antisymm (logitKey_posInf_le y).1 h⟩
  have hfirst := firstPlace_least x n (p := fun y => logitKey y == logitKey (x m)) ⟨m, hm, beq_self_eq_true _⟩
  simp only [hiff] at hfirst
  refine ⟨_, ?_, hfirst⟩
  rw [sampleIndex_eq, heq, hxm]
  rfl

/-- Otherwise the temperature decides (R79 step 2). -/
theorem sampleIndex_finite (hc : ∃ j < n, ¬ (isNanWord (x j) = true ∨ x j = 0xFF800000#32)) (hfin : ∀ j < n, x j ≠ 0x7F800000#32) :
    ∃ m < n, IsTop x n m ∧ (∃ y, ofF32 (x m) = .fin y) ∧ ¬ (isNanWord (x m) = true ∨ x m = 0xFF800000#32)
    ∧ ∃ i, Least n (IsTop x n) i ∧ sampleIndex ((List.range n).map x) temp u =
      if nfld temp 0 31 = 0 then (i, false)
      else if isNanWord temp || flag temp 31 then (i, true)
      else sampleWeighted ((List.range n).map (fun j => weight (x j) (x m) temp)) u := by
  obtain ⟨m, hm, htop, heq, hcounts⟩ := topLogit_spec x n hc
  have hneg : ¬ (x m == 0xFF800000#32) = true := by
    rw [beq_iff_eq]
    exact fun h => hcounts (.inr h)
  have hpos : ¬ (x m == 0x7F800000#32) = true := by
    rw [beq_iff_eq]
    exact hfin m hm
  refine ⟨m, hm, htop, exists_fin (Bool.eq_false_iff.mpr fun h => hcounts (.inl h)) (fun h => hcounts (.inr h)) (hfin m hm), hcounts,
    _, firstPlace_top x n hm htop, ?_⟩
  rw [sampleIndex_eq, heq, sampleFrom, if_neg hneg, if_neg hpos, List.map_map]
  rfl

end

/-! The instruction. -/

/-- Registers that follow one another, lane after lane. -/
theorem flatten_lanes (v : Nat → Nat → Word) (k : Nat) :
    ((List.range k).map (fun j => (List.range 32).map (v j))).flatten = (List.range (32 * k)).map (fun i => v (i / 32) (i % 32)) := by
  induction k with
  | zero => rfl
  | succ k ih =>
    rw [List.range_succ (n := k), List.map_append, List.flatten_append, ih, Nat.mul_succ, List.range_add, List.map_append,
      List.map_singleton, List.flatten_singleton, List.map_map]
    congr 1
    refine List.map_congr_left fun l hl => ?_
    have hl' := List.mem_range.mp hl
    rw [Function.comp_apply, Nat.mul_add_div (by decide), Nat.div_eq_of_lt hl', Nat.add_zero, Nat.mul_add_mod, Nat.mod_eq_of_lt hl']

/-- Logit i of SAMPLE, of register i / 32 after the first and lane i mod 32 (R243). -/
def logitAt (f : LaneFields) (c : Crew) (i : Nat) : Word := c.v (f.srca.toNat + i / 32) (i % 32)

theorem exec_sample {s : State} {f : LaneFields} {w : Workgroup} {c : Crew}
    (h : LaneReady s { LaneSpec.plain (.sample f) with collective := true, groups := (1, max f.simm.toNat 1, 1, 1) } f w c)
    (hw : s.width w = 32) (hn : f.simm.toNat ≠ 0) :
    let r := sampleIndex ((List.range (32 * f.simm.toNat)).map (logitAt f c)) (source (.sample f) f c 2 0) (source (.sample f) f c 3 0)
    exec (.sample f) s
      = .next (Passed s w (c.result f.dest.toNat (BitVec.ofNat 32 (r.1 + if r.2 then 2 ^ 31 else 0))) f) := by
  show execSample f s = _
  rw [execSample, laneIssue_of h, flatten_lanes (fun j l => c.v (f.srca.toNat + j) l), trapsThen_none (by simp [hw, hn]), passOn_eq]
  rfl

/-- A quotient is rounded to nearest even (R79): of finite words to what `ComparesNearest` finds, of an infinity to an infinity. -/
theorem divF32_words {a b : Word} {y : Dy} (hb : ofF32 b = .fin y) (hy : y.m ≠ 0) :
    (∀ x, ofF32 a = .fin x → flag (divF32 (ofF32 a) (ofF32 b)) 31 = (x.neg != y.neg)
      ∧ (x.m = 0 → nfld (divF32 (ofF32 a) (ofF32 b)) 0 31 = 0)
      ∧ (x.m ≠ 0 → ComparesNearest (nfld (divF32 (ofF32 a) (ofF32 b)) 0 31) (fun m => (y.abs.mul m, x.abs.mul ⟨false, 2, 0⟩))))
    ∧ ∀ neg, ofF32 a = .inf neg → divF32 (ofF32 a) (ofF32 b) = toF32 (.inf (neg != y.neg)) := by
  refine ⟨fun x ha => ?_, fun neg ha => ?_⟩
  · obtain ⟨hsign, hnear⟩ := divF32_nearest x hy (decode_fin_m hb)
    rw [ha, hb]
    exact ⟨hsign, fun hx => nfld_divF32_zero hx hy, fun _ => hnear⟩
  · rw [ha, hb]
    rfl

/-- Settles O43: each instruction leaves its result with the run. REDUX and SAMPLE name the first lane or place that meets their
condition, SAMPLE among the weights by its running sums, which are exact. -/
theorem laneToScalarResultsWaitForTheRun : Obligations.LaneToScalarResultsWaitForTheRun := by
  unfold Obligations.LaneToScalarResultsWaitForTheRun
  refine ⟨vote_holds, fun s f w c h hop => ⟨_, resultHeld_result c _ _, redux_combines h hop⟩,
    fun s f w c h hop hd => ?_, accept_holds, fun s f w c h hw hn => ?_, fun a b y hb hy => divF32_words hb hy, fun s f w c h => ?_⟩
  · exact ⟨_, _, _, _, rfl, resultHeld_result c _ _, resultHeld_result _ _ _,
      laneHolding_least (type := f.type) (a := source (.redux f) f c 1), redux_finds h hop⟩
  · intro n x least top out temp
    let u := source (.sample f) f c 3 0
    let r := sampleIndex ((List.range n).map x) temp u
    refine ⟨_, r.1, r.2, resultHeld_result c _ _, exec_sample h hw hn, fun hout => ?_, fun hinf => ?_, fun hc hfin => ?_⟩
    · have hr : r = (0, true) := sampleIndex_out x n temp u hout
      rw [hr]
      exact ⟨rfl, rfl⟩
    · obtain ⟨i, hi, hleast⟩ := sampleIndex_infinite x n temp u hinf
      have hr : r = (i, true) := hi
      rw [hr]
      exact ⟨hleast, rfl⟩
    · obtain ⟨m, hm, htop, ⟨y, hy⟩, hcounts, i, hi, hr⟩ := sampleIndex_finite x n temp u hc hfin
      change r = _ at hr
      refine ⟨fun h0 => ?_, fun h0 hneg => ?_, fun h0 hnan hsign => ⟨m, hm, htop, ?_⟩⟩
      · rw [hr, if_pos h0]
        exact ⟨hi, rfl⟩
      · rw [hr, if_neg h0, if_pos (by rwa [Bool.or_eq_true])]
        exact ⟨hi, rfl⟩
      · intro wt upTo t takes
        have hwt : wt = fun j => weight (x j) (x m) temp := funext fun j => (weight_eq (x j) (x m) temp).symm
        have hself : (wt m).dy.m ≠ 0 := by
          rw [hwt]
          simp only
          rw [weight_self hy (Bool.eq_false_iff.mpr fun h => hcounts (.inl h)) (fun h => hcounts (.inr h)) h0 hnan hsign]
          decide
        have hr' : r = sampleWeighted ((List.range n).map wt) u := by
          rw [hr, if_neg h0, if_neg (by simp [hnan, hsign]), hwt]
        rw [hr']
        exact sampleWeighted_spec wt n u ⟨m, hm, hself⟩
  · exact ⟨_, _, lanesWritten_writeLanes _ _ _ _, resultHeld_result _ _ _, exec_isect h⟩

end Sys2Proof.Machine
end

section
/-! SUPPORT. Lane comparisons and PLOP (08 R175, R179, R183), and words made bit by bit. -/

namespace Sys2Proof.Machine

/-! Numbers and masks made of their bits. -/

/-- The lowest of the bits of a number stands before the others. -/
theorem bitsNat_succ (n : Nat) (p : Nat → Bool) : bitsNat (n + 1) p = Nat.bit (p 0) (bitsNat n fun i => p (i + 1)) := by
  have hdouble : bitsNat n (fun i => p (i + 1)) * 2 = ((List.range n).map fun i => if p (i + 1) then 2 ^ (i + 1) else 0).sum := by
    rw [bitsNat, ← List.sum_map_mul_right]
    refine congrArg List.sum (List.map_congr_left fun i _ => ?_)
    rw [ite_mul, Nat.zero_mul, Nat.pow_succ]
  rw [bitsNat, List.range_succ_eq_map, List.map_cons, List.sum_cons, List.map_map, Nat.bit_val, Nat.mul_comm, hdouble, Nat.add_comm]
  cases p 0 <;> rfl

theorem testBit_bitsNat {n : Nat} {p : Nat → Bool} {i : Nat} (h : i < n) : (bitsNat n p).testBit i = p i := by
  induction n generalizing p i with
  | zero => omega
  | succ n ih =>
    rw [bitsNat_succ]
    cases i with
    | zero => exact Nat.testBit_bit_zero _ _
    | succ i => rw [Nat.testBit_bit_succ, ih (by omega)]

theorem flag_ofNat {w : Nat} (x : Nat) {i : Nat} (h : i < w) : flag (BitVec.ofNat w x) i = x.testBit i := by
  rw [flag, BitVec.getLsbD_ofNat, decide_eq_true h, Bool.true_and]

theorem flag_bits {w : Nat} (p : Nat → Bool) {i : Nat} (h : i < w) : flag (BitVec.ofNat w (bitsNat w p)) i = p i := by
  rw [flag_ofNat _ h, testBit_bitsNat h]

theorem flag_maskWhere (p : Nat → Bool) {l : Nat} (h : l < 64) : flag (maskWhere p) l = p l := flag_bits p h

/-! Truth tables. -/

/-- The table of PLOP is bits 7:0 of parcel 2 (R132, R183). -/
theorem tableBit_lut (f : LaneFields) (a b c : Bool) :
    tableBit f.lut a b c = flag f.p2 ((if a then 4 else 0) + (if b then 2 else 0) + (if c then 1 else 0)) := by
  have hbit (i : Nat) (h : i < 8) : f.lut.getLsbD i = flag f.p2 i := by
    rw [LaneFields.lut, fld, BitVec.getLsbD_extractLsb', decide_eq_true h, Bool.true_and, Nat.zero_add, flag]
  exact hbit _ (by split <;> split <;> split <;> decide)

theorem tableBit_copies : ∀ a b c, tableBit 0xF0#8 a b c = a := by decide

theorem tableBit_clears : ∀ a b c, tableBit 0#8 a b c = false := by decide

/-! The instructions. -/

section
variable {s : State} {f : LaneFields} {w : Workgroup} {c : Crew} (h : LaneReady s (.plain (.plop f)) f w c)
include h

/-- Ready, PLOP writes the mask of the lanes whose bits its table holds. -/
theorem exec_plop : exec (.plop f) s = .next (Passed s w (c.setPred f.dest.toNat (c.executing f) (maskWhere fun l =>
    tableBit f.lut (flag (c.pred f.srca.toNat) l) (flag (c.pred f.srcb.toNat) l) (flag (c.pred f.srcc.toNat) l))) f) :=
  exec_passes (g := fun _ c e => c.setPred f.dest.toNat e (maskWhere fun l =>
    tableBit f.lut (flag (c.pred f.srca.toNat) l) (flag (c.pred f.srcb.toNat) l) (flag (c.pred f.srcc.toNat) l))) rfl h

theorem plop_writes {val : Nat → Bool} (hv : ∀ l, tableBit f.lut (flag (c.pred f.srca.toNat) l) (flag (c.pred f.srcb.toNat) l)
    (flag (c.pred f.srcc.toNat) l) = val l) :
    ∃ c', PredicateWritten c c' (c.executing f) f.dest.toNat val ∧ exec (.plop f) s = .next (Passed s w c' f) :=
  ⟨_, predicateWritten_setPred c _ _ _ val fun l hl _ => (flag_maskWhere _ hl).trans (hv l), exec_plop h⟩

end

/-- Settles O40: PLOP writes what its table gives, of which 0xF0 and 0 are two; a write of p7 is discarded. -/
theorem plopLooksItsTableUp : Obligations.PlopLooksItsTableUp := by
  unfold Obligations.PlopLooksItsTableUp
  refine ⟨fun s f w c h => plop_writes h fun _ => tableBit_lut f _ _ _, fun s f w c h h7 => ?_, fun s f w c h ht => ?_,
    fun s f w c h ht => ?_⟩
  · rw [exec_plop h, Crew.setPred, if_pos h7]
  · have hlut : f.lut = 0xF0#8 := ht
    exact plop_writes h fun _ => hlut ▸ tableBit_copies _ _ _
  · have hlut : f.lut = 0#8 := ht
    exact plop_writes h fun _ => hlut ▸ tableBit_clears _ _ _

/-- Settles O39: each comparison is `laneTest` of its condition. -/
theorem laneComparisonsWritePredicates : Obligations.LaneComparisonsWritePredicates :=
  ⟨laneTest_result (fun _ _ => rfl) fun _ _ _ => rfl, laneTest_result (fun _ _ => rfl) fun _ _ _ => rfl,
    laneTest_result (fun _ _ => rfl) fun _ _ _ => rfl, laneTest_result (fun _ _ => rfl) fun _ _ _ => rfl⟩

end Sys2Proof.Machine
end

section
/-! SUPPORT. Lane logic, bit fields and moves (08 R176, R177): where each bit of a result comes from. -/

namespace Sys2Proof.Machine

theorem flag_tableWord (t : BitVec 8) (a b c : Word) {n : Nat} (h : n < 32) :
    flag (tableWord t a b c) n = tableBit t (flag a n) (flag b n) (flag c n) :=
  flag_bits (fun i => tableBit t (flag a i) (flag b i) (flag c i)) h

/-- BREV's sum, taken from its other end, lists the bits of the result in order. -/
theorem bitReverse_eq (a : Word) : bitReverse a = BitVec.ofNat 32 (bitsNat 32 fun i => flag a (31 - i)) := by
  rw [bitReverse, bitsNat, ← List.sum_reverse, ← List.map_reverse, List.range_eq_range', List.reverse_range', List.map_map,
    ← List.range_eq_range']
  refine congrArg (BitVec.ofNat 32 ∘ List.sum) (List.map_congr_left fun i hi => ?_)
  have hi' : 31 - (31 - i) = i := by have := List.mem_range.mp hi; omega
  simp only [Function.comp_apply, Nat.zero_add, Nat.reduceSub, hi']

theorem flag_bitReverse (a : Word) {n : Nat} (h : n < 32) : flag (bitReverse a) n = flag a (31 - n) := by
  rw [bitReverse_eq, flag_bits _ h]

theorem rotateLeft_eq (a : Word) (k : Nat) :
    a.rotateLeft (k % 32) = (a <<< (k % 32)) ||| (a >>> (32 - k % 32)) := by
  rw [BitVec.rotateLeft_def, Nat.mod_mod]

/-! Fields. -/

theorem nfld_eq_div_mod {w : Nat} (x : BitVec w) (lo len : Nat) : nfld x lo len = x.toNat / 2 ^ lo % 2 ^ len := by
  rw [nfld, BitVec.extractLsb'_toNat, Nat.shiftRight_eq_div_pow]

/-- The field of `len` bits from bit `pos` on, extended (BFE). -/
def extractField (signed : Bool) (a : Word) (pos len : Nat) : Word :=
  let field := a.toNat / 2 ^ pos % 2 ^ len
  if signed && decide (0 < len) && flag a (pos + len - 1) then BitVec.ofInt 32 ((field : Int) - 2 ^ len) else BitVec.ofNat 32 field

theorem bitExtract_eq (signed : Bool) (a b c : Word) :
    bitExtract signed a b c = extractField signed a (b.toNat % 32) (min (c.toNat % 64) (32 - b.toNat % 32)) := rfl

theorem testBit_field (a : Word) (pos len n : Nat) :
    (a.toNat / 2 ^ pos % 2 ^ len).testBit n = (decide (n < len) && flag a (pos + n)) := by
  rw [Nat.testBit_mod_two_pow, Nat.testBit_div_two_pow, Nat.add_comm n pos, flag, BitVec.getLsbD]

/-- A negative field in 32 bits: ones above it. -/
theorem toNat_negative_field {field len : Nat} (hl : len ≤ 32) (hf : field < 2 ^ len) :
    (BitVec.ofInt 32 ((field : Int) - 2 ^ len)).toNat = 2 ^ len * (2 ^ (32 - len) - 1) + field := by
  have hpow : 2 ^ len * 2 ^ (32 - len) = 2 ^ 32 := by rw [← Nat.pow_add, Nat.add_sub_cancel' hl]
  have hle : 2 ^ len ≤ 2 ^ 32 := Nat.pow_le_pow_right (by decide) hl
  have hcast : ((2 : Int) ^ len) = ((2 ^ len : Nat) : Int) := by push_cast; rfl
  rw [BitVec.toNat_ofInt, Nat.mul_sub, hpow, Nat.mul_one, hcast]
  omega

theorem flag_extractField (signed : Bool) (a : Word) {pos len n : Nat} (hl : len ≤ 32 - pos) (hn : n < 32) :
    flag (extractField signed a pos len) n
      = if n < len then flag a (pos + n) else signed && decide (0 < len) && flag a (pos + len - 1) := by
  have hfield : a.toNat / 2 ^ pos % 2 ^ len < 2 ^ len := Nat.mod_lt _ (Nat.two_pow_pos len)
  unfold extractField
  dsimp only
  split
  · next hneg =>
    rw [flag, BitVec.getLsbD, toNat_negative_field (by omega) hfield, Nat.testBit_two_pow_mul_add _ hfield, testBit_field,
      Nat.testBit_two_pow_sub_one, hneg]
    by_cases h : n < len
    · simp only [h, if_true, decide_true, Bool.true_and]
    · simp only [h, if_false, decide_eq_true_eq]
      omega
  · next hpos =>
    rw [flag_ofNat _ hn, testBit_field, Bool.eq_false_iff.mpr hpos]
    by_cases h : n < len <;> simp [h]

/-- `a` with the low `len` bits of `b` from bit `pos` on (BFI). -/
def insertField (a b : Word) (pos len : Nat) : Word :=
  let mask : Word := BitVec.ofNat 32 ((2 ^ len - 1) * 2 ^ pos)
  (a &&& ~~~mask) ||| (BitVec.ofNat 32 (b.toNat % 2 ^ len * 2 ^ pos) &&& mask)

theorem bitInsert_eq (a b c : Word) :
    bitInsert a b c = insertField a b (c.toNat % 32) (min (c.toNat / 256 % 64) (32 - c.toNat % 32)) := by
  rw [bitInsert, nfld_eq_div_mod]
  rfl

theorem flag_insertField (a b : Word) {pos len n : Nat} (hn : n < 32) :
    flag (insertField a b pos len) n = if pos ≤ n ∧ n < pos + len then flag b (n - pos) else flag a n := by
  have hmask : (BitVec.ofNat 32 ((2 ^ len - 1) * 2 ^ pos)).getLsbD n = (decide (pos ≤ n) && decide (n - pos < len)) := by
    rw [← flag, flag_ofNat _ hn, Nat.testBit_mul_two_pow, Nat.testBit_two_pow_sub_one]
  have hnew : (BitVec.ofNat 32 (b.toNat % 2 ^ len * 2 ^ pos)).getLsbD n
      = (decide (pos ≤ n) && (decide (n - pos < len) && flag b (n - pos))) := by
    rw [← flag, flag_ofNat _ hn, Nat.testBit_mul_two_pow, Nat.testBit_mod_two_pow, flag, BitVec.getLsbD]
  have hin : (pos ≤ n ∧ n < pos + len) ↔ pos ≤ n ∧ n - pos < len := by omega
  unfold insertField
  simp only [flag, BitVec.getLsbD_or, BitVec.getLsbD_and, BitVec.getLsbD_not, hmask, hnew, hin, hn, decide_true, Bool.true_and]
  by_cases h1 : pos ≤ n <;> by_cases h2 : n - pos < len <;> simp [h1, h2]

/-- Settles O36: each instruction maps its function over the lanes, and the functions of LOP, BREV, BFE and BFI place every bit as stated. -/
theorem laneLogicBitsAndMoves : Obligations.LaneLogicBitsAndMoves := by
  unfold Obligations.LaneLogicBitsAndMoves
  refine ⟨⟨laneComputes_of, laneComputesImm_of⟩, ⟨laneComputes_of, laneComputesImm_of⟩, ⟨laneComputes_of, laneComputesImm_of⟩,
    ⟨laneComputes_of, laneComputesImm_of⟩, laneComputes_of,
    ⟨tableWord, laneComputes_of, fun t a b c n hn => flag_tableWord t a b c hn⟩,
    ⟨laneComputes_of, laneComputesImm_of⟩, ⟨laneComputes_of, laneComputesImm_of⟩, ⟨laneComputes_of, laneComputesImm_of⟩,
    ?_, ?_,
    ⟨clzNat, rfl, fun x hx => clzNat_bounds hx, laneComputes_of⟩,
    ⟨bitReverse, fun x n hn => flag_bitReverse x hn, laneComputes_of⟩,
    ⟨extractField, laneComputes_of, fun signed a p l n hl _ hn => flag_extractField signed a hl hn⟩,
    ⟨insertField, ?_, fun a b p l n _ _ hn => flag_insertField a b hn⟩,
    ⟨laneComputes_of, laneComputesImm_of⟩, fun s f w c h => ?_, laneComputes_of, laneComputesImm_of⟩
  · simp only [← rotateLeft_eq]
    exact ⟨laneComputes_of, laneComputesImm_of⟩
  · simp only [← popc32_eq]
    exact laneComputes_of
  · simp only [← bitInsert_eq]
    exact laneComputes_of
  · have hexec : exec (.lsel f) s = execLsel f s := rfl
    rw [hexec, execLsel]
    exact laneMapL_of h fun _ => rfl

end Sys2Proof.Machine
end

section
/-! SUPPORT. Packed pairs, conversions and quantisation (08 R181, R182; 09 R207, R208). -/

namespace Sys2Proof.Machine

/-! CVT. -/

/-- What CVT writes for the source value x: of the pair types both halves, the high one by draw 1 (R182). -/
def cvtWord (f : LaneFields) (mode : Round) (sat : Bool) (draw : Nat → Nat) (x : Nat) : Word :=
  let one := fun (j x : Nat) =>
    convert (cvtType f.type.toNat) (cvtType f.subop.toNat) mode f.sat sat (draw j) (x % 2 ^ (cvtType f.type.toNat).width)
  if f.type = 3 ∨ f.type = 4 then BitVec.ofNat 32 ((one 1 (x / 65536)).toNat * 65536 + (one 0 (x % 65536)).toNat) else one 0 x

section
variable {s : State} {f : LaneFields} {w : Workgroup} {c : Crew} (h : LaneReady s (.plain (.cvt f)) f w c)
include h

theorem exec_cvt :
    let slot := s.slot w f.fa.toNat
    let mode := if f.use then slot.mode else .rne
    exec (.cvt f) s = trapsThen s (.next (Passed s w (c.writeLanes (c.executing f) (destination (.cvt f) f c) fun l =>
      cvtWord f mode (f.sat || (f.use && slot.sat)) (fun j => if decide (mode = .sr) then s.draw w c l j else 0)
        (source (.cvt f) f c 1 l).toNat) f)) [(f.use && slot.fmt == 0, .fmtslot, 0)] := by
  intro slot mode
  have h3 : f.type.toNat = 3 ↔ f.type = 3 := BitVec.toNat_inj (y := 3)
  have h4 : f.type.toNat = 4 ↔ f.type = 4 := BitVec.toNat_inj (y := 4)
  show execCvt f s = _
  rw [execCvt, laneIssue_of h]
  simp only [passOn_eq, Bool.or_eq_true, decide_eq_true_eq, h3, h4]
  rfl

theorem cvt_plain (hu : f.use = false) : exec (.cvt f) s = .next (Passed s w (c.writeLanes (c.executing f) (destination (.cvt f) f c)
    fun l => cvtWord f .rne f.sat (fun _ => 0) (source (.cvt f) f c 1 l).toNat) f) := by
  have hexec := exec_cvt h
  simp only [hu, Bool.false_and, Bool.or_false, Bool.false_eq_true, if_false] at hexec
  exact hexec

theorem cvt_by_slot (hu : f.use = true) : exec (.cvt f) s = if (s.slot w f.fa.toNat).fmt = 0 then trap s .fmtslot 0
    else .next (Passed s w (c.writeLanes (c.executing f) (destination (.cvt f) f c) fun l =>
      cvtWord f (s.slot w f.fa.toNat).mode (f.sat || (s.slot w f.fa.toNat).sat) (s.drawIf w c (s.slot w f.fa.toNat) l)
        (source (.cvt f) f c 1 l).toNat) f) := by
  have hexec := exec_cvt h
  simp only [hu, Bool.true_and, if_true, trapsThen, beq_iff_eq] at hexec
  exact hexec

end

/-! QNT and DQT. -/

/-- In block mode the whole crew has to take part (R173 order 3). -/
theorem quantise_partly {s : State} {i : Instr} {f : LaneFields} {w : Workgroup} {c : Crew}
    {val : Workgroup → Crew → Slot → (Nat → Word) → Nat → Word} (hb : (f.subop.toNat == 1) = true) (h : Issuing s w c)
    (he : c.executing f ≠ laneMask (s.width w)) (ho : ∀ n ∈ [0, 1, 2, 3], (operandAt i f n).outOfRegs (s.regsOf w c) 1 = false) :
    quantise s i f val = trap s .illconv 0 := by
  rw [quantise, hb]
  refine laneIssue_partly h _ rfl rfl ?_ rfl he
  rintro ⟨n, hn, hout⟩
  have hgroup : ({ LaneSpec.plain i with collective := true } : LaneSpec).group n = 1 := by
    simp only [List.mem_cons, List.not_mem_nil, or_false] at hn
    rcases hn with rfl | rfl | rfl | rfl <;> rfl
  rw [hgroup] at hout
  exact Bool.eq_false_iff.mp (ho n hn) hout

section
variable {s : State} {i : Instr} {f : LaneFields} {w : Workgroup} {c : Crew} {block : Bool} (hb : (f.subop.toNat == 1) = block)
  {val : Workgroup → Crew → Slot → (Nat → Word) → Nat → Word} (h : LaneReady s { LaneSpec.plain i with collective := block } f w c)
include hb h

/-- By a slot of its mode, and in a crew wide enough for a block, each of the two writes its word to every lane. -/
theorem quantise_writes (hfmt : (if block then blockFormat (s.slot w f.fa.toNat).fmt else elementFormat (s.slot w f.fa.toNat).fmt) = true)
    (hwide : block = true → 32 ≤ s.width w) {word : Nat → Word}
    (hv : ∀ l, val w c (s.slot w f.fa.toNat) (source i f c 1) l = word l) :
    ∃ c', LanesWritten c c' (c.executing f) (destination i f c) word ∧ quantise s i f val = .next (Passed s w c' f) := by
  have hroom : (block && decide (s.width w < 32)) = false := by
    cases block
    · rfl
    · exact decide_eq_false (Nat.not_lt.mpr (hwide rfl))
  refine ⟨_, lanesWritten_writeLanes c (c.executing f) (destination i f c) word, ?_⟩
  rw [quantise, hb, laneIssue_of h]
  dsimp only
  rw [hfmt, hroom, trapsThen_none (by simp), passOn_eq, ← funext hv]
  rfl

/-- A slot that is not of the mode traps. -/
theorem quantise_traps
    (hfmt : (if block then blockFormat (s.slot w f.fa.toNat).fmt else elementFormat (s.slot w f.fa.toNat).fmt) = false) :
    quantise s i f val = trap s .fmtslot 0 := by
  rw [quantise, hb, laneIssue_of h]
  dsimp only
  rw [hfmt]
  rfl

end

/-- Settles O38: the packed operations map over the lanes; CVT, QNT and DQT write their word where the slot is of the mode, and trap where it
is not. -/
theorem lanePackedAndConverted : Obligations.LanePackedAndConverted := by
  unfold Obligations.LanePackedAndConverted
  intro fmt pair
  have hpair (f : LaneFields) (g : Num → Num → Num → Num) (a b c : Word) : packed f.type.toNat g a b c = pair f g a b c := by
    have hfmt : pairFmt f.type.toNat = fmt f := if_congr (BitVec.toNat_inj (y := 3)) rfl rfl
    simp only [packed, hfmt, nfld_eq_div_mod]
    rfl
  have hq (s : State) (f : LaneFields) : exec (.qnt f) s = execQnt f s := rfl
  have hd (s : State) (f : LaneFields) : exec (.dqt f) s = execDqt f s := rfl
  simp only [Traps, hq, hd, ← hpair]
  refine ⟨⟨laneComputes_of, laneComputesImm_of⟩, ⟨laneComputes_of, laneComputesImm_of⟩, laneComputes_of, fun s f w c h => ?_,
    fun s f w c h h0 hf => ?_, fun s f w c h h0 hf => ?_, fun s f w c h1 => ?_, fun s f w c h0 hf => ?_, fun s f w c h h1 he ho => ?_⟩
  · refine ⟨fun hu => ⟨_, lanesWritten_writeLanes _ _ _ _, cvt_plain h hu⟩, fun hu hf => ⟨_, lanesWritten_writeLanes _ _ _ _, ?_⟩,
      fun hu hf => ?_⟩
    · rw [cvt_by_slot h hu, if_neg hf]
      rfl
    · rw [cvt_by_slot h hu, if_pos hf]
  · exact quantise_writes (by rw [h0]; rfl) h hf nofun fun l => if_pos (by rw [h0]; rfl)
  · exact quantise_writes (by rw [h0]; rfl) h hf nofun fun l => if_pos (by rw [h0]; rfl)
  · have hb : (f.subop.toNat == 1) = true := by rw [h1]; rfl
    have hn : ¬ f.subop.toNat = 0 := by rw [h1]; decide
    exact ⟨fun h hw => quantise_writes hb h hw.1 (fun _ => hw.2) fun l => if_neg hn,
      fun h hw => quantise_writes hb h hw.1 (fun _ => hw.2) fun l => if_neg hn,
      fun hf => ⟨fun h => quantise_traps hb h hf, fun h => quantise_traps hb h hf⟩⟩
  · have hb : (f.subop.toNat == 1) = false := by rw [h0]; rfl
    exact ⟨fun h => quantise_traps hb h hf, fun h => quantise_traps hb h hf⟩
  · have hb : (f.subop.toNat == 1) = true := by rw [h1]; rfl
    exact ⟨quantise_partly hb h he fun n hn => (ho n hn).1, quantise_partly hb h he fun n hn => (ho n hn).2⟩

end Sys2Proof.Machine
end

section
/-! SUPPORT. Joins whose rows fit (10 R214, R218, R220): a population that is put in place changes the crews of its workgroup alone, so
the join cursor is what the join leaves in it. -/

namespace Sys2Proof.Machine

/-! Installing a population (R24). -/

/-- Of the workgroup at most the crews change. -/
def OnlyCrews (w w' : Workgroup) : Prop := w' = { w with crews := w'.crews }

theorem OnlyCrews.refl (w : Workgroup) : OnlyCrews w w := rfl

theorem OnlyCrews.trans {w w' w'' : Workgroup} (h : OnlyCrews w w') (g : OnlyCrews w' w'') : OnlyCrews w w'' := by
  unfold OnlyCrews at *
  rw [g, h]

theorem OnlyCrews.foldl {α : Type} {f : Workgroup → α → Workgroup} (h : ∀ w x, OnlyCrews w (f w x)) (l : List α) (w : Workgroup) :
    OnlyCrews w (l.foldl f w) :=
  l.foldlRecOn f (.refl w) fun _ hw x _ => hw.trans (h _ x)

theorem OnlyCrews.jcur {w w' : Workgroup} (h : OnlyCrews w w') : w'.jcur = w.jcur := (congrArg Workgroup.jcur h).trans rfl

theorem OnlyCrews.scratch {w w' : Workgroup} (h : OnlyCrews w w') : w'.scratch = w.scratch := (congrArg Workgroup.scratch h).trans rfl

theorem onlyCrews_putCrew (w : Workgroup) (n : Nat) (c : Crew) : OnlyCrews w (w.putCrew n c) := rfl

theorem onlyCrews_freeSlot (w : Workgroup) (slot : Nat) (role : BitVec 2) : OnlyCrews w (w.freeSlot slot role) := by
  unfold Workgroup.freeSlot
  split
  · exact onlyCrews_putCrew w _ _
  · refine OnlyCrews.trans ?_ (onlyCrews_putCrew _ _ _)
    split
    · exact .refl w
    · exact onlyCrews_putCrew w _ _

theorem onlyCrews_install (w : Workgroup) (low : Crew) (keep : List (Nat × Crew × Mask)) : OnlyCrews w (w.install low keep) :=
  (OnlyCrews.foldl (fun _ _ => onlyCrews_putCrew _ _ _) _ w).trans (.foldl (fun _ _ => onlyCrews_putCrew _ _ _) _ _)

theorem onlyCrews_fill (w : Workgroup) (tick regs width : Nat) (low : Crew) (parts : List (Nat × Crew)) (ts : List Thread) :
    OnlyCrews w (w.fill tick regs width low parts ts) :=
  (OnlyCrews.foldl (fun w sl => onlyCrews_freeSlot w sl low.role) _ w).trans (onlyCrews_install _ low _)

/-! Cursors (R218). -/

@[simp] theorem Workgroup.setJcur_get (w : Workgroup) (role : BitVec 2) (j : DWord) : (w.setJcur role j).jcur.get role.toNat = j :=
  SMap.get_put_self _ _ _

@[simp] theorem Workgroup.setJcur_scratch (w : Workgroup) (role : BitVec 2) (j : DWord) : (w.setJcur role j).scratch = w.scratch := rfl

/-- Settles O31: with the stash in the scratchpad and no row beyond the cap, `joinRun` sets the cursor idle and fills the crews, which
leaves the cursor and the scratchpad alone (`onlyCrews_fill`). -/
theorem joinsThatFitLeaveTheCursorIdle : Obligations.JoinsThatFitLeaveTheCursorIdle := by
  unfold Obligations.JoinsThatFitLeaveTheCursorIdle
  intro s w parts low spec rel outer again g regs stash j left start keyOf hstash hfit
  have hroom : (again && decide (g.spBytes < stash + jcurLcnt j * stashSize regs)) = false := by
    cases again
    · rfl
    · simpa using hstash rfl
  obtain ⟨out, hrun⟩ : ∃ out, joinRun s w parts low spec rel outer again
      = .next (s.putPop s.cur.key.wid ((w.setJcur low.role jcurIdle).fill s.tick regs (s.width w) low parts out)) := by
    unfold joinRun
    rw [if_neg (Bool.eq_false_iff.mp hroom), hfit]
    exact ⟨_, rfl⟩
  have hfill := onlyCrews_fill (w.setJcur low.role jcurIdle) s.tick regs (s.width w) low parts out
  refine ⟨_, hrun, ?_, ?_⟩
  · rw [hfill.jcur]
    exact w.setJcur_get low.role jcurIdle
  · rw [hfill.scratch, Workgroup.setJcur_scratch]

end Sys2Proof.Machine
end

section
/-! SUPPORT. MATCH, RAND and TOPK (10 R222; 11 R241, R242; 03 R78): the masks of equal lanes, the counter words of a draw, and what each
leaves of its crew. -/

namespace Sys2Proof.Machine

theorem flag_matchMask (width : Nat) (val : Nat → Word) (x : Word) {j : Nat} (h : j < 64) :
    flag (matchMask width val x) j = (decide (j < width) && val j == x) := flag_maskWhere _ h

/-- The counter of stream 0 and element 0 holds the offset from bit 8 on (R78). -/
theorem drawWords_first (c : Crew) (tid off : Nat) : drawWords c tid 0 off 0
    = philox ⟨c.runConst 4, c.runConst 5, BitVec.ofNat 32 tid, BitVec.ofNat 32 (off * 256)⟩ (c.runConst 6) (c.runConst 7) := by
  simp [drawWords]

section
variable {s : State} {f : LaneFields} {w : Workgroup} {c : Crew}

/-- What MATCH leaves of a crew: in n registers of each lane the mask of the lanes whose value equals its own (R222). -/
def matched (f : LaneFields) (n width : Nat) (e : Mask) (c : Crew) : Crew :=
  let a := source (.matchL f) f c 1
  let d := destination (.matchL f) f c
  let low := c.writeLanes e d (fun l => fld (matchMask width a (a l)) 0 32)
  if n = 2 then low.writeLanes e (fun l => d l + 1) (fun l => fld (matchMask width a (a l)) 32 32) else low

theorem exec_matchL {n : Nat} (hn : n = if s.width w = 64 then 2 else 1)
    (h : LaneReady s { LaneSpec.plain (.matchL f) with collective := true, groups := (n, 1, 1, 1) } f w c) :
    exec (.matchL f) s = .next (Passed s w (matched f n (s.width w) (c.executing f) c) f) := by
  have hi : s.issuer = some (w, c) := h.issuer
  subst hn
  show execMatchL f s = _
  unfold execMatchL
  rw [hi]
  exact (laneIssue_of h _).trans (passOn_eq _ _ _ _)

/-- The lane that TOPK ranks at place r, none from the count on (R242). -/
def topLane (f : LaneFields) (width : Nat) (a : Nat → Word) (r : Nat) : Option Nat :=
  if r < f.simm.toNat then (List.range width).find? (fun l => rankOf a width l == r) else none

/-- What TOPK leaves of a crew: the greatest values, and in the register that follows their lanes (R242). -/
def ranked (f : LaneFields) (width : Nat) (e : Mask) (c : Crew) : Crew :=
  let a := source (.topk f) f c 1
  (c.writeLanes e (fun _ => f.dest.toNat) (fun r => match topLane f width a r with
    | some l => if (ofF32 (a l)).isNan then 0x7FC00000#32 else a l
    | none => 0xFF800000#32)).writeLanes e (fun _ => f.dest.toNat + 1)
      (fun r => match topLane f width a r with | some l => BitVec.ofNat 32 l | none => 0xFFFFFFFF#32)

theorem exec_topk (h : LaneReady s { LaneSpec.plain (.topk f) with collective := true, groups := (2, 1, 1, 1) } f w c) :
    exec (.topk f) s = .next (Passed s w (ranked f (s.width w) (c.executing f) c) f) :=
  exec_passes (g := fun w c e => ranked f (s.width w) e c) rfl h

/-- What RAND leaves of a crew: the four words of each thread in a group of registers (R241). -/
def drawn (f : LaneFields) (w : Workgroup) (e : Mask) (c : Crew) : Crew :=
  let put := fun (x : Crew) (n : Nat) (part : Four → Word) =>
    x.writeLanes e (fun _ => f.dest.toNat + n) (fun l => part (drawWords c (w.tid c l) 0 f.simm.toNat 0))
  put (put (put (put c 0 (·.w0)) 1 (·.w1)) 2 (·.w2)) 3 (·.w3)

theorem exec_rand (h : LaneReady s { LaneSpec.plain (.rand f) with groups := (4, 1, 1, 1) } f w c) :
    exec (.rand f) s = .next (Passed s w (drawn f w (c.executing f) c) f) :=
  exec_passes (g := fun w c e => drawn f w e c) rfl h

end

/-- Settles O44: each instruction leaves its crew as its `exec_` lemma says, one `writeLanes` for each register of its group; the masks
of MATCH are `flag_matchMask`, the counter of RAND is `drawWords_first`. -/
theorem lanesMatchRankAndDraw : Obligations.LanesMatchRankAndDraw := by
  unfold Obligations.LanesMatchRankAndDraw
  refine ⟨fun s f w c n hn h => ?_, fun s f w c h => ?_, fun s f w c h => ?_⟩
  · refine ⟨_, _, fun l => matchMask (s.width w) (source (.matchL f) f c 1) (source (.matchL f) f c 1 l),
      lanesWritten_writeLanes c _ _ _, fun h1 => ?_, fun h2 => ?_, exec_matchL hn h, fun l j hj => flag_matchMask _ _ _ hj⟩
    · exact if_neg (by omega)
    · rw [matched, if_pos h2]
      exact lanesWritten_writeLanes _ _ _ _
  · exact ⟨_, _, lanesWritten_writeLanes _ _ _ _, lanesWritten_writeLanes _ _ _ _, exec_topk h⟩
  · simp only [← drawWords_first]
    exact ⟨_, _, _, _, lanesWritten_writeLanes _ _ _ _, lanesWritten_writeLanes _ _ _ _, lanesWritten_writeLanes _ _ _ _,
      lanesWritten_writeLanes _ _ _ _, exec_rand h⟩

end Sys2Proof.Machine
end

section
/-! SUPPORT. Sequences (04 R102; 11 R227 to R235): the fields of a Burrow instruction's operands, the three ways in which one that is in
order ends, and what SSOPEN, SSCLOSE, SSSNAP, SSROLL, SSFORK and SSCOMMIT make of their sequence. -/

namespace Sys2Proof.Machine

/-! Operands (R228). -/

theorem handleOf_mod (c : Crew) (a : Reg) : handleOf c a = (c.s a).toNat % 65536 := by
  rw [handleOf, nfld_eq_div_mod]
  omega

theorem highHalf_div (c : Crew) (a : Reg) : highHalf c a = (c.s a).toNat / 65536 := by
  rw [highHalf, nfld_eq_div_mod]
  omega

theorem posOf_mod (c : Crew) (b : Reg) : posOf c b = (c.s b).toNat % 2 ^ 24 := by
  rw [posOf, nfld_eq_div_mod, pow_zero, Nat.div_one]

theorem posOf_eq {c : Crew} {b : Reg} (hb : (c.s b).toNat < 2 ^ 24) : posOf c b = (c.s b).toNat :=
  (posOf_mod c b).trans (Nat.mod_eq_of_lt hb)

theorem posReserved_eq_false {c : Crew} {b : Reg} {lo : Nat} (hb : (c.s b).toNat < 2 ^ lo) : posReserved c b lo = false := by
  simp [posReserved, Nat.div_eq_of_lt hb]

theorem flag_eq_false {x : Word} {n : Nat} (h : x.toNat < 2 ^ n) : flag x n = false :=
  Nat.testBit_lt_two_pow h

/-- The keep flag of SSSNAP stands above a position. -/
theorem flag_keep {x : Word} {pos : Nat} (hp : pos < 2 ^ 24) (h : x.toNat = 2 ^ 24 + pos) : flag x 24 = true := by
  show x.toNat.testBit 24 = true
  rw [h, Nat.testBit_two_pow_add_eq, Nat.testBit_lt_two_pow hp]
  rfl

/-! Sequences of a context (R102, R230, R232). -/

theorem onSeq_some {x : Context} {h : Nat} {q : Seq} (hq : x.seqs.find? h = some q) (f : Seq → BurrowEnd) : onSeq x h f = f q := by
  rw [onSeq, hq]

theorem onSeq_none {x : Context} {h : Nat} (hq : x.seqs.find? h = none) (f : Seq → BurrowEnd) : onSeq x h f = .status ssNotOpen := by
  rw [onSeq, hq]

/-- The head is recorded, and a full ring that has no snapshot of that position gives up the one to evict. -/
theorem Seq.find?_snap (q : Seq) (pos p : Nat) : (q.snap pos).find? p = if p = pos then some q.head
    else if q.ring.find? pos = none ∧ 16 ≤ q.ring.length ∧ q.evictable = some p then none else q.ring.find? p := by
  rw [Seq.snap, SMap.find?_insert]
  cases hr : q.ring.find? pos with
  | some refs => simp
  | none =>
    by_cases hl : 16 ≤ q.ring.length
    · cases he : q.evictable with
      | none => simp [hl]
      | some k => simp [hl, SMap.find?_erase, eq_comm]
    · simp [hl]

/-! How a Burrow instruction ends. -/

/-- Instruction `i`, which writes Burrow, waits for what it must follow and then ends by `e`. -/
def EndsBy (i : Instr) (s : State) (w : Workgroup) (c : Crew) (d : Reg) (e : BurrowEnd) : Prop :=
  exec i s = if c.caughtUp true then s.burrowEnds w.spoil c d e else .next s

/-- Instruction `i` answers status `n` in sd, and no sequence changes. -/
def AnswersStatus (i : Instr) (s : State) (w : Workgroup) (c : Crew) (d : Reg) (n : Word) : Prop :=
  ∃ c', ScalarWritten c c' d n ∧ Becomes i s w.spoil (c'.advance 4)

/-- Instruction `i` answers OK in sd, with a context that meets `ok` and holds every sequence but `h` as before. -/
def ChangesSeq (i : Instr) (s : State) (w : Workgroup) (c : Crew) (d : Reg) (h : Nat) (ok : Context → Prop) : Prop :=
  ∃ c' w' x', ScalarWritten c c' d 0 ∧ ok x'
    ∧ exec i s = .next (State.put { s with ctxs := s.ctxs.insert w.ctx x' } s.cur.key w' (c'.advance 4))
    ∧ (∀ n, n ≠ h → x'.seqs.find? n = (s.ctx w.ctx).seqs.find? n)
    ∧ { w' with handles := w.handles, idem := w.idem } = w

section
variable {i : Instr} {s : State} {w : Workgroup} {c : Crew} {d : Reg}

theorem ChangesSeq.imp {h : Nat} {ok ok' : Context → Prop} (hi : ChangesSeq i s w c d h ok) (himp : ∀ x', ok x' → ok' x') :
    ChangesSeq i s w c d h ok' := by
  obtain ⟨c', w', x', hc, hok, hrest⟩ := hi
  exact ⟨c', w', x', hc, himp x' hok, hrest⟩

/-- It waits for the accesses that an LSYNC or a fence has put before it (R109). -/
theorem EndsBy.waits {e : BurrowEnd} (he : EndsBy i s w c d e)
    (hy : ∃ y ∈ c.flying, y.done = false ∧ (y.id ∈ c.orderS ∨ y.id ∈ c.orderW)) : exec i s = .next s := by
  obtain ⟨y, hy, hd, ho⟩ := hy
  refine he.trans (if_neg fun hall => ?_)
  rcases (c.caughtUp_iff true).1 hall y hy with hdone | ⟨hS, hW⟩
  · simp [hd] at hdone
  · exact ho.elim hS (hW rfl)

theorem EndsBy.answers {n : Nat} (he : EndsBy i s w c d (.status n)) (hc : c.caughtUp true = true) :
    AnswersStatus i s w c d (BitVec.ofNat 32 n) :=
  ⟨_, scalarWritten_setS c d _, he.trans (if_pos hc)⟩

theorem EndsBy.changes {h : Nat} {x' : Context} (he : EndsBy i s w c d (.ok x' (some h) none)) (hc : c.caughtUp true = true)
    (hothers : ∀ n, n ≠ h → x'.seqs.find? n = (s.ctx w.ctx).seqs.find? n) : ChangesSeq i s w c d h (· = x') :=
  ⟨_, _, x', scalarWritten_setS c d 0, rfl, he.trans (if_pos hc), hothers, rfl⟩

/-- An end that puts a sequence in place gives its handle that sequence. -/
theorem EndsBy.puts {h : Nat} {q : Seq} (he : EndsBy i s w c d (.ok ((s.ctx w.ctx).putSeq h q) (some h) none))
    (hc : c.caughtUp true = true) : ChangesSeq i s w c d h (fun x' => x'.seqs.find? h = some q) :=
  (he.changes hc fun n hn => (SMap.find?_insert _ h q n).trans (if_neg hn)).imp fun x' hx' => by
    subst hx'
    exact SMap.find?_insert_self _ h q

theorem EndsBy.notOpen {x : Context} {h : Nat} {f : Seq → BurrowEnd} (he : EndsBy i s w c d (onSeq x h f))
    (hc : c.caughtUp true = true) (hq : x.seqs.find? h = none) : AnswersStatus i s w c d 1 :=
  EndsBy.answers (n := ssNotOpen) (onSeq_none hq f ▸ he) hc

theorem EndsBy.onOpen {x : Context} {h : Nat} {f : Seq → BurrowEnd} {q : Seq} (he : EndsBy i s w c d (onSeq x h f))
    (hq : x.seqs.find? h = some q) : EndsBy i s w c d (f q) := onSeq_some hq f ▸ he

end

/-! The instructions, their handle in the grant and their fields in order: how each ends. -/

section
variable {s : State} {w : Workgroup} {c : Crew} (hi : Issuing s w c) {a b : Reg} (d : Reg) {x : Context} {h new pos : Nat}
  (hx : s.ctx w.ctx = x) (hh : (c.s a).toNat % 65536 = h) (hg : x.grants h = true)
include hi hx hh hg

theorem ssclose_ends (ha : c.full a = true) (hnew : (c.s a).toNat / 65536 = 0) : EndsBy (.ssclose d a) s w c d
    (onSeq x h fun _ => .ok { x with seqs := x.seqs.erase h }.collect (some h) none) := by
  subst hx hh
  show execSsclose d a s = _
  have hf : c.allFull [a] = true := (allFull_eq _ _).2 (by simp [ha])
  rw [execSsclose, burrow_of hi hf (fun _ => by simp [handleOf_mod, hg]) (fun _ => by simp [highHalf_div, hnew])]
  simp only [handleOf_mod, if_true]

variable (hf : c.allFull [a, b] = true)
include hf

theorem ssopen_ends (hp : (c.s b).toNat = pos) (hnew : (c.s a).toNat / 65536 = 0) (hb : pos < 65536) (hz : x.arenaSz ≠ 0) :
    EndsBy (.ssopen d a b) s w c d ((x.seqs.find? h).elim
      (.ok { x with seqs := x.seqs.insert h ⟨pos % 256 + 1, pos / 256 + 1, [], 0, [], none⟩ } (some h) none)
      fun _ => .status ssIsOpen) := by
  subst hx hh hp
  show execSsopen d a b s = _
  have hlow : nfld (c.s b) 0 8 = (c.s b).toNat % 256 := by
    rw [nfld_eq_div_mod]
    omega
  have hhigh : nfld (c.s b) 8 8 = (c.s b).toNat / 256 := by
    rw [nfld_eq_div_mod]
    omega
  rw [execSsopen, burrow_of hi hf (fun _ => by simpa [handleOf_mod, hg] using hz)
    (fun _ => by simp [highHalf_div, hnew, Nat.div_eq_of_lt hb])]
  simp only [handleOf_mod, hlow, hhigh, if_true]
  cases (s.ctx w.ctx).seqs.find? ((c.s a).toNat % 65536) <;> rfl

/-- The position of SSSNAP stands below its keep flag. -/
theorem sssnap_ends (hp : (c.s b).toNat % 2 ^ 24 = pos) (hnew : (c.s a).toNat / 65536 = 0) (hb : (c.s b).toNat < 2 ^ 25) :
    EndsBy (.sssnap d a b) s w c d (onSeq x h fun q => if pos < q.hpos then .status ssPos
      else .ok (x.putSeq h { q with hpos := pos, ring := if flag (c.s b) 24 then q.ring else q.snap pos }) (some h) none) := by
  subst hx hh hp
  show execSssnap d a b s = _
  rw [execSssnap, burrow_of hi hf (fun _ => by simp [handleOf_mod, hg])
    (fun _ => by simp [highHalf_div, hnew, posReserved_eq_false hb])]
  simp only [handleOf_mod, posOf_mod, if_true]

variable (hp : (c.s b).toNat = pos) (hb : pos < 2 ^ 24)
include hp hb

theorem ssroll_ends (hnew : (c.s a).toNat / 65536 = 0) : EndsBy (.ssroll d a b) s w c d (onSeq x h fun q =>
    (q.ring.find? pos).elim (.status ssNoSnap) fun refs =>
      .ok (x.putSeq h { q with head := refs, hpos := pos, ring := q.ring.filter (fun e => decide (e.1 ≤ pos)) }) (some h) none) := by
  subst hx hh hp
  show execSsroll d a b s = _
  rw [execSsroll, burrow_of hi hf (fun _ => by simp [handleOf_mod, hg])
    (fun _ => by simp [highHalf_div, hnew, posReserved_eq_false hb])]
  simp only [handleOf_mod, posOf_eq hb, if_true]
  congr 3
  funext q
  cases q.ring.find? (c.s b).toNat <;> rfl

theorem sscommit_ends (hnew : (c.s a).toNat / 65536 = 0) : EndsBy (.sscommit d a b) s w c d (onSeq x h fun q =>
    (q.ring.find? pos).elim (.status ssNoSnap) fun _ => if q.cpos.any (fun p => decide (pos < p)) then .status ssPos
      else .ok (x.putSeq h { q with cpos := some pos, ring := q.ring.filter (fun e => decide (pos ≤ e.1)) }) (some h) none) := by
  subst hx hh hp
  show execSscommit d a b s = _
  rw [execSscommit, burrow_of hi hf (fun _ => by simp [handleOf_mod, hg])
    (fun _ => by simp [highHalf_div, hnew, posReserved_eq_false hb])]
  simp only [handleOf_mod, posOf_eq hb, if_true]
  congr 3
  funext q
  cases q.ring.find? (c.s b).toNat
  · rfl
  · cases q.cpos <;> rfl

theorem ssfork_ends (hn : (c.s a).toNat / 65536 = new) (hgn : x.grants new = true) :
    EndsBy (.ssfork d a b) s w c d (onSeq x h fun q => if (x.seqs.find? new).isSome then .status ssIsOpen
      else (q.ring.find? pos).elim (.status ssNoSnap) fun refs =>
        .ok (x.putSeq new ⟨q.nlayer, q.leaves, refs, pos, [(pos, refs)], none⟩) (some new) none) := by
  subst hx hh hp hn
  show execSsfork d a b s = _
  rw [execSsfork, burrow_of hi hf (fun _ => by simp [handleOf_mod, highHalf_div, hg, hgn]) (fun _ => posReserved_eq_false hb)]
  simp only [handleOf_mod, highHalf_div, posOf_eq hb, if_true]
  congr 3
  funext q
  cases q.ring.find? (c.s b).toNat <;> rfl

end

/-! Their outcomes, once what they must follow is performed. -/

section
variable {s : State} {w : Workgroup} {c : Crew} (hi : Issuing s w c) {a b : Reg} (d : Reg) {x : Context} {h new pos : Nat} {q : Seq}
  (hx : s.ctx w.ctx = x) (hh : (c.s a).toNat % 65536 = h) (hg : x.grants h = true) (hc : c.caughtUp true = true)
include hi hx hh hg hc

theorem ssclose_closes (ha : c.full a = true) (hnew : (c.s a).toNat / 65536 = 0) (hq : x.seqs.find? h = some q) :
    ChangesSeq (.ssclose d a) s w c d h (fun x' => x'.seqs.find? h = none) := by
  have he := (ssclose_ends hi d hx hh hg ha hnew).onOpen hq
  refine (he.changes hc fun n hn => ?_).imp fun x' hx' => ?_
  · rw [hx]
    exact (SMap.find?_erase _ h n).trans (if_neg hn)
  · subst hx'
    exact SMap.find?_erase_self _ h

variable (hf : c.allFull [a, b] = true)
include hf

theorem ssopen_opens (hp : (c.s b).toNat = pos) (hnew : (c.s a).toNat / 65536 = 0) (hb : pos < 65536) (hz : x.arenaSz ≠ 0)
    (hq : x.seqs.find? h = none) : ChangesSeq (.ssopen d a b) s w c d h
      (fun x' => x'.seqs.find? h = some ⟨pos % 256 + 1, pos / 256 + 1, [], 0, [], none⟩) := by
  have he := ssopen_ends hi d hx hh hg hf hp hnew hb hz
  rw [hq, Option.elim_none] at he
  refine (he.changes hc fun n hn => ?_).imp fun x' hx' => ?_
  · rw [hx]
    exact (SMap.find?_insert _ h _ n).trans (if_neg hn)
  · subst hx'
    exact SMap.find?_insert_self _ h _

theorem ssopen_isOpen (hp : (c.s b).toNat = pos) (hnew : (c.s a).toNat / 65536 = 0) (hb : pos < 65536) (hz : x.arenaSz ≠ 0)
    (hq : (x.seqs.find? h).isSome = true) : AnswersStatus (.ssopen d a b) s w c d 2 := by
  have he := ssopen_ends hi d hx hh hg hf hp hnew hb hz
  obtain ⟨q, hq⟩ := Option.isSome_iff_exists.1 hq
  rw [hq] at he
  exact he.answers hc

/-- SSSNAP of a position below the head's answers POS, and else moves the head's there, recording it unless it is told to keep. -/
theorem sssnap_outcomes (hp : (c.s b).toNat % 2 ^ 24 = pos) (hnew : (c.s a).toNat / 65536 = 0) (hb : (c.s b).toNat < 2 ^ 25)
    (hq : x.seqs.find? h = some q) : (pos < q.hpos → AnswersStatus (.sssnap d a b) s w c d 5)
      ∧ (q.hpos ≤ pos → ChangesSeq (.sssnap d a b) s w c d h (fun x' => x'.seqs.find? h
          = some { q with hpos := pos, ring := if flag (c.s b) 24 then q.ring else q.snap pos })) := by
  have he := (sssnap_ends hi d hx hh hg hf hp hnew hb).onOpen hq
  refine ⟨fun hlt => ?_, fun hle => ?_⟩
  · rw [if_pos hlt] at he
    exact he.answers hc
  · rw [if_neg (Nat.not_lt.2 hle), ← hx] at he
    exact he.puts hc

variable (hp : (c.s b).toNat = pos) (hb : pos < 2 ^ 24)
include hp hb

/-- SSSNAP without the keep flag. -/
theorem sssnap_records (hnew : (c.s a).toNat / 65536 = 0) (hq : x.seqs.find? h = some q) (hle : q.hpos ≤ pos) :
    ChangesSeq (.sssnap d a b) s w c d h (fun x' => x'.seqs.find? h = some { q with hpos := pos, ring := q.snap pos }) := by
  have hmod : (c.s b).toNat % 2 ^ 24 = pos := by omega
  have hs := (sssnap_outcomes hi d hx hh hg hc hf hmod hnew (by omega) hq).2 hle
  rwa [flag_eq_false (hp ▸ hb)] at hs

theorem ssroll_outcomes (hnew : (c.s a).toNat / 65536 = 0) (hq : x.seqs.find? h = some q) :
    (q.ring.find? pos = none → AnswersStatus (.ssroll d a b) s w c d 3)
    ∧ ∀ refs, q.ring.find? pos = some refs → ChangesSeq (.ssroll d a b) s w c d h (fun x' => x'.seqs.find? h
        = some { q with head := refs, hpos := pos, ring := q.ring.filter (fun e => decide (e.1 ≤ pos)) }) := by
  have he := (ssroll_ends hi d hx hh hg hf hp hb hnew).onOpen hq
  refine ⟨fun hr => ?_, fun refs hr => ?_⟩
  · rw [hr] at he
    exact he.answers hc
  · rw [hr, ← hx] at he
    exact he.puts hc

theorem sscommit_outcomes (hnew : (c.s a).toNat / 65536 = 0) (hq : x.seqs.find? h = some q) :
    (q.ring.find? pos = none → AnswersStatus (.sscommit d a b) s w c d 3)
    ∧ ∀ refs, q.ring.find? pos = some refs →
      ((∀ p, q.cpos = some p → p ≤ pos) → ChangesSeq (.sscommit d a b) s w c d h (fun x' => x'.seqs.find? h
        = some { q with cpos := some pos, ring := q.ring.filter (fun e => decide (pos ≤ e.1)) }))
      ∧ ∀ p, q.cpos = some p → pos < p → AnswersStatus (.sscommit d a b) s w c d 5 := by
  have he := (sscommit_ends hi d hx hh hg hf hp hb hnew).onOpen hq
  refine ⟨fun hr => ?_, fun refs hr => ?_⟩
  · rw [hr] at he
    exact he.answers hc
  rw [hr, Option.elim_some] at he
  refine ⟨fun hle => ?_, fun p hcp hlt => ?_⟩
  · rw [if_neg (by simpa [Option.any_eq_true] using hle), ← hx] at he
    exact he.puts hc
  · rw [hcp, Option.any_some, if_pos (decide_eq_true hlt)] at he
    exact he.answers hc

theorem ssfork_outcomes (hn : (c.s a).toNat / 65536 = new) (hgn : x.grants new = true) (hq : x.seqs.find? h = some q) :
    ((x.seqs.find? new).isSome = true → AnswersStatus (.ssfork d a b) s w c d 2)
    ∧ (x.seqs.find? new = none → (q.ring.find? pos = none → AnswersStatus (.ssfork d a b) s w c d 3)
      ∧ ∀ refs, q.ring.find? pos = some refs → ChangesSeq (.ssfork d a b) s w c d new (fun x' => x'.seqs.find? new
          = some ⟨q.nlayer, q.leaves, refs, pos, [(pos, refs)], none⟩)) := by
  have he := (ssfork_ends hi d hx hh hg hf hp hb hn hgn).onOpen hq
  refine ⟨fun ho => ?_, fun ho => ?_⟩
  · rw [if_pos ho] at he
    exact he.answers hc
  rw [ho] at he
  refine ⟨fun hr => ?_, fun refs hr => ?_⟩
  · rw [hr] at he
    exact he.answers hc
  · rw [hr, ← hx] at he
    exact he.puts hc

end

/-! PERM (R227). -/

/-- A Burrow instruction whose sources are there traps PERM before its other checks. -/
theorem burrow_perm {s : State} {w : Workgroup} {c : Crew} (h : Issuing s w c) {d : Reg} {srcs : List Reg}
    {perm reserved : Workgroup → Crew → Context → Bool} {spoils : Bool} {run : Workgroup → Crew → Context → BurrowEnd}
    (hf : c.allFull srcs = true) (hp : ∀ v, perm v c (s.ctx w.ctx) = true) :
    burrow s d srcs perm reserved spoils run = trap s .perm 0 := by
  rw [burrow, acting_of h]
  simp [hf, hp]

theorem traps_perm_of_not_grants {s : State} {w : Workgroup} {c : Crew} (h : Issuing s w c) (d a b : Reg) (t : BitVec 4)
    (ha : c.full a = true) (hb : c.full b = true) (hg : (s.ctx w.ctx).grants ((c.s a).toNat % 65536) = false) :
    ∀ i ∈ [Instr.ssopen d a b, .ssld d a b t, .ssst d a b t, .sssnap d a b, .ssroll d a b, .ssfork d a b, .sscommit d a b,
      .ssclose d a], Traps i s .perm 0 := by
  have hg : (s.ctx w.ctx).grants (handleOf c a) = false := (handleOf_mod c a).symm ▸ hg
  have hf : c.allFull [a, b] = true := (allFull_eq _ _).2 (by simp [ha, hb])
  have hf1 : c.allFull [a] = true := (allFull_eq _ _).2 (by simp [ha])
  simp only [List.forall_mem_cons, List.not_mem_nil, false_implies, implies_true, and_true]
  refine ⟨?_, ?_, ?_, ?_, ?_, ?_, ?_, ?_⟩
  · show execSsopen d a b s = _
    exact burrow_perm h hf fun _ => by simp [hg]
  · show execSsld d a b t s = _
    exact burrow_perm h hf fun _ => by simp [hg]
  · show execSsst d a b t s = _
    exact burrow_perm h hf fun _ => by simp [hg]
  · show execSssnap d a b s = _
    exact burrow_perm h hf fun _ => by simp [hg]
  · show execSsroll d a b s = _
    exact burrow_perm h hf fun _ => by simp [hg]
  · show execSsfork d a b s = _
    exact burrow_perm h hf fun _ => by simp [hg]
  · show execSscommit d a b s = _
    exact burrow_perm h hf fun _ => by simp [hg]
  · show execSsclose d a s = _
    exact burrow_perm h hf1 fun _ => by simp [hg]

/-- Settles O32: each instruction waits and then ends by its tests in order (its `_ends` lemma), so that it answers a status or changes
the sequence as its outcomes say; a handle outside the grant is `burrow_perm`. -/
theorem sequencesOpenSnapRollForkCommitClose : Obligations.SequencesOpenSnapRollForkCommitClose := by
  refine ⟨?_, fun s w c hi d a b t ha hb hg => traps_perm_of_not_grants hi d a b t ha hb hg⟩
  intro s w c hi d a b x h new pos answers does ha hb hg
  have full (e : Reg) (he : c.full e = true) : c.allFull [a, e] = true := (allFull_eq _ _).2 (by simp [ha, he])
  have hf := full b hb
  have close (hnew : new = 0) := ssclose_ends hi d rfl rfl hg ha hnew
  have snap (hnew : new = 0) (hp : pos < 2 ^ 24) := sssnap_ends hi d rfl rfl hg hf rfl hnew (hp.trans (by decide))
  have roll (hnew : new = 0) (hp : pos < 2 ^ 24) := ssroll_ends hi d rfl rfl hg hf rfl hp hnew
  have commit (hnew : new = 0) (hp : pos < 2 ^ 24) := sscommit_ends hi d rfl rfl hg hf rfl hp hnew
  have fork (hgn : x.grants new = true) (hp : pos < 2 ^ 24) := ssfork_ends hi d rfl rfl hg hf rfl hp rfl hgn
  refine ⟨fun hy => ⟨fun hnew hp hz => (ssopen_ends hi d rfl rfl hg hf rfl hnew hp hz).waits hy, fun hnew => (close hnew).waits hy,
    fun hnew hp => ?_, fun hgn hp => (fork hgn hp).waits hy⟩, fun hs => ?_⟩
  · simp only [List.forall_mem_cons, List.not_mem_nil, false_implies, implies_true, and_true]
    exact ⟨(snap hnew hp).waits hy, (roll hnew hp).waits hy, (commit hnew hp).waits hy⟩
  have hc : c.caughtUp true = true :=
    (c.caughtUp_iff true).2 fun y hy => (hs y hy).imp_right fun ⟨hS, hW⟩ => ⟨hS, fun _ => hW⟩
  refine ⟨ssopen_opens hi d rfl rfl hg hc hf rfl, ssopen_isOpen hi d rfl rfl hg hc hf rfl, fun hnew hq => ?_,
    fun q hnew hq => ssclose_closes hi d rfl rfl hg hc ha hnew hq, fun q hnew hp hq => ?_, fun hgn hp => ?_,
    fun q refs hgn hp hq ho hr => ?_⟩
  · exact ⟨(close hnew).notOpen hc hq, fun hp =>
      ⟨(snap hnew hp).notOpen hc hq, (roll hnew hp).notOpen hc hq, (commit hnew hp).notOpen hc hq⟩⟩
  · have hmod : pos % 2 ^ 24 = pos := Nat.mod_eq_of_lt hp
    have hlt : pos < 2 ^ 25 := hp.trans (by decide)
    obtain ⟨noRoll, rolls⟩ := ssroll_outcomes hi d rfl rfl hg hc hf rfl hp hnew hq
    obtain ⟨noCommit, commits⟩ := sscommit_outcomes hi d rfl rfl hg hc hf rfl hp hnew hq
    refine ⟨(sssnap_outcomes hi d rfl rfl hg hc hf hmod hnew hlt hq).1, fun hle => ?_, fun e hfe he => ?_,
      fun hr => ⟨noRoll hr, noCommit hr⟩, fun refs hr => ⟨?_, fun hle => ?_, (commits refs hr).2⟩⟩
    · exact (sssnap_records hi d rfl rfl hg hc hf rfl hp hnew hq hle).imp fun x' hx' =>
        ⟨_, hx', rfl, rfl, (q.find?_snap pos pos).trans (if_pos rfl), fun p hne => (q.find?_snap pos p).trans (if_neg hne)⟩
    · have hkeep := sssnap_outcomes hi d rfl rfl hg hc (full e hfe) (pos := pos) (by omega) hnew (by omega) hq
      rwa [flag_keep hp he] at hkeep
    · exact (rolls refs hr).imp fun x' hx' => ⟨_, hx', rfl, rfl, rfl, rfl, rfl, fun p => by
        simpa using SMap.find?_filter q.ring (fun k => decide (k ≤ pos)) p⟩
    · exact ((commits refs hr).1 hle).imp fun x' hx' => ⟨_, hx', rfl, rfl, rfl, rfl, rfl, fun p => by
        simpa using SMap.find?_filter q.ring (fun k => decide (pos ≤ k)) p⟩
  · refine ⟨(fork hgn hp).notOpen hc, fun q hq => ?_⟩
    obtain ⟨isOpen, free⟩ := ssfork_outcomes hi d rfl rfl hg hc hf rfl hp rfl hgn hq
    exact ⟨isOpen, fun ho => (free ho).1⟩
  · exact ((ssfork_outcomes hi d rfl rfl hg hc hf rfl hp rfl hgn hq).2 ho).2 refs hr

end Sys2Proof.Machine
end

section
/-! SUPPORT. For an issuer that is there, each population instruction and each lane instruction gives a next state that keeps what no crew
can change (08 R171, R173; 10 R210; 18 R292, R294, R296; 19 R309). -/

namespace Sys2Proof.Machine

/-! Population instructions. -/

theorem tame_bind (s : State) (wid : Nat) (slots : List Nat) : Tame s (s.bind wid slots) := .same rfl rfl

theorem tame_putPop (s : State) (wid : Nat) (w : Workgroup) : Tame s (s.putPop wid w) := (tame_mark _ _ _).trans (tame_putWg _ _ _)

theorem tame_raiseAll (s : State) (wid : Nat) (w : Workgroup) (parts : List (Nat × Crew)) (code : FaultCode) (detail : DWord)
    (inflight : Bool) : Tame s (s.raiseAll wid w parts code detail inflight) := by
  unfold State.raiseAll
  split
  · exact .refl s
  · exact ((tame_report _ _).trans (tame_afterFault _ _ _ _)).trans (tame_bind _ _ _)

/-- What is good after a tame change is good before it: an issuer that is there needs no name. -/
theorem good_collectiveTrap {s t : State} (h : Tame s t) (w : Workgroup) (parts : List (Nat × Crew)) (code : FaultCode) (detail : DWord) :
    Good s (collectiveTrap t w parts code detail) := .next (h.trans (tame_raiseAll _ _ _ _ _ _ _))

theorem good_popIssue (s : State) (a : Reg) {run : State → Workgroup → List (Nat × Crew) → Crew → BitVec 256 → Result}
    (h : ∀ t w parts low spec, Tame s t → Good s (run t w parts low spec)) : Good s (popIssue s a run) := by
  refine .acting fun w c => .ite (.stay _) (.ite (good_collectiveTrap (.refl s) _ _ _ _) (.ite (good_collectiveTrap (.refl s) _ _ _ _)
    (.ite (good_collectiveTrap (.refl s) _ _ _ _) ?_)))
  split
  · exact h _ _ _ _ _ (tame_touchRange _ _ _ _ _)
  · exact .next (tame_holdAt _ _ _ _ _ _)
  · exact .stay _
  · exact .next (tame_standAt _ _ _ _ _ _)

theorem good_putPop {s t : State} (h : Tame s t) (wid : Nat) (w : Workgroup) : Good s (.next (t.putPop wid w)) :=
  .next (h.trans (tame_putPop _ _ _))

theorem good_group (a : Reg) (pack : Bool) (s : State) : Good s (execGroup a pack s) :=
  good_popIssue _ _ fun _ _ _ _ _ ht => .ite (good_collectiveTrap ht _ _ _ _) (.ite (good_putPop ht _ _) (good_putPop ht _ _))

theorem good_joinRun {s t : State} (ht : Tame s t) (w : Workgroup) (parts : List (Nat × Crew)) (low : Crew) (spec : BitVec 256)
    (rel : BufRec) (outer again : Bool) : Good s (joinRun t w parts low spec rel outer again) := by
  refine .ite (good_collectiveTrap ht _ _ _ _) ?_
  split
  · exact good_putPop ht _ _
  · exact .ite (good_putPop ht _ _) (.ite (good_collectiveTrap ht _ _ _ _) (good_putPop ht _ _))

theorem good_joinIssue (k : BitVec 5) (outer : Bool) (a : Reg) (again : Bool) (s : State) : Good s (joinIssue k outer a again s) :=
  good_popIssue _ _ fun _ _ _ _ _ ht => .ite (good_collectiveTrap ht _ _ _ _) (.ite (good_collectiveTrap ht _ _ _ _)
    (.ite (good_collectiveTrap ht _ _ _ _) (.ite (.next (ht.trans (tame_putWg _ _ _))) (good_joinRun ht _ _ _ _ _ _ _))))

/-- What a scalar instruction does keeps what no crew can change. -/
theorem good_scalar {i : Instr} (hs : i.isScalar = true) (s : State) : Good s (exec i s) := by
  cases i <;> cases hs
  all_goals dsimp only [exec]
  case li | add64 => exact good_simple _ _ _ _
  case bcond | jmp | jal | loop => exact good_control _ _ _
  case drain | waitc => exact good_waitFor _ _ _
  case ssopen | ssld | ssst | sssnap | ssroll | ssfork | sscommit | ssclose => exact good_burrow _ _ _ _ _ _ _
  case group => exact good_group _ _ _
  case join | joinc => exact good_joinIssue _ _ _ _ _
  case jr => exact good_jr _ _ _
  case lrun => exact good_lrun _ _ _
  case gets => exact good_gets _ _ _
  case fence => exact good_fence _ _ _
  case sld => exact good_sld _ _ _ _ _ _ _
  case sst => exact good_sst _ _ _ _ _ _ _
  case ldk => exact good_ldk _ _ _ _
  case satom => exact good_satom _ _ _ _ _ _ _
  case binit => exact good_binit _ _ _
  case bexp => exact good_bexp _ _ _ _
  case barr => exact good_barr _ _
  case bwait => exact good_bwait _ _ _
  case btry => exact good_btry _ _ _ _
  case tload => exact good_tload _ _ _ _ _ _ _ _
  case tstore => exact good_tstore _ _ _ _ _ _ _
  case cpseal => exact good_cpseal _ _ _
  case cpwait => exact good_cpwait _ _ _
  case cbload => exact good_cbload _ _ _ _
  case tlook => exact good_tlook _ _ _
  case tfill => exact good_tfill _ _ _ _
  case tdrop => exact good_tdrop _ _
  case aalloc => exact good_aalloc _ _
  case agrow => exact good_agrow _ _ _
  case afree => exact good_afree _ _
  case kvld => exact good_kvld _ _ _ _ _ _ _
  case kvapp => exact good_kvapp _ _ _ _ _ _ _
  case kvtrunc => exact good_kvtrunc _ _ _ _
  case kvstep => exact good_kvstep _ _ _ _
  case launch => exact good_launch _ _ _
  case trap => exact .trap _ _ _
  case nop => exact good_nop _
  case lsync => exact good_lsync _
  case exit => exact good_exit _
  case cwait => exact good_cwait _
  case bkpt => exact good_bkpt _
  all_goals exact good_alu _ _ _ _

/-! The frame of a lane instruction, and what is shared inside it. -/

theorem good_passOn {s t : State} (h : Tame s t) (w : Workgroup) (c : Crew) (f : LaneFields) : Good s (passOn t w c f) :=
  .ite (.next ((h.trans (tame_put _ _ _ _)).trans (tame_raise _ _ _ _ _ _ _ _))) (.next (h.trans (tame_put _ _ _ _)))

/-- The effect of an instruction on its own crew and workgroup. -/
theorem Good.passes (s : State) (w : Workgroup) (c : Crew) (f : LaneFields) : Good s (passOn s w c f) := good_passOn (.refl s) w c f

theorem good_laneIssue (s : State) (p : LaneSpec) (f : LaneFields) {run : Workgroup → Crew → Mask → Result}
    (h : ∀ w c e, Good s (run w c e)) : Good s (laneIssue s p f run) :=
  .acting fun _ _ => .ite (.trap _ _ _) (.ite (.trap _ _ _) (.ite (.trap _ _ _) (.ite (.passes _ _ _ _)
    (.ite (.trap _ _ _) (.ite (.trap _ _ _) (.ite (.stay _) (h _ _ _)))))))

theorem good_laneMapL (s : State) (i : Instr) (f : LaneFields)
    (g : Workgroup → Crew → Nat → Word → Word → Word → Word) : Good s (laneMapL s i f g) :=
  good_laneIssue _ _ _ fun _ _ _ => .passes _ _ _ _

theorem good_laneMap (s : State) (i : Instr) (f : LaneFields) (g : Word → Word → Word → Word) : Good s (laneMap s i f g) :=
  good_laneMapL _ _ _ _

theorem good_laneInt (s : State) (i : Instr) (f : LaneFields) (g : Int → Int → Int → Int) : Good s (laneInt s i f g) :=
  good_laneMap _ _ _ _

theorem good_route (s : State) (i : Instr) (f : LaneFields) : Good s (Machine.route s i f) := good_laneMapL _ _ _ _

theorem good_laneTest (s : State) (i : Instr) (f : LaneFields) (g : Word → Word → Bool) : Good s (laneTest s i f g) :=
  good_laneIssue _ _ _ fun _ _ _ => .passes _ _ _ _

theorem good_quantise (s : State) (i : Instr) (f : LaneFields)
    (val : Workgroup → Crew → Slot → (Nat → Word) → Nat → Word) : Good s (quantise s i f val) :=
  good_laneIssue _ _ _ fun _ _ _ => .trapsThen _ (.passes _ _ _ _)

theorem good_setIndex (s : State) (i : Instr) (f : LaneFields) (imm : Bool) (bad : Workgroup → Crew → Nat → Word → Bool)
    (word : Workgroup → Crew → Nat → Word → Word) : Good s (setIndex s i f imm bad word) :=
  good_laneIssue _ _ _ fun _ _ _ => .trapsThen _ (.passes _ _ _ _)

theorem good_laneMem (s : State) (i : Instr) (f : LaneFields) (cls : MemClass) (w w' : Workgroup) (c : Crew) (e : Mask) (n : Nat)
    (kind : AccessKind) (dests : Nat) (part : LaneAddr → Part) : Good s (laneMem s i f cls w w' c e n kind dests part) :=
  .ite (.stay _) (.trapsThen _ (.passes _ _ _ _))

theorem good_matrixIssue (s : State) (i : Instr) (f : LaneFields) (ts : List Nat) (groups : Nat × Nat × Nat × Nat)
    {run : Grid → Workgroup → Crew → Result} (h : ∀ g w c, Good s (run g w c)) : Good s (matrixIssue s i f ts groups run) :=
  .acting fun _ _ => good_laneIssue _ _ _ fun _ _ _ => .ite (.stay _) (h _ _ _)

theorem good_laneControl (s : State) (f : LaneFields) (g : Crew → Progress → Option Crew) : Good s (laneControl s f g) := by
  refine .acting fun w c => ?_
  split
  · exact .passes _ _ _ _
  · exact .trap _ _ _

/-! Lane instructions whose own part has cases. -/

theorem good_getl (f : LaneFields) (s : State) : Good s (execGetl f s) := by
  unfold execGetl
  split
  · exact good_laneIssue _ _ _ fun _ _ _ => good_passOn (tame_setClock _ _ _) _ _ _
  · exact good_laneMapL _ _ _ _

theorem good_matchL (f : LaneFields) (s : State) : Good s (execMatchL f s) := by
  intro w c hi
  have hs : s.issuer = some (w, c) := hi
  simp only [execMatchL, hs]
  exact good_laneIssue _ _ _ (fun _ _ _ => .passes _ _ _ _) w c hi

theorem good_atom (f : LaneFields) (s : State) : Good s (execAtom f s) := by
  unfold execAtom
  dsimp only
  split
  · exact .trap _ _ _
  · exact good_laneIssue _ _ _ fun _ _ _ => good_laneMem _ _ _ _ _ _ _ _ _ _ _ _

theorem good_cpy (f : LaneFields) (s : State) : Good s (execCpy f s) := by
  unfold execCpy
  exact .acting fun _ _ => good_laneIssue _ _ _ fun _ _ _ => .ite (.stay _) (.trapsThen _ (.passes _ _ _ _))

theorem good_fetch (f : LaneFields) (s : State) : Good s (execFetch f s) := by
  unfold execFetch
  exact good_laneIssue _ _ _ fun _ _ _ => .ite (.stay _) (.trapsThen _ (good_kvIssue _ _ fun _ => good_passOn (tame_touchAt _ _ _ _) _ _ _))

theorem good_whileL (f : LaneFields) (s : State) : Good s (execWhileL f s) := by
  refine .acting fun w c => ?_
  split
  · exact .ite (.passes _ _ _ _) (.put _ _ _ _)
  · exact .trap _ _ _

/-- What a lane instruction does keeps what no crew can change. -/
theorem good_lane {i : Instr} {f : LaneFields} (hf : laneFieldsOf i = some f) (s : State) : Good s (exec i s) := by
  cases i <;> cases hf
  all_goals dsimp only [exec]
  case iset | isetI | fset | fsetI => exact good_laneTest _ _ _ _
  case xset | xsetI | xadd | xaddI => exact good_setIndex _ _ _ _ _ _
  case qnt | dqt => exact good_quantise _ _ _ _
  case cvt | sample =>
    dsimp only [execCvt, execSample]
    exact good_laneIssue _ _ _ fun _ _ _ => .trapsThen _ (.passes _ _ _ _)
  case redux =>
    dsimp only [execRedux]
    exact good_laneIssue _ _ _ fun _ _ _ => .ite (.passes _ _ _ _) (.passes _ _ _ _)
  case plop | vote | scan | isect | rand | topk | accept =>
    dsimp only [execPlop, execVote, execScan, execIsect, execRand, execTopk, execAccept]
    exact good_laneIssue _ _ _ fun _ _ _ => .passes _ _ _ _
  case mma | accz | accrd | accwr | acccvt =>
    dsimp only [execMma, execAccz, execAccrd, execAccwr, execAcccvt]
    exact good_matrixIssue _ _ _ _ _ fun _ _ _ => .trapsThen _ (.passes _ _ _ _)
  case ld | st =>
    dsimp only [execLd, execSt]
    exact good_laneIssue _ _ _ fun _ _ _ => good_laneMem _ _ _ _ _ _ _ _ _ _ _ _
  case cpy => exact good_cpy _ _
  case ifL | elseL | fi | doL | brk => exact good_laneControl _ _ _
  case lnop => exact .acting fun _ _ => .passes _ _ _ _
  case whileL => exact good_whileL _ _
  case iadd | iaddI | isub | isubI | imul | imulI | imulh | imulhI | imad | imin | iminI | imax | imaxI | iabs | ineg =>
    exact good_laneInt _ _ _ _
  case lsel | xget => exact good_laneMapL _ _ _ _
  case route | routeI => exact good_route _ _ _
  case getl => exact good_getl _ _
  case matchL => exact good_matchL _ _
  case atom => exact good_atom _ _
  case fetch => exact good_fetch _ _
  all_goals exact good_laneMap _ _ _ _

/-- Whatever a crew that is there issues keeps what no crew can change. -/
theorem good_exec {i : Instr} (hi : Issued i) (s : State) : Good s (exec i s) := by
  by_cases h : ∃ w0 w1 w2, i = .illop w0 w1 w2
  · obtain ⟨w0, w1, w2, rfl⟩ := h
    exact .trap s .illop 0
  · cases hs : i.isScalar with
    | true => exact good_scalar hs s
    | false =>
      cases hf : laneFieldsOf i with
      | some f => exact good_lane hf s
      | none => exact absurd ((isTurnEvent_of hs hf fun w0 w1 w2 e => h ⟨w0, w1, w2, e⟩).symm.trans hi) (by decide)

/-! An issuer. -/

theorem execGetl_acting (f : LaneFields) (s : State) : ∃ g, execGetl f s = acting s g := by
  unfold execGetl
  split <;> exact ⟨_, rfl⟩

theorem execAtom_acting (f : LaneFields) (s : State) : ∃ g, execAtom f s = acting s g := by
  unfold execAtom
  dsimp only
  split <;> exact ⟨_, rfl⟩

/-- Whatever a crew issues acts for its issuer. -/
theorem exec_acting {i : Instr} (hi : Issued i) (s : State) : ∃ f, exec i s = acting s f := by
  cases i <;> cases hi
  case getl f => exact execGetl_acting f s
  case atom f => exact execAtom_acting f s
  all_goals exact ⟨_, rfl⟩

/-- An instruction that a crew issues answers a next state for an issuer alone, and that state keeps what no crew can change. -/
theorem tame_of_issued {i : Instr} (hi : Issued i) {s t : State} (ht : exec i s = .next t) : Tame s t := by
  obtain ⟨f, hf⟩ := exec_acting hi s
  rcases acting_cases s f with h | ⟨w, c, h, -⟩
  · rw [hf, h] at ht; cases ht
  · obtain ⟨u, hu, tame⟩ := good_exec hi s w c h
    cases hu.symm.trans ht
    exact tame

/-- Settles O6: what a crew issues keeps the tables of the system (`tame_of_issued`), by one lemma for each of its instructions. -/
theorem crewsCannotTouchSystemTables : Obligations.CrewsCannotTouchSystemTables := by
  unfold Obligations.CrewsCannotTouchSystemTables
  exact fun _ _ _ hi ht => (tame_of_issued hi ht).system

end Sys2Proof.Machine
end

section
/-! SUPPORT. Events that perform accesses, walk and end runs change nothing that a crew could not (05 R103, R106; 11 R239; 21 R325,
R335). -/

namespace Sys2Proof.Machine

theorem Tame.ite {s a b : State} {p : Prop} [Decidable p] (ha : Tame s a) (hb : Tame s b) : Tame s (if p then a else b) := by
  split
  · exact ha
  · exact hb

/-! Parts. -/

theorem tame_writePart (s : State) (w : Workgroup) (a : Access) (p : Part) (pa : Nat) (bs : List Byte) :
    Tame s (s.writePart w a p pa bs).1 := by
  unfold State.writePart
  split
  · exact .refl s
  · exact tame_writeMasked _ _ _ _ _ _ _

theorem tame_touchPart (s : State) (w : Workgroup) (a : Access) (p : Part) (pa : Nat) : Tame s (s.touchPart w a p pa) := by
  unfold State.touchPart
  split
  · exact tame_touch _ _ _ _
  · exact .refl s

theorem tame_partDone (s : State) (k : CrewKey) (w : Workgroup) (c : Crew) (a : Access) (p : Part) : Tame s (s.partDone k w c a p) :=
  tame_put _ _ _ _

theorem tame_landPart (s : State) (k : CrewKey) (w : Workgroup) (c : Crew) (a : Access) (p : Part) (pa : Nat) :
    Tame s (s.landPart k w c a p pa) := by
  have write (bs : List Byte) (v : Workgroup) (d : Crew) :
      Tame s ((s.writePart v a p pa bs).1.partDone k (s.writePart v a p pa bs).2 d a p) :=
    (tame_writePart _ _ _ _ _ _).trans (tame_partDone _ _ _ _ _ _)
  have touched : Tame s (if a.kind.need = .rd then s.touchPart w a p pa else s) := by
    split
    · exact tame_touchPart _ _ _ _ _
    · exact .refl s
  unfold State.landPart
  dsimp only
  generalize a.kind = kind at touched ⊢
  cases kind
  case store | atom | copyOut | satom | tstore | kvapp | kvtrunc | kvstep => exact write _ _ _
  case fetch | kvld => exact touched
  case copyBook =>
    dsimp only
    exact .ite (touched.trans (tame_put _ _ _ _)) (touched.trans (tame_partDone _ _ _ _ _ _))
  all_goals exact touched.trans (tame_put _ _ _ _)

theorem tame_holdPart (s : State) (k : CrewKey) (a : Access) (p : Part) (code : FaultCode) (va : Nat) :
    Tame s (s.holdPart k a p code va) := by
  unfold State.holdPart
  split
  · exact .refl s
  · exact .ite (tame_put _ _ _ _) ((tame_put _ _ _ _).trans (tame_report _ _))

theorem tame_landOne (s : State) (k : CrewKey) (id n : Nat) : Tame s (s.landOne k id n) := by
  unfold State.landOne
  split
  · exact .refl s
  · split
    · exact .refl s
    · split
      · exact .refl s
      · refine .ite (.refl s) ?_
        split
        · exact .refl s
        · exact tame_holdPart _ _ _ _ _ _
        · exact .ite ((tame_landPart _ _ _ _ _ _ _).trans (tame_raiseWaits _ _)) (tame_landPart _ _ _ _ _ _ _)

theorem tame_landPending (s : State) (k : CrewKey) (id : Nat) : Tame s (s.landPending k id) := by
  unfold State.landPending
  split
  · split
    · exact .refl s
    · exact tame_put _ _ _ _
  · exact .refl s

theorem tame_landRow (s : State) (k : CrewKey) (id n : Nat) : Tame s (s.landRow k id n) := by
  unfold State.landRow
  split
  · exact .refl s
  · split
    · exact .refl s
    · refine .ite (.refl s) ?_
      split
      · split
        · exact tame_holdPart _ _ _ _ _ _
        · exact .refl s
      · refine .foldl (fun s p => ?_) _ s
        split
        · split
          · exact tame_landPart _ _ _ _ _ _ _
          · exact .refl s
        · exact .refl s

/-! FETCH. -/

theorem tame_kvHold {α : Type} (s : State) (k : CrewKey) (w : Workgroup) (c : Crew) (a : Access) (p : Part) (r : KvRead α)
    {got : α → State} (h : ∀ x, Tame s (got x)) : Tame s (s.kvHold k w c a p r got) := by
  unfold State.kvHold
  split
  · exact h _
  · split
    · exact tame_raise _ _ _ _ _ _ _ _
    · exact .refl s
  · exact tame_holdPart _ _ _ _ _ _
  · exact tame_put _ _ _ _
  · exact .refl s

theorem tame_fetchOne (s : State) (k : CrewKey) (id n : Nat) : Tame s (s.fetchOne k id n) := by
  unfold State.fetchOne
  split
  · exact .refl s
  · split
    · exact .refl s
    · split
      · split
        · exact .refl s
        · refine tame_kvHold _ _ _ _ _ _ _ fun o => ?_
          split
          · exact (tame_touchAt _ _ _ _).trans (tame_put _ _ _ _)
          · split
            · exact .refl s
            · exact (tame_touchAt _ _ _ _).trans (tame_partDone _ _ _ _ _ _)
      · exact .refl s

/-! Walks. -/

theorem tame_translated (s : State) (k : CrewKey) (id : Nat) (p : Part) (pa : Nat) : Tame s (s.translated k id p pa) := by
  unfold State.translated
  split
  · exact .refl s
  · exact tame_put _ _ _ _

theorem tame_walkPart (s : State) (k : CrewKey) (id : Nat) (p : Part) : Tame s (s.walkPart k id p) := by
  unfold State.walkPart
  split
  · exact .refl s
  · next w c _ =>
    split
    · exact .refl s
    · next a _ =>
      split
      · have h := tame_walkShared s (some (k, id)) w.die w.ctx a.kind.need p.addr
        split <;> (rename_i e; rw [e] at h)
        · exact h.trans (tame_holdPart _ _ _ _ _ _)
        · exact h.trans (tame_translated _ _ _ _ _)
        · exact h
      · exact .refl s

end Sys2Proof.Machine
end

section
/-! SUPPORT. Every event keeps memory in its canonical form and the population of CXL memory, acceptance numbers below the next one, and
everything sent out (18 R290; 19 R306). -/

namespace Sys2Proof.Machine

/-- If the result is a next state, that state keeps them. -/
def Keeps (s : State) (r : Result) : Prop := ∀ t, r = .next t → Kept s t

theorem Keeps.next {s t : State} (h : Kept s t) : Keeps s (.next t) := by
  rintro _ ⟨⟩
  exact h

theorem Keeps.tame {s t : State} (h : Tame s t) : Keeps s (.next t) := .next h.kept
theorem Keeps.stay (s : State) : Keeps s (.next s) := .next (.refl s)

/-- What the ledger does not list changes. -/
theorem Keeps.same {s t : State} (h : t.ledger = s.ledger) : Keeps s (.next t) := .next (.same h)

theorem Keeps.ite {s : State} {p : Prop} [Decidable p] {a b : Result} (ha : Keeps s a) (hb : Keeps s b) :
    Keeps s (if p then a else b) := by
  split
  · exact ha
  · exact hb

theorem Keeps.send (s : State) (m : Message) : Keeps s (.next (s.send m)) := .tame (tame_send s m)

/-! Parts, runs and walks. -/

theorem keeps_landUnits {s t : State} (h : Tame s t) (k : CrewKey) (id : Nat) (units : List Nat) (kinds : AccessKind → Bool) :
    Keeps s (landUnits t k id units kinds) := by
  unfold landUnits
  split
  · split
    · exact .ite (.tame (h.trans (.foldl (fun s n => tame_landOne s k id n) _ _))) (.tame h)
    · exact .tame h
  · exact .tame h

theorem keeps_storePerformed (k : CrewKey) (id : Nat) (units : List Nat) (s : State) : Keeps s (execStorePerformed k id units s) := by
  unfold execStorePerformed
  split
  · split
    · split
      · exact .tame (.foldl (fun s n => tame_landRow s k id n) _ _)
      · exact keeps_landUnits (.refl s) _ _ _ _
    · exact .stay s
  · exact .stay s

theorem keeps_kvldLands (k : CrewKey) (id : Nat) (s : State) : Keeps s (execKvldLands k id s) := by
  unfold execKvldLands
  split
  · exact .stay s
  · split
    · exact .stay s
    · split
      · exact .tame (tame_partDone _ _ _ _ _ _)
      · exact .stay s

/-- Reading the pieces of a codebook brings their lines into the die cache. -/
theorem tame_readPieces (w : Workgroup) (a : Access) (s : State) (ps : List Part) (r : State × Cells 8) (h : Tame s r.1) :
    Tame s (ps.foldl (fun (r : State × Cells 8) p => match s.spot w a p with
      | .at pa => (r.1.touchPart w a p pa, SMap.putList r.2 (p.size * p.unit) (s.readBytes w.ctx pa p.size))
      | _ => r) r).1 := by
  induction ps generalizing r with
  | nil => exact h
  | cons p ps ih =>
    refine ih _ ?_
    dsimp only
    split
    · exact h.trans (tame_touchPart _ _ _ _ _)
    · exact h

theorem keeps_cbloadCompletes (k : CrewKey) (id : Nat) (s : State) : Keeps s (execCbloadCompletes k id s) := by
  unfold execCbloadCompletes
  split
  · exact .stay s
  · split
    · exact .stay s
    · split
      · refine .ite (.stay s) ?_
        split
        · refine .tame ?_
          split
          · exact tame_holdPart _ _ _ _ _ _
          · exact .refl s
        · exact .tame (((tame_readPieces _ _ _ _ _ (.refl s)).trans (tame_mark _ _ _)).trans (tame_put _ _ _ _))
      · exact .stay s

theorem keeps_runComplete (k : CrewKey) (s : State) : Keeps s (execRunComplete k s) := by
  unfold execRunComplete
  split
  · exact .stay s
  · split
    · exact .ite (.tame (tame_put _ _ _ _)) (.stay s)
    · exact .stay s

theorem keeps_mmaCommit (k : CrewKey) (s : State) : Keeps s (execMmaCommit k s) := by
  unfold execMmaCommit
  split
  · exact .stay s
  · split
    · exact .stay s
    · refine .ite (.stay s) ?_
      split
      · exact .tame (tame_put _ _ _ _)
      · exact .tame (.ite ((tame_put _ _ _ _).trans (tame_raise _ _ _ _ _ _ _ _)) (tame_put _ _ _ _))

theorem keeps_agrowDenial (k : CrewKey) (s : State) : Keeps s (execAgrowDenial k s) := by
  unfold execAgrowDenial
  split
  · exact .stay s
  · exact .ite (.tame (tame_endGrow _ _ _)) (.stay s)

theorem keeps_walkComplete (k : CrewKey) (id : Nat) (s : State) : Keeps s (execWalkComplete k id s) := by
  unfold execWalkComplete
  split
  · exact .stay s
  · split
    · exact .stay s
    · exact .tame (.foldl (fun s p => tame_walkPart s k id p) _ s)

theorem keeps_replay (k : CrewKey) (id : Nat) (s : State) : Keeps s (execReplay k id s) := by
  unfold execReplay
  split
  · exact .stay s
  · exact .tame (tame_put _ _ _ _)

theorem keeps_decline (k : CrewKey) (id : Nat) (s : State) : Keeps s (execDecline k id s) := by
  unfold execDecline
  split
  · exact .stay s
  · split
    · exact .ite (.tame (tame_raiseAll _ _ _ _ _ _ _)) (.tame (tame_raise _ _ _ _ _ _ _ _))
    · exact .stay s
    · split
      · exact .stay s
      · refine .tame (.trans ?_ (tame_raise _ _ _ _ _ _ _ _))
        split
        · exact tame_put _ _ _ _
        · exact .refl s

/-! Grids. -/

theorem NumbersBelow.mapVals {s : State} {f : Grid → Grid} (hf : ∀ g, (f g).fused = g.fused) (h : NumbersBelow s) :
    NumbersBelow { s with grids := s.grids.mapVals f } := by
  refine ⟨SMap.sorted_mapVals h.1 f, fun e he => ?_⟩
  obtain ⟨e', he', rfl⟩ := List.mem_map.1 he
  exact ⟨(h.2 e' he').1, fun f' hf' => (h.2 e' he').2 f' (hf e'.2 ▸ hf')⟩

theorem NumbersBelow.modify {s : State} {f : Grid → Grid} (hf : ∀ g, (f g).fused = g.fused) (n : Nat) (h : NumbersBelow s) :
    NumbersBelow { s with grids := s.grids.modify n f } := by
  unfold SMap.modify
  split
  · next g hg => exact NumbersBelow.replace hg (hf g) h
  · exact h

/-- The next grid takes the next number, and the one after it is above its consumer's too (R306, R311). -/
theorem NumbersBelow.accept {s : State} {n : Nat} {g : Grid} (hn : s.seq < n) (hf : ∀ f, g.fused = some f → f.seq < n)
    (h : NumbersBelow s) : NumbersBelow { s with seq := n, grids := s.grids.insert s.seq g } := by
  refine ⟨SMap.sorted_insert h.1 _ _, fun e he => ?_⟩
  rcases SMap.mem_insert he with rfl | he
  · exact ⟨hn, hf⟩
  · exact ⟨(h.2 e he).1.trans hn, fun f hf' => ((h.2 e he).2 f hf').trans hn⟩

theorem NumbersBelow.raise {s : State} {n : Nat} (hn : s.seq ≤ n) (h : NumbersBelow s) : NumbersBelow { s with seq := n } :=
  ⟨h.1, fun e he => ⟨(h.2 e he).1.trans_le hn, fun f hf => ((h.2 e he).2 f hf).trans_le hn⟩⟩

theorem tame_raiseSeq (s : State) : Tame s { s with seq := s.seq + 1 } :=
  .onlyGrids (NumbersBelow.raise (Nat.le_succ _)) rfl rfl

theorem tame_refuseLaunch (s : State) (c : Nat) (copy : LaunchCopy) (cause : Nat) (queue : Option Nat) (seq : Nat) (info : BitVec 16)
    (parent : Option Parent) : Tame s (s.refuseLaunch c copy cause queue seq info parent) :=
  (tame_complete _ _ _ _).trans (tame_childDone _ _)

theorem tame_acceptWith {s : State} {l : Launching} {n : Option Partner} {x : Examined} {a : Accepted}
    (h : s.acceptWith l n x = some a) : Tame s a.state := by
  unfold State.acceptWith at h
  split at h
  · cases h
  · cases h
    exact .onlyGrids (NumbersBelow.accept (by omega) fun f hf => by cases hf; exact Nat.lt_succ_self _) rfl rfl
  · cases h
  · dsimp only at h
    split at h <;> cases h
    · exact (tame_raiseSeq s).trans (tame_refuseLaunch _ _ _ _ _ _ _ _)
    · exact .onlyGrids (NumbersBelow.accept (Nat.lt_succ_self _) fun f hf => by cases hf) rfl rfl

theorem tame_reportRecord (s : State) (c lrec : Nat) : Tame s (s.reportRecord c lrec) := (tame_raiseSeq s).trans (tame_report _ _)

/-! The launch path. -/

theorem tame_reportHead (s : State) (queue : Nat) (code : FaultCode) (va : Nat) : Tame s (s.reportHead queue code va) := by
  unfold State.reportHead
  exact .ite (.refl s) ((tame_report _ _).after rfl rfl)

theorem tame_reportDev (s : State) (c : Nat) (code : FaultCode) (va : Nat) : Tame s (s.reportDev c code va) := by
  unfold State.reportDev
  exact .ite (.refl s) ((tame_report _ _).after rfl rfl)

theorem tame_acceptUser (s : State) (queue : Nat) (p : Packet) : Tame s (s.acceptUser queue p) := by
  unfold State.acceptUser
  dsimp only
  split
  · exact .refl s
  · exact (tame_reportRecord _ _ _).trans (tame_advance _ _ _)
  · split
    · exact .refl s
    · next a ha =>
      have pass (t : State) (h : Tame s t) : Tame s (if a.held then t else t.advance queue a.next) :=
        .ite h (h.trans (tame_advance _ _ _))
      refine pass _ ?_
      split
      · exact (tame_acceptWith ha).trans (.same rfl rfl)
      · exact tame_acceptWith ha

theorem keeps_notifyWrite (func queue : Nat) (value : DWord) (s : State) : Keeps s (execNotifyWrite func queue value s) :=
  .ite (.stay s) (.ite (.stay s) (.ite (.tame ((tame_report _ _).after rfl rfl)) (.ite (.same rfl) (.stay s))))

theorem keeps_registerWrite (func : Nat) (r : SysReg) (value : BitVec 256) (s : State) : Keeps s (execRegisterWrite func r value s) := by
  cases r <;> refine .same ?_
  case window | fabric | aperture | priority | thresh => split <;> rfl
  all_goals rfl

theorem keeps_launchAcceptance (queue : Nat) (s : State) : Keeps s (execLaunchAcceptance queue s) := by
  unfold execLaunchAcceptance
  split
  · exact .same rfl
  · exact .tame (tame_reportHead _ _ _ _)
  · split
    · exact .ite (.tame (tame_acceptUser _ _ _)) (.stay s)
    · exact .stay s

theorem keeps_barrierPacketStart (queue : Nat) (s : State) : Keeps s (execBarrierPacketStart queue s) := by
  unfold execBarrierPacketStart
  split
  · exact .ite (.tame ((tame_decrement _ _ _ _ _).trans (tame_advance _ _ _))) (.stay s)
  · exact .stay s

theorem keeps_dependenceRecheck (queue : Nat) (s : State) : Keeps s (execDependenceRecheck queue s) := by
  unfold execDependenceRecheck
  split
  · exact .tame (tame_reportHead _ _ _ _)
  · exact .stay s

theorem tame_takeDev (s : State) (c : Nat) : Tame s (s.takeDev c) := by
  unfold State.takeDev
  dsimp only
  split
  · exact .same rfl rfl
  · split
    · exact ((tame_reportRecord _ _ _).trans (tame_childDone _ _)).after rfl rfl
    · split
      · exact .refl s
      · next a ha =>
        refine Tame.trans (t := a.state) (tame_acceptWith ha) ?_
        cases a.note <;> exact .same rfl rfl

theorem keeps_deviceQueueTake (ctx : Nat) (s : State) : Keeps s (execDeviceQueueTake ctx s) := by
  unfold execDeviceQueueTake
  split
  · exact .tame (tame_reportDev _ _ _ _)
  · exact .ite (.tame (tame_takeDev _ _)) (.stay s)

theorem keeps_fabricLaunchPacket (pkg ctx queue : Nat) (approved : Bool) (packet : List Byte) (s : State) :
    Keeps s (execFabricLaunchPacket pkg ctx queue approved packet s) :=
  .ite (.stay s) (.ite (.send _ _) (.ite (.send _ _) (.ite (.send _ _) (.ite (.send _ _)
    (.tame ((tame_post _ _).trans ((tame_send _ _).after rfl rfl)))))))

theorem keeps_queueActivate (queue : Nat) (desc : BitVec 320) (s : State) : Keeps s (execQueueActivate queue desc s) := by
  have headed (g : Grid) (n : Nat) (old new : Queue) : (g.reheaded n old new).fused = g.fused := by
    unfold Grid.reheaded
    split <;> rfl
  refine .ite (.stay s) (.tame (.ite ?_ ?_))
  all_goals exact .onlyGrids (NumbersBelow.mapVals fun g => headed g _ _ _) rfl rfl

/-- Contexts that end one after the other. -/
theorem tame_endContexts (code : FaultCode) (cs : List Nat) (s : State) :
    Tame s (cs.foldl (fun (s : State) c => s.endContext c code) s) := .foldl (fun s c => tame_endContext s c code) _ s

theorem keeps_functionLevelReset (func : Nat) (s : State) : Keeps s (execFunctionLevelReset func s) :=
  .tame (.ite (.refl s) ((tame_endContexts _ _ _).after rfl rfl))

/-! Dispatch. -/

theorem tame_retireWg (s : State) (wid : Nat) (w : Workgroup) : Tame s (s.retireWg wid w) := by
  have gone : Tame s { s with wgs := s.wgs.erase wid, grids := s.grids.modify w.seq (fun g => { g with done := g.done + 1 }) } :=
    .onlyGrids (NumbersBelow.modify (by exact fun _ => rfl) _) rfl rfl
  exact .ite (gone.trans (tame_retireGrid _ _ _ _)) gone

theorem keeps_workgroupRetirement (wid : Nat) (s : State) : Keeps s (execWorkgroupRetirement wid s) := by
  unfold execWorkgroupRetirement
  split
  · exact .stay s
  · exact .ite (.stay s) (.ite (.tame (((tame_retireWg _ _ _).trans (tame_offer _ _ _)).trans (tame_drained _)))
      (.ite (.stay s) (.tame (((tame_putWg _ _ _).trans (tame_offer _ _ _)).trans (tame_drained _)))))

theorem keeps_dispatcherDraw (die seq : Nat) (s : State) : Keeps s (execDispatcherDraw die seq s) := by
  unfold execDispatcherDraw
  split
  · exact .stay s
  · next g hg => exact .ite (.stay s) (.tame (.onlyGrids (NumbersBelow.replace hg rfl) rfl rfl))

theorem keeps_workgroupAdmission (die seq : Nat) (s : State) : Keeps s (execWorkgroupAdmission die seq s) := by
  unfold execWorkgroupAdmission
  split
  · exact .stay s
  · exact .ite (.stay s) (.tame (tame_admitNext _ _ _))

/-- Draws leave the consumer of a fused grid. -/
theorem Grid.drawShares_fused (g : Grid) (sh : List (Nat × Nat)) (order : List Nat) : (g.drawShares sh order).fused = g.fused := by
  unfold Grid.drawShares
  generalize order ++ _ = l
  induction l generalizing g with
  | nil => rfl
  | cons d l ih => exact ih _

theorem keeps_coresidentAdmission (seq : Nat) (order : List Nat) (s : State) : Keeps s (execCoresidentAdmission seq order s) := by
  unfold execCoresidentAdmission
  split
  · exact .stay s
  · next g hg =>
    split
    · exact .stay s
    · next sh _ =>
      have drawn : Tame s { s with grids := s.grids.insert seq (({ g with atHead := false } : Grid).drawShares sh order) } :=
        .onlyGrids (NumbersBelow.replace hg (Grid.drawShares_fused _ _ _)) rfl rfl
      exact .ite (.stay s) (.tame ((drawn.trans (.foldl (fun s die => tame_admitNext s seq die) _ _)).trans (tame_leaveHead _ _)))

theorem keeps_workgroupResumption (pool area die : Nat) (s : State) : Keeps s (execWorkgroupResumption pool area die s) := by
  unfold execWorkgroupResumption
  split
  · exact .stay s
  · split
    · exact .stay s
    · exact .tame ((Tame.foldl tame_restore _ s).trans (tame_poolsDone _))

/-! Page moves and accesses from outside. -/

theorem tame_evict (s : State) (n : Nat) : Tame s (s.evict n) := .ofMemory (onlyMemory_evict s n) fun h => State.wf_evict h n

theorem tame_moveDone (s : State) (m : Move) (code : Nat) : Tame s (s.moveDone m code) :=
  (tame_fwWrite _ _ _).trans ((tame_settleAll _ _).after rfl rfl)

theorem tame_beginMove (s : State) (io : Nat) (cmd : BitVec 256) : Tame s (s.beginMove io cmd) := by
  unfold State.beginMove
  dsimp only
  split
  · exact tame_moveDone _ _ _
  · exact .ite (tame_moveDone _ _ _) (.ite (tame_moveDone _ _ _) (.ite (tame_moveDone _ _ _) (.same rfl rfl)))

theorem tame_putLeafAt (s : State) (a : Nat) (e : BitVec 64) : Tame s (s.putLeafAt a e) := tame_fwWrite _ _ _

theorem tame_markMove (s : State) (m : Move) : Tame s (s.markMove m) := by
  unfold State.markMove
  split
  · exact .refl s
  · exact .ite (tame_moveDone _ _ _) (.ite ((tame_putLeafAt _ _ _).trans (.same rfl rfl)) (tame_moveDone _ _ _))

theorem tame_copyLine (frame dst : Nat) (s : State) (i : Nat) : Tame s (State.copyLine frame dst s i) :=
  (tame_evict _ _).trans (.onlyMem (fun h => Memory.wf_sealLine h _ _ _) rfl rfl)

theorem tame_copyPage (s : State) (frame dst size : Nat) : Tame s (s.copyPage frame dst size) := .foldl (tame_copyLine frame dst) _ s

theorem tame_finishMove (s : State) (m : Move) : Tame s (s.finishMove m) := by
  unfold State.finishMove
  split
  · exact .refl s
  · exact .ite (.refl s) (.ite ((tame_putLeafAt _ _ _).trans (tame_moveDone _ _ _)) ((tame_copyPage _ _ _ _).trans
      (.ite ((tame_putLeafAt _ _ _).trans (tame_moveDone _ _ _)) ((tame_putLeafAt _ _ _).trans (tame_moveDone _ _ _)))))

theorem keeps_moveCommand (io : Nat) (cmd : BitVec 256) (s : State) : Keeps s (execMoveCommand io cmd s) := by
  unfold execMoveCommand
  split
  · exact .ite (.tame (tame_beginMove _ _ _)) (.stay s)
  · exact .tame (.ite (tame_finishMove _ _) (tame_markMove _ _))

theorem keeps_pin (a : Nat) (take : Bool) (s : State) : Keeps s (execPin a take s) :=
  .ite (.send _ _) (.ite (.ite (.send _ _) (.tame (tame_putLeafAt _ _ _))) (.tame (tame_putLeafAt _ _ _)))

theorem keeps_shootdownAcknowledge (io : Nat) (s : State) : Keeps s (execShootdownAcknowledge io s) := by
  unfold execShootdownAcknowledge
  split
  · exact .stay s
  · exact .ite (.same rfl) (.stay s)

theorem tame_writeOwned (s : State) (own : Nat → Owner) (a : Nat) (bs : List Byte) : Tame s (s.writeOwned own a bs) := by
  induction bs generalizing s a with
  | nil => exact .refl s
  | cons b bs ih => exact (tame_writeAs s _ _ _ b).trans (ih _ _)

theorem tame_perform (s : State) (own : Nat → Owner) (pa : Nat) (op : BusOp) : Tame s (s.perform own pa op).1 := by
  cases op with
  | read n => exact .refl s
  | write bs => exact tame_writeOwned _ _ _ _
  | atomic op wide b cmp => exact tame_writeOwned _ _ _ _

theorem keeps_hostAccess (target : HostTarget) (op : BusOp) (s : State) : Keeps s (execHostAccess target op s) := by
  unfold execHostAccess
  split
  · exact .ite (.tame ((tame_perform _ _ _ _).trans (tame_send _ _))) (.ite (.stay s)
      (.ite (.tame ((tame_perform _ _ _ _).trans (tame_send _ _))) (.send _ _)))
  · refine .ite (.stay s) ?_
    split
    · exact .send _ _
    · exact .stay s
  · refine .ite (.stay s) ?_
    split
    · exact .send _ _
    · exact .stay s
  · refine .ite (.stay s) ?_
    split
    · exact .send _ _
    · exact .send _ _

theorem keeps_peerAccess (pkg ctx addr : Nat) (op : BusOp) (s : State) : Keeps s (execPeerAccess pkg ctx addr op s) := by
  refine .ite (.stay s) ?_
  split
  · exact .send _ _
  · exact .ite (.tame ((tame_perform _ _ _ _).trans (tame_send _ _))) (.send _ _)

/-! Ladders. -/

theorem tame_putLadder (s : State) (l l' : Ladder) : Tame s (s.putLadder l l') := .same rfl rfl

theorem tame_saved (s : State) (l : Ladder) : Tame s (s.saved l) := (tame_ladderEnd _ _ _ _).trans (.same rfl rfl)

theorem tame_flush (s : State) (wid : Nat) (w : Workgroup) : Tame s (s.flush wid w) :=
  .onlyGrids (NumbersBelow.modify (by exact fun _ => rfl) _) rfl rfl

theorem tame_saveOne (s : State) (io pool wid : Nat) : Tame s (s.saveOne io pool wid) := by
  have saved (t : State) (h : Tame s t) (die core : Nat) : Tame s (({ t with wgs := t.wgs.erase wid } : State).offer die core) :=
    h.trans ((tame_offer _ _ _).after rfl rfl)
  unfold State.saveOne
  split
  · refine .ite (.refl s) ?_
    refine .ite (Tame.trans (tame_flush s wid _) (tame_offer _ _ _)) ?_
    extract_lets stopped bs
    exact .ite (.refl s) (saved _ ((tame_putLadder _ _ _).trans (tame_fwWrite _ _ _)) _ _)
  · exact .refl s

theorem tame_saveAll (s : State) (io pool : Nat) : Tame s (s.saveAll io pool) := by
  have each := Tame.foldl (fun s wid => tame_saveOne s io pool wid) s.wgs.keys s
  unfold State.saveAll
  dsimp only
  split
  · exact .ite each (each.trans (tame_saved _ _))
  · exact each

theorem tame_startSave (s : State) (l : Ladder) : Tame s (s.startSave l) :=
  .ite (tame_saved _ _) (.ite ((tame_saveAll _ _ _).after rfl rfl) (.same rfl rfl))

theorem keeps_ladderCommand (io : Nat) (cmd : BitVec 256) (s : State) : Keeps s (execLadderCommand io cmd s) :=
  .ite (.tame (tame_ladderEnd _ _ _ _)) (.ite (.tame ((tame_startSave _ _).after rfl rfl)) (.tame ((tame_drained _).after rfl rfl)))

theorem keeps_saveRungStart (io pool : Nat) (s : State) : Keeps s (execSaveRungStart io pool s) := by
  unfold execSaveRungStart
  split
  · exact .ite (.tame (tame_startSave _ _)) (.stay s)
  · exact .stay s

theorem keeps_quiesceLimitExpiry (io pool : Nat) (s : State) : Keeps s (execQuiesceLimitExpiry io pool s) := by
  unfold execQuiesceLimitExpiry
  split
  · exact .ite (.stay s) (.tame ((tame_putLadder _ _ _).trans (tame_saveAll _ _ _)))
  · exact .stay s

theorem keeps_saveDeadlineExpiry (io pool : Nat) (s : State) : Keeps s (execSaveDeadlineExpiry io pool s) := by
  unfold execSaveDeadlineExpiry
  split
  · exact .ite (.stay s) (.tame (tame_endContext _ _ _))
  · exact .stay s

theorem keeps_resumeCommand (io : Nat) (cmd : BitVec 128) (s : State) : Keeps s (execResumeCommand io cmd s) := by
  unfold execResumeCommand
  split
  · exact .same rfl
  · exact .tame ((tame_poolsDone _).after rfl rfl)

theorem keeps_debugCrewResume (k : CrewKey) (s : State) : Keeps s (execDebugCrewResume k s) := by
  unfold execDebugCrewResume
  split
  · exact .ite (.stay s) (.ite (.tame (tame_putWg _ _ _)) (.tame (tame_put _ _ _ _)))
  · exact .stay s

/-! Contexts and the tables of the system. -/

theorem keeps_contextActivate (ctx part tenant : Nat) (d : BitVec 512) (s : State) : Keeps s (execContextActivate ctx part tenant d s) :=
  .ite (.stay s) (.ite (.tame ((tame_send _ _).trans (.same rfl rfl))) (.send _ _))

theorem keeps_contextRelease (ctx : Nat) (s : State) : Keeps s (execContextRelease ctx s) :=
  .ite (.tame (((Tame.foldl (fun s q => tame_retireGrid s q 2 0) _ s).trans (tame_resetLadders _ _)).trans (.same rfl rfl))) (.stay s)

theorem keeps_partitionResize (part : Nat) (cores : List (Nat × Nat)) (s : State) : Keeps s (execPartitionResize part cores s) := by
  refine .ite (.same rfl) (.tame (.onlyGrids (NumbersBelow.mapVals (s := s) fun g => ?_) rfl rfl))
  split <;> rfl

/-! Errors. -/

theorem tame_writeBackRegion (s : State) (region : Nat) : Tame s (s.writeBackRegion region) := .foldl tame_evict _ s

theorem tame_markLasting (s : State) (a : SramArray) (die core region : Nat) : Tame s (s.markLasting a die core region) := by
  cases a
  case dieCache => exact (tame_writeBackRegion _ _).after rfl rfl
  case other | translation | firmware => exact .ite (.same rfl rfl) (.same rfl rfl)
  all_goals exact .same rfl rfl

theorem tame_countError (s : State) (kind : Nat) (a : SramArray) (die core region : Nat) (t : Tagged) :
    Tame s (s.countError kind a die core region t) := by
  have counted : Tame s _ := (tame_send
    { s with errors := s.errors.put (regionKey a die core region) (s.errors.get (regionKey a die core region) + 1) }
    (.error (nearIo die) (errorRecord kind a die core region (s.errors.get (regionKey a die core region) + 1) t))).after rfl rfl
  exact .ite (counted.trans ((tame_markLasting _ _ _ _ _).trans (tame_send _ _))) counted

theorem tame_endOwner (s : State) (c : Nat) : Tame s (s.endOwner c) := .ite (tame_endContext _ _ _) (.refl s)

theorem tame_zeroQueue (s : State) (line : Nat) : Tame s (s.zeroQueue line) := .ite (.same rfl rfl) (.same rfl rfl)

theorem tame_breakLine (s : State) (a : SramArray) (die core line : Nat) (tag : Option Tag) :
    Tame s (s.breakLine a die core line tag).state := by
  unfold State.breakLine
  split
  case h_2 => exact .ite (.refl s) (.same rfl rfl)
  case h_3 =>
    split
    · exact .refl s
    · split
      · exact .same rfl rfl
      · exact (tame_endOwner _ _).trans (.same rfl rfl)
      · exact .same rfl rfl
  case h_4 =>
    split
    · split
      · exact .same rfl rfl
      · exact .refl s
    · exact .refl s
  case h_5 => exact .ite (.same rfl rfl) (.same rfl rfl)
  case h_6 => exact (tame_endOwner _ _).trans (tame_zeroQueue _ _)
  case h_7 => exact tame_zeroQueue _ _
  case h_8 => exact (tame_endOwner _ _).trans (.same rfl rfl)
  all_goals exact .refl s

theorem keeps_hedgehogScrub (a : SramArray) (die core region line bad : Nat) (s : State) :
    Keeps s (execHedgehogScrub a die core region line bad s) :=
  .ite (.stay s) (.ite (.tame (tame_countError _ _ _ _ _ _ _)) (.tame ((tame_breakLine _ _ _ _ _ _).trans (tame_countError _ _ _ _ _ _ _))))

theorem keeps_thermalLimit (die : Nat) (s : State) : Keeps s (execThermalLimit die s) :=
  .tame ((tame_endContexts _ _ _).trans (.same rfl rfl))

/-- Package reset keeps memory and what has been sent out, and leaves no grid. -/
theorem keeps_packageReset (flash : Option (List FlashImage)) (s : State) : Keeps s (execPackageReset flash s) :=
  .next ⟨id, rfl, fun _ => ⟨.nil, fun _ h => nomatch h⟩, [], (List.append_nil _).symm⟩

theorem keeps_spdmAnswer (s : State) (n : Nat) (words : List (BitVec 256)) : Keeps s (spdmAnswer s n words) := .ite (.stay s) (.send _ _)

/-! Every event. -/

theorem keeps_event {i : Instr} (h : isTurnEvent i = true) (s : State) : Keeps s (exec i s) := by
  cases i <;> cases h
  all_goals dsimp only [exec]
  case loadLands => exact keeps_landUnits (tame_landPending _ _ _) _ _ _ _
  case copyLands | tloadPieceLands | tstorePerformed => exact keeps_landUnits (.refl s) _ _ _ _
  case storePerformed => exact keeps_storePerformed _ _ _ _
  case fetchLands => exact .tame (.foldl (fun s n => tame_fetchOne s _ _ n) _ s)
  case kvldLands => exact keeps_kvldLands _ _ _
  case cbloadCompletes => exact keeps_cbloadCompletes _ _ _
  case runComplete => exact keeps_runComplete _ _
  case mmaCommit => exact keeps_mmaCommit _ _
  case agrowDenial => exact keeps_agrowDenial _ _
  case walkComplete => exact keeps_walkComplete _ _ _
  case replay => exact keeps_replay _ _ _
  case decline => exact keeps_decline _ _ _
  case notifyWrite => exact keeps_notifyWrite _ _ _ _
  case registerWrite => exact keeps_registerWrite _ _ _ _
  case launchAcceptance => exact keeps_launchAcceptance _ _
  case barrierPacketStart => exact keeps_barrierPacketStart _ _
  case dependenceRecheck => exact keeps_dependenceRecheck _ _
  case deviceQueueTake => exact keeps_deviceQueueTake _ _
  case fabricLaunchPacket => exact keeps_fabricLaunchPacket _ _ _ _ _ _
  case queueActivate => exact keeps_queueActivate _ _ _
  case functionLevelReset => exact keeps_functionLevelReset _ _
  case workgroupRetirement => exact keeps_workgroupRetirement _ _
  case dispatcherDraw => exact keeps_dispatcherDraw _ _ _
  case workgroupAdmission => exact keeps_workgroupAdmission _ _ _
  case coresidentAdmission => exact keeps_coresidentAdmission _ _ _
  case workgroupResumption => exact keeps_workgroupResumption _ _ _ _
  case moveCommand => exact keeps_moveCommand _ _ _
  case pin => exact keeps_pin _ _ _
  case shootdownAcknowledge => exact keeps_shootdownAcknowledge _ _
  case hostAccess => exact keeps_hostAccess _ _ _
  case peerAccess => exact keeps_peerAccess _ _ _ _ _
  case ladderCommand => exact keeps_ladderCommand _ _ _
  case saveRungStart => exact keeps_saveRungStart _ _ _
  case quiesceLimitExpiry => exact keeps_quiesceLimitExpiry _ _ _
  case saveDeadlineExpiry => exact keeps_saveDeadlineExpiry _ _ _
  case resumeCommand => exact keeps_resumeCommand _ _ _
  case debugCrewResume => exact keeps_debugCrewResume _ _
  case contextActivate => exact keeps_contextActivate _ _ _ _ _
  case contextRelease => exact keeps_contextRelease _ _
  case kill => exact .ite (.tame (tame_endContext _ _ _)) (.stay s)
  case regionTableWrite => exact .ite (.stay s) (.ite (.same rfl) (.same rfl))
  case contextChange | releaseSweepDone => exact .ite (.same rfl) (.stay s)
  case keySlotWrite | coreWorldChange => exact .ite (.stay s) (.same rfl)
  case pluginWindowViolation => exact .ite (.stay s) (.same rfl)
  case pluginRestart | linkTrainingFailure => refine .same ?_; split <;> rfl
  case partitionResize => exact keeps_partitionResize _ _ _
  case hedgehogScrub => exact keeps_hedgehogScrub _ _ _ _ _ _ _
  case thermalLimit => exact keeps_thermalLimit _ _
  case packageReset => exact keeps_packageReset _ _
  case dieCacheWriteBack => exact .tame (tame_evict _ _)
  case getVersion | getCapabilities | negotiateAlgorithms | getDigests | getCertificate | challenge | getMeasurements =>
    exact keeps_spdmAnswer _ _ _
  all_goals exact .same rfl

/-! Turns and steps. -/

theorem keeps_exec (i : Instr) (s : State) : Keeps s (exec i s) := by
  cases h : isTurnEvent i with
  | true => exact keeps_event h s
  | false => exact fun _ ht => (tame_of_issued h ht).kept

/-- What changes nothing that the ledger lists, before what keeps it. -/
theorem Keeps.after {s t : State} {r : Result} (hr : Keeps t r) (h : t.ledger = s.ledger) : Keeps s r :=
  fun u hu => (Kept.same h).trans (hr u hu)

theorem keeps_runFetched (s : State) (w : Workgroup) (c : Crew) (st : Stream) (i : Instr) : Keeps s (s.runFetched w c st i) := by
  unfold State.runFetched
  dsimp only
  split
  · exact keeps_exec _ s
  · next v t _ _ =>
    have run : Keeps s (exec ((s.gridOf w).fusedForm c st i) { s with beyondV := v, beyondT := t }) :=
      (keeps_exec _ _).after rfl
    split
    · next u hu => exact .next ((run u hu).trans (.same rfl))
    · exact run

theorem keeps_onFetched (s : State) (k : CrewKey) (w : Workgroup) (c : Crew) (st : Stream) (f : Fetched) :
    Keeps s (s.onFetched k w c st f) := by
  cases f with
  | instr i => exact keeps_runFetched s w c st i
  | wait => exact .stay s
  | miss va => exact .tame (tame_issueMiss _ _ _ _ _)
  | held code va => exact .tame (tame_holdFetch _ _ _ _ _)

theorem keeps_scalarTurn (s : State) (k : CrewKey) : Keeps s (s.scalarTurn k) := by
  unfold State.scalarTurn
  split
  · exact .stay s
  · exact .ite ((keeps_onFetched _ _ _ _ _ _).after rfl) (.stay s)

theorem keeps_laneTurn (s : State) (k : CrewKey) : Keeps s (s.laneTurn k) := by
  unfold State.laneTurn
  split
  · exact .stay s
  · dsimp only
    split
    · exact .stay s
    · refine .ite (.stay s) ?_
      split
      · exact .tame ((tame_put _ _ _ _).trans (tame_raise _ _ _ _ _ _ _ _))
      · exact (keeps_onFetched _ _ _ _ _ _).after rfl

theorem tame_fillLine (s : State) (wid line : Nat) : Tame s (s.fillLine wid line) := by
  unfold State.fillLine
  split
  · exact .ite (.same rfl rfl) (.refl s)
  · exact .refl s

theorem keeps_turn (s : State) (t : Turn) : Keeps s (s.turn t) := by
  cases t with
  | scalar k => exact .ite (keeps_scalarTurn s k) (.stay s)
  | lane k => exact .ite (keeps_laneTurn s k) (.stay s)
  | event i => exact .ite (keeps_exec i s) (.stay s)
  | line wid line => exact .tame (.ite (tame_fillLine _ _ _) (.refl s))

theorem keeps_offered {s : State} {r : Result} (h : Keeps s r) : Keeps s (offered r) := by
  cases r with
  | next t => exact .next (((h t rfl).trans (tame_offerFreed _ t).kept).trans (.same rfl))
  | fault | refused => exact fun _ ht => nomatch ht

/-- Every step keeps memory canonical, the population of CXL memory, acceptance numbers below the next one and what has been sent out. -/
theorem keeps_step (s : State) : Keeps s (step s) := by
  have advance : s.nextTurn.2.ledger = s.ledger := by
    unfold State.nextTurn
    split <;> rfl
  unfold step
  split
  · next h => rw [h] at advance; exact (keeps_offered (keeps_turn _ _)).after advance
  · next h => rw [h] at advance; exact .same advance

/-- Settles O2: what a step keeps (`keeps_step`) has memory and the population of CXL memory among it. -/
theorem memoryStaysCanonical : Obligations.MemoryStaysCanonical := by
  unfold Obligations.MemoryStaysCanonical
  intro s t hm hl ht
  obtain ⟨mem, populated, -, -⟩ := keeps_step s t ht
  exact ⟨mem hm, (congrArg (· % 256) populated).trans hl⟩

end Sys2Proof.Machine
end

section
/-! SUPPORT. What reset leaves, accesses of the host to the secure world, and register writes (18 R288 to R300, R309, R327, R359). -/

namespace Sys2Proof.Machine

/-- Settles O1: the reset state lists no entry, so every table reads as its default. -/
theorem resetLeavesEverythingInvalid : Obligations.ResetLeavesEverythingInvalid := by
  refine ⟨State.wf_reset, rfl, ⟨.nil, fun _ he => absurd he List.not_mem_nil⟩, fun _ => rfl, fun _ => rfl, fun n => ?_, fun n => ?_,
    fun _ => rfl, rfl, rfl, fun _ => rfl, fun _ => rfl⟩
  · exact BitVec.getLsbD_zero
  · exact BitVec.getLsbD_zero

/-! Accesses of the host. -/

theorem State.openTo_eq_false {s : State} {pa n i : Nat} (hi : i < n)
    (hshut : s.secureAt (pa + i) = true ∨ s.isLocal (pa + i) = false ∨ s.reachable (pa + i) = false) : s.openTo pa n = false := by
  refine List.all_eq_false.mpr ⟨i, List.mem_range.mpr hi, ?_⟩
  rcases hshut with h | h | h <;> simp [h]

theorem hostAccess_shut {s : State} {pa : Nat} {op : BusOp} (hup : s.downLinks.contains 0 = false)
    (hpackage : (isHost pa && isHost (pa + opBytes op - 1)) = false) (hshut : s.openTo pa (opBytes op) = false) (ctx : Option Nat) :
    exec (.hostAccess (.memory pa ctx) op) s = .next (s.send (.host none)) := by
  simp only [exec_hostAccess, execHostAccess, hup, hpackage, hshut, Bool.false_eq_true, if_false]

/-- Settles O11: a byte of the secure world is enough for the access not to be open. -/
theorem hostCannotReachTheSecureWorld : Obligations.HostCannotReachTheSecureWorld := by
  intro s pa ctx op i hup hi hpackage hshut
  exact hostAccess_shut hup hpackage (State.openTo_eq_false hi hshut) ctx

/-! Register writes. -/

theorem exec_registerWrite (func : Nat) (r : SysReg) (v : BitVec 256) (s : State) :
    exec (.registerWrite func r v) s = execRegisterWrite func r v s := rfl

theorem flag_and {w : Nat} (x y : BitVec w) (n : Nat) : flag (x &&& y) n = (flag x n && flag y n) := BitVec.getLsbD_and

theorem flag_of_le {w : Nat} (x : BitVec w) {n : Nat} (h : w ≤ n) : flag x n = false := BitVec.getLsbD_of_ge x n h

theorem flag_apertureBits : ∀ n < 256, flag apertureBits n =
    [(24, 20), (61, 42), (128, 39), (192, 52), (248, 8)].any (fun r => decide (r.1 ≤ n ∧ n < r.1 + r.2)) := by
  decide +kernel

theorem flag_fabricBits : ∀ n < 64, flag fabricBits n = (n == 63 || decide (12 ≤ n ∧ n < 44)) := by
  decide +kernel

theorem flag_apertureEntry (v : BitVec 256) (n : Nat) : flag (v &&& apertureBits) n = (flag v n &&
    [(24, 20), (61, 42), (128, 39), (192, 52), (248, 8)].any (fun r => decide (r.1 ≤ n ∧ n < r.1 + r.2))) := by
  by_cases hn : n < 256
  · rw [flag_and, flag_apertureBits n hn]
  · rw [flag_of_le _ (by omega), flag_of_le v (by omega), Bool.false_and]

theorem flag_fabricEntry (v : BitVec 256) (n : Nat) :
    flag (v.setWidth 64 &&& fabricBits) n = (flag v n && (n == 63 || decide (12 ≤ n ∧ n < 44))) := by
  by_cases hn : n < 64
  · rw [flag_and, flag_fabricBits n hn, flag, BitVec.getLsbD_setWidth, decide_eq_true hn, Bool.true_and, flag]
  · have hbit : (n == 63 || decide (12 ≤ n ∧ n < 44)) = false := by
      rw [Bool.or_eq_false_iff, beq_eq_false_iff_ne, decide_eq_false_iff_not]
      omega
    rw [flag_of_le _ (by omega), hbit, Bool.and_false]

theorem registerWrite_priority_running {s : State} {i : Nat} {q : Queue} (func : Nat) (v : BitVec 256)
    (hruns : s.stopped.contains (s.ctx (s.queues.get i).ctx.toNat).tenant = false) (hq : s.queues.find? i = some q) :
    exec (.registerWrite func (.priority i) v) s =
      .next { s with queues := s.queues.insert i { q with policy := some (fld v 0 2) } } := by
  simp only [exec_registerWrite, execRegisterWrite, hruns, SMap.modify_of_find? _ hq, Bool.not_false, if_true]

theorem registerWrite_priority_stopped {s : State} {i : Nat} (func : Nat) (v : BitVec 256)
    (hstopped : s.stopped.contains (s.ctx (s.queues.get i).ctx.toNat).tenant = true) :
    exec (.registerWrite func (.priority i) v) s = .next s := by
  simp only [exec_registerWrite, execRegisterWrite, hstopped, Bool.not_true, Bool.false_eq_true, if_false]

/-- Settles O50: each register names one entry, and the masks of the tables are read bit by bit. -/
theorem registerWritesChangeTheirEntry : Obligations.RegisterWritesChangeTheirEntry := by
  intro s func v i
  refine ⟨fun _ _ _ => rfl, fun hi => ⟨_, ?_, flag_apertureEntry v⟩, fun tenant hi => ⟨_, ?_, flag_fabricEntry v⟩,
    fun tenant hi => ?_, ⟨fun q hruns hq => registerWrite_priority_running func v hruns hq, fun hstopped => ?_⟩, ?_, fun h1 h255 => ?_⟩
  · rw [exec_registerWrite, execRegisterWrite, if_pos hi]
  · rw [exec_registerWrite, execRegisterWrite, if_pos hi]
  · simp only [exec_registerWrite, execRegisterWrite, if_pos hi, nfld_eq_div_mod, pow_zero, Nat.div_one]
  · exact registerWrite_priority_stopped func v (Bool.eq_true_of_not_eq_false hstopped)
  · rw [exec_registerWrite, execRegisterWrite, nfld_eq_div_mod, pow_zero, Nat.div_one]
  · rw [exec_registerWrite, execRegisterWrite, nfld_eq_div_mod, pow_zero, Nat.div_one, if_pos ⟨h1, h255⟩]

end Sys2Proof.Machine
end

section
/-! SUPPORT. What an owner reads after a write (18 R290 to R295): of another line what it read before, of the written line its own bytes
with the one that was written, and another context, once the line is on chip, zero. -/

namespace Sys2Proof.Machine

section
variable {s t : State}

theorem OnlyMemory.keyOf_eq (h : OnlyMemory s t) (o : Owner) : t.keyOf o = s.keyOf o := by
  rw [h]
  rfl

theorem OnlyMemory.worldOf_eq (h : OnlyMemory s t) (o : Owner) : t.worldOf o = s.worldOf o := by
  rw [h]
  cases o <;> rfl

theorem OnlyMemory.tagged_eq (h : OnlyMemory s t) (o : Owner) (l : Line) : t.tagged o l = s.tagged o l := by
  rw [State.tagged, State.tagged, h.worldOf_eq]

/-- The two ranges of local memory are made of whole lines. -/
theorem WholeLines.isLocal_eq (hw : WholeLines s) {x a : Nat} (h : x / 256 = a / 256) : s.isLocal x = s.isLocal a := by
  unfold WholeLines at hw
  have hhbm : x < hbmBytes ↔ a < hbmBytes := by
    unfold hbmBytes
    omega
  have hcxl : cxlBase ≤ x ∧ x < cxlBase + s.cxlBytes ↔ cxlBase ≤ a ∧ a < cxlBase + s.cxlBytes := by
    unfold cxlBase
    omega
  simp only [State.isLocal, State.isHbm, State.isCxl, hhbm, hcxl]

/-! Another line than the one that changes. -/

/-- The line `n` of memory and of the die cache is all that differs. -/
structure OnlyLine (n : Nat) (s t : State) : Prop where
  only : OnlyMemory s t
  lines : ∀ m, m ≠ n → t.lines.find? m = s.lines.find? m
  read : ∀ x, x / 256 ≠ n → t.mem.read x = s.mem.read x

theorem OnlyLine.trans {n : Nat} {u : State} (h : OnlyLine n s t) (g : OnlyLine n t u) : OnlyLine n s u :=
  ⟨h.only.trans g.only, fun m hm => (g.lines m hm).trans (h.lines m hm), fun x hx => (g.read x hx).trans (h.read x hx)⟩

/-- What is read of a byte depends on its line alone. -/
theorem OnlyLine.readAs_eq {n : Nat} (h : OnlyLine n s t) (o : Owner) {x : Nat} (hx : x / 256 ≠ n) : t.readAs o x = s.readAs o x := by
  have hblock : t.mem.clear (s.keyOf o) x = s.mem.clear (s.keyOf o) x :=
    Memory.clear_congr (fun i hi => h.read _ (by omega)) _
  simp only [State.readAs, h.only.isLocal_eq, h.only.keyOf_eq, h.only.tagged_eq, h.lines _ hx, h.read x hx, hblock]

theorem onlyLine_evict (s : State) (n : Nat) : OnlyLine n s (s.evict n) := by
  refine ⟨onlyMemory_evict s n, fun m hm => (s.evict_lines n m).trans (if_neg hm), fun x hx => ?_⟩
  unfold State.evict
  split
  · rfl
  · dsimp only
    split
    · exact (Memory.read_sealLine _ _ _ _ x).trans (if_neg (by omega))
    · rfl

theorem onlyLine_bring (s : State) (o : Owner) (a : Nat) : OnlyLine (a / 256) s (s.bring o a) := by
  refine ⟨onlyMemory_bring s o a, fun m hm => ?_, fun x hx => ?_⟩
  · unfold State.bring
    dsimp only
    split
    · split
      · rfl
      · exact ((SMap.find?_insert _ _ _ m).trans (if_neg hm)).trans ((onlyLine_evict s _).lines m hm)
    · exact (SMap.find?_insert _ _ _ m).trans (if_neg hm)
  · unfold State.bring
    dsimp only
    split
    · split
      · rfl
      · exact (onlyLine_evict s _).read x hx
    · rfl

theorem onlyLine_writeOn (s : State) (a : Nat) (b : Byte) : OnlyLine (a / 256) s (s.writeOn a b) := by
  refine ⟨rfl, fun m hm => ?_, fun _ _ => rfl⟩
  unfold State.writeOn
  dsimp only
  cases hl : s.lines.find? (a / 256) with
  | none => rw [SMap.modify, hl]
  | some l => rw [SMap.modify_of_find? _ hl, SMap.find?_insert, if_neg hm]

theorem onlyLine_writeOff (s : State) (o : Owner) (a : Nat) (b : Byte) : OnlyLine (a / 256) s (s.writeOff o a b) := by
  refine ⟨rfl, fun _ _ => rfl, fun x hx => ?_⟩
  refine (Memory.read_writeList _ _ _ x).trans (if_neg ?_)
  rw [Aes.Block.length_bytes]
  omega

theorem onlyLine_writeAs (s : State) (o : Owner) (alloc : Bool) (a : Nat) (b : Byte) : OnlyLine (a / 256) s (s.writeAs o alloc a b) := by
  unfold State.writeAs
  split
  · split
    · exact onlyLine_writeOff s o a b
    · exact (onlyLine_bring s o a).trans (onlyLine_writeOn _ a b)
  · exact ⟨rfl, fun _ _ => rfl, fun x hx => (Memory.read_write _ _ _ x).trans (if_neg fun h => hx (congrArg (· / 256) h))⟩

/-! The line that changes. -/

/-- What an owner whose tag a line carries reads there. -/
theorem State.readAs_of_tagged {x : Nat} {l : Line} {o : Owner} (hlocal : s.isLocal x = true)
    (hl : s.lines.find? (x / 256) = some l) (htag : s.tagged o l = true) : s.readAs o x = l.bytes.get (x % 256) := by
  simp only [State.readAs, hlocal, hl, htag, if_true]

theorem State.readAs_of_untagged {x : Nat} {l : Line} {o : Owner} (hlocal : s.isLocal x = true)
    (hl : s.lines.find? (x / 256) = some l) (htag : s.tagged o l = false) : s.readAs o x = 0 := by
  simp only [State.readAs, hlocal, hl, htag, if_true, Bool.false_eq_true, if_false]

theorem State.readAs_off_chip {x : Nat} {o : Owner} (hlocal : s.isLocal x = true) (hl : s.lines.find? (x / 256) = none) :
    s.readAs o x = s.mem.clear (s.keyOf o) x := by
  simp only [State.readAs, hlocal, hl, if_true]

theorem State.readAs_not_local {x : Nat} {o : Owner} (hlocal : s.isLocal x = false) : s.readAs o x = s.mem.read x := by
  simp only [State.readAs, hlocal, Bool.false_eq_true, if_false]

theorem State.get_fill (s : State) (o : Owner) (n : Nat) {j : Nat} (hj : j < 256) :
    (s.fill o n).get j = s.mem.clear (s.keyOf o) (256 * n + j) := by
  rw [State.fill, SMap.get_putList, dif_pos ⟨Nat.zero_le _, by simpa using hj⟩]
  simp

/-- A line that is brought holds what its owner reads of it: its bytes where it stands on chip as the owner's, zero in place of another
owner's, and what the owner's key deciphers where it was off chip. -/
theorem State.bring_bytes (s : State) (o : Owner) (a : Nat) : ∃ l, (s.bring o a).lines.find? (a / 256) = some l ∧ l.owner = some o
    ∧ ∀ x, x / 256 = a / 256 → s.isLocal x = true → l.bytes.get (x % 256) = s.readAs o x := by
  unfold State.bring
  dsimp only
  split
  next l hl =>
    split
    next htag =>
      refine ⟨l, hl, ?_, fun x hx hlocal => (State.readAs_of_tagged hlocal (hx ▸ hl) htag).symm⟩
      simp only [State.tagged, Bool.and_eq_true, beq_iff_eq] at htag
      exact htag.1
    next htag =>
      refine ⟨_, SMap.find?_insert_self _ _ _, rfl, fun x hx hlocal => ?_⟩
      exact (State.readAs_of_untagged hlocal (hx ▸ hl) (Bool.eq_false_of_not_eq_true htag)).symm
  next hl =>
    refine ⟨_, SMap.find?_insert_self _ _ _, rfl, fun x hx hlocal => ?_⟩
    have hat : 256 * (a / 256) + x % 256 = x := by omega
    rw [State.readAs_off_chip hlocal (hx ▸ hl), State.get_fill s o _ (Nat.mod_lt x (by decide)), hat]

/-- A line of the given world once byte `j` of it is written on chip. -/
def Line.written (l : Line) (secure : Bool) (j : Nat) (b : Byte) : Line :=
  { l with secure := secure, dirty := true, bytes := l.bytes.put j b }

theorem State.writeOn_line {a : Nat} {l : Line} (hl : s.lines.find? (a / 256) = some l) (b : Byte) :
    (s.writeOn a b).lines.find? (a / 256) = some (l.written (s.secureAt a) (a % 256) b) := by
  unfold State.writeOn
  dsimp only
  rw [SMap.modify_of_find? _ hl, SMap.find?_insert_self, Line.written]

/-- A byte written on chip by its owner, in a world that it reaches. -/
theorem State.readAs_bring_writeOn {o : Owner} {a x : Nat} (b : Byte) (hworld : s.worldOf o = true ∨ s.secureAt a = false)
    (hlocal : s.isLocal x = true) (hx : x / 256 = a / 256) :
    ((s.bring o a).writeOn a b).readAs o x = if x = a then b else s.readAs o x := by
  obtain ⟨l, hl, ho, hbytes⟩ := s.bring_bytes o a
  have hbring := onlyMemory_bring s o a
  have honly : OnlyMemory s ((s.bring o a).writeOn a b) := hbring.trans (onlyLine_writeOn _ a b).only
  have htag : ((s.bring o a).writeOn a b).tagged o (l.written ((s.bring o a).secureAt a) (a % 256) b) = true := by
    rw [honly.tagged_eq, hbring.secureAt_eq, State.tagged, Line.written, ho]
    rcases hworld with h | h <;> simp [h]
  rw [State.readAs_of_tagged ((honly.isLocal_eq x).trans hlocal) (hx ▸ State.writeOn_line hl b) htag, Line.written, SMap.get_put]
  by_cases hxa : x = a
  · rw [if_pos (by rw [hxa]), if_pos hxa]
  · rw [if_neg (by omega), if_neg hxa, hbytes x hx hlocal]

/-- A byte written in memory: its block is enciphered again, the other blocks of its line stand as before. -/
theorem State.clear_writeOff (s : State) (o : Owner) (a x : Nat) (b : Byte) :
    (s.writeOff o a b).mem.clear (s.keyOf o) x = if x = a then b else s.mem.clear (s.keyOf o) x := by
  by_cases hblock : x / 16 = a / 16
  · have hline : lineBase a = lineBase x := by
      rw [lineBase, lineBase]
      omega
    have hj : a % 256 / 16 = x % 256 / 16 := by omega
    have hat : x / 16 * 16 + x % 16 = x := by omega
    refine (Memory.clear_of_enciphered
      (f := fun i => if x / 16 * 16 + i = a then b else s.mem.clear (s.keyOf o) (x / 16 * 16 + i)) fun i hi => ?_).trans (by rw [hat])
    refine (Memory.read_writeList _ _ _ _).trans ?_
    rw [if_pos (by rw [Aes.Block.length_bytes]; omega), hblock, Nat.add_sub_cancel_left, hline, hj]
  · rw [if_neg (fun h => hblock (congrArg (· / 16) h))]
    refine Memory.clear_congr (fun i hi => ?_) _
    refine (Memory.read_writeList _ _ _ _).trans (if_neg ?_)
    rw [Aes.Block.length_bytes]
    omega

/-- An owner reads back what it writes to a byte that its world reaches, and the rest of the line as before. -/
theorem State.readAs_writeAs_line (hw : WholeLines s) {o : Owner} {a x : Nat} (alloc : Bool) (b : Byte)
    (hworld : s.worldOf o = true ∨ s.secureAt a = false) (hx : x / 256 = a / 256) :
    (s.writeAs o alloc a b).readAs o x = if x = a then b else s.readAs o x := by
  have honly := onlyMemory_writeAs s o alloc a b
  have hlocal := WholeLines.isLocal_eq hw hx
  unfold State.writeAs at honly ⊢
  cases ha : s.isLocal a with
  | false =>
    rw [ha] at honly hlocal
    rw [if_neg Bool.false_ne_true] at honly ⊢
    rw [State.readAs_not_local ((honly.isLocal_eq x).trans hlocal), State.readAs_not_local hlocal, Memory.read_write]
  | true =>
    rw [ha] at honly hlocal
    rw [if_pos rfl] at honly ⊢
    split at honly
    next hoff =>
      have hnone : s.lines.find? (x / 256) = none := by
        rw [Bool.and_eq_true, Option.isNone_iff_eq_none] at hoff
        rw [hx, hoff.1]
      rw [if_pos hoff, State.readAs_off_chip ((honly.isLocal_eq x).trans hlocal) hnone, honly.keyOf_eq,
        State.readAs_off_chip hlocal hnone, State.clear_writeOff]
    next hon => rw [if_neg hon, State.readAs_bring_writeOn b hworld hlocal hx]

/-- A line of a context's reads as zero to every other context. -/
theorem State.readByte_of_other {x c d : Nat} {l : Line} (hlocal : s.isLocal x = true) (hl : s.lines.find? (x / 256) = some l)
    (ho : l.owner = some (.ctx c)) (hcd : d ≠ c) : s.readByte d x = 0 := by
  refine State.readAs_of_untagged hlocal hl ?_
  simp [State.tagged, ho, Ne.symm hcd]

end

/-- Settles O10: a write changes its line alone, and there the byte alone; and the line that it leaves on chip carries its writer's tag. -/
theorem writesAreReadByTheirContextAlone : Obligations.WritesAreReadByTheirContextAlone := by
  refine ⟨fun s o alloc a b x hw hworld => ?_, fun s c d a b x ha hx hline hcd htakes => ?_⟩
  · by_cases hx : x / 256 = a / 256
    · exact State.readAs_writeAs_line hw alloc b hworld hx
    · rw [if_neg (fun h => hx (congrArg (· / 256) h)), (onlyLine_writeAs s o alloc a b).readAs_eq o hx]
  · obtain ⟨l, hl, ho, -, -⟩ := State.writeAs_line ha htakes (.ctx c) b
    exact State.readByte_of_other (((onlyMemory_writeAs s _ _ a b).isLocal_eq x).trans hx) (hline ▸ hl) ho hcd

end Sys2Proof.Machine
end

section
/-! SUPPORT. A pin in a state that lists a context twice (18 R294; 21 R329). -/

namespace Sys2Proof.Machine

/-- A machine that lists context 0 twice, first as an invalid one of key slot 5, then as a valid one of slot 7. The firmware's line 0
stands on chip, with zero contents, and line 1 off chip under slot 7. -/
def State.listedTwice (lasting : List Nat) : State := { State.reset with
  ctxs := [(0, { (default : Context) with keySlot := 5 }), (0, { (default : Context) with valid := true, keySlot := 7 })]
  keys := [(511, 1)]
  lines := [(0, ⟨some .firmware, false, true, []⟩)]
  sealed := [(1, 7)]
  lasting := lasting }

/-- The address of a leaf whose last byte, with the pin count, is the first of line 1. -/
def splitLeaf : Nat := 249

/-! The leaf's first seven bytes stay as they are. -/

section
variable (lasting : List Nat) {a : Nat}

theorem State.listedTwice_lasting : (State.listedTwice lasting).lasting = lasting := rfl

theorem State.listedTwice_reachable (ha : a < 512) : (State.listedTwice lasting).reachable a = true := by
  have hhbm : (State.listedTwice lasting).isHbm a = true := decide_eq_true (by unfold hbmBytes; omega)
  have hcxl : (State.listedTwice lasting).isCxl a = false := decide_eq_false (by unfold cxlBase; omega)
  have hhost : isHost a = false := decide_eq_false (by unfold hostBase; omega)
  have hroldy : isRoldy a = false := decide_eq_false (by unfold roldyBase; omega)
  simp [State.reachable, State.isLocal, State.linkOf, hhbm, hcxl, hhost, hroldy]

/-- Line 0 is the firmware's, and holds zero where zero is written. -/
theorem State.listedTwice_put_zero (ha : a < 256) :
    (State.listedTwice lasting).ownPut .firmware a 0 = State.listedTwice lasting := by
  have hline : a / 256 = 0 := Nat.div_eq_of_lt ha
  have howned : (State.listedTwice lasting).owned a = true := by
    rw [State.owned, hline]
    rfl
  rw [State.ownPut, howned, if_pos rfl, State.writeOn, hline]
  rfl

theorem State.listedTwice_write_zeros (bs : List Byte) {n : Nat} (ha : a + n ≤ 256) :
    (State.listedTwice lasting).ownWrite .firmware a (List.replicate n 0 ++ bs) =
      (State.listedTwice lasting).ownWrite .firmware (a + n) bs := by
  induction n generalizing a with
  | zero => rfl
  | succ n ih =>
    rw [List.replicate_succ, List.cons_append, State.ownWrite, if_pos (State.listedTwice_reachable lasting (by omega)),
      State.listedTwice_put_zero lasting (by omega), ih (by omega), Nat.add_right_comm, Nat.add_assoc]

end

/-! The leaf's last byte is written under slot 5, and read by the firmware. -/

/-- Every region of the die cache, each with a lasting fault (R359). -/
def cacheRegions : List Nat := (List.range 512).map (fun r => regionNumber 8 (r / 64) 56 (r % 64))

theorem mem_cacheRegions (r : Fin 512) : regionNumber 8 (r.val / 64) 56 (r.val % 64) ∈ cacheRegions :=
  List.mem_map_of_mem (f := fun r => regionNumber 8 (r / 64) 56 (r % 64)) (List.mem_range.mpr r.isLt)

theorem State.takesLine_of_cacheRegions {s : State} (h : s.lasting = cacheRegions) (n : Nat) : s.takesLine n = false := by
  rw [State.takesLine, h, List.contains_iff_mem.mpr (mem_cacheRegions _), Bool.not_true]

/-- Line 1 is written in the name of context 0, whose entry is the list's first. -/
theorem State.listedTwice_put_last (b : Byte) : (State.listedTwice cacheRegions).ownWrite .firmware 256 [b] =
    (State.listedTwice cacheRegions).writeOff (.ctx 0) 256 b := by
  have howner : (State.listedTwice cacheRegions).ownerAt .firmware 256 = .ctx 0 := rfl
  have howned : (State.listedTwice cacheRegions).owned 256 = false := rfl
  have habsent : (State.listedTwice cacheRegions).lines.find? (256 / 256) = none := rfl
  have htakes : (State.listedTwice cacheRegions).takesLine (256 / 256) = false := State.takesLine_of_cacheRegions (State.listedTwice_lasting _) _
  have hlocal : (State.listedTwice cacheRegions).isLocal 256 = true := by decide +kernel
  simp only [State.ownWrite, State.listedTwice_reachable cacheRegions (show 256 < 512 by decide), State.ownPut, howned, howner,
    State.writeAs, hlocal, habsent, htakes, if_true, Bool.false_eq_true, if_false, Option.isNone_none, Bool.and_false,
    Bool.not_false, Bool.and_self]

/-- The leaf of the state, once pinned. -/
def pinnedLeaf : BitVec 64 := setFld (setFld ((State.listedTwice cacheRegions).leafAt splitLeaf) 57 7 21) 56 1 1

theorem leBytes_pinnedLeaf : leBytes 8 pinnedLeaf.toNat = List.replicate 7 0 ++ [43] := by decide +kernel

theorem State.listedTwice_putLeafAt : (State.listedTwice cacheRegions).putLeafAt splitLeaf pinnedLeaf =
    (State.listedTwice cacheRegions).writeOff (.ctx 0) 256 43 := by
  rw [State.putLeafAt, State.fwWrite, leBytes_pinnedLeaf, State.listedTwice_write_zeros cacheRegions [43] (show splitLeaf + 7 ≤ 256 by decide)]
  exact State.listedTwice_put_last 43

theorem State.listedTwice_leafReachable : (State.listedTwice cacheRegions).leafReachable splitLeaf = true := by decide +kernel

theorem State.listedTwice_pins : nfld ((State.listedTwice cacheRegions).leafAt splitLeaf) 57 7 = 20 := by decide +kernel

/-- What is read under the firmware's slot is not what was written under slot 5. -/
theorem State.listedTwice_pins_after :
    nfld (((State.listedTwice cacheRegions).writeOff (.ctx 0) 256 43).leafAt splitLeaf) 57 7 ≠ 21 := by decide +kernel

/-- Refutes O54: nothing in the statement says that the state lists a context once. Where it lists context 0 twice, the owner of a line
that a pin writes is found by the second entry and its key slot by the first, so that the firmware, which finds no owner of that slot,
reads the leaf back under another key than it was written with, and not the count that the pin has written. -/
theorem not_pinsAndMovesChangeTheirLeaf : ¬ Obligations.PinsAndMovesChangeTheirLeaf := by
  intro h
  obtain ⟨hpin, -⟩ := h (State.listedTwice cacheRegions) splitLeaf 0 0 rfl
  obtain ⟨t, -, ht, hcount, -⟩ := hpin State.listedTwice_leafReachable (by rw [State.listedTwice_pins]; decide)
  rw [State.listedTwice_pins] at ht hcount
  rw [ht.trans State.listedTwice_putLeafAt] at hcount
  exact State.listedTwice_pins_after hcount

end Sys2Proof.Machine
end

section
/-! SUPPORT. Contexts, regions, keys, cores, plug-ins and partitions (18 R288 to R297, R361, R362): what each event of the monitor and of
the firmware does where its condition holds, and where it does not. -/

namespace Sys2Proof.Machine

section
variable {s : State} {ctx : Nat} {x : Context}

theorem State.ctx_of_find? (hx : s.ctxs.find? ctx = some x) : s.ctx ctx = x := SMap.get_of_find? hx

/-! Contexts (R289, R291, R332). -/

theorem exec_contextActivate (part tenant : Nat) (d : BitVec 512) (s : State) :
    exec (.contextActivate ctx part tenant d) s = execContextActivate ctx part tenant d s := rfl

theorem contextActivate_ok {d : BitVec 512} (hctx : ctx < 256) (hcause : s.activationCause ctx d = 0) (part tenant : Nat) :
    exec (.contextActivate ctx part tenant d) s = .next { s.send (.activation ctx 0) with
      ctxs := s.ctxs.insert ctx (contextOf d part tenant) } := by
  simp only [exec_contextActivate, execContextActivate, if_neg (Nat.not_le.mpr hctx), hcause, if_true]
  rfl

theorem contextActivate_refused {d : BitVec 512} (hctx : ctx < 256) (hcause : s.activationCause ctx d ≠ 0) (part tenant : Nat) :
    exec (.contextActivate ctx part tenant d) s = .next (s.send (.activation ctx (s.activationCause ctx d))) := by
  simp only [exec_contextActivate, execContextActivate, if_neg (Nat.not_le.mpr hctx), if_neg hcause]

theorem contextChange_valid (hx : s.ctxs.find? ctx = some x) (hvalid : x.valid = true) (debug : Bool) (devq : DWord) :
    exec (.contextChange ctx debug devq) s = .next { s with ctxs := s.ctxs.insert ctx { x with debug := debug, devq := devq } } := by
  refine (if_pos ((congrArg Context.valid (State.ctx_of_find? hx)).trans hvalid)).trans ?_
  rw [SMap.modify_of_find? _ hx]

/-- What stands of a state once its context's grids have retired and its ladders have ended. -/
def State.released (s : State) (ctx : Nat) : State :=
  ((s.gridsOf ctx).foldl (fun (s : State) q => s.retireGrid q 2 0) s).resetLadders ctx

theorem State.released_rest (s : State) (ctx : Nat) : (s.released ctx).ctxs = s.ctxs ∧ ∀ e ∈ (s.released ctx).grids, e.2.ctx ≠ ctx := by
  obtain ⟨hend, hgone⟩ := ending_retireGrids 2 (fun _ => 0) (s.gridsOf ctx) s
  obtain ⟨u, hu, -, hlast⟩ := State.resetLadders_posted ((s.gridsOf ctx).foldl (fun (s : State) q => s.retireGrid q 2 0) s) ctx
  have hladders := (Ending.ofPosted (.ofMemory hu)).trans hlast
  refine ⟨hladders.ctxs.trans hend.ctxs, fun e he hctx => ?_⟩
  have hleft := hladders.grids e he
  exact hgone e hleft (List.mem_map.mpr ⟨e, List.mem_filter.mpr ⟨hend.grids e hleft, beq_iff_eq.mpr hctx⟩, rfl⟩)

theorem contextRelease_releasable (h : s.releasable ctx = true) : exec (.contextRelease ctx) s = .next { s.released ctx with
    ctxs := (s.released ctx).ctxs.modify ctx (fun x => { x.closeAll with valid := false, sweeping := true }) } := if_pos h

theorem contextRelease_kept (h : s.releasable ctx = false) : exec (.contextRelease ctx) s = .next s :=
  if_neg (Bool.not_eq_true _ ▸ h)

/-- What the sweep of a context leaves. -/
def State.swept (s : State) (ctx : Nat) : State := { s with
  lines := s.lines.mapVals (Line.swept ctx)
  tags := s.tags.keep (fun t => t.ctx != ctx)
  tlb := s.tlb.filter (fun e => e.ctx != ctx)
  tables := s.tables.filter (fun t => t.ctx != ctx)
  queues := s.queues.keep (fun q => q.ctx.toNat != ctx)
  ctxs := s.ctxs.modify ctx Context.swept }

theorem releaseSweepDone_owed (h : ∃ o ∈ s.owed, o.span.1 = ctx) : exec (.releaseSweepDone ctx) s = .next s := by
  obtain ⟨o, ho, hspan⟩ := h
  refine if_neg fun hdone => ?_
  have hall := List.all_eq_true.mp (Bool.and_eq_true_iff.mp hdone).2 o ho
  exact bne_iff_ne.mp hall hspan

theorem releaseSweepDone_sweeps (hx : s.ctxs.find? ctx = some x) (hsweeping : x.sweeping = true) (howed : ∀ o ∈ s.owed, o.span.1 ≠ ctx) :
    exec (.releaseSweepDone ctx) s = .next (s.swept ctx) := by
  refine if_pos (Bool.and_eq_true_iff.mpr ⟨?_, List.all_eq_true.mpr fun o ho => bne_iff_ne.mpr (howed o ho)⟩)
  rw [State.ctx_of_find? hx, hsweeping]

theorem State.swept_line {n : Nat} {l : Line} (hl : s.lines.find? n = some l) : (s.swept ctx).lines.find? n =
    some (if l.owner = some (.ctx ctx) then ⟨none, false, false, []⟩ else l) :=
  (SMap.find?_map s.lines (fun _ => Line.swept ctx) n).trans (congrArg (Option.map (Line.swept ctx)) hl)

theorem kill_valid (hx : s.ctxs.find? ctx = some x) (hvalid : x.valid = true) :
    exec (.kill ctx) s = .next (s.endContext ctx .kill) :=
  if_pos ((congrArg Context.valid (State.ctx_of_find? hx)).trans hvalid)

/-! Regions (R292, R293). -/

theorem State.mem_flyingWhere {p : Workgroup → Access → Bool} (s : State) :
    s.flyingWhere p ≠ [] ↔ ∃ e ∈ s.wgs, ∃ c ∈ e.2.crews, ∃ a ∈ c.2.flying, p e.2 a = true := by
  simp [State.flyingWhere, List.flatMap_eq_nil_iff, List.filter_eq_nil_iff]

/-- A part leads to no address of an empty range. -/
theorem State.leadsTo_empty (s : State) (w : Workgroup) (a : Access) (base : Nat) (p : Part) : s.leadsTo w a (base, 0) p = false := by
  have hinside (pa : Nat) : decide (base ≤ pa ∧ pa < base + 0) = false := decide_eq_false (by omega)
  simp only [State.leadsTo, hinside]
  repeat' split
  all_goals exact Bool.and_false _

/-- The pages of a move meet a region. -/
def Region.meets (r : Region) (pa n : Nat) : Prop := r.base.toNat ≤ r.limit.toNat ∧ pa ≤ r.limit.toNat ∧ r.base.toNat < pa + n

theorem overlap_region {r : Region} (h : r.base.toNat ≤ r.limit.toNat) (pa n : Nat) :
    overlap pa n r.base.toNat (r.limit.toNat + 1 - r.base.toNat) = true ↔ r.meets pa n := by
  rw [overlap, decide_eq_true_iff, Region.meets]
  omega

theorem State.movesIn_iff {r : Region} (hvalid : r.valid = true) : s.movesIn r.range = true ↔
    ∃ m ∈ s.moves, ∃ frame size, leafPage m.e0 = some (frame, size) ∧ (r.meets frame size ∨ r.meets (moveDst m.cmd) size) := by
  rw [State.movesIn, Region.range, hvalid, if_pos rfl, Bool.and_eq_true, bne_iff_ne, List.any_eq_true]
  constructor
  · rintro ⟨hsize, m, hm, hpage⟩
    have hrange : r.base.toNat ≤ r.limit.toNat := by
      dsimp only at hsize
      omega
    split at hpage
    next frame size hleaf =>
      rw [Bool.or_eq_true, overlap_region hrange, overlap_region hrange] at hpage
      exact ⟨m, hm, frame, size, hleaf, hpage⟩
    next => cases hpage
  · rintro ⟨m, hm, frame, size, hleaf, hmeets⟩
    have hrange : r.base.toNat ≤ r.limit.toNat := hmeets.elim (·.1) (·.1)
    refine ⟨by dsimp only; omega, m, hm, ?_⟩
    rw [hleaf]
    dsimp only
    rwa [Bool.or_eq_true, overlap_region hrange, overlap_region hrange]

/-- An access of a crew or a move is in flight to a region in force. -/
def State.busyIn (s : State) (r : Region) : Prop := r.valid = true
  ∧ (s.flyingWhere (fun w a => a.parts.any (s.leadsTo w a (r.base.toNat, r.limit.toNat + 1 - r.base.toNat))) ≠ []
    ∨ ∃ m ∈ s.moves, ∃ frame size, leafPage m.e0 = some (frame, size) ∧ (r.meets frame size ∨ r.meets (moveDst m.cmd) size))

theorem State.flyingTo_iff (s : State) (r : Region) : s.flyingTo r = true ↔ s.busyIn r := by
  unfold State.flyingTo State.busyIn
  cases hvalid : r.valid with
  | true =>
    rw [Bool.or_eq_true, State.movesIn_iff hvalid, Region.range, hvalid, if_pos rfl, Bool.not_eq_true', List.isEmpty_eq_false_iff]
    exact (and_iff_right rfl).symm
  | false =>
    have hnone : s.flyingWhere (fun w a => a.parts.any (s.leadsTo w a (r.base.toNat, 0))) = [] := by
      refine not_ne_iff.mp fun h => ?_
      obtain ⟨e, -, c, -, a, -, hparts⟩ := s.mem_flyingWhere.mp h
      obtain ⟨p, -, hp⟩ := List.any_eq_true.mp hparts
      exact Bool.false_ne_true ((s.leadsTo_empty e.2 a _ p).symm.trans hp)
    simp [Region.range, hvalid, hnone, State.movesIn]

section
variable {i : Nat} {e : BitVec 128}

theorem exec_regionTableWrite (s : State) : exec (.regionTableWrite i e) s = execRegionTableWrite i e s := rfl

/-- No other change of the table is in progress. -/
theorem regionTableWrite_turn (hi : i < 64) (hhold : s.regionHold = none ∨ s.regionHold = some (i, e)) :
    ¬ (64 ≤ i ∨ s.regionHold.any (fun h => h != (i, e)) = true) := by
  rcases hhold with h | h <;> simp [h, hi]

theorem regionTableWrite_done (hi : i < 64) (hhold : s.regionHold = none ∨ s.regionHold = some (i, e))
    (hold : ¬ s.busyIn (s.regions.get i)) (hnew : ¬ s.busyIn (regionOf e)) :
    exec (.regionTableWrite i e) s = .next { s with regions := s.regions.put i (regionOf e), regionHold := none } := by
  rw [exec_regionTableWrite, execRegionTableWrite, if_neg (regionTableWrite_turn hi hhold), if_neg]
  rw [Bool.or_eq_true, s.flyingTo_iff, s.flyingTo_iff]
  exact not_or.mpr ⟨hold, hnew⟩

theorem regionTableWrite_waits (hi : i < 64) (hhold : s.regionHold = none ∨ s.regionHold = some (i, e))
    (hbusy : s.busyIn (s.regions.get i) ∨ s.busyIn (regionOf e)) :
    exec (.regionTableWrite i e) s = .next { s with regionHold := some (i, e) } := by
  rw [exec_regionTableWrite, execRegionTableWrite, if_neg (regionTableWrite_turn hi hhold), if_pos]
  rwa [Bool.or_eq_true, s.flyingTo_iff, s.flyingTo_iff]

theorem regionTableWrite_other {h : Nat × BitVec 128} (hhold : s.regionHold = some h) (hne : h ≠ (i, e)) :
    exec (.regionTableWrite i e) s = .next s :=
  if_pos (.inr (by rw [hhold]; exact bne_iff_ne.mpr hne))

end

/-! Cores that take workgroups (R292, R293, R361). -/

theorem State.mem_openCores {die core : Nat} (h : core ∈ s.openCores ctx die) :
    (die, core) ∉ (s.partitions.get (s.ctx ctx).part).leaving ∧ s.regionHold = none := by
  have hopen := (List.mem_filter.mp h).2
  simp only [Bool.and_eq_true, Bool.not_eq_true', List.contains_eq_mem, decide_eq_false_iff_not, Option.isNone_iff_eq_none] at hopen
  obtain ⟨⟨⟨⟨⟨⟨-, hleaving⟩, -⟩, -⟩, -⟩, hhold⟩, -⟩ := hopen
  exact ⟨hleaving, hhold⟩

theorem State.openCores_held (hhold : s.regionHold ≠ none) (ctx die : Nat) : s.openCores ctx die = [] :=
  List.eq_nil_iff_forall_not_mem.mpr fun _ hcore => hhold (State.mem_openCores hcore).2

/-! Keys (R294). -/

theorem State.keyNamed_iff (s : State) (i : Nat) : s.ctxs.values.any (fun x => x.valid && x.keySlot.toNat == i) = true ↔
    ∃ e ∈ s.ctxs, e.2.valid = true ∧ e.2.keySlot.toNat = i := by
  simp [SMap.values]

theorem keySlotWrite_free {i : Nat} {key : BitVec 512} (hi : i < 512) (hfree : ∀ e ∈ s.ctxs, e.2.valid = true → e.2.keySlot.toNat ≠ i) :
    exec (.keySlotWrite i key) s = .next { s with keys := s.keys.insert i key } := by
  refine if_neg ?_
  rw [s.keyNamed_iff]
  rintro (h | ⟨e, he, hvalid, hslot⟩)
  · omega
  · exact hfree e he hvalid hslot

theorem keySlotWrite_named {i : Nat} {key : BitVec 512} (hnamed : ∃ e ∈ s.ctxs, e.2.valid = true ∧ e.2.keySlot.toNat = i) :
    exec (.keySlotWrite i key) s = .next s := if_pos (.inr ((s.keyNamed_iff i).mpr hnamed))

/-! Worlds of cores (R292). -/

theorem State.occupied_iff (s : State) (die core : Nat) :
    s.occupied die core = true ↔ ∃ e ∈ s.wgs, e.2.die = die ∧ e.2.core = core := by
  simp [State.occupied, SMap.values]

theorem coreWorldChange_free {die core : Nat} (hdie : die < 8) (hcore : core < 56) (hfree : s.occupied die core = false) (sec : Bool) :
    ∃ t, exec (.coreWorldChange die core sec) s = .next t ∧ t.secureCores.contains (coreKey die core) = sec := by
  refine ⟨_, if_neg ?_, ?_⟩
  · rw [hfree, Bool.false_or, decide_eq_true_iff, Config.dies, Config.cores]
    omega
  · cases sec <;> simp

theorem coreWorldChange_occupied {die core : Nat} (h : s.occupied die core = true) (sec : Bool) :
    exec (.coreWorldChange die core sec) s = .next s := if_pos (by rw [h, Bool.true_or])

/-! Plug-ins (R297, R362). -/

theorem exec_pluginRestart (tenant : Nat) (s : State) : exec (.pluginRestart tenant) s = execPluginRestart tenant s := rfl

theorem State.accepts_iff (s : State) (im : FlashImage) : s.accepts im = true ↔
    Sha.hash im.key = s.keyHash ∧ im.signature = Config.sealOf im.key (Sha.hash im.bytes) ∧ s.rollback ≤ im.version := by
  rw [State.accepts, Bool.and_eq_true, Bool.and_eq_true, beq_iff_eq, beq_iff_eq, decide_eq_true_iff, and_assoc, FlashImage.digest]

theorem pluginRestart_accepted {tenant : Nat} {im : FlashImage} (him : s.images[2 + tenant]? = some im) (h : s.accepts im = true) :
    exec (.pluginRestart tenant) s = .next { s with stopped := s.stopped.filter (fun x => x != tenant) } := by
  rw [exec_pluginRestart, execPluginRestart, State.reloads, him]
  exact congrArg Host.Outcome.next (if_pos h)

theorem pluginRestart_refused {tenant : Nat} {im : FlashImage} (him : s.images[2 + tenant]? = some im) (h : ¬ s.accepts im = true) :
    exec (.pluginRestart tenant) s = .next s := by
  rw [exec_pluginRestart, execPluginRestart, State.reloads, him]
  exact congrArg Host.Outcome.next (if_neg h)

theorem pluginRestart_no_image {tenant : Nat} (him : s.images[2 + tenant]? = none) : exec (.pluginRestart tenant) s = .next s := by
  rw [exec_pluginRestart, execPluginRestart, State.reloads, him]
  rfl

theorem State.stopPlugin_stopped (s : State) (tenant : Nat) : (s.stopPlugin tenant).stopped.contains tenant = true := by
  unfold State.stopPlugin
  dsimp only
  split
  next h => exact h
  next => exact List.contains_iff_mem.mpr List.mem_cons_self

theorem State.stopPlugin_queue {n : Nat} {q : Queue} (tenant : Nat) (hq : s.queues.find? n = some q) :
    ∃ q', (s.stopPlugin tenant).queues.find? n = some q' ∧ { q' with policy := q.policy } = q
      ∧ q'.policy = if (s.ctx q.ctx.toNat).tenant = tenant then none else q.policy := by
  refine ⟨if (s.ctx q.ctx.toNat).tenant = tenant then { q with policy := none } else q, ?_, ?_, ?_⟩
  · exact (SMap.find?_map s.queues (fun _ q => if (s.ctx q.ctx.toNat).tenant = tenant then { q with policy := none } else q) n).trans
      (by rw [hq]; rfl)
  · split <;> rfl
  · split <;> rfl

/-- An address lies in one of the four windows of a tenant's plug-in. -/
def State.inWindow (s : State) (tenant addr : Nat) : Prop :=
  ∃ i b, i < 4 ∧ s.windows.find? (4 * tenant + i) = some b ∧ b.1 ≤ addr ∧ addr < b.1 + b.2

theorem State.inWindow_iff (s : State) (tenant addr : Nat) : ([0, 1, 2, 3].any fun i => match s.windows.find? (4 * tenant + i) with
    | some (base, size) => decide (base ≤ addr ∧ addr < base + size)
    | none => false) = true ↔ s.inWindow tenant addr := by
  rw [List.any_eq_true]
  constructor
  · rintro ⟨i, hi, hin⟩
    split at hin
    next base size hb => exact ⟨i, (base, size), by fin_cases hi <;> decide, hb, decide_eq_true_iff.mp hin⟩
    next => cases hin
  · rintro ⟨i, b, hi, hb, hin⟩
    refine ⟨i, by interval_cases i <;> decide, ?_⟩
    rw [hb]
    exact decide_eq_true hin

theorem pluginWindowViolation_inside {tenant addr : Nat} (h : s.inWindow tenant addr) :
    exec (.pluginWindowViolation tenant addr) s = .next s := if_pos ((s.inWindow_iff tenant addr).mpr h)

theorem pluginWindowViolation_outside {tenant addr : Nat} (h : ¬ s.inWindow tenant addr) :
    exec (.pluginWindowViolation tenant addr) s = .next (s.stopPlugin tenant) := if_neg (mt (s.inWindow_iff tenant addr).mp h)

/-! Partitions (R361). -/

/-- The cores of a partition that are not among those that it is given. -/
def State.leaving (s : State) (part : Nat) (named : List (Nat × Nat)) : List (Nat × Nat) :=
  (s.partitions.get part).cores.filter (fun p => !(s.givenCores named).contains p)

theorem partitionResize_waits {part : Nat} {named : List (Nat × Nat)} (h : s.standsOn part (s.leaving part named) = true) :
    exec (.partitionResize part named) s = .next { s with
      partitions := s.partitions.insert part { cores := s.givenCores named ++ s.leaving part named, leaving := s.leaving part named } } :=
  if_pos h

/-- A partition of the cores that it is given. -/
def State.resized (s : State) (part : Nat) (named : List (Nat × Nat)) : State :=
  { s with partitions := s.partitions.insert part { cores := s.givenCores named, leaving := [] } }

/-- The drawn indices of a grid of the partition that stand on a die that has left it pass on. -/
def State.handedOver (t : State) (part : Nat) (g : Grid) : Grid :=
  if (t.ctx g.ctx).part = part then { g with drawn := handOver (t.diesOf g.ctx) g.drawn } else g

theorem partitionResize_done {part : Nat} {named : List (Nat × Nat)} (h : s.standsOn part (s.leaving part named) = false) :
    exec (.partitionResize part named) s = .next { s.resized part named with
      grids := s.grids.mapVals ((s.resized part named).handedOver part) } := if_neg (Bool.not_eq_true _ ▸ h)

end

theorem SMap.mem_mapVals {α : Type} {m : SMap α} {e : Nat × α} (f : α → α) (he : e ∈ m) : (e.1, f e.2) ∈ m.mapVals f :=
  List.mem_map_of_mem (f := fun e => (e.1, f e.2)) he

/-- Settles O57: each event's two cases, from the lemmas above. -/
theorem contextsRegionsAndKeysChangeByTheirRules : Obligations.ContextsRegionsAndKeysChangeByTheirRules := by
  intro s ctx part tenant d
  refine ⟨?activate, fun hctx hcause => contextActivate_refused hctx hcause part tenant, fun x debug devq hx hvalid =>
    contextChange_valid hx hvalid debug devq, ?release, contextRelease_kept, releaseSweepDone_owed, ?sweep,
    fun x hx hvalid => ⟨_, kill_valid hx hvalid, stopped_endContext s ctx .kill⟩, ?region,
    fun hhold c die => State.openCores_held hhold c die, fun i key hi hfree => keySlotWrite_free hi hfree,
    fun i key hnamed => keySlotWrite_named hnamed, ?core, ?restart, pluginRestart_no_image, ?plugin, ?partition,
    fun die core hleaving hopen => (State.mem_openCores hopen).1 hleaving⟩
  case activate =>
    intro hctx hcause
    have hnew : (State.ctx { s.send (.activation ctx 0) with ctxs := s.ctxs.insert ctx (contextOf d part tenant) } ctx)
        = contextOf d part tenant := SMap.get_insert_self _ _ _
    refine ⟨_, contextActivate_ok hctx hcause part tenant, ?_⟩
    rw [hnew]
    exact ⟨rfl, rfl, rfl, rfl, rfl, rfl, rfl, rfl⟩
  case release =>
    intro x hx hreleasable
    obtain ⟨hctxs, hgrids⟩ := s.released_rest ctx
    refine ⟨_, contextRelease_releasable hreleasable, ?_⟩
    rw [State.ctx, hctxs, SMap.get_modify_of_find? _ hx]
    exact ⟨rfl, rfl, rfl, hgrids⟩
  case sweep =>
    intro x hx hsweeping howed
    have hswept : (s.swept ctx).ctx ctx = x.swept := SMap.get_modify_of_find? _ hx
    refine ⟨_, releaseSweepDone_sweeps hx hsweeping howed, ?_⟩
    rw [hswept]
    refine ⟨rfl, fun e => ?_, fun e => ?_, fun e => ?_, fun e => ?_, rfl, rfl, rfl, fun n l hl => State.swept_line hl⟩
    all_goals exact List.mem_filter.trans (and_congr_right fun _ => bne_iff_ne)
  case region =>
    intro i e hi
    exact ⟨fun hhold => ⟨regionTableWrite_done hi hhold, regionTableWrite_waits hi hhold⟩, fun h => regionTableWrite_other⟩
  case core =>
    intro die core sec hdie hcore
    refine ⟨fun hfree => coreWorldChange_free hdie hcore ?_ sec, fun hheld => coreWorldChange_occupied ((s.occupied_iff die core).mpr hheld) sec⟩
    refine Bool.eq_false_iff.mpr fun hheld => ?_
    obtain ⟨e, he, hat⟩ := (s.occupied_iff die core).mp hheld
    exact hfree e he hat
  case restart =>
    intro im him
    exact ⟨fun hgood => pluginRestart_accepted him ((s.accepts_iff im).mpr hgood),
      fun hbad => pluginRestart_refused him (mt (s.accepts_iff im).mp hbad)⟩
  case plugin =>
    have hstop {j : Instr} (hj : exec j s = .next (s.stopPlugin tenant)) : ∃ t, exec j s = .next t ∧ t.stopped.contains tenant = true
        ∧ t.mem = s.mem ∧ ∀ n q, s.queues.find? n = some q → ∃ q', t.queues.find? n = some q' ∧ { q' with policy := q.policy } = q
          ∧ q'.policy = if (s.ctx q.ctx.toNat).tenant = tenant then none else q.policy :=
      ⟨_, hj, s.stopPlugin_stopped tenant, rfl, fun n q hq => State.stopPlugin_queue tenant hq⟩
    exact ⟨hstop rfl, fun addr hout => hstop (pluginWindowViolation_outside hout), fun addr hin => pluginWindowViolation_inside hin⟩
  case partition =>
    intro named
    exact ⟨partitionResize_waits, fun h => ⟨_, partitionResize_done h, rfl, rfl, fun e he =>
      SMap.mem_mapVals ((s.resized part named).handedOver part) he⟩⟩

end Sys2Proof.Machine
end

section
/-! SUPPORT. Invariants of every step (19 R306; 22 R333; 24 R359), and the words that the spec writes out beside their fields. -/

namespace Sys2Proof.Machine

/-- Settles O3: what a step keeps (`keeps_step`) has acceptance numbers below the next one among it. -/
theorem acceptanceNumbersStayBelow : Obligations.AcceptanceNumbersStayBelow := by
  unfold Obligations.AcceptanceNumbersStayBelow
  intro s t hn ht
  exact (keeps_step s t ht).numbers hn

/-- Settles O4: what a step keeps (`keeps_step`) has everything sent out before among it. -/
theorem messagesAreNeverWithdrawn : Obligations.MessagesAreNeverWithdrawn := by
  unfold Obligations.MessagesAreNeverWithdrawn
  intro s t ht
  exact (keeps_step s t ht).out

/-- Settles O8: the decoder runs on each word. -/
theorem specWordsDecode : Obligations.SpecWordsDecode := by
  unfold Obligations.SpecWordsDecode
  refine ⟨rfl, rfl, rfl, rfl, rfl, rfl, rfl, rfl, rfl, rfl, rfl, rfl, ⟨_, rfl, ?_⟩, ⟨_, rfl, ?_⟩, ⟨_, rfl, ?_⟩, ⟨_, rfl, ?_⟩, ⟨_, rfl, ?_⟩⟩
  all_goals decide

end Sys2Proof.Machine
end

section
/-! SUPPORT. Contexts that end one after the other (22 R310, R332, R342; 25 R364, R365): what ends one adds no work to another. -/

namespace Sys2Proof.Machine

/-- From `s` to `t` no work is added: each workgroup, grid and ladder is of a context that had one, a queue keeps its function and context
and is not activated, and a device queue that is off stays off. -/
structure Waning (s t : State) : Prop where
  wgs : ∀ e ∈ t.wgs, ∃ v ∈ s.wgs, v.2.ctx = e.2.ctx
  grids : ∀ e ∈ t.grids, e ∈ s.grids
  ladders : ∀ l ∈ t.ladders, ∃ m ∈ s.ladders, m.ctx = l.ctx
  queues : ∀ e ∈ t.queues, ∃ q ∈ s.queues, q.2.func = e.2.func ∧ q.2.ctx = e.2.ctx ∧ (q.2.state = .disabled → e.2.state = .disabled)
  deviceOff : ∀ c, (t.ctxs.find? c).isSome = true → (s.ctxs.find? c).isSome = true ∧ ((s.ctx c).devOff = true → (t.ctx c).devOff = true)

namespace Waning
variable {s t u : State}

theorem refl (s : State) : Waning s s :=
  ⟨fun e he => ⟨e, he, rfl⟩, fun _ he => he, fun l hl => ⟨l, hl, rfl⟩, fun e he => ⟨e, he, rfl, rfl, id⟩, fun _ h => ⟨h, id⟩⟩

theorem trans (h : Waning s t) (g : Waning t u) : Waning s u where
  wgs e he := by
    obtain ⟨v, hv, hc⟩ := g.wgs e he
    obtain ⟨v', hv', hc'⟩ := h.wgs v hv
    exact ⟨v', hv', hc'.trans hc⟩
  grids e he := h.grids e (g.grids e he)
  ladders l hl := by
    obtain ⟨m, hm, hc⟩ := g.ladders l hl
    obtain ⟨m', hm', hc'⟩ := h.ladders m hm
    exact ⟨m', hm', hc'.trans hc⟩
  queues e he := by
    obtain ⟨q, hq, hf, hc, hs⟩ := g.queues e he
    obtain ⟨q', hq', hf', hc', hs'⟩ := h.queues q hq
    exact ⟨q', hq', hf'.trans hf, hc'.trans hc, hs ∘ hs'⟩
  deviceOff c hc := by
    obtain ⟨ht, htu⟩ := g.deviceOff c hc
    obtain ⟨hs, hst⟩ := h.deviceOff c ht
    exact ⟨hs, htu ∘ hst⟩

/-- What only ends grids and changes no ladder's context. -/
theorem ofEnding (h : Ending s t) (hl : ∀ l ∈ t.ladders, ∃ m ∈ s.ladders, m.ctx = l.ctx) : Waning s t where
  wgs := h.wgs
  grids := h.grids
  ladders := hl
  queues e he := ⟨e, h.queues ▸ he, rfl, rfl, id⟩
  deviceOff c hc := by
    rw [State.ctx, State.ctx, h.ctxs]
    exact ⟨h.ctxs ▸ hc, id⟩

theorem ofPosted (h : Posted s t) : Waning s t :=
  ofEnding (.ofPosted h) fun l hl => ⟨l, ((congrArg State.ladders h).trans rfl : t.ladders = s.ladders) ▸ hl, rfl⟩

theorem foldl {α : Type} {f : State → α → State} (h : ∀ s x, Waning s (f s x)) (l : List α) (s : State) : Waning s (l.foldl f s) := by
  induction l generalizing s with
  | nil => exact refl s
  | cons x l ih => exact (h s x).trans (ih _)

/-- A context without work stays so. -/
theorem stopped {c : Nat} (h : Waning s t) (g : Stopped s c) : Stopped t c where
  noWorkgroup e he hc := by
    obtain ⟨v, hv, hvc⟩ := h.wgs e he
    exact g.noWorkgroup v hv (hvc.trans hc)
  noGrid e he := g.noGrid e (h.grids e he)
  noLadder l hl hc := by
    obtain ⟨m, hm, hmc⟩ := h.ladders l hl
    exact g.noLadder m hm (hmc.trans hc)
  queuesOff e he hc := by
    obtain ⟨q, hq, -, hqc, hoff⟩ := h.queues e he
    exact hoff (g.queuesOff q hq (by rw [hqc]; exact hc))
  deviceOff hc := by
    obtain ⟨hs, hoff⟩ := h.deviceOff c hc
    exact hoff (g.deviceOff hs)

end Waning

theorem waning_childDone (s : State) (p : Option Parent) : Waning s (s.childDone p) := by
  refine .ofEnding (ending_childDone s p) fun l hl => ?_
  unfold State.childDone at hl
  split at hl
  · obtain ⟨m, hm, rfl⟩ := List.mem_map.1 hl
    exact ⟨m, hm, rfl⟩
  · exact ⟨l, hl, rfl⟩

theorem waning_retireGrid (s : State) (seq result : Nat) (fault : BitVec 384) : Waning s (s.retireGrid seq result fault) := by
  unfold State.retireGrid
  split
  · exact .refl s
  · have hgone : Waning s { s with grids := s.grids.erase seq } :=
      .ofEnding ⟨fun e he => ⟨e, he, rfl⟩, fun e he => (SMap.mem_erase.1 he).1, rfl, rfl⟩ fun l hl => ⟨l, hl, rfl⟩
    have hone {u : State} (c : Nat) (copy : LaunchCopy) (x : Completion) (p : Option Parent) :
        Waning u ((u.complete c copy x).childDone p) := (Waning.ofPosted (posted_complete _ _ _ _)).trans (waning_childDone _ _)
    dsimp only
    split
    · exact hgone.trans (hone _ _ _ _)
    · exact (hgone.trans (hone _ _ _ _)).trans (hone _ _ _ _)

theorem waning_stopContext (s : State) (c : Nat) : Waning s (s.stopContext c) := by
  unfold State.stopContext
  rw [discard_rest]
  refine ⟨fun e he => ⟨e, (List.mem_filter.1 he).1, rfl⟩, fun _ he => he, fun l hl => ⟨l, hl, rfl⟩, fun e he => ?_, fun d hd => ?_⟩
  · obtain ⟨q, hq, rfl⟩ := List.mem_map.1 he
    refine ⟨q, hq, ?_⟩
    dsimp only
    split <;> simp
  · have hmod (f : Context → Context) : SMap.find? (s.ctxs.modify c f) d = if d = c then (s.ctxs.find? c).map f else s.ctxs.find? d := by
      unfold SMap.modify
      split
      · next x hx => rw [SMap.find?_insert, hx]; rfl
      · next hx =>
        split
        · next h => rw [h, hx]; rfl
        · rfl
    simp only [State.ctx, SMap.get, hmod] at hd ⊢
    by_cases h : d = c
    · subst h
      simp only [if_true] at hd ⊢
      cases hf : s.ctxs.find? d with
      | none => rw [hf] at hd; cases hd
      | some x => exact ⟨rfl, fun _ => rfl⟩
    · rw [if_neg h] at hd ⊢
      exact ⟨hd, id⟩

theorem waning_resetLadders (s : State) (c : Nat) : Waning s (s.resetLadders c) := by
  obtain ⟨u, hu, hladders, hend⟩ := s.resetLadders_posted c
  exact (Waning.ofPosted (.ofMemory hu)).trans (.ofEnding hend fun l hl => ⟨l, (List.mem_filter.1 (hladders ▸ hl)).1, rfl⟩)

theorem waning_endContext (s : State) (c : Nat) (code : FaultCode) : Waning s (s.endContext c code) :=
  (((Waning.ofPosted (posted_report _ _)).trans (waning_stopContext _ _)).trans
    (.foldl (fun s q => waning_retireGrid s q _ _) _ _)).trans (waning_resetLadders _ _)

theorem waning_endContexts (code : FaultCode) (cs : List Nat) (s : State) :
    Waning s (cs.foldl (fun (s : State) c => s.endContext c code) s) := .foldl (fun s c => waning_endContext s c code) cs s

/-- Each of the contexts that end in turn is left without work. -/
theorem stopped_endContexts (code : FaultCode) (cs : List Nat) (s : State) {c : Nat} (hc : c ∈ cs) :
    Stopped (cs.foldl (fun (s : State) c => s.endContext c code) s) c := by
  induction cs generalizing s with
  | nil => cases hc
  | cons d cs ih =>
    rcases List.mem_cons.1 hc with rfl | hc
    · exact (waning_endContexts code cs _).stopped (stopped_endContext s c code)
    · exact ih _ hc

/-! The events. -/

theorem functionLevelReset_disables (s : State) (func : Nat) (hup : s.downLinks.contains 0 = false) :
    ∃ t, exec (.functionLevelReset func) s = .next t ∧ (∀ e ∈ t.queues, e.2.func.toNat = func → e.2.state = .disabled)
      ∧ ∀ c ∈ s.boundTo func, Stopped t c := by
  have hw := waning_endContexts .resetfn (s.boundTo func)
    { s with queues := s.queues.mapVals (fun q => if q.func.toNat == func then { q with state := .disabled } else q) }
  refine ⟨_, congrArg Host.Outcome.next (if_neg (by rw [hup]; exact Bool.false_ne_true)), fun e he hf => ?_,
    fun c hc => stopped_endContexts _ _ _ hc⟩
  obtain ⟨q, hq, hqf, -, hoff⟩ := hw.queues e he
  obtain ⟨x, -, rfl⟩ := List.mem_map.1 hq
  refine hoff ?_
  dsimp only at hqf ⊢
  split at hqf
  · next h => rw [if_pos h]
  · next h => exact absurd (by rw [hqf]; simpa using hf) h

theorem thermalLimit_ends (s : State) (die : Nat) : ∃ t, exec (.thermalLimit die) s = .next t ∧ t.hot.contains die = true
    ∧ ∀ e ∈ s.ctxs, e.2.valid = true → s.ctxs.find? e.1 = some e.2 → Stopped t e.1 := by
  refine ⟨_, rfl, by simp, fun e he hv hf => ?_⟩
  have hctx : s.ctx e.1 = e.2 := SMap.get_of_find? hf
  have hends := stopped_endContexts .kill (s.ctxs.keys.filter (fun c => (s.ctx c).valid)) s (c := e.1)
    (List.mem_filter.2 ⟨List.mem_map_of_mem he, by rw [hctx]; exact hv⟩)
  exact stopped_congr hends rfl rfl rfl rfl rfl

theorem linkTrainingFailure_stays (s : State) (link : Nat) :
    ∃ t, exec (.linkTrainingFailure link) s = .next t ∧ t.downLinks.contains link = true ∧ t.mem = s.mem ∧ t.wgs = s.wgs := by
  refine ⟨_, rfl, ?_⟩
  split
  · next h => exact ⟨h, rfl, rfl⟩
  · exact ⟨by simp, rfl, rfl⟩

/-! Room while a die is at its thermal limit. -/

section
variable {s : State} (hhot : s.hot ≠ [])
include hhot

theorem State.openCores_hot (c die : Nat) : s.openCores c die = [] := by
  refine List.filter_eq_nil_iff.2 fun core _ => ?_
  have : s.hot.isEmpty = false := by simpa using hhot
  simp [this]

theorem State.pickCore_hot (g : Grid) (die : Nat) : s.pickCore g die = none := by
  rw [State.pickCore, State.pickFor, State.openCores_hot hhot]
  rfl

theorem State.capacity_hot (seq : Nat) (g : Grid) (die n : Nat) : State.capacity seq g die n s = 0 := by
  cases n with
  | zero => rfl
  | succ n => rw [State.capacity, State.pickCore_hot hhot]

theorem State.shares_hot (seq : Nat) (g : Grid) (n : Nat) (ds : List Nat) : ((s.shares seq g n ds).map (·.2)).sum = 0 := by
  induction ds generalizing n with
  | nil => rfl
  | cons d ds ih => simp [State.shares, State.capacity_hot hhot, ih]

theorem State.fits_hot {e : Nat × Grid} (ht : e.2.copy.total ≠ 0) : s.fits e = none := by
  have h : ¬ (0 = e.2.copy.total) := fun h => ht h.symm
  simp [State.fits, State.shares_hot hhot, h]

theorem State.resumePlaces_hot (a : Area) (die : Nat) : s.resumePlaces a die = none := by
  have : s.hot.isEmpty = false := by simpa using hhot
  simp [State.resumePlaces, this]

end

/-- Settles O58: contexts that end in turn are each left without work, and without an open core nothing finds room. -/
theorem resetsAndLimitsEndContexts : Obligations.ResetsAndLimitsEndContexts := by
  intro s func die link
  refine ⟨functionLevelReset_disables s func, fun hdown => congrArg Host.Outcome.next (if_pos hdown), thermalLimit_ends s die,
    fun hhot => ⟨State.openCores_hot hhot, fun e d => ?_, fun e => State.fits_hot hhot, State.resumePlaces_hot hhot⟩, rfl, linkTrainingFailure_stays s link⟩
  simp [State.canAdmit, State.canDraw, State.pickCore_hot hhot]
end Sys2Proof.Machine
end

section
/-! SUPPORT. Bring-up and attestation (25 R362 to R364): what package reset leaves, what acts before bring-up has ended, and the answers of the
SPDM responder. -/

namespace Sys2Proof.Machine

/-! Package reset. -/

theorem exec_packageReset (flash : Option (List FlashImage)) (s : State) : exec (.packageReset flash) s = .next { s.cleared with
    images := (flash.getD []).takeWhile s.accepts
    boot := if 2 ≤ (flash.getD []).length ∧ (flash.getD []).all s.accepts then .done else .recovery } := rfl

theorem State.cleared_line {s : State} {n : Nat} {l : Line} (h : s.lines.find? n = some l) :
    s.cleared.lines.find? n = some ⟨none, false, false, []⟩ := by
  refine (SMap.find?_map s.lines (fun _ _ => default) n).trans ?_
  rw [h]
  rfl

/-- Images that are all good are loaded, and bring-up ends. -/
theorem packageReset_accepted {s : State} {images : List FlashImage} (hn : 2 ≤ images.length) (h : ∀ x ∈ images, s.accepts x = true) :
    exec (.packageReset (some images)) s = .next { s.cleared with images := images, boot := .done } := by
  have hall : images.all s.accepts = true := List.all_eq_true.2 h
  have htake : images.takeWhile s.accepts = images := List.takeWhile_eq_self_iff.2 h
  rw [exec_packageReset, Option.getD_some, htake, if_pos ⟨hn, hall⟩]

/-- Too few images, or one that is not good, leave the package in recovery. -/
theorem packageReset_recovery {s : State} {flash : Option (List FlashImage)}
    (h : ∀ images, flash = some images → images.length < 2 ∨ ∃ x ∈ images, s.accepts x = false) :
    ∃ images, exec (.packageReset flash) s = .next { s.cleared with images := images, boot := .recovery } := by
  refine ⟨(flash.getD []).takeWhile s.accepts, ?_⟩
  rw [exec_packageReset, if_neg]
  rintro ⟨hn, hall⟩
  cases flash with
  | none => exact absurd hn (by decide)
  | some images =>
    rcases h images rfl with hlt | ⟨x, hx, hbad⟩
    · exact absurd hn (Nat.not_le.2 hlt)
    · rw [List.all_eq_true.1 hall x hx] at hbad
      cases hbad

/-! Before bring-up has ended. -/

/-- A turn that does nothing takes its place on the agenda alone. -/
theorem step_of_idle {s : State} {turn : Turn} {rest : List Turn} (ha : s.agenda = turn :: rest) (hf : s.freed = [])
    (hidle : ({ s with agenda := rest, tick := s.tick + 1 } : State).turn turn = .next { s with agenda := rest, tick := s.tick + 1 }) :
    step s = .next { s with agenda := rest, tick := s.tick + 1 } := by
  rw [step, State.nextTurn, ha]
  dsimp only
  rw [hidle]
  exact offered_none hf

theorem State.turn_event_barred {s : State} {i : Instr} (h : s.admits i = false) : s.turn (.event i) = .next s := by
  simp [State.turn, h]

/-! Attestation. -/

theorem spdmAnswer_up {s : State} (hup : s.downLinks.contains 0 = false) (n : Nat) (words : List (BitVec 256)) :
    spdmAnswer s n words = .next (s.send (.spdm n words)) := if_neg (by rw [hup]; exact Bool.false_ne_true)

theorem spdmAnswer_down {s : State} (hdown : s.downLinks.contains 0 = true) (n : Nat) (words : List (BitVec 256)) :
    spdmAnswer s n words = .next s := if_pos hdown

/-- Settles O60: package reset by what it finds in the boot flash, turns that the state of bring-up keeps from acting, and the answers. -/
theorem bringUpAndAttestationAnswer : Obligations.BringUpAndAttestationAnswer := by
  intro s good
  have hgood (x : FlashImage) : s.accepts x = true ↔ good x := s.accepts_iff x
  refine ⟨fun images hn hall => ?accepted, fun flash hbad => ?recovery, fun k rest hf hb ha => ?streams, fun i rest hf hb ha => ?events,
    fun hup => ?answers, fun hdown i hi => ?down⟩
  case accepted =>
    exact ⟨_, packageReset_accepted hn fun x hx => (hgood x).2 (hall x hx), rfl, rfl, rfl, rfl, rfl, rfl, rfl, rfl, rfl, rfl, rfl, rfl, rfl,
      rfl, rfl, fun n l hl => State.cleared_line hl⟩
  case recovery =>
    obtain ⟨images, h⟩ := packageReset_recovery (s := s) (flash := flash) fun images hi => (hbad images hi).imp_right
      fun ⟨x, hx, hn⟩ => ⟨x, hx, Bool.eq_false_iff.2 (mt (hgood x).1 hn)⟩
    exact ⟨_, h, rfl, rfl, rfl, rfl⟩
  case streams =>
    rcases ha with ha | ha
    · exact step_of_idle ha hf (if_neg hb)
    · exact step_of_idle ha hf (if_neg hb)
  case events =>
    refine step_of_idle ha hf (State.turn_event_barred ?_)
    rcases hb with ⟨hb, hi⟩ | ⟨hb, hi⟩
    · simp only [State.admits, hb, hi]
    · simp only [State.admits, hb, hi]
  case answers =>
    exact ⟨⟨s.signature, by simp [State.signature], spdmAnswer_up hup _ _, Config.chain 0, spdmAnswer_up hup _ _, spdmAnswer_up hup _ _,
      fun nonce => spdmAnswer_up hup _ _⟩, spdmAnswer_up hup _ _, ⟨_, spdmAnswer_up hup _ _⟩, fun h g => spdmAnswer_up hup _ _,
      fun slot => ⟨_, spdmAnswer_up hup _ _⟩⟩
  case down =>
    simp only [List.mem_cons, List.not_mem_nil, or_false] at hi
    rcases hi with rfl | rfl | rfl | rfl
    all_goals exact spdmAnswer_down hdown _ _

end Sys2Proof.Machine
end

section
/-! SUPPORT. Notify writes, activation and disabling of queues (19 R299, R300, R304, R306). -/

namespace Sys2Proof.Machine

/-! Notify writes. -/

section
variable {s : State} {func n : Nat} {v : DWord}

theorem notifyWrite_of_active (hup : s.downLinks.contains 0 = false) (ha : (s.queues.get n).state = .active)
    (hf : (s.queues.get n).func.toNat = func) : exec (.notifyWrite func n v) s =
      if (s.queues.get n).size < (v - (s.queues.get n).read).toNat then
        .next (({ s with queues := s.queues.insert n { s.queues.get n with state := .overrun } }).report
          (.plain .overrun (s.queues.get n).ctx.toNat (BitVec.ofNat 64 n)))
      else if (s.queues.get n).tail < v then
        .next { s with queues := s.queues.insert n { s.queues.get n with
          tail := v, since := if (s.queues.get n).read = (s.queues.get n).tail then s.tick else (s.queues.get n).since } }
      else .next s := by
  show execNotifyWrite func n v s = _
  simp only [execNotifyWrite, hup, ha, hf, Bool.false_eq_true, if_false, decide_true, beq_self_eq_true, Bool.and_true, Bool.not_true]

/-- A link that is down, a queue that is not active and one of another function take no notify write. -/
theorem notifyWrite_discarded (h : s.downLinks.contains 0 = true ∨ (s.queues.get n).state ≠ .active ∨ (s.queues.get n).func.toNat ≠ func) :
    exec (.notifyWrite func n v) s = .next s := by
  show execNotifyWrite func n v s = _
  unfold execNotifyWrite
  dsimp only
  split
  · rfl
  · next hup =>
    refine if_pos ?_
    rcases h with h | h | h
    · exact absurd h hup
    · simp [h]
    · simp [h]

end

/-! Activation. -/

/-- The conditions of an activation (R299). -/
def activates (s : State) (desc : BitVec 320) : Bool :=
  (s.ctx (nfld desc 0 8)).valid && decide (3 ≤ nfld desc 32 5 ∧ nfld desc 32 5 ≤ 16)
    && decide ((fld desc 256 64 - fld desc 192 64 : DWord).toNat ≤ 2 ^ nfld desc 32 5)

theorem activates_iff (s : State) (desc : BitVec 320) : activates s desc = true ↔ (s.ctx (nfld desc 0 8)).valid = true
    ∧ 3 ≤ nfld desc 32 5 ∧ nfld desc 32 5 ≤ 16 ∧ (fld desc 256 64 - fld desc 192 64 : DWord).toNat ≤ 2 ^ nfld desc 32 5 := by
  simp only [activates, Bool.and_eq_true, decide_eq_true_eq, and_assoc]

/-- The queue that a descriptor gives (R299). -/
def Queue.described (s : State) (desc : BitVec 320) : Queue :=
  { state := if activates s desc then .active else .disabled, pri := fld desc 60 2, policy := none, func := fld desc 52 8,
    log2size := fld desc 32 5, ctx := fld desc 0 8, ring := fld desc 64 64, mirror := fld desc 128 64,
    read := fld desc 192 64, tail := fld desc 256 64, reported := false, since := s.tick, note := none }

/-- The state with the queue of a descriptor in place of one that is DISABLED. -/
def State.described (s : State) (n : Nat) (desc : BitVec 320) : State :=
  { s with queues := s.queues.insert n (.described s desc)
           grids := s.grids.mapVals (fun g => g.reheaded n (s.queues.get n) (.described s desc)) }

theorem queueActivate_disabled {s : State} {n : Nat} (hn : n < 4096) (hd : (s.queues.get n).state = .disabled) (desc : BitVec 320) :
    exec (.queueActivate n desc) s = .next (if activates s desc then
      { s.described n desc with ctxs := s.ctxs.modify (nfld desc 0 8) (fun x => x.devRun s.tick) } else s.described n desc) :=
  if_neg (by simp [hn, hd])

theorem queueActivate_kept {s : State} {n : Nat} (hd : (s.queues.get n).state ≠ .disabled) (desc : BitVec 320) :
    exec (.queueActivate n desc) s = .next s := if_pos (.inr hd)

theorem Grid.reheaded_described (g : Grid) (s : State) (n : Nat) (desc : BitVec 320) (old : Queue) :
    g.reheaded n old (.described s desc) = if g.queue = some n ∧ g.atHead = true
      ∧ ¬ (fld desc 0 8 = old.ctx ∧ fld desc 64 64 = old.ring ∧ nfld desc 192 64 = g.pktIndex) then { g with left := true } else g := rfl

/-- A context that is valid is listed. -/
theorem State.find?_of_valid {s : State} {c : Nat} (h : (s.ctx c).valid = true) : s.ctxs.find? c = some (s.ctx c) := by
  unfold State.ctx SMap.get at h ⊢
  cases hf : s.ctxs.find? c with
  | none => rw [hf] at h; cases h
  | some x => rfl

/-- Settles O49: a notify write by R304's order of tests, and an activation by whether its descriptor meets the conditions. -/
theorem notifyWritesMoveTheTail : Obligations.NotifyWritesMoveTheTail := by
  intro s func n v q
  refine ⟨fun hup ha hf hle hlt => ?moves, fun hup ha hf hgt => ?overruns, fun h => ?discarded, fun x hx => ?disable,
    fun desc hn hd => ?activate, fun desc hd => queueActivate_kept hd desc⟩
  case moves =>
    exact (notifyWrite_of_active hup ha hf).trans ((if_neg (Nat.not_lt.2 hle)).trans (if_pos hlt))
  case overruns =>
    refine ⟨_, _, (notifyWrite_of_active hup ha hf).trans (if_pos hgt), rfl, Report.pack_code _, ?_, ?_, rfl, rfl⟩
    · rw [Laws.nfld_eq_toNat_fld, Report.pack_detail]
      exact BitVec.toNat_ofNat _ _
    · exact congrArg Queue.state (SMap.get_insert_self _ _ _)
  case discarded =>
    by_cases hq : s.downLinks.contains 0 = true ∨ q.state ≠ .active ∨ q.func.toNat ≠ func
    · exact notifyWrite_discarded hq
    · push Not at hq
      obtain ⟨hup, ha, hf⟩ := hq
      obtain ⟨htail, hle⟩ : v ≤ q.tail ∧ (v - q.read).toNat ≤ 2 ^ q.log2size.toNat := by
        rcases h with h | h | h | h
        · exact absurd h hup
        · exact absurd ha h
        · exact absurd hf h
        · exact h
      exact (notifyWrite_of_active (Bool.eq_false_iff.2 hup) ha hf).trans ((if_neg (Nat.not_lt.2 hle)).trans (if_neg (BitVec.not_lt.2 htail)))
  case disable =>
    show Host.Outcome.next _ = _
    rw [SMap.modify_of_find? _ hx]
  case activate =>
    intro ok
    have hok : activates s desc = true ↔ ok := activates_iff s desc
    have hget : (s.described n desc).queues.get n = .described s desc := SMap.get_insert_self _ _ _
    refine ⟨_, queueActivate_disabled hn hd desc, ?_⟩
    by_cases h : activates s desc = true
    · have hvalid := (hok.1 h).1
      have hctx : SMap.get (s.ctxs.modify (nfld desc 0 8) (fun x => x.devRun s.tick)) (nfld desc 0 8)
          = (s.ctx (nfld desc 0 8)).devRun s.tick := SMap.get_modify_of_find? _ (State.find?_of_valid hvalid)
      rw [if_pos h]
      refine ⟨congrArg Queue.ctx hget, congrArg Queue.read hget, congrArg Queue.tail hget, congrArg Queue.note hget, rfl, fun _ => ?_,
        fun hno => absurd (hok.1 h) hno⟩
      exact ⟨(congrArg Queue.state hget).trans (if_pos h), congrArg Context.devOff hctx, congrArg Context.devSince hctx⟩
    · rw [if_neg h]
      exact ⟨congrArg Queue.ctx hget, congrArg Queue.read hget, congrArg Queue.tail hget, congrArg Queue.note hget, rfl,
        fun hyes => absurd (hok.2 hyes) h, fun _ => ⟨(congrArg Queue.state hget).trans (if_neg h), rfl⟩⟩

end Sys2Proof.Machine
end

section
/-! SUPPORT. A fault under DEBUG (22 R333, R334): the report, the crew that halts, and crews that are resumed. -/

namespace Sys2Proof.Machine

/-! Fields of a report. -/

theorem Report.pack_origin (r : Report) : flag r.pack 8 = r.origin := by
  unfold Report.pack
  simp (disch := decide) only [Laws.flag_append_high, Laws.flag_append_low, Nat.reduceSub, Laws.flag_bit]

theorem Report.pack_lane (r : Report) : flag r.pack 9 = r.lane := by
  unfold Report.pack
  simp (disch := decide) only [Laws.flag_append_high, Laws.flag_append_low, Nat.reduceSub, Laws.flag_bit]

/-! Halting. -/

/-- With DEBUG 1 a fault is reported and its crew halts (R334). -/
theorem raise_debug {s : State} {k : CrewKey} {w : Workgroup} {c : Crew} (hf : s.find k = some (w, c)) (hd : (s.ctx w.ctx).debug = true)
    {code : FaultCode} (hcode : code ≠ .stpoison) (side : Side) (detail : DWord) (stream : Stream) (inflight : Bool) (pc : Addr) :
    s.raise k side code detail stream inflight pc
      = (s.report (s.reportOf w c side code detail stream inflight pc)).put k w { c with status := .halted } := by
  have hfind (r : Report) : (s.report r).find k = some (w, c) := hf
  have hdebug (r : Report) : ((s.report r).ctx w.ctx).debug = true := hd
  have hc : (s.reportOf w c side code detail stream inflight pc).code ≠ .stpoison := hcode
  rw [State.raise, hf]
  dsimp only
  rw [State.afterFault, if_neg hc, if_pos (hdebug _), State.halt, hfind]
  rfl

/-! Resuming. -/

theorem debugCrewResume_alone {s : State} {k : CrewKey} {w : Workgroup} {c : Crew} (hf : s.find k = some (w, c))
    (hh : c.status = .halted) (hj : c.joint = false) : exec (.debugCrewResume k) s = .next (s.put k w c.resume) := by
  show execDebugCrewResume k s = _
  simp only [execDebugCrewResume, hf, hh, hj, ne_eq, not_true_eq_false, Bool.false_eq_true, if_false]

theorem debugCrewResume_joint {s : State} {k : CrewKey} {w : Workgroup} {c : Crew} (hf : s.find k = some (w, c))
    (hh : c.status = .halted) (hj : c.joint = true) : exec (.debugCrewResume k) s = .next
      (s.putWg k.wid { w with crews := SMap.mapVals w.crews (fun x => if x.haltedWith c then x.resume else x) }) := by
  show execDebugCrewResume k s = _
  simp only [execDebugCrewResume, hf, hh, hj, ne_eq, not_true_eq_false, if_false, if_true]

theorem Crew.haltedWith_iff (x c : Crew) : x.haltedWith c = true ↔ x.role = c.role ∧ x.status = .halted ∧ x.joint = true := by
  simp only [Crew.haltedWith, Bool.and_eq_true, decide_eq_true_eq, and_assoc]

/-- Nothing of a crew that is resumed is held. -/
theorem Crew.resume_isHeld (c : Crew) : ∀ a ∈ c.resume.flying, a.isHeld = false := by
  intro a ha
  obtain ⟨b, -, rfl⟩ := List.mem_map.1 ha
  simp [Access.isHeld]

/-- Settles O17: the report packs its fields where R333 says, and resuming changes a crew as R334 says, alone or with its role. -/
theorem debugHaltsACrewUntilItIsResumed : Obligations.DebugHaltsACrewUntilItIsResumed := by
  refine ⟨fun s k w c code detail stream inflight pc hf hd hcode => ?halts, fun s k w c hf hh hj => ?alone, fun s k w c hf hh hj => ?joint⟩
  case halts =>
    refine ⟨_, _, raise_debug hf hd hcode _ _ _ _ _, rfl, Report.pack_code _, Report.pack_origin _, Report.pack_lane _,
      Report.pack_inflight _, Report.pack_ctx _, Report.pack_pc _, Report.pack_detail _⟩
  case alone =>
    exact ⟨_, debugCrewResume_alone hf hh hj, rfl, rfl, rfl, rfl, c.resume_isHeld, rfl, rfl⟩
  case joint =>
    refine ⟨_, debugCrewResume_joint hf hh hj, rfl, fun n x hx => ⟨if x.haltedWith c then x.resume else x, ?_, ?_⟩⟩
    · exact (SMap.find?_map w.crews (fun _ x => if x.haltedWith c then x.resume else x) n).trans (congrArg _ hx)
    · by_cases h : x.haltedWith c = true
      · rw [if_pos ((x.haltedWith_iff c).1 h), if_pos h]
        exact ⟨rfl, rfl, rfl⟩
      · rw [if_neg (mt (x.haltedWith_iff c).2 h), if_neg h]

end Sys2Proof.Machine
end

section
/-! SUPPORT. The reset rung and the other contexts (22 R332, R334, R342): their grids and workgroups stay, but for the children that a
workgroup waits for. -/

namespace Sys2Proof.Machine

theorem SMap.mem_insert_of_mem {α : Type} {m : SMap α} {k : Nat} {v : α} {e : Nat × α} (h : e ∈ m) (hk : e.1 ≠ k) : e ∈ m.insert k v := by
  induction m with
  | nil => cases h
  | cons x m ih =>
    obtain ⟨a, y⟩ := x
    rw [SMap.insert]
    split
    · exact List.mem_cons_of_mem _ h
    · split
      · next ha =>
        rcases List.mem_cons.1 h with rfl | h
        · exact absurd ha hk
        · exact List.mem_cons_of_mem _ h
      · rcases List.mem_cons.1 h with rfl | h
        · exact List.mem_cons_self
        · exact List.mem_cons_of_mem _ (ih h)

theorem SMap.mem_insert_self {α : Type} (m : SMap α) (k : Nat) (v : α) : (k, v) ∈ m.insert k v :=
  SMap.mem_of_find? (SMap.find?_insert_self m k v)

/-- An entry of a map stays when its key is listed at another value, but for the first entry of that key. -/
theorem SMap.mem_insert_or {α : Type} {m : SMap α} {k : Nat} {v : α} {e : Nat × α} (h : e ∈ m) :
    e ∈ m.insert k v ∨ m.find? k = some e.2 ∧ e.1 = k := by
  induction m with
  | nil => cases h
  | cons x m ih =>
    obtain ⟨a, y⟩ := x
    rw [SMap.insert, SMap.find?]
    split
    · exact .inl (List.mem_cons_of_mem _ h)
    · split
      · next ha =>
        rcases List.mem_cons.1 h with rfl | h
        · exact .inr ⟨rfl, ha⟩
        · exact .inl (List.mem_cons_of_mem _ h)
      · rcases List.mem_cons.1 h with rfl | h
        · exact .inl List.mem_cons_self
        · exact (ih h).imp_left (List.mem_cons_of_mem _)

/-- Changing a listed value keeps every other entry, and that one as changed. -/
theorem SMap.mem_modify_of_mem {α : Type} {m : SMap α} {f : α → α} {e : Nat × α} (k : Nat) (h : e ∈ m) :
    e ∈ m.modify k f ∨ e.1 = k ∧ (k, f e.2) ∈ m.modify k f := by
  unfold SMap.modify
  split
  · next x hx =>
    rcases SMap.mem_insert_or (k := k) (v := f x) h with h | ⟨hx', hk⟩
    · exact .inl h
    · rw [hx] at hx'
      cases hx'
      exact .inr ⟨hk, SMap.mem_insert_self _ _ _⟩
  · exact .inl h

theorem SMap.mem_modify_of_ne {α : Type} {m : SMap α} {f : α → α} {e : Nat × α} {k : Nat} (h : e ∈ m) (hk : e.1 ≠ k) :
    e ∈ m.modify k f := (SMap.mem_modify_of_mem k h).resolve_right fun h => hk h.1

/-! What stays of the others. -/

/-- A workgroup is listed under a key, as it was or with other children. -/
def HasWg (s : State) (e : Nat × Workgroup) : Prop := ∃ v, (e.1, v) ∈ s.wgs ∧ { v with children := e.2.children } = e.2

theorem HasWg.of_mem {s : State} {e : Nat × Workgroup} (h : e ∈ s.wgs) : HasWg s e := ⟨e.2, h, rfl⟩

theorem HasWg.congr {s t : State} {e : Nat × Workgroup} (h : HasWg s e) (hw : t.wgs = s.wgs) : HasWg t e := by
  unfold HasWg
  rw [hw]
  exact h

theorem HasWg.childDone {s : State} {e : Nat × Workgroup} (h : HasWg s e) (p : Option Parent) : HasWg (s.childDone p) e := by
  obtain ⟨v, hv, he⟩ := h
  cases p with
  | none => exact ⟨v, hv, he⟩
  | some p =>
    rcases SMap.mem_modify_of_mem (f := fun g : Workgroup => { g with children := g.children.erase p.child }) p.wid hv with hv | ⟨hk, hv⟩
    · exact ⟨v, hv, he⟩
    · refine ⟨{ v with children := v.children.erase p.child }, ?_, he⟩
      rw [show e.1 = p.wid from hk]
      exact hv

/-- The workgroups that a grid's launches name as their parents (R34). -/
def Grid.names (g : Grid) (wid : Nat) : Prop :=
  (∃ p, g.parent = some p ∧ p.wid = wid) ∨ ∃ f p, g.fused = some f ∧ f.parent = some p ∧ p.wid = wid

theorem childDone_wgs_kept {s : State} {e : Nat × Workgroup} {parent : Option Parent} (h : e ∈ s.wgs)
    (hp : ∀ p, parent = some p → p.wid ≠ e.1) : e ∈ (s.childDone parent).wgs := by
  cases parent with
  | none => exact h
  | some p => exact SMap.mem_modify_of_ne h fun hk => hp p rfl hk.symm

/-- A grid that retires changes no workgroup but the children of its parents. -/
theorem retireGrid_hasWg {s : State} {e : Nat × Workgroup} (h : HasWg s e) (seq result : Nat) (fault : BitVec 384) :
    HasWg (s.retireGrid seq result fault) e := by
  have hone {u : State} (hu : HasWg u e) (c : Nat) (copy : LaunchCopy) (x : Completion) (p : Option Parent) :
      HasWg ((u.complete c copy x).childDone p) e := (hu.congr (posted_complete u c copy x).wgs).childDone p
  unfold State.retireGrid
  split
  · exact h
  · dsimp only
    have herased (seq : Nat) : HasWg { s with grids := s.grids.erase seq } e := h
    split
    · exact hone (herased _) _ _ _ _
    · exact hone (hone (herased _) _ _ _ _) _ _ _ _

/-- A workgroup that a grid does not name stays as it is when the grid retires. -/
theorem retireGrid_wgs_kept {s : State} {e : Nat × Workgroup} (h : e ∈ s.wgs) {seq : Nat}
    (hn : ∀ g, s.grids.find? seq = some g → ¬ g.names e.1) (result : Nat) (fault : BitVec 384) :
    e ∈ (s.retireGrid seq result fault).wgs := by
  have hone {u : State} (hu : e ∈ u.wgs) (c : Nat) (copy : LaunchCopy) (x : Completion) {p : Option Parent}
      (hp : ∀ q, p = some q → q.wid ≠ e.1) : e ∈ ((u.complete c copy x).childDone p).wgs :=
    childDone_wgs_kept ((posted_complete u c copy x).wgs ▸ hu) hp
  unfold State.retireGrid
  split
  · exact h
  · next g hg =>
    have hparent : ∀ q, g.parent = some q → q.wid ≠ e.1 := fun q hq hw => hn g hg (.inl ⟨q, hq, hw⟩)
    have herased : e ∈ ({ s with grids := s.grids.erase seq } : State).wgs := h
    dsimp only
    split
    · exact hone herased _ _ _ hparent
    · next f hf => exact hone (hone herased _ _ _ hparent) _ _ _ fun q hq hw => hn g hg (.inr ⟨f, q, hf, hq, hw⟩)

/-- A grid that retires is no longer listed, and no other changes. -/
theorem retireGrid_grids (s : State) (seq result : Nat) (fault : BitVec 384) :
    (s.retireGrid seq result fault).grids = s.grids ∧ s.grids.find? seq = none
      ∨ (s.retireGrid seq result fault).grids = s.grids.erase seq := by
  have hone {u : State} (c : Nat) (copy : LaunchCopy) (x : Completion) (p : Option Parent) :
      ((u.complete c copy x).childDone p).grids = u.grids := by
    have : ((u.complete c copy x).childDone p).grids = (u.complete c copy x).grids := by cases p <;> rfl
    exact this.trans (posted_complete u c copy x).grids
  unfold State.retireGrid
  split
  · next h => exact .inl ⟨rfl, h⟩
  · dsimp only
    split
    · exact .inr (hone _ _ _ _)
    · exact .inr ((hone _ _ _ _).trans (hone _ _ _ _))

/-- Grids whose numbers are not among those that retire in turn stay. -/
theorem retireGrids_grids_kept {seqs : List Nat} {e : Nat × Grid} (he : e.1 ∉ seqs) (result : Nat) (fault : Nat → BitVec 384) {s : State}
    (h : e ∈ s.grids) : e ∈ (seqs.foldl (fun (s : State) q => s.retireGrid q result (fault q)) s).grids := by
  induction seqs generalizing s with
  | nil => exact h
  | cons q qs ih =>
    obtain ⟨hq, hqs⟩ := not_or.1 (mt List.mem_cons.2 he)
    refine ih hqs ?_
    rcases retireGrid_grids s q result (fault q) with ⟨hg, -⟩ | hg
    · rw [hg]; exact h
    · rw [hg]; exact SMap.mem_erase.2 ⟨h, hq⟩

theorem retireGrids_hasWg {e : Nat × Workgroup} (result : Nat) (fault : Nat → BitVec 384) (seqs : List Nat) {s : State} (h : HasWg s e) :
    HasWg (seqs.foldl (fun (s : State) q => s.retireGrid q result (fault q)) s) e := by
  induction seqs generalizing s with
  | nil => exact h
  | cons q qs ih => exact ih (retireGrid_hasWg h q result (fault q))

/-- A workgroup that none of the listed grids with the numbers names stays as it is. -/
theorem retireGrids_wgs_kept {e : Nat × Workgroup} (result : Nat) (fault : Nat → BitVec 384) (seqs : List Nat) {s : State} (h : e ∈ s.wgs)
    (hn : ∀ g ∈ s.grids, g.1 ∈ seqs → ¬ g.2.names e.1) :
    e ∈ (seqs.foldl (fun (s : State) q => s.retireGrid q result (fault q)) s).wgs := by
  induction seqs generalizing s with
  | nil => exact h
  | cons q qs ih =>
    refine ih (retireGrid_wgs_kept h (fun g hg => hn _ (SMap.mem_of_find? hg) List.mem_cons_self) result (fault q)) fun g hg hm => ?_
    exact hn g ((ending_retireGrid s q result (fault q)).1.grids g hg) (List.mem_cons_of_mem _ hm)

/-! The reset rung. -/

/-- Ending the ladders and pools of a context changes memory, where their status words stand, and no grid and no workgroup. -/
theorem State.resetLadders_rest (s : State) (c : Nat) : (s.resetLadders c).grids = s.grids ∧ (s.resetLadders c).wgs = s.wgs := by
  obtain ⟨u, hu, hg, hw⟩ : ∃ u, OnlyMemory s u ∧ (s.resetLadders c).grids = u.grids ∧ (s.resetLadders c).wgs = u.wgs :=
    ⟨_, (OnlyMemory.foldl (f := fun (s : State) (l : Ladder) => s.ladderEnd l.pool 2 l.areas.length)
      (fun s l => onlyMemory_fwWrite _ _ _) _ s).trans (OnlyMemory.foldl (f := fun (s : State) (p : Pool) => s.poolStatus p.base 2)
      (fun s l => onlyMemory_fwWrite _ _ _) _ _), rfl, rfl⟩
  exact ⟨hg.trans (Posted.ofMemory hu).grids, hw.trans (Posted.ofMemory hu).wgs⟩

theorem State.mem_gridsOf {s : State} {c : Nat} (hs : SMap.Sorted s.grids) {e : Nat × Grid} (he : e ∈ s.grids) :
    e.1 ∈ s.gridsOf c ↔ e.2.ctx = c := by
  constructor
  · intro h
    obtain ⟨x, hx, hk⟩ := List.mem_map.1 h
    obtain ⟨hx, hc⟩ := List.mem_filter.1 hx
    have h1 := SMap.find?_of_mem hs hx
    rw [hk, SMap.find?_of_mem hs he] at h1
    rw [Option.some.inj h1]
    simpa using hc
  · exact fun hc => List.mem_map_of_mem (List.mem_filter.2 ⟨he, by simpa using hc⟩)

theorem State.stopContext_wgs_kept {s : State} {c : Nat} {e : Nat × Workgroup} (he : e ∈ s.wgs) (hc : e.2.ctx ≠ c) :
    e ∈ (s.stopContext c).wgs := by
  unfold State.stopContext
  rw [discard_rest]
  exact List.mem_filter.2 ⟨he, by simpa using hc⟩

section
variable {s : State} (hs : SMap.Sorted s.grids) (c : Nat) (r : Report) (origin : Option Nat)
include hs

/-- The reset rung leaves the grids of the other contexts. -/
theorem resetRung_grids_kept {e : Nat × Grid} (he : e ∈ s.grids) (hc : e.2.ctx ≠ c) : e ∈ (s.resetRung c r origin).grids := by
  obtain ⟨-, hgrids, -, -⟩ := s.stopContext_stops c
  unfold State.resetRung
  rw [(State.resetLadders_rest _ c).1]
  exact retireGrids_grids_kept (mt (State.mem_gridsOf hs he).1 hc) 2 (fun q => ({ r with origin := origin == some q } : Report).pack)
    (hgrids ▸ he)

/-- The reset rung leaves a workgroup of another context that none of the context's grids names as it is. -/
theorem resetRung_wgs_kept {e : Nat × Workgroup} (he : e ∈ s.wgs) (hc : e.2.ctx ≠ c)
    (hn : ∀ g ∈ s.grids, g.2.ctx = c → ¬ g.2.names e.1) : e ∈ (s.resetRung c r origin).wgs := by
  obtain ⟨-, hgrids, -, -⟩ := s.stopContext_stops c
  unfold State.resetRung
  rw [(State.resetLadders_rest _ c).2]
  refine retireGrids_wgs_kept 2 (fun q => ({ r with origin := origin == some q } : Report).pack) _ (State.stopContext_wgs_kept he hc)
    fun g hg hm => ?_
  rw [hgrids] at hg
  exact hn g hg ((State.mem_gridsOf hs hg).1 hm)

omit hs in
/-- The reset rung leaves a workgroup of another context all but its children. -/
theorem resetRung_hasWg {e : Nat × Workgroup} (he : e ∈ s.wgs) (hc : e.2.ctx ≠ c) : HasWg (s.resetRung c r origin) e := by
  unfold State.resetRung
  exact (retireGrids_hasWg 2 (fun q => ({ r with origin := origin == some q } : Report).pack) _
    (.of_mem (State.stopContext_wgs_kept he hc))).congr (State.resetLadders_rest _ c).2

end

/-- With DEBUG 0 a fault is reported and the reset rung runs (R334). -/
theorem raise_resets {s : State} {k : CrewKey} {w : Workgroup} {c : Crew} (hf : s.find k = some (w, c)) (hd : (s.ctx w.ctx).debug = false)
    {code : FaultCode} (hcode : code ≠ .stpoison) (side : Side) (detail : DWord) (stream : Stream) (inflight : Bool) (pc : Addr) :
    s.raise k side code detail stream inflight pc = (s.report (s.reportOf w c side code detail stream inflight pc)).resetRung w.ctx
      (s.reportOf w c side code detail stream inflight pc) (some w.seq) := by
  have hdebug (r : Report) : ¬ ((s.report r).ctx w.ctx).debug = true := by
    have : ((s.report r).ctx w.ctx).debug = (s.ctx w.ctx).debug := rfl
    rw [this, hd]
    exact Bool.false_ne_true
  have hc : (s.reportOf w c side code detail stream inflight pc).code ≠ .stpoison := hcode
  rw [State.raise, hf]
  dsimp only
  rw [State.afterFault, if_neg hc, if_neg (hdebug _)]

/-- Settles O18: without DEBUG a fault runs the reset rung, which ends one context and leaves the others. -/
theorem withoutDebugAFaultEndsItsContext : Obligations.WithoutDebugAFaultEndsItsContext := by
  intro s k w c code detail stream inflight pc hf hd hcode hn t ht
  rw [raise_resets hf hd hcode] at ht
  subst ht
  refine ⟨stopped_resetRung _ _ _ _, fun e he hc => ?_, fun e he hc hp => ?_, fun e he hc => ?_⟩
  · exact resetRung_grids_kept (s := s.report _) hn.1 _ _ _ he hc
  · refine resetRung_wgs_kept (s := s.report _) hn.1 _ _ _ he hc fun g hg hgc => ?_
    rintro (⟨p, hp1, hw⟩ | ⟨f, p, hf1, hp1, hw⟩)
    · exact (hp g hg hgc).1 p hp1 hw
    · exact (hp g hg hgc).2 f p hf1 hp1 hw
  · exact resetRung_hasWg (s := s.report _) _ _ _ he hc

end Sys2Proof.Machine
end

section
/-! SUPPORT. Walks, held accesses and shootdowns (21 R325 to R327; 22 R335, R337): what a walk that ends leaves in the crews that share it,
and what REPLAY, DECLINE and a shootdown change. -/

namespace Sys2Proof.Machine

/-! Crews of a state. -/

theorem State.find_iff {s : State} {k : CrewKey} {w : Workgroup} {c : Crew} :
    s.find k = some (w, c) ↔ s.wgs.find? k.wid = some w ∧ w.crews.find? k.slot = some c := by
  unfold State.find
  constructor
  · intro h
    split at h
    · cases h
    · next v hv =>
      split at h
      · cases h
      · next x hx =>
        cases h
        exact ⟨hv, hx⟩
  · rintro ⟨hw, hc⟩
    rw [hw]
    dsimp only
    rw [hc]

/-- Putting a crew leaves every other one. -/
theorem State.find_put_ne {s : State} {k k' : CrewKey} {w v : Workgroup} {c x e : Crew} (hf : s.find k = some (w, x))
    (h : s.find k' = some (v, e)) (hk : k' ≠ k) : ∃ v', (s.put k w c).find k' = some (v', e) := by
  obtain ⟨hw, -⟩ := State.find_iff.1 hf
  obtain ⟨hv, he⟩ := State.find_iff.1 h
  by_cases hwid : k'.wid = k.wid
  · obtain rfl : w = v := Option.some.inj (hw.symm.trans (hwid ▸ hv))
    have hslot : k'.slot ≠ k.slot := fun hs => hk (CrewKey.mk.injEq .. ▸ ⟨hwid, hs⟩ : (⟨k'.wid, k'.slot⟩ : CrewKey) = ⟨k.wid, k.slot⟩)
    refine ⟨w.putCrew k.slot c, State.find_iff.2 ⟨?_, ?_⟩⟩
    · rw [State.put_wgs, SMap.find?_insert, if_pos hwid]
    · rw [Workgroup.putCrew_crews, SMap.find?_insert, if_neg hslot]; exact he
  · refine ⟨v, State.find_iff.2 ⟨?_, he⟩⟩
    rw [State.put_wgs, SMap.find?_insert, if_neg hwid]
    exact hv

/-- The crews of a die and context are changed each by its key; which context a workgroup is of stays. -/
theorem State.find_crewsOn {s t : State} {die c : Nat} {f : CrewKey → Workgroup → Crew → Crew} (ht : t.wgs = crewsOn die c f s.wgs)
    {k : CrewKey} {w : Workgroup} {x : Crew} (hf : s.find k = some (w, x)) (hd : w.die = die) (hc : w.ctx = c) :
    ∃ w', t.find k = some (w', f k w x) ∧ w'.die = die ∧ w'.ctx = c := by
  obtain ⟨hw, hx⟩ := State.find_iff.1 hf
  refine ⟨{ w with crews := w.crews.map (fun x => (x.1, f ⟨k.wid, x.1⟩ w x.2)) }, State.find_iff.2 ⟨?_, ?_⟩, hd, hc⟩
  · rw [ht, find?_crewsOn, hw, Option.map_some, if_pos ⟨hd, hc⟩]
  · exact (SMap.find?_map w.crews (fun n x => f ⟨k.wid, n⟩ w x) k.slot).trans (by rw [hx]; rfl)

/-! Accesses of a crew. -/

/-- Accesses that keep their numbers when they change are found as they have become. -/
theorem Crew.access_map (c : Crew) {g : Access → Access} (hg : ∀ a, (g a).id = a.id) (id : Nat) :
    Crew.access { c with flying := c.flying.map g } id = (c.access id).map g := by
  unfold Crew.access
  rw [List.find?_map]
  congr 2
  exact funext fun a => congrArg (· == id) (hg a)

theorem Crew.id_of_access {c : Crew} {id : Nat} {a : Access} (h : c.access id = some a) : a.id = id := by
  simpa using List.find?_some h

/-- An access of a number is replaced; the others stay. -/
theorem Crew.access_replace (c : Crew) {a : Access} {n : Nat} (hn : a.id = n) (id : Nat) :
    Crew.access { c with flying := c.flying.map (fun b => if b.id == n then a else b) } id
      = if id = n then (c.access id).map (fun _ => a) else c.access id := by
  rw [Crew.access_map c (g := fun b => if b.id == n then a else b) fun b => by split <;> simp_all]
  cases h : c.access id with
  | none => simp
  | some b => by_cases hid : id = n <;> simp [Crew.id_of_access h, hid]

theorem Crew.holdStanding_flying (fails : Walking → Option FaultCode) (c : Crew) : (c.holdStanding fails).flying = c.flying := by
  have h (ms : List Walking) (x : Crew) : (ms.foldl (fun (c : Crew) m => match fails m with
      | some code => { c with fetchHeld := ⟨c.nextId, m.stream, m.joint, ⟨code, m.va⟩⟩ :: c.fetchHeld, nextId := c.nextId + 1
                              walking := c.walking.erase m }
      | none => c) x).flying = x.flying := by
    induction ms generalizing x with
    | nil => rfl
    | cons m ms ih =>
      refine (ih _).trans ?_
      dsimp only
      split <;> rfl
  exact h _ _

theorem Crew.access_holdStanding (fails : Walking → Option FaultCode) (c : Crew) (id : Nat) :
    (c.holdStanding fails).access id = c.access id := by
  unfold Crew.access
  rw [Crew.holdStanding_flying]

/-- A stream that stands alone for a walk that fails is held. -/
theorem Crew.holdStanding_one {fails : Walking → Option FaultCode} {c : Crew} {m : Walking} {code : FaultCode} (hm : c.walking = [m])
    (hf : fails m = some code) : c.holdStanding fails = { c with
      fetchHeld := ⟨c.nextId, m.stream, m.joint, ⟨code, m.va⟩⟩ :: c.fetchHeld, nextId := c.nextId + 1, walking := [] } := by
  simp [Crew.holdStanding, hm, hf]

theorem Access.holdWhere_isHeld {a : Access} {fails : Part → Option FaultCode} {p : Part} (hp : p ∈ a.parts) {code : FaultCode}
    (hf : fails p = some code) : (a.holdWhere fails).isHeld = true := by
  refine List.any_eq_true.2 ⟨_, List.mem_map_of_mem hp, ?_⟩
  simp only [hf, Option.isSome_some]

theorem State.find_served {s : State} {k : CrewKey} {w : Workgroup} {x : Crew} (hf : s.find k = some (w, x)) {die c : Nat}
    (hd : w.die = die) (hc : w.ctx = c) : ∃ w', (s.served die c).find k
      = some (w', { x with walking := x.walking.filter (fun m => (s.cached die c m.va).isNone) }) ∧ w'.die = die ∧ w'.ctx = c :=
  State.find_crewsOn (f := fun _ _ x => { x with walking := x.walking.filter (fun m => (s.cached die c m.va).isNone) }) rfl hf hd hc

/-! A walk that ends. -/

/-- The state once a walk of a die for a context has cached the entries it read and the leaf it found (R327). -/
def State.leafCached (s : State) (die c : Nat) (l : Leafmap) (ts : List Table) : State :=
  { s with tables := ts ++ s.tables, tlb := ⟨die, c, l⟩ :: s.tlb }

/-- The state once a walk has failed: the entries it read are cached, and what waits for the page is held (R326, R327). -/
def State.walkFailed (s : State) (but : Option (CrewKey × Nat)) (die c va : Nat) (ts : List Table) : State :=
  { s with tables := ts ++ s.tables, wgs := s.shareWalk but die c va }

section
variable {s : State} {die c va : Nat} {need : Need} {ts : List Table} (but : Option (CrewKey × Nat))

theorem State.walkShared_leaf {l : Leafmap} {pa : Nat} (hwalk : s.walkOn (some die) c va = (.leaf l, ts))
    (hl : s.checkLeaf c need l va = .ok pa) : s.walkShared but die c need va = ((s.leafCached die c l ts).served die c, .ok pa) := by
  simp only [State.walkShared, State.walkFor, hwalk, hl, State.leafCached]

theorem State.walkShared_invalid (hwalk : s.walkOn (some die) c va = (.invalid, ts)) :
    s.walkShared but die c need va = ((s.walkFailed but die c va ts).served die c, .fail .xlat) := by
  simp only [State.walkShared, State.walkFor, hwalk, State.walkFailed]

theorem State.walkShared_moving {l : Leafmap} (hwalk : s.walkOn (some die) c va = (.moving l, ts)) :
    s.walkShared but die c need va = ({ s with tables := ts ++ s.tables }, .moving) := by
  simp only [State.walkShared, State.walkFor, hwalk]

end

/-- What waits for the page of a walk that has failed, in a crew of its die and context (R326). -/
def State.sharing (s : State) (but : Option (CrewKey × Nat)) (c va : Nat) (r : Walk) (k : CrewKey) (w : Workgroup) (x : Crew) : Crew :=
  ({ x with flying := x.flying.map (fun a =>
      if but = some (k, a.id) then a
      else a.holdWhere (fun p => if s.walks w a p then s.sharedFail c va r a.kind.need p.addr else none)) } : Crew).holdStanding
    (fun m => s.sharedFail c va r m.need m.va)

theorem State.find_walkFailed {s : State} {k : CrewKey} {w : Workgroup} {x : Crew} (hf : s.find k = some (w, x)) {die c : Nat}
    (hd : w.die = die) (hc : w.ctx = c) (but : Option (CrewKey × Nat)) (va : Nat) (ts : List Table) :
    ∃ w', (s.walkFailed but die c va ts).find k = some (w', s.sharing but c va (s.walkOn (some die) c va).1 k w x) ∧ w'.die = die
      ∧ w'.ctx = c :=
  State.find_crewsOn (s := s) (f := s.sharing but c va (s.walkOn (some die) c va).1) rfl hf hd hc

section
variable (s : State) (c va : Nat) (k : CrewKey) (w : Workgroup) (x : Crew)

/-- The access whose walk it is stays as it is; every other one is held where it waits for the page. -/
theorem State.access_sharing (but : Option (CrewKey × Nat)) (r : Walk) (id : Nat) : (s.sharing but c va r k w x).access id
    = (x.access id).map (fun a => if but = some (k, a.id) then a
      else a.holdWhere (fun p => if s.walks w a p then s.sharedFail c va r a.kind.need p.addr else none)) := by
  refine (Crew.access_holdStanding _ _ id).trans (Crew.access_map x (g := fun a => if but = some (k, a.id) then a
    else a.holdWhere (fun p => if s.walks w a p then s.sharedFail c va r a.kind.need p.addr else none)) (fun a => ?_) id)
  split <;> rfl

theorem State.sharedFail_invalid (need : Need) {at_ : Nat} (h : at_ / 65536 = va / 65536) :
    s.sharedFail c va .invalid need at_ = some .xlat := if_pos h

variable {s c va k w x}

/-- An access that waits for the page of a walk that fails is held. -/
theorem State.sharing_isHeld {but : Option (CrewKey × Nat)} {id : Nat} {b : Access} {q : Part} (hb : x.access id = some b)
    (hbut : but ≠ some (k, id)) (hq : q ∈ b.parts) (hw : s.walks w b q = true) (hpage : q.addr / 65536 = va / 65536) :
    ∃ b', (s.sharing but c va .invalid k w x).access id = some b' ∧ b'.isHeld = true := by
  rw [State.access_sharing, hb, Option.map_some, Crew.id_of_access hb, if_neg hbut]
  refine ⟨_, rfl, Access.holdWhere_isHeld (code := .xlat) hq ?_⟩
  rw [if_pos hw, State.sharedFail_invalid s c va _ hpage]

/-- A stream that stands for the page of a walk that fails is held at its instruction. -/
theorem State.sharing_standing (but : Option (CrewKey × Nat)) {m : Walking} (hm : x.walking = [m]) (hpage : m.va / 65536 = va / 65536) :
    (s.sharing but c va .invalid k w x).walking = []
      ∧ (s.sharing but c va .invalid k w x).fetchHeld = ⟨x.nextId, m.stream, m.joint, ⟨.xlat, m.va⟩⟩ :: x.fetchHeld := by
  have hone (fl : List Access) := Crew.holdStanding_one (fails := fun m => s.sharedFail c va .invalid m.need m.va)
    (c := { x with flying := fl }) hm (State.sharedFail_invalid s c va _ hpage)
  rw [State.sharing, hone]
  exact ⟨rfl, rfl⟩

end

section
variable {s : State} {k : CrewKey} {w : Workgroup} {c : Crew} {id : Nat} {a : Access} {p : Part}

/-- The access of a number once a part has its translation. -/
theorem translated_of (hf : s.find k = some (w, c)) (ha : c.access id = some a) (hp : a.parts = [p]) (pa : Nat) :
    ∃ c', s.translated k id p pa = s.put k w c' ∧ c'.access id = some { a with parts := [{ p with pa := some pa }] } ∧ c'.sreg = c.sreg
      ∧ c'.vreg = c.vreg := by
  unfold State.translated
  rw [hf]
  refine ⟨_, rfl, (Crew.access_map c (g := fun a => if a.id == id then
      { a with parts := a.parts.map (fun q => if q = p then { q with pa := some pa } else q) } else a) (fun b => ?_) id).trans ?_, rfl, rfl⟩
  · split <;> rfl
  · simp [ha, Crew.id_of_access ha, hp]

/-- The access with a part held (R335, R336). -/
def Access.heldAt (a : Access) (p : Part) (code : FaultCode) (va : Nat) : Access :=
  { a with
    entry := a.entry || (decide (a.stream = .lane) && a.kind.logged)
    parts := a.parts.map (fun q => if q = p then { q with held := some ⟨code, va⟩, pa := none, logged := a.kind.logged } else q) }

/-- A part that is held where no part of its access is: the access is held, the others of its crew stay, and one report goes out. -/
theorem holdPart_of (hf : s.find k = some (w, c)) (ha : c.access id = some a) (hp : a.parts = [p]) (hh : p.held = none) (code : FaultCode)
    (va : Nat) : ∃ c' r, s.holdPart k a p code va = (s.put k w c').report r ∧ r.code = code ∧ r.ctx = w.ctx
      ∧ (∃ a', c'.access id = some a' ∧ a'.isHeld = true) ∧ (∀ n, n ≠ id → c'.access n = c.access n) ∧ c'.walking = c.walking
      ∧ c'.fetchHeld = c.fetchHeld := by
  have hid := Crew.id_of_access ha
  unfold State.holdPart
  rw [hf]
  dsimp only
  rw [if_neg (by simp [hp, hh])]
  refine ⟨_, _, rfl, rfl, rfl, ⟨_, (Crew.access_replace c (a := a.heldAt p code va) rfl id).trans ((if_pos hid.symm).trans (congrArg _ ha)), ?_⟩,
    fun n hn => (Crew.access_replace c (a := a.heldAt p code va) rfl n).trans (if_neg fun h => hn (h.trans hid)), rfl, rfl⟩
  simp [Access.isHeld, Access.heldAt, hp]

end

section
variable {s : State} {k : CrewKey} {w : Workgroup} {c : Crew} {id : Nat} {a : Access} {p : Part}
  (hf : s.find k = some (w, c)) (ha : c.access id = some a) (hp : a.parts = [p]) (hw : s.walks w a p = true)
include hf ha hp hw

omit hw in
theorem walkComplete_of_part : exec (.walkComplete k id) s = .next (s.walkPart k id p) := by
  show execWalkComplete k id s = _
  simp only [execWalkComplete, hf, ha, hp, List.foldl_cons, List.foldl_nil]

omit hp in
theorem walkPart_fail {t : State} {code : FaultCode}
    (h : s.walkShared (some (k, id)) w.die w.ctx a.kind.need p.addr = (t, .fail code)) :
    s.walkPart k id p = t.holdPart k a p code p.addr := by
  simp only [State.walkPart, hf, ha, hw, if_true, h]

omit hp in
theorem walkPart_ok {t : State} {pa : Nat} (h : s.walkShared (some (k, id)) w.die w.ctx a.kind.need p.addr = (t, .ok pa)) :
    s.walkPart k id p = t.translated k id p pa := by
  simp only [State.walkPart, hf, ha, hw, if_true, h]

omit hp in
theorem walkPart_moving {t : State} (h : s.walkShared (some (k, id)) w.die w.ctx a.kind.need p.addr = (t, .moving)) :
    s.walkPart k id p = t := by
  simp only [State.walkPart, hf, ha, hw, if_true, h]

/-- A walk that meets a page being moved caches the entries it read and goes on. -/
theorem walkComplete_moving {l : Leafmap} {ts : List Table} (hwalk : s.walkOn (some w.die) w.ctx p.addr = (.moving l, ts)) :
    exec (.walkComplete k id) s = .next { s with tables := ts ++ s.tables } := by
  rw [walkComplete_of_part hf ha hp, walkPart_moving hf ha hw (State.walkShared_moving _ hwalk)]

/-- A walk that finds a leaf caches it with the entries it read, and its access goes on with the translation. -/
theorem walkComplete_leaf {l : Leafmap} {ts : List Table} {pa : Nat} (hwalk : s.walkOn (some w.die) w.ctx p.addr = (.leaf l, ts))
    (hl : s.checkLeaf w.ctx a.kind.need l p.addr = .ok pa) : ∃ t, exec (.walkComplete k id) s = .next t
      ∧ t.tlb = ⟨w.die, w.ctx, l⟩ :: s.tlb ∧ t.tables = ts ++ s.tables ∧ t.mem = s.mem ∧ t.out = s.out
      ∧ ∃ w' c', t.find k = some (w', c') ∧ c'.access id = some { a with parts := [{ p with pa := some pa }] } ∧ c'.sreg = c.sreg
        ∧ c'.vreg = c.vreg := by
  obtain ⟨w1, hf1, -, -⟩ := State.find_served (s := s.leafCached w.die w.ctx l ts) hf rfl rfl
  obtain ⟨c', ht, hacc, hs, hv⟩ := translated_of hf1 ha hp pa
  rw [walkComplete_of_part hf ha hp, walkPart_ok hf ha hw (State.walkShared_leaf _ hwalk hl), ht]
  exact ⟨_, rfl, rfl, rfl, rfl, rfl, _, _, State.find_put _ _ _ _, hacc, hs, hv⟩

/-- A walk that fails holds its access, with one report, and what else of its die and context waits for the page. -/
theorem walkComplete_invalid {ts : List Table} (hwalk : s.walkOn (some w.die) w.ctx p.addr = (.invalid, ts)) : ∃ t r,
    exec (.walkComplete k id) s = .next t ∧ t.out = s.out ++ [.report (ioOf w.ctx) r] ∧ fld r 0 8 = 0x08 ∧ t.mem = s.mem
    ∧ (∃ w' c' a', t.find k = some (w', c') ∧ c'.access id = some a' ∧ a'.isHeld = true)
    ∧ (∀ k' v e id' b q, s.find k' = some (v, e) → v.die = w.die → v.ctx = w.ctx → e.access id' = some b → q ∈ b.parts →
      s.walks v b q = true → q.addr / 65536 = p.addr / 65536 →
      ∃ v' e' b', t.find k' = some (v', e') ∧ e'.access id' = some b' ∧ b'.isHeld = true)
    ∧ ∀ k' v e m, s.find k' = some (v, e) → v.die = w.die → v.ctx = w.ctx → e.walking = [m] → m.va / 65536 = p.addr / 65536 →
      ∃ v' e', t.find k' = some (v', e') ∧ e'.walking = [] ∧ e'.fetchHeld = ⟨e.nextId, m.stream, m.joint, ⟨.xlat, m.va⟩⟩ :: e.fetchHeld := by
  let but := some (k, id)
  let u := (s.walkFailed but w.die w.ctx p.addr ts).served w.die w.ctx
  have hshared (k' : CrewKey) (v : Workgroup) (e : Crew) (hk : s.find k' = some (v, e)) (hd : v.die = w.die) (hc : v.ctx = w.ctx) :
      ∃ v' e', u.find k' = some (v', e') ∧ v'.ctx = w.ctx ∧ (∀ n, e'.access n = (s.sharing but w.ctx p.addr .invalid k' v e).access n)
        ∧ ((s.sharing but w.ctx p.addr .invalid k' v e).walking = [] → e'.walking = [])
        ∧ e'.fetchHeld = (s.sharing but w.ctx p.addr .invalid k' v e).fetchHeld := by
    obtain ⟨v1, h1, hd1, hc1⟩ := State.find_walkFailed hk hd hc but p.addr ts
    rw [hwalk] at h1
    obtain ⟨v2, h2, -, hc2⟩ := State.find_served h1 hd1 hc1
    exact ⟨v2, _, h2, hc2, fun _ => rfl, fun h => by simp [h], rfl⟩
  obtain ⟨w1, c1, hf1, hc1, hacc1, hstand1, hheld1⟩ := hshared k w c hf rfl rfl
  have hown : c1.access id = some a := by
    rw [hacc1, State.access_sharing, ha, Option.map_some, Crew.id_of_access ha, if_pos rfl]
  have hnone : p.held = none := by
    simp only [State.walks, Bool.and_eq_true] at hw
    simpa using hw.1.1.1.1
  obtain ⟨c2, r, ht, hcode, hctx, hown2, hothers, hstand2, hheld2⟩ := holdPart_of hf1 hown hp hnone .xlat p.addr
  have hexec : exec (.walkComplete k id) s = .next ((u.put k w1 c2).report r) := by
    rw [walkComplete_of_part hf ha hp, walkPart_fail hf ha hw (State.walkShared_invalid _ hwalk)]
    exact congrArg Host.Outcome.next ht
  have hfind : ((u.put k w1 c2).report r).find k = some (w1.putCrew k.slot c2, c2) := State.find_put u k w1 c2
  refine ⟨_, r.pack, hexec, ?_, ?_, rfl, ?_, fun k' v e id' b q hk hd hc hb hq hwq hpage => ?_, fun k' v e m hk hd hc hm hpage => ?_⟩
  · rw [State.report_out, hctx, hc1]
    rfl
  · rw [Report.pack_code, hcode]
    rfl
  · obtain ⟨a', h, hheld⟩ := hown2
    exact ⟨_, _, a', hfind, h, hheld⟩
  · by_cases hkk : k' = k
    · subst hkk
      obtain ⟨rfl, rfl⟩ : w = v ∧ c = e := by simpa [hf] using hk
      by_cases hid : id' = id
      · subst hid
        obtain ⟨a', h, hheld⟩ := hown2
        exact ⟨_, _, a', hfind, h, hheld⟩
      · obtain ⟨b', h, hheld⟩ := State.sharing_isHeld (but := but) hb (fun h => hid (congrArg Prod.snd (Option.some.inj h)).symm) hq hwq hpage
        exact ⟨_, _, b', hfind, by rw [hothers id' hid, hacc1]; exact h, hheld⟩
    · obtain ⟨v', e', hk', -, hacc, -, -⟩ := hshared k' v e hk hd hc
      obtain ⟨v2, h2⟩ := State.find_put_ne (c := c2) hf1 hk' hkk
      obtain ⟨b', h, hheld⟩ := State.sharing_isHeld (but := but) hb (fun h => hkk (congrArg Prod.fst (Option.some.inj h)).symm) hq hwq hpage
      exact ⟨v2, e', b', h2, (hacc id').trans h, hheld⟩
  · obtain ⟨hnil, hheld⟩ := State.sharing_standing (s := s) (c := w.ctx) (k := k') (w := v) but hm hpage
    by_cases hkk : k' = k
    · subst hkk
      obtain ⟨rfl, rfl⟩ : w = v ∧ c = e := by simpa [hf] using hk
      exact ⟨_, _, hfind, hstand2.trans (hstand1 hnil), (hheld2.trans hheld1).trans hheld⟩
    · obtain ⟨v', e', hk', -, -, hstand, hh⟩ := hshared k' v e hk hd hc
      obtain ⟨v2, h2⟩ := State.find_put_ne (c := c2) hf1 hk' hkk
      exact ⟨v2, e', h2, hstand hnil, hh.trans hheld⟩

end

/-! Held accesses and streams. -/

/-- The access of a number with nothing held. -/
def Access.unheld (id : Nat) (a : Access) : Access :=
  if a.id == id then { a with parts := a.parts.map (fun p => { p with held := none }) } else a

/-- A crew after REPLAY of a number (R335). -/
def Crew.replayed (c : Crew) (id : Nat) : Crew :=
  { c with fetchHeld := c.fetchHeld.filter (fun h => h.id != id), flying := c.flying.map (Access.unheld id) }

theorem Crew.mem_replayed_fetchHeld (c : Crew) (id : Nat) (h : FetchHeld) :
    h ∈ (c.replayed id).fetchHeld ↔ h ∈ c.fetchHeld ∧ h.id ≠ id := by
  simp [Crew.replayed, List.mem_filter]

theorem Crew.access_replayed (c : Crew) (id n : Nat) : (c.replayed id).access n = (c.access n).map (Access.unheld id) :=
  Crew.access_map { c with fetchHeld := c.fetchHeld.filter (fun h => h.id != id) } (fun a => by unfold Access.unheld; split <;> rfl) n

theorem Crew.access_replayed_self {c : Crew} {id : Nat} {a : Access} (ha : c.access id = some a) :
    ∃ a', (c.replayed id).access id = some a' ∧ a'.isHeld = false := by
  rw [Crew.access_replayed, ha]
  exact ⟨_, rfl, by simp [Access.unheld, Crew.id_of_access ha, Access.isHeld]⟩

theorem Crew.access_replayed_ne (c : Crew) {id n : Nat} (hn : n ≠ id) : (c.replayed id).access n = c.access n := by
  rw [Crew.access_replayed]
  cases h : c.access n with
  | none => rfl
  | some b => simp [Access.unheld, Crew.id_of_access h, hn]

section
variable {s : State} {k : CrewKey} {w : Workgroup} {c : Crew} (hf : s.find k = some (w, c)) (id : Nat)
include hf

/-- What is replayed is held no more, and everything else of the crew stays. -/
theorem replay_of : exec (.replay k id) s = .next (s.put k w (c.replayed id)) := by
  show execReplay k id s = _
  unfold execReplay
  rw [hf]
  rfl

variable {id}

theorem decline_stream {h : FetchHeld} (hh : c.fetchHeld.find? (fun h => h.id == id) = some h) : exec (.decline k id) s =
    if h.joint then .next (s.raiseAll k.wid w (w.participants c.role) h.held.code (BitVec.ofNat 64 h.held.addr) true)
    else .next (s.raise k (c.sideOf h.stream) h.held.code (BitVec.ofNat 64 h.held.addr) h.stream true (c.at h.stream)) := by
  show execDecline k id s = _
  unfold execDecline
  simp only [hf, hh]

section
variable {a : Access} {h : Held} (hh : c.fetchHeld.find? (fun h => h.id == id) = none) (ha : c.access id = some a)
  (hp : a.parts.findSome? (fun p => p.held) = some h)
include hh ha hp

theorem decline_access (hk : ∀ book code got, a.kind ≠ .cbload book code got) :
    exec (.decline k id) s = .next (s.raise k a.side h.code (BitVec.ofNat 64 h.addr) a.stream true a.pc) := by
  show execDecline k id s = _
  unfold execDecline
  simp only [hf, hh, ha, hp]

/-- A codebook load that is declined leaves no entries (R161). -/
theorem decline_book {book : Nat} {code : BitVec 2} {got : Cells 8} (hk : a.kind = .cbload book code got) : exec (.decline k id) s = .next
    ((s.put k { w with books := w.books.erase book } (c.putAccess { a with parts := [] })).raise k a.side h.code
      (BitVec.ofNat 64 h.addr) a.stream true a.pc) := by
  show execDecline k id s = _
  unfold execDecline
  simp only [hf, hh, ha, hp, hk]

end

end

/-! Shootdowns. -/

theorem shootSize_eq (n : Nat) (h : n < 4) : shootSize n = [2 ^ 16, 2 ^ 21, 2 ^ 30, 2 ^ 52].getD n 0 := by
  interval_cases n <;> rfl

theorem overlap_iff (a n b m : Nat) : overlap a n b m = true ↔ a < b + m ∧ b < a + n := decide_eq_true_iff

/-- The state once a shootdown has begun (R327). -/
def State.shooting (s : State) (io c va size : Nat) : State :=
  { s.dropCached c va size with shootdowns := s.shootdowns ++ [⟨io, c, va, size⟩] }

theorem exec_shootdown (s : State) (io : Nat) (cmd : BitVec 128) : exec (.shootdown io cmd) s = .next (s.shooting io (nfld cmd 32 8)
    (if nfld cmd 0 2 = 3 then 0 else nfld cmd 64 52) ([2 ^ 16, 2 ^ 21, 2 ^ 30, 2 ^ 52].getD (nfld cmd 0 2) 0)) := by
  rw [← shootSize_eq (nfld cmd 0 2) (fld cmd 0 2).isLt]
  rfl

theorem State.shooting_reg (s : State) (io c va size : Nat) : (s.shooting io c va size).shootReg io = 0 := by
  simp [State.shootReg, State.shooting]

/-- A cached range of a context stays over a shootdown unless the two share an address. -/
theorem dropped_iff {p : Prop} (ctx c a n va size : Nat) :
    (p ∧ (!(ctx == c && overlap a n va size)) = true) ↔ p ∧ (ctx = c → ¬ (a < va + size ∧ va < a + n)) := by
  rw [Bool.not_eq_true', Bool.and_eq_false_imp, Bool.eq_false_iff, ne_eq, overlap_iff, beq_iff_eq]

section
variable {s : State} {io : Nat} {d : Shootdown} (hd : s.shootdowns.find? (fun x => x.io == io) = some d)
include hd

theorem exec_shootdownAcknowledge : exec (.shootdownAcknowledge io) s =
    if (s.flyingWhere (fun w a => w.ctx == d.ctx && a.usesPage d.va d.size)).isEmpty then
      .next (({ s with shootdowns := s.shootdowns.erase d } : State).dropCached d.ctx d.va d.size)
    else .next s := by
  show execShootdownAcknowledge io s = _
  unfold execShootdownAcknowledge
  rw [hd]

end

/-- Settles O53: a walk by its outcome, what is held by its number, and a shootdown by what stands in its range. -/
theorem translationsAreWalkedHeldAndShotDown : Obligations.TranslationsAreWalkedHeldAndShotDown := by
  intro s k w c hf
  refine ⟨fun id a p l ts pa ha hp hw hwalk hl => walkComplete_leaf hf ha hp hw hwalk hl,
    fun id a p ts ha hp hw hwalk => walkComplete_invalid hf ha hp hw hwalk,
    fun id a p l ts ha hp hw hwalk => walkComplete_moving hf ha hp hw hwalk, fun id => ⟨_, replay_of hf id, rfl, c.mem_replayed_fetchHeld id,
      fun a ha => Crew.access_replayed_self ha, fun n hn => c.access_replayed_ne hn⟩,
    fun id h hh => ⟨fun hj => ?stream, fun hj => ?joint⟩, fun id a h hh ha hp => ⟨fun hk => ?access, fun book code got hk => ?book⟩,
    fun io cmd => ?shootdown, fun ctx va size => ⟨fun e => ?tlb, fun e => ?tables, rfl, rfl⟩, fun io d hd => ⟨fun hu => ?ends, fun hu => ?waits⟩⟩
  case stream => rw [decline_stream hf hh, if_neg (by rw [hj]; exact Bool.false_ne_true)]
  case joint => rw [decline_stream hf hh, if_pos hj]
  case access => exact decline_access hf hh ha hp hk
  case book => exact decline_book hf hh ha hp hk
  case shootdown => exact ⟨_, exec_shootdown s io cmd, rfl, State.shooting_reg _ _ _ _ _⟩
  case tlb => exact List.mem_filter.trans (dropped_iff _ _ _ _ _ _)
  case tables => exact List.mem_filter.trans (dropped_iff _ _ _ _ _ _)
  case ends => exact (exec_shootdownAcknowledge hd).trans (if_pos (List.isEmpty_iff.2 hu))
  case waits => exact (exec_shootdownAcknowledge hd).trans (if_neg (mt List.isEmpty_iff.1 hu))

end Sys2Proof.Machine
end

section
/-! SUPPORT. Dispatch (20 R312 to R318; 01 R22, R36, R39): draws, admissions and retirements. -/

namespace Sys2Proof.Machine

/-! Draws. -/

theorem dispatcherDraw_draws {s : State} {die n : Nat} {g : Grid} (hg : s.grids.find? n = some g) (hd : s.canDraw (n, g) die = true)
    (hs : s.savedFirst die = false)
    (ho : ∀ e ∈ s.grids, s.canAdmit e die = false ∧ (s.canDraw e die = false ∨ gridBefore e (n, g) = false)) :
    exec (.dispatcherDraw die n) s = .next { s with grids := s.grids.insert n (g.draw die g.copy.batch) } := by
  have hothers : s.grids.any (fun e => s.canAdmit e die || (s.canDraw e die && gridBefore e (n, g))) = false := by
    rw [List.any_eq_false]
    intro e he
    obtain ⟨ha, hb⟩ := ho e he
    rw [ha, Bool.false_or, Bool.and_eq_true, not_and_or, Bool.not_eq_true, Bool.not_eq_true]
    exact hb
  show execDispatcherDraw die n s = _
  simp only [execDispatcherDraw, hg, hd, hs, hothers, Bool.not_true, Bool.or_false, Bool.false_eq_true, if_false]

/-! Admission. -/

/-- A crew at admission is one of a role's, and is reserved where no lane of it starts live (R22). -/
theorem LaunchCopy.mem_crewsAt {r : LaunchCopy} {e : Nat × Crew} (he : e ∈ r.crewsAt) :
    ∃ role k, role < 4 ∧ e.2 = r.crewAt role k := by
  obtain ⟨role, hr, hk⟩ := List.mem_flatMap.1 (List.of_mem_zip he).2
  obtain ⟨k, -, hc⟩ := List.mem_map.1 hk
  have : role ∈ [0, 1, 2, 3] := (List.mem_filter.1 hr).1
  refine ⟨role, k, ?_, hc.symm⟩
  simp only [List.mem_cons, List.not_mem_nil, or_false] at this
  omega

theorem LaunchCopy.crewsAt_fresh {r : LaunchCopy} {e : Nat × Crew} (he : e ∈ r.crewsAt) :
    e.2.sreg = [] ∧ e.2.vreg = [] ∧ e.2.xreg = [] ∧ e.2.preds = [] ∧ e.2.sTag = []
      ∧ e.2.pc = BitVec.ofNat 52 (r.entry e.2.role.toNat) ∧ e.2.live = r.liveAt e.2.role.toNat e.2.number
      ∧ e.2.status = if e.2.live = 0 then .reserved else .live := by
  obtain ⟨role, k, hrole, hc⟩ := LaunchCopy.mem_crewsAt he
  have hr : (r.crewAt role k).role.toNat = role := (BitVec.toNat_ofNat role 2).trans (Nat.mod_eq_of_lt hrole)
  rw [hc, hr]
  exact ⟨rfl, rfl, rfl, rfl, rfl, rfl, rfl, rfl⟩

theorem workgroupAdmission_admits {s : State} {die n index core : Nat} {g : Grid} (hg : s.grids.find? n = some g)
    (ha : s.canAdmit (n, g) die = true) (hs : s.savedFirst die = false) (hi : g.drawnOn die = some index) (hc : s.pickCore g die = some core)
    (ho : ∀ e ∈ s.grids, s.canAdmit e die = false ∨ gridBefore e (n, g) = false) :
    exec (.workgroupAdmission die n) s = .next (s.admitOn n g die index core) := by
  have hothers : s.grids.any (fun e => s.canAdmit e die && gridBefore e (n, g)) = false := by
    rw [List.any_eq_false]
    intro e he
    rw [Bool.and_eq_true, not_and_or, Bool.not_eq_true, Bool.not_eq_true]
    exact ho e he
  show execWorkgroupAdmission die n s = _
  simp only [execWorkgroupAdmission, hg, ha, hs, hothers, Bool.not_true, Bool.or_false, Bool.false_eq_true, if_false, State.admitNext, hi, hc]

/-- The workgroup that a drawn index becomes. -/
def State.admitted (s : State) (n : Nat) (g : Grid) (die index core : Nat) : Workgroup :=
  g.newWorkgroup n index die core (s.freeShare s.nextWid die core) s.nextWid

theorem State.admitted_share (s : State) (n : Nat) (g : Grid) (die index core : Nat) :
    (s.admitted n g die index core).share = s.freeShare s.nextWid die core := by
  simp only [State.admitted, Grid.newWorkgroup]

/-- The lines that a workgroup sets at admission: the registers of the crews that start, its tiles and its scratchpad (R43, R87). -/
theorem Workgroup.mem_heldLines {w : Workgroup} (ha : w.accs = []) (hb : w.books = []) (tiles spBytes : Nat) (l : ArrayLine) :
    l ∈ w.heldLines tiles spBytes ↔ (∃ e ∈ w.crews, e.2.status ≠ .reserved ∧ ∃ array, array < 2 ∧ l = ⟨array, e.1 % 64⟩)
      ∨ (∃ i, i < tiles ∧ l = ⟨2, i⟩) ∨ ∃ i, 4096 * i < spBytes ∧ l = ⟨4, i⟩ := by
  have hcrews : l ∈ w.crewLines ↔ ∃ e ∈ w.crews, e.2.status ≠ .reserved ∧ ∃ array, array < 2 ∧ l = ⟨array, e.1 % 64⟩ := by
    have hpair (e : Nat × Crew) : l ∈ [(⟨0, e.1 % 64⟩ : ArrayLine), ⟨1, e.1 % 64⟩] ↔ ∃ array, array < 2 ∧ l = ⟨array, e.1 % 64⟩ := by
      simp only [List.mem_cons, List.not_mem_nil, or_false]
      constructor
      · rintro (h | h)
        · exact ⟨0, by omega, h⟩
        · exact ⟨1, by omega, h⟩
      · rintro ⟨array, ha, h⟩
        interval_cases array
        · exact .inl h
        · exact .inr h
    simp only [Workgroup.crewLines, List.mem_flatMap, List.mem_filter, decide_eq_true_eq, hpair, and_assoc]
  have hscratch (i : Nat) : i < (spBytes + 4095) / 4096 ↔ 4096 * i < spBytes := by omega
  simp only [Workgroup.heldLines, ha, hb, SMap.keys, List.map_nil, List.append_nil, List.mem_append, hcrews, List.mem_map, List.mem_range,
    hscratch, or_assoc, eq_comm (b := l)]

/-- The tags of the arrays after an admission (R290). -/
theorem State.admitOn_tags (s : State) (n : Nat) (g : Grid) (die index core key : Nat) :
    let line := fun (array i : Nat) => tagKey array die core (2048 * (s.admitted n g die index core).share + i)
    let set := (∃ e ∈ (s.admitted n g die index core).crews, e.2.status ≠ .reserved ∧ ∃ array, array < 2 ∧ key = line array (e.1 % 64))
      ∨ (∃ i, i < g.tileCount ∧ key = line 2 i) ∨ (∃ i, 4096 * i < g.spBytes ∧ key = line 4 i)
    (set → (s.admitOn n g die index core).tags.find? key = some ⟨g.ctx, (s.ctx g.ctx).secure⟩)
      ∧ (¬ set → (s.admitOn n g die index core).tags.find? key = s.tags.find? key) := by
  intro line set
  let w := s.admitted n g die index core
  let u : State := { s with
    grids := s.grids.insert n { g with drawn := dropFirst (die, index) g.drawn }, wgs := s.wgs.insert s.nextWid w, nextWid := s.nextWid + 1 }
  have hgrid : u.gridOf w = { g with drawn := dropFirst (die, index) g.drawn } := SMap.get_insert_self _ _ _
  have htags : (s.admitOn n g die index core).tags.find? key
      = if key ∈ (w.heldLines g.tileCount g.spBytes).map w.lineKey then some ⟨g.ctx, (s.ctx g.ctx).secure⟩ else s.tags.find? key := by
    show (u.mark w (w.heldLines (u.gridOf w).tileCount (u.gridOf w).spBytes)).tags.find? key = _
    rw [State.mark_tags, hgrid]
    rfl
  have hset : key ∈ (w.heldLines g.tileCount g.spBytes).map w.lineKey ↔ set := by
    simp only [List.mem_map, Workgroup.mem_heldLines (w := w) rfl rfl, set, line]
    constructor
    · rintro ⟨l, ⟨e, he, hs, array, ha, rfl⟩ | ⟨i, hi, rfl⟩ | ⟨i, hi, rfl⟩, rfl⟩
      · exact .inl ⟨e, he, hs, array, ha, rfl⟩
      · exact .inr (.inl ⟨i, hi, rfl⟩)
      · exact .inr (.inr ⟨i, hi, rfl⟩)
    · rintro (⟨e, he, hs, array, ha, rfl⟩ | ⟨i, hi, rfl⟩ | ⟨i, hi, rfl⟩)
      · exact ⟨_, .inl ⟨e, he, hs, array, ha, rfl⟩, rfl⟩
      · exact ⟨_, .inr (.inl ⟨i, hi, rfl⟩), rfl⟩
      · exact ⟨_, .inr (.inr ⟨i, hi, rfl⟩), rfl⟩
  rw [htags]
  exact ⟨fun h => if_pos (hset.2 h), fun h => if_neg (mt hset.1 h)⟩

/-! Co-resident admission. -/

theorem Grid.drawShares_atHead (g : Grid) (sh : List (Nat × Nat)) (order : List Nat) : (g.drawShares sh order).atHead = g.atHead := by
  unfold Grid.drawShares
  generalize order ++ sh.flatMap (fun p => List.replicate p.2 p.1) = ds
  induction ds generalizing g with
  | nil => rfl
  | cons d ds ih => exact ih _

/-- A grid stays listed, and at its head or not, while indices of it are admitted. -/
theorem State.admitShares_atHead {s : State} {n : Nat} {g : Grid} (hg : s.grids.find? n = some g) (sh : List (Nat × Nat)) :
    ∃ g', (s.admitShares n sh).grids.find? n = some g' ∧ g'.atHead = g.atHead := by
  unfold State.admitShares
  generalize sh.flatMap (fun p => List.replicate p.2 p.1) = ds
  induction ds generalizing s g with
  | nil => exact ⟨g, hg, rfl⟩
  | cons d ds ih =>
    have hnext : ∃ g', (s.admitNext n d).grids.find? n = some g' ∧ g'.atHead = g.atHead := by
      unfold State.admitNext
      rw [hg]
      dsimp only
      split
      · exact ⟨_, SMap.find?_insert_self _ _ _, rfl⟩
      · exact ⟨g, hg, rfl⟩
    obtain ⟨g1, hg1, h1⟩ := hnext
    obtain ⟨g2, hg2, h2⟩ := ih hg1
    exact ⟨g2, hg2, h2.trans h1⟩

theorem State.leaveHead_grids (s : State) (g : Grid) : (s.leaveHead g).grids = s.grids := by
  unfold State.leaveHead
  split
  · exact State.advance_grids _ _ _
  · rfl
  · rfl

theorem State.shares_dies (s : State) (n : Nat) (g : Grid) (total : Nat) (ds : List Nat) : (s.shares n g total ds).map (·.1) = ds := by
  induction ds generalizing total with
  | nil => rfl
  | cons d ds ih => exact congrArg (d :: ·) (ih _)

theorem State.fits_of {s : State} {n : Nat} {g : Grid} {sh : List (Nat × Nat)} (h : s.fits (n, g) = some sh) :
    g.atHead = true ∧ s.barred g.ctx n = false ∧ (sh.map (·.2)).sum = g.copy.total ∧ sh.map (·.1) = s.diesOf g.ctx := by
  unfold State.fits at h
  dsimp only at h
  split at h
  · next hc =>
    cases h
    simp only [Bool.and_eq_true, Bool.not_eq_true', decide_eq_true_eq] at hc
    obtain ⟨⟨hhead, hbar⟩, hsum⟩ := hc
    exact ⟨hhead, hbar, hsum, State.shares_dies _ _ _ _ _⟩
  · cases h

section
variable {s : State} {n : Nat} {g : Grid} (hg : s.grids.find? n = some g) (order : List Nat)
include hg

theorem coresidentAdmission_none (hf : s.fits (n, g) = none) : exec (.coresidentAdmission n order) s = .next s := by
  show execCoresidentAdmission n order s = _
  simp only [execCoresidentAdmission, hg, hf]

theorem coresidentAdmission_fits {sh : List (Nat × Nat)} (hf : s.fits (n, g) = some sh) : exec (.coresidentAdmission n order) s =
    if s.beforeShares (n, g) then .next s
    else .next ((({ s with grids := s.grids.insert n (({ g with atHead := false } : Grid).drawShares sh order) } : State).admitShares n sh).leaveHead g) := by
  show execCoresidentAdmission n order s = _
  simp only [execCoresidentAdmission, hg, hf]

end

/-! Retirement. -/

section
variable {s : State} {wid : Nat} {w : Workgroup} (hw : s.wgs.find? wid = some w)
include hw

theorem workgroupRetirement_waits (h : s.frozen w = true ∨ w.finished = false) : exec (.workgroupRetirement wid) s = .next s := by
  show execWorkgroupRetirement wid s = _
  unfold execWorkgroupRetirement
  rw [hw]
  dsimp only
  rw [if_pos]
  rcases h with h | h <;> simp [h]

theorem workgroupRetirement_of (hf : s.frozen w = false) (hd : w.finished = true) : exec (.workgroupRetirement wid) s =
    if w.children.isEmpty then .next ((s.retireWg wid w).offer w.die w.core).drained
    else if w.parked then .next s
    else .next ((s.putWg wid w.park).offer w.die w.core).drained := by
  show execWorkgroupRetirement wid s = _
  simp only [execWorkgroupRetirement, hw, hf, hd, Bool.not_true, Bool.or_false, Bool.false_eq_true, if_false]

end

/-- A workgroup that retires is counted in its grid, which ends with its last one (R36, R115). -/
theorem State.retireWg_of {s : State} {w : Workgroup} {g : Grid} (hg : s.grids.find? w.seq = some g) (wid : Nat) :
    s.retireWg wid w = if g.copy.total ≤ g.done + 1
      then ({ s with wgs := s.wgs.erase wid, grids := s.grids.insert w.seq { g with done := g.done + 1 } } : State).retireGrid w.seq 0 0
      else { s with wgs := s.wgs.erase wid, grids := s.grids.insert w.seq { g with done := g.done + 1 } } := by
  unfold State.retireWg
  simp only [SMap.modify_of_find? _ hg, SMap.get_insert_self]

theorem State.retireGrid_gone (s : State) (seq result : Nat) (fault : BitVec 384) : (s.retireGrid seq result fault).grids.find? seq = none := by
  obtain ⟨-, hgone⟩ := ending_retireGrid s seq result fault
  cases h : (s.retireGrid seq result fault).grids.find? seq with
  | none => rfl
  | some g => exact absurd rfl (hgone _ (SMap.mem_of_find? h))

/-- Settles O52: each of the dispatcher's events by the tests before it. -/
theorem gridsAreDrawnAdmittedAndRetired : Obligations.GridsAreDrawnAdmittedAndRetired := by
  intro s die n g hg
  refine ⟨fun hd hs ho => ⟨_, dispatcherDraw_draws hg hd hs ho, rfl, rfl⟩, fun index core ha hs hi hc ho => ?admission,
    fun order => ⟨coresidentAdmission_none hg order, fun sh hf => ⟨fun hb => ?before, fun hb => ?together⟩⟩, fun sh hf => State.fits_of hf,
    fun wid w hw hseq hf hd => ⟨fun hc => ⟨?retires, fun hlt => ?counted, fun hle => ?last⟩, fun hc hp => ⟨?parks, rfl, rfl, rfl⟩,
      fun hc hp => ?parked⟩, fun wid w hw h => workgroupRetirement_waits hw h⟩
  case admission =>
    refine ⟨_, s.admitted n g die index core, workgroupAdmission_admits hg ha hs hi hc ho, rfl, rfl, rfl, rfl, rfl, rfl, rfl, rfl, rfl, rfl,
      rfl, rfl, ?_, rfl, rfl, ?_, ?_, ?_⟩
    · exact fun e he => LaunchCopy.crewsAt_fresh he
    · exact congrArg Grid.drawn (SMap.get_insert_self _ _ _)
    · intro hlt v hv
      rw [State.admitted_share]
      exact State.freeShare_free hlt v hv
    · exact fun key => State.admitOn_tags s n g die index core key
  case before => rw [coresidentAdmission_fits hg order hf, if_pos hb]
  case together =>
    refine ⟨_, (coresidentAdmission_fits hg order hf).trans (if_neg (by rw [hb]; exact Bool.false_ne_true)), rfl, ?_⟩
    obtain ⟨g', hg', hhead⟩ := State.admitShares_atHead
      (s := { s with grids := s.grids.insert n (({ g with atHead := false } : Grid).drawShares sh order) }) (SMap.find?_insert_self _ _ _) sh
    rw [State.leaveHead_grids, SMap.get_of_find? hg', hhead, Grid.drawShares_atHead]
  case retires => rw [workgroupRetirement_of hw hf hd, hc]; rfl
  case counted =>
    subst hseq
    rw [State.retireWg_of hg, if_neg (Nat.not_le.2 hlt)]
    exact ⟨rfl, congrArg Grid.done (SMap.get_insert_self _ _ _), rfl⟩
  case last =>
    subst hseq
    rw [State.retireWg_of hg, if_pos hle]
    exact State.retireGrid_gone _ _ _ _
  case parks => rw [workgroupRetirement_of hw hf hd, if_neg (mt List.isEmpty_iff.1 hc), if_neg (by rw [hp]; exact Bool.false_ne_true)]
  case parked => rw [workgroupRetirement_of hw hf hd, if_neg (mt List.isEmpty_iff.1 hc), if_pos hp]

end Sys2Proof.Machine
end

section
/-! SUPPORT. The pre-emption ladder and resumption (22 R339 to R343, R349, R366): what a command is refused for, what its rungs wait for, and
what a save area brings back. -/

namespace Sys2Proof.Machine

/-! Commands. -/

theorem fld_eq_zero_iff {w : Nat} (x : BitVec w) (lo len : Nat) : fld x lo len = 0 ↔ nfld x lo len = 0 := by
  rw [Laws.nfld_eq_toNat_fld]
  exact ⟨fun h => by rw [h]; rfl, fun h => BitVec.eq_of_toNat_eq (h.trans rfl)⟩

/-- A field that stands for a default has it where it is all ones, so that it is 0 where it says 0 alone. -/
theorem default_eq_zero_iff {w : Nat} {x ones v : BitVec w} (ho : ones ≠ 0) (hv : v ≠ 0) : (if x = ones then v else x) = 0 ↔ x = 0 := by
  split
  · next h => rw [h]; exact ⟨fun h => absurd h hv, fun h => absurd h ho⟩
  · rfl

theorem ladderOf_saveUs (io : Nat) (cmd : BitVec 256) (mask : BitVec 512) : (ladderOf io cmd mask).saveUs = 0 ↔ nfld cmd 64 32 = 0 :=
  (default_eq_zero_iff (by decide) (by decide)).trans (fld_eq_zero_iff _ _ _)

theorem ladderOf_drainUs (io : Nat) (cmd : BitVec 256) (mask : BitVec 512) : (ladderOf io cmd mask).drainUs = 0 ↔ nfld cmd 32 32 = 0 :=
  (default_eq_zero_iff (by decide) (by decide)).trans (fld_eq_zero_iff _ _ _)

theorem Ladder.refused_iff (l : Ladder) :
    l.refused = true ↔ 3 ≤ l.scope ∨ l.saveUs = 0 ∨ ∃ d, d < 8 ∧ nfld l.mask (64 * d + 56) 8 ≠ 0 := by
  simp only [Ladder.refused, Bool.or_eq_true, decide_eq_true_eq, beq_iff_eq, List.any_eq_true, List.mem_range, bne_iff_ne, or_assoc]
  exact Iff.rfl

/-- Only a command of SCOPE 2 has a core mask. -/
theorem State.coreMask_of_ne {s : State} {cmd : BitVec 256} (h : nfld cmd 0 8 ≠ 2) : s.coreMask cmd = 0 := if_neg h

/-- A command is refused where SCOPE is above 2, SAVEUS is 0, or a core mask names a core that is none (R339). -/
theorem State.refused_iff (s : State) (io : Nat) (cmd : BitVec 256) : (ladderOf io cmd (s.coreMask cmd)).refused = true ↔
    3 ≤ nfld cmd 0 8 ∨ nfld cmd 64 32 = 0 ∨ (nfld cmd 0 8 = 2 ∧ ∃ d, d < 8 ∧ nfld (s.coreMask cmd) (64 * d + 56) 8 ≠ 0) := by
  rw [Ladder.refused_iff, ladderOf_saveUs]
  refine or_congr_right (or_congr_right ⟨fun h => ⟨?_, h⟩, And.right⟩)
  by_contra hne
  obtain ⟨d, -, hd⟩ := h
  refine hd ?_
  show nfld (s.coreMask cmd) (64 * d + 56) 8 = 0
  rw [State.coreMask_of_ne hne, ← fld_eq_zero_iff]
  simp [fld]

theorem ladderCommand_refused {s : State} {io : Nat} {cmd : BitVec 256} (h : (ladderOf io cmd (s.coreMask cmd)).refused = true) :
    exec (.ladderCommand io cmd) s = .next (s.fwWrite (nfld cmd 192 64) (leBytes 4 3 ++ leBytes 4 0)) := if_pos h

theorem ladderCommand_drains {s : State} {io : Nat} {cmd : BitVec 256} (h : (ladderOf io cmd (s.coreMask cmd)).refused = false)
    (hd : nfld cmd 32 32 ≠ 0) : exec (.ladderCommand io cmd) s
      = .next ({ s with ladders := s.ladders ++ [ladderOf io cmd (s.coreMask cmd)] } : State).drained :=
  (if_neg (by rw [h]; exact Bool.false_ne_true)).trans (if_neg (mt (ladderOf_drainUs _ _ _).1 hd))

/-! The drain rung. -/

theorem State.fwWrite_ladders (s : State) (a : Nat) (bs : List Byte) : (s.fwWrite a bs).ladders = s.ladders :=
  (congrArg State.ladders (onlyMemory_fwWrite s a bs)).trans rfl

theorem State.fwWrite_pools (s : State) (a : Nat) (bs : List Byte) : (s.fwWrite a bs).pools = s.pools :=
  (congrArg State.pools (onlyMemory_fwWrite s a bs)).trans rfl

theorem State.fwWrite_wgs (s : State) (a : Nat) (bs : List Byte) : (s.fwWrite a bs).wgs = s.wgs := (Posted.ofMemory (onlyMemory_fwWrite s a bs)).wgs

section
variable {s : State} {l : Ladder} (hl : s.ladders = [l])
include hl

/-- A drain rung ends with DRAINED once no workgroup of its scope is resident (R340). -/
theorem State.drained_ends (hr : l.rung = .drain) (h : ∀ e ∈ s.wgs, e.2.parked = true ∨ l.names e.2 = false) :
    s.drained = { s.fwWrite l.pool (leBytes 4 0 ++ leBytes 4 l.areas.length) with ladders := [] } := by
  have hall : s.wgs.values.all (fun w => w.parked || !l.names w) = true := by
    simp only [SMap.values, List.all_map, List.all_eq_true, Function.comp, Bool.or_eq_true, Bool.not_eq_true']
    exact h
  simp [State.drained, hl, hr, hall, State.ladderEnd, State.fwWrite_ladders]

/-- A drain rung waits while its scope holds a resident workgroup (R340). -/
theorem State.drained_waits (h : ∃ e ∈ s.wgs, e.2.parked = false ∧ l.names e.2 = true) : s.drained = s := by
  have hall : s.wgs.values.all (fun w => w.parked || !l.names w) = false := by
    obtain ⟨e, he, hp, hn⟩ := h
    exact List.all_eq_false.2 ⟨e.2, List.mem_map_of_mem he, by simp [hp, hn]⟩
  simp only [State.drained, hl, hall, Bool.and_false, Bool.not_false, List.filter_cons, List.filter_nil, Bool.false_eq_true, if_false,
    List.foldl_nil, if_true]
  rw [← hl]

end

/-! The save rung. -/

theorem State.saved_eq (s : State) (l : Ladder) : s.saved l = { s.fwWrite l.pool (leBytes 4 1 ++ leBytes 4 l.areas.length) with
    ladders := s.ladders.erase l, pools := s.pools ++ [⟨l.io, l.pool, l.ctx, false, l.areas⟩] } := by
  simp only [State.saved, State.ladderEnd, State.fwWrite_ladders, State.fwWrite_pools]

theorem State.startSave_empty {s : State} {l : Ladder} (h : ∀ e ∈ s.wgs, s.inScope l e.2 = false) : s.startSave l = s.saved l := by
  have hnone : s.wgs.values.filter (s.inScope l) = [] := by
    refine List.filter_eq_nil_iff.2 fun w hw => ?_
    obtain ⟨e, he, rfl⟩ := List.mem_map.1 hw
    rw [h e he]
    exact Bool.false_ne_true
  exact if_pos (by rw [hnone]; rfl)

/-- The workgroups of a ladder's scope, by their admissions. -/
def State.membersOf (s : State) (l : Ladder) : List Nat := (s.wgs.values.filter (s.inScope l)).map (·.admitted)

/-- The state in which the save rung of a ladder has begun and its quiesce limit has not passed. -/
def State.saving (s : State) (l : Ladder) : State :=
  { s.putLadder l { l with rung := .save, members := s.membersOf l } with
    wgs := s.wgs.mapVals (fun w => if (s.membersOf l).contains w.admitted then w.unwait else w) }

theorem State.startSave_saving {s : State} {l : Ladder} (h : ∃ e ∈ s.wgs, s.inScope l e.2 = true) (hq : l.quiesceUs ≠ 0) :
    s.startSave l = s.saving l := by
  have hsome : (s.membersOf l).isEmpty = false := by
    obtain ⟨e, he, hs⟩ := h
    rw [List.isEmpty_eq_false_iff_exists_mem]
    exact ⟨_, List.mem_map_of_mem (List.mem_filter.2 ⟨List.mem_map_of_mem he, hs⟩)⟩
  have hrung : (if l.quiesceUs = 0 then Rung.quiesced else Rung.save) = .save := if_neg hq
  unfold State.startSave
  refine (if_neg (by rw [Bool.not_eq_true]; exact hsome)).trans ?_
  refine (if_neg hq).trans ?_
  rw [hrung]
  rfl

theorem State.saving_frozen {s : State} {l : Ladder} (hl : l ∈ s.ladders) {n : Nat} {w v : Workgroup} (hw : s.wgs.find? n = some w)
    (hs : s.inScope l w = true) (hv : (s.saving l).wgs.find? n = some v) : (s.saving l).frozen v = true := by
  have hadm : v.admitted = w.admitted := by
    have hmap := SMap.find?_map s.wgs (fun _ w => if (s.membersOf l).contains w.admitted then w.unwait else w) n
    rw [hw] at hmap
    obtain rfl := Option.some.inj (hv.symm.trans hmap)
    dsimp only
    split <;> rfl
  have hmem : w.admitted ∈ s.membersOf l := List.mem_map_of_mem (List.mem_filter.2 ⟨SMap.mem_values hw, hs⟩)
  refine List.any_eq_true.2 ⟨{ l with rung := .save, members := s.membersOf l }, List.mem_map.2 ⟨l, hl, if_pos rfl⟩, ?_⟩
  rw [hadm]
  simpa using hmem

theorem State.mem_of_ladder {s : State} {io pool : Nat} {l : Ladder} (h : s.ladder io pool = some l) :
    l ∈ s.ladders ∧ l.io = io ∧ l.pool = pool := by
  obtain ⟨hio, hpool⟩ : l.io = io ∧ l.pool = pool := by simpa using List.find?_some h
  exact ⟨List.mem_of_find?_eq_some h, hio, hpool⟩

/-- A ladder that keeps its I/O die and its pool is found as it has become. -/
theorem State.ladder_putLadder {s : State} {io pool : Nat} {l l' : Ladder} (h : s.ladder io pool = some l) (hio : l'.io = l.io)
    (hpool : l'.pool = l.pool) : (s.putLadder l l').ladder io pool = some l' := by
  unfold State.ladder State.putLadder
  rw [List.find?_map]
  have hcomp : (fun x : Ladder => x.io == io && x.pool == pool) ∘ (fun x => if x = l then l' else x)
      = fun x => x.io == io && x.pool == pool := by
    funext x
    by_cases hx : x = l
    · simp [hx, hio, hpool]
    · simp [hx]
  rw [hcomp]
  refine (congrArg _ h).trans ?_
  simp

section
variable {s : State} {io pool : Nat} {l : Ladder} (h : s.ladder io pool = some l)
include h

theorem saveRungStart_of (hr : l.rung = .drain) : exec (.saveRungStart io pool) s = .next (s.startSave l) := by
  show execSaveRungStart io pool s = _
  simp only [execSaveRungStart, h, hr, if_true]

theorem quiesceLimitExpiry_of : exec (.quiesceLimitExpiry io pool) s =
    if l.rung = .drain then .next s else .next ((s.putLadder l { l with rung := .quiesced }).saveAll io pool) := by
  show execQuiesceLimitExpiry io pool s = _
  simp only [execQuiesceLimitExpiry, h]

theorem saveDeadlineExpiry_of : exec (.saveDeadlineExpiry io pool) s =
    if l.rung = .drain then .next s else .next (s.endContext l.ctx .deadline) := by
  show execSaveDeadlineExpiry io pool s = _
  simp only [execSaveDeadlineExpiry, h]

/-- A save rung with no workgroup left ends with SAVED (R341). -/
theorem State.saveAll_none (hw : s.wgs = []) : s.saveAll io pool = s.saved l := by
  simp [State.saveAll, hw, SMap.keys, SMap.values, h]

end

/-! One workgroup. -/

section
variable {s : State} {io pool wid : Nat} {l : Ladder} {w : Workgroup} (hl : s.ladder io pool = some l) (hw : s.wgs.find? wid = some w)
include hl hw

/-- A workgroup is saved only as one of the scope whose accesses are quiet (R341). -/
theorem saveOne_waits (h : ¬ (w.admitted ∈ l.members ∧ s.quiet w = true)) : s.saveOne io pool wid = s := by
  simp only [State.saveOne, hl, hw]
  refine if_pos ?_
  rw [Bool.not_eq_true', Bool.eq_false_iff, ne_eq, Bool.and_eq_true, List.contains_iff_mem]
  exact h

theorem saveOne_ready (h : w.admitted ∈ l.members ∧ s.quiet w = true) : s.saveOne io pool wid =
    if s.mayFlush w && Config.flushed s.tick wid then (s.flush wid w).offer w.die w.core
    else if l.tooBig (w.stopped.areaBytes (s.gridOf w) w.children.length (w.burrowBytes (s.ctx w.ctx))).length then s
    else ({ (s.putLadder l { l with
        areas := l.areas ++ [{ base := l.next, wid := wid, wg := w.stopped, kids := w.children.length, restored := false }]
        next := alignUp 4096 (l.next + (w.stopped.areaBytes (s.gridOf w) w.children.length (w.burrowBytes (s.ctx w.ctx))).length) }).fwWrite l.next
          (w.stopped.areaBytes (s.gridOf w) w.children.length (w.burrowBytes (s.ctx w.ctx))) with
        wgs := s.wgs.erase wid } : State).offer w.die w.core := by
  have hready : (!(l.members.contains w.admitted && s.quiet w)) = false := by
    rw [Bool.not_eq_false', Bool.and_eq_true, List.contains_iff_mem]
    exact h
  simp only [State.saveOne, hl, hw, hready, Bool.false_eq_true, if_false, State.fwWrite_wgs]
  rfl

end

/-! Resumption. -/

/-- A pool of which an area is still to be restored has not ended (R366). -/
theorem State.poolsDone_none {s : State} (h : ∀ p ∈ s.pools, ∃ a ∈ p.areas, a.restored = false) : s.poolsDone = s := by
  have hends (p : Pool) (hp : p ∈ s.pools) : (p.resumed && p.areas.all (·.restored)) = false := by
    obtain ⟨a, ha, hr⟩ := h p hp
    rw [List.all_eq_false.2 ⟨a, ha, by rw [hr]; exact Bool.false_ne_true⟩, Bool.and_false]
  have hnone : s.pools.filter (fun p => p.resumed && p.areas.all (·.restored)) = [] :=
    List.filter_eq_nil_iff.2 fun p hp => by rw [hends p hp]; exact Bool.false_ne_true
  have hall : s.pools.filter (fun p => !(p.resumed && p.areas.all (·.restored))) = s.pools :=
    List.filter_eq_self.2 fun p hp => by rw [hends p hp]; rfl
  unfold State.poolsDone
  dsimp only
  rw [hnone, List.foldl_nil, hall]

theorem resumeCommand_refused {s : State} {io : Nat} {c : BitVec 128} (h : s.resumable io c = none) :
    exec (.resumeCommand io c) s = .next { s with resumeReg := s.resumeReg.put io 1 } := by
  show execResumeCommand io c s = _
  simp only [execResumeCommand, h]

theorem resumeCommand_accepted {s : State} {io : Nat} {c : BitVec 128} {p : Pool} (h : s.resumable io c = some p)
    (ha : ∃ a ∈ p.areas, a.restored = false) (hp : s.pools = [p]) : exec (.resumeCommand io c) s
      = .next { s with resumeReg := s.resumeReg.put io 0, pools := [{ p with resumed := true }] } := by
  show execResumeCommand io c s = _
  have hpools : [p].map (fun x => if x = p then { x with resumed := true } else x) = [{ p with resumed := true }] := by simp
  simp only [execResumeCommand, h, hp, hpools]
  rw [State.poolsDone_none (by simpa using ha)]

/-- A saved workgroup as it is resumed on a core: from what its area holds and, for the rest, as it was saved (R349). -/
def State.resumed (s : State) (a : Area) (w : Workgroup) (die core : Nat) : Workgroup :=
  { w with die := die, core := core, share := s.freeShare a.wid die core, admitted := s.nextWid, children := a.wg.children }

theorem State.resumed_lineKey (s : State) (a : Area) (w : Workgroup) (die core : Nat) (l : ArrayLine) :
    (s.resumed a w die core).lineKey l = tagKey l.array die core (2048 * s.freeShare a.wid die core + l.line) := by
  simp only [Workgroup.lineKey, State.resumed]

/-- An area once one that equals it has been restored. -/
def Area.restoredAs (a x : Area) : Area := if x = a then { x with restored := true } else x

/-- The state once a saved workgroup stands on a core again. -/
def State.restoredOn (s : State) (a : Area) (w : Workgroup) (die core : Nat) : State :=
  { s with
    wgs := s.wgs.insert a.wid ((s.resumed a w die core).withKids a.kids ((s.areaOf a).nat 0x24 4))
    nextWid := s.nextWid + 1
    pools := s.pools.map (fun (p : Pool) => { p with areas := p.areas.map a.restoredAs }) }

section
variable {s : State} {pool area die : Nat} {e : Pool} {a : Area}
  (hf : s.savedAreas.find? (fun x => x.1.base == pool && x.1.areas[area]? == some x.2) = some (e, a))
include hf

theorem mem_of_savedAreas : e ∈ s.pools ∧ a ∈ e.areas := by
  obtain ⟨p, hp, hx⟩ := List.mem_flatMap.1 (List.mem_of_find?_eq_some hf)
  obtain ⟨x, hxa, he⟩ := List.mem_map.1 hx
  cases he
  exact ⟨(List.mem_filter.1 hp).1, (List.mem_filter.1 hxa).1⟩

theorem workgroupResumption_noPlace (h : s.resumePlaces a die = none) : exec (.workgroupResumption pool area die) s = .next s := by
  show execWorkgroupResumption pool area die s = _
  simp only [execWorkgroupResumption, hf, h]

theorem workgroupResumption_place {core : Nat} (h : s.resumePlaces a die = some [(a, die, core)]) :
    exec (.workgroupResumption pool area die) s = .next (s.restore (a, die, core)).poolsDone := by
  show execWorkgroupResumption pool area die s = _
  simp only [execWorkgroupResumption, hf, h, List.foldl_cons, List.foldl_nil]

theorem restore_stands : s.pools.any (fun p => p.areas.contains a) = true := by
  obtain ⟨he, ha⟩ := mem_of_savedAreas hf
  exact List.any_eq_true.2 ⟨e, he, List.contains_iff_mem.2 ha⟩

/-- An area that fails its checks ends its context with BADSAVE (R349). -/
theorem restore_bad (core : Nat) (h : a.wg.loadChecked (s.grids.get a.wg.seq) (s.areaOf a) = none) :
    s.restore (a, die, core) = s.endContext a.wg.ctx .badsave := by
  simp only [State.restore, restore_stands hf, h]

theorem restore_good (core : Nat) {w : Workgroup} (h : a.wg.loadChecked (s.grids.get a.wg.seq) (s.areaOf a) = some w) :
    s.restore (a, die, core) = if w.parked then s.restoredOn a w die core
      else (s.restoredOn a w die core).setLines (s.resumed a w die core) := by
  simp only [State.restore, restore_stands hf, h]
  rfl

end

theorem State.restoredOn_pools {s : State} {e : Pool} {a : Area} (hp : s.pools = [e]) (hb : ∃ b ∈ e.areas, b ≠ a ∧ b.restored = false)
    (w : Workgroup) (die core : Nat) : ∀ p ∈ (s.restoredOn a w die core).pools, ∃ b ∈ p.areas, b.restored = false := by
  intro p hm
  obtain ⟨x, hx, rfl⟩ := List.mem_map.1 hm
  rw [hp, List.mem_singleton] at hx
  subst hx
  obtain ⟨b, hb, hne, hr⟩ := hb
  exact ⟨b, List.mem_map.2 ⟨b, hb, if_neg hne⟩, hr⟩

/-- The lines that a resumed workgroup's state stands in take its context's tag (R290). -/
theorem State.setLines_tags {s : State} {w : Workgroup} {l : ArrayLine} (hl : l ∈ w.heldLines (s.gridOf w).tileCount (s.gridOf w).spBytes) :
    (s.setLines w).tags.find? (w.lineKey l) = some ⟨w.ctx, (s.ctx w.ctx).secure⟩ := by
  unfold State.setLines
  rw [State.mark_tags, if_pos (List.mem_map_of_mem hl)]

/-- A workgroup is resumed from an area that passes its checks, while another area of its pool waits (R349, R366). -/
theorem workgroupResumption_resumes {s : State} {pool area die core : Nat} {e : Pool} {a : Area} {w : Workgroup}
    (hf : s.savedAreas.find? (fun x => x.1.base == pool && x.1.areas[area]? == some x.2) = some (e, a))
    (hplace : s.resumePlaces a die = some [(a, die, core)]) (hread : a.wg.loadChecked (s.grids.get a.wg.seq) (s.areaOf a) = some w)
    (hp : s.pools = [e]) (hb : ∃ b ∈ e.areas, b ≠ a ∧ b.restored = false) : ∃ t,
      exec (.workgroupResumption pool area die) s = .next t ∧ t.mem = s.mem
      ∧ t.wgs = s.wgs.insert a.wid ((s.resumed a w die core).withKids a.kids ((s.areaOf a).nat 0x24 4))
      ∧ (w.parked = false → ∀ l ∈ w.heldLines (s.gridOf w).tileCount (s.gridOf w).spBytes,
          t.tags.find? (tagKey l.array die core (2048 * s.freeShare a.wid die core + l.line)) = some ⟨w.ctx, (s.ctx w.ctx).secure⟩) := by
  have hpools := State.restoredOn_pools hp hb w die core
  rw [workgroupResumption_place hf hplace, restore_good hf core hread]
  by_cases hw : w.parked = true
  · rw [if_pos hw, State.poolsDone_none hpools]
    exact ⟨_, rfl, rfl, rfl, fun h => absurd (h.symm.trans hw) Bool.false_ne_true⟩
  · rw [if_neg hw, State.poolsDone_none (s := (s.restoredOn a w die core).setLines _) hpools]
    refine ⟨_, rfl, rfl, rfl, fun _ l hl => ?_⟩
    rw [← State.resumed_lineKey s a w die core l]
    exact State.setLines_tags (s := s.restoredOn a w die core) (w := s.resumed a w die core) hl

/-- Settles O56: a command by what it is refused for, each rung by what its scope holds, and a resumption by what its area passes. -/
theorem theLadderDrainsSavesAndResumes : Obligations.TheLadderDrainsSavesAndResumes := by
  intro s io pool cmd
  refine ⟨fun h => ladderCommand_refused ((s.refused_iff io cmd).2 h), fun hscope hsave hdrain hl => ?drain,
    fun l hl hr h => State.drained_ends hl hr h, fun l hl hr => ⟨?quiesce, ?deadline, fun h => ?nothing, fun h hq => ?saving⟩,
    State.saved_eq s, fun l wid w hl hw => ?one, fun l hl hr => ⟨?all, fun hw => ?none⟩, fun l hl hr => ?expires,
    fun c h => resumeCommand_refused h, fun c p h ha hp => ?resume,
    fun area die e a hf => ⟨fun h => workgroupResumption_noPlace hf h, fun core h => ⟨fun hread => ?bad, fun w hread hp hb => ?good⟩⟩⟩
  case drain =>
    have hkept : (ladderOf io cmd (s.coreMask cmd)).refused = false := by
      rw [Bool.eq_false_iff, ne_eq, State.refused_iff]
      rintro (h | h | ⟨h, -⟩)
      · omega
      · exact hsave h
      · omega
    have hnames (w : Workgroup) : (ladderOf io cmd (s.coreMask cmd)).names w = decide (w.ctx = nfld cmd 8 8) := by
      have hz : (ladderOf io cmd (s.coreMask cmd)).scope = 0 := hscope
      simp only [Ladder.names, hz, Bool.and_true]
      rfl
    have hexec := ladderCommand_drains hkept hdrain
    rw [hl, List.nil_append] at hexec
    refine ⟨ladderOf io cmd (s.coreMask cmd), rfl, rfl, rfl, rfl, rfl, rfl, fun ⟨e, he, hc, hp⟩ => ?_, fun h => ?_⟩
    · rw [hexec, State.drained_waits (s := { s with ladders := [ladderOf io cmd (s.coreMask cmd)] }) rfl ⟨e, he, hp, by rw [hnames]; exact decide_eq_true hc⟩]
    · rw [hexec, State.drained_ends (s := { s with ladders := [ladderOf io cmd (s.coreMask cmd)] }) rfl rfl fun e he => ?_]
      · rfl
      · rw [hnames, decide_eq_false_iff_not]
        exact (Bool.eq_false_or_eq_true e.2.parked).imp_right fun hp => (h e he hp).1
  case quiesce => exact (quiesceLimitExpiry_of hl).trans (if_pos hr)
  case deadline => exact (saveDeadlineExpiry_of hl).trans (if_pos hr)
  case nothing => rw [saveRungStart_of hl hr, State.startSave_empty h]
  case saving =>
    refine ⟨s.saving l, by rw [saveRungStart_of hl hr, State.startSave_saving h hq], fun e he hs v hv hf => ?_, rfl⟩
    exact State.saving_frozen (State.mem_of_ladder hl).1 hf hs hv
  case one =>
    intro bs area l' flush ready
    have hflush : flush ↔ (s.mayFlush w && Config.flushed s.tick wid) = true := by rw [Bool.and_eq_true]
    refine ⟨fun h => saveOne_waits hl hw h, fun h hfl => (saveOne_ready hl hw h).trans (if_pos (hflush.1 hfl)), fun h hfl hbig => ?_,
      fun h hfl hfit => ?_⟩
    · exact (saveOne_ready hl hw h).trans ((if_neg (mt hflush.2 hfl)).trans (if_pos hbig))
    · exact (saveOne_ready hl hw h).trans ((if_neg (mt hflush.2 hfl)).trans (if_neg (by rw [hfit]; exact Bool.false_ne_true)))
  case all => exact (quiesceLimitExpiry_of hl).trans (if_neg hr)
  case none =>
    refine ⟨_, (quiesceLimitExpiry_of hl).trans (if_neg hr), ?_⟩
    have hl' : (s.putLadder l { l with rung := .quiesced }).ladder io pool = some { l with rung := .quiesced } :=
      State.ladder_putLadder hl rfl rfl
    rw [State.saveAll_none hl' hw, State.saved_eq]
    rfl
  case expires => exact ⟨_, (saveDeadlineExpiry_of hl).trans (if_neg hr), stopped_endContext _ _ _, rfl⟩
  case resume =>
    refine ⟨_, resumeCommand_accepted h ha hp, rfl, ?_, rfl⟩
    show SMap.get (s.resumeReg.put io 0) io + 1 = 1
    rw [SMap.get_put_self]
  case bad => rw [workgroupResumption_place hf h, restore_bad hf core hread]
  case good => exact workgroupResumption_resumes hf h hread hp hb

end Sys2Proof.Machine
end

section
/-! SUPPORT. The matrix instructions (09 R203, R206): a slot that no launch accepts, through which ACCCVT writes fewer bytes of the scale tile
than the slot's SCALE names. -/

namespace Sys2Proof.Machine

/-- A crew of a unified role with all 32 lanes, in a run. -/
def wholeCrew : Crew :=
  { (default : Crew) with
    role := 3, status := .live, live := 0xFFFFFFFF,
    prog := some { pc := 0, active := 0xFFFFFFFF, frames := [], results := [], ended := false } }

/-- Accumulator 0 is bound and zero, and byte 1 of tile 7 is 5. -/
def holdingScales : Workgroup :=
  { (default : Workgroup) with crews := [(0, wholeCrew)], accs := [(0, ⟨false, []⟩)], tiles := [(7, [(1, 5)])] }

/-- Crews of 32 lanes, a role of 256 registers and 8 tiles, and a slot 0 of the MX format 0x10 and of SCALE 3, which R68 has for no
format. -/
def scaledOddly : LaunchCopy :=
  { (default : LaunchCopy) with record := BitVec.ofNat 4096 (2 <<< 8 + (256 <<< 72 + 1 <<< 95 + 8 <<< 96) <<< (8 * 0x0B0) + 0xD0 <<< 2048) }

/-- The machine in which the crew converts through that slot. -/
def convertingOddly : State :=
  { State.reset with
    cur := ⟨⟨0, 0⟩, .lane⟩, wgs := [(0, holdingScales)], grids := [(0, { (default : Grid) with copy := scaledOddly })] }

/-- ACCCVT of accumulator 0 through slot 0 into tile 6 and its scale tile 7, without a guard. -/
def intoTileSix : LaneFields where
  dest := 6
  type := 0
  sat := false
  pol := 0
  reuse := false
  eor := false
  gneg := false
  guard := 7
  subop := 0
  ixreg := 0
  isel := 0
  srcc := 0
  srcb := 0
  srca := 0
  p2 := 0

theorem scaledOddly_invalid : Slot.valid (convertingOddly.slot holdingScales 0) = false := by decide +kernel

theorem convertingOddly_ready : LaneReady convertingOddly
    { LaneSpec.plain (.acccvt intoTileSix) with
      badRole := !wholeCrew.mayMatrix, badDirect := [intoTileSix.dest.toNat].any (fun t => decide (convertingOddly.tileLimit holdingScales ≤ t)),
      collective := true, groups := (1, 1, 1, 1) } intoTileSix holdingScales wholeCrew where
  issuer := rfl
  role := rfl
  direct := by decide +kernel
  whole := fun _ => by decide +kernel
  active := by decide +kernel
  inRange := by decide +kernel
  inWindow := by decide +kernel
  sourcesFull := by decide +kernel
  destFull := fun h => absurd h Bool.false_ne_true

/-- Byte 1 of tile 7 of workgroup 0 in a result. -/
def scaleByte : Result → Option Byte
  | .next t => some (SMap.get ((t.wgs.get 0).tiles.get 7) 1)
  | _ => none

/-- The model writes one scale byte of each block of an MX format, so byte 1 of the scale tile stays. -/
theorem scaleByte_exec : scaleByte (exec (.acccvt intoTileSix) convertingOddly) = some 5 := by decide +kernel

theorem scaleByte_passed (w' : Workgroup) :
    scaleByte (.next (Passed convertingOddly w' wholeCrew intoTileSix)) = some (SMap.get (w'.tiles.get 7) 1) := by
  have hwg (c' : Crew) : (convertingOddly.put convertingOddly.cur.key w' c').wgs.get 0 = w'.putCrew 0 c' := SMap.get_insert_self _ _ _
  simp only [scaleByte, Passed, intoTileSix, Bool.false_eq_true, false_and, if_false, hwg]
  rfl

/-- Refutes O48: the statement does not ask that the slot be valid (R68). Through a slot of an MX format and SCALE 3, which a launch
refuses, ACCCVT writes the one scale byte that a block of the format has and leaves byte 1 of its scale tile at 5, where the statement,
which counts SCALE bytes for each block, has 0. -/
theorem not_matrixInstructionsAct : ¬ Obligations.MatrixInstructionsAct := by
  intro h
  obtain ⟨-, -, -, -, hcvt, -⟩ := h convertingOddly intoTileSix holdingScales wholeCrew
  obtain ⟨w', hexec, -, -, -, hscales⟩ := hcvt ⟨rfl, convertingOddly_ready⟩ (by decide +kernel) (by decide +kernel) (by decide +kernel)
    (fun _ => by decide +kernel) (by decide +kernel)
  have hbyte := hscales (by decide +kernel) 1
  rw [if_pos (by decide +kernel)] at hbyte
  have hstays := scaleByte_exec
  rw [hexec, scaleByte_passed] at hstays
  have hfive := hbyte.symm.trans (Option.some.inj hstays)
  revert hfive
  decide +kernel

end Sys2Proof.Machine
end

section
/-! SUPPORT. The issue of lane memory instructions (04 R84, R87, R91 to R93; 08 R190 to R193; 10 R224, R225): which registers of which lanes
become empty, and what each instruction puts in flight. -/

namespace Sys2Proof.Machine

/-! Registers that an access empties (R46). -/

theorem Crew.vFull_awaitV (c : Crew) {q m : Nat} (hm : m < 64) (r t : Nat) {l : Nat} (hl : l < 64) :
    (c.awaitV r l t).vFull q m = (c.vFull q m && !(l == m && decide (q = r))) := by
  simp only [Crew.awaitV, Crew.vFull, SMap.find?_insert, laneKey_inj hm hl]
  by_cases h : q = r ∧ m = l
  · simp [h]
  · rw [if_neg h]
    have h' : (l == m && decide (q = r)) = false := by simpa using fun hlm hqr => h ⟨hqr, hlm.symm⟩
    rw [h', Bool.not_false, Bool.and_true]

/-- A row of n registers of one lane, emptied one after the other. -/
def Crew.awaitRow (c : Crew) (r l n tag : Nat) : Crew := (List.range n).foldl (fun (c : Crew) k => c.awaitV (r + k) l tag) c

theorem Crew.awaitRow_succ (c : Crew) (r l n tag : Nat) : c.awaitRow r l (n + 1) tag = (c.awaitRow r l n tag).awaitV (r + n) l tag := by
  simp only [Crew.awaitRow, List.range_succ, List.foldl_append, List.foldl_cons, List.foldl_nil]

theorem Crew.awaitParts_cons (c : Crew) (p : Part) (ps : List Part) (n tag : Nat) :
    c.awaitParts (p :: ps) n tag = (c.awaitRow p.dst p.unit n tag).awaitParts ps n tag := rfl

theorem Crew.awaitRow_rest (c : Crew) (r l n tag : Nat) : { c.awaitRow r l n tag with vTag := c.vTag } = c := by
  induction n with
  | zero => rfl
  | succ n ih =>
    rw [Crew.awaitRow_succ]
    exact ih

theorem Crew.awaitParts_rest (ps : List Part) (n tag : Nat) (c : Crew) : { c.awaitParts ps n tag with vTag := c.vTag } = c := by
  induction ps generalizing c with
  | nil => rfl
  | cons p ps ih =>
    rw [Crew.awaitParts_cons]
    have h := congrArg (fun x : Crew => { x with vTag := c.vTag }) (ih (c.awaitRow p.dst p.unit n tag))
    exact h.trans (c.awaitRow_rest p.dst p.unit n tag)

theorem Crew.vFull_awaitRow (c : Crew) {q m : Nat} (hm : m < 64) (r n tag : Nat) {l : Nat} (hl : l < 64) :
    (c.awaitRow r l n tag).vFull q m = (c.vFull q m && !(l == m && decide (r ≤ q ∧ q < r + n))) := by
  induction n with
  | zero =>
    have h : decide (r ≤ q ∧ q < r + 0) = false := decide_eq_false (by omega)
    rw [h, Bool.and_false, Bool.not_false, Bool.and_true]
    rfl
  | succ n ih =>
    rw [Crew.awaitRow_succ, Crew.vFull_awaitV _ hm _ _ hl, ih, Bool.and_assoc, ← Bool.not_or, ← Bool.and_or_distrib_left,
      ← Bool.decide_or]
    congr 4
    exact propext (by omega)

theorem Crew.vFull_awaitParts {ps : List Part} (hu : ∀ p ∈ ps, p.unit < 64) (n tag : Nat) (c : Crew) {q m : Nat} (hm : m < 64) :
    (c.awaitParts ps n tag).vFull q m
      = (c.vFull q m && !ps.any (fun p => p.unit == m && decide (p.dst ≤ q ∧ q < p.dst + n))) := by
  induction ps generalizing c with
  | nil => simp [Crew.awaitParts]
  | cons p ps ih =>
    obtain ⟨hp, hps⟩ := List.forall_mem_cons.mp hu
    rw [Crew.awaitParts_cons, ih hps, Crew.vFull_awaitRow c hm _ _ _ hp, List.any_cons, Bool.not_or, Bool.and_assoc]

/-- The crew once a lane access has issued. -/
theorem Crew.issued_registers (c : Crew) (a : Access) (n tag : Nat) :
    ((c.issue a).awaitParts a.parts n tag).vreg = c.vreg ∧ ((c.issue a).awaitParts a.parts n tag).sreg = c.sreg := by
  have h := Crew.awaitParts_rest a.parts n tag (c.issue a)
  exact ⟨(congrArg Crew.vreg h : _), (congrArg Crew.sreg h : _)⟩

/-! Lanes of parts. -/

theorem lt_of_mem_lanesOf {e : Mask} {l : Nat} (h : l ∈ lanesOf e) : l < 64 := List.mem_range.1 (List.mem_filter.1 h).1

theorem lane_lt_of_mem_recordAddrs {c : Crew} {e : Mask} {i : Instr} {f : LaneFields} {m : BufRec} {n : Nat} {x : LaneAddr}
    (h : x ∈ recordAddrs c e i f m n) : x.lane < 64 := by
  obtain ⟨l, hl, rfl⟩ := List.mem_map.1 h
  exact lt_of_mem_lanesOf hl

theorem lane_lt_of_mem_scratchAddrs {c : Crew} {e : Mask} {v : Operand} {off sp n : Nat} {x : LaneAddr}
    (h : x ∈ scratchAddrs c e v off sp n) : x.lane < 64 := by
  obtain ⟨l, hl, rfl⟩ := List.mem_map.1 h
  exact lt_of_mem_lanesOf hl

theorem Part.unit_of_mem_halves {p q : Part} (h : q ∈ p.halves) : q.unit = p.unit := by
  unfold Part.halves at h
  split at h
  · simp only [List.mem_cons, List.not_mem_nil, or_false] at h
    obtain rfl | rfl := h <;> rfl
  · rw [List.mem_singleton.1 h]

theorem unit_lt_of_mem_halves {α : Type} {xs : List α} {part : α → Part} (h : ∀ x ∈ xs, (part x).unit < 64) :
    ∀ p ∈ xs.flatMap (fun x => (part x).halves), p.unit < 64 := by
  intro p hp
  obtain ⟨x, hx, hq⟩ := List.mem_flatMap.1 hp
  rw [Part.unit_of_mem_halves hq]
  exact h x hx

/-! Issue. -/

/-- What an access does at its issue beside passing on: its crew flies it, and the registers of its parts are empty. -/
def Issues (s : State) (i : Instr) (f : LaneFields) (w : Workgroup) (c : Crew) (a : Access) (dests : Nat) : Prop :=
  ∃ c', exec i s = .next (Passed s w c' f) ∧ c' = (c.issue a).awaitParts a.parts dests c.nextId ∧ c'.vreg = c.vreg ∧ c'.sreg = c.sreg
    ∧ ∀ r l, l < 64 → c'.vFull r l = (c.vFull r l && !a.parts.any (fun p => p.unit == l && decide (p.dst ≤ r ∧ r < p.dst + dests)))

theorem issues_of_issueLane {s : State} {i : Instr} {f : LaneFields} {w : Workgroup} {c : Crew} {a : Access} {dests : Nat}
    (h : exec i s = issueLane s w c f a dests) (hu : ∀ p ∈ a.parts, p.unit < 64) : Issues s i f w c a dests :=
  ⟨_, h.trans (passOn_eq ..), rfl, (c.issued_registers a _ _).1, (c.issued_registers a _ _).2,
    fun _ _ hl => Crew.vFull_awaitParts hu _ _ (c.issue a) hl⟩

theorem memWaits_eq_false {c : Crew} {kind : AccessKind} (hroom : c.roomOn kind.path = true) (hlog : c.logging = false)
    (hcount : c.logCount < 4) : c.memWaits kind = false := by
  simp [Crew.memWaits, hroom, hlog, hcount]

theorem farAddr_eq_false {a : DWord} (h : a.toNat < 2 ^ 52) : farAddr a = false :=
  Bool.eq_false_iff.2 (mt (farAddr_iff a).1 (Nat.not_le.2 h))

theorem misaligned_eq_false {a : DWord} {n : Nat} (h : a.toNat % n = 0) : misaligned a n = false :=
  Bool.eq_false_iff.2 fun hm => (misaligned_iff a n).1 hm h

/-- No address of these has a bit above 51 set. -/
theorem find_farAddr {as : List LaneAddr} (h : ∀ x ∈ as, x.addr.toNat < 2 ^ 52) : as.find? (fun a => farAddr a.addr) = none :=
  List.find?_eq_none.2 fun x hx => by rw [farAddr_eq_false (h x hx)]; exact Bool.false_ne_true

theorem any_misaligned {as : List LaneAddr} {n : Nat} (h : ∀ x ∈ as, x.addr.toNat % n = 0) : as.any (fun a => misaligned a.addr n) = false :=
  List.any_eq_false.2 fun x hx => by rw [misaligned_eq_false (h x hx)]; exact Bool.false_ne_true

theorem any_bounds {as : List LaneAddr} (h : ∀ x ∈ as, x.bounds = false) : as.any (·.bounds) = false :=
  List.any_eq_false.2 fun x hx => by rw [h x hx]; exact Bool.false_ne_true

/-- Addresses that are in bounds, aligned and below 2^52, or of the scratchpad, trap nothing. -/
theorem addrTraps_pass {s : State} {run : Result} {scratch ordinary : Bool} {as : List LaneAddr} {n : Nat}
    (hrec : scratch = true ∨ ordinary = true)
    (has : ∀ x ∈ as, x.bounds = false ∧ x.addr.toNat % n = 0 ∧ (scratch = true ∨ x.addr.toNat < 2 ^ 52)) :
    trapsThen s run (addrTraps (!scratch && !ordinary) scratch as n) = run := by
  have hbad : (!scratch && !ordinary) = false := by
    obtain h | h := hrec <;> simp [h]
  have hfar : (if scratch then none else (as.find? (fun a => farAddr a.addr)).map (·.addr)) = none := by
    split
    · rfl
    · next hs => rw [find_farAddr fun x hx => (has x hx).2.2.resolve_left hs]; rfl
  refine trapsThen_none fun t ht => ?_
  simp only [addrTraps, hbad, hfar, any_misaligned fun x hx => (has x hx).2.1, any_bounds fun x hx => (has x hx).1] at ht
  simp only [List.mem_cons, List.not_mem_nil, or_false] at ht
  obtain rfl | rfl | rfl | rfl := ht <;> rfl

/-- The addresses that LD, ST and ATOM go to (R84, R87). -/
def laneAddrs (s : State) (w : Workgroup) (c : Crew) (i : Instr) (f : LaneFields) (n : Nat) : List LaneAddr :=
  if f.sp then scratchAddrs c (c.executing f) (operandAt i f 1) f.off16.toNat (s.gridOf w).spBytes n
  else recordAddrs c (c.executing f) i f ((s.gridOf w).buf f.mslot.toNat) n

theorem lane_lt_of_mem_laneAddrs {s : State} {w : Workgroup} {c : Crew} {i : Instr} {f : LaneFields} {n : Nat} {x : LaneAddr}
    (h : x ∈ laneAddrs s w c i f n) : x.lane < 64 := by
  unfold laneAddrs at h
  split at h
  · exact lane_lt_of_mem_scratchAddrs h
  · exact lane_lt_of_mem_recordAddrs h

section
variable {s : State} {f : LaneFields} {w : Workgroup} {c : Crew}

/-- LD, ST and ATOM issue where nothing is waited for and no address traps. -/
theorem issues_of_laneMem {i : Instr} {cls : MemClass} {w' : Workgroup} {n : Nat} {kind : AccessKind} {dests : Nat} {part : LaneAddr → Part}
    (h : exec i s = laneMem s i f cls w w' c (c.executing f) n kind dests part) (hwait : c.memWaits kind = false)
    (hunit : ∀ x, (part x).unit = x.lane) (hrec : f.sp = true ∨ ((s.gridOf w).buf f.mslot.toNat).ordinary = true)
    (has : ∀ x ∈ laneAddrs s w c i f n, x.bounds = false ∧ x.addr.toNat % n = 0 ∧ (f.sp = true ∨ x.addr.toNat < 2 ^ 52)) :
    Issues s i f (if f.sp then w else w') c (laneAccess c f kind cls (if f.sp then .wg else (Scope.ofCode f.scope).getD .dev) f.sp
      ((s.gridOf w).buf f.mslot.toNat) ((laneAddrs s w c i f n).flatMap (fun x => (part x).halves))) dests := by
  refine issues_of_issueLane (h.trans ?_) (unit_lt_of_mem_halves fun x hx => (hunit x).symm ▸ lane_lt_of_mem_laneAddrs hx)
  refine (if_neg (by rw [hwait]; exact Bool.false_ne_true)).trans ?_
  exact addrTraps_pass hrec has

theorem exec_ld (hr : LaneReady s { LaneSpec.plain (.ld f) with groups := (memGroup (memBytes f.subop), 1, 1, 1) } f w c) :
    exec (.ld f) s = laneMem s (.ld f) f (laneClass f) w w c (c.executing f) (memBytes f.subop) (.load f.subop)
      (min (memGroup (memBytes f.subop)) 2) (fun x => lanePart x (memBytes f.subop) 0 0 (destination (.ld f) f c x.lane) 0) := by
  show execLd f s = _
  rw [execLd, laneIssue_of hr]
  rfl

theorem exec_st (hr : LaneReady s { LaneSpec.plain (.st f) with groups := (memGroup (memBytes f.subop), 1, 1, 1), readsDest := true } f w c) :
    exec (.st f) s = laneMem s (.st f) f (laneClass f) w w.spoil c (c.executing f) (memBytes f.subop) .store 0
      (fun x => lanePart x (memBytes f.subop) (c.group (destination (.st f) f c x.lane) x.lane (memGroup (memBytes f.subop))) 0 0 0) := by
  show execSt f s = _
  rw [execSt, laneIssue_of hr]
  rfl

/-- One lane's part of an ATOM: one whose word is not wholly accessed is dropped (R192). -/
def atomPart (f : LaneFields) (c : Crew) (x : LaneAddr) : Part :=
  let p := lanePart x 4 ((source (.atom f) f c 3 x.lane).zeroExtend 128) ((c.v (destination (.atom f) f c x.lane) x.lane).zeroExtend 64)
    (destination (.atom f) f c x.lane) 0
  if p.bytes = firstBytes 4 then p else { p with bytes := 0 }

theorem atomPart_unit (x : LaneAddr) : (atomPart f c x).unit = x.lane := by
  unfold atomPart
  dsimp only
  split <;> rfl

theorem exec_atom {op : AtomOp} (hop : AtomOp.ofCode f.subop = some op)
    (hr : LaneReady s { LaneSpec.plain (.atom f) with readsDest := decide (op = .cas) } f w c) :
    exec (.atom f) s = laneMem s (.atom f) f .strong w w.spoil c (c.executing f) 4 (.atom op true) 1 (atomPart f c) := by
  show execAtom f s = _
  simp only [execAtom, hop]
  exact laneIssue_of hr _

/-! CPY. -/

/-- The bytes of an entry of a codebook; 1 where there is none. -/
def bookBytes (book : Option Codebook) : Nat := match book with | some b => entryBytes b.code | none => 1

/-- Bytes that a lane of a CPY moves on the global side. -/
def copyUnit (f : LaneFields) : Nat := if nfld f.subop 0 2 = 3 then 1 else 4 * 2 ^ nfld f.subop 0 2

/-- Bytes that a lane of a CPY moves on the scratchpad side. -/
def copySize (w : Workgroup) (f : LaneFields) : Nat :=
  if nfld f.subop 0 2 = 3 then bookBytes (w.books.find? f.cbnum.toNat) else copyUnit f

/-- The barrier object that a CPY names. -/
def copyBar (f : LaneFields) : Option (BitVec 4) := if f.ben then some f.bnum else none

/-- The kind of a CPY (R193). -/
def copyKind (w : Workgroup) (f : LaneFields) : AccessKind :=
  if nfld f.subop 0 2 = 3 then .copyBook f.cbnum.toNat (copySize w f) (copyBar f)
  else if flag f.subop 2 then .copyOut (copyBar f) else .copyIn (copyBar f)

theorem copyKind_path (w : Workgroup) : (copyKind w f).path = some .cp := by
  unfold copyKind
  split
  · rfl
  · split <;> rfl

/-- The addresses of a CPY on its two sides. -/
def copySides (s : State) (w : Workgroup) (c : Crew) (f : LaneFields) : List LaneAddr × List LaneAddr :=
  (recordAddrs c (c.executing f) (.cpy f) f ((s.gridOf w).buf f.mslot.toNat) (copyUnit f),
   scratchAddrs c (c.executing f) (operandAt (.cpy f) f 0) 0 (s.gridOf w).spBytes (copySize w f))

/-- One lane's part of a CPY, from its two addresses. -/
def copyPart (w : Workgroup) (f : LaneFields) (p : LaneAddr × LaneAddr) : Part :=
  lanePart p.1 (copyUnit f) 0 (BitVec.ofNat 64 (copySize w f + 2 ^ 32 * (maskOf p.1.accessed 0 (copyUnit f)).toNat)) 0 p.2.addr.toNat

/-- The access of a CPY. -/
def copyAccess (s : State) (w : Workgroup) (c : Crew) (f : LaneFields) : Access :=
  laneAccess c f (copyKind w f) (laneClass f) .dev false ((s.gridOf w).buf f.mslot.toNat)
    (((copySides s w c f).1.zip (copySides s w c f).2).flatMap (fun p => (copyPart w f p).halves))

theorem exec_cpy (hr : LaneReady s { LaneSpec.plain (.cpy f) with badRole := !c.mayCopy, readsDest := true } f w c) :
    exec (.cpy f) s = if c.memWaits (copyKind w f) then .next s else
      trapsThen s (issueLane s (if flag f.subop 2 then w.spoil else w) c f (copyAccess s w c f) 0)
        [((f.ben && !(w.bar f.bnum.toNat).valid) || (nfld f.subop 0 2 == 3 && (w.books.find? f.cbnum.toNat).isNone), .range, 0),
         (!((s.gridOf w).buf f.mslot.toNat).ordinary, .bounds, 0),
         ((copySides s w c f).1.any (fun a => misaligned a.addr (copySize w f))
            || (copySides s w c f).2.any (fun a => misaligned a.addr (copySize w f)), .align, 0),
         ((copySides s w c f).1.any (·.bounds) || (copySides s w c f).2.any (·.bounds), .bounds, 0),
         (((copySides s w c f).1.find? (fun a => farAddr a.addr)).map (·.addr) |>.isSome, .xlat,
          (((copySides s w c f).1.find? (fun a => farAddr a.addr)).map (·.addr)).getD 0)] := by
  show execCpy f s = _
  rw [execCpy, acting_of hr.issuer]
  dsimp only
  rw [laneIssue_of hr]
  by_cases hcode : nfld f.subop 0 2 = 3
  · simp only [copyAccess, copyPart, copySides, copyKind, copySize, copyUnit, copyBar, hcode, beq_self_eq_true, if_true]
    rfl
  · simp only [copyAccess, copyPart, copySides, copyKind, copySize, copyUnit, copyBar, hcode, beq_iff_eq, if_false]

/-- A CPY issues where nothing is waited for, its barrier and its codebook are valid and no address traps. -/
theorem issues_cpy (hr : LaneReady s { LaneSpec.plain (.cpy f) with badRole := !c.mayCopy, readsDest := true } f w c)
    (hwait : c.memWaits (copyKind w f) = false) (hbar : f.ben = true → (w.bar f.bnum.toNat).valid = true)
    (hbook : nfld f.subop 0 2 = 3 → (w.books.find? f.cbnum.toNat).isSome = true)
    (hrec : ((s.gridOf w).buf f.mslot.toNat).ordinary = true)
    (hglobal : ∀ x ∈ (copySides s w c f).1, x.bounds = false ∧ x.addr.toNat % copySize w f = 0 ∧ x.addr.toNat < 2 ^ 52)
    (hscratch : ∀ x ∈ (copySides s w c f).2, x.bounds = false ∧ x.addr.toNat % copySize w f = 0) :
    Issues s (.cpy f) f (if flag f.subop 2 then w.spoil else w) c (copyAccess s w c f) 0 := by
  refine issues_of_issueLane ((exec_cpy hr).trans ?_) (unit_lt_of_mem_halves (part := copyPart w f) fun x hx =>
    lane_lt_of_mem_recordAddrs (List.of_mem_zip hx).1)
  have hrange : ((f.ben && !(w.bar f.bnum.toNat).valid) || (nfld f.subop 0 2 == 3 && (w.books.find? f.cbnum.toNat).isNone)) = false := by
    rw [Bool.or_eq_false_iff, Bool.and_eq_false_imp, Bool.and_eq_false_imp, beq_iff_eq]
    exact ⟨fun h => by rw [hbar h]; rfl, fun h => by rw [Option.isNone_eq_false_iff]; exact hbook h⟩
  refine (if_neg (by rw [hwait]; exact Bool.false_ne_true)).trans (trapsThen_none fun t ht => ?_)
  rw [hrange, hrec, any_misaligned fun x hx => (hglobal x hx).2.1, any_misaligned fun x hx => (hscratch x hx).2,
    any_bounds fun x hx => (hglobal x hx).1, any_bounds fun x hx => (hscratch x hx).1, find_farAddr fun x hx => (hglobal x hx).2.2] at ht
  simp only [List.mem_cons, List.not_mem_nil, or_false] at ht
  obtain rfl | rfl | rfl | rfl | rfl := ht <;> rfl

/-! FETCH. -/

/-- The coordinates that a lane of a FETCH asks for (R224). -/
def fetchX (c : Crew) (f : LaneFields) (l : Nat) : Int := (source (.fetch f) f c 1 l).toInt + f.off16.toInt

def fetchY (c : Crew) (f : LaneFields) (l : Nat) : Word := if f.nc = 2 then source (.fetch f) f c 2 l else 0

/-- The part of a lane of a FETCH at its issue. -/
def fetchPart (c : Crew) (f : LaneFields) (l : Nat) : Part :=
  lanePart ⟨l, 0, false, fun _ => false⟩ 0 ((BitVec.ofInt 64 (fetchX c f l)).zeroExtend 128) ((fetchY c f l).zeroExtend 64)
    (destination (.fetch f) f c l) 0

/-- The access of a FETCH before anything is read for it. -/
def fetchAccess (s : State) (w : Workgroup) (c : Crew) (f : LaneFields) : Access :=
  laneAccess c f (.fetch f.mslot) .weak .dev false ((s.gridOf w).buf f.mslot.toNat) ((lanesOf (c.executing f)).map (fetchPart c f))

/-- What a lane reads at the issue of a FETCH. -/
def State.laneReads (s : State) (w : Workgroup) (c : Crew) (f : LaneFields) (l : Nat) : KvRead FetchKey :=
  s.fetchKey w (c.mayRead (fetchAccess s w c f)) ((s.gridOf w).buf f.mslot.toNat) f.mslot (fetchX c f l) (fetchY c f l).toInt
    (c.cursors.get l)

/-- What it then finds. -/
def State.laneFinds (s : State) (w : Workgroup) (c : Crew) (f : LaneFields) (l : Nat) : KvRead (Option FetchKey) :=
  s.fetchAtIssue w ((s.gridOf w).buf f.mslot.toNat) (fetchX c f l) (fetchY c f l).toInt (s.laneReads w c f l)

/-- The access of a FETCH with what its lanes have read. -/
def fetchAccessWith (s : State) (w : Workgroup) (c : Crew) (f : LaneFields) (keys : Nat → Option FetchKey) : Access :=
  { fetchAccess s w c f with
    parts := (lanesOf (c.executing f)).map (fun l => { fetchPart c f l with key := (keys l).map (·.key) }) }

/-- A FETCH whose lanes have read `ks` passes on. -/
def fetchGo (s : State) (w : Workgroup) (c : Crew) (f : LaneFields) (ks : List (Option FetchKey)) : Result :=
  let lanes := (lanesOf (c.executing f)).zip ks
  issueLane (s.touchAt w (fetchAccess s w c f).alloc (ks.flatMap (fun k => (k.map (·.reads)).getD []))) w (c.loadCursors lanes) f
    { fetchAccess s w c f with parts := lanes.map (fun k => { fetchPart c f k.1 with key := k.2.map (·.key) }) } 3

/-- A FETCH through a good handle of coordinates within 2^52 goes on as its lanes find. -/
theorem exec_fetch (hr : LaneReady s { LaneSpec.plain (.fetch f) with groups := (3, 1, 1, 1) } f w c)
    (hwait : c.memWaits (.fetch f.mslot) = false) (hhandle : ((s.gridOf w).buf f.mslot.toNat).fetchHandle = true)
    (halign : ((s.gridOf w).buf f.mslot.toNat).fetchMisaligned = false)
    (hnear : ∀ l, flag (c.executing f) l = true →
      ∀ va ∈ ((s.gridOf w).buf f.mslot.toNat).fetchAddrs (fetchX c f l) (fetchY c f l).toInt, va < 2 ^ 52) :
    exec (.fetch f) s = kvIssue s (fetchAll ((lanesOf (c.executing f)).map (s.laneFinds w c f))) (fetchGo s w c f) := by
  have hfar : ((lanesOf (c.executing f)).flatMap (fun l =>
      ((s.gridOf w).buf f.mslot.toNat).fetchAddrs (fetchX c f l) (fetchY c f l).toInt)).find? (fun va => decide (2 ^ 52 ≤ va)) = none := by
    refine List.find?_eq_none.2 fun va hva => ?_
    obtain ⟨l, hl, hva⟩ := List.mem_flatMap.1 hva
    rw [decide_eq_true_eq]
    exact Nat.not_le.2 (hnear l (mem_lanesOf.1 hl) va hva)
  show execFetch f s = _
  rw [execFetch, laneIssue_of hr]
  refine (if_neg (by rw [hwait]; exact Bool.false_ne_true)).trans (trapsThen_none fun t ht => ?_)
  rw [hhandle, halign] at ht
  simp only [List.mem_cons, List.not_mem_nil, or_false] at ht
  obtain rfl | rfl | rfl := ht
  · rfl
  · rfl
  · exact congrArg Option.isSome hfar

end

/-! What a lane of a FETCH finds, and what the lanes find together. -/

section
variable {s : State} {w : Workgroup} {m : BufRec} {x y : Int}

theorem fetchAtIssue_near {q : FetchKey} (h : ∀ va ∈ (m.fetchForm x y q.key).addrs m, va < 2 ^ 52) :
    s.fetchAtIssue w m x y (.got q) = .got (some q) := by
  simp only [State.fetchAtIssue, FetchForm.far_eq_none_iff.2 h]

theorem fetchAtIssue_far {q : FetchKey} {va : Nat}
    (h : ((m.fetchForm x y q.key).addrs m).find? (fun va => decide (2 ^ 52 ≤ va)) = some va) :
    s.fetchAtIssue w m x y (.got q) = .far va := by
  simp only [State.fetchAtIssue, FetchForm.far, h]

theorem fetchAtIssue_fail (code : FaultCode) (va : Nat) : s.fetchAtIssue w m x y (.fail code va) = .got none := rfl

end

/-- The address with a bit above 51 set that a read has come to. -/
def KvRead.farOf {α : Type} (k : KvRead α) : Option Nat :=
  match k with
  | .far va => some va
  | _ => none

theorem fetchAll_of_far {α : Type} {xs : List (KvRead α)} {va : Nat} (h : xs.findSome? KvRead.farOf = some va) : fetchAll xs = .far va := by
  unfold fetchAll
  change (match xs.findSome? KvRead.farOf with | some va => _ | none => _) = _
  rw [h]

theorem fetchAll_of_near {α : Type} {xs : List (KvRead α)} (h : xs.findSome? KvRead.farOf = none) :
    fetchAll xs = xs.foldr (fun k rest => k.bind fun x => rest.bind fun ys => .got (x :: ys)) (.got []) := by
  unfold fetchAll
  change (match xs.findSome? KvRead.farOf with | some va => _ | none => _) = _
  rw [h]

theorem KvRead.farOf_eq_none {α : Type} {k : KvRead α} (h : ∀ va, k ≠ .far va) : k.farOf = none := by
  cases k with
  | far va => exact absurd rfl (h va)
  | miss | wait | fail | got => rfl

theorem fetchAll_got {α : Type} {ls : List Nat} {found : Nat → KvRead α} {keys : Nat → α} (h : ∀ l ∈ ls, found l = .got (keys l)) :
    fetchAll (ls.map found) = .got (ls.map keys) := by
  rw [List.map_congr_left h, fetchAll_of_near (List.findSome?_eq_none_iff.2 fun k hk => ?_)]
  · clear h
    induction ls with
    | nil => rfl
    | cons l ls ih =>
      rw [List.map_cons, List.foldr_cons, ih]
      rfl
  · obtain ⟨l, -, rfl⟩ := List.mem_map.1 hk
    rfl

/-- The lowest lane that finds an address with a bit above 51 set decides. -/
theorem fetchAll_far {α : Type} {ls : List Nat} (hs : ls.Pairwise (· < ·)) {found : Nat → KvRead α} {l va : Nat} (hl : l ∈ ls)
    (hfar : found l = .far va) (hfirst : ∀ j ∈ ls, j < l → ∀ u, found j ≠ .far u) : fetchAll (ls.map found) = .far va := by
  obtain ⟨before, after, rfl⟩ := List.append_of_mem hl
  refine fetchAll_of_far ?_
  rw [List.map_append, List.findSome?_append, List.findSome?_eq_none_iff.2, List.map_cons, List.findSome?_cons, hfar]
  · rfl
  · intro k hk
    obtain ⟨j, hj, rfl⟩ := List.mem_map.1 hk
    exact KvRead.farOf_eq_none (hfirst j (List.mem_append_left _ hj) ((List.pairwise_append.1 hs).2.2 j hj l List.mem_cons_self))

theorem lanesOf_pairwise (e : Mask) : (lanesOf e).Pairwise (· < ·) := List.pairwise_lt_range.filter _

/-! Cursors. -/

/-- The cursors once one lane has loaded its own, or kept it. -/
def loadCursor (m : SMap Cursor) (k : Nat × Option FetchKey) : SMap Cursor :=
  match k.2.bind (·.cursor) with
  | some cur => m.put k.1 cur
  | none => m

theorem Crew.loadCursors_eq (c : Crew) (ks : List (Nat × Option FetchKey)) :
    c.loadCursors ks = { c with cursors := ks.foldl loadCursor c.cursors } := rfl

theorem get_loadCursor (m : SMap Cursor) (k : Nat × Option FetchKey) (l : Nat) :
    (loadCursor m k).get l = if l = k.1 then (k.2.bind (·.cursor)).getD (m.get l) else m.get l := by
  unfold loadCursor
  cases k.2.bind (·.cursor) with
  | none => exact (ite_self _).symm
  | some cur => exact SMap.get_put m k.1 cur l

theorem get_foldl_loadCursor (keys : Nat → Option FetchKey) (ls : List Nat) (m : SMap Cursor) (l : Nat) :
    ((ls.map (fun l => (l, keys l))).foldl loadCursor m).get l
      = if l ∈ ls then ((keys l).bind (·.cursor)).getD (m.get l) else m.get l := by
  induction ls generalizing m with
  | nil => rfl
  | cons k ls ih =>
    rw [List.map_cons, List.foldl_cons, ih, get_loadCursor]
    by_cases hk : l = k
    · subst hk
      cases (keys l).bind (·.cursor) <;> simp
    · simp [hk]

theorem zip_map_self {α β : Type} (xs : List α) (g : α → β) : xs.zip (xs.map g) = xs.map (fun x => (x, g x)) := by
  induction xs with
  | nil => rfl
  | cons x xs ih => rw [List.map_cons, List.zip_cons_cons, ih, List.map_cons]

theorem onlyLines_touchAt (s : State) (w : Workgroup) (alloc : Bool) (reads : List (Nat × Nat)) : OnlyLines s (s.touchAt w alloc reads) :=
  .foldl (fun t r => by
    split
    · exact .foldl (fun u i => onlyLines_touch u _ _ _) _ _
    · exact .refl t) reads s

section
variable {s : State} {f : LaneFields} {w : Workgroup} {c : Crew}

theorem fetchParts_any (keys : Nat → Option FetchKey) (r l : Nat) :
    (fetchAccessWith s w c f keys).parts.any (fun p => p.unit == l && decide (p.dst ≤ r ∧ r < p.dst + 3))
      = (flag (c.executing f) l && decide (destination (.fetch f) f c l ≤ r ∧ r < destination (.fetch f) f c l + 3)) := by
  rw [fetchAccessWith, List.any_map, Bool.eq_iff_iff, List.any_eq_true, Bool.and_eq_true, ← mem_lanesOf]
  constructor
  · rintro ⟨j, hj, h⟩
    obtain ⟨hu, hd⟩ := Bool.and_eq_true_iff.1 h
    obtain rfl : j = l := beq_iff_eq.1 hu
    exact ⟨hj, hd⟩
  · rintro ⟨hl, hd⟩
    exact ⟨l, hl, Bool.and_eq_true_iff.2 ⟨beq_self_eq_true l, hd⟩⟩

/-- A FETCH each of whose lanes has found its keys. -/
theorem fetchGo_issues (keys : Nat → Option FetchKey) : ∃ (t : State) (c1 c' : Crew),
    fetchGo s w c f ((lanesOf (c.executing f)).map keys) = .next (Passed t w c' f) ∧ t = { s with lines := t.lines }
    ∧ { c1 with cursors := c.cursors } = c
    ∧ (∀ l, c1.cursors.get l = if flag (c.executing f) l then ((keys l).bind (·.cursor)).getD (c.cursors.get l) else c.cursors.get l)
    ∧ c' = (c1.issue (fetchAccessWith s w c f keys)).awaitParts (fetchAccessWith s w c f keys).parts 3 c.nextId
    ∧ c'.vreg = c.vreg ∧ c'.sreg = c.sreg
    ∧ ∀ r l, l < 64 → c'.vFull r l = (c.vFull r l
        && !(flag (c.executing f) l && decide (destination (.fetch f) f c l ≤ r ∧ r < destination (.fetch f) f c l + 3))) := by
  have hzip : fetchGo s w c f ((lanesOf (c.executing f)).map keys)
      = issueLane (s.touchAt w (fetchAccess s w c f).alloc (((lanesOf (c.executing f)).map keys).flatMap (fun k => (k.map (·.reads)).getD [])))
          w (c.loadCursors ((lanesOf (c.executing f)).map (fun l => (l, keys l)))) f (fetchAccessWith s w c f keys) 3 := by
    simp only [fetchGo, zip_map_self, List.map_map]
    rfl
  have hregs := Crew.issued_registers (c.loadCursors ((lanesOf (c.executing f)).map (fun l => (l, keys l)))) (fetchAccessWith s w c f keys) 3
    c.nextId
  refine ⟨_, c.loadCursors ((lanesOf (c.executing f)).map (fun l => (l, keys l))), _, hzip.trans (passOn_eq ..), onlyLines_touchAt _ _ _ _,
    rfl, fun l => ?_, rfl, hregs.1, hregs.2, fun r l hl => ?_⟩
  · rw [Crew.loadCursors_eq]
    exact (get_foldl_loadCursor keys _ _ l).trans (if_congr mem_lanesOf rfl rfl)
  · refine (Crew.vFull_awaitParts (fun p hp => ?_) 3 c.nextId _ hl).trans ?_
    · obtain ⟨j, hj, rfl⟩ := List.mem_map.1 hp
      exact lt_of_mem_lanesOf hj
    · rw [fetchParts_any]
      rfl

end

/-- Settles O45: each instruction by what it issues where nothing keeps it from issuing, FETCH by what its lanes find. -/
theorem laneMemoryInstructionsIssue : Obligations.LaneMemoryInstructionsIssue := by
  intro s f w c hlog hcount
  have hwait {kind : AccessKind} (hroom : c.roomOn kind.path = true) : c.memWaits kind = false := memWaits_eq_false hroom hlog hcount
  refine ⟨fun hr hgood hroom => ?ld, fun hr hgood hroom => ?st, fun op hop hr hgood hroom => ?atom, fun hr => ?cpy, fun hr => ?fetch⟩
  case ld => exact issues_of_laneMem (exec_ld hr) (hwait hroom) (fun _ => rfl) hgood.1 hgood.2
  case st => exact issues_of_laneMem (exec_st hr) (hwait hroom) (fun _ => rfl) hgood.1 hgood.2
  case atom => exact issues_of_laneMem (exec_atom hop hr) (hwait hroom) atomPart_unit hgood.1 hgood.2
  case cpy =>
    intro code bar book k size as sps out hbar hbook hrec hglobal hscratch hroom
    exact issues_cpy hr (hwait (by rw [copyKind_path]; exact hroom)) hbar hbook hrec hglobal hscratch
  case fetch =>
    intro x y a key found hhandle halign hnear hroom
    have hexec := exec_fetch hr (hwait hroom) hhandle halign hnear
    refine ⟨fun keys hkeys => ?_, fun l q va hl hf hfirst hkey hfar => ?_, fun l => ⟨fun q hkey hnear => ?_, fun code va hkey => ?_⟩⟩
    · have hall := fetchAll_got (found := s.laneFinds w c f) fun l hl => hkeys l (lt_of_mem_lanesOf hl) (mem_lanesOf.1 hl)
      obtain ⟨t, c1, c', hgo, hrest⟩ := fetchGo_issues (s := s) (f := f) (w := w) (c := c) keys
      exact ⟨t, c1, c', (hexec.trans (congrArg (fun r => kvIssue s r (fetchGo s w c f)) hall)).trans hgo, hrest⟩
    · have hall := fetchAll_far (found := s.laneFinds w c f) (lanesOf_pairwise _) (mem_lanesOf.2 hf)
        ((congrArg _ hkey).trans (fetchAtIssue_far hfar)) fun j hj hlt => hfirst j hlt (mem_lanesOf.1 hj)
      exact hexec.trans (congrArg (fun r => kvIssue s r (fetchGo s w c f)) hall)
    · exact (congrArg _ hkey).trans (fetchAtIssue_near hnear)
    · exact (congrArg _ hkey).trans (fetchAtIssue_fail code va)

end Sys2Proof.Machine
end

section
/-! SUPPORT. The population instructions (01 R22 to R25; 10 R210 to R220): what they wait for and trap, the classes of GROUP, and what a
population put in place leaves as it was. -/

namespace Sys2Proof.Machine

/-! Participants (R23). -/

theorem mem_insertByNumber {x y : Nat × Crew} {ys : List (Nat × Crew)} (h : y ∈ insertByNumber x ys) : y = x ∨ y ∈ ys := by
  induction ys with
  | nil => exact .inl (List.mem_singleton.1 h)
  | cons z zs ih =>
    unfold insertByNumber at h
    split at h
    · obtain rfl | h := List.mem_cons.1 h
      · exact .inr List.mem_cons_self
      · exact (ih h).imp_right (List.mem_cons_of_mem _)
    · exact List.mem_cons.1 h

/-- A participant is a live crew of the role. -/
theorem Workgroup.mem_of_mem_participants {w : Workgroup} {role : BitVec 2} {p : Nat × Crew} (h : p ∈ w.participants role) :
    p ∈ w.crews ∧ p.2.role = role := by
  have hmem : p ∈ w.crews.filter (fun e => decide (e.2.role = role) && e.2.isLive) := by
    unfold Workgroup.participants at h
    generalize w.crews.filter _ = es at h ⊢
    induction es with
    | nil => exact h
    | cons e es ih =>
      obtain rfl | h := mem_insertByNumber h
      · exact List.mem_cons_self
      · exact List.mem_cons_of_mem _ (ih h)
  obtain ⟨hw, hp⟩ := List.mem_filter.1 hmem
  exact ⟨hw, of_decide_eq_true (Bool.and_eq_true_iff.1 hp).1⟩

/-! The issue of a population instruction (R23, R210). -/

section
variable {s : State} {w : Workgroup} {c : Crew} {slot : Nat} {low : Crew} {rest : List (Nat × Crew)} (h : Issuing s w c)
  (hp : w.participants c.role = (slot, low) :: rest) {a : Reg}
  (run : State → Workgroup → List (Nat × Crew) → Crew → BitVec 256 → Result)
include h

omit hp in
theorem popIssue_waits (hw : ∃ p ∈ w.participants c.role, s.arrived w p.2 = false) : popIssue s a run = .next s := by
  have hall : (w.participants c.role).all (fun p => s.arrived w p.2) = false := by
    obtain ⟨p, hp, ha⟩ := hw
    exact List.all_eq_false.2 ⟨p, hp, by rw [ha]; exact Bool.false_ne_true⟩
  rw [popIssue, acting_of h]
  simp only [hall, Bool.not_false, if_true]

include hp

theorem popIssue_elsewhere (ha : ∀ p ∈ w.participants c.role, s.arrived w p.2 = true)
    (hpc : ∃ p ∈ w.participants c.role, p.2.pc ≠ low.pc) : popIssue s a run = collectiveTrap s w (w.participants c.role) .illconv 0 := by
  have hall := List.all_eq_true.2 ha
  have hany : (w.participants c.role).any (fun p => p.2.pc != low.pc) = true := by
    obtain ⟨p, hp, hne⟩ := hpc
    exact List.any_eq_true.2 ⟨p, hp, bne_iff_ne.2 hne⟩
  rw [hp] at hall hany ⊢
  rw [popIssue, acting_of h]
  simp only [hp, List.headD_cons, hall, hany, Bool.not_true, Bool.false_eq_true, if_false, if_true]

variable (ha : ∀ p ∈ w.participants c.role, s.arrived w p.2 = true ∧ p.2.pc = low.pc)
include ha

omit h hp in
theorem all_arrived : (w.participants c.role).all (fun p => s.arrived w p.2) = true := List.all_eq_true.2 fun p hp => (ha p hp).1

omit h hp in
theorem all_together : (w.participants c.role).any (fun p => p.2.pc != low.pc) = false :=
  List.any_eq_false.2 fun p hp => by rw [(ha p hp).2, bne_self_eq_false]; exact Bool.false_ne_true

theorem popIssue_align (hal : (low.s2 a).toNat % 32 ≠ 0) :
    popIssue s a run = collectiveTrap s w (w.participants c.role) .align 0 := by
  have hall := all_arrived ha
  have hany := all_together ha
  rw [hp] at hall hany ⊢
  rw [popIssue, acting_of h]
  simp only [hp, List.headD_cons, hall, hany, Bool.not_true, Bool.false_eq_true, if_false, (misaligned_iff _ _).2 hal, if_true]

variable (hal : (low.s2 a).toNat % 32 = 0) (h52 : (low.s2 a).toNat < 2 ^ 52)
include hal h52

theorem popIssue_held {code : FaultCode} (hx : s.xlate w.die w.ctx .rd (low.s2 a).toNat = .fail code) :
    popIssue s a run = .next (s.holdAt ⟨s.cur.key.wid, slot⟩ .scalar true code (low.s2 a).toNat) := by
  have hall := all_arrived ha
  have hany := all_together ha
  have hm := Bool.eq_false_iff.2 fun hm => (misaligned_iff _ _).1 hm hal
  have hf := Bool.eq_false_iff.2 (mt (farAddr_iff (low.s2 a)).1 (Nat.not_le.2 h52))
  rw [hp] at hall hany
  rw [popIssue, acting_of h]
  simp only [hp, List.headD_cons, hall, hany, Bool.not_true, Bool.false_eq_true, if_false, hm, hf, hx]

theorem popIssue_runs {pa : Nat} (hx : s.xlate w.die w.ctx .rd (low.s2 a).toNat = .ok pa) :
    popIssue s a run = run (s.touchRange (.ctx w.ctx) true pa 32) w (w.participants c.role) low
      (BitVec.ofNat 256 (leNat (s.readBytes w.ctx pa 32))) := by
  have hall := all_arrived ha
  have hany := all_together ha
  have hm := Bool.eq_false_iff.2 fun hm => (misaligned_iff _ _).1 hm hal
  have hf := Bool.eq_false_iff.2 (mt (farAddr_iff (low.s2 a)).1 (Nat.not_le.2 h52))
  rw [hp] at hall hany ⊢
  rw [popIssue, acting_of h]
  simp only [hp, List.headD_cons, hall, hany, Bool.not_true, Bool.false_eq_true, if_false, hm, hf, hx]

end

/-- The survivors of a GROUP with their classes. -/
def groupAlive (w : Workgroup) (parts : List (Nat × Crew)) (spec : BitVec 256) : List ((Nat × Nat) × List (Nat × Nat)) :=
  groupClasses w (specKeys spec) (popThreads parts) []

/-- The workgroup whose survivors hold their combined columns. -/
def groupColumns (w : Workgroup) (parts : List (Nat × Crew)) (spec : BitVec 256) : Workgroup :=
  groupCombine w (groupEntries spec) (groupAlive w parts spec)

/-- The workgroup after a packing GROUP. -/
def groupPacked (s : State) (w : Workgroup) (parts : List (Nat × Crew)) (low : Crew) (spec : BitVec 256) : Workgroup :=
  let w1 := groupColumns w parts spec
  w1.fill s.tick (s.regsOf w low) (s.width w) low (parts.map (fun p => (p.1, w1.crews.get p.1)))
    (((groupAlive w parts spec).map (·.1)).map (fun th => (w1.crews.get th.1).thread (s.regsOf w low) th.2))

/-- The crews in which a survivor stands, with their lanes. -/
def groupKept (w : Workgroup) (parts : List (Nat × Crew)) (spec : BitVec 256) : List (Nat × Crew × Mask) :=
  let alive := (groupAlive w parts spec).map (·.1)
  parts.filterMap (fun p =>
    if maskWhere (fun l => alive.contains (p.1, l)) = 0 then none
    else some (p.1, (groupColumns w parts spec).crews.get p.1, maskWhere (fun l => alive.contains (p.1, l))))

/-- The workgroup that a GROUP leaves. -/
def grouped (pack : Bool) (s : State) (w : Workgroup) (parts : List (Nat × Crew)) (low : Crew) (spec : BitVec 256) : Workgroup :=
  if pack then groupPacked s w parts low spec else (groupColumns w parts spec).install low (groupKept w parts spec)

/-- What a GROUP does with the spec that it has read. -/
def groupRun (pack : Bool) (s : State) (w : Workgroup) (parts : List (Nat × Crew)) (low : Crew) (spec : BitVec 256) : Result :=
  if groupBad spec (s.regsOf w low) then collectiveTrap s w parts .range 0
  else .next (s.putPop s.cur.key.wid
    (grouped pack s w parts low spec))

theorem exec_group (s : State) (a : Reg) (pack : Bool) : exec (.group a pack) s = popIssue s a (groupRun pack) := by
  show execGroup a pack s = _
  unfold execGroup
  refine congrArg (popIssue s a) (funext fun s => funext fun w => funext fun parts => funext fun low => funext fun spec => ?_)
  refine ite_congr rfl (fun _ => rfl) fun _ => ?_
  cases pack
  · simp only [grouped, groupKept, groupColumns, groupAlive, List.filterMap_map, Function.comp_def, Bool.false_eq_true, if_false]
    rfl
  · simp only [grouped, groupPacked, groupColumns, groupAlive, if_true]

/-- What a JOIN or JOINC does with the spec that it has read. -/
def joinTake (k : BitVec 5) (outer again : Bool) (s : State) (w : Workgroup) (parts : List (Nat × Crew)) (low : Crew) (spec : BitVec 256) :
    Result :=
  let rel := (s.gridOf w).buf k.toNat
  if joinBad spec rel (s.regsOf w low) then collectiveTrap s w parts .range 0
  else if rel.relationBad (s.gridOf w).spBytes then collectiveTrap s w parts .bounds 0
  else if (joinEntries spec).any (fun e => decide (rel.strideY < 4 * e.2 + 4)) then collectiveTrap s w parts .range 0
  else if again && jcurDone (w.jcur.get low.role.toNat) then
    .next (s.putWg s.cur.key.wid (parts.foldl
      (fun (w : Workgroup) p => w.putCrew p.1 { p.2.parted with pc := p.2.pc + 4, cursors := [] }) w))
  else joinRun s w parts low spec rel outer again

theorem exec_join (s : State) (k : BitVec 5) (left : Bool) (a : Reg) : exec (.join k left a) s = popIssue s a (joinTake k left false) := rfl

theorem exec_joinc (s : State) (k : BitVec 5) (left : Bool) (a : Reg) : exec (.joinc k left a) s = popIssue s a (joinTake k left true) := rfl

/-- Each population instruction acts inside that issue. -/
theorem exec_popIssue (s : State) {i : Instr} {a : Reg} {pack left : Bool} {k : BitVec 5}
    (hi : i ∈ [Instr.group a pack, .join k left a, .joinc k left a]) : ∃ run, exec i s = popIssue s a run := by
  simp only [List.mem_cons, List.not_mem_nil, or_false] at hi
  obtain rfl | rfl | rfl := hi
  · exact ⟨_, exec_group s a pack⟩
  · exact ⟨_, exec_join s k left a⟩
  · exact ⟨_, exec_joinc s k left a⟩

theorem State.touchRange_cur (s : State) (o : Owner) (alloc : Bool) (a n : Nat) : (s.touchRange o alloc a n).cur = s.cur :=
  (congrArg State.cur (OnlyMemory.foldl (fun t i => onlyMemory_touch t o alloc (a + i)) (List.range n) s)).trans rfl

/-! The population in place (R24, R290). -/

theorem State.putPop_rest (s : State) (wid : Nat) (w : Workgroup) : { s.putPop wid w with tags := s.tags } = s.putWg wid w := rfl

/-- The registers of the crews that have started carry the context's tag. -/
theorem State.putPop_tags (s : State) (wid : Nat) {w : Workgroup} {e : Nat × Crew} (he : e ∈ w.crews) (hr : e.2.status ≠ .reserved)
    {array : Nat} (ha : array < 2) :
    (s.putPop wid w).tags.find? (tagKey array w.die w.core (2048 * w.share + e.1 % 64)) = some ⟨w.ctx, (s.ctx w.ctx).secure⟩ := by
  refine (s.mark_tags w w.crewLines (w.lineKey ⟨array, e.1 % 64⟩)).trans (if_pos (List.mem_map_of_mem ?_))
  refine List.mem_flatMap.2 ⟨e, List.mem_filter.2 ⟨he, decide_eq_true hr⟩, ?_⟩
  obtain rfl | rfl : array = 0 ∨ array = 1 := by omega
  · exact List.mem_cons_self
  · exact List.mem_cons_of_mem _ List.mem_cons_self

/-! The classes of GROUP (R213). -/

section
variable {w : Workgroup} {keys : List Nat}

theorem sameKey_iff {t u : Nat × Nat} : sameKey w keys t u = true ↔ ∀ r ∈ keys, (w.crews.get t.1).v r t.2 = (w.crews.get u.1).v r u.2 := by
  simp [sameKey, List.all_eq_true]

theorem sameKey_refl (t : Nat × Nat) : sameKey w keys t t = true := sameKey_iff.2 fun _ _ => rfl

theorem sameKey_trans {t u v : Nat × Nat} (h : sameKey w keys t u = true) (g : sameKey w keys u v = true) : sameKey w keys t v = true :=
  sameKey_iff.2 fun r hr => (sameKey_iff.1 h r hr).trans (sameKey_iff.1 g r hr)

theorem sameKey_symm {t u : Nat × Nat} (h : sameKey w keys t u = true) : sameKey w keys u t = true :=
  sameKey_iff.2 fun r hr => (sameKey_iff.1 h r hr).symm

/-- What holds of the survivors and their classes once the threads `seen` have been looked at. -/
structure Classed (w : Workgroup) (keys : List Nat) (seen : List (Nat × Nat)) (out : List ((Nat × Nat) × List (Nat × Nat))) : Prop where
  apart : out.Pairwise (fun x y => sameKey w keys x.1 y.1 = false)
  members : ∀ x ∈ out, x.2 = seen.filter (sameKey w keys x.1)
  first : ∀ x ∈ out, x.2.head? = some x.1
  covers : ∀ t ∈ seen, ∃ x ∈ out, t ∈ x.2

theorem classed_nil : Classed w keys [] [] :=
  ⟨.nil, List.forall_mem_nil _, List.forall_mem_nil _, List.forall_mem_nil _⟩

variable {seen : List (Nat × Nat)} {out : List ((Nat × Nat) × List (Nat × Nat))} {t : Nat × Nat}

theorem filter_append_singleton {α : Type} (p : α → Bool) (xs : List α) (x : α) :
    (xs ++ [x]).filter p = xs.filter p ++ if p x then [x] else [] := by
  rw [List.filter_append, List.filter_singleton, Bool.cond_eq_ite]

/-- A class once a thread has been looked at that may have its key. -/
def joinClass (w : Workgroup) (keys : List Nat) (t : Nat × Nat) (x : (Nat × Nat) × List (Nat × Nat)) : (Nat × Nat) × List (Nat × Nat) :=
  if sameKey w keys x.1 t then (x.1, x.2 ++ [t]) else x

theorem joinClass_fst (x : (Nat × Nat) × List (Nat × Nat)) : (joinClass w keys t x).1 = x.1 := by
  unfold joinClass
  split <;> rfl

theorem joinClass_snd (x : (Nat × Nat) × List (Nat × Nat)) : (joinClass w keys t x).2 = x.2 ++ if sameKey w keys x.1 t then [t] else [] := by
  unfold joinClass
  split
  · rfl
  · exact (List.append_nil _).symm

/-- A thread with the key of a survivor joins its class. -/
theorem Classed.join (h : Classed w keys seen out) (ht : ∃ x ∈ out, sameKey w keys x.1 t = true) :
    Classed w keys (seen ++ [t]) (out.map (joinClass w keys t)) where
  apart := by
    rw [List.pairwise_map]
    simpa only [joinClass_fst] using h.apart
  members := by
    rw [List.forall_mem_map]
    intro x hx
    rw [joinClass_snd, joinClass_fst, filter_append_singleton, h.members x hx]
  first := by
    rw [List.forall_mem_map]
    intro x hx
    rw [joinClass_snd, joinClass_fst, List.head?_append, h.first x hx]
    rfl
  covers := by
    intro u hu
    obtain hu | hu := List.mem_append.1 hu
    · obtain ⟨x, hx, hux⟩ := h.covers u hu
      exact ⟨_, List.mem_map_of_mem hx, by rw [joinClass_snd]; exact List.mem_append_left _ hux⟩
    · obtain ⟨x, hx, hk⟩ := ht
      exact ⟨_, List.mem_map_of_mem hx, by rw [joinClass_snd, hk]; exact List.mem_append_right _ hu⟩

/-- A thread with another key than every survivor survives. -/
theorem Classed.survive (h : Classed w keys seen out) (ht : ∀ x ∈ out, sameKey w keys x.1 t = false) :
    Classed w keys (seen ++ [t]) (out ++ [(t, [t])]) where
  apart := List.pairwise_append.2 ⟨h.apart, List.pairwise_singleton _ _, fun x hx y hy => by rw [List.mem_singleton.1 hy]; exact ht x hx⟩
  members := by
    intro x hx
    rw [filter_append_singleton]
    obtain hx | hx := List.mem_append.1 hx
    · rw [ht x hx, ← h.members x hx]
      exact (List.append_nil _).symm
    · have hnone : seen.filter (sameKey w keys t) = [] := by
        refine List.filter_eq_nil_iff.2 fun u hu hk => ?_
        obtain ⟨y, hy, huy⟩ := h.covers u hu
        rw [h.members y hy] at huy
        exact Bool.false_ne_true ((ht y hy).symm.trans (sameKey_trans (List.mem_filter.1 huy).2 (sameKey_symm hk)))
      rw [List.mem_singleton.1 hx, hnone, sameKey_refl]
      rfl
  first := by
    intro x hx
    obtain hx | hx := List.mem_append.1 hx
    · exact h.first x hx
    · rw [List.mem_singleton.1 hx]
      rfl
  covers := by
    intro u hu
    obtain hu | hu := List.mem_append.1 hu
    · obtain ⟨x, hx, hux⟩ := h.covers u hu
      exact ⟨x, List.mem_append_left _ hx, hux⟩
    · exact ⟨_, List.mem_append_right _ List.mem_cons_self, hu⟩

theorem Classed.groupClasses (h : Classed w keys seen out) (ts : List (Nat × Nat)) :
    Classed w keys (seen ++ ts) (Machine.groupClasses w keys ts out) := by
  induction ts generalizing seen out with
  | nil =>
    rw [List.append_nil]
    exact h
  | cons t ts ih =>
    unfold Machine.groupClasses
    rw [List.append_cons]
    split
    · next hany =>
      obtain ⟨x, hx, hk⟩ := List.any_eq_true.1 hany
      exact ih (h.join ⟨x, hx, hk⟩)
    · next hnone =>
      refine ih (h.survive fun x hx => ?_)
      rw [Bool.eq_false_iff]
      exact fun hk => hnone (List.any_eq_true.2 ⟨x, hx, hk⟩)

/-- The classes of a population. -/
theorem classed_groupClasses (w : Workgroup) (keys : List Nat) (ts : List (Nat × Nat)) : Classed w keys ts (groupClasses w keys ts []) :=
  classed_nil.groupClasses ts

theorem Classed.mem_seen (h : Classed w keys seen out) {x : (Nat × Nat) × List (Nat × Nat)} (hx : x ∈ out) : x.1 ∈ seen := by
  have hmem : x.1 ∈ x.2 := List.mem_of_mem_head? (h.first x hx)
  rw [h.members x hx] at hmem
  exact (List.mem_filter.1 hmem).1

end

/-! The combined columns of GROUP (R212, R213). -/

/-- One column of one thread: the slot and the lane, the register, and its value. -/
structure ColumnWrite where
  place : Nat × Nat
  reg : Nat
  val : Word

/-- The workgroup with a column of a thread written. -/
def Workgroup.setColumn (w : Workgroup) (p : ColumnWrite) : Workgroup :=
  w.putCrew p.place.1 ((w.crews.get p.place.1).setV p.reg p.place.2 p.val)

/-- The columns that a GROUP writes. -/
def groupWrites (w : Workgroup) (es : List GroupEntry) (classes : List ((Nat × Nat) × List (Nat × Nat))) : List ColumnWrite :=
  classes.flatMap fun x => es.map fun e => ⟨x.1, e.reg, e.combine (x.2.map (fun t => (w.crews.get t.1).v e.reg t.2))⟩

theorem groupCombine_eq (w : Workgroup) (es : List GroupEntry) (classes : List ((Nat × Nat) × List (Nat × Nat))) :
    groupCombine w es classes = (groupWrites w es classes).foldl Workgroup.setColumn w := by
  simp only [groupWrites, groupCombine, List.foldl_flatMap, List.foldl_map, Workgroup.setColumn]

theorem v_setColumn {w : Workgroup} {p : ColumnWrite} (hp : p.place.2 < 64) {th : Nat × Nat} (hth : th.2 < 64) (r : Nat) :
    ((w.setColumn p).crews.get th.1).v r th.2 = if p.place = th ∧ p.reg = r then p.val else (w.crews.get th.1).v r th.2 := by
  rw [Workgroup.setColumn, Workgroup.putCrew_crews, SMap.get_insert]
  by_cases hs : th.1 = p.place.1
  · rw [if_pos hs, Crew.v_setV _ _ _ _ _ _ hp hth, ← hs]
    refine if_congr ⟨fun h => ⟨Prod.ext hs.symm h.2.symm, h.1.symm⟩, fun h => ⟨h.2.symm, by rw [h.1]⟩⟩ rfl rfl
  · rw [if_neg hs, if_neg fun h => hs (by rw [h.1])]

/-- What a list of columns leaves in one column, all of whose writes agree. -/
theorem v_foldl_setColumn {th : Nat × Nat} (hth : th.2 < 64) {r : Nat} {v : Word} (ps : List ColumnWrite) (hp : ∀ p ∈ ps, p.place.2 < 64)
    (hv : ∀ p ∈ ps, p.place = th → p.reg = r → p.val = v) (w : Workgroup) :
    ((ps.foldl Workgroup.setColumn w).crews.get th.1).v r th.2
      = if ∃ p ∈ ps, p.place = th ∧ p.reg = r then v else (w.crews.get th.1).v r th.2 := by
  induction ps generalizing w with
  | nil => simp
  | cons p ps ih =>
    obtain ⟨hp0, hps⟩ := List.forall_mem_cons.1 hp
    obtain ⟨hv0, hvs⟩ := List.forall_mem_cons.1 hv
    rw [List.foldl_cons, ih hps hvs, v_setColumn hp0 hth]
    by_cases h : p.place = th ∧ p.reg = r
    · simp [h, hv0 h.1 h.2]
    · simp [h]

/-! Registers that a spec names once (R212). -/

theorem length_eraseDups_le {α : Type} [BEq α] [LawfulBEq α] : ∀ (n : Nat) (l : List α), l.length ≤ n → l.eraseDups.length ≤ l.length := by
  intro n
  induction n with
  | zero =>
    intro l hl
    rw [List.length_eq_zero_iff.1 (Nat.le_zero.1 hl)]
    exact Nat.le_refl 0
  | succ n ih =>
    intro l hl
    cases l with
    | nil => exact Nat.le_refl 0
    | cons a l =>
      have hf := List.length_filter_le (fun b => !b == a) l
      have := ih (l.filter (fun b => !b == a)) (hf.trans (Nat.le_of_succ_le_succ hl))
      rw [List.eraseDups_cons, List.length_cons, List.length_cons]
      omega

theorem nodup_of_length_eraseDups {α : Type} [BEq α] [LawfulBEq α] {l : List α} (h : l.eraseDups.length = l.length) : l.Nodup := by
  induction l with
  | nil => exact .nil
  | cons a l ih =>
    have hf := List.length_filter_le (fun b => !b == a) l
    have he := length_eraseDups_le _ (l.filter (fun b => !b == a)) (Nat.le_refl _)
    rw [List.eraseDups_cons, List.length_cons, List.length_cons] at h
    have hall : l.filter (fun b => !b == a) = l := List.filter_eq_self.2 (List.length_filter_eq_length_iff.1 (by omega))
    rw [hall] at h
    refine List.nodup_cons.2 ⟨fun ha => ?_, ih (by omega)⟩
    rw [← hall] at ha
    simpa using (List.mem_filter.1 ha).2

theorem nodup_of_namedOnce {regs : Nat} {rs : List Nat} (h : namedOnce regs rs = true) : rs.Nodup :=
  nodup_of_length_eraseDups (beq_iff_eq.1 (Bool.and_eq_true_iff.1 h).2)

theorem nodup_groupEntries {spec : BitVec 256} {regs : Nat} (h : groupBad spec regs = false) :
    ((groupEntries spec).map (·.reg)).Nodup := by
  simp only [groupBad, Bool.or_eq_false_iff, Bool.not_eq_false'] at h
  exact (List.nodup_append.1 (nodup_of_namedOnce h.2)).1

section
variable {w : Workgroup} {parts : List (Nat × Crew)} {spec : BitVec 256}

theorem lane_lt_of_mem_popThreads {th : Nat × Nat} (h : th ∈ popThreads parts) : th.2 < 64 := by
  obtain ⟨p, -, h⟩ := List.mem_flatMap.1 h
  obtain ⟨l, hl, rfl⟩ := List.mem_map.1 h
  exact List.mem_range.1 (List.mem_filter.1 hl).1

theorem slot_of_mem_popThreads {th : Nat × Nat} (h : th ∈ popThreads parts) : ∃ p ∈ parts, p.1 = th.1 := by
  obtain ⟨p, hp, h⟩ := List.mem_flatMap.1 h
  obtain ⟨l, -, rfl⟩ := List.mem_map.1 h
  exact ⟨p, hp, rfl⟩

theorem classed_groupAlive : Classed w (specKeys spec) (popThreads parts) (groupAlive w parts spec) := classed_groupClasses _ _ _

/-- Every survivor holds in each named register what the entry makes of its class. -/
theorem groupColumns_v {regs : Nat} (hgood : groupBad spec regs = false) {x : (Nat × Nat) × List (Nat × Nat)}
    (hx : x ∈ groupAlive w parts spec) {e : GroupEntry} (he : e ∈ groupEntries spec) :
    ((groupColumns w parts spec).crews.get x.1.1).v e.reg x.1.2 = e.combine (x.2.map (fun th => (w.crews.get th.1).v e.reg th.2)) := by
  have hlane {y : (Nat × Nat) × List (Nat × Nat)} (hy : y ∈ groupAlive w parts spec) : y.1.2 < 64 :=
    lane_lt_of_mem_popThreads (classed_groupAlive.mem_seen hy)
  rw [groupColumns, groupCombine_eq, v_foldl_setColumn (hlane hx)
    (v := e.combine (x.2.map (fun th => (w.crews.get th.1).v e.reg th.2))) _ ?lanes ?agree, if_pos ?written]
  case lanes =>
    intro p hp
    obtain ⟨y, hy, hp⟩ := List.mem_flatMap.1 hp
    obtain ⟨d, -, rfl⟩ := List.mem_map.1 hp
    exact hlane hy
  case agree =>
    intro p hp hplace hreg
    obtain ⟨y, hy, hp⟩ := List.mem_flatMap.1 hp
    obtain ⟨d, hd, rfl⟩ := List.mem_map.1 hp
    obtain rfl : d = e := List.inj_on_of_nodup_map (nodup_groupEntries hgood) hd he hreg
    have hclass : y.2 = x.2 := by
      rw [classed_groupAlive.members y hy, classed_groupAlive.members x hx, show y.1 = x.1 from hplace]
    rw [← hclass]
  case written => exact ⟨_, List.mem_flatMap.2 ⟨x, hx, List.mem_map_of_mem he⟩, rfl, rfl⟩

end

/-! Crews of other roles (R24, R25). -/

/-- An entry of a workgroup whose crews are listed once. -/
structure Listed (w : Workgroup) (e : Nat × Crew) : Prop where
  sorted : SMap.Sorted w.crews
  found : w.crews.find? e.1 = some e.2

section
variable {w : Workgroup} {e : Nat × Crew}

theorem Listed.putCrew (h : Listed w e) {n : Nat} (hn : n ≠ e.1) (c : Crew) : Listed (w.putCrew n c) e :=
  ⟨SMap.sorted_insert h.sorted n c, (SMap.find?_insert _ _ _ _).trans ((if_neg hn.symm).trans h.found)⟩

theorem Listed.foldl {α : Type} {f : Workgroup → α → Workgroup} {xs : List α} (h : Listed w e)
    (hf : ∀ w, Listed w e → ∀ x ∈ xs, Listed (f w x) e) : Listed (xs.foldl f w) e :=
  xs.foldlRecOn f h fun w hw x hx => hf w hw x hx

/-- A crew of another role stands in another slot. -/
theorem Listed.ne_of_role (h : Listed w e) {x : Nat × Crew} (hx : x ∈ w.crews) (hr : x.2.role ≠ e.2.role) : x.1 ≠ e.1 := by
  intro he
  have hfind := SMap.find?_of_mem h.sorted hx
  rw [he, h.found] at hfind
  exact hr (congrArg Crew.role (Option.some.inj hfind)).symm

theorem le_foldl_max (ks : List Nat) (m : Nat) : m ≤ ks.foldl (fun m k => max m (k / 64)) m := by
  induction ks generalizing m with
  | nil => exact Nat.le_refl m
  | cons k ks ih => exact (Nat.le_max_left _ _).trans (ih _)

theorem div_le_foldl_max {ks : List Nat} {k : Nat} (h : k ∈ ks) (m : Nat) : k / 64 ≤ ks.foldl (fun m k => max m (k / 64)) m := by
  induction ks generalizing m with
  | nil => exact absurd h List.not_mem_nil
  | cons j ks ih =>
    obtain rfl | h := List.mem_cons.1 h
    · exact (Nat.le_max_right _ _).trans (le_foldl_max _ _)
    · exact ih h _

/-- A slot is freed for a crew without another slot changing: what moves aside takes a key that nothing has. -/
theorem Listed.freeSlot (h : Listed w e) {slot : Nat} (hs : slot ≠ e.1) (role : BitVec 2) : Listed (w.freeSlot slot role) e := by
  unfold Workgroup.freeSlot
  split
  · exact h.putCrew hs _
  · refine Listed.putCrew ?_ hs _
    split
    · exact h
    · refine h.putCrew (fun heq => ?_) _
      have hkey : e.1 / 64 ≤ w.crews.keys.foldl (fun m k => max m (k / 64)) 0 :=
        div_le_foldl_max (List.mem_map_of_mem (SMap.mem_of_find? h.found)) 0
      omega

theorem Listed.install (h : Listed w e) {low : Crew} (hr : e.2.role ≠ low.role) {keep : List (Nat × Crew × Mask)}
    (hk : ∀ x ∈ keep, x.1 ≠ e.1) : Listed (w.install low keep) e := by
  unfold Workgroup.install
  refine Listed.foldl (Listed.foldl h fun w hw x hx => hw.putCrew (hk _ (List.of_mem_zip hx).1) _) fun v hv x hx => hv.putCrew ?_ _
  obtain ⟨hmem, hp⟩ := List.mem_filter.1 (List.of_mem_zip hx).1
  have hrole : x.1.2.role = low.role := by
    simp only [Bool.and_eq_true, decide_eq_true_eq] at hp
    exact hp.1.1
  exact h.ne_of_role hmem (by rw [hrole]; exact hr.symm)

theorem Listed.fill (h : Listed w e) {low : Crew} (hr : e.2.role ≠ low.role) {parts : List (Nat × Crew)} (hp : ∀ p ∈ parts, p.1 ≠ e.1)
    (tick regs width : Nat) (ts : List Thread) : Listed (w.fill tick regs width low parts ts) e := by
  have hslots : ∀ n ∈ w.slotsFor low.role parts, n ≠ e.1 := by
    intro n hn
    obtain hn | hn := List.mem_append.1 hn
    · obtain ⟨p, hmem, rfl⟩ := List.mem_map.1 hn
      exact hp p hmem
    · obtain ⟨x, hmem, rfl⟩ := List.mem_map.1 hn
      obtain ⟨hx, hc⟩ := List.mem_filter.1 hmem
      have hrole := (of_decide_eq_true (Bool.and_eq_true_iff.1 hc).1).1
      exact h.ne_of_role hx (by rw [hrole]; exact hr.symm)
  unfold Workgroup.fill
  refine Listed.install (Listed.foldl h fun v hv n hn => hv.freeSlot ?_ _) hr fun x hx => ?_
  · exact hslots n (List.mem_of_mem_take (List.mem_filter.1 hn).1)
  · obtain ⟨y, hy, rfl⟩ := List.mem_map.1 hx
    exact hslots _ (List.mem_of_mem_take (List.of_mem_zip hy).1)

variable {parts : List (Nat × Crew)} {spec : BitVec 256}

theorem Listed.groupColumns (h : Listed w e) (hp : ∀ p ∈ parts, p.1 ≠ e.1) : Listed (groupColumns w parts spec) e := by
  rw [Machine.groupColumns, groupCombine_eq]
  refine h.foldl fun v hv x hx => hv.putCrew ?_ _
  obtain ⟨y, hy, hx⟩ := List.mem_flatMap.1 hx
  obtain ⟨d, -, rfl⟩ := List.mem_map.1 hx
  obtain ⟨p, hmem, hslot⟩ := slot_of_mem_popThreads (classed_groupAlive.mem_seen hy)
  exact hslot ▸ hp p hmem

theorem onlyCrews_groupColumns (w : Workgroup) (parts : List (Nat × Crew)) (spec : BitVec 256) : OnlyCrews w (groupColumns w parts spec) := by
  rw [Machine.groupColumns, groupCombine_eq]
  exact .foldl (fun _ _ => onlyCrews_putCrew _ _ _) _ _

theorem slot_of_mem_groupKept {x : Nat × Crew × Mask} (h : x ∈ groupKept w parts spec) : ∃ p ∈ parts, p.1 = x.1 := by
  obtain ⟨p, hp, hx⟩ := List.mem_filterMap.1 h
  split at hx
  · cases hx
  · exact ⟨p, hp, congrArg Prod.fst (Option.some.inj hx)⟩

end

theorem onlyCrews_grouped (pack : Bool) (s : State) (w : Workgroup) (parts : List (Nat × Crew)) (low : Crew) (spec : BitVec 256) :
    OnlyCrews w (grouped pack s w parts low spec) := by
  refine (onlyCrews_groupColumns w parts spec).trans ?_
  cases pack
  · exact onlyCrews_install _ _ _
  · exact onlyCrews_fill _ _ _ _ _ _ _

theorem Listed.grouped {w : Workgroup} {e : Nat × Crew} (h : Listed w e) {low : Crew} (hr : e.2.role ≠ low.role)
    {parts : List (Nat × Crew)} (hp : ∀ p ∈ parts, p.1 ≠ e.1) (pack : Bool) (s : State) (spec : BitVec 256) :
    Listed (grouped pack s w parts low spec) e := by
  cases pack
  · refine (h.groupColumns hp).install hr fun x hx => ?_
    obtain ⟨p, hmem, hslot⟩ := slot_of_mem_groupKept hx
    exact hslot ▸ hp p hmem
  · refine (h.groupColumns hp).fill hr (fun p hm => ?_) _ _ _ _
    obtain ⟨q, hq, rfl⟩ := List.mem_map.1 hm
    exact hp q hq

/-! JOIN and JOINC (R214, R216, R218, R220). -/

/-- The output of a join over its left rows. -/
def joinOutput (s : State) (w : Workgroup) (low : Crew) (spec : BitVec 256) (rel : BufRec) (outer : Bool) (rows : List Thread)
    (start rp : Nat) : List (Thread × Option Nat) × Option JoinStop :=
  let keyOf := fun (th : Thread) (n : Nat) => th.v.getD ((specKeys spec).getD n 256) 0
  joinRows (fun th => matchesOf w rel (keyOf th 0) (keyOf th 1)) outer ((s.gridOf w).copy.crewsMax low.role.toNat * s.width w)
    (rows.drop start) start rp []

/-- The population of a join's output, put in place with the cursor j in workgroup `w'`. -/
def joinPut (s : State) (w : Workgroup) (parts : List (Nat × Crew)) (low : Crew) (spec : BitVec 256) (rel : BufRec) (outer : Bool)
    (w' : Workgroup) (j : DWord) (o : List (Thread × Option Nat)) : Result :=
  .next (s.putPop s.cur.key.wid ((w'.setJcur low.role j).fill s.tick (s.regsOf w low) (s.width w) low parts
    (o.map (joinThread w rel spec outer))))

/-- The left rows of a JOIN, and those of a JOINC, which the stash holds. -/
def popRows (s : State) (w : Workgroup) (parts : List (Nat × Crew)) (low : Crew) : List Thread :=
  (popThreads parts).map (fun th => (w.crews.get th.1).thread (s.regsOf w low) th.2)

def stashRows (s : State) (w : Workgroup) (low : Crew) (spec : BitVec 256) : List Thread :=
  (List.range (jcurLcnt (w.jcur.get low.role.toNat))).map
    (fun n => stashThread w (nfld spec 160 32 + n * stashSize (s.regsOf w low)) (s.regsOf w low))

section
variable {s : State} {w : Workgroup} {parts : List (Nat × Crew)} {low : Crew} {spec : BitVec 256} {rel : BufRec} {outer : Bool}

theorem joinRun_all (h : (joinOutput s w low spec rel outer (popRows s w parts low) 0 0).2 = none) :
    joinRun s w parts low spec rel outer false
      = joinPut s w parts low spec rel outer w jcurIdle (joinOutput s w low spec rel outer (popRows s w parts low) 0 0).1 := by
  unfold joinRun
  simp only [Bool.false_and, Bool.false_eq_true, if_false]
  split
  · rfl
  · next hs => exact absurd (h.symm.trans hs) nofun

theorem joinRun_stashes {stop : JoinStop} (h : (joinOutput s w low spec rel outer (popRows s w parts low) 0 0).2 = some stop) :
    joinRun s w parts low spec rel outer false =
      if (s.gridOf w).spBytes < nfld spec 160 32 + ((popRows s w parts low).drop stop.li).length * stashSize (s.regsOf w low) then
        collectiveTrap s w parts .bounds 0
      else joinPut s w parts low spec rel outer
        { w with scratch := w.scratch.putList (nfld spec 160 32) (((popRows s w parts low).drop stop.li).flatMap Thread.record) }
        (jcurOf stop.rp ((popRows s w parts low).drop stop.li).length 0)
        (joinOutput s w low spec rel outer (popRows s w parts low) 0 0).1 := by
  unfold joinRun
  simp only [Bool.false_and, Bool.false_eq_true, if_false]
  split
  · next hs => exact absurd (h.symm.trans hs) nofun
  · next hs =>
    obtain rfl := Option.some.inj (h.symm.trans hs)
    rfl

/-- The rows of a JOINC and what it starts from. -/
def joincOutput (s : State) (w : Workgroup) (low : Crew) (spec : BitVec 256) (rel : BufRec) (outer : Bool) :
    List (Thread × Option Nat) × Option JoinStop :=
  joinOutput s w low spec rel outer (stashRows s w low spec) (jcurLidx (w.jcur.get low.role.toNat)) (jcurRpos (w.jcur.get low.role.toNat))

theorem joinRun_outside (h : (s.gridOf w).spBytes < nfld spec 160 32 + jcurLcnt (w.jcur.get low.role.toNat) * stashSize (s.regsOf w low)) :
    joinRun s w parts low spec rel outer true = collectiveTrap s w parts .bounds 0 :=
  if_pos (Bool.and_eq_true_iff.2 ⟨rfl, decide_eq_true h⟩)

variable (hroom : nfld spec 160 32 + jcurLcnt (w.jcur.get low.role.toNat) * stashSize (s.regsOf w low) ≤ (s.gridOf w).spBytes)
include hroom

theorem joinRun_ends (h : (joincOutput s w low spec rel outer).2 = none) :
    joinRun s w parts low spec rel outer true = joinPut s w parts low spec rel outer w jcurIdle (joincOutput s w low spec rel outer).1 := by
  unfold joinRun
  simp only [decide_eq_false (Nat.not_lt.2 hroom), Bool.and_false, Bool.false_eq_true, if_false, if_true]
  split
  · rfl
  · next hs => exact absurd (h.symm.trans hs) nofun

theorem joinRun_goes_on {stop : JoinStop} (h : (joincOutput s w low spec rel outer).2 = some stop) :
    joinRun s w parts low spec rel outer true = joinPut s w parts low spec rel outer w
      (jcurOf stop.rp (jcurLcnt (w.jcur.get low.role.toNat)) stop.li) (joincOutput s w low spec rel outer).1 := by
  unfold joinRun
  simp only [decide_eq_false (Nat.not_lt.2 hroom), Bool.and_false, Bool.false_eq_true, if_false, if_true]
  split
  · next hs => exact absurd (h.symm.trans hs) nofun
  · next hs =>
    obtain rfl := Option.some.inj (h.symm.trans hs)
    rfl

end

section
variable {s : State} {w : Workgroup} {parts : List (Nat × Crew)} {low : Crew} {spec : BitVec 256} {k : BitVec 5} {outer : Bool}
  (hspec : joinBad spec ((s.gridOf w).buf k.toNat) (s.regsOf w low) = false)
  (hrel : ((s.gridOf w).buf k.toNat).relationBad (s.gridOf w).spBytes = false)
  (hcols : ∀ e ∈ joinEntries spec, 4 * e.2 + 4 ≤ ((s.gridOf w).buf k.toNat).strideY)
include hspec hrel hcols

theorem joinTake_passes (again : Bool) : joinTake k outer again s w parts low spec =
    if again && jcurDone (w.jcur.get low.role.toNat) then
      .next (s.putWg s.cur.key.wid (parts.foldl
        (fun (w : Workgroup) p => w.putCrew p.1 { p.2.parted with pc := p.2.pc + 4, cursors := [] }) w))
    else joinRun s w parts low spec ((s.gridOf w).buf k.toNat) outer again := by
  have hin : (joinEntries spec).any (fun e => decide (((s.gridOf w).buf k.toNat).strideY < 4 * e.2 + 4)) = false :=
    List.any_eq_false.2 fun e he => by rw [decide_eq_true_eq]; exact Nat.not_lt.2 (hcols e he)
  simp only [joinTake, hspec, hrel, hin, Bool.false_eq_true, if_false]

theorem joinTake_join : joinTake k outer false s w parts low spec = joinRun s w parts low spec ((s.gridOf w).buf k.toNat) outer false :=
  joinTake_passes hspec hrel hcols false

theorem joinTake_joinc (h : jcurDone (w.jcur.get low.role.toNat) = false) :
    joinTake k outer true s w parts low spec = joinRun s w parts low spec ((s.gridOf w).buf k.toNat) outer true :=
  (joinTake_passes hspec hrel hcols true).trans (if_neg (by rw [h]; exact Bool.false_ne_true))

end

/-- Settles O30: what the population waits for and traps, then GROUP by its classes, JOIN and JOINC by their outputs. -/
theorem populationInstructionsActTogether : Obligations.PopulationInstructionsActTogether := by
  intro s w c slot low rest pa h hp a pack left k parts spec t regs wid pops
  refine ⟨fun w' => ⟨State.putPop_rest t wid w', fun e he hr array harr => State.putPop_tags t wid he hr harr⟩, fun hw i hi => ?_,
    fun ha hpc i hi => ?_, fun ha hal i hi => ?_, fun ha hal h52 => ⟨fun code hx i hi => ?_, fun hx => ?_⟩⟩
  · obtain ⟨run, hrun⟩ := exec_popIssue s hi
    rw [hrun, popIssue_waits h run hw]
  · obtain ⟨run, hrun⟩ := exec_popIssue s hi
    rw [hrun, popIssue_elsewhere h hp run ha hpc]
  · obtain ⟨run, hrun⟩ := exec_popIssue s hi
    rw [hrun, popIssue_align h hp run ha hal]
  · obtain ⟨run, hrun⟩ := exec_popIssue s hi
    rw [hrun, popIssue_held h hp run ha hal h52 hx]
  have hruns (run : State → Workgroup → List (Nat × Crew) → Crew → BitVec 256 → Result) :
      popIssue s a run = run t w parts low spec := popIssue_runs h hp run ha hal h52 hx
  have hgroup (pack : Bool) : exec (.group a pack) s = groupRun pack t w parts low spec := (exec_group s a pack).trans (hruns _)
  have hwid : t.cur.key.wid = wid := by rw [State.touchRange_cur]
  have hput (pack : Bool) (hgood : groupBad spec regs = false) :
      exec (.group a pack) s = .next (t.putPop wid (grouped pack t w parts low spec)) := by
    rw [hgroup, ← hwid]
    exact if_neg (by rw [hgood]; exact Bool.false_ne_true)
  refine ⟨fun hbad => (hgroup pack).trans (if_pos hbad), fun hgood => ?group, ?join⟩
  case group =>
    have hc : Classed w (specKeys spec) (popThreads parts) (groupAlive w parts spec) := classed_groupAlive
    refine ⟨hc.apart, fun x hx => ⟨hc.members x hx, hc.first x hx⟩, hc.covers, fun x hx e he => groupColumns_v hgood hx he,
      hput true hgood, hput false hgood, fun hsorted => ⟨_, hput pack hgood, ?_⟩⟩
    have hrole {p : Nat × Crew} (hm : p ∈ parts) := Workgroup.mem_of_mem_participants hm
    have hlow : low.role = c.role := (hrole (p := (slot, low)) (by rw [show parts = _ from hp]; exact List.mem_cons_self)).2
    have ho := onlyCrews_grouped pack t w parts low spec
    refine ⟨ho.scratch, (congrArg Workgroup.tiles ho).trans rfl, (congrArg Workgroup.accs ho).trans rfl,
      (congrArg Workgroup.bars ho).trans rfl, fun e he hr => ?_⟩
    have hl : Listed w e := ⟨hsorted, SMap.find?_of_mem hsorted he⟩
    refine (hl.grouped (by rw [hlow]; exact hr) (fun p hm => ?_) pack t spec).found
    exact hl.ne_of_role (hrole hm).1 (by rw [(hrole hm).2]; exact hr.symm)
  case join =>
    intro rel j stash keyOf output put hspec hrel hcols
    have hjoin : exec (.join k left a) s = joinRun t w parts low spec rel left false :=
      (exec_join s k left a).trans ((hruns _).trans (joinTake_join hspec hrel hcols))
    have hjoinc (hj : jcurDone j = false) : exec (.joinc k left a) s = joinRun t w parts low spec rel left true :=
      (exec_joinc s k left a).trans ((hruns _).trans (joinTake_joinc hspec hrel hcols hj))
    have hjput (w' : Workgroup) (j' : DWord) (o : List (Thread × Option Nat)) : joinPut t w parts low spec rel left w' j' o = put w' j' o := by
      rw [joinPut, hwid]
    refine ⟨⟨fun h => ?_, fun stop h => ⟨fun hroom => ?_, fun hroom => ?_⟩⟩, fun hj => ?_, fun hj => ⟨fun hroom => ?_, fun hroom =>
      ⟨fun h => ?_, fun stop h => ?_⟩⟩⟩
    · exact (hjoin.trans (joinRun_all h)).trans (hjput _ _ _)
    · exact (hjoin.trans ((joinRun_stashes h).trans (if_neg (Nat.not_lt.2 hroom)))).trans (hjput _ _ _)
    · exact hjoin.trans ((joinRun_stashes h).trans (if_pos hroom))
    · rw [exec_joinc, hruns, joinTake_passes hspec hrel hcols, hwid]
      exact if_pos hj
    · rw [hjoinc hj, joinRun_outside hroom]
    · exact ((hjoinc hj).trans (joinRun_ends hroom h)).trans (hjput _ _ _)
    · exact ((hjoinc hj).trans (joinRun_goes_on hroom h)).trans (hjput _ _ _)

end Sys2Proof.Machine
end
